-- ==== Sys2Proof/Word.lean ====
section
/-! DEFINITION. The word types of the LZ-940 model, byte strings, and sorted maps with natural-number keys. -/
namespace Sys2Proof

/-- One octet. -/
abbrev Byte := BitVec 8
/-- A 32-bit register word. -/
abbrev W32 := BitVec 32
/-- A 64-bit value: an address, a key handle, a wide register. -/
abbrev W64 := BitVec 64
/-- A string of octets, the lowest address or leftmost octet first. -/
abbrev Bytes := List Byte

/-- A sparse map from natural numbers: keys strictly rising (the canonical form), absent keys absent. -/
abbrev NMap (α : Type) := List (Nat × α)

/-- The value under key `k`, if the map lists one. -/
def NMap.find {α : Type} : NMap α → Nat → Option α
  | [], _ => none
  | (a, v) :: t, k => if a = k then some v else NMap.find t k

/-- The value under key `k`, or `d` where the map lists none. -/
def NMap.getD {α : Type} (m : NMap α) (k : Nat) (d : α) : α := (NMap.find m k).getD d

/-- The map with `v` under key `k`; a rising map stays rising. -/
def NMap.set {α : Type} : NMap α → Nat → α → NMap α
  | [], k, v => [(k, v)]
  | (a, w) :: t, k, v =>
    if k < a then (k, v) :: (a, w) :: t
    else if a = k then (k, v) :: t
    else (a, w) :: NMap.set t k v

/-- The map without key `k`. -/
def NMap.del {α : Type} (m : NMap α) (k : Nat) : NMap α := m.filter fun p => p.1 != k

/-- The map with `f` applied to every value. -/
def NMap.mapV {α β : Type} (m : NMap α) (f : Nat → α → β) : NMap β := m.map fun p => (p.1, f p.1 p.2)

/-- Whether the keys rise strictly: the canonical form of a sparse map. -/
def NMap.wf {α : Type} (m : NMap α) : Bool := decide (m.Pairwise fun a b => a.1 < b.1)

end Sys2Proof
end

