-- ==== Sys2Proof/Syntax/Operands.lean ====
section
/-! DEFINITION. The operands of the LZ-940's commands: pages, windows, host reads, engines, how an engine's work ends. -/
namespace Sys2Proof

/-- What a register write can reach: the windows of BAR 0 and BAR 4-5 (Table 2.1), and configuration space (R25, R29). -/
inductive Window where
  | control | slice | config
  deriving DecidableEq, Repr

/-- The three windows that a read can reach (Table 2.1). -/
inductive Space where
  | control | doorbell | slice
  deriving DecidableEq, Repr

/-- A register page of Table 2.3 or of a slice part (R28). -/
inductive Page where
  | glb | baro | pwr | rng | lcs | tmp | ldg | mem | clu
  | zl (n : Fin 4)
  | qsc
  | slm (n : Fin 16)
  | pkt (n : Fin 96)
  | scl (n : Fin 128)
  | core (n : Fin 16)
  | mpu (n : Fin 53)
  | kst | cus
  | slc (s : Fin 4096)
  | mbx (s : Fin 4096)
  | tel (s : Fin 4096) (k : Fin 2)
  deriving DecidableEq, Repr

/-- How a failed host read ended (R63, R65): the FCAUSE codes 1 to 4 of Table 3.8, in order. -/
inductive ReadCause where
  | unsupported | completerAbort | timeout | poisoned
  deriving DecidableEq, Repr

/-- The FCAUSE code of a failed read (Table 3.8). -/
def ReadCause.code : ReadCause → Nat
  | .unsupported => 1 | .completerAbort => 2 | .timeout => 3 | .poisoned => 4

/-- What a read of host memory returned: the octets, or a failure once every part has ended (R63). -/
inductive HostRead where
  | failed (c : ReadCause)
  | data (b : Bytes)
  deriving DecidableEq, Repr

/-- A host read of a window (R26): the 8-byte block it lies in and the byte enables. -/
structure HostLoad where
  addr : BitVec 29
  be : BitVec 8 := 0xFF
  deriving DecidableEq, Repr

/-- A write of PG_CTRL.OFFLINE (R32): the bit written, and the word that a bench tile's wipe finds non-zero (R137). -/
structure OfflineWrite where
  on : Bool
  wipeBad : Option (Fin 16384) := none
  deriving DecidableEq, Repr

/-- The read of a transition request, and the words that the wipes of bench tiles find non-zero (R133, R137). -/
structure TransRead where
  req : HostRead
  wipeBad : List (Fin 96 × Fin 16384) := []
  deriving DecidableEq, Repr

/-- The class FIFOs of Table 4.1. -/
inductive Fifo where
  | pk | bulk | sym | key | rng
  deriving DecidableEq, Repr

/-- An engine that is free and offered to a job: which of the free ones a job takes is not specified (R80). -/
inductive Engine where
  | tile (n : Fin 96)
  | pairs (l : List (Fin 64))
  | lane (n : Fin 128)
  | keccak (quad : Fin 24)
  | worker (n : Fin 8)
  | drbg (n : Fin 8)
  | member (id : Fin 64)
  deriving DecidableEq, Repr

/-- How an engine's run ends (R115, R116, R184): released, or stopped by a failed check, by a completion
detector, or by the ML-DSA iteration bound. -/
inductive EngineEnd where
  | ok | checkFailed | detector | iterationBound
  deriving DecidableEq, Repr

/-- How a block's self-test ends (R32, R409, Table 19.3). -/
inductive SelfTest where
  | pass | fail | microcode
  deriving DecidableEq, Repr

/-- What an access of a master does (R327). -/
inductive AccessKind where
  | read | write | fetch
  deriving DecidableEq, Repr

/-- An access as the gates judge it (R325): its master, its 48-bit address, the level of a core's access, the slice that a DMA
or fetch engine acts for, the partition whose code makes it. -/
structure GateAccess where
  master : Fin 53
  kind : AccessKind := .read
  level : Fin 4 := 0
  addr : BitVec 48
  slice : Fin 4096 := 0
  part : Option (Fin 32) := none
  deriving DecidableEq, Repr

/-- Errors of a line's burst as it comes back from DRAM, by symbol (R334): 40 symbols, one for each DQ pin's 16 beats. -/
abbrev Burst := List (Fin 40 × BitVec 16)

/-- What an access to device memory meets: how a line came back through inline encryption (R335 to R339), or as an earlier
copy (R240); a whole access of a master, judged by the gates and the inline engine on the octets it writes (for a read, as
many as it asks for) and the errors of the burst; a read by the key store's deep-store port, whose only gate is the POT. -/
inductive MemOutcome where
  | ok
  | corrected
  | tagFail (line : Nat)
  | poisonedLine (line : Nat)
  | partialWrite (line : Nat)
  | retiredKey (line : Nat)
  | replayed
  | access (a : GateAccess) (data : Bytes) (errs : Burst)
  | deepPort (line : Nat) (errs : Burst)
  deriving DecidableEq, Repr

/-- How a job's run on its engines ends: the engine's own outcome, the address of a word whose wipe reads back
non-zero (R137), what device memory answered (R335), octets released before a stop (R177); and how the instance ends that
serves the generate requests made at this end, after the first `rngAt` of them (R197, R199). -/
structure RunEnd where
  eng : EngineEnd := .ok
  wipeBad : Option (Fin 16384) := none
  mem : MemOutcome := .ok
  released : Nat := 0
  hashUnit : Bool := false
  rng : EngineEnd := .ok
  rngAt : Nat := 0
  deriving DecidableEq, Repr

/-- What a recalibration measured at each of the 16 values of TRIM (R194): the magnitudes of the bias and of the lag-1
correlation of its 16,384 raw bits, on one scale. -/
structure RecalScan where
  found : List (Nat × Nat) := List.replicate 16 (0, 0)
  deriving DecidableEq, Repr

/-- What the samples of every 1 ms give while the core is powered: the replica's pace (R83), Tj in °C and VCAP_VAULT in 10 mV
(Table 15.10, sensors 11 and 15). -/
structure BaroSample where
  pace : Nat
  tj : BitVec 16 := 25
  vcap : BitVec 10 := 500
  deriving DecidableEq, Repr

/-- Results of the known-answer tests of a cycle (R208): the conditioner, then instances 0 to 7. -/
structure KatRun where
  conditioner : Bool := true
  inst : List Bool := List.replicate 8 true
  deriving DecidableEq, Repr

/-- What a start finds in the hardware (Table 17.3): whether each copy of each image class verifies, whether each flash
port answers, the SOSC, the known-answer tests, the 1,024 bits of each start-up attempt per source (Table 9.2), DRAM training and GiB per
channel, tiles, pairs and quad Keccak units that fail their self-test, SEQ and D of the Ledger region's last record where it is not the one written last, the archive pages whose copy A or
copy B fails, SEQs lost without a flush, whether each class's digest matches the resume digest. -/
structure StartEnv where
  copySel : List Bool := [true, true, true, true]
  copySpare : List Bool := [true, true, true, true]
  port0 : Bool := true
  port1 : Bool := true
  soscKhz : Nat := 16000
  kat : KatRun := {}
  srcBlocks : List (List Bytes) := List.replicate 8 (List.replicate 4 (List.replicate 128 0x55#8))
  words : List Bytes := []
  dram0 : Bool := true
  dram1 : Bool := true
  gib0 : Nat := 8
  gib1 : Nat := 0
  tileFail : List (Fin 96) := []
  pairFail : List (Fin 64) := []
  keccakFail : List (Fin 24) := []
  region : Option (Nat × Bytes) := none
  pagesBadA : List (Fin 256) := []
  pagesBadB : List (Fin 256) := []
  lost : Option (Nat × Nat) := none
  resumeOk : List Bool := [true, true, true, true]
  deriving DecidableEq, Repr

/-- A Zentulink frame as it arrives (Table 13.2): the header's fields, and in `body` the ciphertext with the tag after it, so
that LEN is 16 less than its length. `last`: no further frame goes on with the same payload, which its own layout, not
described (R292), tells. -/
structure FrameHdr where
  nak : Bool := false
  last : Bool := true
  src : Fin 64 := 0
  dst : Fin 64 := 0
  epoch : Nat := 0
  ctr : Nat := 0
  body : Bytes := []
  deriving DecidableEq, Repr

/-- The AUTH exchange that LINK frames carry (R293): the peer's UID, its ephemeral public key, the device-identity key of its
certificate and whether that verifies under the vendor production root, its signature. -/
structure AuthMsg where
  uid : Bytes
  eph : Bytes := []
  key : Bytes := []
  certOk : Bool := true
  sig : Bytes := []
  deriving DecidableEq, Repr

/-- What a HEARTBEAT payload holds once opened: engines in service and free for work by class, whether the sender's own
entropy source is HEALTHY (R303), which of its links are UP (R291). Its layout is not described (R292). -/
structure HbMsg where
  tiles : Fin 97 := 0
  pairs : Fin 65 := 0
  quads : Fin 25 := 0
  healthy : Bool := false
  links : BitVec 4 := 0
  deriving DecidableEq, Repr

/-- A HEARTBEAT frame as it arrives: its header and, once opened, its payload (R292, R301). -/
structure HbFrame where
  hdr : FrameHdr := {}
  msg : HbMsg := {}
  deriving DecidableEq, Repr

/-- What a KEYMOVE payload holds once opened (R295, R304, R306); its own layout is not described (R292). `ended`: the key's
counter is at its end and no range is left; `created`: the material of a key that a job on the member has made; `abandon`: the
ranges held so far are void; `versions`: the replica versions that now hold, by set (R308). -/
inductive KeyMove where
  | replica (handle : BitVec 64) (alg pset : BitVec 8) (home : BitVec 8) (resident : Bool) (material : Bytes)
  | erase (handle : BitVec 64)
  | range (handle : BitVec 64) (first last : BitVec 64)
  | askRange (handle : BitVec 64)
  | ended (handle : BitVec 64)
  | created (job : Nat) (material : Bytes)
  | abandon
  | versions (l : List (BitVec 8 × BitVec 64))
  deriving DecidableEq, Repr

/-- What a ROSTER payload holds once opened (R291, R299, R308): the roster, the receiver's forwarding table, the approval that
the head forwards to a joining unit (request, KIND 4 challenge, group 0 record, token entries), and whether the head's
signature over a roster sent to a returning member verifies. -/
structure RosterMsg where
  ver : BitVec 32
  topo : BitVec 8
  headUid : Bytes
  ids : List (Fin 64 × Bytes)
  table : List (Fin 64 × Fin 4) := []
  request : Bytes := []
  challenge : Bytes := []
  groupRec : Bytes := []
  tokens : List Bytes := []
  signed : Bool := false
  deriving DecidableEq, Repr

/-- What an ACK frame says (R294, R298, R308): the frame a NAK names, the roster version its sender has taken, the replica
versions it has applied, by set, that it has left the cluster. The payload's own layout is not described. -/
structure AckMsg where
  named : Nat := 0
  ver : BitVec 32 := 0
  vers : List (BitVec 8 × BitVec 64) := []
  left : Bool := false
  deriving DecidableEq, Repr

/-- What a JOB payload holds once opened (R303, R304): the head's own number for the job, or for an item's job and the item's
index; the entry and its input (an item travels as the PK_VERIFY it amounts to); the public halves of keys it names by
handle; IV_FIXED of KEY_A; the block of a loaded curve. Its layout is not described (R292). -/
structure RemoteJob where
  id : Nat
  item : Option Nat := none
  entry : Bytes := []
  input : Bytes := []
  pubA : Bytes := []
  pubB : Bytes := []
  ivFixed : BitVec 26 := 0
  curve : Bytes := []
  deriving DecidableEq, Repr

/-- What a RESULT payload holds once opened (R304, R310): the job or item it answers, how the engine's run ended there, the
value its member took from its range, or the code and detail it ended with before any engine. -/
structure RemoteResult where
  job : Nat
  item : Option Nat := none
  run : RunEnd := {}
  pairs : Nat := 0
  inv : Option Nat := none
  refused : Option (Nat × Nat) := none
  deriving DecidableEq, Repr

/-- What happens to a link's physical layer (R291, R294): it trains at a width, or it goes down. -/
inductive LinkEvent where
  | trained (width : Fin 5)
  | lost
  deriving DecidableEq, Repr

/-- The classes of input that a partition parses (Table 14.3), with what was being parsed. -/
inductive ParsedInput where
  | rldOrRecord (job : Nat)
  | quorum (job : Nat)
  | sliceBlock | clusterRequest
  | certificate (port : Fin 4)
  | framePayload (port : Fin 4)
  | lifeCycle
  deriving DecidableEq, Repr

/-- A partition's fault (R318): the input it parsed, and the access of its own that was denied, or `none` for a fault of its
second-stage translation. -/
structure PartFault where
  inp : ParsedInput
  access : Option (AccessKind × BitVec 48) := none
  deriving DecidableEq, Repr

/-- What a debugger does to a core (R356). -/
inductive CoreOp where
  | halt | resume | step | reg (n : Fin 32) | pc | counters
  deriving DecidableEq, Repr

/-- What an access through the debug port names: an internal address, or a core and what is done to it (R356). -/
inductive DebugTarget where
  | mem (addr : BitVec 48)
  | core (n : Fin 16) (op : CoreOp)
  deriving DecidableEq, Repr

/-- The number of an input class, in the order of Table 14.3. -/
def ParsedInput.code : ParsedInput → Nat
  | .rldOrRecord _ => 1 | .quorum _ => 2 | .sliceBlock => 3 | .clusterRequest => 3
  | .certificate _ => 4 | .framePayload _ => 5 | .lifeCycle => 6

/-- Wake causes as PWR_STATE.WAKE reports them (Table 17.5). -/
inductive WakeCause where
  | host | gpio | smbus | tick | perst | internal | tamper | zentulink
  deriving DecidableEq, Repr

/-- The code of a wake cause (Table 17.5). -/
def WakeCause.code : WakeCause → Nat
  | .host => 1 | .gpio => 2 | .smbus => 3 | .tick => 4 | .perst => 5 | .internal => 6 | .tamper => 7 | .zentulink => 8

/-- Causes of a SYSTEM reset (Table 17.4; R437 adds the test access port). -/
inductive SysCause where
  | sysResetN | perstN | hotReset | linkDown | jtag
  deriving DecidableEq, Repr

/-- The model's own number of a SYSTEM reset's cause. -/
def SysCause.code : SysCause → Nat
  | .sysResetN => 1 | .perstN => 2 | .hotReset => 3 | .linkDown => 4 | .jtag => 5

/-- A half of the ring base pair or SL_RING_CFG (Table 3.8). -/
inductive RingReg where
  | baseLo | baseHi | cfg
  deriving DecidableEq, Repr

end Sys2Proof
end

