-- ==== Sys2Proof/Syntax.lean ====
section
/-! DEFINITION. The commands the LZ-940 takes: one constructor per row of spec/opcode_table.json, in the table's order. -/
namespace Sys2Proof

/-- A command or event. Each docstring gives the row's mnemonic, its rule, and the row's own summary. -/
inductive Instr where
  /-- REGISTER_WRITE (R26). A host write to a register page that has no row of its own is applied, refused under R35, or dropped under R26. -/
  | registerWrite (win : Window) (addr : BitVec 26) (be : BitVec 8) (data : BitVec 64)
  /-- WIDE_LO_READ (R38). A read of a _LO register latches the matching _HI half for the pair. -/
  | wideLoRead (win : Space) (addr : HostLoad)
  /-- PG_LOCK_WRITE (R36). Writing PG_LOCK.LOCK = 1 freezes the page's RWL fields until a reinitialising reset. -/
  | pgLockWrite (pg : Page) (lock : Bool)
  /-- PG_INT_EN_WRITE (R34). Writing PG_INT_EN sets the enables and sends a message for any newly enabled bit that already reads 1. -/
  | pgIntEnWrite (pg : Page) (en : BitVec 32)
  /-- PG_CTRL_ENABLE (R32). PG_CTRL.ENABLE = 1 powers an OFF block into SERVICING, and ENABLE = 0 drains it and requests gating, refused with LEASE_DENIED under lease. -/
  | pgCtrlEnable (pg : Page) (on : Bool)
  /-- PG_CTRL_DRAIN (R32). PG_CTRL.DRAIN set or cleared stops or resumes new work on the block. -/
  | pgCtrlDrain (pg : Page) (on : Bool)
  /-- PG_CTRL_OFFLINE (R32). PG_CTRL.OFFLINE = 1 drains the block out of the pool, and OFFLINE = 0 returns it through SERVICING. -/
  | pgCtrlOffline (pg : Page) (on : OfflineWrite)
  /-- BLOCK_DRAINED (R32). The last job on a draining block ends, and the block reads OFFLINE or is gated to OFF as its request asked. -/
  | blockDrained (pg : Page)
  /-- SELF_TEST_DONE (R409). A block in SERVICING finishes loading microcode and its self-test, and reads READY, OFFLINE or FAULT. -/
  | selfTestDone (pg : Page) (r : SelfTest)
  /-- MSIX_UNMASK (R70). Unmasking an MSI-X vector with its pending bit set sends one message. -/
  | msixUnmask (vec : Fin 2048)
  /-- GLB_FEAT_COMMIT (R43). Writing GO evaluates the device feature ACCEPT words and accepts or refuses them. -/
  | glbFeatCommit
  /-- DOORBELL (R56). A doorbell write acts on its ring: IDLE to SCANNING, rescan-pending set, or counted as stray. -/
  | doorbell (addr : BitVec 29) (be : List Bool)
  /-- FETCH_TURN (R77). A free fetch channel chooses an eligible ring by the two-level weighted round robin and issues its entry read. -/
  | fetchTurn
  /-- ENTRY_READ_COMPLETE (R57). An entry read returns and the ring accepts the entry, goes IDLE, rescans, or enters FAULT. -/
  | entryReadComplete (slice : Fin 4096) (ring : Fin 16384) (r : HostRead)
  /-- INPUT_READ_COMPLETE (R63). A job's input staging read finishes, making the job staged or completing it with BAD_HOST_ADDRESS. -/
  | inputReadComplete (job : Nat) (item : Option Nat) (r : HostRead)
  /-- JOB_BINDING (R20). A staged job at its FIFO's turn binds a free engine, and the key store checks and charges its handles. -/
  | jobBinding (fifo : Fifo) (eng : Engine) (mem : MemOutcome) (rng : EngineEnd)
  /-- RING_ENABLE (R68). ENABLE on a DISABLED ring sets the scan index to 0 and the state to SCANNING. -/
  | ringEnable (slice : Fin 4096)
  /-- RING_DISABLE (R67). DISABLE stops fetching, and the ring reads STOPPING until its outstanding jobs end. -/
  | ringDisable (slice : Fin 4096)
  /-- RING_DISABLE_ABORT (R67). DISABLE_ABORT stops fetching and aborts every outstanding job with ABORTED. -/
  | ringDisableAbort (slice : Fin 4096)
  /-- RING_RESUME (R66). RESUME clears the FAULT bit and sets a faulted ring SCANNING on the same index. -/
  | ringResume (slice : Fin 4096)
  /-- RING_CONFIG_WRITE (R69). A write to SL_RING_BASE or SL_RING_CFG is checked against the configuration it would produce. -/
  | ringConfigWrite (slice : Fin 4096) (reg : RingReg) (v : BitVec 32)
  /-- RING_SCHED_WRITE (R78). A write to SL_RING_SCHED changes the ring's weight, clamping its credit, or its burst. -/
  | ringSchedWrite (slice : Fin 4096) (v : BitVec 32)
  /-- QSC_SLICE_WEIGHT_WRITE (R78). A write to QSC_SLICE_WEIGHT changes the slice weight and clamps its credit. -/
  | qscSliceWeightWrite (v : BitVec 32)
  /-- QSC_RING_DISABLE (R73). A manager DISABLE of a ring acts as R67, sets RING_STOPPED and writes a NOTICE record. -/
  | qscRingDisable
  /-- QSC_RING_DISABLE_ABORT (R73). A manager DISABLE_ABORT of a ring aborts its jobs, sets RING_STOPPED and writes a NOTICE record. -/
  | qscRingDisableAbort
  /-- HWM_CLR (R88). QSC_FIFO_CLR.HWM_CLR sets every FIFO high-water mark to its fill. -/
  | hwmClr
  /-- JOB_TIME_LIMIT (R89). A bound job reaches QSC_JOB_LIMIT and ends with ABORTED, detail 0x0010. -/
  | jobTimeLimit (job : Nat)
  /-- BARO_UPDATE (R83). Every 1 ms the Barometer updates BARO_PACE, SEQ and BARO_MIN. -/
  | baroUpdate (reading : BaroSample) (ack : Bool)
  /-- HOST_RTT_INTERVAL (R84). At the end of each 1 s interval BARO_HOST_RTT takes the MAX and MEAN round trip. -/
  | hostRttInterval (reads maxNs meanNs : Nat)
  /-- MIN_CLR (R85). BARO_CTRL.MIN_CLR sets BARO_MIN to the current PACE. -/
  | minClr
  /-- BARO_TARGET_WRITE (R86). A BARO_TARGET write is checked and then starts, retargets or stops the voltage loop. -/
  | baroTargetWrite (v : BitVec 32) (vout : Option Nat)
  /-- BARO_VLIM_WRITE (R86). A BARO_VLIM write is checked against the 600–900 mV limits. -/
  | baroVlimWrite (v : BitVec 32)
  /-- PK_SIGN (R100). A tile signs the digest or message under KEY_A and releases the checked signature. -/
  | pkSign (job : Nat) (r : RunEnd)
  /-- PK_VERIFY (R118). A tile verifies a signature and completes with OK or an edge-input code. -/
  | pkVerify (job : Nat) (r : RunEnd)
  /-- PK_KEYGEN (R99). A tile generates a key pair, stores it as a new key and outputs its public key. -/
  | pkKeygen (job : Nat) (r : RunEnd)
  /-- PK_DERIVE (R102). A tile derives a shared secret by ECDH or XDH and stores it as a new key. -/
  | pkDerive (job : Nat) (r : RunEnd)
  /-- KEM_ENCAPS (R105). A tile encapsulates under an ML-KEM key, outputs the ciphertext and stores K. -/
  | kemEncaps (job : Nat) (r : RunEnd)
  /-- KEM_DECAPS (R105). A tile decapsulates a ciphertext and stores K, or the implicit-rejection key K̄. -/
  | kemDecaps (job : Nat) (r : RunEnd)
  /-- RSA_ENCRYPT (R103). A tile encrypts a message with RSA-OAEP. -/
  | rsaEncrypt (job : Nat) (r : RunEnd)
  /-- RSA_DECRYPT (R103). A tile decrypts RSA-OAEP and returns the plaintext or stores it as a key. -/
  | rsaDecrypt (job : Nat) (r : RunEnd)
  /-- WARM_TABLE_BUILT (R111). A warm table finishes building in its home quad, and verifications under the key can run warm. -/
  | warmTableBuilt (handle : BitVec 64)
  /-- BATCH_VERIFY (R145). A batch job is split into items, and the bitmap and RESULT are written when every item has an outcome. -/
  | batchVerify (job : Nat) (r : RunEnd)
  /-- CHAIN_VERIFY (R153). A chain job parses records and checks links, sequence numbers and signatures, ending with OK or CHAIN_BREAK. -/
  | chainVerify (job : Nat) (r : RunEnd)
  /-- BULK_ITEM_COMPLETE (R141). A bulk item's verification ends on its tile, and its outcome is recorded or the item is retried. -/
  | bulkItemComplete (job item : Nat) (r : RunEnd)
  /-- RLD_LOAD (R149). RLD_LOAD with ACTION LOAD checks an RLD against Table 7.6 and installs it. -/
  | rldLoad (job : Nat) (r : RunEnd)
  /-- RLD_UNLOAD (R150). RLD_LOAD with ACTION UNLOAD removes an RLD ID from the slice. -/
  | rldUnload (job : Nat) (r : RunEnd)
  /-- CURVE_LOAD (R125). CURVE_LOAD with ACTION LOAD reserves slots, runs the sanity checks and commits the curve. -/
  | curveLoad (job : Nat) (tile : Fin 96) (r : RunEnd)
  /-- CURVE_UNLOAD (R129). CURVE_LOAD with ACTION UNLOAD removes a curve ID from the slice's visible set. -/
  | curveUnload (job : Nat) (r : RunEnd)
  /-- BENCH_ENTER (R132). PKT_BENCH_CTRL.ENTER disconnects the key path, wipes the tile and enters bench mode. -/
  | benchEnter (tile : Fin 96) (wipeBad : Option (Fin 16384))
  /-- BENCH_EXIT (R133). PKT_BENCH_CTRL.EXIT wipes the tile, leaves bench mode and reconnects the key path. -/
  | benchExit (tile : Fin 96) (wipeBad : Option (Fin 16384))
  /-- BENCH_ABORT (R138). PKT_BENCH_CTRL.ABORT stops the running bench command with ERR 0x7. -/
  | benchAbort (tile : Fin 96)
  /-- BENCH_DATA_ACCESS (R134). An access to PKT_BENCH_DATA_HI transfers an operand word and increments PKT_BENCH_ADDR. -/
  | benchDataAccess (tile : Fin 96) (write : Bool) (v : BitVec 32)
  /-- SETMOD (R135). Bench command SETMOD takes A as the modulus and derives its constants. -/
  | setmod (tile : Fin 96) (l : BitVec 8)
  /-- MUL (R135). Bench command MUL computes the Montgomery product of A and B. -/
  | benchMul (tile : Fin 96) (l : BitVec 8)
  /-- SQR (R135). Bench command SQR computes the Montgomery square of A. -/
  | benchSqr (tile : Fin 96) (l : BitVec 8)
  /-- ADD (R135). Bench command ADD computes A + B mod m. -/
  | benchAdd (tile : Fin 96) (l : BitVec 8)
  /-- SUB (R135). Bench command SUB computes A - B mod m. -/
  | benchSub (tile : Fin 96) (l : BitVec 8)
  /-- TOMONT (R135). Bench command TOMONT converts A to Montgomery form. -/
  | tomont (tile : Fin 96) (l : BitVec 8)
  /-- FROMMONT (R135). Bench command FROMMONT converts A out of Montgomery form. -/
  | frommont (tile : Fin 96) (l : BitVec 8)
  /-- INV (R135). Bench command INV computes A⁻¹ mod m. -/
  | benchInv (tile : Fin 96) (l : BitVec 8)
  /-- CMP (R135). Bench command CMP compares A and B and sets the CMP field. -/
  | benchCmp (tile : Fin 96) (l : BitVec 8)
  /-- COPY (R135). Bench command COPY copies A to D. -/
  | benchCopy (tile : Fin 96) (l : BitVec 8)
  /-- CLEAR (R135). Bench command CLEAR zeroes L words at D. -/
  | benchClear (tile : Fin 96) (l : BitVec 8)
  /-- NTT_DSA (R135). Bench command NTT_DSA computes the forward ML-DSA NTT. -/
  | nttDsa (tile : Fin 96) (l : BitVec 8)
  /-- INTT_DSA (R135). Bench command INTT_DSA computes the inverse ML-DSA NTT. -/
  | inttDsa (tile : Fin 96) (l : BitVec 8)
  /-- PWM_DSA (R135). Bench command PWM_DSA computes the pointwise product mod q. -/
  | pwmDsa (tile : Fin 96) (l : BitVec 8)
  /-- NTT_KEM (R135). Bench command NTT_KEM computes the forward ML-KEM NTT. -/
  | nttKem (tile : Fin 96) (l : BitVec 8)
  /-- INTT_KEM (R135). Bench command INTT_KEM computes the inverse ML-KEM NTT. -/
  | inttKem (tile : Fin 96) (l : BitVec 8)
  /-- BASEMUL_KEM (R135). Bench command BASEMUL_KEM computes the ML-KEM base-case product. -/
  | basemulKem (tile : Fin 96) (l : BitVec 8)
  /-- BENCH_COMMAND_DONE (R136). A running bench command ends, DONE and ERR are set, and WAVES is reported. -/
  | benchCommandDone (tile : Fin 96) (e : EngineEnd) (wipeBad : Option (Fin 16384))
  /-- AEAD_SEAL (R168). Lane pairs seal a payload under an AEAD key with a device-formed or supplied nonce. -/
  | aeadSeal (job : Nat) (r : RunEnd)
  /-- AEAD_OPEN (R179). Lane pairs open an AEAD message and check its tag, scrubbing on failure when asked. -/
  | aeadOpen (job : Nat) (r : RunEnd)
  /-- CIPHER (R164). Lane pairs encrypt, decrypt, wrap or unwrap data under a cipher key. -/
  | cipher (job : Nat) (r : RunEnd)
  /-- HASH (R185). A lane or Keccak unit hashes a message and writes the digest. -/
  | hash (job : Nat) (r : RunEnd)
  /-- MAC_GEN (R164). Lane pairs compute a MAC tag. -/
  | macGen (job : Nat) (r : RunEnd)
  /-- MAC_CHECK (R181). Lane pairs compute a MAC and compare it with the supplied tag. -/
  | macCheck (job : Nat) (r : RunEnd)
  /-- KDF (R163). Lane pairs derive a new key from KEY_A, with no octet written to the host. -/
  | kdf (job : Nat) (r : RunEnd)
  /-- TL_GO (R188). TL_CTRL.GO checks the teller operation and starts it on the next free lane pair. -/
  | tlGo (slice : Fin 4096) (k : Fin 2) (pair : Fin 64) (mem : MemOutcome) (rng : EngineEnd)
  /-- TL_ABORT (R189). TL_CTRL.ABORT stops the running teller operation with ABORTED and zeroes TL_DOUT. -/
  | tlAbort (slice : Fin 4096) (k : Fin 2)
  /-- TL_CLEAR (R187). TL_CTRL.CLEAR zeroes the teller data, parameter, result, status and length registers and sets STATE to IDLE. -/
  | tlClear (slice : Fin 4096) (k : Fin 2)
  /-- TELLER_DONE (R189). A teller operation finishes and writes its outputs, STATE DONE and TL_DONE. -/
  | tellerDone (slice : Fin 4096) (k : Fin 2) (r : RunEnd)
  /-- SOSC_MEASURE (R191). Each tick the SOSC frequency is measured, and an out-of-range value benches every source. -/
  | soscMeasure (khz : BitVec 16)
  /-- RAW_BLOCK (R194). A source completes a 1,024-bit raw block, which is health-tested and then conditioned or discarded. -/
  | rawBlock (src : Fin 8) (bits : Bytes)
  /-- SOURCE_BENCH_END (R194). A benched source's 1 s bench period ends, and it enters RECAL. -/
  | sourceBenchEnd (src : Fin 8)
  /-- RECAL_COMPLETE (R194). Recalibration of a source ends with a chosen TRIM, and the source enters STARTUP. -/
  | recalComplete (src : Fin 8) (scan : RecalScan)
  /-- STARTUP_TEST_DONE (R194). A source's start-up test ends, making it ACTIVE or benching it again, or retiring it. -/
  | startupTestDone (src : Fin 8) (bits : Bytes)
  /-- ES_RECOVERY (R207). The FAILED conditions clear, instances are reseeded or instantiated, and RUN returns to READY. -/
  | esRecovery (kat : KatRun)
  /-- RNG_READ (R200). A host DRBG instance generates OUT_LEN octets and writes them at OUT_ADDR. -/
  | rngRead (job : Nat) (r : RunEnd)
  /-- RNG_PR_TIMEOUT (R202). A prediction-resistance reseed finds no pool word within 1 ms and ends with RNG_NOT_READY. -/
  | rngPrTimeout (job : Nat)
  /-- KAT (R208). RNG_CTRL.KAT starts a known-answer test cycle. -/
  | kat (kat : KatRun)
  /-- KAT_CYCLE (R208). Every 24 h of OPTIME a test cycle runs over the conditioner and the eight instances. -/
  | katCycle (kat : KatRun)
  /-- CONDITIONER_RETEST (R208). After a conditioner test failure, the conditioner is retested every 64 ticks. -/
  | conditionerRetest (ok : Bool)
  /-- RECAL (R209). RNG_SRC_CTRL.RECAL recalibrates the selected source at once. -/
  | recal
  /-- RNG_RESEED_WRITE (R198). A write to RNG_RESEED.LIMIT may only lower the limit, and is recorded at NOTICE. -/
  | rngReseedWrite (v : BitVec 32)
  /-- RNG_START_RETRY (R204). A failed start of the random service repeats from step 1 every 64 ticks. -/
  | rngStartRetry (env : StartEnv)
  /-- KEY_IMPORT (R231). A worker imports plain or KWP-wrapped key material, checks it and creates a key. -/
  | keyImport (job : Nat) (aux : List Engine) (r : RunEnd)
  /-- KEY_EXPORT (R233). A key is exported wrapped, as a blob, or as its public part. -/
  | keyExport (job : Nat) (aux : List Engine) (r : RunEnd)
  /-- BLOB_LOAD (R235). A blob is checked against Table 10.13 and recreated as a key. -/
  | blobLoad (job : Nat) (aux : List Engine) (r : RunEnd)
  /-- KEY_DELETE (R238). A key is deleted at the arbiter's decision, taking a filter entry for a DEEP key. -/
  | keyDelete (job : Nat) (r : RunEnd)
  /-- KEY_ATTR_GET (R236). The attribute record of KEY_A is written at OUT_ADDR. -/
  | keyAttrGet (job : Nat) (r : RunEnd)
  /-- KEY_ATTR_RESTRICT (R237). The attributes of KEY_A are narrowed, or WARM is changed. -/
  | keyAttrRestrict (job : Nat) (r : RunEnd)
  /-- PUBKEY_LOAD (R232). A public key is validated and created as a KTYPE 2 key. -/
  | pubkeyLoad (job : Nat) (aux : List Engine) (r : RunEnd)
  /-- KST_COMPACT_GO (R241). KST_COMPACT_CTRL.GO starts compaction of the selected segment. -/
  | kstCompactGo
  /-- COMPACTION_DONE (R241). Compaction of a segment ends: the old KeyID is retired, filter entries are freed and COMPACT_DONE is set. -/
  | compactionDone
  /-- KST_RES_PURGE_GO (R246). KST_RES_PURGE.GO erases every archive record of the named slice. -/
  | kstResPurgeGo
  /-- ARCHIVE_WRITE_COMPLETE (R244). A background archive page update commits both copies, and bindings waiting on a ceiling proceed. -/
  | archiveWriteComplete (handle : BitVec 64)
  /-- QUORUM_CHALLENGE (R253). An approval is issued and the 128-octet challenge is output. -/
  | quorumChallenge (job : Nat) (r : RunEnd)
  /-- QUORUM_SUBMIT (R256). Token entries are checked and placed on tiles for verification over the challenge. -/
  | quorumSubmit (job : Nat) (r : RunEnd)
  /-- TOKEN_VERIFIED (R258). A token's verification completes, and the custodian is counted, possibly granting the approval. -/
  | tokenVerified (job token : Nat) (tile : Fin 96) (r : RunEnd)
  /-- APPROVAL_WINDOW_END (R254). At T_END an approval is freed, with a NOTICE record if it was granted and unused. -/
  | approvalWindowEnd (slot : Fin 1024)
  /-- CHALLENGE (R275). SLM CHALLENGE draws a claim nonce for a FREE slice and sets T_END. -/
  | challenge
  /-- CREATE (R273). SLM CREATE checks the block, assigns resources, reattaches resident keys and makes the slice ACTIVE. -/
  | create (blk : HostRead)
  /-- RESIZE (R276). SLM RESIZE replaces a slice's whole allocation, or changes nothing. -/
  | resize (blk : HostRead)
  /-- HOLD (R277). SLM HOLD moves a slice to HELD, stopping fetch turns and teller starts. -/
  | hold
  /-- RELEASE (R277). SLM RELEASE returns a HELD slice to ACTIVE. -/
  | release
  /-- DESTROY (R278). SLM DESTROY makes the slice DESTROYING and aborts its rings, streams and approvals. -/
  | destroy
  /-- SLICE_ERASE_COMPLETE (R278). After its in-flight jobs end, a destroyed slice's keys and resources are erased and it reads FREE. -/
  | sliceEraseComplete (slice : Fin 4096)
  /-- SL_FEAT_COMMIT (R281). SL_FEAT_COMMIT.GO evaluates the slice's ACCEPT words and accepts or refuses them. -/
  | slFeatCommit (slice : Fin 4096)
  /-- MB_SEND (R283). The tenant sends its mailbox message to the manager and sets FULL. -/
  | mbSend (slice : Fin 4096)
  /-- MB_IN_ACK (R283). The tenant acknowledges the manager's message, freeing the manager's side. -/
  | mbInAck (slice : Fin 4096)
  /-- SLM_MB_TX_SEND (R286). The manager sends a mailbox message to the selected slice. -/
  | slmMbTxSend
  /-- SLM_MB_RX_ACK (R286). The manager acknowledges the selected slice's message and raises MB_TX_FREE there. -/
  | slmMbRxAck
  /-- EXECUTE (R297). CLU EXECUTE checks a countersigned cluster request and applies the roster change. -/
  | execute (req : HostRead)
  /-- CLU_REPL_MASK_WRITE (R306). A write to a replication set's mask changes which members receive replicas. -/
  | cluReplMaskWrite (mask : BitVec 64)
  /-- HEARTBEAT_SEND (R301). Every tick each cluster unit sends a HEARTBEAT frame to its peer. -/
  | heartbeatSend
  /-- HEARTBEAT (R301). An accepted HEARTBEAT frame renews the sender's liveness window. -/
  | heartbeat (port : Fin 4) (f : HbFrame)
  /-- MEMBER_LOST (R309). A member's liveness window ends with no heartbeat: it is LOST and its jobs are replaced or ended. -/
  | memberLost (id : Fin 64)
  /-- HEAD_TIMEOUT (R302). A member that has heard no head heartbeat for HB_TIMEOUT stops its jobs and waits. -/
  | headTimeout
  /-- LINK (R293). A LINK frame carries the AUTH exchange that sets up per-direction link keys. -/
  | linkFrame (port : Fin 4) (f : FrameHdr) (auth : AuthMsg)
  /-- JOB (R303). A JOB frame delivers a distributed job or item to a member. -/
  | jobFrame (port : Fin 4) (f : FrameHdr) (j : RemoteJob)
  /-- RESULT (R310). A RESULT frame completes a job run on a member, or is discarded as late. -/
  | resultFrame (port : Fin 4) (f : FrameHdr) (res : RemoteResult)
  /-- KEYMOVE (R295). A KEYMOVE frame carries wrapped key material or an INV range to a member. -/
  | keymove (port : Fin 4) (f : FrameHdr) (k : KeyMove)
  /-- ROSTER (R299). A ROSTER frame delivers a roster and its approval, which the member verifies before joining. -/
  | roster (port : Fin 4) (f : FrameHdr) (m : RosterMsg)
  /-- ACK (R294). An ACK or NAK frame acknowledges frames or causes a resend from the named CTR. -/
  | ackFrame (port : Fin 4) (f : FrameHdr) (a : AckMsg)
  /-- LINK_STATE_CHANGE (R291). A Zentulink link changes state, and the head recomputes and distributes forwarding tables. -/
  | linkStateChange (port : Fin 4) (e : LinkEvent)
  /-- AUTH_RETRY (R293). A FAILED link retries AUTH after 64 ticks. -/
  | authRetry (port : Fin 4)
  /-- REKEY (R294). When CTR reaches 2^39, or 2^22 ticks pass, the link rekeys to epoch + 1. -/
  | rekey (port : Fin 4) (auth : AuthMsg)
  /-- JOIN_TIMEOUT (R298). A NEW unit not SERVING within 3,840 ticks reads LOST, and EXECUTE ends with MEMBER_LOST. -/
  | joinTimeout (id : Fin 64)
  /-- REPLICA_COMMIT (R306). A background replica copy commits on a member, which becomes eligible for the key. -/
  | replicaCommit (id : Fin 64) (handle : BitVec 64)
  /-- REPLICA_SYNC_COMPLETE (R308). A SYNCING member's replica versions all match, and it moves to SERVING. -/
  | replicaSyncComplete (id : Fin 64)
  /-- PARTITION_FAULT (R318). A partition raises a translation, MPU or POT fault and is stopped and restarted. -/
  | partitionFault (core : Fin 16) (part : Fin 32) (inp : PartFault)
  /-- PARTITION_TIME_LIMIT (R318). A partition runs more than 10 ms on one input and is stopped and restarted. -/
  | partitionTimeLimit (core : Fin 16) (part : Fin 32) (inp : ParsedInput)
  /-- WATCHDOG_EXPIRY (R322). A secure core misses its kick for PERIOD, the Ledger flushes and a watchdog reset follows. -/
  | watchdogExpiry (core : Fin 4)
  /-- CORE_WDOG_WRITE (R322). The manager writes CORE_WDOG.PERIOD, which is accepted only in OWNED. -/
  | coreWdogWrite (v : BitVec 32)
  /-- MPU_SYNC (R330). MPU_SYNC.GO sets PENDING until older accesses drain. -/
  | mpuSync (master : Fin 53)
  /-- MPU_SYNC_DONE (R330). No access checked under older MPU rules remains in flight, and PENDING reads 0. -/
  | mpuSyncDone (master : Fin 53)
  /-- TRANSITION (R352). LCS TRANSITION checks a signed request, erases, burns a life-cycle record and takes a life-cycle reset. -/
  | transition (req : TransRead)
  /-- DEBUG_CHALLENGE (R358). LCS DEBUG_CHALLENGE draws a live debug nonce. -/
  | debugChallenge
  /-- DEBUG_OPEN (R358). LCS DEBUG_OPEN checks a grant and opens it, after a Squall where required. -/
  | debugOpen (req : HostRead)
  /-- DEBUG_CLOSE (R359). LCS DEBUG_CLOSE closes the open grant and restarts halted cores. -/
  | debugClose
  /-- DEBUG_GRANT_END (R359). An open grant reaches T_OPEN + DURATION and closes. -/
  | debugGrantEnd
  /-- CONFIG (R355). LCS CONFIG installs a signed owner configuration in OWNED. -/
  | config (req : HostRead)
  /-- TAMPER_EVENT (R363). A tamper sensor fires and its RECORD, SQUALL or STORM response runs. -/
  | tamperEvent (sensors : List (Fin 16)) (reading : BitVec 16) (badRow : Option Nat)
  /-- TMP_BATT_SVC_GO (R362). TMP_BATT_SVC.GO opens a battery-service window. -/
  | tmpBattSvcGo (duration : BitVec 12) (vaonOk : Bool)
  /-- BATT_SVC_WINDOW_END (R415). The battery-service window ends, and sensor 14 fires if VBAT is below 2.4 V. -/
  | battSvcWindowEnd (badRow : Option Nat)
  /-- TMP_EVT_CLEAR (R367). Clearing TMP_EVT after READY releases TAMPER_OUT_N. -/
  | tmpEvtClear (mask : BitVec 32)
  /-- RECORD_WINDOW_CLOSE (R373). A Ledger record's flood window ends, and the record closes. -/
  | recordWindowClose (seq : Nat)
  /-- FLASH_COMMIT_COMPLETE (R375). A 4 KiB commit of closed Ledger records to flash finishes, or fails and is retried. -/
  | flashCommitComplete (ok : Bool)
  /-- FLASH_COMMIT_RESUME (R377). After three flash failures, commits resume when 64 ticks have passed. -/
  | flashCommitResume
  /-- LEDGER_READ (R382). Retained Ledger records, full or as stubs, are written at OUT_ADDR. -/
  | ledgerRead (job : Nat) (r : RunEnd)
  /-- NOP (R74). NOP completes with OK, returning OPTIME and PACE. -/
  | nop (job : Nat) (r : RunEnd)
  /-- BREEZE_ENTRY (R390). After BREEZE_US of idleness the unit enters Breeze. -/
  | breezeEntry
  /-- LADDER_DESCENT (R390). After IDLE_TICKS more idle ticks the unit descends to Lull or Calm. -/
  | ladderDescent
  /-- WAKE_EVENT (R392). A wake event starts the exit to Gale and records WAKE. -/
  | wakeEvent (cause : WakeCause)
  /-- WAKE_TICK_ALARM (R396). OPTIME reaches PWR_WAKE_TICK and wakes the unit from Fog or Frost. -/
  | wakeTickAlarm
  /-- GPIO_WAKE (R396). A rising edge on an enabled GPIO wakes the unit from Fog or Frost. -/
  | gpioWake (pin : Fin 16)
  /-- LADDER_EXIT_COMPLETE (R397). The exit to Gale completes, and held host requests are served. -/
  | ladderExitComplete (env : StartEnv)
  /-- ENTER_FOG (R395). PWR_CMD ENTER_FOG stops fetch and drains jobs before entering Fog. -/
  | enterFog
  /-- ENTER_FROST (R395). PWR_CMD ENTER_FROST stops fetch, drains and commits the Ledger before entering Frost. -/
  | enterFrost
  /-- DEEP_ENTRY_AFTER_DRAIN (R395). Once the drain ends, the unit uninstantiates the DRBGs and enters Fog or Frost. -/
  | deepEntryAfterDrain
  /-- DRAIN_LIMIT (R395). PWR_DRAIN.MS passes, and unfinished jobs end with ABORTED. -/
  | drainLimit
  /-- D3HOT_ENTRY (R398). A transition to D3hot stops fetch, holds completions and descends to Lull. -/
  | d3hotEntry
  /-- D0_RETURN (R398). A return to D0 writes the held completion words and resumes fetch. -/
  | d0Return
  /-- FROST_EXIT (R397). Exit from Frost restarts the unit, checks the resume digest and sets STATE_LOST. -/
  | frostExit (env : StartEnv)
  /-- COLD_START (R402). With supplies in range and reset released, the unit runs Table 17.3 to READY. -/
  | coldStart (env : StartEnv)
  /-- DRAM_TRAINING_RETRY (R432). Failed DRAM training is retried every 64 ticks. -/
  | dramTrainingRetry (env : StartEnv)
  /-- SYSTEM_RESET (R399). SYS_RESET_N, PERST_N, Hot Reset or link loss causes a flush and a SYSTEM reset. -/
  | systemReset (cause : SysCause)
  /-- PFW_FALL (R400). PFW_N falls: fetch and binding stop and the staging flush runs. -/
  | pfwFall
  /-- PFW_RISE (R400). PFW_N rises again with supplies in range, and a POWER_FAIL reset is scheduled. -/
  | pfwRise (inRange : Bool)
  /-- POWER_FAIL_RESET (R400). A POWER_FAIL reset is taken 100 µs after PFW_N rises. -/
  | powerFailReset
  /-- INSTALL (R408). CORE_SVC INSTALL checks a signed image and writes it into the class's spare copy. -/
  | install (img : HostRead) (flashOk : Bool)
  /-- ACTIVATE (R410). CORE_SVC ACTIVATE drains a core, which then loads the staged image. -/
  | activate
  /-- ACTIVATION_COMPLETE (R410). A core finishes loading the staged image, restarts and leaves SERVICING. -/
  | activationComplete (core : Fin 16)
  /-- COMMIT (R411). CORE_SVC COMMIT copies the image to both copies and burns anti-rollback cells. -/
  | commit
  /-- ABANDON (R412). CORE_SVC ABANDON restores the spare copy to the running image. -/
  | abandon
  /-- ROTATE (R414). CORE_SVC ROTATE starts moving a role's pages to a fresh reserve KeyID. -/
  | rotate
  /-- ROTATION_COMPLETE (R414). Every page has moved, and the old KeyID is retired to the reserve. -/
  | rotationComplete
  /-- SMBUS_STATUS (R434). SMBus STATUS returns the 16-octet status block and releases SMB_ALERT_N. -/
  | smbusStatus
  /-- SMBUS_WAKE (R434). The SMBus WAKE command wakes the unit from Fog or Frost when enabled. -/
  | smbusWake
  /-- SMBUS_UID (R434). SMBus UID returns the 16-octet UID. -/
  | smbusUid
  /-- EXTEST (R437). JTAG EXTEST takes a SYSTEM reset and drives the boundary-scan cells. -/
  | extest (cells : Bytes)
  /-- IDCODE (R437). JTAG IDCODE selects the identification register. -/
  | idcode
  /-- SAMPLE_PRELOAD (R437). JTAG SAMPLE/PRELOAD samples or preloads the boundary-scan chain. -/
  | samplePreload (pins cells : Bytes)
  /-- CLAMP (R437). JTAG CLAMP takes a SYSTEM reset and clamps the outputs. -/
  | clamp
  /-- HIGHZ (R437). JTAG HIGHZ takes a SYSTEM reset and floats the outputs. -/
  | highz
  /-- DEBUG (R437). JTAG DEBUG connects the debug access port, which is usable only under a grant. -/
  | debugInstr
  /-- BYPASS (R437). JTAG BYPASS, or any unlisted instruction code, selects the bypass register. -/
  | bypass (code : BitVec 8)
  /-- CORE_SUPPLY_LOSS (R400). The core-domain supplies fall after PFW_N has fallen, or without warning, and everything outside the island stops until the next POWER_ON start. -/
  | coreSupplyLoss (warned : Bool)
  /-- VAON_LOSS (R360). VAON is lost and the island runs on VBAT alone: sensors switch to battery sampling, OPTIME holds and the SMBus slave stops answering. -/
  | vaonLoss
  /-- VAON_RETURN (R360). VAON returns, OPTIME advances again, the SMBus slave answers and sensor 14 switches to its VAON-present condition. -/
  | vaonReturn
  /-- VBAT_CHANGE (R362). VBAT changes level: a removal, insertion or fall below 2.4 V inside a battery-service window writes a NOTICE record, and a fall below 2.8 V sets VBAT_LOW with a WARNING record. -/
  | vbatChange (level : BitVec 10)
  /-- ENT_ATTR_WRITE (R326). A secure-world write to ENTe_ATTR applies the held MPU entry at once, or is refused when the entry is locked, and accesses issued after the acknowledgement are checked under the new rules. -/
  | entAttrWrite (master : Fin 53) (e : Fin 32) (baseLo baseHi limitLo attr : BitVec 32)
  /-- DEBUG_PORT_ACCESS (R332). An access through the debug access port is checked against its MPU entries, and a blocked one returns zeros or is dropped, with the first denial recorded at ALARM. -/
  | debugPortAccess (addr : DebugTarget) (write : Bool) (data : Bytes)
  /-- CONFIGURATION_REQUEST (R403). A PCIe configuration request is answered with Configuration Request Retry Status until 100 ms after start step 1, and is served normally after that. -/
  | configurationRequest
  deriving DecidableEq, Repr

end Sys2Proof
end

