-- ==== Sys2Proof/Machine/Bytes.lean ====
section
/-! DEFINITION. Octet strings as numbers and fields: both byte orders (R7, R8), fields, padding, exclusive-or. -/
namespace Sys2Proof

/-- `n` octets of a function. -/
def Machine.octets (n : Nat) (f : Nat → Byte) : Bytes := (List.range n).map f

/-- The number an octet string spells little-endian (R7). -/
def leNat : Bytes → Nat
  | [] => 0
  | b :: t => b.toNat + 256 * leNat t

/-- The number an octet string spells big-endian (R8). -/
def beNat (b : Bytes) : Nat := b.foldl (fun a x => 256 * a + x.toNat) 0

/-- `v` as `n` octets, little-endian, the excess dropped. -/
def toLE : Nat → Nat → Bytes
  | 0, _ => []
  | n + 1, v => BitVec.ofNat 8 v :: toLE n (v / 256)

/-- `v` as `n` octets, big-endian, the excess dropped. -/
def toBE (n v : Nat) : Bytes := (toLE n v).reverse

/-- `n` zero octets. -/
def zeros (n : Nat) : Bytes := List.replicate n 0

/-- Octets `off` to `off + len - 1` of a string (fewer where the string ends). -/
def Bytes.sub (b : Bytes) (off len : Nat) : Bytes := (b.drop off).take len

/-- The little-endian field of `len` octets at `off` (R7). -/
def Bytes.le (b : Bytes) (off len : Nat) : Nat := leNat (Bytes.sub b off len)

/-- One octet of a string as a number; 0 past its end. -/
def Bytes.at (b : Bytes) (off : Nat) : Nat := match b[off]? with
  | some x => x.toNat
  | none => 0

/-- A string cut or padded with zero octets to `n` octets. -/
def Bytes.fit (b : Bytes) (n : Nat) : Bytes := b.take n ++ zeros (n - b.length)

/-- A string padded on the left with zero octets to `n` octets. -/
def Bytes.lpad (b : Bytes) (n : Nat) : Bytes := zeros (n - b.length) ++ b

/-- Octet-wise exclusive-or, as long as the shorter string. -/
def xorBytes (a b : Bytes) : Bytes := List.zipWith (fun x y => x ^^^ y) a b

/-- A string padded with zero octets to a multiple of `n`. -/
def Bytes.padMul (b : Bytes) (n : Nat) : Bytes := b ++ zeros ((n - b.length % n) % n)

/-- A string cut into pieces of `n` octets (the last may be shorter), by fuel. -/
def chunksF (n : Nat) : Nat → Bytes → List Bytes
  | 0, _ => []
  | f + 1, b => if b.isEmpty then [] else b.take n :: chunksF n f (b.drop n)

/-- A string cut into pieces of `n` octets; the last may be shorter. -/
def chunks (n : Nat) (b : Bytes) : List Bytes := chunksF n b.length b

/-- Bit `i` of a number. -/
def bit (v i : Nat) : Bool := v.testBit i

/-- A Boolean as 0 or 1. -/
def b2n (b : Bool) : Nat := if b then 1 else 0

/-- The lowest `n` bits of a register word from bit `lo`. -/
def fld (v : W32) (lo n : Nat) : Nat := v.toNat / 2 ^ lo % 2 ^ n

/-- The least bit length that holds a number: the count of its binary digits. -/
def bitLen (n : Nat) : Nat := if n = 0 then 0 else Nat.log2 n + 1

/-- An addition that saturates at `2^w - 1`. -/
def satAdd (w a n : Nat) : Nat := Nat.min (2 ^ w - 1) (a + n)

end Sys2Proof
end

