-- ==== Sys2Proof/Machine/CryptoHash.lean ====
section
/-! DEFINITION. The hash functions the LZ-940 names by their standards (Table 0.3): SHA-2 (FIPS 180-4), SHA-3 and
SHAKE (FIPS 202), cSHAKE and KMAC (SP 800-185), HMAC (FIPS 198-1), HKDF (RFC 5869). -/
namespace Sys2Proof

/-- The SHA-512 round constants (FIPS 180-4); SHA-256 uses the upper halves of the first 64. -/
def sha512K : List Nat :=
  [
    0x428A2F98D728AE22, 0x7137449123EF65CD, 0xB5C0FBCFEC4D3B2F, 0xE9B5DBA58189DBBC,
    0x3956C25BF348B538, 0x59F111F1B605D019, 0x923F82A4AF194F9B, 0xAB1C5ED5DA6D8118,
    0xD807AA98A3030242, 0x12835B0145706FBE, 0x243185BE4EE4B28C, 0x550C7DC3D5FFB4E2,
    0x72BE5D74F27B896F, 0x80DEB1FE3B1696B1, 0x9BDC06A725C71235, 0xC19BF174CF692694,
    0xE49B69C19EF14AD2, 0xEFBE4786384F25E3, 0x0FC19DC68B8CD5B5, 0x240CA1CC77AC9C65 ] ++
  [
    0x2DE92C6F592B0275, 0x4A7484AA6EA6E483, 0x5CB0A9DCBD41FBD4, 0x76F988DA831153B5,
    0x983E5152EE66DFAB, 0xA831C66D2DB43210, 0xB00327C898FB213F, 0xBF597FC7BEEF0EE4,
    0xC6E00BF33DA88FC2, 0xD5A79147930AA725, 0x06CA6351E003826F, 0x142929670A0E6E70,
    0x27B70A8546D22FFC, 0x2E1B21385C26C926, 0x4D2C6DFC5AC42AED, 0x53380D139D95B3DF,
    0x650A73548BAF63DE, 0x766A0ABB3C77B2A8, 0x81C2C92E47EDAEE6, 0x92722C851482353B ] ++
  [
    0xA2BFE8A14CF10364, 0xA81A664BBC423001, 0xC24B8B70D0F89791, 0xC76C51A30654BE30,
    0xD192E819D6EF5218, 0xD69906245565A910, 0xF40E35855771202A, 0x106AA07032BBD1B8,
    0x19A4C116B8D2D0C8, 0x1E376C085141AB53, 0x2748774CDF8EEB99, 0x34B0BCB5E19B48A8,
    0x391C0CB3C5C95A63, 0x4ED8AA4AE3418ACB, 0x5B9CCA4F7763E373, 0x682E6FF3D6B2B8A3,
    0x748F82EE5DEFB2FC, 0x78A5636F43172F60, 0x84C87814A1F0AB72, 0x8CC702081A6439EC ] ++
  [
    0x90BEFFFA23631E28, 0xA4506CEBDE82BDE9, 0xBEF9A3F7B2C67915, 0xC67178F2E372532B,
    0xCA273ECEEA26619C, 0xD186B8C721C0C207, 0xEADA7DD6CDE0EB1E, 0xF57D4F7FEE6ED178,
    0x06F067AA72176FBA, 0x0A637DC5A2C898A6, 0x113F9804BEF90DAE, 0x1B710B35131C471B,
    0x28DB77F523047D84, 0x32CAAB7B40C72493, 0x3C9EBE0A15C9BEBC, 0x431D67C49C100D4C,
    0x4CC5D4BECB3E42B6, 0x597F299CFC657E2A, 0x5FCB6FAB3AD6FAEC, 0x6C44198C4A475817 ]

/-- The SHA-512 initial value; SHA-256 uses the upper halves. -/
def sha512H : List Nat :=
  [
    0x6A09E667F3BCC908, 0xBB67AE8584CAA73B, 0x3C6EF372FE94F82B, 0xA54FF53A5F1D36F1,
    0x510E527FADE682D1, 0x9B05688C2B3E6C1F, 0x1F83D9ABFB41BD6B, 0x5BE0CD19137E2179 ]

/-- The SHA-384 initial value. -/
def sha384H : List Nat :=
  [
    0xCBBB9D5DC1059ED8, 0x629A292A367CD507, 0x9159015A3070DD17, 0x152FECD8F70E5939,
    0x67332667FFC00B31, 0x8EB44A8768581511, 0xDB0C2E0D64F98FA7, 0x47B5481DBEFA4FA4 ]

/-- Word width, rotation amounts and round constants of one SHA-2 function. -/
structure Sha2 where
  w : Nat
  bigA : Nat × Nat × Nat
  bigE : Nat × Nat × Nat
  smallA : Nat × Nat × Nat
  smallB : Nat × Nat × Nat
  k : List Nat
  deriving DecidableEq, Repr

/-- SHA-256's parameters. -/
def sha2p32 : Sha2 :=
  { w := 32, bigA := (2, 13, 22), bigE := (6, 11, 25), smallA := (7, 18, 3), smallB := (17, 19, 10),
    k := (sha512K.take 64).map (· / 2 ^ 32) }

/-- The parameters of SHA-384 and SHA-512. -/
def sha2p64 : Sha2 :=
  { w := 64, bigA := (28, 34, 39), bigE := (14, 18, 41), smallA := (1, 8, 7), smallB := (19, 61, 6), k := sha512K }

/-- The sum of three rotations to the right, exclusive-or-ed. -/
def sha2Rot {w : Nat} (r : Nat × Nat × Nat) (x : BitVec w) : BitVec w :=
  x.rotateRight r.1 ^^^ x.rotateRight r.2.1 ^^^ x.rotateRight r.2.2

/-- Two rotations and a shift to the right, exclusive-or-ed. -/
def sha2Shr {w : Nat} (r : Nat × Nat × Nat) (x : BitVec w) : BitVec w :=
  x.rotateRight r.1 ^^^ x.rotateRight r.2.1 ^^^ (x >>> r.2.2)

/-- The message schedule, latest word first: `n` more words. -/
def sha2Sched (p : Sha2) : Nat → List (BitVec p.w) → List (BitVec p.w)
  | 0, l => l
  | n + 1, l =>
    let g := fun i => l.getD i 0
    sha2Sched p n ((sha2Shr p.smallB (g 1) + g 6 + sha2Shr p.smallA (g 14) + g 15) :: l)

/-- One SHA-2 round on the eight working variables. -/
def sha2Round (p : Sha2) (v : List (BitVec p.w)) (kw : Nat × BitVec p.w) : List (BitVec p.w) :=
  match v with
  | [a, b, c, d, e, f, g, h] =>
    let t1 := h + sha2Rot p.bigE e + ((e &&& f) ^^^ (~~~e &&& g)) + BitVec.ofNat p.w kw.1 + kw.2
    let t2 := sha2Rot p.bigA a + ((a &&& b) ^^^ (a &&& c) ^^^ (b &&& c))
    [t1 + t2, a, b, c, d + t1, e, f, g]
  | v => v

/-- One SHA-2 block folded into the chaining value. -/
def sha2Block (p : Sha2) (h : List (BitVec p.w)) (blk : Bytes) : List (BitVec p.w) :=
  let ws := (chunks (p.w / 8) blk).map fun c => BitVec.ofNat p.w (beNat c)
  let sched := (sha2Sched p (p.k.length - 16) ws.reverse).reverse
  List.zipWith (· + ·) h ((List.zip p.k sched).foldl (sha2Round p) h)

/-- SHA-2 padding: 0x80, zero octets, the length in bits big-endian. -/
def sha2Pad (p : Sha2) (m : Bytes) : Bytes :=
  let blk := p.w * 2
  let lenB := p.w / 4
  let z := (blk - (m.length + 1 + lenB) % blk) % blk
  m ++ [0x80] ++ zeros z ++ toBE lenB (8 * m.length)

/-- A SHA-2 digest from an initial value, cut to `n` octets. -/
def sha2 (p : Sha2) (h0 : List Nat) (n : Nat) (m : Bytes) : Bytes :=
  let h := (chunks (p.w * 2) (sha2Pad p m)).foldl (sha2Block p) (h0.map (BitVec.ofNat p.w))
  ((h.map fun x => toBE (p.w / 8) x.toNat).flatten).take n

/-- SHA-256. -/
def sha256 (m : Bytes) : Bytes := sha2 sha2p32 (sha512H.map (· / 2 ^ 32)) 32 m
/-- SHA-384. -/
def sha384 (m : Bytes) : Bytes := sha2 sha2p64 sha384H 48 m
/-- SHA-512. -/
def sha512 (m : Bytes) : Bytes := sha2 sha2p64 sha512H 64 m

/-! ### Keccak-f[1600] (FIPS 202): a state is five planes (by y) of five lanes (by x) -/

/-- One step of the shift register of FIPS 202's rc, the polynomial x^8 + x^6 + x^5 + x^4 + 1. -/
def rcStep (r : Nat) : Nat := if 128 ≤ r then (2 * r) ^^^ 0x171 else 2 * r

/-- The constant of one round from the register's state, and the state after it: output bit j stands at place 2^j - 1. -/
def rcWord (r : Nat) : BitVec 64 × Nat :=
  (List.range 7).foldl (fun a j =>
    (if a.2 % 2 = 1 then a.1 ||| (1 : BitVec 64) <<< (2 ^ j - 1) else a.1, rcStep a.2)) (0, r)

/-- The constants of `n` rounds. -/
def rcWords : Nat → Nat → List (BitVec 64)
  | 0, _ => []
  | n + 1, r => let w := rcWord r
                w.1 :: rcWords n w.2

/-- The constants of the 24 rounds. -/
def iotaWords : List (BitVec 64) := rcWords 24 1

/-- FIPS 202's walk over the lanes other than (0, 0), from (1, 0) by (x, y) to (y, 2x + 3y): step t's lane turns by
(t + 1)(t + 2) / 2. -/
def rhoWalk : Nat → Nat → Nat × Nat → List ((Nat × Nat) × Nat)
  | 0, _, _ => []
  | n + 1, t, (x, y) => ((x, y), (t + 1) * (t + 2) / 2 % 64) :: rhoWalk n (t + 1) (y, (2 * x + 3 * y) % 5)

/-- The rotation of each lane, by planes. -/
def rhoTable : List (List Nat) :=
  let w := rhoWalk 24 0 (1, 0)
  (List.range 5).map fun y => (List.range 5).map fun x =>
    match w.find? fun e => e.1 = (x, y) with | some e => e.2 | none => 0

/-- A plane turned so that lane `k` comes first. -/
def turnBy {α : Type} (k : Nat) (l : List α) : List α := l.drop k ++ l.take k

/-- Theta: each lane takes the parities of the columns beside it. -/
def theta (s : List (List (BitVec 64))) : List (List (BitVec 64)) :=
  let par := s.foldl (List.zipWith (· ^^^ ·)) (List.replicate 5 0)
  let mix := List.zipWith (fun l r => l ^^^ r.rotateLeft 1) (turnBy 4 par) (turnBy 1 par)
  s.map fun plane => List.zipWith (· ^^^ ·) plane mix

/-- Rho and pi: every lane turns by its own amount, then lane x of plane y comes from lane x + 3y of plane x. -/
def rhoPi (s : List (List (BitVec 64))) : List (List (BitVec 64)) :=
  let s1 := List.zipWith (List.zipWith fun r l => BitVec.rotateLeft l r) rhoTable s
  (List.range 5).map fun y => (List.range 5).map fun x => (s1.getD x []).getD ((x + 3 * y) % 5) 0

/-- Chi: each lane of a plane takes the next two. -/
def chi (s : List (List (BitVec 64))) : List (List (BitVec 64)) :=
  s.map fun p => List.zipWith (· ^^^ ·) p (List.zipWith (fun n m => ~~~n &&& m) (turnBy 1 p) (turnBy 2 p))

/-- Iota: a round's constant is added to lane (0, 0). -/
def iota (rc : BitVec 64) : List (List (BitVec 64)) → List (List (BitVec 64))
  | (l :: p) :: t => ((l ^^^ rc) :: p) :: t
  | s => s

/-- A list cut into pieces of five, by fuel. -/
def fives {α : Type} : Nat → List α → List (List α)
  | 0, _ => []
  | n + 1, l => l.take 5 :: fives n (l.drop 5)

/-- Keccak-f[1600] on a state of 200 octets. -/
def keccakF (s : Bytes) : Bytes :=
  let lanes := (chunks 8 s).map fun c => BitVec.ofNat 64 (leNat c)
  let out := iotaWords.foldl (fun a rc => iota rc (chi (rhoPi (theta a)))) (fives 5 lanes)
  (out.flatten.map fun l => toLE 8 l.toNat).flatten

/-- The sponge's output, `n` blocks of `rate` octets. -/
def squeeze (rate : Nat) : Nat → Bytes → Bytes
  | 0, _ => []
  | n + 1, s => s.take rate ++ squeeze rate n (keccakF s)

/-- The Keccak sponge with domain suffix `suf` and `n` octets of output. -/
def keccak (rate suf n : Nat) (m : Bytes) : Bytes :=
  let z := (rate - (m.length + 1) % rate) % rate
  let p := m ++ (if z = 0 then [BitVec.ofNat 8 (suf ||| 0x80)] else [BitVec.ofNat 8 suf] ++ zeros (z - 1) ++ [0x80])
  let s := (chunks rate p).foldl (fun s blk => keccakF (xorBytes s (Bytes.fit blk 200))) (zeros 200)
  (squeeze rate (n / rate + 1) s).take n

/-- SHA3-256. -/
def sha3_256 (m : Bytes) : Bytes := keccak 136 0x06 32 m
/-- SHA3-384. -/
def sha3_384 (m : Bytes) : Bytes := keccak 104 0x06 48 m
/-- SHA3-512. -/
def sha3_512 (m : Bytes) : Bytes := keccak 72 0x06 64 m
/-- SHAKE128 with `n` octets of output. -/
def shake128 (n : Nat) (m : Bytes) : Bytes := keccak 168 0x1F n m
/-- SHAKE256 with `n` octets of output. -/
def shake256 (n : Nat) (m : Bytes) : Bytes := keccak 136 0x1F n m

/-- The shortest big-endian spelling of a number, at least one octet (SP 800-185). -/
def minBE (v : Nat) : Bytes := toBE (Nat.max 1 ((bitLen v + 7) / 8)) v
/-- SP 800-185 left_encode. -/
def leftEncode (v : Nat) : Bytes := let b := minBE v; BitVec.ofNat 8 b.length :: b
/-- SP 800-185 right_encode. -/
def rightEncode (v : Nat) : Bytes := let b := minBE v; b ++ [BitVec.ofNat 8 b.length]
/-- SP 800-185 encode_string. -/
def encodeString (s : Bytes) : Bytes := leftEncode (8 * s.length) ++ s
/-- SP 800-185 bytepad. -/
def bytepad (x : Bytes) (w : Nat) : Bytes := Bytes.padMul (leftEncode w ++ x) w

/-- cSHAKE with rate `rate` (SP 800-185). -/
def cshake (rate n : Nat) (fn cust m : Bytes) : Bytes :=
  if fn.isEmpty && cust.isEmpty then keccak rate 0x1F n m
  else keccak rate 0x04 n (bytepad (encodeString fn ++ encodeString cust) rate ++ m)

/-- KMAC128 (`rate` 168) or KMAC256 (`rate` 136) with `n` octets of output (SP 800-185). -/
def kmac (rate n : Nat) (key cust m : Bytes) : Bytes :=
  cshake rate n [0x4B, 0x4D, 0x41, 0x43] cust (bytepad (encodeString key) rate ++ m ++ rightEncode (8 * n))

/-- SHA-224. -/
def sha224 (m : Bytes) : Bytes := sha2 sha2p32 (sha384H.map (· % 2 ^ 32)) 28 m

/-- The initial words of SHA-512/256, generated as FIPS 180-4 states from its name. -/
def sha512t256H : List Nat :=
  (chunks 8 (sha2 sha2p64 (sha512H.map (· ^^^ 0xa5a5a5a5a5a5a5a5)) 64
    [0x53, 0x48, 0x41, 0x2D, 0x35, 0x31, 0x32, 0x2F, 0x32, 0x35, 0x36])).map beNat

/-- SHA-512/256. -/
def sha512_256 (m : Bytes) : Bytes := sha2 sha2p64 sha512t256H 32 m

/-- SHA3-224. -/
def sha3_224 (m : Bytes) : Bytes := keccak 144 0x06 28 m

/-- Output octets of a hash code (Tables 5.3 and 8.3); 0 for a code of variable or no output. -/
def hashLen : Nat → Nat
  | 1 | 4 | 7 | 0x0A => 32 | 2 | 5 => 48 | 3 | 6 | 8 => 64 | 9 | 0x0B => 28 | _ => 0

/-- Block octets of a hash code. -/
def hashBlock : Nat → Nat
  | 1 | 9 => 64 | 2 | 3 | 0x0A => 128 | 4 | 8 => 136 | 5 => 104 | 6 => 72 | 7 => 168 | 0x0B => 144 | _ => 136

/-- The digest of a message under a hash code (Tables 5.3 and 8.3); codes 0x0C and 0x0D give `n` octets. -/
def hashOf (code n : Nat) (m : Bytes) : Bytes :=
  match code with
  | 1 => sha256 m | 2 => sha384 m | 3 => sha512 m | 4 => sha3_256 m | 5 => sha3_384 m | 6 => sha3_512 m
  | 7 => shake128 32 m | 8 => shake256 64 m | 9 => sha224 m | 0x0A => sha512_256 m | 0x0B => sha3_224 m
  | 0x0C => shake128 n m | _ => shake256 n m

/-- The digest of a message under a code of fixed output. -/
def hashFix (code : Nat) (m : Bytes) : Bytes := hashOf code 0 m

/-- HMAC (FIPS 198-1). -/
def hmac (h : Nat) (key m : Bytes) : Bytes :=
  let k := Bytes.fit (if key.length > hashBlock h then hashFix h key else key) (hashBlock h)
  hashFix h (k.map (· ^^^ 0x5C) ++ hashFix h (k.map (· ^^^ 0x36) ++ m))

/-- HKDF-Expand's blocks (RFC 5869), `n` of them. -/
def hkdfBlocks (h : Nat) (prk info : Bytes) : Nat → Nat → Bytes → Bytes
  | 0, _, _ => []
  | n + 1, i, prev =>
    let t := hmac h prk (prev ++ info ++ [BitVec.ofNat 8 i])
    t ++ hkdfBlocks h prk info n (i + 1) t

/-- HKDF-Expand (RFC 5869). -/
def hkdfExpand (h : Nat) (prk info : Bytes) (n : Nat) : Bytes :=
  (hkdfBlocks h prk info (n / hashLen h + 1) 1 []).take n

/-- HKDF-Extract (RFC 5869). -/
def hkdfExtract (h : Nat) (salt ikm : Bytes) : Bytes := hmac h salt ikm

/-- SP 800-108 KDF in counter mode over a PRF, `n` blocks from counter `i`, counter of 32 bits before the data. -/
def ctrKdfBlocks (prf : Bytes → Bytes) (data : Bytes) : Nat → Nat → Bytes
  | 0, _ => []
  | n + 1, i => prf (toBE 4 i ++ data) ++ ctrKdfBlocks prf data n (i + 1)

/-- CRC-8 with polynomial 0x07 over an octet string, most significant bit first. -/
def crc8 (b : Bytes) : Byte :=
  b.foldl (fun c x => (List.range 8).foldl (fun c _ => if c.msb then (c <<< 1) ^^^ 0x07 else c <<< 1) (c ^^^ x)) 0

end Sys2Proof
end

