-- ==== Sys2Proof/Machine/CryptoPk.lean ====
section
/-! DEFINITION. Public-key arithmetic: fields, short-Weierstrass, Edwards and Montgomery curves, RSA, primality (chapters 5 and 6). -/
namespace Sys2Proof

/-! ### Integers modulo m -/

/-- Powers modulo `m`, by squaring over the exponent's bits. -/
def powMod (m b e : Nat) : Nat :=
  (List.range (bitLen e)).reverse.foldl (fun a i => let q := a * a % m
                                                    if bit e i then q * b % m else q) (1 % m)

/-- Extended Euclid on (r0, r1) with coefficients modulo `m`, by fuel: gcd and the coefficient of the second. -/
def egcd (m : Nat) : Nat → Nat → Nat → Nat → Nat → Nat × Nat
  | 0, r0, _, t0, _ => (r0, t0)
  | f + 1, r0, r1, t0, t1 =>
    if r1 = 0 then (r0, t0) else egcd m f r1 (r0 % r1) t1 ((t0 + m * m - r0 / r1 % m * t1) % m)

/-- The inverse modulo `m`, if there is one. -/
def invMod? (m a : Nat) : Option Nat :=
  let r := egcd m (2 * bitLen m + 2) m (a % m) 0 1
  if r.1 = 1 then some (r.2 % m) else none

/-- The inverse modulo `m`; 0 where there is none. -/
def invMod (m a : Nat) : Nat := (invMod? m a).getD 0

/-- Subtraction modulo `m`. -/
def subMod (m a b : Nat) : Nat := (a + m - b % m) % m

/-! ### Short-Weierstrass curves (R95, R100, R123) -/

/-- A curve y^2 = x^3 + ax + b over the field of p, with base point, order and cofactor. -/
structure WCurve where
  p : Nat
  a : Nat
  b : Nat
  gx : Nat
  gy : Nat
  n : Nat
  h : Nat := 1
  deriving DecidableEq, Repr

/-- A point; `none` is the point at infinity. -/
abbrev WPoint := Option (Nat × Nat)

/-- Whether affine coordinates satisfy the curve equation. -/
def WCurve.on (c : WCurve) (x y : Nat) : Bool := y * y % c.p = (x * x * x + c.a * x + c.b) % c.p

/-- Addition of points. -/
def WCurve.add (c : WCurve) : WPoint → WPoint → WPoint
  | none, q => q
  | q, none => q
  | some (x1, y1), some (x2, y2) =>
    if x1 = x2 && (y1 + y2) % c.p = 0 then none
    else
      let l := if x1 = x2 then (3 * x1 * x1 + c.a) * invMod c.p (2 * y1) % c.p
        else subMod c.p y2 y1 * invMod c.p (subMod c.p x2 x1) % c.p
      let x3 := subMod c.p (l * l) (x1 + x2)
      some (x3, subMod c.p (l * subMod c.p x1 x3) y1)

/-- Multiplication of a point by a scalar. -/
def WCurve.mul (c : WCurve) (k : Nat) (q : WPoint) : WPoint :=
  (List.range (bitLen k)).reverse.foldl (fun a i => let d := c.add a a
                                                    if bit k i then c.add d q else d) none

/-- The base point. -/
def WCurve.g (c : WCurve) : WPoint := some (c.gx, c.gy)

/-- P-256. -/
def p256 : WCurve :=
  { p := 0xffffffff00000001000000000000000000000000ffffffffffffffffffffffff
    a := 0xffffffff00000001000000000000000000000000fffffffffffffffffffffffc
    b := 0x5ac635d8aa3a93e7b3ebbd55769886bc651d06b0cc53b0f63bce3c3e27d2604b
    gx := 0x6b17d1f2e12c4247f8bce6e563a440f277037d812deb33a0f4a13945d898c296
    gy := 0x4fe342e2fe1a7f9b8ee7eb4a7c0f9e162bce33576b315ececbb6406837bf51f5
    n := 0xffffffff00000000ffffffffffffffffbce6faada7179e84f3b9cac2fc632551
    h := 1 }

/-- P-384. -/
def p384 : WCurve :=
  { p := 0xfffffffffffffffffffffffffffffffffffffffffffffffffffffffffffffffeffffffff0000000000000000ffffffff
    a := 0xfffffffffffffffffffffffffffffffffffffffffffffffffffffffffffffffeffffffff0000000000000000fffffffc
    b := 0xb3312fa7e23ee7e4988e056be3f82d19181d9c6efe8141120314088f5013875ac656398d8a2ed19d2a85c8edd3ec2aef
    gx := 0xaa87ca22be8b05378eb1c71ef320ad746e1d3b628ba79b9859f741e082542a385502f25dbf55296c3a545e3872760ab7
    gy := 0x3617de4a96262c6f5d9e98bf9292dc29f8f41dbd289a147ce9da3113b5f0b8c00a60b1ce1d7e819d7a431d7c90ea0e5f
    n := 0xffffffffffffffffffffffffffffffffffffffffffffffffc7634d81f4372ddf581a0db248b0a77aecec196accc52973
    h := 1 }

/-- P-521. -/
def p521 : WCurve :=
  { p := 0x1ffffffffffffffffffffffffffffffffffffffffffffffffffffffffffffffffffffffffffffffffffffffffffffffffffffffffffffffffffffffffffffffffff
    a := 0x1fffffffffffffffffffffffffffffffffffffffffffffffffffffffffffffffffffffffffffffffffffffffffffffffffffffffffffffffffffffffffffffffffc
    b := 0x51953eb9618e1c9a1f929a21a0b68540eea2da725b99b315f3b8b489918ef109e156193951ec7e937b1652c0bd3bb1bf073573df883d2c34f1ef451fd46b503f00
    gx := 0xc6858e06b70404e9cd9e3ecb662395b4429c648139053fb521f828af606b4d3dbaa14b5e77efe75928fe1dc127a2ffa8de3348b3c1856a429bf97e7e31c2e5bd66
    gy := 0x11839296a789a3bc0045c8a5fb42c7d1bd998f54449579b446817afbd17273e662c97ee72995ef42640c550b9013fad0761353c7086a272c24088be94769fd16650
    n := 0x1fffffffffffffffffffffffffffffffffffffffffffffffffffffffffffffffffa51868783bf2f966b7fcc0148f709a5d03bb5c9b8899c47aebb6fb71e91386409
    h := 1 }

/-- Brainpool-256. -/
def bp256 : WCurve :=
  { p := 0xa9fb57dba1eea9bc3e660a909d838d726e3bf623d52620282013481d1f6e5377
    a := 0x7d5a0975fc2c3057eef67530417affe7fb8055c126dc5c6ce94a4b44f330b5d9
    b := 0x26dc5c6ce94a4b44f330b5d9bbd77cbf958416295cf7e1ce6bccdc18ff8c07b6
    gx := 0x8bd2aeb9cb7e57cb2c4b482ffc81b7afb9de27e1e3bd23c23a4453bd9ace3262
    gy := 0x547ef835c3dac4fd97f8461a14611dc9c27745132ded8e545c1d54c72f046997
    n := 0xa9fb57dba1eea9bc3e660a909d838d718c397aa3b561a6f7901e0e82974856a7
    h := 1 }

/-- Brainpool-384. -/
def bp384 : WCurve :=
  { p := 0x8cb91e82a3386d280f5d6f7e50e641df152f7109ed5456b412b1da197fb71123acd3a729901d1a71874700133107ec53
    a := 0x7bc382c63d8c150c3c72080ace05afa0c2bea28e4fb22787139165efba91f90f8aa5814a503ad4eb04a8c7dd22ce2826
    b := 0x4a8c7dd22ce28268b39b55416f0447c2fb77de107dcd2a62e880ea53eeb62d57cb4390295dbc9943ab78696fa504c11
    gx := 0x1d1c64f068cf45ffa2a63a81b7c13f6b8847a3e77ef14fe3db7fcafe0cbd10e8e826e03436d646aaef87b2e247d4af1e
    gy := 0x8abe1d7520f9c2a45cb1eb8e95cfd55262b70b29feec5864e19c054ff99129280e4646217791811142820341263c5315
    n := 0x8cb91e82a3386d280f5d6f7e50e641df152f7109ed5456b31f166e6cac0425a7cf3ab6af6b7fc3103b883202e9046565
    h := 1 }

/-- Brainpool-512. -/
def bp512 : WCurve :=
  { p := 0xaadd9db8dbe9c48b3fd4e6ae33c9fc07cb308db3b3c9d20ed6639cca703308717d4d9b009bc66842aecda12ae6a380e62881ff2f2d82c68528aa6056583a48f3
    a := 0x7830a3318b603b89e2327145ac234cc594cbdd8d3df91610a83441caea9863bc2ded5d5aa8253aa10a2ef1c98b9ac8b57f1117a72bf2c7b9e7c1ac4d77fc94ca
    b := 0x3df91610a83441caea9863bc2ded5d5aa8253aa10a2ef1c98b9ac8b57f1117a72bf2c7b9e7c1ac4d77fc94cadc083e67984050b75ebae5dd2809bd638016f723
    gx := 0x81aee4bdd82ed9645a21322e9c4c6a9385ed9f70b5d916c1b43b62eef4d0098eff3b1f78e2d0d48d50d1687b93b97d5f7c6d5047406a5e688b352209bcb9f822
    gy := 0x7dde385d566332ecc0eabfa9cf7822fdf209f70024a57b1aa000c55b881f8111b2dcde494a5f485e5bca4bd88a2763aed1ca2b2fa8f0540678cd1e0f3ad80892
    n := 0xaadd9db8dbe9c48b3fd4e6ae33c9fc07cb308db3b3c9d20ed6639cca70330870553e5c414ca92619418661197fac10471db1d381085ddaddb58796829ca90069
    h := 1 }
/-- The fixed curves by parameter set (Table 5.6). -/
def fixedCurve : Nat → Option WCurve
  | 1 => some p256 | 2 => some p384 | 3 => some p521 | 4 => some bp256 | 5 => some bp384 | 6 => some bp512 | _ => none

/-- The curve of a parameter block (Table 6.1). -/
def blockCurve (b : Bytes) : WCurve :=
  let l := (Bytes.le b 4 2 + 7) / 8
  let ln := (Bytes.le b 6 2 + 7) / 8
  let at_ := fun (i n : Nat) => beNat (Bytes.sub b (16 + i * l) n)
  { p := at_ 0 l, a := at_ 1 l, b := at_ 2 l, gx := at_ 3 l, gy := at_ 4 l, n := at_ 5 ln, h := Bytes.at b 3 }

/-- Field and order octets of a curve. -/
def WCurve.len (c : WCurve) : Nat := (bitLen c.p + 7) / 8
/-- Octets of the order. -/
def WCurve.nlen (c : WCurve) : Nat := (bitLen c.n + 7) / 8

/-- A point on output: uncompressed, or compressed (R95). -/
def WCurve.encode (c : WCurve) (comp : Bool) : WPoint → Bytes
  | some (x, y) =>
    if comp then BitVec.ofNat 8 (2 + y % 2) :: toBE c.len x else 0x04 :: (toBE c.len x ++ toBE c.len y)
  | none => [0]

/-- What is wrong with a public key in the inline encoding: the POINT_INVALID detail of Table 5.16. -/
def WCurve.pubBad (c : WCurve) (b : Bytes) : Option Nat :=
  let x := beNat (Bytes.sub b 1 c.len)
  let y := beNat (b.drop (1 + c.len))
  if b.head? != some 4 then some 1
  else if c.p ≤ x || c.p ≤ y then some 2
  else if !c.on x y then some 3
  else none

/-- The point of a public key in the inline encoding. -/
def WCurve.point (c : WCurve) (b : Bytes) : WPoint := some (beNat (Bytes.sub b 1 c.len), beNat (b.drop (1 + c.len)))

/-- The last step of full public-key validation (SP 800-56A, R102): on a curve with a cofactor above 1, n·Q is not at infinity. -/
def WCurve.orderBad (c : WCurve) (q : WPoint) : Bool := 1 < c.h && (c.mul c.n q).isSome

/-- The leftmost bits of a digest as an integer (R100, R123). -/
def WCurve.digest (c : WCurve) (d : Bytes) : Nat := beNat d >>> (8 * d.length - bitLen c.n)

/-- ECDSA's r and s for a per-message secret k (R100). -/
def WCurve.sign (c : WCurve) (d : Nat) (dig : Bytes) (k : Nat) : Nat × Nat :=
  match c.mul k c.g with
  | some (x, _) => let r := x % c.n
                   (r, invMod c.n k * (c.digest dig + r * d) % c.n)
  | none => (0, 0)

/-- The per-message secret by rejection sampling (R100, FIPS 186-5): the first run of the order's bits in a request's octets
that spells c below n - 1 gives c + 1; none where the octets hold no such run. -/
def drawK (n nlen : Nat) (rnd : Bytes) : Option Nat :=
  ((chunks nlen rnd).find? fun c => c.length = nlen && beNat c / 2 ^ (8 * nlen - bitLen n) < n - 1).map fun c =>
    1 + beNat c / 2 ^ (8 * nlen - bitLen n)

/-- ECDSA signing with the k a request gives; none where another is to be drawn: no acceptable k, or r or s is 0 (R100). -/
def ecdsaSign (w : WCurve) (d : Nat) (dig rnd : Bytes) : Option (Nat × Nat) :=
  match drawK w.n w.nlen rnd with
  | none => none
  | some k => let (r, s) := w.sign d dig k
              if r = 0 || s = 0 then none else some (r, s)

/-- ECDSA verification after the key's checks: a code-free outcome, `none` for a signature that verifies (Table 5.16):
(0, detail) for VERIFY_RANGE, (1, detail) for VERIFY_FAIL. -/
def WCurve.verify (c : WCurve) (q : WPoint) (dig sig : Bytes) : Option (Nat × Nat) :=
  let r := beNat (sig.take c.nlen)
  let s := beNat (sig.drop c.nlen)
  if r = 0 || c.n ≤ r then some (0, 1)
  else if s = 0 || c.n ≤ s then some (0, 2)
  else
    let w := invMod c.n s
    match c.add (c.mul (c.digest dig * w % c.n) c.g) (c.mul (r * w % c.n) q) with
    | none => some (1, 2)
    | some (x, _) => if x % c.n = r then none else some (1, 1)

/-! ### Edwards curves (RFC 8032, R101) -/

/-- A twisted Edwards curve ax^2 + y^2 = 1 + dx^2y^2 with its encoding length, clamping and cofactor's logarithm. -/
structure ECurve where
  p : Nat
  a : Nat
  d : Nat
  l : Nat
  gx : Nat
  gy : Nat
  len : Nat
  c : Nat
  deriving DecidableEq, Repr

/-- Ed25519's curve. -/
def ed25519 : ECurve :=
  let p := 2 ^ 255 - 19
  { p := p, a := p - 1, d := 0x52036cee2b6ffe738cc740797779e89800700a4d4141d8ab75eb4dca135978a3,
    l := 2 ^ 252 + 27742317777372353535851937790883648493,
    gx := 0x216936d3cd6e53fec0a4e231fdd6dc5c692cc7609525a7b2c9562d608f25d51a,
    gy := 0x6666666666666666666666666666666666666666666666666666666666666658, len := 32, c := 3 }

/-- Ed448's curve. -/
def ed448 : ECurve :=
  let p := 2 ^ 448 - 2 ^ 224 - 1
  { p := p, a := 1, d := p - 39081,
    l := 2 ^ 446 - 13818066809895115352007386748515426880336692474882178609894547503885,
    gx := 224580040295924300187604334099896036246789641632564134246125461686950415467406032909029192869357953282578032075146446173674602635247710,
    gy := 298819210078481492676017930443930673437544040154080242095928241372331506189835876003536878655418784733982303233503462500531545062832660,
    len := 57, c := 2 }

/-- Addition on an Edwards curve. -/
def ECurve.add (e : ECurve) (u v : Nat × Nat) : Nat × Nat :=
  let m := e.d * (u.1 * v.1 % e.p) % e.p * (u.2 * v.2 % e.p) % e.p
  ((u.1 * v.2 + u.2 * v.1) % e.p * invMod e.p (1 + m) % e.p,
   subMod e.p (u.2 * v.2) (e.a * (u.1 * v.1 % e.p)) * invMod e.p (subMod e.p 1 m) % e.p)

/-- Multiplication on an Edwards curve. -/
def ECurve.mul (e : ECurve) (k : Nat) (q : Nat × Nat) : Nat × Nat :=
  (List.range (bitLen k)).reverse.foldl (fun a i => let s := e.add a a
                                                    if bit k i then e.add s q else s) (0, 1)

/-- A square root modulo p for p = 5 mod 8 or 3 mod 4, if there is one. -/
def sqrtMod (p x : Nat) : Option Nat :=
  let r := if p % 4 = 3 then powMod p x ((p + 1) / 4)
    else
      let q := powMod p x ((p + 3) / 8)
      if q * q % p = x % p then q else q * powMod p 2 ((p - 1) / 4) % p
  if r * r % p = x % p then some r else none

/-- The y of an encoded point, and its sign bit. -/
def ECurve.y (e : ECurve) (b : Bytes) : Nat × Nat := (leNat b % 2 ^ (8 * e.len - 1), leNat b / 2 ^ (8 * e.len - 1))

/-- Whether an encoded y is below p. -/
def ECurve.yOk (e : ECurve) (b : Bytes) : Bool := (e.y b).1 < e.p

/-- The point that an encoding decodes to. -/
def ECurve.decode (e : ECurve) (b : Bytes) : Option (Nat × Nat) :=
  let (y, sg) := e.y b
  if e.p ≤ y then none
  else
    let y2 := y * y % e.p
    let x2 := subMod e.p y2 1 * invMod e.p (subMod e.p (e.d * y2) e.a) % e.p
    match sqrtMod e.p x2 with
    | none => none
    | some x => if x = 0 then (if sg = 1 then none else some (0, y)) else some (if x % 2 = sg then x else e.p - x, y)

/-- The encoding of a point. -/
def ECurve.encode (e : ECurve) (q : Nat × Nat) : Bytes := toLE e.len (q.2 + q.1 % 2 * 2 ^ (8 * e.len - 1))

/-- SHA-512 for Ed25519, SHAKE256 to 114 octets for Ed448. -/
def ECurve.hash (e : ECurve) (m : Bytes) : Bytes := if e.len = 32 then sha512 m else shake256 114 m

/-- The domain separation octets of RFC 8032: none for pure Ed25519. -/
def ECurve.dom (e : ECurve) (scheme : Nat) (ctx : Bytes) : Bytes :=
  let tail := [BitVec.ofNat 8 (if scheme = 2 then 1 else 0), BitVec.ofNat 8 ctx.length] ++ ctx
  if e.len = 32 then
    if scheme = 0 then [] else "SigEd25519 no Ed25519 collisions".toList.map (fun c => BitVec.ofNat 8 c.toNat) ++ tail
  else "SigEd448".toList.map (fun c => BitVec.ofNat 8 c.toNat) ++ tail

/-- The prehash of the ph schemes (R101): SHA-512, or SHAKE256 to 64 octets. -/
def ECurve.prehash (e : ECurve) (m : Bytes) : Bytes := if e.len = 32 then sha512 m else shake256 64 m

/-- The clamped scalar and the prefix of a private key. -/
def ECurve.expand (e : ECurve) (key : Bytes) : Nat × Bytes :=
  let h := e.hash key
  let v := leNat (h.take e.len)
  let s := if e.len = 32 then v % 2 ^ 254 / 8 * 8 + 2 ^ 254 else v % 2 ^ 447 / 4 * 4 + 2 ^ 447
  (s, h.drop e.len)

/-- The base point. -/
def ECurve.g (e : ECurve) : Nat × Nat := (e.gx, e.gy)

/-- The public key of a private key. -/
def ECurve.pub (e : ECurve) (key : Bytes) : Bytes := e.encode (e.mul (e.expand key).1 e.g)

/-- EdDSA signing (RFC 8032). -/
def ECurve.sign (e : ECurve) (key : Bytes) (scheme : Nat) (ctx m : Bytes) : Bytes :=
  let (s, pre) := e.expand key
  let dom := e.dom scheme ctx
  let a := e.pub key
  let r := leNat (e.hash (dom ++ pre ++ m)) % e.l
  let rb := e.encode (e.mul r e.g)
  let k := leNat (e.hash (dom ++ rb ++ a ++ m)) % e.l
  rb ++ toLE e.len ((r + k * s) % e.l)

/-- Whether a point is of small order: the cofactor takes it to the identity. -/
def ECurve.small (e : ECurve) (q : Nat × Nat) : Bool := e.mul (2 ^ e.c) q = (0, 1)

/-- EdDSA verification (R101), failures in the order of Table 5.16: (0, d) POINT_INVALID, (1, d) VERIFY_RANGE,
(2, d) VERIFY_FAIL. -/
def ECurve.verify (e : ECurve) (pub sig : Bytes) (scheme : Nat) (ctx m : Bytes) : Option (Nat × Nat) :=
  let rb := sig.take e.len
  let s := leNat (sig.drop e.len)
  if !e.yOk pub then some (0, 2)
  else if !e.yOk rb then some (0, 6)
  else if e.l ≤ s then some (1, 2)
  else match e.decode pub with
    | none => some (0, 5)
    | some a =>
      if e.small a then some (0, 4)
      else match e.decode rb with
        | none => some (0, 6)
        | some r =>
          let k := leNat (e.hash (e.dom scheme ctx ++ rb ++ pub ++ m)) % e.l
          let h := 2 ^ e.c
          if e.mul (h * s) e.g = e.add (e.mul h r) (e.mul (h * k) a) then none else some (2, 1)

/-- What is wrong with an EdDSA public key alone (Table 5.16). -/
def ECurve.pubBad (e : ECurve) (pub : Bytes) : Option Nat :=
  if !e.yOk pub then some 2
  else match e.decode pub with
    | none => some 5
    | some a => if e.small a then some 4 else none

/-! ### Montgomery curves (RFC 7748, R102) -/

/-- The Montgomery ladder: X25519 for 32 octets, X448 for 56. -/
def xdh (k u : Bytes) : Bytes :=
  let n := k.length
  let p := if n = 32 then 2 ^ 255 - 19 else 2 ^ 448 - 2 ^ 224 - 1
  let a24 := if n = 32 then 121665 else 39081
  let kv := leNat k
  let sc := if n = 32 then kv % 2 ^ 254 / 8 * 8 + 2 ^ 254 else kv % 2 ^ 447 / 4 * 4 + 2 ^ 447
  let x1 := leNat u % (if n = 32 then 2 ^ 255 else 2 ^ 448) % p
  let step := fun (t : (Nat × Nat) × (Nat × Nat)) (i : Nat) =>
    let sw := bit sc i
    let (q2, q3) := if sw then (t.2, t.1) else t
    let a := (q2.1 + q2.2) % p
    let aa := a * a % p
    let b := subMod p q2.1 q2.2
    let bb := b * b % p
    let e := subMod p aa bb
    let da := subMod p q3.1 q3.2 * a % p
    let cb := (q3.1 + q3.2) % p * b % p
    let x3 := (da + cb) * (da + cb) % p
    let dc := subMod p da cb
    let r2 := (aa * bb % p, e * (aa + a24 * e) % p)
    let r3 := (x3, x1 * (dc * dc % p) % p)
    if sw then (r3, r2) else (r2, r3)
  let r := ((List.range (if n = 32 then 255 else 448)).reverse.foldl step ((1, 0), (x1, 1))).1
  toLE n (r.1 * powMod p r.2 (p - 2) % p)

/-- The Montgomery base point's u, 9 or 5, by length. -/
def xdhBase (n : Nat) : Bytes := toLE n (if n = 32 then 9 else 5)

/-! ### Primality (R127) -/

/-- Whether `p` has no divisor from 2 up to 31: trial division for the primes below 1,000. -/
def smallPrimes : List Nat := ((List.range 998).map (· + 2)).filter fun n => (List.range 30).all fun d => n ≤ d + 2 || n % (d + 2) != 0

/-- The power of two in a number and its odd part, by fuel. -/
def twos : Nat → Nat → Nat × Nat
  | 0, n => (0, n)
  | f + 1, n => if n % 2 = 0 && n != 0 then let r := twos f (n / 2)
                                            (r.1 + 1, r.2) else (0, n)

/-- The strong probable-prime test to base 2. -/
def strong2 (n : Nat) : Bool :=
  let (s, d) := twos (bitLen n) (n - 1)
  let x := powMod n 2 d
  x = 1 || ((List.range s).foldl (fun a _ => (a.1 || a.2 = n - 1, a.2 * a.2 % n)) (false, x)).1

/-- The Jacobi symbol by fuel, as 0, 1 or 2 for -1. -/
def jacobiF : Nat → Nat → Nat → Bool → Nat
  | 0, _, _, _ => 0
  | f + 1, a, n, neg =>
    if a = 0 then (if n = 1 then (if neg then 2 else 1) else 0)
    else
      let (t, o) := twos (bitLen a) a
      let neg1 := if t % 2 = 1 && (n % 8 = 3 || n % 8 = 5) then !neg else neg
      let neg2 := if o % 4 = 3 && n % 4 = 3 then !neg1 else neg1
      jacobiF f (n % o) o neg2

/-- The Jacobi symbol (a/n), n odd: 0, 1, or 2 for -1. -/
def jacobi (a n : Nat) : Nat := jacobiF (2 * bitLen n + 4) (a % n) n false

/-- Whether a number is a perfect square. -/
def isSquare (n : Nat) : Bool :=
  let r := (List.range (bitLen n / 2 + 1)).reverse.foldl (fun a i => let b := a + 2 ^ i
                                                                     if b * b ≤ n then b else a) 0
  r * r = n

/-- The D of Selfridge's method A from 5, -7, 9, ...: its value modulo n, by fuel; a number that is no square has one below it. -/
def selfridge (n : Nat) : Nat → Nat → Option Nat
  | 0, _ => none
  | f + 1, k =>
    let d := if k % 4 = 1 then k % n else subMod n 0 k
    if jacobi d n = 2 then some d else selfridge n f (k + 2)

/-- The strong Lucas test with Selfridge's parameters. -/
def strongLucas (n : Nat) : Bool :=
  match selfridge n n 5 with
  | none => false
  | some d =>
    let half := fun (x : Nat) => (if x % 2 = 0 then x else x + n) / 2 % n
    let q := subMod n 1 d * invMod n 4 % n
    let (s, o) := twos (bitLen n + 1) (n + 1)
    let st := (List.range (bitLen o)).reverse.foldl (fun (a : Nat × Nat × Nat) i =>
      let (u, v, k) := a
      let u2 := u * v % n
      let v2 := subMod n (v * v) (2 * k)
      let k2 := k * k % n
      if bit o i then (half (u2 + v2), half (d * u2 + v2), k2 * q % n) else (u2, v2, k2)) (0, 2 % n, 1)
    let (u, v, k) := st
    u = 0 || ((List.range s).foldl (fun (a : Bool × Nat × Nat) _ =>
      (a.1 || a.2.1 = 0, subMod n (a.2.1 * a.2.1) (2 * a.2.2), a.2.2 * a.2.2 % n)) (false, v, k)).1

/-- The Baillie-PSW combination after trial division (R127). -/
def isPrime (n : Nat) : Bool :=
  if n < 2 then false
  else if smallPrimes.contains n then true
  else if smallPrimes.any fun p => n % p = 0 then false
  else strong2 n && !isSquare n && strongLucas n

/-! ### RSA (PKCS #1 v2.2, R103) -/

/-- A private key as imported: n, e, p, q (Table 10.11). -/
structure RsaKey where
  k : Nat
  n : Nat
  e : Nat
  p : Nat
  q : Nat
  deriving DecidableEq, Repr

/-- The key of a material of modulus length `k`. -/
def rsaOf (k : Nat) (m : Bytes) : RsaKey :=
  { k := k, n := beNat (m.take k), e := beNat (Bytes.sub m k 32), p := beNat (Bytes.sub m (k + 32) (k / 2)),
    q := beNat (m.drop (k + 32 + k / 2)) }

/-- The private operation. -/
def RsaKey.priv (r : RsaKey) (x : Nat) : Nat :=
  let f := (r.p - 1) * (r.q - 1) / Nat.gcd (r.p - 1) (r.q - 1)
  powMod r.n x (invMod f r.e)

/-- Whether an inline public key is valid (Table 5.16): leading octet and parity of n, range and parity of e. -/
def rsaPubOk (k : Nat) (pub : Bytes) : Bool :=
  let n := beNat (pub.take k)
  let e := beNat (pub.drop k)
  (pub.head? != some 0) && n % 2 = 1 && e % 2 = 1 && 2 ^ 16 < e && e < 2 ^ 256

/-- MGF1. -/
def mgf1 (h : Nat) (seed : Bytes) (n : Nat) : Bytes :=
  (((List.range (n / hashLen h + 1)).map fun i => hashFix h (seed ++ toBE 4 i)).flatten).take n

/-- EMSA-PSS encoding for an integer of `bits` bits. -/
def pssEncode (h bits : Nat) (dig salt : Bytes) : Bytes :=
  let em := (bits + 7) / 8
  let hh := hashFix h (zeros 8 ++ dig ++ salt)
  let db := zeros (em - salt.length - hashLen h - 2) ++ [1] ++ salt
  let m := xorBytes db (mgf1 h hh db.length)
  toBE db.length (beNat m % 2 ^ (8 * db.length - (8 * em - bits))) ++ hh ++ [0xBC]

/-- EMSA-PSS verification; `slen` is the salt length that is accepted, `none` for any from 0 to hLen. -/
def pssOk (h bits : Nat) (dig em : Bytes) (slen : Option Nat) : Bool :=
  let hl := hashLen h
  let dl := em.length - hl - 1
  let mdb := em.take dl
  let hh := Bytes.sub em dl hl
  let top := 8 * em.length - bits
  let db := toBE dl (beNat (xorBytes mdb (mgf1 h hh dl)) % 2 ^ (8 * dl - top))
  let body := db.dropWhile (· = 0)
  let salt := body.drop 1
  hl + 2 ≤ em.length && em.getLast? = some 0xBC && beNat mdb < 2 ^ (8 * dl - top) && body.head? = some 1 &&
    (match slen with | some n => salt.length = n | none => salt.length ≤ hl) && hashFix h (zeros 8 ++ dig ++ salt) = hh

/-- EMSA-PKCS1-v1_5 for SHA-256, SHA-384 or SHA-512. -/
def v15Encode (h k : Nat) (dig : Bytes) : Bytes :=
  let n := hashLen h
  let t : Bytes := [0x30, BitVec.ofNat 8 (n + 17), 0x30, 0x0D, 0x06, 0x09, 0x60, 0x86, 0x48, 0x01, 0x65, 0x03, 0x04, 0x02,
    BitVec.ofNat 8 h, 0x05, 0x00, 0x04, BitVec.ofNat 8 n] ++ dig
  [0, 1] ++ List.replicate (k - t.length - 3) 0xFF ++ [0] ++ t

/-- EME-OAEP encoding with a seed. -/
def oaepEncode (h k : Nat) (label m seed : Bytes) : Bytes :=
  let db := hashFix h label ++ zeros (k - m.length - 2 * hashLen h - 2) ++ [1] ++ m
  let mdb := xorBytes db (mgf1 h seed db.length)
  0 :: xorBytes seed (mgf1 h mdb (hashLen h)) ++ mdb

/-- EME-OAEP decoding. -/
def oaepDecode (h : Nat) (label em : Bytes) : Option Bytes :=
  let hl := hashLen h
  let ms := Bytes.sub em 1 hl
  let mdb := em.drop (1 + hl)
  let seed := xorBytes ms (mgf1 h mdb hl)
  let db := xorBytes mdb (mgf1 h seed mdb.length)
  let rest := (db.drop hl).dropWhile (· = 0)
  if em.head? = some 0 && db.take hl = hashFix h label && rest.head? = some 1 then some (rest.drop 1) else none

/-- The checks of an RSA private key at import (Table 10.11). -/
def RsaKey.ok (r : RsaKey) : Bool :=
  r.e % 2 = 1 && 2 ^ 16 < r.e && r.e < 2 ^ 256 && 2 ^ (8 * (r.k - 1)) ≤ r.n && r.p * r.q = r.n && isPrime r.p && isPrime r.q &&
    Nat.gcd r.e ((r.p - 1) * (r.q - 1)) = 1

/-! ### Lattice encodings (FIPS 203, FIPS 204) that Table 5.16 judges -/

/-- FIPS 203's modulus check of an encapsulation key: every coefficient below q (R105). -/
def kemEkOk (ek : Bytes) : Bool :=
  (chunks 3 (ek.take (ek.length - 32))).all fun t => leNat t % 4096 < 3329 && leNat t / 4096 < 3329

/-- The parameters of a set that its signature's encoding uses: c~ octets, gamma1, beta, l, k, omega. -/
def mldsaPar : Nat → Nat × Nat × Nat × Nat × Nat × Nat
  | 0x44 => (32, 2 ^ 17, 78, 4, 4, 80) | 0x65 => (48, 2 ^ 19, 196, 5, 6, 55) | _ => (64, 2 ^ 19, 120, 7, 8, 75)

/-- HintBitUnpack's structure, polynomial by polynomial: limits not falling, indices rising within each. -/
def hintOkF (w : Nat) (idx : Bytes) : Nat → List Nat → Bool
  | prev, [] => (idx.drop prev).all (· = 0)
  | prev, n :: t =>
    prev ≤ n && n ≤ w &&
      (let part := ((idx.take n).drop prev).map BitVec.toNat
       (List.zipWith (fun a b => decide (a < b)) part (part.drop 1)).all id) && hintOkF w idx n t

/-- Whether an ML-DSA signature's hint is well encoded and its z within range (Table 5.16). -/
def mldsaRangeOk (pset : Nat) (sig : Bytes) : Bool :=
  let (c, g1, beta, l, k, w) := mldsaPar pset
  let zb := if g1 = 2 ^ 17 then 18 else 20
  let zs := Bytes.sub sig c (32 * zb * l)
  let hint := sig.drop (c + 32 * zb * l)
  let zOk := (chunks (zb / 2) zs).all fun t => (List.range 4).all fun i =>
    let v := leNat t >>> (zb * i) % 2 ^ zb
    (if v ≤ g1 then g1 - v else v - g1) < g1 - beta
  zOk && hintOkF w (hint.take w) 0 ((Bytes.sub hint w k).map BitVec.toNat)

end Sys2Proof
end

