-- ==== Sys2Proof/Config.lean ====
section
/-! DEFINITION. What the spec leaves open as a value: opaque constants no proof can see through, and what one unit fixes. -/
namespace Sys2Proof.Config

/-- Octet `i` of the `n`-th free string: any value the spec leaves open or draws from the noise sources. -/
opaque freeByte (n i : Nat) : Byte

/-- How many octets of a generate request the engine takes for masks and blinding, beside the values that show (R197). -/
opaque maskOctets (n : Nat) : Nat

/-- How far an engine had got when the job it served was stopped (R177): any value, each stop its own. -/
opaque progress (n : Nat) : Nat

/-- Whether the pass that hashes a job's message is over when its lane is next looked for (R109): any answer. -/
opaque passOver (n : Nat) : Bool

/-- The word that the wipe of the `i`-th tile a stop frees finds non-zero, if it finds one (R137): any outcome. -/
opaque stopWipe (n i : Nat) : Option (Fin 16384)

/-- The row that fails in an active Vault erasure whose command does not tell (R364), if one does: any outcome. -/
opaque stormRow (n : Nat) : Option (BitVec 11)

/-- The unit's UID, GLB_UID3 first (R39): fixed in OTP, no value stated. -/
opaque uid : Nat → Byte

/-- Hexdozon's PCI Vendor ID (R29), which the manual does not give. -/
opaque vendorId : BitVec 16

/-- A word of configuration space that the manual does not describe, by its address, as the Base specification has it
for what software last wrote to the Command register. -/
opaque pciWord (off : Nat) (command : W32) : W32

/-- The SHA3-256 of each vendor root's public key fused in OTP (Table 15.1): 0 test, 1 production, 2 Maelmos. -/
opaque rootDigest : Nat → Nat → Byte

/-- What a page of device memory serves (Tables 14.4 and 14.8): an owner that a start fixes, a place in one of the 16
deep-store segments by the unit that stands first on the page, or a place in the pool of staging pages. -/
inductive PageUse where
  | free | warden | secure | pot | image (normal : Bool) | hypervisor | partition (n : Fin 32) | dmaBuf
  | deep (seg : Fin 16) (unit : BitVec 20) | staging (n : BitVec 18)
  deriving DecidableEq, Repr, Inhabited

/-- The use of each page of device memory (R319): the manual assigns no pages. -/
opaque pageUse (page : Nat) : PageUse

/-- Partitions that a normal core hosts (Table 14.10): the count is firmware-internal (R317). -/
opaque coreParts (core : Nat) : BitVec 5

/-- The device-identity private key's P-384 scalar (Table 15.1), derived from an OTP seed the manual does not give. -/
opaque deviceKey : Nat

/-- Octets of the unit's device-identity certificate (R293), DER under the vendor production root. -/
opaque certificate (i : Nat) : Byte

/-- How many octets the certificate has. -/
opaque certLen : BitVec 12

/-- Octet `i` of the transfer key that ECDH between this unit's and another unit's device-identity keys gives (R295), by the
other's UID; the derivation is not described. -/
opaque transferKey (uid : Bytes) (i : Nat) : Byte

/-- Octet `i` of the archived form of a unit of a key's record: its wrapping under the storage root (R244), whose form is
not given. -/
opaque archSeal (root : Bytes) (record : Bytes) (unit i : Nat) : Byte

/-- Octet `i` of the key set of a KeyID keyed from drawn octets (R333, R334): 64 data-key octets, then 32 of the tag key; how
the unit cuts key sets out of what its generator gives is not described. -/
opaque memKeySet (draw : Bytes) (keyId i : Nat) : Byte

/-- Octet `i` of the Reed-Solomon check code over a line's ciphertext and tag (R334), whose polynomials are not given. -/
opaque rsCheck (stored : Bytes) (i : Nat) : Byte

/-- A line, by its number, that fails while pages move to another KeyID (R335, R414), if one does: any outcome. -/
opaque moveFails (n : Nat) : Option (BitVec 36)

/-- How many pages a rotation passes within a tick (R414: about 128 MiB per 80 ms on an idle unit). -/
opaque rotRate (tick : Nat) : BitVec 20

/-- How many units compaction rewrites within a tick (R241: a full segment in about 80 ms on an idle unit). -/
opaque compRate (tick : Nat) : BitVec 20

/-- The blob key's derivation from storage root, slice, tenant digest and epoch (R234), whose form is not given. -/
opaque blobKey (root : Bytes) (slice : Nat) (digest : Bytes) (epoch : Nat) (i : Nat) : Byte

/-- A blob's body as a function of the key's material and hidden attributes (R234: contents not described). -/
opaque blobBody (material : Bytes) (hidden : Bytes) (i : Nat) : Byte

/-- The length of that body in octets. -/
opaque blobBodyLen (material : Bytes) (hidden : Bytes) : Nat

/-- The body's inverse: material and hidden attributes that a body carries. -/
opaque blobOpen (body : Bytes) (part i : Nat) : Byte

/-- Lengths of the two parts of `blobOpen`. -/
opaque blobOpenLen (body : Bytes) (part : Nat) : Nat

end Sys2Proof.Config
end

