-- ==== Sys2Proof/Machine/Parts/Base.lean ====
section
/-! DEFINITION. State pieces every page shares: the page header, register holds and latches, MSI-X, what the unit sends out. -/
namespace Sys2Proof.Machine
open Sys2Proof

/-- PG_STAT.STATE (Table 2.4). -/
inductive BlockState where
  | off | ready | busy | draining | offline | fault | servicing
  deriving DecidableEq, Repr

/-- The code PG_STAT.STATE reads (Table 2.4). -/
def BlockState.code : BlockState → Nat
  | .off => 0 | .ready => 1 | .busy => 2 | .draining => 3 | .offline => 4 | .fault => 5 | .servicing => 6

/-- The common page header's fields (Table 2.4); `gating`: the power manager has been asked to gate the block (R32). -/
structure Hdr where
  enable : Bool := true
  drain : Bool := false
  offline : Bool := false
  gating : Bool := false
  st : BlockState := .off
  fclass : Nat := 0
  intStat : W32 := 0
  intEn : W32 := 0
  errCode : Nat := 0
  errDetail : Nat := 0
  lock : Bool := false
  gen : W32 := 0
  deriving DecidableEq, Repr

/-- One entry of the MSI-X table (R29, R40, R70): message address and data, mask, pending. -/
structure MsixEntry where
  addrLo : W32 := 0
  addrHi : W32 := 0
  data : W32 := 0
  mask : Bool := true
  pend : Bool := false
  deriving DecidableEq, Repr

/-- The message address of an entry. -/
def MsixEntry.addr (e : MsixEntry) : Nat := e.addrHi.toNat * 2 ^ 32 + e.addrLo.toNat

/-- The configuration registers of the function that software writes (R25, R29): the Command register, the addresses that
BARs 0, 2-3 and 4-5 hold. -/
structure Pci where
  command : W32 := 0
  bar0 : Nat := 0
  bar2 : Nat := 0
  bar4 : Nat := 0
  deriving DecidableEq, Repr

/-- What the unit sends to the world outside it, in the order it sends it. -/
inductive Out where
  /-- A posted write to host memory, with a slice's PASID prefix, or none for slice 0 (R49, R54, R265). -/
  | write (pasid : Option Nat) (addr : Nat) (data : Bytes)
  /-- A read request to host memory (R53, R63), with a PASID prefix or none likewise. -/
  | read (pasid : Option Nat) (addr : Nat) (len : Nat)
  /-- An MSI-X message on a table entry (R70), with the entry's address and data. -/
  | msix (vec addr : Nat) (data : W32)
  /-- A PMBus VOUT_COMMAND (R87): address, page, millivolts. -/
  | pmbus (addr page mv : Nat)
  /-- A Zentulink frame on a port (R292): its header of 20 octets, then ciphertext and tag. -/
  | frame (port : Nat) (hdr body : Bytes)
  /-- An SMBus block-read answer (R434). -/
  | smbus (data : Bytes)
  /-- What a read through the debug access port returns (R332), with an error response or without. -/
  | debugRead (data : Bytes) (error : Bool := false)
  /-- The error that a write through the debug access port meets in the inline engine (R336, R340). -/
  | debugError
  /-- What a read of a window returns (R26): the octets of the bytes it enables. -/
  | loaded (data : Bytes)
  /-- The answer to a PCIe configuration request (R29, R403): the words of configuration space that a read can return, none
  of them for a write; or, in place of a list, Configuration Request Retry Status. -/
  | config (words : Option (List W32))
  /-- What the test access port shifts out (R437): the identification register, or the pins sampled. -/
  | jtag (data : Bytes)
  /-- A line of UART_TX (R430): the step of Table 17.3 completed and the SMBus cause byte; its text is not given. -/
  | uart (step cause : Nat)
  deriving DecidableEq, Repr

end Sys2Proof.Machine
end

