-- ==== Sys2Proof/Machine/Parts/Ledger.lean ====
section
/-! DEFINITION. The Ledger's state (chapter 16): records, chain head, counters, the flash region. -/
namespace Sys2Proof.Machine
open Sys2Proof

/-- Where a retained record stands: the 256 KiB buffer, Vault staging, or an erase block of the flash region (R375). -/
inductive LedPlace where
  | buffer | staging | flash (block : Nat)
  deriving DecidableEq, Repr

/-- One Ledger record (Table 16.1) with its coalescing window and its place. -/
structure LedRec where
  typ : Nat
  sev : Nat
  flags : Nat := 0
  src : Nat
  seq : Nat
  optime : Nat
  rep : Nat := 0
  pcc : Nat
  lastDelta : Nat := 0
  content : Bytes
  link : Bytes
  winEnd : Nat
  isOpen : Bool := true
  place : LedPlace := .buffer
  deriving DecidableEq, Repr

/-- The Ledger: chapter 16's state. Severity-indexed counters are lists of six. -/
structure Ledger where
  recs : List LedRec := []
  nextSeq : Nat := 0
  headD : Bytes := []
  cpIndex : Nat := 0
  lastCpSeq : Option Nat := none
  sinceCp : Nat := 0
  ovw : List Nat := [0, 0, 0, 0, 0, 0]
  drop : List Nat := [0, 0, 0, 0, 0, 0]
  flashErr : Bool := false
  flashFails : Nat := 0
  resumeAt : Nat := 0
  cpLost : Bool := false
  regionBad : Bool := false
  chainRestart : Bool := false
  flushing : Bool := false
  committedSeq : Option Nat := none
  committedD : Bytes := []
  erases : NMap Nat := []
  blockFirst : NMap Nat := []
  curGeneral : Nat := 16
  curReserve : Nat := 0
  wearNoted : Bool := false
  deriving DecidableEq, Repr

end Sys2Proof.Machine
end

