-- ==== Sys2Proof/Machine/Parts/Keys.lean ====
section
/-! DEFINITION. The key store's state (chapters 10 and 11): keys, deletion filter, segments, archive, custody groups, approvals. -/
namespace Sys2Proof.Machine
open Sys2Proof

/-- A key: its attribute record (Table 10.6), its material, and what the key store keeps about it.
`live` turns false at deletion; the units stay taken until the last bound job and open stream end (R238). `rebuild` says
that the warm table was discarded and is to be built again (R113), `oldQuads` where earlier tables of the key
still serve bound jobs; `badLine` is a line of the record that failed (R19). -/
structure KeyRec where
  handle : Nat := 0
  ktype : Nat := 0
  alg : Nat := 0
  pset : Nat := 0
  persist : Nat := 0
  export_ : Nat := 0
  warm : Bool := false
  warmReady : Bool := false
  imported : Bool := false
  plainImport : Bool := false
  fromBlob : Bool := false
  tallied : Bool := false
  restricted : Bool := false
  klen : Nat := 0
  usage : Nat := 0
  replSet : Nat := 0
  custody : Nat := 0xFFFF
  tallyMax : Nat := 0
  tallyUsed : Nat := 0
  rateMax : Nat := 0
  ratePeriod : Nat := 0
  rateWin : Nat := 0
  rateCnt : Nat := 0
  inv : Nat := 0
  ivFixed : Nat := 0
  units : Nat := 0
  rev : Nat := 0
  curveId : Nat := 0
  curveDigest : Bytes := []
  material : Bytes := []
  pub : Bytes := []
  invCeil : Nat := 0
  usedCeil : Nat := 0
  archPending : Bool := false
  warmQuad : Option Nat := none
  oldQuads : List Nat := []
  rebuild : Bool := false
  badLine : Option Nat := none
  live : Bool := true
  deriving DecidableEq, Repr

/-- One deletion-filter entry (R239). -/
structure FilterEntry where
  slice : Nat
  index : Nat
  gen : Nat
  minRev : Nat
  seg : Nat
  round : Nat
  deriving DecidableEq, Repr

/-- One deep-store segment: its KeyID and compaction round (R241). -/
structure Segment where
  keyId : Nat
  round : Nat := 0
  deriving DecidableEq, Repr

/-- A record of the resident archive (R244): the key as archived, with slice, tenant digest, epoch and its page. -/
structure ArchRec where
  slice : Nat
  digest : Bytes
  epoch : Nat
  key : KeyRec
  page : Nat
  deriving DecidableEq, Repr

/-- The key store outside the slices' own pieces. `keys` is keyed by slice * 2^24 + INDEX, both copies of the archive by
handle; `orphans` are the handles that a creation of their slice left unattached (R245). -/
structure KeyStore where
  keys : NMap KeyRec := []
  filter : List FilterEntry := []
  filterNinety : Bool := false
  segs : List Segment := []
  spareKeyId : Nat := 16
  compSeg : Nat := 0
  compBusy : Bool := false
  compWait : Bool := false
  compPtr : Nat := 0
  compFreedOld : Nat := 0
  archive : NMap ArchRec := []
  archiveB : NMap ArchRec := []
  orphans : List Nat := []
  archLost : Nat := 0
  archStale : Nat := 0
  replayCnt : Nat := 0
  filterFullTick : Option Nat := none
  fixedExhaustNoted : Bool := false
  wrapNoted : List Nat := []
  quarantined : List (Nat × Nat) := []
  deriving DecidableEq, Repr

/-- A defined custody group as the Vault keeps it (R248): header fields and the group digest; `custodians` are the
KEY_DIGESTs, which a change's challenge needs to tell new custodians from old (R253). -/
structure Group where
  m : Nat
  n : Nat
  gflags : Nat := 0
  slice : Nat
  window : Nat
  gversion : Nat
  guard : Nat := 0
  digest : Bytes
  custodians : List Bytes := []
  deriving DecidableEq, Repr

/-- An approval (R250 to R259): its challenge, the custodians counted, its window. `slot` and `serial` make the
APPROVAL_ID; `counted` is the set of custodians counted, `newReq` how many new custodians a change requires. -/
structure Approval where
  slot : Nat
  serial : Nat
  slice : Nat
  kind : Nat
  group : Nat
  gversion : Nat
  challenge : Bytes
  opDigest : Bytes
  record : Bytes := []
  m : Nat
  n : Nat
  tStart : Nat
  tEnd : Nat
  counted : Nat := 0
  newReq : Nat := 0
  granted : Bool := false
  shown : Bytes := []
  tokens : List Bytes := []
  deriving DecidableEq, Repr

/-- A cancelled mark that an approval slot keeps until it is next issued (R259). -/
structure CancelMark where
  slot : Nat
  serial : Nat
  slice : Nat
  deriving DecidableEq, Repr

/-- The countersign unit's volatile state (chapter 11). -/
structure Custody where
  approvals : List Approval := []
  marks : List CancelMark := []
  tokenRej : Nat := 0
  deriving DecidableEq, Repr

/-- What the Vault holds of the key store and countersigning (Table 10.1); it outlives every reset. `archA` and `archB` are
the page digests of the two archive copies (R244); a page never written has none. -/
structure Vault where
  storageRoot : Bytes := []
  epoch : Nat := 0
  fixedCtr : Nat := 0
  blobSerial : Nat := 0
  gens : NMap Nat := []
  archA : NMap Bytes := []
  archB : NMap Bytes := []
  groups : NMap Group := []
  approvalSerial : Nat := 0
  deriving DecidableEq, Repr

end Sys2Proof.Machine
end

