-- ==== Sys2Proof/Machine/Parts/Rings.lean ====
section
/-! DEFINITION. Rings, jobs, the fetch arbiter and the Barometer (chapters 3 and 4). -/
namespace Sys2Proof.Machine
open Sys2Proof

/-- Ring states (Table 3.6). -/
inductive RingState where
  | disabled | idle | scanning | wait | fault | stopping
  deriving DecidableEq, Repr

/-- The code SL_RING_STAT.STATE reads (Table 3.6). -/
def RingState.code : RingState → Nat
  | .disabled => 0 | .idle => 1 | .scanning => 2 | .wait => 3 | .fault => 4 | .stopping => 5

/-- Why a ring is in WAIT (R57). -/
inductive WaitWhy where
  | none | full | fence
  deriving DecidableEq, Repr

/-- A job ring with its reset values (Table 3.8). -/
structure Ring where
  gid : Nat
  baseLo : Option W32 := none
  base : W64 := 0
  cfg : W32 := 4
  weight : Nat := 1
  burst : Nat := 1
  credit : Nat := 0
  st : RingState := .disabled
  rescan : Bool := false
  fcause : Nat := 0
  why : WaitWhy := .none
  fenceJob : Nat := 0
  scan : Nat := 0
  faddr : W64 := 0
  done : W32 := 0
  deriving DecidableEq, Repr

/-- An entry read in flight on a fetch channel; `live` is false once the ring stopped taking it (R67), `head` the bytes
0x00 to 0x07 that the first read of a split fetch brought (R53). -/
structure Fetch where
  slice : Nat
  ring : Nat
  index : Nat
  live : Bool := true
  head : Option Bytes := none
  deriving DecidableEq, Repr

/-- How an entry ends: STATUS, OUT_LEN and RESULT (R54). -/
structure Completion where
  code : Nat
  detail : Nat := 0
  outLen : Nat := 0
  result : Bytes := []
  deriving DecidableEq, Repr

/-- What the key store holds for a job that will create or restrict a key (R216, R221): a place, a tally slot, a fixed-field
value, room for a warm table in a quad, a page of the archive. -/
structure Reservation where
  slice : Nat
  index : Nat
  units : Nat
  tally : Bool
  inv : Bool := false
  warm : Option (Nat × Nat) := none
  arch : Option Nat := none
  deriving DecidableEq, Repr

/-- What a job takes at its binding (R20): the engine, the lanes or quad Keccak unit that hash its message (R109, R154),
the keys as bound, the charges, the time limit; for a bulk job, that an item of it has been bound (R89); for a job that
runs on a member, the pairs its RESULT names and that it has arrived (R303, R310). -/
structure Bound where
  eng : Engine
  quad : Nat := 0
  warm : Bool := false
  keyA : Option KeyRec := none
  keyB : Option KeyRec := none
  tallyLeft : Nat := 0xFFFFFFFF
  inv : Nat := 0
  limit : Nat := 0
  resv : Option Reservation := none
  approval : Option Nat := none
  stream : Option Nat := none
  nonce : Bytes := []
  rnd : Bytes := []
  masks : Nat := 0
  tick : Nat := 0
  pairs : Nat := 0
  arrived : Bool := false
  hash : List Engine := []
  hashed : Bool := false
  begun : Bool := false
  invTaken : Bool := false
  deriving DecidableEq, Repr

/-- One item of a bulk job (R142, R152): its octets, what rows 1 to 3 of Table 7.3 found in its descriptor, its outcome once
known, whether it was retried, the tile that serves it and the unit that hashes for it (R141). -/
structure Item where
  idx : Nat
  body : Bytes
  ready : Bool := false
  out : Option (Nat × Nat) := none
  retried : Bool := false
  warmRun : Bool := false
  tile : Option Nat := none
  queued : Bool := false
  member : Option Nat := none
  placements : Nat := 0
  barred : Option Nat := none
  keyA : Option KeyRec := none
  bad : Option (Nat × Nat) := none
  hash : List Engine := []
  hashed : Bool := false
  deriving DecidableEq, Repr

/-- The phases of an accepted entry. -/
inductive Phase where
  /-- its input is being read (R63) -/
  | staging
  /-- its input is staged; it waits for its FIFO's turn (R80) -/
  | staged
  /-- bound to an engine (R20) -/
  | bound
  /-- ended; its completion word waits for INORDER (R59) or for D0 (R398) -/
  | done
  deriving DecidableEq, Repr

/-- An entry of a ring's outstanding set (R57), oldest first in State; `released` says how far its engine had got when it
was stopped (R177). A curve being loaded holds a pool slot, and joins the PK FIFO ahead of jobs from number `joined` on
(R125). -/
structure Job where
  id : Nat
  slice : Nat
  ring : Nat
  index : Nat
  addr : Nat
  pasid : Option Nat
  entry : Bytes
  cls : Fifo
  phase : Phase := .staging
  input : Bytes := []
  desc : Bytes := []
  bnd : Option Bound := none
  items : List Item := []
  fin : Option Completion := none
  finSeq : Nat := 0
  released : Nat := 0
  fenced : Bool := false
  checker : Bool := false
  started : Bool := false
  curveSlots : List Nat := []
  rldSlots : List Nat := []
  member : Option Nat := none
  placements : Nat := 0
  slot : Option Nat := none
  joined : Option Nat := none
  remote : Option RemoteJob := none
  deriving DecidableEq, Repr

/-- The QSC scheduler's own fields (chapters 3 and 4). HWMs are in the order PK, BULK, SYM, KEY, RNG, items. -/
structure Qsc where
  slicePtr : Nat := 0
  bpOn : Bool := false
  bpCnt : Nat := 0
  hwm : List Nat := [0, 0, 0, 0, 0, 0]
  timeoutCnt : Nat := 0
  grantPos : Nat := 0
  nextJob : Nat := 0
  nextFin : Nat := 0
  deriving DecidableEq, Repr

/-- The Barometer page's fields (Table 4.3) and the voltage loop (R87). -/
structure Baro where
  pace : Nat := 0x400
  seq : Nat := 0
  min : Nat := 0x500
  rttMax : Nat := 1000
  rttMean : Nat := 1000
  vdd : Nat := 0
  v : Nat := 800
  loop : Bool := false
  ceil : Bool := false
  floor : Bool := false
  pmbErr : Bool := false
  deriving DecidableEq, Repr

end Sys2Proof.Machine
end

