-- ==== Sys2Proof/Machine/Parts/Slices.lean ====
section
/-! DEFINITION. Slices, their allocations, streams, tellers and mailboxes (chapters 8 and 12), and the SLM command registers. -/
namespace Sys2Proof.Machine
open Sys2Proof

/-- Slice states (Table 12.1). -/
inductive SliceState where
  | free | creating | active | held | destroying
  deriving DecidableEq, Repr

/-- The code of a slice state (Table 12.1). -/
def SliceState.code : SliceState → Nat
  | .free => 0 | .creating => 1 | .active => 2 | .held => 3 | .destroying => 4

/-- What a slice holds from the unit-wide pools (Table 12.2); deep blocks in the order granted (R269). -/
structure Alloc where
  rings : Nat := 0
  vecBase : Nat := 0
  vecCount : Nat := 0
  hot : Nat := 0
  deep : List Nat := []
  tally : Nat := 0
  teller : Nat := 0
  curves : Nat := 0
  rlds : Nat := 0
  staging : Nat := 0
  weight : Nat := 1
  deriving DecidableEq, Repr

/-- An open stream (R172, R173): what its first segment recorded, the payload so far, the next step. -/
structure Stream where
  keyA : Nat
  alg : Nat
  sub : Nat
  tagLen : Nat
  nlen : Nat
  nonce : Bytes
  key : Option KeyRec
  opcode : Nat
  nextStep : Nat := 1
  aad : Bytes := []
  acc : Bytes := []
  total : Nat := 0
  busy : Bool := false
  deriving DecidableEq, Repr

/-- A teller page's own fields (Table 8.15); the operation in progress holds what it bound. -/
structure Teller where
  st : Nat := 0
  pair : Nat := 0
  code : Nat := 0
  detail : Nat := 0
  outLen : Nat := 0
  count : W32 := 0
  result : Bytes := []
  dout : Bytes := []
  bnd : Option Bound := none
  waiting : Bool := false
  draws : Bool := false
  arrival : Nat := 0
  entry : Bytes := []
  input : Bytes := []
  deriving DecidableEq, Repr

/-- A slice's mailboxes (R283): the tenant's message to the manager, the manager's to the tenant,
and the manager's own TX words and length for this slice (R286). -/
structure Mailbox where
  outFull : Bool := false
  outMsg : Bytes := []
  outLen : Nat := 0
  inFull : Bool := false
  inMsg : Bytes := []
  inLen : Nat := 0
  txWords : NMap W32 := []
  txLen : Nat := 0
  sent : W32 := 0
  recv : W32 := 0
  deriving DecidableEq, Repr

/-- A slice (chapter 12). `burst` is the BURST in force at the ring pointer, `bursts` the one that each ring has had in force
since the pointer last reached it (R78), 1 where it has not. -/
structure Slice where
  st : SliceState := .free
  pasid : Option Nat := none
  alloc : Alloc := {}
  featMask : Nat := 0
  digest : Bytes := []
  weight : Nat := 1
  credit : Nat := 0
  ringPtr : Nat := 0
  run : Nat := 0
  burst : Nat := 1
  bursts : NMap Nat := []
  rings : NMap Ring := []
  stray : Nat := 0
  malformed : Nat := 0
  featAcc : List W32 := [0, 0, 0, 0]
  featOk : Bool := false
  featRes : Nat := 0
  featCause : Nat := 0
  offer : W32 := 1
  streams : NMap Stream := []
  tellers : List Teller := [{}, {}]
  mbox : Mailbox := {}
  createSeq : Nat := 0
  deriving DecidableEq, Repr

/-- A claim challenge that is live for a slice (R275). -/
structure ClaimChal where
  slice : Nat
  nonce : Bytes
  tEnd : Nat
  tStart : Nat
  deriving DecidableEq, Repr

/-- The outcome registers of a manager command interface (Tables 12.9, 13.x, 15.x, 17.x, 18.x): STATE, CODE, DETAIL, INFO. -/
structure CmdRegs where
  st : Nat := 0
  code : Nat := 0
  detail : Nat := 0
  info : Nat := 0
  deriving DecidableEq, Repr

/-- SLM page 0's own state (Table 12.9). -/
structure Slm where
  cmd : CmdRegs := {}
  target : Nat := 0
  chals : List ClaimChal := []
  nonce : Bytes := []
  chalEnd : Nat := 0
  erased : Nat := 0
  deriving DecidableEq, Repr

end Sys2Proof.Machine
end

