-- ==== Sys2Proof/Machine/Parts/Rng.lean ====
section
/-! DEFINITION. The random number service's state (chapter 9). -/
namespace Sys2Proof.Machine
open Sys2Proof

/-- Source states (Table 9.3). -/
inductive SrcState where
  | off | startup | active | retry | benched | recal | retired
  deriving DecidableEq, Repr

/-- The code of a source state (Table 9.3). -/
def SrcState.code : SrcState → Nat
  | .off => 0 | .startup => 1 | .active => 2 | .retry => 3 | .benched => 4 | .recal => 5 | .retired => 6

/-- Whether a source counts as benched (Table 9.3). -/
def SrcState.counts : SrcState → Bool
  | .startup | .benched | .recal | .retired => true
  | .off | .active | .retry => false

/-- A noise source: Table 9.7's selected fields, the end of its bench, the repetition count in hand (Table 9.2). -/
structure Source where
  st : SrcState := .off
  retries : Nat := 0
  failtest : Nat := 0
  trim : Nat := 8
  consec : Nat := 0
  discard : Nat := 0
  benchCnt : Nat := 0
  benchEnd : Nat := 0
  repBit : Bool := false
  repRun : Nat := 0
  deriving DecidableEq, Repr

/-- DRBG instance states (Table 9.7). -/
inductive InstState where
  | uninst | testing | running | stopped | fault
  deriving DecidableEq, Repr

/-- The code of an instance state (Table 9.7). -/
def InstState.code : InstState → Nat
  | .uninst => 0 | .testing => 1 | .running => 2 | .stopped => 3 | .fault => 4

/-- A CTR_DRBG instance (R196): state, requests since its last reseed, reseeds, Key and V. -/
structure Inst where
  st : InstState := .uninst
  count : Nat := 0
  reseeds : W32 := 0
  key : Bytes := []
  v : Bytes := []
  deriving DecidableEq, Repr

/-- RNG_STATE.ES (R205). -/
inductive EsState where
  | starting | healthy | failed
  deriving DecidableEq, Repr

/-- The code RNG_STATE.ES reads (Table 9.7). -/
def EsState.code : EsState → Nat
  | .starting => 0 | .healthy => 1 | .failed => 2

/-- What the unit does itself once its own generate request is served (R198): a CHALLENGE of a slice, a debug challenge, a
step of AUTH at a port with the exchange it belongs to, the rosters a head signs. -/
inductive OwnDraw where
  | challenge (slice : Nat) | debug | auth (port : Nat) (inside : Bool) | link (port : Fin 4) (a : AuthMsg)
  | rekey (port : Fin 4) (a : AuthMsg) | rosters
  deriving DecidableEq, Repr

/-- The random number service. `condFailed`: the conditioner failed its last known-answer test; `waiters`: the jobs whose
request to an internal instance waits for a pool word, `draws` the unit's own work that does (R195, R198). -/
structure Rng where
  es : EsState := .starting
  soscKhz : Nat := 0
  soscErr : Bool := false
  src : List Source := List.replicate 8 {}
  inst : List Inst := List.replicate 8 {}
  pool : List Bytes := []
  limit : Nat := 65536
  katRes : Nat := 0
  katPart : Nat := 15
  katTick : Nat := 0
  nextCycle : Nat := 0
  condFailed : Bool := false
  condRetest : Nat := 0
  hostOct : Nat := 0
  intStopNoted : Bool := false
  startFailed : Bool := false
  startRetry : Nat := 0
  waiters : List Nat := []
  draws : List OwnDraw := []
  deriving DecidableEq, Repr

end Sys2Proof.Machine
end

