-- ==== Sys2Proof/Machine/Parts/Engines.lean ====
section
/-! DEFINITION. Tiles, bench mode, loaded curves, record-layout descriptors, warm tables, the BULK item queue (chapters 5 to 7). -/
namespace Sys2Proof.Machine
open Sys2Proof

/-- A tile (R134): bench registers (Table 6.6), operand memory as a sparse map of 40-bit words (0 where none is
listed), the modulus in force with the L of its SETMOD, jobs completed, microcode version. -/
structure Tile where
  bench : Bool := false
  busy : Bool := false
  done : Bool := false
  err : Nat := 0
  cmp : Nat := 0
  modulus : Option (Nat × Nat) := none
  op : Nat := 0
  l : Nat := 0
  a : Nat := 0
  b : Nat := 0
  d : Nat := 0
  addr : Nat := 0
  dataLo : W32 := 0
  waves : Nat := 0
  jobs : W32 := 0
  mem : NMap (BitVec 40) := []
  result : Option (List (BitVec 40)) := none
  deriving DecidableEq, Repr

/-- A loaded curve in its pool slot (R120, R129): invisible once unloaded, freed when its last user ends. -/
structure Curve where
  slice : Nat
  id : Nat
  block : Bytes
  digest : Bytes
  visible : Bool := false
  deriving DecidableEq, Repr

/-- A record-layout descriptor in its slot (R147, R150). -/
structure Rld where
  slice : Nat
  id : Nat
  body : Bytes
  digest : Bytes
  visible : Bool := true
  deriving DecidableEq, Repr

/-- A bound item whose chain has already ended (R154): it runs to its end on its tile, and its result is discarded. -/
structure Stray where
  job : Nat
  item : Nat
  tile : Fin 96
  slice : Nat
  alg : Nat
  pset : Nat
  deriving DecidableEq, Repr

/-- The engines' shared state. Curves and RLDs are keyed by pool slot. `sharePos` is the place in the pattern of 16
of R82; `itemQueue` holds (job, item) pairs in order of entry (R80). -/
structure Engines where
  tiles : NMap Tile := []
  curves : NMap Curve := []
  rlds : NMap Rld := []
  itemQueue : List (Nat × Nat) := []
  sharePos : Nat := 0
  strays : List Stray := []
  keccakBad : List Nat := []
  deriving DecidableEq, Repr

end Sys2Proof.Machine
end

