-- ==== Sys2Proof/Machine/Parts/Power.lean ====
section
/-! DEFINITION. The weather ladder, resets and supplies (chapters 17 and 20). -/
namespace Sys2Proof.Machine
open Sys2Proof

/-- Ladder states (Table 17.1). -/
inductive Ladder where
  | gale | breeze | lull | calm | fog | frost
  deriving DecidableEq, Repr

/-- The code of a ladder state (Table 17.1). -/
def Ladder.code : Ladder → Nat
  | .gale => 0 | .breeze => 1 | .lull => 2 | .calm => 3 | .fog => 4 | .frost => 5

/-- Reset classes (Table 17.4). -/
inductive ResetClass where
  | powerOn | system | watchdog | tamper | lifeCycle | powerFail | frostExit
  deriving DecidableEq, Repr

/-- The code of a reset class (Table 17.4). -/
def ResetClass.code : ResetClass → Nat
  | .powerOn => 0 | .system => 1 | .watchdog => 2 | .tamper => 3 | .lifeCycle => 4 | .powerFail => 5 | .frostExit => 6

/-- The power block (Table 17.5), what a command in progress drains for, D-state, the supplies and the island. -/
structure Power where
  ladder : Ladder := .gale
  exiting : Bool := false
  idleTick : Nat := 0
  wake : Nat := 0
  reset : ResetClass := .powerOn
  cmd : CmdRegs := {}
  deep : Option Ladder := none
  abortedByDrain : Nat := 0
  leaseDeny : Nat := 0
  pfwCnt : Nat := 0
  unwarned : Nat := 0
  d3 : Bool := false
  pfwLow : Bool := false
  pfwRiseSeen : Bool := false
  coreSupply : Bool := true
  vaon : Bool := true
  resumeDigest : List Bytes := []
  resetCause : Nat := 0
  startStep : Nat := 0
  trainRetry : Nat := 0
  configUp : Bool := false
  deriving DecidableEq, Repr

end Sys2Proof.Machine
end

