-- ==== Sys2Proof/Machine/Parts/System.lean ====
section
/-! DEFINITION. Cluster, Zentulink ports, MPUs, memory, cores, life cycle, tamper, servicing, JTAG (chapters 13 to 15, 18, 20). -/
namespace Sys2Proof.Machine
open Sys2Proof

/-- CLU_ROLE.ROLE (R288). -/
inductive Role where
  | standalone | head | member
  deriving DecidableEq, Repr

/-- The code CLU_ROLE.ROLE reads (Table 13.8). -/
def Role.code : Role → Nat
  | .standalone => 0 | .head => 1 | .member => 2

/-- Member states (Table 13.5). -/
inductive MemberState where
  | vacant | joining | syncing | serving | quarantined | lost | leaving
  deriving DecidableEq, Repr

/-- The code of a member state (Table 13.5). -/
def MemberState.code : MemberState → Nat
  | .vacant => 0 | .joining => 1 | .syncing => 2 | .serving => 3 | .quarantined => 4 | .lost => 5 | .leaving => 6

/-- A member as the head shows it (Table 13.8), with what its last heartbeat reported: `engines` its tiles, `pairs`, `quads`,
its own entropy source, its UP links; `window` is where its liveness window begins (R301); `repl` is the UID of the unit that takes a leaving member's ID (REPLACE), `ver` the
roster version it has taken. -/
structure Member where
  st : MemberState := .vacant
  uid : Bytes := []
  hops : Nat := 0
  port : Nat := 0
  engines : Nat := 0
  lastHb : Nat := 0
  window : Nat := 0
  pairs : Nat := 0
  quads : Nat := 0
  esHealthy : Bool := false
  links : BitVec 4 := 0
  ver : Nat := 0
  joinEnd : Nat := 0
  repl : Bytes := []
  deriving DecidableEq, Repr

/-- A reserved INV range of one replica (R304): the values from `next` to `last`. -/
structure InvRange where
  member : Nat
  next : Nat
  last : Nat
  deriving DecidableEq, Repr

/-- A replica that this unit holds as a member (R304, R306): material, the INV ranges reserved for it that it has not spent,
lowest first; whether it has asked for the next one; whether the key's counter has none left. -/
structure Replica where
  alg : Nat
  pset : Nat
  home : Nat
  resident : Bool := false
  material : Bytes
  ranges : List (Nat × Nat) := []
  asked : Bool := false
  ended : Bool := false
  deriving DecidableEq, Repr

/-- The approval that a head forwards to the units that join by it (R299): the request, its KIND 4 challenge, the group 0
record shown and the token entries counted. -/
structure Proof where
  request : Bytes := []
  challenge : Bytes := []
  groupRec : Bytes := []
  tokens : List Bytes := []
  deriving DecidableEq, Repr

/-- The cluster block (Table 13.8) and what the Vault keeps of it: replication masks and versions, replicas
(key, member), replication rights by (key, UID), transfer keys by member; `newIds` and `goneIds` are the members an EXECUTE
waits for, `owed` the (member, handle) erasures that could not be sent, `proof` the approval of the last request; `held` is
what a member holds, by handle, and `replVer` on a member the versions it has applied; `rxPart` what has come of a payload whose
last frame is still to come, by origin and type (256 times the origin, plus the type); `table` its forwarding table by destination, `leaving` the roster version that put it out
while jobs of its head still run. -/
structure Cluster where
  role : Role := .standalone
  id : Nat := 0
  topo : Nat := 0
  rosterVer : Nat := 0
  headUid : Bytes := []
  members : NMap Member := []
  hb : Nat := 8
  replMask : NMap Nat := []
  replVer : NMap Nat := []
  replicas : List (Nat × Nat) := []
  rights : List (Nat × Bytes) := []
  ranges : List (Nat × InvRange) := []
  transfer : NMap Bytes := []
  cmd : CmdRegs := {}
  action : Nat := 0
  jobsLost : Nat := 0
  jobsRetried : Nat := 0
  late : Nat := 0
  headHb : Nat := 0
  headLost : Bool := false
  newIds : List Nat := []
  goneIds : List Nat := []
  held : NMap Replica := []
  owed : List (Nat × Nat) := []
  proof : Proof := {}
  table : NMap Nat := []
  leaving : Option Nat := none
  rxPart : NMap Bytes := []
  deriving DecidableEq, Repr

/-- Zentulink link states (Table 13.9). -/
inductive LinkState where
  | down | training | auth | up | rekey | failed
  deriving DecidableEq, Repr

/-- The code ZL_LINK.STATE reads (Table 13.9). -/
def LinkState.code : LinkState → Nat
  | .down => 0 | .training => 1 | .auth => 2 | .up => 3 | .rekey => 4 | .failed => 5

/-- A Zentulink port (Table 13.9), with the keys of its two directions, this unit's ephemeral key of the exchange under way,
and the frames of the sending epoch by CTR (R293, R294). -/
structure Zl where
  st : LinkState := .down
  width : Nat := 0
  peer : Nat := 0
  rostered : Bool := false
  peerUid : Bytes := []
  epoch : Nat := 0
  rxEpoch : Nat := 0
  txCtr : Nat := 0
  rxCtr : Nat := 0
  authFail : Nat := 0
  consec : Nat := 0
  retry : Nat := 0
  down : Nat := 0
  keyTick : Nat := 0
  retryAt : Nat := 0
  txKey : Bytes := []
  rxKey : Bytes := []
  ephK : Nat := 0
  ephPub : Bytes := []
  sent : NMap (Bytes × Bytes) := []
  deriving DecidableEq, Repr

/-- One MPU entry (Table 14.7): pages BASE to LIMIT as full 48-bit addresses, permissions, levels, lock. -/
structure MpuEntry where
  base : Nat := 0
  limit : Nat := 0
  r : Bool := false
  w : Bool := false
  x : Bool := false
  keyIdAny : Bool := false
  levels : Nat := 0
  lock : Bool := false
  valid : Bool := false
  deriving DecidableEq, Repr

/-- One MPU (Table 14.7): entries in force, held halves, sync, the first denial. -/
structure Mpu where
  ent : NMap MpuEntry := []
  heldBase : NMap Nat := []
  heldLimit : NMap Nat := []
  pending : Bool := false
  denyCnt : Nat := 0
  denyAddr : Nat := 0
  denyValid : Bool := false
  denyWrite : Bool := false
  denyCause : Nat := 0
  denyLevel : Nat := 0
  deriving DecidableEq, Repr

/-- A page-ownership-table entry (R319). -/
structure PotEntry where
  owner : Nat := 0
  slice : Nat := 0
  keyId : Nat := 0
  deriving DecidableEq, Repr

/-- A 64-octet line as device memory stores it (R334): ciphertext, tag, check code. -/
structure DramLine where
  cipher : Bytes
  tag : Bytes
  check : Bytes
  old : Bool := false
  deriving DecidableEq, Repr

/-- The MEM block (Table 14.9), the poison list, which KeyIDs are keyed, the reserve; of the POT what changed since the
start: entries by page number, and KeyIDs moved (R414), oldest first; the octets that the key sets were drawn from, those of
a start and, by KeyID, later ones; the lines that an access wrote, by line number; the staging pages that slices hold, as runs
of the pool in rising order: first page, how many, slice (R320). -/
structure MemCtl where
  keyIdMode : Bool := false
  locked : Bool := false
  ch0 : Nat := 0
  ch1 : Nat := 0
  act : List Nat := []
  ce : Nat := 0
  tagFail : Nat := 0
  poison : List Nat := []
  poisonPages : List Nat := []
  retired : Nat := 0
  retiredNoted : Bool := false
  potDeny : Nat := 0
  lastFail : Nat := 0
  lastFailKey : Nat := 0
  retireCnt : Nat := 0
  pot : NMap PotEntry := []
  moves : List (Nat × Nat) := []
  reserve : List Nat := []
  keyDraw : Bytes := []
  rekeyed : NMap Bytes := []
  lines : NMap DramLine := []
  staging : List (Nat × Nat × Nat) := []
  deriving DecidableEq, Repr

/-- A control core (Table 14.10): running, in servicing since a tick, halted under a debug grant, partitions, stops, the image
it runs. -/
structure Core where
  running : Bool := false
  servicing : Bool := false
  svcTick : Nat := 0
  halted : Bool := false
  parts : Nat := 0
  faults : Nat := 0
  fwVer : Nat := 0
  compat : Nat := 0
  deriving DecidableEq, Repr

/-- One flash copy of an image class (R406, R408). -/
structure Image where
  ver : Nat := 0
  compat : Nat := 0
  arb : Nat := 0
  digest : Bytes := []
  deriving DecidableEq, Repr

/-- The servicing interface of one image class: the copy in use, the spare copy, whether they differ, whether the copy in use
is the staged one (R413), the counter. -/
structure ImageClass where
  sel : Image := {}
  spare : Image := {}
  pending : Bool := false
  taken : Bool := false
  arb : Nat := 0
  deriving DecidableEq, Repr

/-- The service registers' state (Table 18.1) and the microcode each tile and lane pair runs (version, COMPAT). -/
structure Service where
  cmd : CmdRegs := {}
  classes : List ImageClass := [{}, {}, {}, {}]
  rotKey : Nat := 0
  rotNew : Nat := 0
  rotBusy : Bool := false
  rotPtr : Nat := 0
  rotPage : Nat := 0
  tileVer : NMap Nat := []
  laneVer : NMap Nat := []
  cores : NMap Core := []
  wdogMs : Nat := 100
  wdogCnt : Nat := 0
  started : List Bytes := []
  deriving DecidableEq, Repr

/-- A life-cycle record's cells (R348): CODE and NCODE bits burned, COMMIT cells burned. -/
structure LcRec where
  code : Nat := 0
  ncode : Nat := 0
  commit : Nat := 0
  deriving DecidableEq, Repr

/-- A debug grant that is open or staged (R357, R358). -/
structure Grant where
  scope : Nat
  duration : Nat
  rangeBase : Nat
  rangeLast : Nat
  rangeAcc : Nat
  rangeKey : Nat
  keyDigest : Bytes
  tOpen : Nat := 0
  deriving DecidableEq, Repr

/-- Owner configuration (Table 15.7) with the fields the unit uses. -/
structure OwnerCfg where
  version : Nat := 0
  mem : Nat := 0
  tmpLock : Bool := false
  wdogMs : Nat := 100
  reseedLimit : Nat := 65536
  tmpResp : Nat := 0
  tmpEn : Nat := 0
  meshPeriod : Nat := 1
  swPol : Nat := 0
  swDebounce : Nat := 1
  deriving DecidableEq, Repr

/-- Life cycle and debug (chapter 15); `staged`: the header of a transition that is carried out, with its SHA3-256 (Table
15.6, step 2). -/
structure LifeCycle where
  recs : NMap LcRec := []
  pending : Bool := false
  forced : Bool := false
  cmd : CmdRegs := {}
  staged : Option Bytes := none
  ownerDigest : Bytes := []
  cfg : OwnerCfg := {}
  cfgNext : Option OwnerCfg := none
  groupNext : Option Group := none
  grant : Option Grant := none
  grantStaged : Option Grant := none
  nonce : Bytes := []
  nonceStart : Nat := 0
  nonceEnd : Nat := 0
  nonceLive : Bool := false
  otpGone : Bool := false
  deriving DecidableEq, Repr

/-- The tamper island (Tables 15.10 and 15.13); `resetMark`: the next start's TAMPER_RESET reads 1 (Table 15.11). -/
structure Tamper where
  evt : W32 := 0
  resp : W32 := 0
  en : W32 := 0
  mesh : Nat := 1
  swPol : Nat := 0
  swDebounce : Nat := 1
  battEnd : Option Nat := none
  vcap : Nat := 0
  vbat : Nat := 0
  vbatLow : Bool := false
  tj : Int := 0
  cnt : Nat := 0
  lastTick : Nat := 0
  last : Nat := 0
  lastResp : Nat := 0
  eraseFail : Bool := false
  stormMark : Bool := false
  resetMark : Bool := false
  outLow : Bool := false
  readySince : Bool := false
  deriving DecidableEq, Repr

/-- The island's SMBus slave and the test access port (R434, R437). -/
structure Island where
  smbAlert : Bool := false
  cause : Nat := 0
  jtagIr : Nat := 0x01
  bscan : Bytes := []
  bsDrive : Bytes := []
  jtagHold : Bool := false
  floats : Bool := false
  deriving DecidableEq, Repr

end Sys2Proof.Machine
end

