-- ==== Sys2Proof/Machine/State.lean ====
section
/-! DEFINITION. The whole state of an LZ-940, its faults and refusals, and the machine right after reset. -/
namespace Sys2Proof.Machine
open Sys2Proof

/-- GLB_STATE.RUN (Table 2.5). -/
inductive RunState where
  | starting | ready | degraded | halted
  deriving DecidableEq, Repr

/-- The code GLB_STATE.RUN reads (Table 2.5). -/
def RunState.code : RunState → Nat
  | .starting => 0 | .ready => 1 | .degraded => 2 | .halted => 0xF

/-- The GLB page's own fields (Table 2.5, R43). -/
structure Glb where
  run : RunState := .starting
  stateLost : Bool := false
  tamperReset : Bool := false
  wdogReset : Bool := false
  badacc : Bool := false
  badaccCnt : Nat := 0
  badaccNoted : Bool := false
  optime : Nat := 0
  pcc : Nat := 0
  accepted : List W32 := [0, 0, 0, 0]
  committed : Bool := false
  featRes : Nat := 0
  featCause : Nat := 0
  deriving DecidableEq, Repr

/-- The machine. `hdr` is keyed by page, `regs`, `wideHeld` and `latch` by register; what is not listed holds its reset
value. `out` is what the unit has sent to the world outside it, oldest first; `freeN` numbers the free values drawn. -/
structure State where
  glb : Glb := {}
  hdr : NMap Hdr := []
  regs : NMap W32 := []
  wideHeld : NMap W32 := []
  latch : NMap W32 := []
  msix : NMap MsixEntry := []
  pci : Pci := {}
  led : Ledger := {}
  vault : Vault := {}
  ks : KeyStore := {}
  cus : Custody := {}
  slices : NMap Slice := []
  slm : Slm := {}
  jobs : List Job := []
  fetches : List Fetch := []
  qsc : Qsc := {}
  baro : Baro := {}
  eng : Engines := {}
  rng : Rng := {}
  pwr : Power := {}
  clu : Cluster := {}
  zl : NMap Zl := []
  mpu : NMap Mpu := []
  mem : MemCtl := {}
  svc : Service := {}
  lcs : LifeCycle := {}
  tmp : Tamper := {}
  isl : Island := {}
  held : List Instr := []
  out : List Out := []
  freeN : Nat := 0
  pending : List Instr := []
  deriving DecidableEq, Repr

/-- Why the machine stops. The manual names no condition under which the part itself stops without a next state, so no
meaning raises the one constructor: it stands for none. -/
inductive Fault where
  /-- Raised by no meaning. Safe: it could only stop a run. -/
  | none
  deriving DecidableEq, Repr

/-- Why a command has no meaning. -/
inductive Refusal where
  /-- Raised by a dispatch arm whose command has no meaning yet. Safe: the run stops there. -/
  | notModelled (mnemonic : String)
  deriving DecidableEq, Repr

/-- The machine right after reset: every field at the value its structure's default states, which is the spec's reset
value where the spec gives one and the log's where it gives none; RUN reads STARTING until a start completes (R40). -/
def State.reset : State := {}

end Sys2Proof.Machine
end

