-- ==== Sys2Proof/Machine/Ops.lean ====
section
/-! DEFINITION. Operations every family uses: free values, pages and headers, events and messages, refusals, registers. -/
namespace Sys2Proof.Machine
open Sys2Proof

/-! ### Free values and output -/

/-- `n` octets that nothing constrains, and the state that will not draw them again. -/
def State.free (s : State) (n : Nat) : Bytes × State :=
  ((List.range n).map (Config.freeByte s.freeN), { s with freeN := s.freeN + 1 })

/-- The unit's UID as 16 octets, GLB_UID3 down to GLB_UID0 (R39). -/
def uidBytes : Bytes := (List.range 16).map Config.uid

/-- What leaves the unit, after everything that left before it. -/
def State.emit (s : State) (o : Out) : State := { s with out := s.out ++ [o] }

/-- Whether nothing may be written to the host any more: PFW_N has fallen (R400), or the core is unpowered. -/
def State.mute (s : State) : Bool := s.pwr.pfwLow || !s.pwr.coreSupply

/-- OPTIME now (R6). -/
def State.tick (s : State) : Nat := s.glb.optime

/-- The debug grant that is open now: over [T_OPEN, T_OPEN + DURATION) (R6, R358). -/
def State.grantNow (s : State) : Option Grant := s.lcs.grant.filter fun g => g.tOpen ≤ s.tick && s.tick < g.tOpen + g.duration

/-- Whether a held grant has met its end, whose closing has yet to be recorded (R359). -/
def State.grantOver (s : State) : Bool :=
  match s.lcs.grant with
  | some g => g.tOpen + g.duration ≤ s.tick
  | none => false

/-! ### Pages -/

/-- The page's number in the model's one register space: control-window pages by offset / 0x1000 (Table 2.3), slice
pages from 0x1000 on, four a slice (R28). -/
def pageKey : Page → Nat
  | .glb => 0 | .baro => 1 | .pwr => 2 | .rng => 3 | .lcs => 4 | .tmp => 5 | .ldg => 6 | .mem => 7 | .clu => 8
  | .zl n => 9 + n.val
  | .qsc => 0x10
  | .slm n => 0x20 + n.val
  | .pkt n => 0x100 + n.val
  | .scl n => 0x200 + n.val
  | .core n => 0x300 + n.val
  | .mpu n => 0x310 + n.val
  | .kst => 0x400 | .cus => 0x410
  | .slc s => 0x1000 + 4 * s.val
  | .mbx s => 0x1000 + 4 * s.val + 1
  | .tel s k => 0x1000 + 4 * s.val + 2 + k.val

/-- The page at a control-window page number (Table 2.3). -/
def controlPage (n : Nat) : Option Page :=
  match n with
  | 0 => some .glb | 1 => some .baro | 2 => some .pwr | 3 => some .rng | 4 => some .lcs | 5 => some .tmp
  | 6 => some .ldg | 7 => some .mem | 8 => some .clu | 0x10 => some .qsc | 0x400 => some .kst | 0x410 => some .cus
  | _ =>
    if h : n - 9 < 4 then if 9 ≤ n then some (.zl ⟨n - 9, h⟩) else none
    else if h : n - 0x20 < 16 then if 0x20 ≤ n then some (.slm ⟨n - 0x20, h⟩) else none
    else if h : n - 0x100 < 96 then if 0x100 ≤ n then some (.pkt ⟨n - 0x100, h⟩) else none
    else if h : n - 0x200 < 128 then if 0x200 ≤ n then some (.scl ⟨n - 0x200, h⟩) else none
    else if h : n - 0x300 < 16 then if 0x300 ≤ n then some (.core ⟨n - 0x300, h⟩) else none
    else if h : n - 0x310 < 53 then if 0x310 ≤ n then some (.mpu ⟨n - 0x310, h⟩) else none
    else none

/-- The page at a slice-window page number, four pages a slice (R28). -/
def slicePage (n : Nat) : Option Page :=
  if h : n / 4 < 4096 then
    match n % 4 with
    | 0 => some (.slc ⟨n / 4, h⟩)
    | 1 => some (.mbx ⟨n / 4, h⟩)
    | 2 => some (.tel ⟨n / 4, h⟩ 0)
    | _ => some (.tel ⟨n / 4, h⟩ 1)
  else none

/-- The slice whose part of the slice window holds the page, if any. -/
def pageSlice : Page → Option Nat
  | .slc s | .mbx s | .tel s _ => some s.val
  | _ => none

/-- Slice 0 has no mailbox: every write to its mailbox page is refused (R283). -/
def noWrites : Page → Bool
  | .mbx s => s.val = 0
  | _ => false

/-- Whether a page honours PG_CTRL (Table 2.3). -/
def honoursCtrl : Page → Bool
  | .zl _ | .pkt _ | .scl _ => true
  | _ => false

/-- PG_ID.BLOCK of a page (Table 2.3, R30). -/
def pageBlock : Page → Nat
  | .glb => 1 | .baro => 2 | .pwr => 3 | .rng => 4 | .lcs => 5 | .tmp => 6 | .ldg => 7 | .mem => 8 | .clu => 9
  | .zl _ => 0xA | .qsc => 0xB | .slm _ => 0xC | .pkt _ => 0x10 | .scl _ => 0x11 | .core _ => 0x12 | .mpu _ => 0x13
  | .kst => 0x14 | .cus => 0x15 | .slc _ => 0x20 | .mbx _ => 0x21 | .tel _ _ => 0x22

/-- PG_ID.INST of a page (Table 2.3, R30). -/
def pageInst : Page → Nat
  | .zl n => n.val | .slm n => n.val | .pkt n => n.val | .scl n => n.val | .core n => n.val | .mpu n => n.val
  | .slc s | .mbx s | .tel s _ => s.val
  | _ => 0

/-- A page's header. -/
def State.hd (s : State) (p : Page) : Hdr := NMap.getD s.hdr (pageKey p) {}

/-- A tile's record. -/
def State.tile (s : State) (n : Nat) : Tile := NMap.getD s.eng.tiles n {}

/-- Whether a tile could serve as the anchor: powered, not in FAULT, not in bench mode. -/
def State.anchorable (s : State) (t : Fin 96) : Bool :=
  (s.hd (.pkt t)).st != .off && (s.hd (.pkt t)).st != .fault && !(s.tile t.val).bench

/-- The anchor tile (R323): the lowest-numbered one that reads neither OFF nor FAULT and is not in bench mode. -/
def State.anchorTile (s : State) : Option Nat :=
  (List.range 96).find? fun t => if h : t < 96 then s.anchorable ⟨t, h⟩ else false

/-- Whether a lane's page reads neither OFF nor FAULT. -/
def State.laneAlive (s : State) (n : Nat) : Bool :=
  if h : n < 128 then (s.hd (.scl ⟨n, h⟩)).st != .off && (s.hd (.scl ⟨n, h⟩)).st != .fault else false

/-- The anchor pair (R323). -/
def State.anchorPair (s : State) : Option Nat := (List.range 64).find? fun p => s.laneAlive (2 * p) && s.laneAlive (2 * p + 1)

/-- Whether a lane of the anchor pair reads SERVICING: archive wrapping waits for it (R323, R409). -/
def State.anchorPairAway (s : State) : Bool :=
  match s.anchorPair with
  | some p => [2 * p, 2 * p + 1].any fun n => if h : n < 128 then (s.hd (.scl ⟨n, h⟩)).st = .servicing else false
  | none => false

/-- The state with a page's header replaced. -/
def State.setHd (s : State) (p : Page) (h : Hdr) : State := { s with hdr := NMap.set s.hdr (pageKey p) h }

/-- A slice's record, FREE where none is listed. -/
def State.slice (s : State) (n : Nat) : Slice := NMap.getD s.slices n {}

/-- The state with a slice's record replaced. -/
def State.setSlice (s : State) (n : Nat) (v : Slice) : State := { s with slices := NMap.set s.slices n v }

/-- Whether a slice's part of the windows is occupied (Table 12.1). -/
def sliceOpen (v : Slice) : Bool := v.st = .active || v.st = .held

/-! ### Life-cycle state -/

/-- Whether a life-cycle record is committed (R348). -/
def recCommitted (r : LcRec) : Bool := r.code = 15 - r.ncode && 2 ≤ r.commit

/-- The life-cycle state's code: CODE of the highest committed record, BLANK with none (R348). -/
def State.lcsCode (s : State) : Nat :=
  match (s.lcs.recs.filter fun p => recCommitted p.2).getLast? with
  | some p => p.2.code
  | none => 0

/-- Whether a page answers at all: while RUN reads STARTING only GLB (R40, R403); in SCRAP only GLB and LCS (R347);
a slice's pages only while its part is occupied (R28, R264). A unit HALTED because no image verifies never reached
step 10, so only GLB answers. -/
def State.pageAnswers (s : State) (p : Page) : Bool :=
  match s.glb.run with
  | .starting => p = .glb
  | .halted => p = .glb || (p = .lcs && s.lcsCode = 7)
  | _ => match pageSlice p with
    | some n => sliceOpen (s.slice n)
    | none => true

/-! ### Interrupts (R34, R70) -/

/-- One MSI-X message on a table entry: sent, or left pending while the entry is masked (R70). -/
def State.sendMsix (s : State) (vec : Nat) : State :=
  if s.mute then s
  else
    let e := NMap.getD s.msix vec {}
    if e.mask then { s with msix := NMap.set s.msix vec { e with pend := true } }
    else s.emit (.msix vec e.addr e.data)

/-- The MSI-X table entry of a slice's local vector: slice 0 holds entries 0 to 15 (R265, Table 12.2). -/
def State.vectorOf (s : State) (slice loc : Nat) : Option Nat :=
  if slice = 0 then (if loc < 16 then some loc else none)
  else
    let a := (s.slice slice).alloc
    if loc < a.vecCount then some (a.vecBase + loc) else none

/-- One message on a slice's local vector, if the slice holds it. -/
def State.signal (s : State) (slice loc : Nat) : State :=
  match s.vectorOf slice loc with
  | some v => s.sendMsix v
  | none => s

/-- The slice whose local vector 0 a page's events signal on: the manager's for control-window pages (R34). -/
def pageOwner (p : Page) : Nat := (pageSlice p).getD 0

/-- Whether device feature `b` of Table 2.6 is accepted. -/
def State.devFeat (s : State) (b : Nat) : Bool := (s.glb.accepted.getD 0 0).getLsbD b

/-- PG_INT_EN as it reads: LEDGER_IRQ alone decides bit 16 of the LDG page (R380). -/
def State.intEnOf (s : State) (p : Page) : W32 :=
  let en := (s.hd p).intEn
  if p = .ldg then (en &&& 0xFFFEFFFF) ||| (if s.devFeat 4 then 0x10000 else 0) else en

/-- An event sets a bit of PG_INT_STAT; a bit that changes from 0 to 1 while enabled sends one message (R34). -/
def State.raise (s : State) (p : Page) (b : Nat) : State :=
  let h := s.hd p
  if h.intStat.getLsbD b then s
  else
    let s1 := s.setHd p { h with intStat := h.intStat ||| BitVec.ofNat 32 (2 ^ b) }
    if (s.intEnOf p).getLsbD b then s1.signal (pageOwner p) 0 else s1

/-- A refused write: PG_ERR takes the code, and the detail while FAULT_DETAIL is accepted; ERR is raised (R35). -/
def State.refuse (s : State) (p : Page) (code detail : Nat) : State :=
  let h := s.hd p
  (s.setHd p { h with errCode := code, errDetail := if s.devFeat 5 then detail else 0 }).raise p 1

/-- PG_STAT.STATE and FCLASS take new values; a change of STATE raises STATE_CHG (Table 2.4). -/
def State.setSt (s : State) (p : Page) (st : BlockState) (fc : Nat) : State :=
  let h := s.hd p
  let s1 := s.setHd p { h with st := st, fclass := fc }
  if h.st = st then s1 else s1.raise p 0

/-- PG_GEN counts one acknowledged write that changed an RW or RWL field (R37). -/
def State.bumpGen (s : State) (p : Page) : State :=
  let h := s.hd p
  s.setHd p { h with gen := h.gen + 1 }

/-! ### The register file -/

/-- A register of the file: bits writable always (RW), bits writable until PG_LOCK (RWL), the reset value, and whether
it is the low or high half of a wide pair (R9, R38). -/
structure RegD where
  rw : Nat := 0
  rwl : Nat := 0
  rst : Nat := 0
  lo : Bool := false
  hi : Bool := false
  deriving DecidableEq, Repr

/-- The plain registers of each page: those a host write changes and that no other rule gives a store of its own. -/
def regDesc (p : Page) (off : Nat) : Option RegD :=
  let full := 0xFFFFFFFF
  match p with
  | .glb => if 0x080 ≤ off && off ≤ 0x08C then some { rw := full } else none
  | .baro => match off with
    | 0x04C => some { rw := 0xFFFF }
    | 0x058 => some { rwl := 0x03FF03FF, rst := 0x03840258 }
    | 0x05C => some { rwl := 0xFF7F }
    | _ => none
  | .pwr => match off with
    | 0x044 => some { rw := 0xFFFFFF03, rst := 0x00400A01 }
    | 0x04C => some { rw := 0x3FFF, rst := 0x64 }
    | 0x050 => some { rw := 0x3FFFF, rst := 0x10000 }
    | 0x054 => some { rw := full, lo := true }
    | 0x058 => some { rw := 0xFFFF, hi := true }
    | _ => none
  | .rng => if off = 0x044 || off = 0x060 then some { rw := 7 } else none
  | .lcs => match off with
    | 0x04C => some { rw := full }
    | 0x050 => some { rw := 0xFFFFFFF8, lo := true }
    | 0x054 => some { rw := full, hi := true }
    | 0x058 => some { rw := 0x7FFF }
    | _ => none
  | .ldg => if off = 0x060 then some { rw := 0x10000, rwl := 0x7FF, rst := 0x40 } else none
  | .mem => if off = 0x068 then some { rw := 0x3FFFFFFF } else none
  | .clu => match off with
    | 0x060 => some { rw := 0x3F }
    | 0x080 => some { rwl := 0x7F, rst := 8 }
    | 0x084 => some { rw := 0xFF }
    | 0x09C => some { rw := full }
    | 0x0A0 => some { rw := 0xFFFFFFF8, lo := true }
    | 0x0A4 => some { rw := full, hi := true }
    | 0x0A8 => some { rw := 0x7FF }
    | _ => none
  | .zl _ => if off = 0x074 then some { rwl := 0x1F } else none
  | .qsc => match off with
    | 0x040 => some { rw := 0xFFF }
    | 0x054 => some { rw := 0xF, rst := 8 }
    | 0x078 => some { rw := 0xFFFF }
    | 0x100 => some { rw := 0xFFFFF }
    | _ => none
  | .slm n =>
    if n.val = 0 then match off with
      | 0x044 => some { rw := 0xFFF }
      | 0x048 => some { rw := 0xFFFFFFF8, lo := true }
      | 0x04C => some { rw := full, hi := true }
      | 0x050 => some { rw := 0x3FFF }
      | _ => none
    else if n.val = 1 && off = 0x040 then some { rw := 0xFFF } else none
  | .core n =>
    if n.val = 0 then match off with
      | 0x104 => some { rw := 0x33F }
      | 0x108 => some { rw := 0xFFFFFFF8, lo := true }
      | 0x10C => some { rw := full, hi := true }
      | 0x110 => some { rw := 0xFFFFFF }
      | _ => none
    else none
  | .kst => match off with
    | 0x060 => some { rw := 0xF }
    | 0x068 => some { rw := 0xF }
    | 0x074 => some { rw := 0xFFF }
    | 0x080 => some { rwl := 0xFF01, rst := 0x3201 }
    | _ => none
  | .cus => if off = 0x040 then some { rw := 0xFF } else none
  | .slc _ =>
    if 0x050 ≤ off && off ≤ 0x05C then some { rw := full }
    else if off = 0x100 then some { rw := 0x3FFF } else none
  | .mbx _ =>
    if off = 0x044 then some { rw := 0x7F }
    else if 0x080 ≤ off && off ≤ 0x0BC then some { rw := full } else none
  | .tel _ _ =>
    if off = 0x04C then some { rw := 0x1FFFF }
    else if off = 0x050 then some { rw := full, lo := true }
    else if off = 0x054 then some { rw := full, hi := true }
    else if off = 0x058 || off = 0x05C then some { rw := 0x1FF }
    else if 0x080 ≤ off && off ≤ 0x0B4 then some { rw := full }
    else if 0x100 ≤ off && off ≤ 0x1FC then some { rw := full } else none
  | _ => none

/-- The key of a register in the file. -/
def regKey (p : Page) (off : Nat) : Nat := pageKey p * 0x1000 + off

/-- A plain register's reset value. -/
def regReset (p : Page) (off : Nat) : W32 :=
  match regDesc p off with
  | some d => BitVec.ofNat 32 d.rst
  | none => 0

/-- A plain register's value. -/
def State.rg (s : State) (p : Page) (off : Nat) : W32 := NMap.getD s.regs (regKey p off) (regReset p off)

/-- A plain register takes a value (no entry is kept for the reset value). -/
def State.setRg (s : State) (p : Page) (off : Nat) (v : W32) : State :=
  { s with regs := if v = regReset p off then NMap.del s.regs (regKey p off) else NMap.set s.regs (regKey p off) v }

/-- A wide pair's value: the high half, then the low (R11). -/
def State.rgWide (s : State) (p : Page) (off : Nat) : Nat := (s.rg p (off + 4)).toNat * 2 ^ 32 + (s.rg p off).toNat

/-- The words of `n` registers from `off`, as octets, each word's octet 0 in bits [7:0]. -/
def State.rgBytes (s : State) (p : Page) (off n : Nat) : Bytes :=
  ((List.range n).map fun i => toLE 4 (s.rg p (off + 4 * i)).toNat).flatten

/-- Device accepted word `i` and slice accepted word `i` as bits: whether slice feature `b` is accepted (R281). -/
def Slice.feat (v : Slice) (b : Nat) : Bool := v.featOk && (v.featAcc.getD 0 0).getLsbD b

/-- Whether an engine is a key-store worker, two to a secure core, whose core is halted under a debug grant (R314, R356). -/
def State.coreHeld (s : State) (g : Engine) : Bool :=
  match g with
  | .worker w => (NMap.getD s.svc.cores (w.val / 2) {}).halted
  | _ => false

/-- Whether RUN reads READY or DEGRADED. -/
def State.running (s : State) : Bool := s.glb.run = .ready || s.glb.run = .degraded

/-- Compaction goes on for one tick of an idle unit (R241): its pointer, in units of the segment, moves up. -/
def State.compTick (s : State) : State :=
  if s.ks.compBusy && !s.ks.compWait && s.running then
    { s with ks := { s.ks with compPtr := Nat.min (2 ^ 20 - 1) (s.ks.compPtr + (Config.compRate s.tick).toNat) } }
  else s

end Sys2Proof.Machine
end

