-- ==== Sys2Proof/Machine/CryptoCipher.lean ====
section
/-! DEFINITION. The ciphers of Table 8.1 (FIPS 197, SP 800-38A to 38F, RFC 8439) and CTR_DRBG of SP 800-90A (R196). -/
namespace Sys2Proof

/-! ### AES (FIPS 197) -/

/-- The S-box, entry `i` in bits [8i+7:8i]. -/
def aesS : Nat := 0x16bb54b00f2d99416842e6bf0d89a18cdf2855cee9871e9b948ed9691198f8e19e1dc186b95735610ef6034866b53e708a8bbd4b1f74dde8c6b4a61c2e2578ba08ae7a65eaf4566ca94ed58d6d37c8e779e4959162acd3c25c2406490a3a32e0db0b5ede14b8ee4688902a22dc4f816073195d643d7ea7c41744975fec130ccdd2f3ff1021dab6bcf5389d928f40a351a89f3c507f02f94585334d43fbaaefd0cf584c4a39becb6a5bb1fc20ed00d153842fe329b3d63b52a05a6e1b1a2c830975b227ebe28012079a059618c323c7041531d871f1e5a534ccf73f362693fdb7c072a49cafa2d4adf04759fa7dc982ca76abd7fe2b670130c56f6bf27b777c63
/-- The inverse S-box, packed alike. -/
def aesSi : Nat := 0x7d0c2155631469e126d677ba7e042b17619953833cbbebc8b0f52aae4d3be0a0ef9cc9939f7ae52d0d4ab519a97f51605fec8027591012b131c7078833a8dd1ff45acd78fec0db9a2079d2c64b3e56fc1bbe18aa0e62b76f89c5291d711af1476edf751ce837f9e28535ade72274ac9673e6b4f0cecff297eadc674f4111913a6b8a130103bdafc1020f3fca8f1e2cd00645b3b80558e4f70ad3bc8c00abd890849d8da75746155edab9edfd5048706c92b6655dcc5ca4d41698688664f6f87225d18b6d49a25b76b224d92866a12e084ec3fa420b954cee3d23c2a632947b54cbe9dec444438e3487ff2f9b8239e37cfbd7f3819ea340bf38a53630d56a0952

/-- One octet of a packed table. -/
def packed (t : Nat) (x : Byte) : Byte := BitVec.ofNat 8 (t >>> (8 * x.toNat))

/-- Multiplication by x in the AES field. -/
def xtime (b : Byte) : Byte := (b <<< 1) ^^^ (if b.msb then 0x1B else 0)

/-- Multiplication by a small constant in the AES field. -/
def gmul (c : Nat) (b : Byte) : Byte :=
  let b2 := xtime b
  let b4 := xtime b2
  let b8 := xtime b4
  (if bit c 0 then b else 0) ^^^ (if bit c 1 then b2 else 0) ^^^ (if bit c 2 then b4 else 0) ^^^ (if bit c 3 then b8 else 0)

/-- The words of the key schedule, newest first, `n` more from word `i` on. -/
def aesWords (nk : Nat) : Nat → Nat → Byte → List Bytes → List Bytes
  | 0, _, _, acc => acc
  | n + 1, i, rc, acc =>
    let prev := acc.headD []
    let old := (acc[nk - 1]?).getD []
    let t :=
      if i % nk = 0 then xorBytes ((prev.drop 1 ++ prev.take 1).map (packed aesS)) [rc, 0, 0, 0]
      else if 6 < nk && i % nk = 4 then prev.map (packed aesS) else prev
    aesWords nk n (i + 1) (if i % nk = 0 then xtime rc else rc) (xorBytes old t :: acc)

/-- The round keys of an AES key of 16, 24 or 32 octets. -/
def aesKeys (key : Bytes) : List Bytes :=
  let nk := key.length / 4
  chunks 16 (aesWords nk (4 * (nk + 7) - nk) nk 1 (chunks 4 key).reverse).reverse.flatten

/-- ShiftRows, or its inverse with step 12. -/
def shiftRows (step : Nat) (b : Bytes) : Bytes := (List.range 16).map fun i => b.getD ((i + step * (i % 4)) % 16) 0

/-- MixColumns under a row of coefficients. -/
def mixCols (co : List Nat) (b : Bytes) : Bytes :=
  ((chunks 4 b).map fun c => (List.range 4).map fun r =>
    (List.range 4).foldl (fun a k => a ^^^ gmul (co.getD ((k + 4 - r) % 4) 0) (c.getD k 0)) 0).flatten

/-- One AES block encrypted under round keys. -/
def aesEncK (ks : List Bytes) (blk : Bytes) : Bytes :=
  let mid := (ks.drop 1).dropLast
  let st := mid.foldl (fun s k => xorBytes (mixCols [2, 3, 1, 1] (shiftRows 4 (s.map (packed aesS)))) k) (xorBytes blk (ks.headD []))
  xorBytes (shiftRows 4 (st.map (packed aesS))) (ks.getLastD [])

/-- One AES block decrypted under round keys. -/
def aesDecK (ks : List Bytes) (blk : Bytes) : Bytes :=
  let mid := ((ks.drop 1).dropLast).reverse
  let st := mid.foldl (fun s k => mixCols [14, 11, 13, 9] (xorBytes ((shiftRows 12 s).map (packed aesSi)) k)) (xorBytes blk (ks.getLastD []))
  xorBytes ((shiftRows 12 st).map (packed aesSi)) (ks.headD [])

/-- AES encryption of one block. -/
def aesEnc (key blk : Bytes) : Bytes := aesEncK (aesKeys key) blk
/-- AES decryption of one block. -/
def aesDec (key blk : Bytes) : Bytes := aesDecK (aesKeys key) blk

/-! ### Modes -/

/-- A counter block plus `i` in its low 32 bits. -/
def ctrPlus (c : Bytes) (i : Nat) : Bytes := c.take 12 ++ toBE 4 (beNat (c.drop 12) + i)

/-- AES-CTR keystream work over a string from counter block `c` (SP 800-38A). -/
def aesCtr (key c data : Bytes) : Bytes :=
  let ks := aesKeys key
  ((chunks 16 data).mapIdx fun i b => xorBytes b (aesEncK ks (ctrPlus c i))).flatten

/-- AES-CBC encryption (SP 800-38A). -/
def cbcEnc (key iv data : Bytes) : Bytes :=
  let ks := aesKeys key
  ((chunks 16 data).foldl (fun a b => let c := aesEncK ks (xorBytes b a.1)
                                      (c, c :: a.2)) (iv, ([] : List Bytes))).2.reverse.flatten

/-- AES-CBC decryption. -/
def cbcDec (key iv data : Bytes) : Bytes :=
  let ks := aesKeys key
  let bs := chunks 16 data
  (List.zipWith (fun b p => xorBytes (aesDecK ks b) p) bs (iv :: bs)).flatten

/-- Product in GCM's field of GF(2^128). -/
def ghMul (x y : BitVec 128) : BitVec 128 :=
  ((List.range 128).foldl (fun a i =>
    (if x.getMsbD i then a.1 ^^^ a.2 else a.1,
     if a.2.getLsbD 0 then (a.2 >>> 1) ^^^ (0xE1000000000000000000000000000000 : BitVec 128) else a.2 >>> 1)) ((0 : BitVec 128), y)).1

/-- GHASH over a string of whole blocks (SP 800-38D). -/
def ghash (h : BitVec 128) (m : Bytes) : BitVec 128 :=
  (chunks 16 m).foldl (fun a b => ghMul (a ^^^ BitVec.ofNat 128 (beNat b)) h) 0

/-- AES-GCM's ciphertext and full tag under a 12-octet nonce, or the inverse with `dec`. -/
def gcm (dec : Bool) (key nonce aad data : Bytes) : Bytes × Bytes :=
  let h := BitVec.ofNat 128 (beNat (aesEnc key (zeros 16)))
  let j0 := nonce ++ [0, 0, 0, 1]
  let out := aesCtr key (ctrPlus j0 1) data
  let c := if dec then data else out
  let s := ghash h (Bytes.padMul aad 16 ++ Bytes.padMul c 16 ++ toBE 8 (8 * aad.length) ++ toBE 8 (8 * c.length))
  (out, xorBytes (toBE 16 s.toNat) (aesEnc key j0))

/-- AES-CCM's ciphertext and tag of `t` octets (SP 800-38C), or the inverse with `dec`. -/
def ccm (dec : Bool) (t : Nat) (key nonce aad data : Bytes) : Bytes × Bytes :=
  let q := 15 - nonce.length
  let ctr := fun (i : Nat) => BitVec.ofNat 8 (q - 1) :: nonce ++ toBE q i
  let ks := aesKeys key
  let out := ((chunks 16 data).mapIdx fun i b => xorBytes b (aesEncK ks (ctr (i + 1)))).flatten
  let pt := if dec then out else data
  let b0 := BitVec.ofNat 8 ((if aad.isEmpty then 0 else 64) + (t - 2) / 2 * 8 + (q - 1)) :: nonce ++ toBE q pt.length
  let al := if aad.isEmpty then [] else if aad.length < 65280 then toBE 2 aad.length ++ aad else 0xFF :: 0xFE :: toBE 4 aad.length ++ aad
  let mac := (chunks 16 (b0 ++ Bytes.padMul al 16 ++ Bytes.padMul pt 16)).foldl (fun a b => aesEncK ks (xorBytes a b)) (zeros 16)
  (out, (xorBytes mac (aesEncK ks (ctr 0))).take t)

/-- The XTS tweak times x. -/
def xtsDouble (t : Bytes) : Bytes :=
  let v := leNat t
  let d := 2 * v % 2 ^ 128
  toLE 16 (if v < 2 ^ 127 then d else d ^^^ 0x87)

/-- The tweaks of a data unit's blocks, from the first. -/
def xtsTweaks : Nat → Bytes → List Bytes
  | 0, _ => []
  | n + 1, t => t :: xtsTweaks n (xtsDouble t)

/-- XTS-AES over one data unit, with ciphertext stealing (SP 800-38E, IEEE 1619). -/
def xtsUnit (dec : Bool) (key tweak data : Bytes) : Bytes :=
  let h := key.length / 2
  let ks := aesKeys (key.take h)
  let f := if dec then aesDecK ks else aesEncK ks
  let n := data.length / 16
  let r := data.length % 16
  let ts := xtsTweaks (n + 1) (aesEnc (key.drop h) tweak)
  let one := fun (t b : Bytes) => xorBytes (f (xorBytes b t)) t
  let bs := chunks 16 data
  if r = 0 then (List.zipWith one ts bs).flatten
  else
    let head := (List.zipWith one (ts.take (n - 1)) bs).flatten
    let ta := ts.getD (if dec then n else n - 1) []
    let tb := ts.getD (if dec then n - 1 else n) []
    let cc := one ta (bs.getD (n - 1) [])
    let last := bs.getD n []
    head ++ one tb (last ++ cc.drop r) ++ cc.take r

/-- XTS-AES over consecutive data units of `du` octets, the tweak of each one higher than the last. -/
def xts (dec : Bool) (du : Nat) (key tweak data : Bytes) : Bytes :=
  ((chunks du data).mapIdx fun i u => xtsUnit dec key (toLE 16 (leNat tweak + i)) u).flatten

/-- The wrapping function W of SP 800-38F over semiblocks. -/
def kwW (key : Bytes) (s : Bytes) : Bytes :=
  let ks := aesKeys key
  let rs := chunks 8 s
  let n := rs.length - 1
  let step := fun (st : Bytes × List Bytes) (t : Nat) =>
    let b := aesEncK ks (st.1 ++ st.2.headD [])
    (xorBytes (b.take 8) (toBE 8 t), st.2.drop 1 ++ [b.drop 8])
  let fin := ((List.range (6 * n)).map (· + 1)).foldl step (rs.headD [], rs.drop 1)
  fin.1 ++ fin.2.flatten

/-- The inverse of W. -/
def kwWinv (key : Bytes) (s : Bytes) : Bytes :=
  let ks := aesKeys key
  let rs := chunks 8 s
  let n := rs.length - 1
  let step := fun (st : Bytes × List Bytes) (t : Nat) =>
    let b := aesDecK ks (xorBytes st.1 (toBE 8 t) ++ st.2.getLastD [])
    (b.take 8, b.drop 8 :: st.2.dropLast)
  let fin := ((List.range (6 * n)).map (· + 1)).reverse.foldl step (rs.headD [], rs.drop 1)
  fin.1 ++ fin.2.flatten

/-- AES-KW wrap. -/
def kwWrap (key p : Bytes) : Bytes := kwW key (List.replicate 8 0xA6 ++ p)
/-- AES-KW unwrap; `none` where the integrity check fails. -/
def kwUnwrap (key c : Bytes) : Option Bytes :=
  let s := kwWinv key c
  if s.take 8 = List.replicate 8 0xA6 then some (s.drop 8) else none

/-- AES-KWP wrap. -/
def kwpWrap (key p : Bytes) : Bytes :=
  let s := [0xA6, 0x59, 0x59, 0xA6] ++ toBE 4 p.length ++ Bytes.padMul p 8
  if p.length ≤ 8 then aesEnc key s else kwW key s

/-- AES-KWP unwrap; `none` where the integrity check fails. -/
def kwpUnwrap (key c : Bytes) : Option Bytes :=
  let s := if c.length = 16 then aesDec key c else kwWinv key c
  let n := beNat (Bytes.sub s 4 4)
  let d := s.drop 8
  if s.take 4 = [0xA6, 0x59, 0x59, 0xA6] && n ≤ d.length && d.length < n + 8 && (d.drop n).all (· = 0) then some (d.take n)
  else none

/-- Doubling in CMAC's subkey derivation (SP 800-38B). -/
def cmacDouble (b : Bytes) : Bytes :=
  let v := beNat b
  toBE 16 ((2 * v % 2 ^ 128) ^^^ (if v < 2 ^ 127 then 0 else 0x87))

/-- AES-CMAC. -/
def cmac (key m : Bytes) : Bytes :=
  let ks := aesKeys key
  let k1 := cmacDouble (aesEncK ks (zeros 16))
  let n := Nat.max 1 ((m.length + 15) / 16)
  let last := m.drop (16 * (n - 1))
  let l := if last.length = 16 then xorBytes last k1 else xorBytes (Bytes.fit (last ++ [0x80]) 16) (cmacDouble k1)
  aesEncK ks (xorBytes ((chunks 16 (m.take (16 * (n - 1)))).foldl (fun a b => aesEncK ks (xorBytes a b)) (zeros 16)) l)

/-! ### ChaCha20 and Poly1305 (RFC 8439) -/

/-- A quarter round on words a, b, c, d of the state. -/
def chachaQR (s : List W32) (i : Nat × Nat × Nat × Nat) : List W32 :=
  let (a, b, c, d) := i
  let g := fun (k : Nat) => s.getD k 0
  let a1 := g a + g b
  let d1 := (g d ^^^ a1).rotateLeft 16
  let c1 := g c + d1
  let b1 := (g b ^^^ c1).rotateLeft 12
  let a2 := a1 + b1
  let d2 := (d1 ^^^ a2).rotateLeft 8
  let c2 := c1 + d2
  let b2 := (b1 ^^^ c2).rotateLeft 7
  (((s.set a a2).set b b2).set c c2).set d d2

/-- One ChaCha20 block. -/
def chachaBlock (key nonce : Bytes) (ctr : Nat) : Bytes :=
  let w := fun (b : Bytes) => (chunks 4 b).map fun x => BitVec.ofNat 32 (leNat x)
  let s : List W32 := [0x61707865, 0x3320646e, 0x79622d32, 0x6b206574] ++ w key ++ [BitVec.ofNat 32 ctr] ++ w nonce
  let rnd := [(0, 4, 8, 12), (1, 5, 9, 13), (2, 6, 10, 14), (3, 7, 11, 15), (0, 5, 10, 15), (1, 6, 11, 12), (2, 7, 8, 13), (3, 4, 9, 14)]
  let e := (List.range 10).foldl (fun a _ => rnd.foldl chachaQR a) s
  ((List.zipWith (· + ·) e s).map fun x => toLE 4 x.toNat).flatten

/-- ChaCha20 over a string from a block counter. -/
def chacha20 (key nonce : Bytes) (ctr : Nat) (data : Bytes) : Bytes :=
  ((chunks 64 data).mapIdx fun i b => xorBytes b (chachaBlock key nonce (ctr + i))).flatten

/-- Poly1305. -/
def poly1305 (key m : Bytes) : Bytes :=
  let p := 2 ^ 130 - 5
  let r := leNat (key.take 16) &&& 0x0ffffffc0ffffffc0ffffffc0fffffff
  toLE 16 ((chunks 16 m).foldl (fun a b => (a + leNat b + 2 ^ (8 * b.length)) * r % p) 0 + leNat (key.drop 16))

/-- ChaCha20-Poly1305's ciphertext and tag, or the inverse with `dec`. -/
def ccp (dec : Bool) (key nonce aad data : Bytes) : Bytes × Bytes :=
  let out := chacha20 key nonce 1 data
  let c := if dec then data else out
  (out, poly1305 ((chachaBlock key nonce 0).take 32)
    (Bytes.padMul aad 16 ++ Bytes.padMul c 16 ++ toLE 8 aad.length ++ toLE 8 c.length))

/-! ### CTR_DRBG with AES-256 and the derivation function (SP 800-90A) -/

/-- BCC over whole blocks. -/
def bcc (ks : List Bytes) (m : Bytes) : Bytes := (chunks 16 m).foldl (fun a b => aesEncK ks (xorBytes a b)) (zeros 16)

/-- Block_Cipher_df to 48 octets. -/
def drbgDf (input : Bytes) : Bytes :=
  let s := Bytes.padMul (toBE 4 input.length ++ toBE 4 48 ++ input ++ [0x80]) 16
  let k0 := aesKeys ((List.range 32).map (BitVec.ofNat 8))
  let t := ((List.range 3).map fun i => bcc k0 (toBE 4 i ++ zeros 12 ++ s)).flatten
  let ks := aesKeys (t.take 32)
  let x1 := aesEncK ks (t.drop 32)
  let x2 := aesEncK ks x1
  x1 ++ x2 ++ aesEncK ks x2

/-- V plus `i`. -/
def vPlus (v : Bytes) (i : Nat) : Bytes := toBE 16 (beNat v + i)

/-- CTR_DRBG_Update of Key and V with 48 octets. -/
def drbgUpdate (key v data : Bytes) : Bytes × Bytes :=
  let ks := aesKeys key
  let t := xorBytes (((List.range 3).map fun i => aesEncK ks (vPlus v (i + 1))).flatten) data
  (t.take 32, t.drop 32)

/-- Instantiate: Key and V from entropy input, nonce and personalisation string. -/
def drbgInst (seed : Bytes) : Bytes × Bytes := drbgUpdate (zeros 32) (zeros 16) (drbgDf seed)

/-- Reseed with entropy input and additional input. -/
def drbgReseed (key v seed : Bytes) : Bytes × Bytes := drbgUpdate key v (drbgDf seed)

/-- Generate `n` octets with additional input: the octets, then Key and V after the request. -/
def drbgGen (key v : Bytes) (n : Nat) (add : Bytes) : Bytes × Bytes × Bytes :=
  let a := if add.isEmpty then zeros 48 else drbgDf add
  let kv := if add.isEmpty then (key, v) else drbgUpdate key v a
  let ks := aesKeys kv.1
  let m := (n + 15) / 16
  let out := ((List.range m).map fun i => aesEncK ks (vPlus kv.2 (i + 1))).flatten
  let kv2 := drbgUpdate kv.1 (vPlus kv.2 m) a
  (out.take n, kv2.1, kv2.2)

end Sys2Proof
end

