-- ==== Sys2Proof/Machine/RngCore.lean ====
section
/-! DEFINITION. DRBG instances and the entropy pool (R195 to R198), without the records and events of the service. -/
namespace Sys2Proof.Machine
open Sys2Proof

/-- An instance's record. -/
def State.inst (s : State) (n : Nat) : Inst := s.rng.inst.getD n {}

/-- The state with an instance replaced. -/
def State.setInst (s : State) (n : Nat) (i : Inst) : State := { s with rng := { s.rng with inst := s.rng.inst.set n i } }

/-- A pool word, and the state without it; a free word where the pool holds none. -/
def State.poolWord (s : State) : Bytes × State :=
  match s.rng.pool with
  | w :: t => (w, { s with rng := { s.rng with pool := t } })
  | [] => s.free 32

/-- Whether some internal DRBG instance runs (R381). -/
def State.internalRuns (s : State) : Bool := (s.rng.inst.take 4).any fun i => i.st = .running

/-- The RUNNING instance of a list with the lowest count, the lowest-numbered on a tie (R197, R200). -/
def State.pickInst (s : State) (l : List Nat) : Option Nat :=
  l.foldl (fun a i =>
    if (s.inst i).st = .running then
      match a with
      | some b => if (s.inst i).count < (s.inst b).count then some i else a
      | none => some i
    else a) none

/-- An instance reseeds from a pool word (Table 9.4). -/
def State.reseed (s : State) (n : Nat) : State :=
  let (w, s1) := s.poolWord
  let i := s1.inst n
  let kv := drbgReseed i.key i.v (w ++ toBE 6 s1.tick ++ toBE 4 i.reseeds.toNat)
  s1.setInst n { i with count := 0, reseeds := i.reseeds + 1, key := kv.1, v := kv.2 }

/-- An instance is uninstantiated: its state zeroised (Table 9.4). -/
def State.uninst (s : State) (n : Nat) (st : InstState) : State :=
  s.setInst n { s.inst n with st := st, count := 0, key := [], v := [] }

/-- Whether a request to an instance must first be reseeded for (R198): not while the source is FAILED (R206). -/
def State.mustReseed (s : State) (n : Nat) : Bool := s.rng.limit ≤ (s.inst n).count && s.rng.es != .failed

/-- Whether the next request to instances 0 to 3 waits for a pool word (R198). -/
def State.intBlocked (s : State) : Bool :=
  match s.pickInst [0, 1, 2, 3] with
  | some n => s.mustReseed n && s.rng.pool.isEmpty
  | none => false

/-- One generate request to an internal instance (R196 to R198): its 256 octets of values, with as many more for masks and
blinding as the engine takes. While the source is FAILED an instance whose count reaches LIMIT stops (R206). -/
def State.genInternal (s : State) (n : Nat) : Bytes × State :=
  let s1 := if s.mustReseed n then s.reseed n else s
  let i := s1.inst n
  let g := drbgGen i.key i.v (256 + Config.maskOctets s1.freeN) []
  let s2 := { s1 with freeN := s1.freeN + 1 }.setInst n { i with count := i.count + 1, key := g.2.1, v := g.2.2 }
  (g.1.take 256, if s2.rng.es = .failed && s2.rng.limit ≤ (s2.inst n).count then s2.uninst n .stopped else s2)

/-- Work of the unit's own joins those that wait for a pool word. -/
def State.drawWait (s : State) (d : OwnDraw) : State :=
  if s.rng.draws.contains d then s else { s with rng := { s.rng with draws := s.rng.draws ++ [d] } }

end Sys2Proof.Machine
end

