-- ==== Sys2Proof/Machine/LedgerOps.lean ====
section
/-! DEFINITION. Writing the Ledger (chapter 16): records, repeats, room by severity, checkpoints, the staging flush. -/
namespace Sys2Proof.Machine
open Sys2Proof

/-- Octets a record takes: header, CONTENT, LINK (R370). -/
def LedRec.size (r : LedRec) : Nat := 48 + r.content.length

/-- A record's header (Table 16.1); `bare` takes REPEAT, LAST_DELTA and EARLY as 0 (R371). -/
def LedRec.header (r : LedRec) (bare : Bool) : Bytes :=
  let fl := if bare then r.flags &&& 0xF7 else r.flags
  toLE 2 (r.content.length + 16) ++ toLE 2 r.typ ++ toLE 1 r.sev ++ toLE 1 fl ++ toLE 2 r.src ++ toLE 8 r.seq ++
    toLE 6 r.optime ++ toLE 2 (if bare then 0 else r.rep) ++ toLE 4 r.pcc ++ toLE 4 (if bare then 0 else r.lastDelta)

/-- The record digest D (R371). -/
def LedRec.dig (r : LedRec) : Bytes := sha3_256 (r.header true ++ sha3_256 r.content ++ r.link)

/-- A record in full, or as the 80-octet stub of R382. -/
def LedRec.octets (r : LedRec) (full : Bool) : Bytes :=
  r.header false ++ (if full then r.content else sha3_256 r.content) ++ r.link

/-- Whether an event with this key adds to the record at tick `t` (R373). -/
def LedRec.hits (r : LedRec) (typ sev src : Nat) (c : Bytes) (t : Nat) : Bool :=
  r.isOpen && t < r.winEnd && r.typ = typ && r.sev = sev && r.src = src && r.content.take 8 = c.take 8

/-- A record that closes by tick `t`: EARLY where its window had not ended by then (R374). -/
def LedRec.shut (r : LedRec) (t : Nat) : LedRec :=
  if r.isOpen then { r with isOpen := false, flags := if t < r.winEnd then r.flags ||| 8 else r.flags } else r

/-- Every open record closed at tick `t` (R374). -/
def shutAll (t : Nat) (l : List LedRec) : List LedRec := l.map fun r => r.shut t

/-- Octets in use at a place. -/
def ledUsed (l : List LedRec) (p : LedPlace) : Nat :=
  ((l.filter fun r => r.place = p).map LedRec.size).sum

/-- One more in a severity-indexed counter, saturating at 32 bits. -/
def bumpSev (l : List Nat) (sev : Nat) : List Nat := l.modify sev (satAdd 32 · 1)

/-- The oldest record at a place of strictly lower severity (R376). -/
def ledVictim (l : List LedRec) (p : LedPlace) (sev : Nat) : Option LedRec :=
  l.find? fun r => r.place = p && r.sev < sev

/-- Records overwritten until `need` octets fit (R376), and the severities that were; `none` where no room can be made. -/
def makeRoom (cap need sev : Nat) (p : LedPlace) : Nat → List LedRec → Option (List LedRec × List Nat)
  | 0, _ => none
  | f + 1, l =>
    if ledUsed l p + need ≤ cap then some (l, [])
    else match ledVictim l p sev with
      | none => none
      | some v => (makeRoom cap need sev p f (l.filter fun r => r.seq != v.seq)).map fun x => (x.1, v.sev :: x.2)

/-- A record is placed in the buffer, or in staging during a flush; with no room it is dropped (R376, R377). A record
overwritten in staging counts as overwritten, one lost in the buffer as dropped. -/
def Ledger.place (g : Ledger) (r : LedRec) : Ledger :=
  let p := if g.flushing then LedPlace.staging else LedPlace.buffer
  let cap := if g.flushing then 16384 else 262144
  match makeRoom cap r.size r.sev p (g.recs.length + 1) g.recs with
  | none => { g with drop := bumpSev g.drop r.sev }
  | some (l, vs) =>
    let g1 := { g with recs := l ++ [{ r with place := p }] }
    if g.flushing then { g1 with ovw := vs.foldl bumpSev g.ovw }
    else
      let g2 := { g1 with drop := vs.foldl bumpSev g.drop }
      if 196608 < ledUsed g2.recs .buffer then { g2 with recs := shutAll r.optime g2.recs } else g2

/-- A new record takes the next SEQ and its LINK (R371, R372, R379); CONTENT is at most 1,008 octets (R370). -/
def State.newRec (s : State) (typ sev src flags : Nat) (content : Bytes) (opn : Bool) : State :=
  let g := s.led
  let t := s.tick
  let flood := fld (s.rg .ldg 0x060) 0 11
  let c := Bytes.padMul (content.take 1008) 8
  let r : LedRec :=
    { typ := typ, sev := sev, flags := flags ||| (if g.chainRestart then 4 else 0), src := src,
      seq := g.nextSeq, optime := t, pcc := s.glb.pcc, content := c, link := Bytes.fit g.headD 16,
      winEnd := t + flood, isOpen := opn }
  { s with led := ({ g with nextSeq := g.nextSeq + 1, headD := r.dig, chainRestart := false } : Ledger).place r }

/-- A record of its own for an event, whatever is open. -/
def State.enterNew (s : State) (typ sev src : Nat) (content : Bytes) : State :=
  let s1 := s.newRec typ sev src 0 content true
  { s1 with led := { s1.led with sinceCp := s1.led.sinceCp + 1 } }

/-- An event in the Ledger without the checkpoint it may call for (R370 to R374): it adds to an open record of its key, or
takes a new one. -/
def State.enter (s : State) (typ sev src : Nat) (content : Bytes) : State :=
  let t := s.tick
  let c := Bytes.padMul content 8
  if s.led.recs.any fun r => r.hits typ sev src c t then
    let again := fun (r : LedRec) =>
      if r.hits typ sev src c t then { r with rep := satAdd 16 r.rep 1, lastDelta := (t - r.optime) % 2 ^ 32 } else r
    { s with led := { s.led with recs := s.led.recs.map again } }
  else s.enterNew typ sev src c

/-- The generate request of a signature or memory key that the unit draws for itself (R100, R197, R380) and its octets, the
stop of the last internal instance recorded (R206); nothing where none runs or the request must wait. -/
def State.ownDraw (s : State) : Bytes × State :=
  match s.pickInst [0, 1, 2, 3] with
  | none => ([], s)
  | some n =>
    if s.intBlocked then ([], s)
    else
      let (out, s1) := s.genInternal n
      (out, if !s1.internalRuns && !s1.rng.intStopNoted then
          ({ s1 with rng := { s1.rng with intStopNoted := true } }).enter 0x0704 3 0 []
        else s1)

/-- That request where its octets do not show. -/
def State.cpDraw (s : State) : State := s.ownDraw.2

/-- Whether a draw of the unit's own is served now: an internal instance runs and its reseed has a pool word (R198, R381). -/
def State.drawReady (s : State) : Bool := s.internalRuns && !s.intBlocked

/-- A message signed with the device-identity key (ECDSA P-384, SHA-384) under a draw of its per-message secret. -/
def devSigned (draw msg : Bytes) : Bytes :=
  let sig := (ecdsaSign p384 Config.deviceKey (sha384 msg) draw).getD (0, 0)
  toBE 48 sig.1 ++ toBE 48 sig.2

/-- That signature with its draw, from a request of instances 0 to 3. -/
def State.devSign (s : State) (msg : Bytes) : Bytes × State :=
  let (x, s1) := s.ownDraw
  (devSigned x msg, s1)

/-- Whether the device-identity root is usable: in OWNED to REPAIR and STOCK (R345, Table 15.1). -/
def State.identityUsable (s : State) : Bool := 2 ≤ s.lcsCode && s.lcsCode ≤ 5

/-- Whether the anchor tile reads SERVICING: the unit's own signature waits for it (R409). -/
def State.anchorAway (s : State) : Bool :=
  match s.anchorTile with
  | some t => if h : t < 96 then (s.hd (.pkt ⟨t, h⟩)).st = .servicing else false
  | none => false

/-- Whether a checkpoint is issued now (R380, R381, R409): its draw is served, its tile is there. -/
def State.cpReady (s : State) : Bool := s.drawReady && !s.anchorAway

/-- A checkpoint's octets 0 to 111 (Table 16.4). -/
def State.cpBody (s : State) : Bytes :=
  let g := s.led
  toLE 8 (g.cpIndex + 1) ++ toLE 8 (match g.lastCpSeq with | some q => q + 1 | none => 0) ++ Bytes.fit g.headD 32 ++
    (g.ovw.map (toLE 4)).flatten ++ (g.drop.map (toLE 4)).flatten ++ uidBytes

/-- The header a checkpoint takes (Table 16.1). -/
def State.cpHeader (s : State) : Bytes :=
  ({ typ := 0x0101, sev := 2, flags := 1 + (if s.led.chainRestart then 4 else 0), src := 0, seq := s.led.nextSeq
     optime := s.tick, pcc := s.glb.pcc, content := zeros 216, link := [], winEnd := 0, isOpen := false } : LedRec).header true

/-- SIG of a checkpoint (Table 16.4): under the device-identity key over the header and octets 0 to 111; where that root is
not usable (R345) the manual gives no signature, and a free value stands there. `draw` gives its per-message secret. -/
def State.cpSign (s : State) (draw hdr body : Bytes) : Bytes × State :=
  if s.identityUsable then (devSigned draw (hdr ++ body), s) else s.free 96

/-- A checkpoint (R380): every open record closes, then the signed record, which follows what its own draw recorded (R206).
It is deferred while no internal instance runs (R381), and waits for a pool word (R198) and for the anchor tile (R409). -/
def State.checkpoint (s : State) : State :=
  if s.cpReady then
    let (x, s0) := s.ownDraw
    let body := s0.cpBody
    let (sig, s1) := s0.cpSign x s0.cpHeader body
    let s2 : State := { s1 with led := { s1.led with recs := shutAll s1.tick s1.led.recs } }
    let s3 := s2.newRec 0x0101 2 0 1 (body ++ sig ++ zeros 8) false
    let g3 : Ledger :=
      { s3.led with
        cpIndex := s.led.cpIndex + 1, lastCpSeq := some s2.led.nextSeq, sinceCp := 0, regionBad := false }
    ({ s3 with led := g3 }).raise .ldg 16
  else s

/-- A checkpoint that is overdue (R380); none is issued once a staging flush has begun, after which no engine works and no
message leaves (R322, R363, R400). -/
def State.cpDue (s : State) : State := if 4096 ≤ s.led.sinceCp && !s.led.flushing then s.checkpoint else s

/-- LDG_STAT.UNSIGNED (R381): no internal instance runs. -/
def State.unsigned (s : State) : Bool := !s.internalRuns

/-- An event recorded in the Ledger (R370 to R374), and the checkpoint that it may call for (R380). -/
def State.record (s : State) (typ sev src : Nat) (content : Bytes) : State := (s.enter typ sev src content).cpDue

/-- A TRACE record, written only with LDG_CFG.TRACE_EN (R386). -/
def State.traceRec (s : State) (typ src : Nat) (content : Bytes) : State :=
  if (s.rg .ldg 0x060).getLsbD 16 then s.record typ 0 src content else s

/-- The staging flush (R378): every open record closes, uncommitted records of NOTICE or above go to Vault staging in
SEQ order, those below are dropped; later records are appended to staging. -/
def State.stagingFlush (s : State) : State :=
  let g := s.led
  if g.flushing then s
  else
    let rs := shutAll s.tick g.recs
    let keep := rs.filter fun r => r.place != .buffer
    let unc := rs.filter fun r => r.place = .buffer
    let g0 : Ledger := { g with recs := keep, flushing := true }
    { s with led := unc.foldl (fun a r => if 2 ≤ r.sev then a.place r else { a with drop := bumpSev a.drop r.sev }) g0 }

/-- SRC of a slice's records (Table 16.3). -/
def srcSlice (n : Nat) : Nat := 0x1000 + n
/-- SRC of a tile's records. -/
def srcTile (n : Nat) : Nat := 0x2000 + n
/-- SRC of a lane pair's records. -/
def srcPair (n : Nat) : Nat := 0x3000 + n
/-- SRC of a core's records. -/
def srcCore (n : Nat) : Nat := 0x4000 + n
/-- SRC of a partition's records. -/
def srcPart (n : Nat) : Nat := 0x4100 + n
/-- SRC of an MPU master's records. -/
def srcMpu (n : Nat) : Nat := 0x5000 + n
/-- SRC of a noise source's records. -/
def srcSource (n : Nat) : Nat := 0x6000 + n
/-- SRC of a DRBG instance's records. -/
def srcInst (n : Nat) : Nat := 0x6010 + n
/-- SRC of a Zentulink port's records. -/
def srcPort (n : Nat) : Nat := 0x7000 + n
/-- SRC of a cluster member's records. -/
def srcMember (n : Nat) : Nat := 0x8000 + n
/-- SRC of a tamper sensor's records. -/
def srcSensor (n : Nat) : Nat := 0x9000 + n
/-- SRC of a power block's records. -/
def srcPower (n : Nat) : Nat := 0xA000 + n

end Sys2Proof.Machine
end

