-- ==== Sys2Proof/Machine/Flags.lean ====
section
/-! DEFINITION. Status codes (Table 19.1, R418) and the event bits of PG_INT_STAT that each page names. -/
namespace Sys2Proof.Machine
open Sys2Proof

/-! ### Status codes -/

/-- Entry completed as asked. -/
def cOK : Nat := 0x0000
/-- BAD_OPCODE. -/
def cBadOpcode : Nat := 0x0101
/-- BAD_VERSION. -/
def cBadVersion : Nat := 0x0102
/-- BAD_LENGTH. -/
def cBadLength : Nat := 0x0103
/-- RESERVED_NONZERO. -/
def cReserved : Nat := 0x0104
/-- BAD_HOST_ADDRESS. -/
def cBadAddr : Nat := 0x0105
/-- FEATURE_NOT_ACCEPTED. -/
def cFeature : Nat := 0x0106
/-- BAD_PARAM. -/
def cBadParam : Nat := 0x0107
/-- KEY_NOT_FOUND. -/
def cNotFound : Nat := 0x0201
/-- KEY_FOREIGN. -/
def cForeign : Nat := 0x0202
/-- KEY_USAGE. -/
def cUsage : Nat := 0x0203
/-- KEY_STALE. -/
def cStale : Nat := 0x0204
/-- KEY_EXHAUSTED. -/
def cExhausted : Nat := 0x0205
/-- QUORUM_REQUIRED. -/
def cQuorum : Nat := 0x0206
/-- DELETE_FILTER_FULL. -/
def cFilterFull : Nat := 0x0207
/-- KEY_RATE_LIMITED. -/
def cRate : Nat := 0x0208
/-- KEY_CAPACITY. -/
def cCapacity : Nat := 0x0209
/-- VERIFY_FAIL. -/
def cVerifyFail : Nat := 0x0301
/-- VERIFY_RANGE. -/
def cVerifyRange : Nat := 0x0302
/-- POINT_INVALID. -/
def cPoint : Nat := 0x0303
/-- AUTH_FAIL_DISTRUST. -/
def cAuthFail : Nat := 0x0304
/-- CHAIN_BREAK. -/
def cChainBreak : Nat := 0x0305
/-- BATCH_PARTIAL. -/
def cBatchPartial : Nat := 0x0306
/-- CURVE_REJECTED. -/
def cCurveRej : Nat := 0x0307
/-- RNG_NOT_READY. -/
def cRngNotReady : Nat := 0x0401
/-- ENTROPY_FAILED. -/
def cEntropy : Nat := 0x0402
/-- ENGINE_MISMATCH. -/
def cMismatch : Nat := 0x0403
/-- ABORTED. -/
def cAborted : Nat := 0x0404
/-- TALLY_WRAP_REFUSED. -/
def cWrap : Nat := 0x0406
/-- MEMORY_INTEGRITY. -/
def cMemory : Nat := 0x0407
/-- STATE_FORBIDS. -/
def cForbids : Nat := 0x0501
/-- COUNTER_EXHAUSTED. -/
def cCounter : Nat := 0x0502
/-- WINDOW_CLOSED. -/
def cWindow : Nat := 0x0503
/-- LEASE_DENIED: in PG_ERR or a command result only (R418). -/
def cLease : Nat := 0x0504
/-- TRANSITION_PENDING: in PG_ERR or a command result only (R418). -/
def cPending : Nat := 0x0505
/-- MEMBER_LOST. -/
def cMemberLost : Nat := 0x0601
/-- REPLICA_STALE: Ledger content only (R418). -/
def cReplicaStale : Nat := 0x0602

/-- A completion that carries a code and a detail and nothing else. -/
def Completion.err (code detail : Nat) : Completion := { code := code, detail := detail }

end Sys2Proof.Machine
end

