-- ==== Sys2Proof/Machine/Operands.lean ====
section
/-! DEFINITION. The fields of a job entry (Table 3.1) and of its parameter block, each read once here. -/
namespace Sys2Proof.Machine
open Sys2Proof

/-- The entry's CTL word (Table 3.1). -/
def eCtl (e : Bytes) : Nat := Bytes.le e 0 4
/-- OWN. -/
def eOwn (e : Bytes) : Bool := bit (eCtl e) 0
/-- IRQ. -/
def eIrq (e : Bytes) : Bool := bit (eCtl e) 1
/-- FENCE. -/
def eFence (e : Bytes) : Bool := bit (eCtl e) 2
/-- FMT. -/
def eFmt (e : Bytes) : Nat := Bytes.at e 1
/-- OPCODE. -/
def eOp (e : Bytes) : Nat := Bytes.le e 2 2
/-- STATUS as fetched. -/
def eStatus (e : Bytes) : Nat := Bytes.le e 4 4
/-- KEY_A. -/
def eKeyA (e : Bytes) : Nat := Bytes.le e 0x10 8
/-- KEY_B. -/
def eKeyB (e : Bytes) : Nat := Bytes.le e 0x18 8
/-- IN_ADDR. -/
def eInAddr (e : Bytes) : Nat := Bytes.le e 0x20 8
/-- IN_LEN. -/
def eInLen (e : Bytes) : Nat := Bytes.le e 0x28 4
/-- OUT_LEN: the output capacity. -/
def eOutLen (e : Bytes) : Nat := Bytes.le e 0x2C 4
/-- OUT_ADDR. -/
def eOutAddr (e : Bytes) : Nat := Bytes.le e 0x30 8
/-- One octet of the entry by its offset. -/
def eB (e : Bytes) (off : Nat) : Nat := Bytes.at e off
/-- A 16-bit field of the entry. -/
def eH (e : Bytes) (off : Nat) : Nat := Bytes.le e off 2
/-- A 32-bit field of the entry. -/
def eW (e : Bytes) (off : Nat) : Nat := Bytes.le e off 4
/-- A 64-bit field of the entry. -/
def eD (e : Bytes) (off : Nat) : Nat := Bytes.le e off 8

/-- The completion word's eight octets (R54): OWN 0, the rest of CTL as fetched, STATUS. -/
def completionWord (e : Bytes) (code detail : Nat) : Bytes :=
  toLE 4 (eCtl e / 2 * 2) ++ toLE 2 code ++ toLE 2 detail

/-- Parts of a key handle (R214 as chapter 10 states it): SLICE [63:52], INDEX [51:28], GEN [27:8], CHECK [7:0]. -/
def hSlice (h : Nat) : Nat := h / 2 ^ 52 % 2 ^ 12
/-- INDEX of a handle. -/
def hIndex (h : Nat) : Nat := h / 2 ^ 28 % 2 ^ 24
/-- GEN of a handle. -/
def hGen (h : Nat) : Nat := h / 2 ^ 8 % 2 ^ 20
/-- CHECK of a handle. -/
def hCheck (h : Nat) : Nat := h % 2 ^ 8

end Sys2Proof.Machine
end

