-- ==== Sys2Proof/Machine/Results.lean ====
section
/-! DEFINITION. The RESULT block of each opcode (R47, Tables 5.10, 6.3, 7.4, 7.9, 8.9, 9.5, R229) for a job that ends
without its own result. -/
namespace Sys2Proof.Machine
open Sys2Proof

/-- TALLY_LEFT of a key (R224): uses left under its limit, 0xFFFF_FFFF without one. -/
def tallyLeft (k : KeyRec) : Nat := if k.tallyMax = 0 then 0xFFFFFFFF else k.tallyMax - k.tallyUsed

/-- KFLAGS (Table 10.6). -/
def kflags (k : KeyRec) : Nat :=
  b2n k.warm + 2 * b2n k.warmReady + 4 * b2n k.imported + 8 * b2n k.plainImport + 16 * b2n k.fromBlob + 32 * b2n k.tallied +
    64 * b2n k.restricted

/-- The attribute record (Table 10.6). -/
def attrRecord (k : KeyRec) : Bytes :=
  toLE 8 k.handle ++ toLE 1 k.ktype ++ toLE 1 k.alg ++ toLE 1 k.pset ++ toLE 1 k.persist ++ toLE 1 k.export_ ++
    toLE 1 (kflags k) ++ toLE 2 k.klen ++ toLE 4 k.usage ++ toLE 1 k.replSet ++ toLE 1 0 ++ toLE 2 k.custody ++
    toLE 4 k.tallyMax ++ toLE 4 k.tallyUsed ++ toLE 4 k.rateMax ++ toLE 4 k.ratePeriod ++ toLE 8 k.inv ++
    toLE 4 k.ivFixed ++ toLE 2 k.units ++ toLE 1 k.rev ++ toLE 1 k.curveId ++ Bytes.fit (k.curveDigest.take 8) 8

/-- RESULT of a key opcode (R229): the handle of a created key, units and flags of the key it is about, TALLY_LEFT. -/
def keyRes (handle : Nat) (k : KeyRec) (left : Nat) : Bytes :=
  toLE 8 handle ++ toLE 2 k.units ++ toLE 1 (kflags k) ++ toLE 1 0 ++ toLE 4 left

/-- The tile an engine names, 0xFF for none. -/
def tileOf : Option Bound → Nat
  | some b => match b.eng with | .tile n => n.val | .member _ => 0xFE | _ => 0xFF
  | none => 0xFF

/-- The count of lane pairs an engine names: a HASH on one lane counts 1 (R167). -/
def pairsOf : Option Bound → Nat
  | some b => match b.eng with | .pairs l => l.length | .lane _ => 1 | .member _ => b.pairs | _ => 0
  | none => 0

/-- The DRBG instance an engine names, 0xFF for none. -/
def instOf : Option Bound → Nat
  | some b => match b.eng with | .drbg n => n.val | _ => 0xFF
  | none => 0xFF

/-- Whether a PK entry takes its public key from the input (Table 5.8, RFLAGS.PUB_INLINE). -/
def pkInline (e : Bytes) : Bool :=
  match eOp e with
  | 0x0102 | 0x0105 | 0x0108 => eKeyA e = 0
  | 0x0104 => eKeyB e = 0
  | _ => false

/-- The PK result block (Table 5.10). -/
def pkResult (j : Job) (handle : Nat) (hashed : Bool) (iter left : Nat) : Bytes :=
  let fl := match j.bnd with
    | some b => b2n b.warm + 2 * b2n (pkInline j.entry) + 4 * b2n hashed
    | none => 0
  toLE 8 handle ++ toLE 1 (tileOf j.bnd) ++ toLE 1 fl ++ toLE 2 iter ++ toLE 4 left

/-- RESULT of BATCH_VERIFY (Table 7.4) from the items decided so far. -/
def batchResult (j : Job) : Bytes :=
  let pass := (j.items.filter fun i => i.out = some (0, 0)).length
  let bad := j.items.find? fun i => match i.out with | some (0, 0) => false | some _ => true | none => false
  toLE 4 pass ++ toLE 4 (match bad with | some i => i.idx | none => 0xFFFFFFFF) ++
    toLE 2 (j.items.filter fun i => i.warmRun).length ++ toLE 2 (j.items.filter fun i => i.retried).length ++ zeros 4

/-- Whether RESULT of an entry carries the nonce the unit formed (Table 8.9). -/
def nonceResult (e : Bytes) : Bool :=
  eOp e = 0x0301 || (eOp e = 0x0303 && eB e 0x39 = 0 && [0x21, 0x22, 0x26].contains (eB e 0x38))

/-- The NONCE that RESULT carries: 0 with IVSRC = 1 (Table 8.9). -/
def nonceOf (j : Job) : Bytes :=
  if bit (eB j.entry 0x3A) 0 then zeros 16 else Bytes.fit (match j.bnd with | some b => b.nonce | none => []) 16

/-- RFLAGS.HASHED and ITER of a PK job that is stopped once its engine had got as far as `released` says (Table 5.10): a
message may have been hashed, ML-DSA signing may have run some of its 1,024 iterations. -/
def pkDone (j : Job) : Bool × Nat :=
  let e := j.entry
  let msg := (eOp e = 0x0101 || eOp e = 0x0102) && bit (eB e 0x3B) 0
  (msg && j.released % 2 = 1, if (eOp e = 0x0101 || eOp e = 0x0103) && eB e 0x38 = 6 then Nat.min 1024 (j.released / 2) else 0)

/-- RESULT of a job that ends before its engine gives a result (R47): work done is what `released` says, 0 for a job that no
engine took; engines at "none" unless bound. `left` is TALLY_LEFT as R47 reads it. -/
def stopResult (j : Job) (left : Nat) : Bytes :=
  let e := j.entry
  if nonceResult e then nonceOf j else
  match eOp e with
  | 0x0101 | 0x0102 | 0x0103 | 0x0104 | 0x0105 | 0x0106 | 0x0107 | 0x0108 => pkResult j 0 (pkDone j).1 (pkDone j).2 left
  | 0x0202 => batchResult j
  | 0x0201 => toLE 4 0xFFFFFFFF ++ toLE 4 0xFFFFFFFF ++ zeros 8
  | 0x0302 => toLE 4 j.released ++ zeros 4 ++ toLE 1 (pairsOf j.bnd) ++ zeros 7
  | 0x0303 | 0x0401 | 0x0402 | 0x0403 => toLE 8 j.released ++ toLE 1 (pairsOf j.bnd) ++ zeros 7
  | 0x0404 => zeros 8 ++ toLE 1 (pairsOf j.bnd) ++ zeros 3 ++ toLE 4 left
  | 0x0502 | 0x0505 => (match j.bnd with
    | some b => (match b.keyA with | some k => keyRes 0 k left | none => zeros 12 ++ toLE 4 left)
    | none => zeros 12 ++ toLE 4 left)
  | 0x0501 | 0x0506 | 0x0509 => zeros 12 ++ toLE 4 left
  | 0x0601 => toLE 1 (instOf j.bnd) ++ zeros 15
  | _ => zeros 16

/-! ### Approvals and the retained records, as results name them -/

/-- An approval's identifier (R259). -/
def apprId (slot serial : Nat) : Nat := slot + 1024 * serial

/-- Whether an approval's window holds the present tick (R254). -/
def State.apprOpen (s : State) (a : Approval) : Bool := a.tStart ≤ s.tick && s.tick < a.tEnd

/-- The live approval of a slice under an identifier. -/
def State.approval (s : State) (sl ident : Nat) : Option Approval :=
  s.cus.approvals.find? fun a => a.slot = ident % 1024 && a.serial = ident / 1024 && a.slice = sl && s.apprOpen a

/-- A record put before the first one of a list whose SEQ is not below its own. -/
def seqInsert (r : LedRec) : List LedRec → List LedRec
  | [] => [r]
  | x :: l => if r.seq ≤ x.seq then r :: x :: l else x :: seqInsert r l

/-- The retained records in SEQ order. -/
def Ledger.retained (g : Ledger) : List LedRec := g.recs.foldr seqInsert []

/-- The oldest retained SEQ, the next one where none is retained. -/
def Ledger.oldest (g : Ledger) : Nat := match g.retained with | r :: _ => r.seq | [] => g.nextSeq

/-- Where a LEDGER_READ starts: at START_SEQ or the oldest retained record, the later of the two (R382). -/
def Ledger.readStart (g : Ledger) (e : Bytes) : Nat := if bit (eB e 0x44) 0 then g.oldest else Nat.max (eD e 0x38) g.oldest

/-- RFLAGS.GAP (R383): START_SEQ lay below the oldest retained record. -/
def Ledger.readGap (g : Ledger) (e : Bytes) : Bool := !bit (eB e 0x44) 0 && eD e 0x38 < g.oldest

/-- RESULT of a LEDGER_READ that gives no record (R47, R383). -/
def State.readNone (s : State) (e : Bytes) : Bytes :=
  toLE 8 (s.led.readStart e) ++ zeros 4 ++ toLE 1 (2 * b2n (s.led.readGap e) + 4 * b2n s.unsigned) ++ zeros 3

/-- RESULT of a submit that counts and rejects no token of its own (R47, R257): COUNTED and STATE of its approval while
that is live, else 0. -/
def State.submitNone (s : State) (j : Job) : Bytes :=
  match s.approval j.slice (eW j.entry 0x38) with
  | some a => toLE 2 a.counted ++ zeros 4 ++ toLE 1 (if a.granted then 2 else 1) ++ zeros 9
  | none => zeros 16

/-- RESULT of a NOP (R74): OPTIME and BARO_PACE. -/
def State.nopRes (s : State) : Bytes := toLE 6 s.glb.optime ++ toLE 2 s.baro.pace ++ zeros 8

end Sys2Proof.Machine
end

