-- ==== Sys2Proof/Machine/Gate.lean ====
section
/-! DEFINITION. How a request from the host meets the weather ladder (R392, R393), and what "idle" means (R390). -/
namespace Sys2Proof.Machine
open Sys2Proof

/-- The unit returns to Gale for a cause (R392), with its TRACE record (R386). -/
def State.toGale (s : State) (cause : Nat) : State :=
  let from_ := s.pwr.ladder.code
  let s1 : State := { s with pwr := { s.pwr with ladder := .gale, exiting := false, wake := cause } }
  if from_ = 0 then s1 else s1.traceRec 0x0D04 0 (toLE 1 from_ ++ toLE 1 0 ++ toLE 1 cause ++ zeros 5)

/-- Whether the unit sleeps in Lull, Calm or Fog, or is on its way out of one. -/
def State.asleep (s : State) : Bool :=
  match s.pwr.ladder with
  | .lull | .calm | .fog => true
  | _ => false

/-- A wake event: Breeze ends at once, a deeper state begins its exit (R392). -/
def State.wakeFor (s : State) (cause : Nat) : State :=
  match s.pwr.ladder with
  | .breeze => s.toGale cause
  | .lull | .calm | .fog =>
    if s.pwr.exiting then s else { s with pwr := { s.pwr with exiting := true, wake := cause } }
  | _ => s

/-- Whether the host can reach the function: powered, out of Frost. -/
def State.linked (s : State) : Bool := s.pwr.coreSupply && s.pwr.ladder != .frost

/-- A wake source of Frost: the exit begins, while VAON feeds the island. -/
def State.wakeFrost (s : State) (cause : Nat) : State :=
  if s.pwr.ladder = .frost && !s.pwr.exiting && s.pwr.vaon then { s with pwr := { s.pwr with exiting := true, wake := cause } } else s

/-- A tamper response wakes the unit in every state of the ladder (R392, R396). -/
def State.wakeTamper (s : State) : State := if s.linked then s.wakeFor 7 else s.wakeFrost 7

/-- An internal need of R390's list ends: the idle time before Lull and Calm counts anew from this tick. -/
def State.needEnds (s : State) : State := { s with pwr := { s.pwr with idleTick := s.tick } }

/-- A host request: held while the unit sleeps, to be served when the exit completes (R393); otherwise served now. -/
def State.hostReq (s : State) (c : Instr) (f : State → State) : State :=
  if !s.linked then s
  else if s.asleep then ({ s with held := s.held ++ [c] }).wakeFor 1
  else f (s.wakeFor 1)

/-- Whether a manager, cluster, life-cycle, power or servicing command runs. -/
def State.cmdBusy (s : State) : Bool :=
  s.slm.cmd.st = 1 || s.clu.cmd.st = 1 || s.lcs.cmd.st = 1 || s.pwr.cmd.st = 1

/-- Whether some teller context reads BUSY. -/
def State.tellerBusy (s : State) : Bool := s.slices.any fun p => p.2.tellers.any fun t => t.st = 1

/-- Idle (R390): no job queued or bound, no fetch in flight, no teller BUSY, no command running. -/
def State.idle (s : State) : Bool :=
  (s.jobs.all fun j => j.phase = .done) && s.fetches.isEmpty && !s.tellerBusy && !s.cmdBusy

end Sys2Proof.Machine
end

