-- ==== Sys2Proof/Machine/Frames.lean ====
section
/-! DEFINITION. Zentulink frames (R292 to R295): members and ports, sealing, sending, links that drop, a unit's own leaving. -/
namespace Sys2Proof.Machine
open Sys2Proof

/-! ### Members and ports -/

/-- A member's record. -/
def State.member (s : State) (n : Nat) : Member := NMap.getD s.clu.members n {}

/-- The state with a member's record replaced. -/
def State.setMember (s : State) (n : Nat) (m : Member) : State :=
  { s with clu := { s.clu with members := NMap.set s.clu.members n m } }

/-- A port's record. -/
def State.zlp (s : State) (p : Nat) : Zl := NMap.getD s.zl p {}

/-- The state with a port's record replaced. -/
def State.setZl (s : State) (p : Nat) (z : Zl) : State := { s with zl := NMap.set s.zl p z }

/-- Whether a link carries frames: UP, or rekeying under its old keys (R294). -/
def Zl.up (z : Zl) : Bool := z.st = .up || z.st = .rekey

/-- The IDs of the roster. -/
def State.rosterIds (s : State) : List Nat := s.clu.members.map Prod.fst

/-! ### Frames (R292) -/

/-- A frame's header (Table 13.2): octets 8 to 19, EPOCH and CTR big-endian, are the nonce. -/
def frameHdr (typ flags src dst len epoch ctr : Nat) : Bytes :=
  toLE 1 typ ++ toLE 1 flags ++ toLE 1 src ++ toLE 1 dst ++ toLE 2 len ++ zeros 2 ++ toBE 4 epoch ++ toBE 8 ctr

/-- A payload of a frame sealed: ciphertext, then tag, the header being the additional authenticated data. -/
def sealBody (key hdr payload : Bytes) : Bytes :=
  let c := gcm false key (hdr.drop 8) hdr payload
  c.1 ++ c.2

/-- A received frame's payload, or nothing where its tag fails or its LEN is none of Table 13.2. -/
def openFrame (f : FrameHdr) (key : Bytes) (typ : Nat) : Option Bytes :=
  let n := f.body.length - 16
  let hdr := frameHdr typ (b2n f.nak) f.src.val f.dst.val n f.epoch f.ctr
  let c := gcm true key (hdr.drop 8) hdr (f.body.take n)
  if 16 ≤ f.body.length && n ≤ 512 && n % 16 = 0 && c.2 = f.body.drop n then some c.1 else none

/-- A link leaves the state it is in: ZL_DOWN_CNT counts a link that was UP (R312); its keys are gone. -/
def State.linkDown (s : State) (p : Nat) (st : LinkState) : State :=
  let z := s.zlp p
  s.setZl p
    { z with
      st := st, down := if z.up then satAdd 32 z.down 1 else z.down, consec := 0
      width := if st = .down || st = .training then 0 else z.width, txKey := [], rxKey := [], sent := [] }

/-- One frame is sent on a port (R294): it takes the next CTR and is kept for a resend; at 2^40 the link sends nothing more
and goes to TRAINING. -/
def State.sendOne (s : State) (p typ flags src dst : Nat) (payload : Bytes) : State :=
  let z := s.zlp p
  if s.mute || !z.up then s
  else
    let hdr := frameHdr typ flags src dst payload.length z.epoch z.txCtr
    let body := sealBody z.txKey hdr payload
    let s1 := (s.emit (.frame p hdr body)).setZl p { z with txCtr := z.txCtr + 1, sent := NMap.set z.sent z.txCtr (hdr, body) }
    if 2 ^ 40 ≤ z.txCtr + 1 then s1.linkDown p .training else s1

/-- A message is sent on a port, padded to whole 16 octets, in as many frames as it takes (R292). -/
def State.sendRaw (s : State) (p typ flags src dst : Nat) (msg : Bytes) : State :=
  if msg.isEmpty then s.sendOne p typ flags src dst []
  else (chunks 512 (Bytes.padMul msg 16)).foldl (fun a c => a.sendOne p typ flags src dst c) s

/-- A LINK frame of an AUTH exchange, which no link key covers yet (R293): its payload in the clear, EPOCH, CTR and tag 0. -/
def State.sendLink (s : State) (p : Nat) (msg : Bytes) : State :=
  (chunks 512 (Bytes.padMul msg 16)).foldl (fun a c =>
    a.emit (.frame p (frameHdr 1 0 s.clu.id 0x3F c.length 0 0) (c ++ zeros 16))) s

/-- A member's message to its head, by its forwarding table (R291). -/
def State.toHead (s : State) (typ : Nat) (msg : Bytes) : State :=
  match NMap.find s.clu.table 0 with
  | some p => s.sendRaw p typ 0 s.clu.id 0 msg
  | none => s

/-! ### Leaving (R298, R299, R308) -/

/-- PEER and ROSTERED of a port by its peer's UID. -/
def State.peerOf (s : State) (z : Zl) : Zl :=
  match s.clu.members.find? fun m => m.2.uid = z.peerUid with
  | some m => { z with peer := m.1, rostered := true }
  | none => { z with peer := 0, rostered := false }

/-- PEER and ROSTERED of every port after a change of roster. -/
def State.relink (s : State) : State :=
  { s with zl := NMap.mapV s.zl fun _ z => if z.peerUid.isEmpty then z else s.peerOf z }

/-- A unit leaves its cluster: replicas and transfer keys erased, STANDALONE. -/
def State.standAlone (s : State) : State :=
  { s with clu := { s.clu with
      role := .standalone, id := 0, topo := 0, members := [], transfer := [], held := [], replVer := [], rxPart := [], headUid := [], headLost := false
      table := [], leaving := none } }.relink

/-- A member that a roster puts out tells its head and leaves, once no job of the head's runs on it any longer (R298). -/
def State.leaveNow (s : State) : State :=
  match s.clu.leaving with
  | some v => if s.jobs.any fun j => j.remote.isSome then s else (s.toHead 7 (toLE 4 v ++ toLE 1 1)).standAlone
  | none => s

end Sys2Proof.Machine
end

