-- ==== Sys2Proof/Machine/PkParams.lean ====
section
/-! DEFINITION. The PK parameter block (chapter 5): algorithms, parameter sets, lengths, features and the details of Table 5.4. -/
namespace Sys2Proof.Machine
open Sys2Proof

/-- What the entry checker knows of the job's slice: its number, its accepted features, the lengths L and Ln of the
loaded curves and the bodies of the RLDs that are visible to it (R93, R120, R148). -/
structure SliceView where
  slice : Nat
  feat : Nat → Bool
  curve : Nat → Option (Nat × Nat)
  rld : Nat → Option Bytes

/-- Field and order octets of a curve parameter set (Table 5.6, R123). -/
def curveDims (v : SliceView) (pset : Nat) : Nat × Nat :=
  match pset with
  | 1 | 4 => (32, 32) | 2 | 5 => (48, 48) | 3 => (66, 66) | 6 => (64, 64)
  | _ => (v.curve pset).getD (0, 0)

/-- Whether a PSET byte names a loaded curve's ID. -/
def loadedId (pset : Nat) : Bool := 0x40 ≤ pset && pset ≤ 0x7F

/-- The opcodes each algorithm serves (Table 5.2). -/
def pkAlgOps : Nat → List Nat
  | 1 | 2 | 6 => [0x0101, 0x0102, 0x0103]
  | 3 | 4 => [0x0103, 0x0104]
  | 5 => [0x0101, 0x0102, 0x0107, 0x0108]
  | 7 => [0x0103, 0x0105, 0x0106]
  | _ => []

/-- Whether PSET is valid for ALG, loaded curves by visibility (Tables 5.2 and 5.4). -/
def psetOk (v : SliceView) (alg pset : Nat) : Bool :=
  match alg with
  | 1 | 3 => (1 ≤ pset && pset ≤ 6) || (loadedId pset && (v.curve pset).isSome)
  | 2 => pset = 7 || pset = 8
  | 4 => pset = 9 || pset = 10
  | 5 => [0x08, 0x0C, 0x10, 0x18, 0x20].contains pset
  | 6 => [0x44, 0x65, 0x87].contains pset
  | 7 => [2, 3, 4].contains pset
  | _ => false

/-- Octets of a public key in the inline encoding (Tables 5.6, 5.7 and 6.2). -/
def pubLen (v : SliceView) (alg pset : Nat) : Nat :=
  match alg with
  | 1 | 3 => 1 + 2 * (curveDims v pset).1
  | 2 => if pset = 7 then 32 else 57
  | 4 => if pset = 9 then 32 else 56
  | 5 => 32 * pset + 32
  | 6 => if pset = 0x44 then 1312 else if pset = 0x65 then 1952 else 2592
  | _ => if pset = 2 then 800 else if pset = 3 then 1184 else 1568

/-- Octets of a public key on output, compressed or not (Table 5.6). -/
def pubOutLen (v : SliceView) (alg pset : Nat) (comp : Bool) : Nat :=
  if comp && (alg = 1 || alg = 3) then 1 + (curveDims v pset).1 else pubLen v alg pset

/-- Octets of a signature (Tables 5.6 and 5.7). -/
def sigLen (v : SliceView) (alg pset : Nat) : Nat :=
  match alg with
  | 1 => 2 * (curveDims v pset).2
  | 2 => if pset = 7 then 64 else 114
  | 5 => 32 * pset
  | _ => if pset = 0x44 then 2420 else if pset = 0x65 then 3309 else 4627

/-- Octets of an ML-KEM ciphertext (Table 5.7). -/
def kemCtLen (pset : Nat) : Nat := if pset = 2 then 768 else if pset = 3 then 1088 else 1568

/-- Octets of a shared secret (Tables 5.6 and 5.7). -/
def secretLen (v : SliceView) (alg pset : Nat) : Nat :=
  match alg with
  | 3 => (curveDims v pset).1
  | 4 => if pset = 9 then 32 else 56
  | _ => 32

/-- The parameter block of a PK opcode (Table 5.1). -/
structure PkPar where
  op : Nat
  alg : Nat
  pset : Nat
  hash : Nat
  scheme : Nat
  msg : Bool
  keyout : Bool
  comp : Bool
  rsvd : Bool
  aux : Nat
  noA : Bool
  noB : Bool
  deriving DecidableEq, Repr

/-- The parameter block as an entry carries it; a bulk entry is read as PK_VERIFY (R142). -/
def pkPar (op : Nat) (e : Bytes) : PkPar :=
  let m := eB e 0x3B
  { op := op, alg := eB e 0x38, pset := eB e 0x39, hash := eB e 0x3A, scheme := m / 16, msg := bit m 0,
    keyout := bit m 1, comp := bit m 2, rsvd := bit m 3, aux := eH e 0x3C, noA := eKeyA e = 0, noB := eKeyB e = 0 }

/-- The schemes of an algorithm under an opcode (Table 5.5). -/
def pkSchemes (p : PkPar) : List Nat :=
  if p.op = 0x0103 then [0]
  else match p.alg with
    | 2 => if p.pset = 7 then [0, 1, 2] else [0, 2]
    | 5 => if p.op = 0x0101 || p.op = 0x0102 then [1, 2] else [3]
    | 6 => [0, 1]
    | _ => [0]

/-- Whether HASH is allowed under a scheme (Tables 5.3 and 5.5). -/
def pkHashOk (p : PkPar) (scheme : Nat) : Bool :=
  if p.op = 0x0103 then p.hash = 0
  else match p.alg with
    | 1 => 1 ≤ p.hash && p.hash ≤ 6
    | 5 => 1 ≤ p.hash && p.hash ≤ 3
    | 6 => if scheme = 1 then 1 ≤ p.hash && p.hash ≤ 8 else p.hash = 0
    | _ => p.hash = 0

/-- Whether MSG is allowed (Table 5.5). -/
def pkMsgOk (p : PkPar) : Bool :=
  if p.op = 0x0103 then !p.msg
  else match p.alg with
    | 1 => true
    | 2 => p.msg || p.scheme = 2
    | 5 => !p.msg || p.op = 0x0101 || p.op = 0x0102
    | 6 => p.msg || p.scheme = 1
    | _ => !p.msg

/-- Whether AUX_LEN is in its range (Table 5.5). -/
def pkAuxOk (p : PkPar) : Bool :=
  if p.op = 0x0103 then p.aux = 0
  else match p.alg with
    | 2 => p.aux ≤ 255 && (p.scheme != 1 || 1 ≤ p.aux) && (p.pset != 7 || p.scheme != 0 || p.aux = 0)
    | 5 =>
      if p.scheme = 1 then p.aux ≤ hashLen p.hash || (p.op = 0x0102 && p.aux = 0xFFFF)
      else if p.scheme = 3 then p.aux ≤ 1024 else p.aux = 0
    | 6 => p.aux ≤ 255
    | _ => p.aux = 0

/-- The first detail of Table 5.4 whose condition holds (R93). -/
def pkBad (v : SliceView) (p : PkPar) : Option Nat :=
  if !(pkAlgOps p.alg).contains p.op then some 1
  else if !psetOk v p.alg p.pset then some 2
  else
    let defined := (pkSchemes p).contains p.scheme
    let hashBad := if defined then !pkHashOk p p.scheme else !(pkSchemes p).any (pkHashOk p)
    let outWei := (p.alg = 1 || p.alg = 3) && (p.op = 0x0103 || (p.op = 0x0104 && p.noA))
    if hashBad then some 3
    else if !defined || !pkMsgOk p || (p.keyout && p.op != 0x0107) || (p.comp && !outWei) || p.rsvd then some 4
    else if !pkAuxOk p then some 5
    else none

/-- Octets of context at the head of the signed input (R96): EdDSA and ML-DSA only. -/
def pkCtxLen (p : PkPar) : Nat := if p.alg = 2 || p.alg = 6 then p.aux else 0

/-- Least and greatest octets of the message or digest part (R96). -/
def pkMsgRange (p : PkPar) (most : Nat) : Nat × Nat :=
  if p.msg then (0, most)
  else if p.alg = 2 then (64, 64) else (hashLen p.hash, hashLen p.hash)

/-- The longest OAEP plaintext, k - 2hLen - 2 octets. -/
def oaepMax (p : PkPar) : Nat := 32 * p.pset - 2 * hashLen p.hash - 2

/-- Least and greatest IN_LEN (Table 5.8). -/
def pkInRange (v : SliceView) (p : PkPar) : Nat × Nat :=
  let pub := pubLen v p.alg p.pset
  let m := pkMsgRange p 65536
  let inl := if p.noA then pub else 0
  match p.op with
  | 0x0101 => (pkCtxLen p + m.1, pkCtxLen p + m.2)
  | 0x0102 => let f := inl + sigLen v p.alg p.pset + pkCtxLen p
              (f + m.1, f + m.2)
  | 0x0104 => let f := if p.noB then pub else 0
              (f, f)
  | 0x0105 => (inl, inl)
  | 0x0106 => (kemCtLen p.pset, kemCtLen p.pset)
  | 0x0107 => (p.aux + 32 * p.pset, p.aux + 32 * p.pset)
  | 0x0108 => (inl + p.aux, inl + p.aux + oaepMax p)
  | _ => (0, 0)

/-- The output size a PK entry implies (Table 5.8); `none` where there is no output. -/
def pkOutSize (v : SliceView) (p : PkPar) : Option Nat :=
  match p.op with
  | 0x0101 => some (sigLen v p.alg p.pset)
  | 0x0103 => some (pubOutLen v p.alg p.pset p.comp)
  | 0x0104 => if p.noA then some (pubOutLen v p.alg p.pset p.comp) else none
  | 0x0105 => some (kemCtLen p.pset)
  | 0x0107 => if p.keyout then none else some (oaepMax p)
  | 0x0108 => some (32 * p.pset)
  | _ => none

/-- The slice features that ALG and PSET require (R92), in ascending order. -/
def algFeatures (alg pset : Nat) : List Nat :=
  if alg = 6 then [5] else if alg = 7 then [6]
  else if (alg = 1 || alg = 3) && loadedId pset then [7]
  else if alg = 5 && (pset = 0x18 || pset = 0x20) then [8]
  else []

/-- Whether a PK entry creates a key (R99). -/
def pkCreates (p : PkPar) : Bool :=
  [0x0103, 0x0104, 0x0105, 0x0106].contains p.op || (p.op = 0x0107 && p.keyout)

end Sys2Proof.Machine
end

