-- ==== Sys2Proof/Machine/SymParams.lean ====
section
/-! DEFINITION. The symmetric parameter block (chapter 8): key lengths, segments, limits, the details of Table 8.8. -/
namespace Sys2Proof.Machine
open Sys2Proof

/-- Whether a key of `n` octets is allowed for an ALG of Table 8.1, or for SECRET (R222, R231). -/
def symKeyLenOk (alg n : Nat) : Bool :=
  match alg with
  | 0x11 | 0x12 | 0x21 | 0x22 | 0x24 | 0x25 | 0x32 | 0x42 => n = 16 || n = 24 || n = 32
  | 0x13 | 0x26 => n = 32
  | 0x23 => n = 32 || n = 64
  | 0x31 | 0x40 => 16 ≤ n && n ≤ 128
  | 0x33 | 0x41 | 0x43 | 0x45 | 0x46 => 16 ≤ n && n ≤ 64
  | 0x34 | 0x44 => 32 ≤ n && n ≤ 64
  | _ => false

/-- The algorithms of each symmetric opcode (Table 8.1). -/
def symAlgs : Nat → List Nat
  | 0x0301 | 0x0302 => [0x11, 0x12, 0x13]
  | 0x0303 => [0x21, 0x22, 0x23, 0x24, 0x25, 0x26]
  | 0x0401 => [0]
  | 0x0402 | 0x0403 => [0x31, 0x32, 0x33, 0x34]
  | 0x0404 => [0x41, 0x42, 0x43, 0x44, 0x45, 0x46]
  | _ => []

/-- The parameter block of a symmetric opcode other than KDF (Table 8.4). -/
structure SymPar where
  op : Nat
  alg : Nat
  sub : Nat
  flags : Nat
  tag : Nat
  aad : Nat
  stream : Nat
  step : Nat
  nlen : Nat
  lanes : Nat
  du : Nat
  inLen : Nat
  outLen : Nat
  deriving DecidableEq, Repr

/-- The parameter block as an entry carries it. -/
def symPar (e : Bytes) : SymPar :=
  { op := eOp e, alg := eB e 0x38, sub := eB e 0x39, flags := eB e 0x3A, tag := eB e 0x3B, aad := eW e 0x3C,
    stream := eH e 0x50, step := eH e 0x52, nlen := eB e 0x54, lanes := eB e 0x55, du := eW e 0x58,
    inLen := eInLen e, outLen := eOutLen e }

/-- FLAGS.IVSRC. -/
def SymPar.ivsrc (p : SymPar) : Bool := bit p.flags 0
/-- FLAGS.VERIFY_FIRST. -/
def SymPar.vfirst (p : SymPar) : Bool := bit p.flags 1
/-- FLAGS.SCRUB. -/
def SymPar.scrub (p : SymPar) : Bool := bit p.flags 2
/-- FLAGS.STRIPE. -/
def SymPar.stripe (p : SymPar) : Bool := bit p.flags 3
/-- FLAGS.FIRST. -/
def SymPar.fst (p : SymPar) : Bool := bit p.flags 4
/-- FLAGS.LAST. -/
def SymPar.lst (p : SymPar) : Bool := bit p.flags 5
/-- FLAGS.ABANDON. -/
def SymPar.abandon (p : SymPar) : Bool := bit p.flags 6
/-- A first segment; a single entry is both first and last (R164). -/
def SymPar.isFirst (p : SymPar) : Bool := p.stream = 0 || p.fst
/-- A last segment. -/
def SymPar.isLast (p : SymPar) : Bool := p.stream = 0 || p.lst
/-- CIPHER with DIR 1. -/
def SymPar.dec (p : SymPar) : Bool := p.op = 0x0303 && p.sub = 1
/-- CIPHER with DIR 0, or AEAD_SEAL: the work whose nonce the unit may form. -/
def SymPar.enc (p : SymPar) : Bool := p.op = 0x0301 || (p.op = 0x0303 && p.sub = 0)
/-- ALGs that run as single entries only (Table 8.7). -/
def singleOnly (alg : Nat) : Bool := [0x12, 0x23, 0x24, 0x25].contains alg
/-- Whether the entry carries a tag in its input: a last segment of AEAD_OPEN or MAC_CHECK. -/
def SymPar.tagIn (p : SymPar) : Nat := if (p.op = 0x0302 || p.op = 0x0403) && p.isLast then p.tag else 0
/-- The payload octets of an entry (R165). -/
def SymPar.payload (p : SymPar) : Nat := p.inLen - p.aad - p.tagIn

/-- Whether SUB is valid (Table 8.8, R161). -/
def symSubOk (p : SymPar) : Bool :=
  match p.op with
  | 0x0303 => p.sub ≤ 1
  | 0x0401 => 1 ≤ p.sub && p.sub ≤ 0x0D
  | 0x0402 | 0x0403 => if p.alg = 0x31 then (1 ≤ p.sub && p.sub ≤ 6) || (9 ≤ p.sub && p.sub ≤ 0x0B) else p.sub = 0
  | _ => p.sub = 0

/-- Whether the FLAGS bits are valid for the opcode (Table 8.8, R171). XTS, KW and KWP take no device-formed value and
IVSRC must be 0 for them (Table 8.10). -/
def symFlagsOk (p : SymPar) : Bool :=
  let ivOk := p.op = 0x0301 || (p.op = 0x0303 && p.sub = 0 && [0x21, 0x22, 0x26].contains p.alg)
  (!p.ivsrc || ivOk) && (!(p.vfirst || p.scrub) || p.op = 0x0302) && !(p.abandon && (p.fst || p.lst)) && !bit p.flags 7

/-- Whether TAG_LEN is as Table 8.7 gives it. -/
def symTagOk (p : SymPar) : Bool :=
  match p.alg with
  | 0x11 => 12 ≤ p.tag && p.tag ≤ 16
  | 0x12 => [4, 6, 8, 10, 12, 14, 16].contains p.tag
  | 0x13 => p.tag = 16
  | 0x31 => 10 ≤ p.tag && p.tag ≤ hashLen p.sub
  | 0x32 => 8 ≤ p.tag && p.tag ≤ 16
  | 0x33 | 0x34 => 4 ≤ p.tag && p.tag ≤ 64
  | _ => p.tag = 0

/-- Whether NLEN is as Table 8.8 asks. -/
def symNlenOk (p : SymPar) : Bool :=
  match p.alg with
  | 0x11 | 0x13 | 0x26 => p.nlen = 12
  | 0x12 => 7 ≤ p.nlen && p.nlen ≤ 13
  | _ => p.nlen = 0

/-- Whether AAD_LEN is as Table 8.8 asks. -/
def symAadOk (p : SymPar) : Bool :=
  p.aad = 0 || (p.isFirst && (p.alg = 0x11 || p.alg = 0x13 || p.alg = 0x33 || p.alg = 0x34 ||
    (p.alg = 0x12 && p.aad ≤ 65536)))

/-- Whether STREAM itself is as Table 8.8 asks, and the opening flags that go with it. -/
def symStreamNumOk (p : SymPar) : Bool :=
  if p.stream = 0 then !p.fst && !p.lst && !p.abandon else p.stream ≤ 4095 && !singleOnly p.alg

/-- Whether STREAM and STEP are as Table 8.8 asks. -/
def symStreamOk (p : SymPar) : Bool :=
  symStreamNumOk p && (if p.stream = 0 then p.step = 0 else !(p.fst && p.step != 0))

/-- Whether STRIPE and LANES are as Table 8.8 asks (R176). -/
def symStripeOk (v : SliceView) (p : SymPar) : Bool :=
  if p.stripe then
    ([0x11, 0x13, 0x21, 0x23, 0x26].contains p.alg || (p.alg = 0x22 && p.sub = 1)) && v.feat 14 &&
      2 ≤ p.lanes && p.lanes ≤ 16 && p.lanes % 2 = 0
  else p.lanes = 0

/-- Whether DU_LEN is as Table 8.8 asks. -/
def symDuOk (p : SymPar) : Bool := if p.alg = 0x23 then 16 ≤ p.du && p.du ≤ 16777216 else p.du = 0

/-- The first detail of Table 8.8 whose condition holds. -/
def symBad (v : SliceView) (p : SymPar) : Option Nat :=
  if !(symAlgs p.op).contains p.alg then some 1
  else if !symSubOk p then some 2
  else if !symFlagsOk p then some 3
  else if !symTagOk p then some 4
  else if !symNlenOk p then some 5
  else if !symAadOk p then some 6
  else if !symStreamOk p then some 7
  else if !symStripeOk v p then some 8
  else if !symDuOk p then some 9
  else if p.vfirst && (p.stream != 0 || p.stripe || 65536 < p.payload) then some 0xA
  else none

/-- Whether ALG, SUB, FLAGS, TAG_LEN, NLEN, LANES, STREAM or DU_LEN is invalid, whatever else is: checks 8 and 9 then take
the widest limits (R165). -/
def symWide (v : SliceView) (p : SymPar) : Bool :=
  !((symAlgs p.op).contains p.alg && symSubOk p && symFlagsOk p && symTagOk p && symNlenOk p && symStreamNumOk p &&
    symStripeOk v p && symDuOk p)

/-- Whether a segment's lengths meet Table 8.7: check 8 (R165). -/
def symInOk (p : SymPar) : Bool :=
  let pay := p.payload
  p.aad + p.tagIn ≤ p.inLen &&
  (if p.abandon then p.inLen = 0
   else match p.alg with
    | 0x22 => if p.isLast then pay % 16 = 0 else pay % 64 = 0
    | 0x23 => 0 < p.du && p.inLen % p.du = 0
    | 0x24 => if p.dec then 24 ≤ pay && pay ≤ 65544 && pay % 8 = 0 else 16 ≤ pay && pay ≤ 65536 && pay % 8 = 0
    | 0x25 => if p.dec then 16 ≤ pay && pay ≤ 65544 && pay % 8 = 0 else 1 ≤ pay && pay ≤ 65536
    | _ => p.isLast || pay % 64 = 0)

/-- The output size an entry implies (Table 8.6, R165). -/
def symOutSize (p : SymPar) : Nat :=
  if p.abandon then 0
  else match p.op with
    | 0x0301 => p.payload + (if p.isLast then p.tag else 0)
    | 0x0302 => p.payload
    | 0x0303 =>
      if p.alg = 0x24 then (if p.dec then p.payload - 8 else p.payload + 8)
      else if p.alg = 0x25 then (if p.dec then p.payload - 8 else (p.payload + 7) / 8 * 8 + 8)
      else p.payload
    | 0x0401 => if p.isLast then (if p.sub = 0x0C || p.sub = 0x0D then p.outLen else hashLen p.sub) else 0
    | 0x0402 => if p.isLast then p.tag else 0
    | _ => 0

/-- Whether OUT_LEN meets check 9 for a symmetric entry (R161, R165). -/
def symOutOk (p : SymPar) : Bool :=
  let n := symOutSize p
  if p.op = 0x0401 && (p.sub = 0x0C || p.sub = 0x0D) && p.isLast && !p.abandon then 1 ≤ p.outLen && p.outLen ≤ 65536
  else if (p.op = 0x0301 || p.op = 0x0302 || p.op = 0x0303) && !p.abandon then n ≤ p.outLen
  else if n = 0 then p.outLen = 0 else n ≤ p.outLen

/-- Octets of NONCE that a first segment uses (R162, R170, R171); none in a later one, and none where ALG is not one of the
opcode's (DESIGN CHOICE, assumption on check 7 of symmetric entries). -/
def nonceLen (p : SymPar) : Nat :=
  if !p.isFirst || p.abandon || !(symAlgs p.op).contains p.alg then 0
  else if p.alg = 0x23 then 16
  else if p.op = 0x0302 || p.dec || (p.enc && p.ivsrc) then
    match p.alg with
    | 0x11 | 0x13 | 0x26 => 12
    | 0x12 => Nat.min 16 p.nlen
    | 0x21 | 0x22 => 16
    | _ => 0
  else 0

/-- The parameter block of KDF (Table 8.5). -/
structure KdfPar where
  alg : Nat
  sub : Nat
  lbl : Nat
  klen : Nat
  newAlg : Nat
  deriving DecidableEq, Repr

/-- The parameter block as an entry carries it. -/
def kdfPar (e : Bytes) : KdfPar :=
  { alg := eB e 0x38, sub := eB e 0x39, lbl := eH e 0x3A, klen := eH e 0x3C, newAlg := eB e 0x3E }

/-- The first detail of Table 8.8 whose condition holds for KDF (R161, R163). -/
def kdfBad (p : KdfPar) : Option Nat :=
  if !(symAlgs 0x0404).contains p.alg then some 1
  else if !(if [0x41, 0x45, 0x46].contains p.alg then 1 ≤ p.sub && p.sub ≤ 6 else p.sub = 0) then some 2
  else if p.newAlg = 0x40 || !symKeyLenOk p.newAlg p.klen || p.klen < 16 || 128 < p.klen ||
      (p.alg = 0x46 && p.lbl != 0) then some 9
  else none

end Sys2Proof.Machine
end

