-- ==== Sys2Proof/Machine/SymCompute.lean ====
section
/-! DEFINITION. What the lanes compute for a symmetric segment (chapter 8), and the part of it that leaves before the end. -/
namespace Sys2Proof.Machine
open Sys2Proof

/-! ### What the lanes compute -/

/-- The pieces of a segment's input (Table 8.6). -/
structure SymIn where
  key : Bytes
  nonce : Bytes
  aad : Bytes
  prior : Bytes
  pay : Bytes
  tag : Bytes
  deriving DecidableEq, Repr

/-- A segment's output, the tag it makes or checks, and what it fails with. -/
structure SymOut where
  out : Bytes := []
  bad : Bool := false
  deriving DecidableEq, Repr

/-- A segment of an AEAD: ciphertext or plaintext, and the tag of the whole message. -/
def aeadPair (p : SymPar) (i : SymIn) (dec : Bool) : Bytes × Bytes :=
  let data := i.prior ++ i.pay
  match p.alg with
  | 0x11 => gcm dec i.key i.nonce i.aad data
  | 0x12 => ccm dec p.tag i.key i.nonce i.aad data
  | _ => ccp dec i.key i.nonce i.aad data

/-- AEAD_SEAL (Table 8.6): ciphertext, then the tag in a last segment. -/
def sealRun (p : SymPar) (i : SymIn) : SymOut :=
  let r := aeadPair p i false
  { out := r.1.drop i.prior.length ++ (if p.isLast then r.2.take p.tag else []) }

/-- AEAD_OPEN: plaintext, and whether the tag of a last segment fails. -/
def openRun (p : SymPar) (i : SymIn) : SymOut :=
  let r := aeadPair p i true
  { out := r.1.drop i.prior.length, bad := p.isLast && r.2.take p.tag != i.tag }

/-- CIPHER (R168, R171); a failed unwrap releases nothing (R179). -/
def cipherRun (p : SymPar) (i : SymIn) : SymOut :=
  let data := i.prior ++ i.pay
  let rest := fun (b : Bytes) => { out := b.drop i.prior.length : SymOut }
  match p.alg with
  | 0x21 => rest (aesCtr i.key i.nonce data)
  | 0x22 => rest (if p.dec then cbcDec i.key i.nonce data else cbcEnc i.key i.nonce data)
  | 0x23 => rest (xts p.dec p.du i.key i.nonce data)
  | 0x24 => if p.dec then (match kwUnwrap i.key data with | some m => { out := m } | none => { bad := true }) else { out := kwWrap i.key data }
  | 0x25 => if p.dec then (match kwpUnwrap i.key data with | some m => { out := m } | none => { bad := true }) else { out := kwpWrap i.key data }
  | _ => rest (chacha20 i.key i.nonce 0 data)

/-- HASH: the digest in a last segment. -/
def hashRun (p : SymPar) (i : SymIn) : SymOut := { out := if p.isLast then hashOf p.sub p.outLen (i.prior ++ i.pay) else [] }

/-- The MAC of a whole message. -/
def macOf (p : SymPar) (i : SymIn) : Bytes :=
  let m := i.prior ++ i.pay
  match p.alg with
  | 0x31 => (hmac p.sub i.key m).take p.tag
  | 0x32 => (cmac i.key m).take p.tag
  | 0x33 => kmac 168 p.tag i.key i.aad m
  | _ => kmac 136 p.tag i.key i.aad m

/-- MAC_GEN: the tag in a last segment. -/
def macGenRun (p : SymPar) (i : SymIn) : SymOut := { out := if p.isLast then macOf p i else [] }

/-- MAC_CHECK: whether the tag of a last segment fails (R181). -/
def macCheckRun (p : SymPar) (i : SymIn) : SymOut := { bad := p.isLast && macOf p i != i.tag }

/-- What an opcode's lanes compute. -/
def symRun (p : SymPar) (i : SymIn) : SymOut :=
  if p.abandon then {}
  else match p.op with
    | 0x0301 => sealRun p i
    | 0x0302 => openRun p i
    | 0x0303 => cipherRun p i
    | 0x0401 => hashRun p i
    | 0x0402 => macGenRun p i
    | _ => macCheckRun p i

/-! ### What leaves before a job ends (R177, R179, R183) -/

/-- The octets of one block of an ALG (Tables 8.1 and 8.3). -/
def symBlock (p : SymPar) : Nat :=
  match p.alg with
  | 0x13 | 0x26 => 64
  | 0x31 => hashBlock p.sub
  | 0x33 => 168
  | 0x34 => 136
  | _ => 16

/-- The output that leaves a segment's lanes while it runs, in ascending address order: an AEAD's payload and a CIPHER's
output, but not a tag, a digest, a wrapped or unwrapped key, or a plaintext held by VERIFY_FIRST. -/
def streamedOut (p : SymPar) (o : SymOut) : Bytes :=
  match p.op with
  | 0x0301 => o.out.take p.payload
  | 0x0302 => if p.vfirst then [] else o.out
  | 0x0303 => if p.alg = 0x24 || p.alg = 0x25 then [] else o.out
  | _ => []

/-- The most octets that can have left when a check fails (R183): the block that fails its check does not leave. -/
def releaseCap (p : SymPar) (failed : Bool) (n : Nat) : Nat :=
  if failed && p.op = 0x0303 then (n - 1) / symBlock p * symBlock p else n

/-! ### Stripe segments and blocks (R176, R182) -/

/-- The length of a full stripe segment (R176). -/
def stripeLen (p : SymPar) : Nat := if p.alg = 0x23 then Nat.max p.du (16384 / p.du * p.du) else 16384

/-- How many stripe segments a payload makes (R176). -/
def stripeCount (p : SymPar) : Nat := Nat.max 1 ((p.payload + stripeLen p - 1) / stripeLen p)

/-- The blocks that the lanes of pair `k` of `n` process: its stripe segments' and, for the first, the AAD's. -/
def pairBlocks (p : SymPar) (n k : Nat) : Nat :=
  let up := fun (x : Nat) => (x + symBlock p - 1) / symBlock p
  let segs := if p.stripe then
      ((List.range (stripeCount p)).filter fun j => j % Nat.max 1 n = k).map fun j =>
        up (Nat.min (stripeLen p) (p.payload - j * stripeLen p))
    else [up p.payload]
  segs.sum + (if k = 0 then up p.aad else 0)

/-- The mask reseeds after the binding's (R182): each lane's, every 65,536 blocks that it processes. Both lanes of a pair
process the pair's blocks (Table 8.14); a quad Keccak unit (`n` = 0) counts as one. -/
def maskReseeds (p : SymPar) (n : Nat) : Nat :=
  if n = 0 then (pairBlocks p 1 0 - 1) / 65536
  else ((List.range n).map fun k => 2 * ((pairBlocks p n k - 1) / 65536)).sum

/-! ### A segment and its stream -/

/-- A slice's open stream, by its number. -/
def State.stream (s : State) (sl n : Nat) : Option Stream := NMap.find (s.slice sl).streams n

/-- Whether an entry is a segment of a stream. -/
def isSegment (e : Bytes) : Bool :=
  [0x0301, 0x0302, 0x0303, 0x0401, 0x0402, 0x0403].contains (eOp e) && (symPar e).stream != 0

/-- The input of a job's segment: its stream's record before it, its payload, tag and AAD (Table 8.6). -/
def State.symIn (s : State) (j : Job) (b : Bound) : SymIn :=
  let p := symPar j.entry
  let st := if isSegment j.entry then s.stream j.slice p.stream else none
  let here := Bytes.sub j.input (p.payload + p.tagIn) p.aad
  { key := match b.keyA with | some k => k.material | none => []
    nonce := b.nonce
    aad := if p.isFirst then here else match st with | some x => x.aad | none => []
    prior := match st with | some x => x.acc | none => []
    pay := j.input.take p.payload
    tag := Bytes.sub j.input p.payload p.tagIn }

/-- The payload octets that a segment's stream had processed before it. -/
def State.streamTotal (s : State) (j : Job) : Nat :=
  if isSegment j.entry then
    match s.stream j.slice (symPar j.entry).stream with
    | some t => t.total
    | none => 0
  else 0

/-- What a bound symmetric job had released when it stopped after `n` octets of its work: the prefix of its output. -/
def State.symPrefix (s : State) (j : Job) (b : Bound) (failed : Bool) (n : Nat) : Bytes :=
  if j.cls = .sym && eOp j.entry != 0x0404 then
    let p := symPar j.entry
    let o := streamedOut p (symRun p (s.symIn j b))
    o.take (Nat.min n (releaseCap p failed o.length))
  else []

/-- The octets of its payload that a stopped symmetric job counts as processed: those it released, or for work that releases
nothing before its end those it had taken in. -/
def symDone (j : Job) (pre : Bytes) (n : Nat) : Nat :=
  let p := symPar j.entry
  if j.cls != .sym then 0
  else if p.op = 0x0401 || p.op = 0x0402 || p.op = 0x0403 then Nat.min n p.payload
  else pre.length

end Sys2Proof.Machine
end

