-- ==== Sys2Proof/Machine/RingOps.lean ====
section
/-! DEFINITION. Rings, their outstanding sets and completion (R54, R57, R59, R70), engines taken and returned, aborts. -/
namespace Sys2Proof.Machine
open Sys2Proof

/-! ### Rings -/

/-- The ring of a slice under a local index, if the slice holds it. -/
def State.ring (s : State) (sl r : Nat) : Option Ring := NMap.find (s.slice sl).rings r

/-- The pointer of a slice moves to a ring, whose BURST is then in force (R77, R78). -/
def Slice.movePtr (v : Slice) (r : Nat) : Slice :=
  let p := r % Nat.max 1 v.alloc.rings
  let b := match NMap.find v.rings p with | some g => g.burst | none => 1
  { v with ringPtr := p, run := 0, burst := b, bursts := NMap.set v.bursts p b }

/-- A ring's record replaced; a ring that leaves SCANNING at its slice's pointer moves the pointer on (R77). -/
def State.putRing (s : State) (sl r : Nat) (g : Ring) : State :=
  let v := s.slice sl
  let v1 : Slice := { v with rings := NMap.set v.rings r g }
  let left : Bool := match NMap.find v.rings r with
    | some o => o.st = .scanning && g.st != .scanning
    | none => false
  s.setSlice sl (if left && v.ringPtr = r then v1.movePtr (r + 1) else v1)

/-- The number of entries of a ring. -/
def Ring.size (g : Ring) : Nat := 2 ^ fld g.cfg 0 5
/-- SL_RING_CFG.INORDER. -/
def Ring.inorder (g : Ring) : Bool := g.cfg.getLsbD 5
/-- SL_RING_CFG.SPLIT. -/
def Ring.split (g : Ring) : Bool := g.cfg.getLsbD 6
/-- SL_RING_CFG.VEC_EN. -/
def Ring.vecEn (g : Ring) : Bool := g.cfg.getLsbD 7
/-- SL_RING_CFG.VEC. -/
def Ring.vec (g : Ring) : Nat := fld g.cfg 8 11
/-- The address of an entry (R50). -/
def Ring.entryAddr (g : Ring) (i : Nat) : Nat := (g.base.toNat + 128 * i) % 2 ^ 64

/-- The outstanding set of a ring, oldest first (R57). -/
def State.ringJobs (s : State) (sl r : Nat) : List Job := s.jobs.filter fun j => j.slice = sl && j.ring = r

/-- The oldest outstanding entry of a ring. -/
def State.oldest (s : State) (sl r : Nat) : Option Job := s.jobs.find? fun j => j.slice = sl && j.ring = r

/-- A job by its number. -/
def State.job (s : State) (id : Nat) : Option Job := s.jobs.find? fun j => j.id = id

/-- A job's record replaced, its place in the order kept. -/
def State.putJob (s : State) (j : Job) : State := { s with jobs := s.jobs.map fun x => if x.id = j.id then j else x }

/-- A slice is active while a ring of it is SCANNING or WAIT (R76). -/
def Slice.active (v : Slice) : Bool := v.rings.any fun p => p.2.st = .scanning || p.2.st = .wait

/-! ### Class FIFOs -/

/-- The depth of a class FIFO (Table 4.1). -/
def fifoDepth : Fifo → Nat
  | .pk => 4096 | .bulk => 256 | .sym => 4096 | .key => 1024 | .rng => 512

/-- The place of a FIFO in the order PK, BULK, SYM, KEY, RNG. -/
def fifoNum : Fifo → Nat
  | .pk => 0 | .bulk => 1 | .sym => 2 | .key => 3 | .rng => 4

/-- Whether a job stands in its FIFO: neither bound nor ended (R80). -/
def Job.queued (j : Job) : Bool := j.phase = .staging || j.phase = .staged

/-- A job before the jobs of a list that stand behind it: a job that joined the FIFO later stands before those accepted
since, after those accepted before (R125). -/
def fifoPut (j : Job) : List Job → List Job
  | [] => [j]
  | x :: t =>
    let key := fun (y : Job) => match y.joined with | some n => (n, 0) | none => (y.id, 1)
    if (key x).1 < (key j).1 || ((key x).1 = (key j).1 && (key x).2 < (key j).2) then x :: fifoPut j t else j :: x :: t

/-- The jobs in a FIFO, head first: in order of arrival there (R80, R125). -/
def State.fifo (s : State) (f : Fifo) : List Job := (s.jobs.filter fun j => j.cls = f && j.queued).foldr fifoPut []

/-- FILL of a FIFO (Table 4.4). -/
def State.fill (s : State) (f : Fifo) : Nat := (s.fifo f).length

/-- Each HWM is at least its FILL (Table 4.4). -/
def State.hwmUp (s : State) : State :=
  let fills := [s.fill .pk, s.fill .bulk, s.fill .sym, s.fill .key, s.fill .rng, s.eng.itemQueue.length]
  { s with qsc := { s.qsc with hwm := List.zipWith Nat.max s.qsc.hwm fills } }

/-- Whether some FIFO lacks a free place for every entry read in flight (R81). -/
def State.backPressure (s : State) : Bool :=
  [Fifo.pk, .bulk, .sym, .key, .rng].any fun f => fifoDepth f - s.fill f ≤ s.fetches.length

/-- QSC_BP_CNT counts each episode of back-pressure (R81). -/
def State.bpNote (s : State) : State :=
  let on := s.backPressure
  { s with qsc := { s.qsc with bpOn := on, bpCnt := if on && !s.qsc.bpOn then satAdd 32 s.qsc.bpCnt 1 else s.qsc.bpCnt } }

/-! ### Engines -/

/-- The pages whose PG_STAT an engine's work shows in. -/
def engPages : Engine → List Page
  | .tile n => [.pkt n]
  | .pairs l => (l.map fun p => [Page.scl ⟨2 * p.val, by omega⟩, Page.scl ⟨2 * p.val + 1, by omega⟩]).flatten
  | .lane n => [.scl n]
  | _ => []

/-- Engines taken by a job read BUSY (Table 2.4). -/
def State.engTake (s : State) (e : Engine) : State :=
  (engPages e).foldl (fun a p => if (a.hd p).st = .ready then a.setSt p .busy 0 else a) s

/-- Engines that a job returns read READY again, unless they are draining or faulted. -/
def State.engDrop (s : State) (e : Engine) : State :=
  (engPages e).foldl (fun a p => if (a.hd p).st = .busy then a.setSt p .ready 0 else a) s

/-- An engine goes to FAULT with a class (R116, R184, Table 19.3). -/
def State.engFault (s : State) (e : Engine) (fclass : Nat) : State :=
  (engPages e).foldl (fun a p => a.setSt p .fault fclass) s

/-- A wipe that reads back non-zero (R137): the tile reads FAULT and an ALARM record carries the word's address. -/
def State.wipeNote (s : State) (g : Engine) (bad : Option (Fin 16384)) : State :=
  match g, bad with
  | .tile t, some a =>
    (s.setSt (.pkt t) .fault 4).record 0x0602 4 (srcTile t.val) (toLE 1 t.val ++ toLE 2 a.val)
  | _, _ => s

/-- The tiles that a stop frees are wiped; what each wipe finds is a free value (R24, R137). -/
def State.stopWipes (s : State) (n : Nat) (l : List Engine) : State :=
  if s.mute then s else l.zipIdx.foldl (fun a x => a.wipeNote x.1 (Config.stopWipe n x.2)) s

/-- The state with a tile's record replaced. -/
def State.setTile (s : State) (n : Nat) (t : Tile) : State := { s with eng := { s.eng with tiles := NMap.set s.eng.tiles n t } }

/-- A service-mode job completed on a tile: PKT_JOBS counts it (Table 6.6). -/
def State.tileCount (s : State) (e : Engine) : State :=
  match e with
  | .tile n => let t := s.tile n.val
               s.setTile n.val { t with jobs := t.jobs + 1 }
  | _ => s

/-! ### Keys that a deletion waits for (R238) -/

/-- Whether a key, by slice and handle, is held by a bound job, a bulk item, an open stream or a teller. -/
def State.keyHeld (s : State) (h : Nat) : Bool :=
  let is := fun (k : Option KeyRec) => match k with | some x => x.handle = h | none => false
  let inB := fun (b : Option Bound) => match b with | some x => is x.keyA || is x.keyB | none => false
  (s.jobs.any fun j => inB j.bnd || j.items.any fun i => is i.keyA) ||
    s.slices.any fun p => (p.2.streams.any fun q => is q.2.key) || p.2.tellers.any fun t => inB t.bnd

/-- Whether a key's warm table serves a bound verification, a job's own or an item's. -/
def State.warmHeld (s : State) (h : Nat) : Bool :=
  let is := fun (k : Option KeyRec) => match k with | some x => x.handle = h | none => false
  s.jobs.any fun j => match j.bnd with
    | some b => (b.warm && is b.keyA) ||
        j.items.any fun i => i.warmRun && i.tile.isSome && i.out.isNone && is (if i.keyA.isSome then i.keyA else b.keyA)
    | none => false

/-- Units of deleted keys that nothing holds any longer are free (R238), and the table memory of keys that are not WARM
any longer (R113). -/
def State.reap (s : State) : State :=
  let keep := s.ks.keys.filter fun p => p.2.live || s.keyHeld p.2.handle
  let unwarm := fun (k : KeyRec) => 
    if s.warmHeld k.handle then k else { k with warmQuad := if k.warm then k.warmQuad else none, oldQuads := [] }
  { s with ks := { s.ks with keys := NMap.mapV keep fun _ k => unwarm k } }

/-- Curve slots removed from view are freed when no job that may still use them is left (R129). -/
def State.reapCurves (s : State) : State :=
  let used := fun (n : Nat) (c : Curve) => s.jobs.any fun j => j.phase != .done && j.slice = c.slice && j.curveSlots.contains n
  let rused := fun (n : Nat) (r : Rld) => s.jobs.any fun j => j.phase != .done && j.slice = r.slice && j.rldSlots.contains n
  { s with eng := { s.eng with
      curves := s.eng.curves.filter fun p => p.2.visible || used p.1 p.2
      rlds := s.eng.rlds.filter fun p => p.2.visible || rused p.1 p.2 } }

/-! ### Completion (R54, R59, R70) -/

/-- The completion word and what follows it (R54 step 3, R57, R70): DONE counts, the entry leaves the outstanding set,
a ring that waited for it scans on, a stopping ring with nothing outstanding is DISABLED, IRQ sends the message. -/
def State.issueWord (s : State) (j : Job) (c : Completion) : State :=
  let s1 := s.emit (.write j.pasid j.addr (completionWord j.entry c.code c.detail))
  let wasOldest : Bool := match s.oldest j.slice j.ring with | some o => o.id = j.id | none => false
  let s2 : State := { s1 with jobs := s1.jobs.filter fun x => x.id != j.id }
  match s2.ring j.slice j.ring with
  | none => s2
  | some g =>
    let wake := g.st = .wait && (g.why = .full && wasOldest || g.why = .fence && g.fenceJob = j.id)
    let stopped := g.st = .stopping && (s2.ringJobs j.slice j.ring).isEmpty
    let g1 : Ring :=
      { g with
        done := g.done + 1
        st := if wake then .scanning else if stopped then .disabled else g.st
        why := if wake then .none else g.why }
    let s3 := s2.putRing j.slice j.ring g1
    if eIrq j.entry && g.vecEn then s3.signal j.slice g.vec else s3

/-- Whether a job's completion word must wait: for D0 (R398), or on an INORDER ring for the entries before it (R59). -/
def State.wordWaits (s : State) (j : Job) : Bool :=
  s.pwr.d3 ||
    (match s.ring j.slice j.ring with
     | some g => g.inorder && (match s.oldest j.slice j.ring with | some o => o.id != j.id | none => false)
     | none => false)

/-- Issues the word of every ended job of a ring that no longer waits, oldest first, by fuel. -/
def flushRing (sl r : Nat) : Nat → State → State
  | 0, s => s
  | f + 1, s =>
    match (s.ringJobs sl r).find? fun j => j.fin.isSome && !s.wordWaits j with
    | some j => match j.fin with
      | some c => flushRing sl r f (s.issueWord j c)
      | none => s
    | none => s

/-- A job's engines, the units that hash for it and its items' are returned; `count` says that its own engine counts a job. -/
def State.returned (s : State) (j : Job) (count : Bool) : State :=
  let s1 := match j.bnd with
    | some b => b.hash.foldl State.engDrop ((if count then s.tileCount b.eng else s).engDrop b.eng)
    | none => s
  j.items.foldl (fun a i => i.hash.foldl State.engDrop (match i.tile with
    | some t => if h : t < 96 then a.engDrop (.tile ⟨t, h⟩) else a
    | none => a)) s1

/-- The octets of a RESULT payload (the layout is the model's own, R292). -/
def resultOctets (r : RemoteJob) (inv : Option Nat) (c : Completion) (out : Bytes) : Bytes :=
  toLE 8 r.id ++ toLE 2 (match r.item with | some i => i + 1 | none => 0) ++ toLE 2 c.code ++ toLE 2 c.detail ++
    toLE 4 c.outLen ++ Bytes.fit c.result 16 ++ toLE 1 (b2n inv.isSome) ++ toLE 8 (inv.getD 0) ++ out

/-- A job of the head's that runs on this member ends: its engines are returned and a RESULT frame answers it (R303). -/
def State.finishRemote (s : State) (j : Job) (r : RemoteJob) (c : Completion) (out : Bytes) : State :=
  let inv := j.bnd.bind fun b => if b.invTaken then some b.inv else none
  let s1 := s.returned j j.started
  (({ s1 with jobs := s1.jobs.filter fun x => x.id != j.id }).toHead 4 (resultOctets r inv c out)).leaveNow.bpNote

/-- A job ends (R54): output, OUT_LEN and RESULT are written; its engines, items and reservations are returned; the
completion word follows now or when its order comes. `recorded` says that a Ledger record of another rule stands for
this completion; otherwise a status other than OK takes a TRACE record (R386). Nothing happens once PFW_N has fallen:
in-flight jobs never complete (R400). -/
def State.finish (s : State) (j : Job) (c : Completion) (out : Bytes) (recorded : Bool) : State :=
  if s.mute then s
  else match j.remote with
  | some r => s.finishRemote j r c out
  | none =>
    let s0 := if out.isEmpty then s else s.emit (.write j.pasid (eOutAddr j.entry) out)
    let s1 := (s0.emit (.write j.pasid ((j.addr + 0x2C) % 2 ^ 64) (toLE 4 c.outLen))).emit
      (.write j.pasid ((j.addr + 0x70) % 2 ^ 64) (Bytes.fit c.result 16))
    let gid := match s.ring j.slice j.ring with | some g => g.gid | none => 0
    let s2 := if c.code != 0 && !recorded then
        s1.traceRec 0x0204 (srcSlice j.slice) (toLE 4 gid ++ toLE 2 (eOp j.entry) ++ toLE 2 c.code ++ toLE 2 c.detail ++ zeros 6)
      else s1
    let s4 := s2.returned j j.started
    let j1 : Job := { j with phase := .done, bnd := none, items := [], fin := some c, finSeq := s4.qsc.nextFin }
    let s5 : State :=
      { s4 with
        qsc := { s4.qsc with nextFin := s4.qsc.nextFin + 1 }
        eng := { s4.eng with itemQueue := s4.eng.itemQueue.filter fun q => q.1 != j.id } }
    ((flushRing j.slice j.ring (s5.jobs.length + 1) (s5.putJob j1)).reap).reapCurves.bpNote

/-- An open stream of a slice closes: its number and its tally slot are free (R173, R175). -/
def State.closeStream (s : State) (sl n : Nat) : State :=
  let v := s.slice sl
  (s.setSlice sl { v with streams := NMap.del v.streams n }).reap

/-- TALLY_LEFT for a job as it stands (R47, Table 5.10). -/
def Job.left (j : Job) : Nat := match j.bnd with | some b => b.tallyLeft | none => 0xFFFFFFFF

/-- Curve slots a slice has free of its quota; removed curves still in use count (R129), and slots that loads hold (R125). -/
def State.curvesLeft (s : State) (sl : Nat) : Nat :=
  (s.slice sl).alloc.curves - (s.eng.curves.filter fun p => p.2.slice = sl).length -
    (s.jobs.filter fun j => j.slice = sl && j.slot.isSome && j.phase != .done).length

/-- The state without a job's hold on a pool slot. -/
def State.unslot (s : State) (id : Nat) : State :=
  { s with jobs := s.jobs.map fun j => if j.id = id then { j with slot := none } else j }

/-- RLD slots a slice has free of its quota. -/
def State.rldsLeft (s : State) (sl : Nat) : Nat := (s.slice sl).alloc.rlds - (s.eng.rlds.filter fun p => p.2.slice = sl).length

/-- RESULT of a job that ends before its engine gives one (R47): a load's counts what is free of its slice's quota
(Table 6.3, R148), a submit's its approval's COUNTED and STATE (R257), a NOP's OPTIME and BARO_PACE (R74), a readout's
where it would start (R383), TOTAL of a bound segment what its stream had processed before it (Table 8.9). -/
def State.stopRes (s : State) (j : Job) (left : Nat) : Bytes :=
  match eOp j.entry with
  | 0x0507 => zeros 9 ++ toLE 1 ((s.unslot j.id).curvesLeft j.slice) ++ toLE 2 0xFFFF ++ toLE 1 (tileOf j.bnd) ++ zeros 3
  | 0x0508 => zeros 10 ++ toLE 1 (s.rldsLeft j.slice) ++ zeros 5
  | 0x0702 => s.submitNone j
  | 0x0F00 => s.nopRes
  | 0x0F01 => s.readNone j.entry
  | 0x0303 | 0x0401 | 0x0402 | 0x0403 =>
    stopResult (if j.bnd.isSome then { j with released := s.streamTotal j + j.released } else j) left
  | _ => stopResult j left

/-- Whether a job runs on a member (R303). -/
def Bound.remote (b : Bound) : Bool := match b.eng with | .member _ => true | _ => false

/-- The prefix of its output that a job has released by now, and the job as a stop finds it: how far its own engine had got
is a free value (R177). -/
def State.stopAt (s : State) (j : Job) : Bytes × Job :=
  match j.bnd with
  | some b =>
    if b.remote then ([], j)
    else
      let n := Config.progress s.freeN
      let pre := s.symPrefix j b false n
      (pre, { j with released := if j.cls = .sym then symDone j pre n else n })
  | none => ([], j)

/-- The engines that serve a job: its own, and the tiles of its items. -/
def Job.engines (j : Job) : List Engine :=
  (match j.bnd with | some b => [b.eng] | none => []) ++
    j.items.filterMap fun i => i.tile.bind fun t => if h : t < 96 then some (Engine.tile ⟨t, h⟩) else none

/-- A job is stopped with ABORTED (R24, R67, R89): output already released stays and OUT_LEN reports it, its stream
closes, charges stay, its tiles are wiped. -/
def State.abortJob (s : State) (j : Job) (detail : Nat) : State :=
  let (pre, j1) := s.stopAt j
  let c : Completion := { code := cAborted, detail := detail, outLen := pre.length, result := s.stopRes j1 j.left }
  let s0 : State := { s with freeN := s.freeN + 1 }
  let s1 := match j.bnd with
    | some b => (match b.stream with | some n => s0.closeStream j.slice n | none => s0)
    | none => s0
  (s1.finish j1 c pre false).stopWipes s.freeN j.engines

/-- A job that has ended and whose completion word is still held is aborted (R67): what it wrote stays, its word will
carry ABORTED. -/
def State.abortHeld (s : State) (j : Job) (detail : Nat) : State :=
  match j.fin with
  | some c =>
    let gid := match s.ring j.slice j.ring with | some g => g.gid | none => 0
    (s.putJob { j with fin := some { c with code := cAborted, detail := detail } }).traceRec 0x0204 (srcSlice j.slice)
      (toLE 4 gid ++ toLE 2 (eOp j.entry) ++ toLE 2 cAborted ++ toLE 2 detail ++ zeros 6)
  | none => s

/-- Every job of a list that has not ended is aborted, in order. -/
def abortAll (detail : Nat) : List Nat → State → State
  | [], s => s
  | id :: t, s =>
    match s.job id with
    | some j => abortAll detail t (if j.phase = .done then s else s.abortJob j detail)
    | none => abortAll detail t s

/-- Fetching stops on a ring (R67): reads in flight are discarded, and it reads STOPPING while entries are outstanding,
then DISABLED. -/
def State.stopRing (s : State) (sl r : Nat) : State :=
  match s.ring sl r with
  | none => s
  | some g =>
    let st := if (s.ringJobs sl r).isEmpty then RingState.disabled else .stopping
    let s1 := s.putRing sl r { g with st := st, why := .none }
    { s1 with fetches := s1.fetches.map fun f => if f.slice = sl && f.ring = r then { f with live := false } else f }

/-- DISABLE_ABORT (R67): as DISABLE, and every outstanding job is aborted, those first whose word is still held. -/
def State.stopAbortRing (s : State) (sl r : Nat) (detail : Nat) : State :=
  let js := s.ringJobs sl r
  let s1 := (js.filter fun j => j.phase = .done && !j.checker).foldl (fun a j => a.abortHeld j detail) (s.stopRing sl r)
  abortAll detail (js.map Job.id) s1

end Sys2Proof.Machine
end

