-- ==== Sys2Proof/Machine/Rings.lean ====
section
/-! DEFINITION. Doorbells, fetch turns and ring commands (chapters 3 and 4): the meanings of the ring and scheduler rows. -/
namespace Sys2Proof.Machine
open Sys2Proof

/-- A command on a page acts only where the page answers (R26, R28, R40). -/
def State.onPage (s : State) (p : Page) (f : State → State) : State :=
  if !s.pageAnswers p then s else if noWrites p then s.refuse p cForbids 1 else f s

/-- Why page 1 of SLM refuses every write but that of SLM_MB_SLICE, its header's too (R286): no mailbox of the selected slice
is in use. -/
def State.mbClosed (s : State) (p : Page) : Option Nat :=
  let n := fld (s.rg (.slm 1) 0x040) 0 12
  if p != .slm 1 then none
  else if n = 0 then some 1
  else if !sliceOpen (s.slice n) then some 7
  else none

/-- A write to a page's header, or one that acts on the slice that page 1 of SLM selects. -/
def State.onHdr (s : State) (p : Page) (f : State → State) : State :=
  s.onPage p fun s => match s.mbClosed p with
    | some d => s.refuse p cForbids d
    | none => f s

/-! ### Doorbells -/

/-- A doorbell acts on its ring by the ring's state (Table 3.3); nothing where the slice's part is unoccupied (R264). -/
def State.ring1 (s : State) (sl r : Nat) : State :=
  let v := s.slice sl
  let stray := s.setSlice sl { v with stray := satAdd 32 v.stray 1 }
  if !s.running || !sliceOpen v then s
  else match s.ring sl r with
    | none => stray
    | some g => match g.st with
      | .disabled | .stopping => stray
      | .idle => s.putRing sl r { g with st := .scanning }
      | .scanning | .wait => s.putRing sl r { g with rescan := true }
      | .fault => s

/-- The doorbells a write touches, in address order, each once (R27). -/
def doorbells (addr : Nat) (be : List Bool) : List Nat :=
  (((List.range be.length).filter fun i => be.getD i false).map fun i => (addr + i) / 8).eraseDups

/-- DOORBELL (R27, R56): every doorbell with an enabled byte rings. -/
def doorbellBody (addr : BitVec 29) (be : List Bool) (s : State) : State :=
  (doorbells addr.toNat be).foldl (fun a d => if d < 2 ^ 26 then a.ring1 (d / 16384) (d % 16384) else a) s

/-- DOORBELL. -/
def execDoorbell (addr : BitVec 29) (be : List Bool) (s : State) : Host.Outcome State Fault Refusal :=
  .next (s.hostReq (.doorbell addr be) (doorbellBody addr be))

/-! ### The arbiter (R76, R77) -/

/-- Whether fetching is withheld from the whole unit: not running, PFW_N fallen (R400), D3hot (R398), a Fog or Frost
drain (R395), asleep. -/
def State.fetchStopped (s : State) : Bool :=
  !s.running || s.mute || s.pwr.d3 || s.pwr.deep.isSome || s.asleep || s.pwr.ladder = .frost

/-- Whether a ring is eligible for a turn (R76), back-pressure apart. -/
def State.eligible (s : State) (sl r : Nat) (g : Ring) : Bool :=
  g.st = .scanning && (s.slice sl).st = .active && !(s.fetches.any fun f => f.slice = sl && f.ring = r)

/-- Keys of a map in ascending cyclic order from a pointer. -/
def cyclicFrom (p : Nat) (ks : List Nat) : List Nat := (ks.filter fun k => p ≤ k) ++ ks.filter fun k => k < p

/-- Whether a slice has an eligible ring. -/
def State.sliceEligible (s : State) (sl : Nat) : Bool := (s.slice sl).rings.any fun p => s.eligible sl p.1 p.2

/-- The first level of R77: the slice that takes the turn, and the state with credits refilled if the round ended. -/
def State.chooseSlice (s : State) : Option (State × Nat) :=
  let ks := cyclicFrom s.qsc.slicePtr (s.slices.map Prod.fst)
  match ks.find? fun k => s.sliceEligible k && 0 < (s.slice k).credit with
  | some k => some (s, k)
  | none =>
    match ks.find? fun k => s.sliceEligible k with
    | none => none
    | some k =>
      some ({ s with slices := NMap.mapV s.slices fun _ v => if v.active then { v with credit := v.weight } else v }, k)

/-- The second level of R77: the ring of the slice that takes the turn. -/
def State.chooseRing (s : State) (sl : Nat) : Option (State × Nat) :=
  let v := s.slice sl
  let ks := cyclicFrom v.ringPtr (v.rings.map Prod.fst)
  let el := fun (k : Nat) => match s.ring sl k with | some g => s.eligible sl k g | none => false
  let cr := fun (k : Nat) => match s.ring sl k with | some g => 0 < g.credit | none => false
  match ks.find? fun k => el k && cr k with
  | some k => some (s, k)
  | none =>
    match ks.find? el with
    | none => none
    | some k => some (s.setSlice sl { v with rings := NMap.mapV v.rings fun _ g => { g with credit := g.weight } }, k)

/-- What a ring does with its turn (R57): WAIT on its own oldest entry, else the entry read, RESCAN cleared with it. -/
def State.turn (s : State) (sl r : Nat) : State :=
  match s.ring sl r with
  | none => s
  | some g =>
    let full : Bool := match s.oldest sl r with | some o => o.index = g.scan | none => false
    if full then s.putRing sl r { g with st := .wait, why := .full }
    else
      let s1 := s.putRing sl r { g with rescan := false }
      let ft : Fetch := { slice := sl, ring := r, index := g.scan }
      ({ s1 with fetches := s1.fetches ++ [ft] }).emit
        (.read (s.slice sl).pasid (g.entryAddr g.scan) (if g.split then 8 else 128))

/-- Credits, run and pointers after a turn (R77). -/
def State.afterTurn (s : State) (sl r : Nat) : State :=
  let v := s.slice sl
  match NMap.find v.rings r with
  | none => s
  | some g =>
    let g1 : Ring := { g with credit := g.credit - 1 }
    let atPtr := v.ringPtr = r
    let v1 : Slice := { v with credit := v.credit - 1, rings := NMap.set v.rings r g1, run := if atPtr then v.run + 1 else v.run }
    let burst := if atPtr then v.burst else NMap.getD v.bursts r 1
    let v2 := if v1.run = burst || g1.credit = 0 then v1.movePtr (r + 1) else v1
    let s1 := s.setSlice sl v2
    if sl = s.qsc.slicePtr && v2.credit = 0 then { s1 with qsc := { s1.qsc with slicePtr := (sl + 1) % 4096 } } else s1

/-- FETCH_TURN (R75 to R77, R81): one free channel serves the chosen ring; nothing where none is eligible. A turn taken
in Breeze returns the unit to Gale (R392). -/
def execFetchTurn (s : State) : Host.Outcome State Fault Refusal :=
  .next (
    if s.fetchStopped || s.backPressure || 32 ≤ s.fetches.length then s.bpNote
    else match s.chooseSlice with
      | none => s
      | some (s1, sl) => match s1.chooseRing sl with
        | none => s
        | some (s2, r) => (((s2.wakeFor 6).turn sl r).afterTurn sl r).bpNote)

/-! ### Ring commands (Tables 3.7 and 3.8) -/

/-- The local index in SL_RING_SEL. -/
def State.ringSel (s : State) (sl : Fin 4096) : Nat := fld (s.rg (.slc sl) 0x100) 0 14

/-- The refusal a ring configuration meets, in the order of Table 3.7 (R69). -/
def ringConfigRefusal (v : Slice) (g : Ring) (base : Nat) (cfg : W32) : Option (Nat × Nat) :=
  let k := fld cfg 0 5
  if k < 4 || 16 < k then some (cBadParam, 1)
  else if base % 4096 != 0 || 2 ^ 64 < base + 2 ^ k * 128 then some (cBadParam, 2)
  else if cfg.getLsbD 7 && v.alloc.vecCount ≤ fld cfg 8 11 then some (cBadParam, 3)
  else if g.weight = 0 || g.burst = 0 || 64 < g.burst then some (cBadParam, 4)
  else if cfg.getLsbD 5 && !v.feat 1 then some (cFeature, 1)
  else if g.st != .disabled then some (cForbids, g.st.code)
  else none

/-- A ring command on the selected ring: refused where SL_RING_SEL names none (Table 3.7, first row). -/
def State.onRing (s : State) (sl : Fin 4096) (f : Nat → Ring → State) : State :=
  match s.ring sl.val (s.ringSel sl) with
  | none => s.refuse (.slc sl) cBadParam 5
  | some g => f (s.ringSel sl) g

/-- SL_RING_CMD 1, ENABLE (R68, R69, R279). -/
def ringEnableBody (sl : Fin 4096) (s : State) : State :=
  s.onPage (.slc sl) fun s =>
    if !(s.slice sl.val).featOk then s.refuse (.slc sl) cFeature 0
    else s.onRing sl fun r g =>
      match ringConfigRefusal (s.slice sl.val) g g.base.toNat g.cfg with
      | some (c, d) => s.refuse (.slc sl) c d
      | none => s.putRing sl.val r { g with st := .scanning, scan := 0, why := .none }

/-- RING_ENABLE. -/
def execRingEnable (slice : Fin 4096) (s : State) : Host.Outcome State Fault Refusal :=
  .next (s.hostReq (.ringEnable slice) (ringEnableBody slice))

/-- SL_RING_CMD 2, DISABLE (R67). -/
def ringDisableBody (sl : Fin 4096) (s : State) : State :=
  s.onPage (.slc sl) fun s => s.onRing sl fun r g =>
    if g.st = .disabled then s.refuse (.slc sl) cForbids 0 else s.stopRing sl.val r

/-- RING_DISABLE. -/
def execRingDisable (slice : Fin 4096) (s : State) : Host.Outcome State Fault Refusal :=
  .next (s.hostReq (.ringDisable slice) (ringDisableBody slice))

/-- SL_RING_CMD 3, DISABLE_ABORT (R67): ABORTED, detail 0x0001. -/
def ringDisableAbortBody (sl : Fin 4096) (s : State) : State :=
  s.onPage (.slc sl) fun s => s.onRing sl fun r g =>
    if g.st = .disabled then s.refuse (.slc sl) cForbids 0 else s.stopAbortRing sl.val r 1

/-- RING_DISABLE_ABORT. -/
def execRingDisableAbort (slice : Fin 4096) (s : State) : Host.Outcome State Fault Refusal :=
  .next (s.hostReq (.ringDisableAbort slice) (ringDisableAbortBody slice))

/-- SL_RING_CMD 4, RESUME (R66). -/
def ringResumeBody (sl : Fin 4096) (s : State) : State :=
  s.onPage (.slc sl) fun s => s.onRing sl fun r g =>
    if g.st = .fault then s.putRing sl.val r { g with st := .scanning } else s.refuse (.slc sl) cForbids g.st.code

/-- RING_RESUME. -/
def execRingResume (slice : Fin 4096) (s : State) : Host.Outcome State Fault Refusal :=
  .next (s.hostReq (.ringResume slice) (ringResumeBody slice))

/-- A write of SL_RING_BASE_LO, SL_RING_BASE_HI or SL_RING_CFG (R38, R69): the low half is held without check. -/
def ringConfigWriteBody (sl : Fin 4096) (reg : RingReg) (x : BitVec 32) (s : State) : State :=
  s.onPage (.slc sl) fun s => s.onRing sl fun r g =>
    let v := s.slice sl.val
    match reg with
    | .baseLo => s.putRing sl.val r { g with baseLo := some (x &&& 0xFFFFF000) }
    | .baseHi =>
      let lo := match g.baseLo with | some l => l | none => BitVec.ofNat 32 g.base.toNat
      let base := x.toNat * 2 ^ 32 + lo.toNat
      if 2 ^ 64 < base + g.size * 128 then s.refuse (.slc sl) cBadParam 2
      else if g.st != .disabled then s.refuse (.slc sl) cForbids g.st.code
      else
        let s1 := s.putRing sl.val r { g with base := BitVec.ofNat 64 base, baseLo := none }
        if base = g.base.toNat then s1 else s1.bumpGen (.slc sl)
    | .cfg =>
      let c := x &&& 0x7FFFF
      match ringConfigRefusal v g g.base.toNat c with
      | some (cd, d) => s.refuse (.slc sl) cd d
      | none => let s1 := s.putRing sl.val r { g with cfg := c }
                if c = g.cfg then s1 else s1.bumpGen (.slc sl)

/-- RING_CONFIG_WRITE. -/
def execRingConfigWrite (slice : Fin 4096) (reg : RingReg) (v : BitVec 32) (s : State) :
    Host.Outcome State Fault Refusal :=
  .next (s.hostReq (.ringConfigWrite slice reg v) (ringConfigWriteBody slice reg v))

/-- A write of SL_RING_SCHED (R69, R78), judged in any state of the ring on the configuration it would produce: the credit falls to the new weight at once, the weight holds from the next
refill, the burst from the pointer's next arrival. -/
def ringSchedWriteBody (sl : Fin 4096) (x : BitVec 32) (s : State) : State :=
  s.onPage (.slc sl) fun s => s.onRing sl fun r g =>
    let w := fld x 0 8
    let b := fld x 8 7
    match ringConfigRefusal (s.slice sl.val) { g with weight := w, burst := b, st := .disabled } g.base.toNat g.cfg with
    | some (c, d) => s.refuse (.slc sl) c d
    | none =>
      let s1 := s.putRing sl.val r { g with weight := w, burst := b, credit := Nat.min g.credit w }
      if w = g.weight && b = g.burst then s1 else s1.bumpGen (.slc sl)

/-- RING_SCHED_WRITE. -/
def execRingSchedWrite (slice : Fin 4096) (v : BitVec 32) (s : State) : Host.Outcome State Fault Refusal :=
  .next (s.hostReq (.ringSchedWrite slice v) (ringSchedWriteBody slice v))

/-! ### The QSC page -/

/-- A write of QSC_SLICE_WEIGHT (R78, R88). -/
def qscSliceWeightBody (x : BitVec 32) (s : State) : State :=
  s.onPage .qsc fun s =>
    let n := fld (s.rg .qsc 0x040) 0 12
    let v := s.slice n
    let w := fld x 0 8
    if !sliceOpen v then s.refuse .qsc cForbids 7
    else if w = 0 then s.refuse .qsc cBadParam 4
    else
      let s1 := s.setSlice n { v with weight := w, credit := Nat.min v.credit w }
      if w = v.weight then s1 else s1.bumpGen .qsc

/-- QSC_SLICE_WEIGHT_WRITE. -/
def execQscSliceWeightWrite (v : BitVec 32) (s : State) : Host.Outcome State Fault Refusal :=
  .next (s.hostReq (.qscSliceWeightWrite v) (qscSliceWeightBody v))

/-- The slice and local index that hold a global ring ID. -/
def State.findRing (s : State) (gid : Nat) : Option (Nat × Nat) :=
  s.slices.findSome? fun p => (p.2.rings.find? fun q => q.2.gid = gid).map fun q => (p.1, q.1)

/-- A manager DISABLE or DISABLE_ABORT of the ring in QSC_RING_SEL (R73). -/
def qscStopBody (abort : Bool) (s : State) : State :=
  s.onPage .qsc fun s =>
    match s.findRing (fld (s.rg .qsc 0x100) 0 20) with
    | none => s.refuse .qsc cForbids 0x10
    | some (sl, r) => match s.ring sl r with
      | none => s.refuse .qsc cForbids 0x10
      | some g =>
        if g.st = .disabled then s.refuse .qsc cForbids 0
        else
          let s1 := if abort then s.stopAbortRing sl r 1 else s.stopRing sl r
          let s2 := if h : sl < 4096 then s1.raise (.slc ⟨sl, h⟩) 17 else s1
          s2.record 0x0202 2 (srcSlice sl) (toLE 2 sl ++ toLE 2 r ++ toLE 1 (if abort then 3 else 2))

/-- QSC_RING_DISABLE. -/
def execQscRingDisable (s : State) : Host.Outcome State Fault Refusal :=
  .next (s.hostReq .qscRingDisable (qscStopBody false))

/-- QSC_RING_DISABLE_ABORT. -/
def execQscRingDisableAbort (s : State) : Host.Outcome State Fault Refusal :=
  .next (s.hostReq .qscRingDisableAbort (qscStopBody true))

/-- QSC_FIFO_CLR.HWM_CLR (Table 4.4): each HWM becomes its FILL. -/
def hwmClrBody (s : State) : State :=
  s.onPage .qsc fun s => ({ s with qsc := { s.qsc with hwm := [0, 0, 0, 0, 0, 0] } }).hwmUp

/-- HWM_CLR. -/
def execHwmClr (s : State) : Host.Outcome State Fault Refusal := .next (s.hostReq .hwmClr hwmClrBody)

/-- JOB_TIME_LIMIT (R89): a bound job that has a limit reaches it and ends ABORTED, detail 0x0010. -/
def execJobTimeLimit (job : Nat) (s : State) : Host.Outcome State Fault Refusal :=
  .next (match s.job job with
    | some j => match j.bnd with
      | some b =>
        if b.limit = 0 || j.phase = .done || s.mute then s
        else ({ s with qsc := { s.qsc with timeoutCnt := satAdd 32 s.qsc.timeoutCnt 1 } }).abortJob j 0x10
      | none => s
    | none => s)

end Sys2Proof.Machine
end

