-- ==== Sys2Proof/Machine/RegOps.lean ====
section
/-! DEFINITION. A host write to a plain register (R9, R36, R37): writable bits, the lock, the generation counter. -/
namespace Sys2Proof.Machine
open Sys2Proof

/-- The bits of a register that a host write changes now: RW always, RWL until PG_LOCK. -/
def State.writable (s : State) (p : Page) (off : Nat) : W32 :=
  match regDesc p off with
  | some d => BitVec.ofNat 32 d.rw ||| (if (s.hd p).lock then 0 else BitVec.ofNat 32 d.rwl)
  | none => 0

/-- A plain register takes the writable bits of a value; a change counts in PG_GEN. -/
def State.writeRg (s : State) (p : Page) (off : Nat) (v : W32) : State :=
  let m := s.writable p off
  let old := s.rg p off
  let new := (old &&& ~~~m) ||| (v &&& m)
  if new = old then s else (s.setRg p off new).bumpGen p

end Sys2Proof.Machine
end

