-- ==== Sys2Proof/Machine/Barometer.lean ====
section
/-! DEFINITION. The Barometer, host round trips and the adaptive-voltage loop (R83 to R87). -/
namespace Sys2Proof.Machine
open Sys2Proof

/-- A PMBus failure (R87): the loop stops, PMB_ERR reads 1, WARNING with the address and the PMBus command. -/
def State.pmbFail (s : State) (cmd : Nat) : State :=
  ({ s with baro := { s.baro with loop := false, pmbErr := true } }).record 0x0902 3 0
    (toLE 1 (fld (s.rg .baro 0x05C) 0 7) ++ toLE 1 cmd)

/-- The loop's floor: VMIN, and at least 650 mV while TMP_TJ reads below 0 °C (R87). -/
def State.vFloor (s : State) : Nat :=
  let vmin := fld (s.rg .baro 0x058) 0 10
  if s.tmp.tj < 0 then Nat.max vmin 650 else vmin

/-- The voltage the loop commands next (R87): R87's step, or below 0 °C the floor where V lies below it; never outside its
limits. -/
def State.vNext (s : State) : Nat :=
  let vmin := fld (s.rg .baro 0x058) 0 10
  let vmax := fld (s.rg .baro 0x058) 16 10
  let target := fld (s.rg .baro 0x04C) 0 16
  let v := s.baro.v
  let v1 :=
    if s.tmp.tj < 0 && v < s.vFloor then s.vFloor
    else if s.baro.pace + 0x10 < target && v < vmax then v + 5
    else if target + 0x10 < s.baro.pace && s.vFloor < v then Nat.max (v - 5) s.vFloor
    else v
  Nat.min (Nat.max v1 vmin) vmax

/-- One step of the loop: the VOUT_COMMAND write, CEIL and FLOOR; or its failure. -/
def State.loopStep (s : State) (ack : Bool) : State :=
  if !s.baro.loop then s
  else if !ack then s.pmbFail 0x21
  else
    let v := s.vNext
    let target := fld (s.rg .baro 0x04C) 0 16
    let b : Baro :=
      { s.baro with
        v := v, vdd := v, ceil := s.baro.pace < target && v = fld (s.rg .baro 0x058) 16 10
        floor := target < s.baro.pace && v = s.vFloor }
    ({ s with baro := b }).emit (.pmbus (fld (s.rg .baro 0x05C) 0 7) (fld (s.rg .baro 0x05C) 8 8) v)

/-- BARO_UPDATE (R83, R85, R87): the reading saturates, SEQ counts, MIN follows, the loop acts; the samples of the same
millisecond show in TMP_TJ and TMP_VCAP (Table 15.13). -/
def execBaroUpdate (reading : BaroSample) (ack : Bool) (s : State) : Host.Outcome State Fault Refusal :=
  .next (
    if !s.linked then s
    else
      let pace := Nat.max 0x1CD (Nat.min reading.pace 0x500)
      ({ s with
          baro := { s.baro with pace := pace, seq := (s.baro.seq + 1) % 2 ^ 16, min := Nat.min s.baro.min pace }
          tmp := { s.tmp with tj := reading.tj.toInt, vcap := reading.vcap.toNat } }).loopStep ack)

/-- HOST_RTT_INTERVAL (R84): an interval of fewer than 64 reads leaves both fields. -/
def execHostRttInterval (reads maxNs meanNs : Nat) (s : State) : Host.Outcome State Fault Refusal :=
  .next (
    if reads < 64 || !s.running then s
    else { s with baro := { s.baro with rttMax := Nat.min maxNs 0xFFFF, rttMean := Nat.min meanNs 0xFFFF } })

/-- BARO_CTRL.MIN_CLR (R85). -/
def minClrBody (s : State) : State := s.onPage .baro fun s => { s with baro := { s.baro with min := s.baro.pace } }

/-- MIN_CLR. -/
def execMinClr (s : State) : Host.Outcome State Fault Refusal := .next (s.hostReq .minClr minClrBody)

/-- BARO_TARGET (R86, R87): checked; zero stops the loop, another value starts it from READ_VOUT or retargets it. -/
def targetBody (x : BitVec 32) (vout : Option Nat) (s : State) : State :=
  s.onPage .baro fun s =>
    let t := fld x 0 16
    if t != 0 && !s.devFeat 2 then s.refuse .baro cFeature 2
    else if t != 0 && (t < 0x1CD || 0x500 < t) then s.refuse .baro cBadParam 1
    else
      let s1 := s.writeRg .baro 0x04C x
      if t = 0 then { s1 with baro := { s1.baro with loop := false } }
      else if s1.baro.loop then s1
      else match vout with
        | some v => { s1 with baro := { s1.baro with loop := true, v := v, pmbErr := false } }
        | none => s1.pmbFail 0x8B

/-- BARO_TARGET_WRITE. -/
def execBaroTargetWrite (v : BitVec 32) (vout : Option Nat) (s : State) : Host.Outcome State Fault Refusal :=
  .next (s.hostReq (.baroTargetWrite v vout) (targetBody v vout))

/-- BARO_VLIM (R36, R86). -/
def vlimBody (x : BitVec 32) (s : State) : State :=
  s.onPage .baro fun s =>
    let lo := fld x 0 10
    let hi := fld x 16 10
    if (s.hd .baro).lock then s
    else if lo < 600 || 900 < hi || hi < lo then s.refuse .baro cBadParam 2
    else s.writeRg .baro 0x058 x

/-- BARO_VLIM_WRITE. -/
def execBaroVlimWrite (v : BitVec 32) (s : State) : Host.Outcome State Fault Refusal :=
  .next (s.hostReq (.baroVlimWrite v) (vlimBody v))

end Sys2Proof.Machine
end

