-- ==== Sys2Proof/Machine/Ntt.lean ====
section
/-! DEFINITION. The number-theoretic transforms of FIPS 204 and FIPS 203 that bench mode runs (Table 6.7). -/
namespace Sys2Proof

/-- The lowest `w` bits of a number in reverse order. -/
def bitRev (w n : Nat) : Nat := (List.range w).foldl (fun a i => 2 * a + n / 2 ^ i % 2) 0

/-- A list of numbers cut into pieces of `n`, by fuel. -/
def pieces (n : Nat) : Nat → List Nat → List (List Nat)
  | 0, _ => []
  | f + 1, l => if l.isEmpty then [] else l.take n :: pieces n f (l.drop n)

/-- One layer of butterflies over blocks of 2 * len, block k under the factor `z k`. -/
def nttLayer (bf : Nat → Nat → Nat → Nat × Nat) (z : Nat → Nat) (len : Nat) (l : List Nat) : List Nat :=
  let blocks := pieces (2 * len) l.length l
  ((List.zip (List.range blocks.length) blocks).map fun b =>
    let xy := List.zipWith (bf (z b.1)) (b.2.take len) (b.2.drop len)
    xy.map Prod.fst ++ xy.map Prod.snd).flatten

/-- The forward butterfly modulo q. -/
def bfFwd (q z a b : Nat) : Nat × Nat := let t := z * b % q
                                         ((a + t) % q, (a + q - t) % q)

/-- The inverse butterfly modulo q. -/
def bfInv (q z a b : Nat) : Nat × Nat := ((a + b) % q, z * (b + q - a % q) % q)

/-- Forward layers, from 128 down, `n` of them. -/
def nttFwd (q : Nat) (zeta : Nat → Nat) (n : Nat) (l : List Nat) : List Nat :=
  (List.range n).foldl (fun a i => let len := 128 / 2 ^ i
                                   nttLayer (bfFwd q) (fun k => zeta (128 / len + k)) len a) l

/-- Inverse layers, up to 128, `n` of them, and the scaling by `s`. -/
def nttInv (q s : Nat) (zeta : Nat → Nat) (n : Nat) (l : List Nat) : List Nat :=
  let a := (List.range n).foldl (fun a i => let len := 128 / 2 ^ (n - 1 - i)
                                            nttLayer (bfInv q) (fun k => zeta (256 / len - 1 - k)) len a) (l.map (· % q))
  a.map fun x => x * s % q

/-- A power modulo q by repeated squaring over 16 bits. -/
def powQ (q b e : Nat) : Nat :=
  (List.range 16).foldl (fun a i => let s := a * a % q
                                    if e.testBit (15 - i) then s * b % q else s) 1

/-- ML-DSA's modulus. -/
def qDsa : Nat := 8380417
/-- ML-KEM's modulus. -/
def qKem : Nat := 3329

/-- FIPS 204's forward transform. -/
def nttDsa (l : List Nat) : List Nat := nttFwd qDsa (fun m => powQ qDsa 1753 (bitRev 8 m)) 8 l
/-- FIPS 204's inverse transform, scaled. -/
def inttDsa (l : List Nat) : List Nat := nttInv qDsa 8347681 (fun m => powQ qDsa 1753 (bitRev 8 m)) 8 l
/-- FIPS 203's forward transform. -/
def nttKem (l : List Nat) : List Nat := nttFwd qKem (fun m => powQ qKem 17 (bitRev 7 m)) 7 l
/-- FIPS 203's inverse transform, scaled. -/
def inttKem (l : List Nat) : List Nat := nttInv qKem 3303 (fun m => powQ qKem 17 (bitRev 7 m)) 7 l

/-- FIPS 203's base-case product of two transforms. -/
def baseMulKem (a b : List Nat) : List Nat :=
  ((List.range 128).map fun i =>
    let g := powQ qKem 17 (2 * bitRev 7 i + 1)
    let a0 := a.getD (2 * i) 0
    let a1 := a.getD (2 * i + 1) 0
    let b0 := b.getD (2 * i) 0
    let b1 := b.getD (2 * i + 1) 0
    [(a0 * b0 + a1 * b1 * g) % qKem, (a0 * b1 + a1 * b0) % qKem]).flatten

end Sys2Proof
end

