-- ==== Sys2Proof/Machine/EntryCheck.lean ====
section
/-! DEFINITION. The entry checker (R61, Table 3.5) over every opcode of Table 1.3. -/
namespace Sys2Proof.Machine
open Sys2Proof

/-! ### Opcodes -/

/-- The class FIFO of each opcode (Table 1.3); `none` for an opcode that is not in the table. -/
def opFifo : Nat → Option Fifo
  | 0x0101 | 0x0102 | 0x0103 | 0x0104 | 0x0105 | 0x0106 | 0x0107 | 0x0108 => some .pk
  | 0x0201 | 0x0202 => some .bulk
  | 0x0301 | 0x0302 | 0x0303 | 0x0401 | 0x0402 | 0x0403 | 0x0404 => some .sym
  | 0x0501 | 0x0502 | 0x0503 | 0x0504 | 0x0505 | 0x0506 | 0x0507 | 0x0508 | 0x0509 => some .key
  | 0x0701 | 0x0702 | 0x0F00 | 0x0F01 => some .key
  | 0x0601 => some .rng
  | _ => none

/-- Whether an opcode is secret-using (Table 1.3). -/
def opSecret (op : Nat) : Bool :=
  [0x0101, 0x0103, 0x0104, 0x0105, 0x0106, 0x0107, 0x0108, 0x0301, 0x0302, 0x0303, 0x0402, 0x0403, 0x0404,
    0x0501, 0x0502, 0x0509, 0x0601, 0x0701].contains op

/-- The feature bits that check 5 asks for, in the order judged (R92, R139, R148, R230, R237, R251, R382). -/
def opFeatures (v : SliceView) (e : Bytes) : List Nat :=
  let op := eOp e
  match op with
  | 0x0101 | 0x0102 | 0x0103 | 0x0104 | 0x0107 | 0x0108 => algFeatures (eB e 0x38) (eB e 0x39)
  | 0x0105 | 0x0106 => 6 :: algFeatures (eB e 0x38) (eB e 0x39)
  | 0x0201 => [4]
  | 0x0202 => 3 :: algFeatures (eB e 0x38) (eB e 0x39)
  | 0x0501 =>
    (if eW e 0x48 != 0 || eW e 0x4C != 0 then [15] else []) ++ (if eH e 0x52 != 0xFFFF then [11] else []) ++
      (if eB e 0x50 != 0 then [13] else [])
  | 0x0502 => if eB e 0x38 = 2 then [10] else []
  | 0x0505 =>
    (if eW e 0x44 != 0 || eW e 0x48 != 0 then [15] else []) ++ (if eH e 0x3E != 0xFFFF then [11] else [])
  | 0x0507 => [7]
  | 0x0508 => [4]
  | 0x0509 => [10]
  | 0x0701 | 0x0702 => [11]
  | 0x0F01 => if v.slice = 0 then [] else [12]
  | _ => []

/-! ### Check 7: reserved fields (R48) -/

/-- The parts of an entry from 0x10 to 0x6F that its opcode uses: whole ranges, and octets of which only some bits are
defined. Addresses of operands of length 0 are not among them. -/
def usedFields (e : Bytes) : List (Nat × Nat) × List (Nat × Nat) :=
  let a := (0x10, 8)
  let b := (0x18, 8)
  let inp := if eInLen e = 0 then [(0x28, 4)] else [(0x20, 8), (0x28, 4)]
  let outp := if eOutLen e = 0 then [(0x2C, 4)] else [(0x2C, 4), (0x30, 8)]
  match eOp e with
  | 0x0101 => (a :: (0x38, 6) :: inp ++ outp, [])
  | 0x0102 => (a :: (0x38, 6) :: inp, [])
  | 0x0103 => ((0x38, 6) :: (0x40, 6) :: outp, [])
  | 0x0104 => (a :: b :: (0x38, 6) :: (0x40, 6) :: inp ++ outp, [])
  | 0x0105 => (a :: (0x38, 6) :: (0x40, 6) :: inp ++ outp, [])
  | 0x0106 => (a :: (0x38, 6) :: (0x40, 6) :: inp, [])
  | 0x0107 => (a :: (0x38, 6) :: inp ++ outp ++ (if bit (eB e 0x3B) 1 then [(0x40, 6)] else []), [])
  | 0x0108 => (a :: (0x38, 6) :: inp ++ outp, [])
  | 0x0201 => (a :: (0x38, 1) :: (0x3C, 4) :: inp ++ outp ++ (if bit (eB e 0x39) 1 then [(0x40, 8)] else []), [(0x39, 3)])
  | 0x0202 => ((0x38, 6) :: (0x40, 4) :: inp ++ outp, [(0x44, 1)])
  | 0x0301 | 0x0302 | 0x0303 | 0x0402 =>
    (a :: (0x38, 8) :: (0x40, nonceLen (symPar e)) :: (0x50, 6) :: (0x58, 4) :: inp ++ outp, [])
  | 0x0401 => ((0x38, 8) :: (0x50, 6) :: (0x58, 4) :: inp ++ outp, [])
  | 0x0403 => (a :: (0x38, 8) :: (0x50, 6) :: (0x58, 4) :: inp, [])
  | 0x0404 => (a :: (0x38, 7) :: (0x40, 6) :: inp, [])
  | 0x0501 => ((if eB e 0x38 = 2 then [b] else []) ++ (0x38, 25) :: (0x52, 2) :: inp, [(0x51, 1)])
  | 0x0502 => (a :: (if eB e 0x38 = 1 then [b] else []) ++ (0x38, 1) :: outp, [])
  | 0x0503 => ([a], [])
  | 0x0504 => (a :: outp, [])
  | 0x0505 => ([a, (0x38, 21)], [])
  | 0x0506 => ((0x3A, 2) :: (0x3E, 1) :: (0x40, 4) :: inp, [(0x51, 1)])
  | 0x0507 | 0x0508 => ((0x38, 2) :: inp ++ outp, [])
  | 0x0509 => (inp, [(0x3E, 0xFB), (0x51, 1)])
  | 0x0601 => (inp ++ outp, [(0x38, 1)])
  | 0x0701 => ((0x38, 2) :: inp ++ outp, [])
  | 0x0702 => ((0x38, 5) :: inp, [])
  | 0x0F01 => ((0x38, 8) :: (0x40, 4) :: outp, [(0x44, 1)])
  | _ => ([], [])

/-- The offset of the first octet that holds a bit R48 reserves. -/
def reservedAt (e : Bytes) : Option Nat :=
  let (full, part) := usedFields e
  ((List.range 0x60).map (· + 0x10)).find? fun o =>
    if full.any fun r => r.1 ≤ o && o < r.1 + r.2 then false
    else match part.find? fun p => p.1 = o with
      | some p => eB e o &&& (255 - p.2) != 0
      | none => eB e o != 0

/-! ### Lengths and contents of the opcodes of chapters 6, 7, 9 to 11 and 16 -/

/-- Octets of a key's material in the layout of Table 10.11. -/
def materialLen (v : SliceView) (ktype alg pset klen : Nat) : Nat :=
  if ktype = 3 then klen
  else match alg with
    | 1 | 3 => let d := curveDims v pset
               d.2 + 1 + 2 * d.1
    | 2 => if pset = 7 then 32 else 57
    | 4 => if pset = 9 then 32 else 56
    | 5 => 64 * pset + 32
    | 6 => 32
    | _ => 64

/-- The symmetric algorithms a secret may carry, SECRET among them (Table 8.1, R222). -/
def secretAlg (alg : Nat) : Bool := alg != 0 && (alg = 0x40 || [0x0301, 0x0303, 0x0402, 0x0404].any fun o => (symAlgs o).contains alg)

/-- Details 1 to 3 of KEY_IMPORT's check 13 (R230). -/
def importBad (v : SliceView) (e : Bytes) : Option Nat :=
  let ifmt := eB e 0x38
  let kt := eB e 0x39
  let alg := eB e 0x3A
  let pset := eB e 0x3B
  let klen := eH e 0x3C
  if (ifmt != 1 && ifmt != 2) || (kt != 1 && kt != 3) then some 1
  else if !(if kt = 1 then psetOk v alg pset else secretAlg alg && pset = 0) then some 2
  else if kt = 1 then (if klen != 0 then some 3 else none)
  else if !symKeyLenOk alg klen then some 3 else none

/-- Whether a rate limit and period go together (R230). -/
def rateBad (mx p : Nat) : Bool := (mx = 0) != (p = 0) || 16777215 < p

/-- PUBKEY_LOAD's check 13 (R232; the details are those of Table 5.4). -/
def pubLoadBad (v : SliceView) (e : Bytes) : Option Nat :=
  let alg := eB e 0x3A
  if alg = 0 || 7 < alg then some 1 else if !psetOk v alg (eB e 0x3B) then some 2 else none

/-- The hash octets of an RLD's link (R147). -/
def rldHashLen (rld : Bytes) : Nat := hashLen (eB rld 0x0F)

/-- Details of CHAIN_VERIFY's check 13 (R151). -/
def chainBad (v : SliceView) (e : Bytes) : Option Nat :=
  match v.rld (eB e 0x38) with
  | none => some 8
  | some r =>
    if loadedId (eB r 0x16) && (eB r 0x15 = 1) && (v.curve (eB r 0x16)).isNone then some 2
    else if eW e 0x3C = 0 || 1048576 < eW e 0x3C then some 9
    else none

/-- Octets of input before the records of a chain (R152): the inline key, then LINK_IN. -/
def chainHead (v : SliceView) (e r : Bytes) : Nat :=
  (if eKeyA e = 0 then pubLen v (eB r 0x15) (eB r 0x16) else 0) + (if bit (eB e 0x39) 0 then rldHashLen r else 0)

/-- Output octets of a batch (R144). -/
def batchOut (e : Bytes) : Nat :=
  let n := eW e 0x40
  (n + 63) / 64 * 8 + (if bit (eB e 0x44) 0 then 8 * n else 0)

/-- Details of BATCH_VERIFY's check 13 (R142). -/
def batchBad (v : SliceView) (e : Bytes) : Option Nat :=
  match pkBad v { pkPar 0x0102 e with noA := false } with
  | some d => some d
  | none => if eW e 0x40 = 0 || 4096 < eW e 0x40 then some 6 else none

/-- Details of CURVE_LOAD's and RLD_LOAD's check 13 (R124, R148), from the IDs that are loaded. -/
def loadBad (e : Bytes) (idOk loaded : Bool) : Option Nat :=
  let act := eB e 0x38
  if 1 < act then some 1
  else if !idOk || (act = 1 && !loaded) then some 2
  else if act = 0 && loaded then some 3
  else none

/-- The output octets of QUORUM_CHALLENGE (Table 11.4). -/
def challengeOut (e : Bytes) : Nat := if eB e 0x38 = 2 then 128 + eInLen e else 128

/-- Details of QUORUM_CHALLENGE's check 13 (R251). -/
def challengeBad (v : SliceView) (e : Bytes) : Option Nat :=
  let kind := eB e 0x38
  let g := eB e 0x39
  if kind = 0 || 4 < kind then some 1
  else if (kind = 4 && (v.slice != 0 || g != 0)) || (kind = 2 && g != 0) ||
      (g = 0 && kind != 4 && kind != 2 && v.slice != 0) then some 2
  else none

/-- Whether IN_LEN and OUT_LEN lie in given ranges: checks 8 and 9. -/
def lens (e : Bytes) (i o : Nat × Nat) : Bool × Bool :=
  (i.1 ≤ eInLen e && eInLen e ≤ i.2, o.1 ≤ eOutLen e && eOutLen e ≤ o.2)

/-- Checks 8 and 9 of an entry: whether IN_LEN and OUT_LEN are within the opcode's limits (R93, R96, R124, R142 to
R152, R165, R200, R230 to R236, R251, R255, R382). -/
def lengthsOk (v : SliceView) (e : Bytes) : Bool × Bool :=
  let none0 := (0, 0)
  let w32 := 0xFFFFFFFF
  match eOp e with
  | 0x0101 | 0x0102 | 0x0103 | 0x0104 | 0x0105 | 0x0106 | 0x0107 | 0x0108 =>
    let p := pkPar (eOp e) e
    match pkBad v p with
    | some _ => lens e (if p.op = 0x0103 then none0 else (0, 73728)) (0, 65536)
    | none => lens e (pkInRange v p) (match pkOutSize v p with | some n => (n, 65536) | none => none0)
  | 0x0201 =>
    match chainBad v e, v.rld (eB e 0x38) with
    | none, some r =>
      let h := chainHead v e r
      let n := eW e 0x3C
      lens e (h + n * eH r 6, h + n * eH r 4) (rldHashLen r, 65536)
    | _, _ => lens e (16, w32) (0, 65536)
  | 0x0202 =>
    match batchBad v e with
    | some 6 => lens e (32, 131072) (0, 65536)
    | some _ => if eW e 0x40 = 0 || 4096 < eW e 0x40 then lens e (32, 131072) (0, 65536)
                else lens e (32 * eW e 0x40, 32 * eW e 0x40) (batchOut e, 65536)
    | none => lens e (32 * eW e 0x40, 32 * eW e 0x40) (batchOut e, 65536)
  | 0x0301 | 0x0302 | 0x0303 | 0x0401 | 0x0402 | 0x0403 =>
    let p := symPar e
    if symWide v p then (true, true) else (symInOk p, symOutOk p)
  | 0x0404 =>
    match kdfBad (kdfPar e) with
    | some 1 | some 2 => (true, true)
    | _ => lens e (eH e 0x3A, 65536) none0
  | 0x0501 =>
    match importBad v e with
    | some _ => lens e (0, 65544) none0
    | none =>
      let n := materialLen v (eB e 0x39) (eB e 0x3A) (eB e 0x3B) (eH e 0x3C)
      let m := if eB e 0x38 = 2 then (n + 7) / 8 * 8 + 8 else n
      lens e (m, m) none0
  | 0x0502 => lens e none0 (1, 65536)
  | 0x0504 => lens e none0 (64, w32)
  | 0x0506 =>
    match pubLoadBad v e with
    | some _ => lens e (0, 73728) none0
    | none => let n := pubLen v (eB e 0x3A) (eB e 0x3B)
              lens e (n, n) none0
  | 0x0507 =>
    let o := eOutLen e = 0 || eOutLen e = 32
    if eB e 0x38 = 0 then (184 ≤ eInLen e && eInLen e ≤ 496, o)
    else if eB e 0x38 = 1 then (eInLen e = 0, eOutLen e = 0)
    else (eInLen e ≤ 496, o)
  | 0x0508 =>
    let o := eOutLen e = 0 || eOutLen e = 32
    if eB e 0x38 = 0 then (eInLen e = 64, o)
    else if eB e 0x38 = 1 then (eInLen e = 0, eOutLen e = 0)
    else (eInLen e ≤ 64, o)
  | 0x0509 => lens e (80, 65615) none0
  | 0x0601 => lens e (0, 256) (1, 65536)
  | 0x0701 => lens e (32, 131152) (if eB e 0x38 = 0 || 4 < eB e 0x38 then (0, 65536) else (challengeOut e, 65536))
  | 0x0702 =>
    let n := eB e 0x3C
    (1 ≤ n && n ≤ 16 && 32 + n * 8 ≤ eInLen e && eInLen e ≤ 32 + 40 * 255 + n * 131080, eOutLen e = 0)
  | 0x0F01 => lens e none0 (1064, 65536)
  | _ => lens e none0 none0

/-- Check 13: the first detail of BAD_PARAM that holds. -/
def paramBad (v : SliceView) (e : Bytes) : Option Nat :=
  match eOp e with
  | 0x0101 | 0x0102 | 0x0103 | 0x0104 | 0x0105 | 0x0106 | 0x0107 | 0x0108 => pkBad v (pkPar (eOp e) e)
  | 0x0201 => chainBad v e
  | 0x0202 => batchBad v e
  | 0x0301 | 0x0302 | 0x0303 | 0x0401 | 0x0402 | 0x0403 => symBad v (symPar e)
  | 0x0404 => kdfBad (kdfPar e)
  | 0x0501 =>
    match importBad v e with
    | some d => some d
    | none => if rateBad (eW e 0x48) (eW e 0x4C) then some 7 else none
  | 0x0502 => if eB e 0x38 = 0 || 3 < eB e 0x38 then some 1 else none
  | 0x0505 =>
    if 2 < eB e 0x3D || 1 < eB e 0x4C then some 1 else if 16777215 < eW e 0x48 then some 7 else none
  | 0x0506 => pubLoadBad v e
  | 0x0507 => loadBad e (loadedId (eB e 0x39)) (v.curve (eB e 0x39)).isSome
  | 0x0508 => loadBad e (eB e 0x39 ≤ 15) (v.rld (eB e 0x39)).isSome
  | 0x0701 => challengeBad v e
  | 0x0F01 => if eW e 0x40 = 0 || 4096 < eW e 0x40 then some 1 else none
  | _ => none

/-- Whether an opcode permits in-place work (R164). -/
def inPlaceOk (op : Nat) : Bool := op = 0x0301 || op = 0x0302 || op = 0x0303

/-- Check 12: the ranges overlap in a way the opcode does not permit. -/
def overlapBad (e : Bytes) : Bool :=
  eInLen e != 0 && eOutLen e != 0 && eInAddr e < eOutAddr e + eOutLen e && eOutAddr e < eInAddr e + eInLen e &&
    !(eInAddr e = eOutAddr e && inPlaceOk (eOp e))

/-- The entry checker: the code and detail of the first check of Table 3.5 that fails. `addr` is false for a teller's
operation, whose operands have no addresses (R188). `member` says that this is slice 0 of a cluster member (R288). -/
def entryCheck (addr member : Bool) (v : SliceView) (e : Bytes) : Option (Nat × Nat) :=
  if eFmt e != 1 then some (cBadVersion, eFmt e)
  else if eCtl e / 8 % 32 != 0 then some (cReserved, 0)
  else if eStatus e != 0 then some (cReserved, 4)
  else if (opFifo (eOp e)).isNone then some (cBadOpcode, 0)
  else if member && v.slice = 0 && eOp e != 0x0F00 && eOp e != 0x0F01 then some (cForbids, 0x11)
  else match (opFeatures v e).find? fun b => !v.feat b with
    | some b => some (cFeature, b)
    | none =>
      if eFence e && !v.feat 2 then some (cFeature, 2)
      else match reservedAt e with
        | some o => some (cReserved, o)
        | none =>
          if !(lengthsOk v e).1 then some (cBadLength, 1)
          else if !(lengthsOk v e).2 then some (cBadLength, 2)
          else if addr && 2 ^ 64 < eInAddr e + eInLen e then some (cBadAddr, 1)
          else if addr && 2 ^ 64 < eOutAddr e + eOutLen e then some (cBadAddr, 2)
          else if addr && overlapBad e then some (cBadAddr, 3)
          else match paramBad v e with
            | some d => some (cBadParam, d)
            | none => none

/-! ### What the checker sees of a slice -/

/-- The curve visible to a slice under an ID, with its pool slot (R120). -/
def State.curveOf (s : State) (sl id : Nat) : Option (Nat × Curve) :=
  s.eng.curves.find? fun p => p.2.visible && p.2.slice = sl && p.2.id = id

/-- The RLD visible to a slice under an ID, with its pool slot (R147). -/
def State.rldOf (s : State) (sl id : Nat) : Option (Nat × Rld) :=
  s.eng.rlds.find? fun p => p.2.visible && p.2.slice = sl && p.2.id = id

/-- Field and order octets of a curve parameter block (R123). -/
def blockDims (b : Bytes) : Nat × Nat := ((eH b 4 + 7) / 8, (eH b 6 + 7) / 8)

/-- A slice as the entry checker sees it. -/
def State.view (s : State) (sl : Nat) : SliceView :=
  { slice := sl, feat := fun b => (s.slice sl).feat b,
    curve := fun id => (s.curveOf sl id).map fun p => blockDims p.2.block,
    rld := fun id => (s.rldOf sl id).map fun p => p.2.body }

/-- The pool slots of the curves that an entry names at its check (R129). -/
def State.namedCurves (s : State) (sl : Nat) (e : Bytes) : List Nat :=
  let on := fun (alg pset : Nat) => if alg = 1 || alg = 3 then pset else 0
  let id := match eOp e with
    | 0x0501 | 0x0506 => on (eB e 0x3A) (eB e 0x3B)
    | 0x0201 => match s.rldOf sl (eB e 0x38) with | some p => on (eB p.2.body 0x15) (eB p.2.body 0x16) | none => 0
    | 0x0507 | 0x0508 => 0
    | _ => match opFifo (eOp e) with
      | some .pk | some .bulk => on (eB e 0x38) (eB e 0x39)
      | _ => 0
  match s.curveOf sl id with
  | some p => [p.1]
  | none => []

/-- The pool slots of the RLDs that an entry names at its check (R150). -/
def State.namedRlds (s : State) (sl : Nat) (e : Bytes) : List Nat :=
  if eOp e = 0x0201 then match s.rldOf sl (eB e 0x38) with | some p => [p.1] | none => [] else []

/-- The slice as a job that has passed the checker sees it: the curves and RLDs it named then (R129, R150). -/
def State.jobView (s : State) (j : Job) : SliceView :=
  { s.view j.slice with
    curve := fun id => match j.remote with
      | some r => if r.curve.isEmpty then none else some (blockDims r.curve)
      | none =>
      (j.curveSlots.findSome? fun n => (NMap.find s.eng.curves n).bind fun c => if c.id = id then some (blockDims c.block) else none),
    rld := fun id =>
      (j.rldSlots.findSome? fun n => (NMap.find s.eng.rlds n).bind fun r => if r.id = id then some r.body else none) }

end Sys2Proof.Machine
end

