-- ==== Sys2Proof/Machine/ClusterOps.lean ====
section
/-! DEFINITION. Zentulink and the cluster as every family meets them (chapter 13): places, paths, frames, lost work. -/
namespace Sys2Proof.Machine
open Sys2Proof

/-! ### Topology and paths (R290, R291) -/

/-- The member that Table 13.1 puts at the other end of a member's port. -/
def neighbour (topo : Nat) (ids : List Nat) (i port : Nat) : Option Nat :=
  let ok := fun (n : Nat) => if ids.contains n then some n else none
  let last := ids.length - 1
  let k := if topo = 3 then 4 else 8
  let x := i % k
  let y := i / k
  match topo, port with
  | 1, 0 => if i = 0 then none else ok (i - 1)
  | 1, 1 => ok (i + 1)
  | 2, 0 => ok (if i = 0 then last else i - 1)
  | 2, 1 => ok (if i = last then 0 else i + 1)
  | 3, 0 | 4, 0 => ok (y * k + (x + 1) % k)
  | 3, 1 | 4, 1 => ok (y * k + (x + k - 1) % k)
  | 3, 2 | 4, 2 => ok ((y + 1) % k * k + x)
  | 3, 3 | 4, 3 => ok ((y + k - 1) % k * k + x)
  | _, _ => none

/-- The port of the other end of a cable (Table 13.1). -/
def farPort (p : Nat) : Nat := match p with | 0 => 1 | 1 => 0 | 2 => 3 | _ => 2

/-- Whether one of this unit's own ports carries frames to a member. -/
def State.ownLink (s : State) (p n : Nat) : Bool := (s.zlp p).up && (s.zlp p).rostered && (s.zlp p).peer = n

/-- A hop from a member by a port, where the link is UP: this unit's own links by their state, the others as the members at
either end last reported them (R291). -/
def State.hop (s : State) (topo : Nat) (ids : List Nat) (i p : Nat) : Option Nat :=
  match neighbour topo ids i p with
  | none => none
  | some n =>
    let up := if i = s.clu.id then s.ownLink p n else if n = s.clu.id then s.ownLink (farPort p) i
      else (s.member i).links.getLsbD p || (s.member n).links.getLsbD (farPort p)
    if up then some n else none

/-- Shortest paths level by level: each entry a unit and the ports that lead to it; a level stands in the order of its paths'
ports, so that the first to reach a unit leaves by the lower-numbered port at the first differing hop (R291). By fuel. -/
def bfs (next : Nat → List (Nat × Nat)) : Nat → List (Nat × List Nat) → List (Nat × List Nat) → List (Nat × List Nat)
  | 0, _, seen => seen
  | f + 1, level, seen =>
    let step := fun (a : List (Nat × List Nat)) (x : Nat × List Nat) =>
      (next x.1).foldl (fun b n => if (seen ++ b).any fun y => y.1 = n.1 then b else b ++ [(n.1, x.2 ++ [n.2])]) a
    let found := level.foldl step []
    if found.isEmpty then seen else bfs next f found (seen ++ found)

/-- The units this unit reaches in a topology over a set of IDs, each with the ports of its path. -/
def State.pathsIn (s : State) (topo : Nat) (ids : List Nat) : List (Nat × List Nat) :=
  let me := s.clu.id
  bfs (fun i => (List.range 4).filterMap fun p => (s.hop topo ids i p).map fun n => (n, p)) 64 [(me, [])] [(me, [])]

/-- The paths over the roster. -/
def State.paths (s : State) : List (Nat × List Nat) := s.pathsIn s.clu.topo s.rosterIds

/-- The hops and the first port to a member, if a path leads there. -/
def State.path (s : State) (n : Nat) : Option (Nat × Nat) :=
  (s.paths.find? fun x => x.1 = n).map fun x => (x.2.length, x.2.headD 0)

/-- The port by which a frame to a member leaves: on the head along its path, on a member by the table in force. -/
def State.route (s : State) (n : Nat) : Option Nat :=
  match s.clu.role with
  | .head => (s.path n).bind fun x => if x.1 = 0 then none else some x.2
  | _ => NMap.find s.clu.table n

/-- A unit's forwarding table: on towards the units whose path leads through it, back towards the head for the others. -/
def tableOf (ps : List (Nat × List Nat)) (u : Nat) : List (Nat × Nat) :=
  match ps.find? fun x => x.1 = u with
  | none => []
  | some (_, pu) => ps.filterMap fun x =>
      if x.1 = u then none
      else if x.2.take pu.length = pu then x.2[pu.length]?.map fun p => (x.1, p)
      else pu.getLast?.map fun p => (x.1, farPort p)

/-! ### Work on a member (R309, Table 13.6) -/

/-- The jobs that run on a member. -/
def State.jobsOn (s : State) (n : Nat) : List Job :=
  s.jobs.filter fun j => j.phase = .bound &&
    match j.bnd with
    | some b => (match b.eng with | .member m => m.val = n | _ => false)
    | none => false

/-- Whether an item runs on a member. -/
def Item.onMember (i : Item) (n : Nat) : Bool := i.member = some n && i.out.isNone

/-- How many jobs and items stand on a member. -/
def State.placedOn (s : State) (n : Nat) : Nat :=
  (s.jobsOn n).length + (s.jobs.map fun j => (j.items.filter fun i => i.onMember n).length).sum

/-- A job on a lost member (Table 13.6): a public-only job is placed once more, others end with MEMBER_LOST. -/
def State.loseJob (s : State) (n : Nat) (j : Job) : State :=
  if !opSecret (eOp j.entry) then
    if j.member.isNone then
      { s with clu := { s.clu with jobsRetried := satAdd 32 s.clu.jobsRetried 1 } }.putJob
        { j with phase := .staged, member := some n } |>.hwmUp.bpNote
    else s.finish j { code := cMemberLost, detail := 2, result := s.stopRes j j.left } [] true
  else
    { s with clu := { s.clu with jobsLost := satAdd 32 s.clu.jobsLost 1 } }.finish j
      { code := cMemberLost, detail := 1, result := s.stopRes j j.left } [] true

/-- An item on a lost member (Table 13.6). -/
def State.loseItem (s : State) (n : Nat) (id : Nat) (i : Item) : State :=
  match s.job id with
  | none => s
  | some j =>
    let put := fun (x : Item) => s.putJob { j with items := j.items.map fun y => if y.idx = i.idx then x else y }
    if i.barred.isNone then
      let s1 := put { i with member := none, barred := some n }
      ({ s1 with
        clu := { s1.clu with jobsRetried := satAdd 32 s1.clu.jobsRetried 1 }
        eng := { s1.eng with itemQueue := (id, i.idx) :: s1.eng.itemQueue } }).hwmUp
    else put { i with member := none, out := some (cMemberLost, 2) }

/-- Every job and item on a member ends as Table 13.6 shows. -/
def State.loseWork (s : State) (n : Nat) : State :=
  let items := (s.jobs.map fun j => (j.items.filter fun i => i.onMember n).map fun i => (j.id, i)).flatten
  let s1 := (s.jobsOn n).foldl (fun a j => match a.job j.id with | some x => a.loseJob n x | none => a) s
  items.foldl (fun a x => a.loseItem n x.1 x.2) s1

/-! ### Links -/

/-- HOPS and PORT of every member as the paths now stand (R291); 0 where no path leads there. -/
def State.refreshPaths (s : State) : State :=
  if s.clu.role != .head then s
  else
    let ps := s.paths
    let put := fun (n : Nat) (m : Member) =>
      match ps.find? fun x => x.1 = n with
      | some x => { m with hops := x.2.length, port := x.2.headD 0 }
      | none => { m with hops := 0, port := 0 }
    { s with clu := { s.clu with members := NMap.mapV s.clu.members put } }

/-- Members that no path reaches lose the work placed on them (R309). -/
def State.cutOff (s : State) : State :=
  if s.clu.role != .head then s
  else s.rosterIds.foldl (fun a n => if n != a.clu.id && (a.path n).isNone && a.placedOn n != 0 then a.loseWork n else a) s

/-- The current roster as entries: members that are not leaving; under REPLACE a leaving member stands for its successor. -/
def State.roster (s : State) : List (Nat × Bytes) :=
  (s.clu.members.filter fun m => m.2.st != .leaving || !m.2.repl.isEmpty).map fun m =>
    (m.1, if m.2.repl.isEmpty then m.2.uid else m.2.repl)

/-- The octets of a roster, and of a unit's forwarding table after it (the layout is the model's own, R292). -/
def State.rosterOctets (s : State) (table : List (Nat × Nat)) : Bytes :=
  let r := s.roster
  toLE 4 s.clu.rosterVer ++ toLE 1 s.clu.topo ++ toLE 1 r.length ++ s.clu.headUid ++
    (r.map fun e => toLE 1 e.1 ++ e.2).flatten ++ toLE 1 table.length ++ (table.map fun e => toLE 1 e.1 ++ toLE 1 e.2).flatten

/-- The octets of an approval that the head forwards (R299). -/
def Proof.octets (p : Proof) : Bytes :=
  toLE 2 p.request.length ++ p.request ++ p.challenge ++ toLE 2 p.groupRec.length ++ p.groupRec ++ p.tokens.flatten

/-- A joining or returning unit and the head agree on the key under which key material passes between them (R295). -/
def State.agree (s : State) (n : Nat) : State :=
  if (NMap.find s.clu.transfer n).isSome then s
  else { s with clu := { s.clu with
    transfer := NMap.set s.clu.transfer n ((List.range 32).map (Config.transferKey (s.member n).uid)) } }

/-- The ROSTER frame to a member (R291, R299, R308): its forwarding table; to a unit that joins, with the approval; to one
whose roster is older, signed by the head's device-identity key. -/
def State.rosterTo (s : State) (ps : List (Nat × List Nat)) (n : Nat) : State :=
  let m := s.member n
  match ps.find? fun x => x.1 = n with
  | none => s
  | some x =>
    let b := s.rosterOctets (tableOf ps n)
    let send := fun (a : State) (msg : Bytes) => a.sendRaw (x.2.headD 0) 6 0 a.clu.id n msg
    match m.st with
    | .joining => send (s.agree n) (b ++ s.clu.proof.octets)
    | _ =>
      if m.ver = s.clu.rosterVer then send s b
      else if !s.cpReady then s.drawWait .rosters
      else
        let (sig, s1) := s.devSign b
        send (if m.st = .lost then s1.agree n else s1) (b ++ sig)

/-- The ports that carry frames. -/
def State.upPorts (s : State) : Nat := ((List.range 4).filter fun p => (s.zlp p).up).length

/-- The head recomputes the paths and sends each unit its forwarding table (R291); again where a link of its own dropped over
the sending (R294). By fuel: every round but the last loses a port. -/
def rerouteF : Nat → State → State
  | 0, s => s.refreshPaths
  | f + 1, s =>
    let s0 := s.refreshPaths
    let ps := s0.paths
    let s1 := s0.rosterIds.foldl (fun a n => if n = a.clu.id then a else a.rosterTo ps n) s0
    if s1.upPorts < s.upPorts then rerouteF f s1 else s1

/-- Paths and forwarding tables after a change of roster or of a link (R291). -/
def State.reroute (s : State) : State := if s.clu.role = .head then rerouteF 5 s else s

/-- A link leaves the state it is in; paths, tables and placed work follow (R291, R309). -/
def State.dropLink (s : State) (p : Nat) (st : LinkState) : State := ((s.linkDown p st).reroute).cutOff

/-- A message on a port; a link that ends its counter over it is followed by paths, tables and placed work. -/
def State.sendFrame (s : State) (p typ flags src dst : Nat) (msg : Bytes) : State :=
  let s1 := s.sendRaw p typ flags src dst msg
  if s1.upPorts < s.upPorts then s1.reroute.cutOff else s1

/-- A message to a member along its path; none is sent where no path leads there. -/
def State.toMember (s : State) (n typ : Nat) (msg : Bytes) : State :=
  match s.route n with
  | some p => s.sendFrame p typ 0 s.clu.id n msg
  | none => s

/-! ### KEYMOVE (R295) -/

/-- The octets of key material or of what concerns it on its way (the layout is the model's own, R292). -/
def moveOctets : KeyMove → Bytes
  | .replica h alg pset home res m =>
    toLE 1 1 ++ toLE 8 h.toNat ++ [alg, pset, home] ++ toLE 1 (b2n res) ++ toLE 2 m.length ++ m
  | .erase h => toLE 1 2 ++ toLE 8 h.toNat
  | .range h a b => toLE 1 3 ++ toLE 8 h.toNat ++ toLE 8 a.toNat ++ toLE 8 b.toNat
  | .askRange h => toLE 1 4 ++ toLE 8 h.toNat
  | .ended h => toLE 1 5 ++ toLE 8 h.toNat
  | .created j m => toLE 1 6 ++ toLE 8 j ++ toLE 2 m.length ++ m
  | .abandon => toLE 1 7
  | .versions l => toLE 1 8 ++ toLE 1 l.length ++ (l.map fun x => toLE 1 x.1.toNat ++ toLE 8 x.2.toNat).flatten

/-- A KEYMOVE payload, wrapped end to end under the transfer key (AES-KWP); none is sent without one. -/
def State.sendMove (s : State) (n : Nat) (k : KeyMove) : State :=
  match NMap.find s.clu.transfer n with
  | some key => s.toMember n 5 (kwpWrap key (moveOctets k))
  | none => s

/-! ### Replicas (R304, R306, R308) -/

/-- How many tiles of this unit read READY or BUSY (R303, R311). -/
def State.tilesUp (s : State) : Nat :=
  ((List.finRange 96).filter fun t => (s.hd (.pkt t)).st = .ready || (s.hd (.pkt t)).st = .busy).length

/-- The units that a replica takes on its member (R212, R306). -/
def Replica.units (r : Replica) : Nat := (24 + r.material.length + 127) / 128

/-- The units that replicas take here, of those that `f` picks. -/
def State.heldUnits (s : State) (f : Replica → Bool) : Nat := ((s.clu.held.filter fun p => f p.2).map fun p => p.2.units).sum

/-- The key of a key's place: slice and INDEX. -/
def keyPlace (sl index : Nat) : Nat := sl * 2 ^ 24 + index

/-- The place of a key's handle. -/
def KeyRec.place (k : KeyRec) : Nat := keyPlace (hSlice k.handle) (hIndex k.handle)

/-- The mask of a replication set; bit 0 is ignored. -/
def State.replMask (s : State) (n : Nat) : Nat := NMap.getD s.clu.replMask n 0

/-- Whether a member is to hold a key. -/
def State.inSet (s : State) (k : KeyRec) (n : Nat) : Bool := k.replSet != 0 && n != 0 && bit (s.replMask k.replSet) n

/-- Whether a member holds a committed replica of a key. -/
def State.hasReplica (s : State) (k : KeyRec) (n : Nat) : Bool := s.clu.replicas.contains (k.place, n)

/-- Whether a member holds every replica it is to hold; a key that waits for its group's approval is passed over (R307). -/
def State.synced (s : State) (n : Nat) : Bool :=
  s.ks.keys.all fun p =>
    let k := p.2
    !k.live || !s.inSet k n || s.hasReplica k n || (k.custody != 0xFFFF && !s.clu.rights.contains (k.handle, (s.member n).uid))

/-- The replica versions by set. -/
def State.replVersions (s : State) : List (BitVec 8 × BitVec 64) :=
  s.clu.replVer.map fun p => (BitVec.ofNat 8 p.1, BitVec.ofNat 64 p.2)

/-- A member that reads SERVING and holds what it is to hold learns the versions that hold (R308). -/
def State.tellVersions (s : State) (n : Nat) : State :=
  if s.clu.role = .head && n != 0 && (s.member n).st = .serving && s.synced n then s.sendMove n (.versions s.replVersions) else s

/-- A set's replica version steps, on the head; members that hold what the set then asks of them learn it (R308). -/
def State.bumpSet (s : State) (n : Nat) : State :=
  if s.clu.role = .head && n != 0 then
    s.rosterIds.foldl State.tellVersions
      { s with clu := { s.clu with replVer := NMap.set s.clu.replVer n ((NMap.getD s.clu.replVer n 0 + 1) % 2 ^ 64) } }
  else s

/-- The replicas of a place on members that `p` picks are erased: each is told by KEYMOVE, at its return where it cannot be reached now (R308); its INV ranges are abandoned (R304, R306). -/
def State.dropReplicas (s : State) (place handle : Nat) (p : Nat → Bool) : State :=
  let hit := fun (x : Nat × Nat) => x.1 = place && p x.2
  let gone := s.clu.replicas.filter hit
  let s1 : State :=
    { s with clu := { s.clu with
        replicas := s.clu.replicas.filter fun x => !hit x
        ranges := s.clu.ranges.filter fun r => !(r.1 = place && p r.2.member) } }
  gone.foldl (fun a x =>
    if (a.route x.2).isSome && (NMap.find a.clu.transfer x.2).isSome then a.sendMove x.2 (.erase (BitVec.ofNat 64 handle))
    else { a with clu := { a.clu with owed := a.clu.owed ++ [(x.2, handle)] } }) s1

end Sys2Proof.Machine
end

