-- ==== Sys2Proof/Machine/MemOps.lean ====
section
/-! DEFINITION. Device memory (chapter 14): the page-ownership table, the gates, lines as stored, what an access meets. -/
namespace Sys2Proof

/-! ### Accesses as masters make them (R314, R325) -/

/-- Whether an access can be made at its level (R314): secure cores run at levels 3 and 2, normal cores at 3, 1 and 0; the
other masters have no level. -/
def GateAccess.made (a : GateAccess) : Bool :=
  if a.master.val < 4 then 2 ≤ a.level.val else if a.master.val < 16 then a.level.val != 2 else a.level.val = 0

/-- Whether an access is a secure core's at level 2 or 3. -/
def GateAccess.secure (a : GateAccess) : Bool := a.master.val < 4 && 2 ≤ a.level.val

/-- Whether an access is a normal core's at a level. -/
def GateAccess.normal (a : GateAccess) (level : Nat) : Bool := 4 ≤ a.master.val && a.master.val < 16 && a.level.val = level

/-- Whether an access is a DMA or fetch engine's. -/
def GateAccess.engine (a : GateAccess) : Bool := 16 ≤ a.master.val && a.master.val < 48

/-- The location an access names. -/
def GateAccess.loc (a : GateAccess) : Nat := a.addr.toNat % 2 ^ 42

/-- The KeyID it names. -/
def GateAccess.key (a : GateAccess) : Nat := a.addr.toNat / 2 ^ 42

end Sys2Proof

namespace Sys2Proof.Machine
open Sys2Proof

/-! ### The page-ownership table (R319, R320, R333) -/

/-- The slice that holds a page of the staging pool, by runs of pages. -/
def stagingSlice (l : List (Nat × Nat × Nat)) (i : Nat) : Option Nat :=
  (l.find? fun r => r.1 ≤ i && i < r.1 + r.2.1).map fun r => r.2.2

/-- OWNER and SLICE of a page by what it serves (Table 14.4). -/
def State.potOwner (s : State) (page : Nat) : Nat × Nat :=
  match Config.pageUse page with
  | .free => (0, 0)
  | .warden => (1, 0)
  | .secure => (2, 0)
  | .deep g u => (if s.ks.quarantined.any fun q => q.1 = g.val * 256 + u.toNat / 4096 then 0xFF else 3, 0)
  | .pot => (4, 0)
  | .image _ => (5, 0)
  | .hypervisor => (8, 0)
  | .partition n => (0x10 + n.val, 0)
  | .dmaBuf => (0x31, 0)
  | .staging i => match stagingSlice s.mem.staging i.toNat with | some n => (0x30, n) | none => (0, 0)

/-- The KeyID of a unit of a deep-store segment: while it is compacted, units below the rewrite pointer stand under the new
KeyID, those above it under the old one (R241). -/
def State.deepKey (s : State) (seg unit : Nat) : Nat :=
  if s.ks.compBusy && !s.ks.compWait && seg = s.ks.compSeg && s.ks.compPtr ≤ unit then s.ks.compFreedOld
  else match s.ks.segs[seg]? with | some g => g.keyId | none => 0

/-- The KeyID that Table 14.8 gives a page's use, moved as rotations have moved it (R414); on a deep-store page that of the
unit `k` units into it. -/
def State.roleKey (s : State) (page k : Nat) : Nat :=
  let moved := fun (k : Nat) => s.mem.moves.foldl (fun k m => if k = m.1 then m.2 else k) k
  match Config.pageUse page with
  | .deep g u => s.deepKey g.val (u.toNat + k)
  | .hypervisor => moved 18
  | .partition n => moved (19 + n.val)
  | .dmaBuf => moved 51
  | .staging i => if (stagingSlice s.mem.staging i.toNat).isSome then moved 51 else moved 0
  | _ => moved 0

/-- How many pages DRAM has, as trained. -/
def State.dramPages (s : State) : Nat := (s.mem.ch0 + s.mem.ch1) * 2 ^ 18

/-- The place of a page in ascending order: DRAM's pages, then the retention SRAM's. -/
def State.pageIndex (s : State) (page : Nat) : Nat := if page < s.dramPages then page else s.dramPages + (page - 0x20000000)

/-- A rotation moves the pages below its frontier first (R414). -/
def State.rotKeyOf (s : State) (page : Nat) (e : PotEntry) : PotEntry :=
  if s.svc.rotBusy && s.mem.act.contains s.svc.rotNew && e.keyId = s.svc.rotKey && s.pageIndex page < s.svc.rotPage then
    { e with keyId := s.svc.rotNew }
  else e

/-- The POT entry of a page (R319) as the unit `k` units into it finds it: as set apart, else as the page's use gives it. -/
def State.potAt (s : State) (page k : Nat) : PotEntry :=
  s.rotKeyOf page (NMap.getD s.mem.pot page
    { owner := (s.potOwner page).1, slice := (s.potOwner page).2, keyId := if s.mem.keyIdMode then s.roleKey page k else 0 })

/-- A page's POT entry: a page that compaction is rewriting names the new KeyID once its last unit is done. -/
def State.potOf (s : State) (page : Nat) : PotEntry := s.potAt page 31

/-- The POT entry of a line's page, with the KeyID that the line stands under. -/
def State.potLine (s : State) (line : Nat) : PotEntry := s.potAt (line / 4096) (line % 4096 / 128)

/-! ### Lines as stored (R334) -/

/-- A KeyID's key set (R333): 64 octets of data keys, 32 of the tag key. -/
def State.keySet (s : State) (k : Nat) : Bytes :=
  (List.range 96).map (Config.memKeySet (NMap.getD s.mem.rekeyed k s.mem.keyDraw) k)

/-- A KeyID is keyed from drawn octets. -/
def State.keyed (s : State) (k : Nat) (draw : Bytes) : State :=
  { s with mem := { s.mem with
      rekeyed := NMap.set s.mem.rekeyed k draw, act := if s.mem.act.contains k then s.mem.act else s.mem.act ++ [k] } }

/-- Location bits [41:6] of a line concatenated with its KeyID. -/
def lineTweak (line k : Nat) : Nat := line / 64 * 64 + k

/-- The tag of a line: the first 64 bits of CMAC over bits [41:6], KeyID and ciphertext. -/
def lineTag (key : Bytes) (line k : Nat) (cipher : Bytes) : Bytes :=
  (cmac (key.drop 64) (toLE 6 (lineTweak line k) ++ cipher)).take 8

/-- A line's stored form under a KeyID. -/
def State.sealLine (s : State) (line k : Nat) (data : Bytes) : DramLine :=
  let key := s.keySet k
  let c := xtsUnit false (key.take 64) (toLE 16 (lineTweak line k)) data
  let t := lineTag key line k c
  { cipher := c, tag := t, check := (List.range 8).map (Config.rsCheck (c ++ t)) }

/-- A stored line's data, or nothing where its tag does not match, as that of a line written before a reset (R333). -/
def State.openLine (s : State) (line k : Nat) (d : DramLine) : Option Bytes :=
  let key := s.keySet k
  if !d.old && d.tag = lineTag key line k d.cipher then some (xtsUnit true (key.take 64) (toLE 16 (lineTweak line k)) d.cipher)
  else none

/-- How many of a burst's 40 symbols come back wrong. -/
def badSymbols (errs : Burst) : Nat :=
  ((List.range 40).filter fun i => errs.foldl (fun x e => if e.1.val = i then x ^^^ e.2 else x) (0 : BitVec 16) != 0).length

/-- A line is written whole: sealed under its page's KeyID, and off the poison list (R339). -/
def State.putLine (s : State) (line : Nat) (data : Bytes) : State :=
  { s with mem := { s.mem with
      poison := s.mem.poison.filter fun x => x != line / 64
      lines := NMap.set s.mem.lines (line / 64) (s.sealLine line (s.potLine line).keyId data) } }

/-- A line's data: what was written there, else octets the spec leaves open; nothing where the tag does not match. -/
def State.lineData (s : State) (line : Nat) (free : Bytes) : Option Bytes :=
  match NMap.find s.mem.lines (line / 64) with
  | some d => s.openLine line (s.potLine line).keyId d
  | none => some free

/-- Whether a line reads as poisoned: on the list, or on a POISONED page (R339). -/
def State.poisoned (s : State) (line : Nat) : Bool :=
  s.mem.poison.contains (line / 64) || s.mem.poisonPages.contains (line / 4096)

/-- A line is poisoned: it joins the list, or with the list full its whole page becomes POISONED (R339). -/
def State.poisonLine (s : State) (line : Nat) : State :=
  if s.poisoned line then s
  else if s.mem.poison.length < 1024 then { s with mem := { s.mem with poison := s.mem.poison ++ [line / 64] } }
  else
    let pg := line / 4096
    { s with mem := { s.mem with
        poison := s.mem.poison.filter fun l => l / 64 != pg
        poisonPages := s.mem.poisonPages ++ [pg]
        pot := NMap.set s.mem.pot pg { s.potOf pg with owner := 0xFE } } }

/-- An integrity failure at a line (R335, R336): counted, latched, poisoned, recorded at ALARM. -/
def State.lineFail (s : State) (line : Nat) : State :=
  let kid := (s.potLine line).keyId
  let s1 : State :=
    { s with mem := { s.mem with tagFail := satAdd 32 s.mem.tagFail 1, lastFail := line / 64 * 64, lastFailKey := kid } }
  (s1.poisonLine line).record 0x0802 4 0 (toLE 8 line ++ toLE 1 kid)

/-- Pages move to another KeyID (R335, R414): of the lines of pages from the `lo`-th up to the `hi`-th that stand under `old`, those that fail
their tag are counted, poisoned and recorded, `met` among them, and the rest are sealed anew under `new`. -/
def State.moveLines (s : State) (old new lo hi : Nat) (met : Option (BitVec 36)) : State :=
  let here := fun (n : Nat) => lo ≤ s.pageIndex (n / 64) && s.pageIndex (n / 64) < hi && (s.potLine (64 * n)).keyId = old && !s.poisoned (64 * n)
  let shut := (s.mem.lines.filter fun p => (s.openLine (64 * p.1) old p.2).isNone && here p.1).map Prod.fst
  let bad := match met with
    | some n => if shut.contains n.toNat || !here n.toNat then shut else shut ++ [n.toNat]
    | none => shut
  let s1 := bad.foldl (fun (a : State) n => a.lineFail (64 * n)) s
  let again := fun (n : Nat) (d : DramLine) =>
    if bad.contains n || !here n then d
    else match s.openLine (64 * n) old d with
      | some data => s.sealLine (64 * n) new data
      | none => d
  { s1 with mem := { s1.mem with lines := NMap.mapV s1.mem.lines again } }

/-- Every POT entry that names a KeyID names another from now on (R414). -/
def State.moveKey (s : State) (old new : Nat) : State :=
  { s with mem := { s.mem with
      pot := NMap.mapV s.mem.pot fun _ e => if e.keyId = old then { e with keyId := new } else e
      moves := s.mem.moves ++ [(old, new)] } }

/-- Lines are written with zeros under their pages' entries, as full lines, which frees their places of the poison list (R321,
R339); of lines that no access wrote nothing is held. -/
def State.zeroLines (s : State) (hit : Nat → Bool) : State :=
  { s with mem := { s.mem with
      poison := s.mem.poison.filter fun n => !hit n
      lines := NMap.mapV s.mem.lines fun n d => if hit n then s.sealLine (64 * n) (s.potLine (64 * n)).keyId (zeros 64) else d } }

/-- What R321 leaves of the pages whose owner or slice a command changes, from the state before it: zeros under the new
entry. -/
def State.reowned (t s : State) : State :=
  t.zeroLines fun n =>
    (s.potOf (n / 64)).owner != (t.potOf (n / 64)).owner || (s.potOf (n / 64)).slice != (t.potOf (n / 64)).slice

/-! ### Staging pages (R268, R321) -/

/-- The free runs of the staging pool below the runs held, from a page on. -/
def freeRuns : List (Nat × Nat × Nat) → Nat → List (Nat × Nat)
  | [], lo => [(lo, 262144 - lo)]
  | r :: l, lo => (if lo < r.1 then [(lo, r.1 - lo)] else []) ++ freeRuns l (Nat.max lo (r.1 + r.2.1))

/-- The first `n` pages of runs. -/
def takeRuns : List (Nat × Nat) → Nat → List (Nat × Nat)
  | [], _ => []
  | r :: l, n => if n = 0 then [] else (r.1, Nat.min r.2 n) :: takeRuns l (n - r.2)

/-- A run put in its place. -/
def putRun (x : Nat × Nat × Nat) : List (Nat × Nat × Nat) → List (Nat × Nat × Nat)
  | [] => [x]
  | r :: l => if x.1 < r.1 then x :: r :: l else r :: putRun x l

/-- A slice comes to hold `want` staging pages: the lowest of its own, then the lowest free ones (which is the model's choice);
no page changes owner but by R321. -/
def State.stagingTo (s : State) (n want : Nat) : State :=
  let l := s.mem.staging
  let own := (l.filter fun r => r.2.2 = n).map fun r => (r.1, r.2.1)
  let have_ := (own.map Prod.snd).sum
  let kept := if want ≤ have_ then takeRuns own want else own ++ takeRuns (freeRuns l 0) (want - have_)
  let runs := kept.foldl (fun a r => putRun (r.1, r.2, n) a) (l.filter fun r => r.2.2 != n)
  if runs = l then s else ({ s with mem := { s.mem with staging := runs } } : State).reowned s

/-! ### The gates (R314 to R316, R320, R325 to R328) -/

/-- Whether a location lies in a sealed range (Table 14.2): the Vault, the hot table, the tally slots, the key path. -/
def sealedAt (l : Nat) : Bool :=
  let r := fun (lo n : Nat) => lo ≤ l && l < lo + n
  r 0x30000000000 0x10000 || r 0x30100000000 0x400000 || r 0x30200000000 0x100000 || r 0x30300000000 0x100000000

/-- Whether the POT governs a location: DRAM as trained, or the retention SRAM. -/
def State.potGoverns (s : State) (l : Nat) : Bool :=
  l < (s.mem.ch0 + s.mem.ch1) * 2 ^ 30 || (0x20000000000 ≤ l && l < 0x20002000000)

/-- Whether a location is one of the other on-chip ranges of Table 14.2. -/
def onChipAt (l : Nat) : Bool :=
  let r := fun (lo n : Nat) => lo ≤ l && l < lo + n
  r 0x20100000000 0x40000 || r 0x20200000000 0x800000 || r 0x3F000000000 0x1000000

/-- Whether an MPU entry covers an address, its levels apart (R327). -/
def MpuEntry.covers (e : MpuEntry) (a : Nat) : Bool :=
  e.valid &&
    if e.keyIdAny then e.base % 2 ^ 42 ≤ a % 2 ^ 42 && a % 2 ^ 42 ≤ e.limit % 2 ^ 42 + 0xFFF
    else e.base ≤ a && a ≤ e.limit + 0xFFF

/-- Whether an MPU entry matches an access: a core's level must be set in LEVELS (R327). -/
def MpuEntry.matches (e : MpuEntry) (a : GateAccess) : Bool :=
  e.covers a.addr.toNat && (16 ≤ a.master.val || bit e.levels a.level.val)

/-- The entry that decides an access: the lowest-numbered match (R327). -/
def Mpu.decides (u : Mpu) (a : GateAccess) : Option MpuEntry := (u.ent.find? fun p => p.2.matches a).map Prod.snd

/-- Whether an entry permits an access (R327): X is honoured on cores only. -/
def MpuEntry.permits (e : MpuEntry) (a : GateAccess) : Bool :=
  match a.kind with
  | .read => e.r
  | .write => e.w
  | .fetch => e.x && a.master.val < 16

/-- Whether a page's POT entry admits an access (Table 14.4, R320). An image page serves levels 0 and 1 of its class's cores,
which the normal world alone has (R314). -/
def State.potAdmits (s : State) (a : GateAccess) : Bool :=
  let e := s.potLine a.loc
  a.key = e.keyId &&
    (if e.owner = 1 then a.secure && a.level.val = 3
     else if e.owner = 2 then a.secure
     else if e.owner = 5 then
       (if a.kind = .write then a.secure else Config.pageUse (a.loc / 4096) = .image true && (a.normal 0 || a.normal 1))
     else if e.owner = 8 then a.normal 1
     else if e.owner = 0x30 then a.secure || (a.engine && a.slice.val = e.slice)
     else if e.owner = 0x31 then a.engine || a.normal 1
     else if 0x10 ≤ e.owner && e.owner < 0x30 then a.normal 0 && a.part.map Fin.val = some (e.owner - 0x10)
     else false)

/-- An MPU. -/
def State.mpuOf (s : State) (m : Nat) : Mpu := NMap.getD s.mpu m {}

/-- The first gate that refuses an access, by Table 14.6's cause (R325). A debug grant past its end opens nothing. -/
def State.gateCause (s : State) (a : GateAccess) : Option Nat :=
  let u := s.mpuOf a.master.val
  if sealedAt a.loc then (if !a.secure then some 2 else if a.key != 0 then some 0 else none)
  else if !s.potGoverns a.loc && (!onChipAt a.loc || a.key != 0) then some 0
  else match (if a.master = 48 && s.grantOver then none else u.decides a) with
    | none => some (if u.ent.any (fun p => p.2.covers a.addr.toNat) && !(a.master = 48 && s.grantOver) then 1 else 0)
    | some e =>
      if !e.permits a then some 1
      else if s.potGoverns a.loc && !s.potAdmits a then some 3
      else none

/-- A denial at a gate (R328): counted, the first latched and recorded at ALARM. -/
def State.deny (s : State) (m : Nat) (write : Bool) (cause level addr : Nat) : State :=
  let u := NMap.getD s.mpu m {}
  let first := !u.denyValid
  let u1 : Mpu :=
    if first then
      { u with
        denyCnt := satAdd 32 u.denyCnt 1, denyAddr := addr, denyValid := true, denyWrite := write, denyCause := cause
        denyLevel := level }
    else { u with denyCnt := satAdd 32 u.denyCnt 1 }
  let s1 : State :=
    { s with
      mpu := NMap.set s.mpu m u1
      mem := if cause = 3 then { s.mem with potDeny := satAdd 32 s.mem.potDeny 1 } else s.mem }
  if first then s1.record 0x0801 4 (srcMpu m) (toLE 1 m ++ toLE 8 addr ++ toLE 1 cause) else s1

/-! ### Accesses (R325, R335, R336, R340) -/

/-- How an access ends: with the octets it reads, at a gate, or in the inline engine with R335's detail. -/
inductive AccessEnd where
  | served (data : Bytes)
  | denied (cause : Nat)
  | failed (detail : Nat)
  deriving DecidableEq, Repr

/-- The lines that `n` octets from location `l` lie on: each line's location, the first octet there, how many. -/
def linePieces (l n : Nat) : List (Nat × Nat × Nat) :=
  (List.range ((l % 64 + n + 63) / 64)).map fun i =>
    let b := (l / 64 + i) * 64
    let lo := Nat.max l b
    (b, lo - b, Nat.min (b + 64) (l + n) - lo)

/-- What stops a line's read (R335): poisoned before, more symbols wrong than the code corrects, or a tag that does not match;
else its data and, with symbols corrected, the count. -/
def State.readLine (s : State) (line : Nat) (errs : Burst) : State × (Nat ⊕ Bytes) :=
  if s.poisoned line then (s, .inl 2)
  else if 2 < badSymbols errs then (s.lineFail line, .inl 1)
  else
    let (f, s1) := if (NMap.find s.mem.lines (line / 64)).isSome then (zeros 64, s) else s.free 64
    match s.lineData line f with
    | none => (s.lineFail line, .inl 1)
    | some d => (if badSymbols errs = 0 then s1 else { s1 with mem := { s1.mem with ce := satAdd 32 s1.mem.ce 1 } }, .inr d)

/-- Octets written to a line from its octet `lo` on: a whole line needs no read; less is a read-modify-write, which a
poisoned line refuses and a failing read turns into a poisoned line (R336). -/
def State.writeLine (s : State) (line lo : Nat) (d : Bytes) (errs : Burst) : State × Bool :=
  if d.length = 64 then (s.putLine line d, true)
  else match s.readLine line errs with
    | (s1, .inl _) => (s1, false)
    | (s1, .inr old) => (s1.putLine line (old.take lo ++ d ++ old.drop (lo + d.length)), true)

/-- Octets read through the inline engine: zeros for a line that fails, with the first failure's detail. -/
def State.load (s : State) (l n : Nat) (errs : Burst) : State × Bytes × Option Nat :=
  (linePieces l n).foldl (fun a p =>
    match a.1.readLine p.1 errs with
    | (t, .inr d) => (t, a.2.1 ++ Bytes.sub d p.2.1 p.2.2, a.2.2)
    | (t, .inl e) => (t, a.2.1 ++ zeros p.2.2, a.2.2.or (some e))) (s, [], none)

/-- Octets written through the inline engine, and whether every line took them. -/
def State.store (s : State) (l : Nat) (data : Bytes) (errs : Burst) : State × Bool :=
  (linePieces l data.length).foldl (fun a p =>
    let (t, ok) := a.1.writeLine p.1 p.2.1 (Bytes.sub data (p.1 + p.2.1 - l) p.2.2) errs
    (t, a.2 && ok)) (s, true)

/-- An access under a retired KeyID (R340): counted, the first since the reset recorded at ALARM. -/
def State.retiredAt (s : State) (l : Nat) : State :=
  let s1 : State := { s with mem := { s.mem with retired := satAdd 32 s.mem.retired 1, retiredNoted := true } }
  if s.mem.retiredNoted then s1 else s1.record 0x0803 4 0 (toLE 8 l ++ toLE 1 (s.potLine l).keyId)

/-- An access passes the gates and the inline engine (R325): octets `data` written, or as many read; what on-chip storage
holds is not described. No access crosses 4 KiB. -/
def State.access (s : State) (a : GateAccess) (data : Bytes) (errs : Burst) : State × AccessEnd :=
  let d := data.take (4096 - a.loc % 4096)
  match s.gateCause a with
  | some c => (s.deny a.master.val (a.kind = .write) c a.level.val a.addr.toNat, .denied c)
  | none =>
    if !s.potGoverns a.loc then
      (if a.kind = .write then (s, .served []) else let (f, s1) := s.free d.length; (s1, .served f))
    else if s.mem.keyIdMode && !s.mem.act.contains a.key then (s.retiredAt a.loc, .failed 4)
    else if a.kind = .write then
      match s.store a.loc d errs with
      | (s1, ok) => (s1, if ok then .served [] else .failed 3)
    else match s.load a.loc d.length errs with
      | (s1, o, none) => (s1, .served o)
      | (s1, _, some e) => (s1, .failed e)

/-- The code and detail that an access ends a job with, if any (R328, R335, R336). -/
def AccessEnd.bad : AccessEnd → Option (Nat × Nat)
  | .served _ => none
  | .denied _ => some (cAborted, 0x30)
  | .failed d => some (cMemory, d)

/-- What an access to device memory leaves, and the code and detail it ends a job with, if any (R328, R335, R336). The
last component says whether a Ledger record was written for it. An access that no master can make changes nothing (R314). -/
def State.memAccess (s : State) : MemOutcome → State × Option (Nat × Nat) × Bool
  | .ok | .replayed => (s, none, false)
  | .corrected => ({ s with mem := { s.mem with ce := satAdd 32 s.mem.ce 1 } }, none, false)
  | .tagFail l =>
    if s.poisoned l then (s, some (cMemory, 2), false) else (s.lineFail l, some (cMemory, 1), true)
  | .poisonedLine _ => (s, some (cMemory, 2), false)
  | .partialWrite l => if s.poisoned l then (s, some (cMemory, 3), false) else (s.lineFail l, some (cMemory, 3), true)
  | .retiredKey l => (s.retiredAt l, some (cMemory, 4), !s.mem.retiredNoted)
  | .access a d errs =>
    if !a.made then (s, none, false)
    else match s.access a d errs with
      | (s1, .denied c) => (s1, (AccessEnd.denied c).bad, !(s.mpuOf a.master.val).denyValid)
      | (s1, .failed e) =>
        (s1, (AccessEnd.failed e).bad,
          if e = 4 then !s.mem.retiredNoted else s1.mem.poison != s.mem.poison || s1.mem.poisonPages != s.mem.poisonPages)
      | (s1, e) => (s1, e.bad, false)
  | .deepPort l errs =>
    if (s.potLine l).owner != 3 then
      ({ s with mem := { s.mem with potDeny := satAdd 32 s.mem.potDeny 1 } }, some (cAborted, 0x30), false)
    else match s.readLine l errs with
      | (s1, .inl e) => (s1, some (cMemory, e), e = 1)
      | (s1, .inr _) => (s1, none, false)

end Sys2Proof.Machine
end

