-- ==== Sys2Proof/Machine/KeyOps.lean ====
section
/-! DEFINITION. The key store's shared operations (chapter 10): places, units, attributes, reservation, creation, the archive. -/
namespace Sys2Proof.Machine
open Sys2Proof

/-! ### Handles and places (R212, R214, R215) -/

/-- A handle from its parts, with its check byte (R214). -/
def mkHandle (sl index gen : Nat) : Nat :=
  let v := sl * 2 ^ 44 + index * 2 ^ 20 + gen
  v * 256 + (crc8 (toBE 7 v)).toNat

/-- The live key at a place. -/
def State.keyAt (s : State) (sl index : Nat) : Option KeyRec :=
  match NMap.find s.ks.keys (keyPlace sl index) with
  | some k => if k.live then some k else none
  | none => none

/-- The key a handle names, rows 1 to 4 of Table 10.5 passing. -/
def State.resolve (s : State) (sl h : Nat) : Option KeyRec :=
  if crc8 ((toBE 8 h).take 7) = BitVec.ofNat 8 (hCheck h) && hSlice h = sl then
    match s.keyAt sl (hIndex h) with
    | some k => if hGen k.handle = hGen h then some k else none
    | none => none
  else none

/-- The slice of a key. -/
def KeyRec.slice (k : KeyRec) : Nat := hSlice k.handle

/-- Whether a key's home is DEEP (R219). -/
def KeyRec.deep (k : KeyRec) : Bool := k.persist % 4 = 1

/-- Whether a key carries the RESIDENT bit. -/
def KeyRec.resident (k : KeyRec) : Bool := bit k.persist 2

/-- A key's record replaced at its place. -/
def State.putKey (s : State) (k : KeyRec) : State := { s with ks := { s.ks with keys := NMap.set s.ks.keys k.place k } }

/-- Material octets of a key, as Table 10.2 counts them. -/
def materialSize (v : SliceView) (ktype alg pset klen : Nat) : Nat :=
  if ktype = 3 then klen
  else
    let pub := pubLen v alg pset
    let pair := ktype = 1
    match alg with
    | 1 | 3 => if pair then (curveDims v pset).2 + pub else pub
    | 2 | 4 => if pair then 2 * pub else pub
    | 5 => if pair then 112 * pset + 32 else pub
    | 6 => if pair then pub + 96 else pub
    | _ => if pair then pub + 96 else pub

/-- The units a key takes (R212). -/
def unitsOf (v : SliceView) (ktype alg pset klen : Nat) : Nat := (24 + materialSize v ktype alg pset klen + 127) / 128

/-- The segment that holds a deep INDEX of a slice: 256 blocks of 4,096 units a segment (R211, R269). -/
def State.segOf (s : State) (sl index : Nat) : Nat := (s.slice sl).alloc.deep.getD (index / 4096) 0 / 256

/-- What bound jobs hold in the key store. -/
def State.resvs (s : State) : List Reservation := s.jobs.filterMap fun j => j.bnd.bind fun b => b.resv

/-- The unit intervals taken in a slice: keys, and reservations of bound jobs. -/
def State.taken (s : State) (sl : Nat) : List (Nat × Nat) :=
  ((s.ks.keys.filter fun p => p.1 / 2 ^ 24 = sl).map fun p => (p.1 % 2 ^ 24, p.2.units)) ++
    (s.resvs.filter fun r => r.slice = sl && r.units != 0).map fun r => (r.index, r.units)

/-- The lowest place from `p` below `top` where `n` free units begin without crossing a block, by fuel (R215, R269). -/
def State.placeF (s : State) (sl n top : Nat) (deep : Bool) : Nat → Nat → Option Nat
  | 0, _ => none
  | f + 1, p =>
    if top < p + n then none
    else match (s.taken sl).find? fun t => t.1 < p + n && p < t.1 + t.2 with
      | some t => s.placeF sl n top deep f (t.1 + t.2)
      | none =>
        if deep && p / 4096 != (p + n - 1) / 4096 then s.placeF sl n top deep f ((p + n - 1) / 4096 * 4096)
        else some p

/-- The lowest free INDEX for a key of `n` units with a home, if the quota has room (R215). -/
def State.placeKey (s : State) (sl n : Nat) (deep : Bool) : Option Nat :=
  let a := (s.slice sl).alloc
  let fuel := (s.taken sl).length + a.deep.length + 2
  if deep then s.placeF sl n (4096 * a.deep.length) true fuel 0
  else s.placeF sl n (0xF00000 + a.hot) false fuel 0xF00000

/-- Tally slots a slice has in use: keys, open streams, reservations (R223, R173). -/
def State.tallyUsed (s : State) (sl : Nat) : Nat :=
  (s.ks.keys.filter fun p => p.1 / 2 ^ 24 = sl && p.2.tallied).length + (s.slice sl).streams.length +
    (s.resvs.filter fun r => r.slice = sl && r.tally).length

/-- Whether a slice has a tally slot free. -/
def State.tallyFree (s : State) (sl : Nat) : Bool := s.tallyUsed sl < (s.slice sl).alloc.tally

/-! ### Attributes (R218 to R223) -/

/-- Whether an algorithm's keys take an invocation counter with ENCRYPT (R223, Table 8.10). -/
def takesInv (alg usage : Nat) : Bool := bit usage 5 && [0x11, 0x12, 0x13, 0x21, 0x26].contains alg

/-- Whether a usage bit is allowed for a KTYPE and ALG (Table 10.7). -/
def usageAllowed (ktype alg b : Nat) : Bool :=
  let sig := alg = 1 || alg = 2 || alg = 5 || alg = 6
  let pk := ktype = 1 || ktype = 2
  let sym := [0x11, 0x12, 0x13, 0x21, 0x22, 0x23, 0x24, 0x25, 0x26].contains alg
  let mac := [0x31, 0x32, 0x33, 0x34].contains alg
  match b with
  | 0 => ktype = 1 && sig
  | 1 => pk && sig
  | 2 => (pk && (alg = 3 || alg = 4)) || (ktype = 3 && 0x40 ≤ alg && alg ≤ 0x46)
  | 3 => pk && alg = 7
  | 4 => ktype = 1 && alg = 7
  | 5 => (pk && alg = 5) || (ktype = 3 && sym)
  | 6 => (ktype = 1 && alg = 5) || (ktype = 3 && sym)
  | 7 | 8 => ktype = 3 && mac
  | 9 => ktype = 3 && [0x11, 0x12, 0x13, 0x21, 0x22, 0x26].contains alg
  | 10 | 11 => ktype = 3 && alg = 0x25
  | _ => false

/-- Whether a key can carry WARM (R111). -/
def canWarm (ktype alg pset : Nat) : Bool := (ktype = 1 || ktype = 2) && (alg = 1 || alg = 2) && 1 ≤ pset && pset ≤ 8

/-- Whether a custody group is a tenant group that the slice has defined (R248). -/
def State.ownGroup (s : State) (sl g : Nat) : Bool :=
  match NMap.find s.vault.groups g with
  | some r => g != 0 && r.slice = sl
  | none => false

/-- What the attributes of a key to be created break: the KEY_USAGE detail of R221. -/
def State.attrBad (s : State) (sl ktype alg pset usage persist export_ custody : Nat) (warm : Bool) : Option Nat :=
  let u := fun (b : Nat) => bit usage b
  if 2 ^ 12 ≤ usage || ((List.range 12).any fun b => u b && !usageAllowed ktype alg b) || (warm && !canWarm ktype alg pset) then
    some 0x11
  else if 8 ≤ persist || (persist % 4 != 1 && persist % 4 != 2) || (bit persist 2 && (s.slice sl).digest.all (· = 0)) then
    some 0x12
  else if (ktype = 2) != (export_ = 4) || 4 < export_ || (export_ = 2 && custody = 0xFFFF) then some 0x13
  else if ((u 10 || u 11) && (u 5 || u 6)) || (u 0 && u 6) then some 0x14
  else if custody != 0xFFFF && !s.ownGroup sl custody then some 0x16
  else none

/-! ### Warm tables (R111, R113) -/

/-- Octets of a warm table (Table 5.13). -/
def warmSize (pset : Nat) : Nat :=
  match pset with
  | 1 | 4 | 7 => 8192 | 2 | 5 => 12288 | 8 => 14336 | _ => 16384

/-- Warm-table memory in use in a quad, with what bound jobs hold there. -/
def State.warmUsed (s : State) (q : Nat) : Nat :=
  (s.ks.keys.map fun p => (p.2.warmQuad.toList ++ p.2.oldQuads).count q * warmSize p.2.pset).sum +
    (s.resvs.filterMap fun r => match r.warm with | some (a, n) => if a = q then some n else none | none => none).sum

/-- WARM keys of the unit, with those that bound jobs are about to make WARM (R111). -/
def State.warmKeys (s : State) : Nat :=
  (s.ks.keys.filter fun p => p.2.warm && p.2.live).length + (s.resvs.filter fun r => r.warm.isSome).length

/-- Whether a quad has a powered tile. -/
def State.quadOn (s : State) (q : Nat) : Bool :=
  (List.range 4).any fun i => if h : 4 * q + i < 96 then (s.hd (.pkt ⟨4 * q + i, h⟩)).st != .off else false

/-- Whether a quad's Keccak unit serves: powered, and not in FAULT after its self-test (R402). -/
def State.keccakOn (s : State) (q : Nat) : Bool := s.quadOn q && !s.eng.keccakBad.contains q

/-- Whether a tile serves: its page reads READY, BUSY or DRAINING. -/
def State.tileServes (s : State) (n : Nat) : Bool :=
  if h : n < 96 then (match (s.hd (.pkt ⟨n, h⟩)).st with | .ready | .busy | .draining => true | _ => false) else false

/-- The home quad for a table of `n` octets: most free memory, lowest number on a tie (R111); none with no room, or with
4,096 WARM keys already. -/
def State.homeQuad (s : State) (n : Nat) : Option Nat :=
  if 4096 ≤ s.warmKeys then none
  else (List.range 24).foldl (fun a q =>
    if s.quadOn q && s.warmUsed q + n ≤ 2097152 then
      match a with
      | some b => if s.warmUsed q < s.warmUsed b then some q else a
      | none => some q
    else a) none

/-- A key turns WARM: its table is to be built in its home quad (R111); a table it had that still serves stays (R113). -/
def KeyRec.warmIn (k : KeyRec) (quad : Nat) : KeyRec :=
  { k with warm := true, warmReady := false, warmQuad := some quad, oldQuads := k.warmQuad.toList ++ k.oldQuads, rebuild := false }

/-- A key is set WARM: its table is to be built in its home quad, or there is no room. -/
def State.warmSet (s : State) (k : KeyRec) : Option KeyRec := (s.homeQuad (warmSize k.pset)).map k.warmIn

/-! ### Reservation and creation (R99, R215, R223, R227) -/

/-- What a creation asks for. -/
structure NewKey where
  ktype : Nat
  alg : Nat
  pset : Nat
  klen : Nat := 0
  usage : Nat
  persist : Nat
  export_ : Nat
  custody : Nat := 0xFFFF
  replSet : Nat := 0
  tallyMax : Nat := 0
  rateMax : Nat := 0
  ratePeriod : Nat := 0
  warm : Bool := false
  deriving DecidableEq, Repr

/-- Whether the key to be created holds a tally slot (R223). -/
def NewKey.tally (n : NewKey) : Bool := takesInv n.alg n.usage || n.tallyMax != 0 || n.rateMax != 0

/-- What a refusal at binding says: code, detail, and whether a Ledger record was written for it. -/
structure Refuse where
  code : Nat
  detail : Nat
  recorded : Bool := false
  deriving DecidableEq, Repr

/-- Archive units in use on a page, with what bound jobs hold there. -/
def State.pageUsed (s : State) (p : Nat) : Nat :=
  ((s.ks.archive.filter fun q => q.2.page = p).map fun q => q.2.key.units).sum +
    ((s.resvs.filter fun r => r.arch = some p).map Reservation.units).sum

/-- The archive page with room for a record of `n` units: the lowest-numbered (R244). -/
def State.archPage (s : State) (n : Nat) : Option Nat := (List.range 256).find? fun p => s.pageUsed p + n ≤ 256

/-- A place is reserved for a key (R99, R223, R227) with all that the key will take, or the job is refused: KEY_CAPACITY, or
COUNTER_EXHAUSTED with its WARNING at the first refusal after each reset. What other bound jobs hold is taken. -/
def State.reserve (s : State) (sl : Nat) (n : NewKey) (units : Nat) : State × (Refuse ⊕ Reservation) :=
  let deep := n.persist % 4 = 1
  let home := if n.warm then s.homeQuad (warmSize n.pset) else none
  let page := if bit n.persist 2 then s.archPage units else none
  match s.placeKey sl units deep with
  | none => (s, .inl { code := cCapacity, detail := if deep then 2 else 1 })
  | some i =>
    if n.tally && !s.tallyFree sl then (s, .inl { code := cCapacity, detail := 0x43 })
    else if n.warm && home.isNone then (s, .inl { code := cCapacity, detail := 0x45 })
    else if bit n.persist 2 && page.isNone then (s, .inl { code := cCapacity, detail := if deep then 2 else 1 })
    else if takesInv n.alg n.usage && 2 ^ 26 ≤ s.vault.fixedCtr + (s.resvs.filter Reservation.inv).length then
      if s.ks.fixedExhaustNoted then (s, .inl { code := cCounter, detail := 0x10 })
      else (({ s with ks := { s.ks with fixedExhaustNoted := true } }).record 0x0409 3 (srcSlice sl) (toLE 2 sl),
            .inl { code := cCounter, detail := 0x10, recorded := true })
    else
      (s, .inr
        { slice := sl, index := i, units := units, tally := n.tally, inv := takesInv n.alg n.usage
          warm := home.map fun q => (q, warmSize n.pset), arch := page })

/-! ### The resident archive (R244) -/

/-- What a record of the archive seals: slice, handle, tenant digest, epoch, ceilings, and the key's own record. -/
def ArchRec.image (a : ArchRec) : Bytes :=
  toLE 2 a.slice ++ toLE 8 a.key.handle ++ a.digest ++ toLE 8 a.epoch ++ toLE 8 a.key.invCeil ++ toLE 4 a.key.usedCeil ++
    attrRecord a.key ++ a.key.material ++ a.key.pub

/-- The octets of a page: 192 for each unit of its records, in handle order; zeros where no record stands. -/
def pageOctets (root : Bytes) (recs : NMap ArchRec) (page : Nat) : Bytes :=
  Bytes.fit ((recs.filter fun p => p.2.page = page).map fun p =>
    ((List.range p.2.key.units).map fun u => octets 192 (Config.archSeal root p.2.image u)).flatten).flatten (256 * 192)

/-- A copy's new page digests, once the pages named stand in it. -/
def State.pageNote (s : State) (recs : NMap ArchRec) (pages : List Nat) (d : NMap Bytes) : NMap Bytes :=
  pages.foldl (fun m p => NMap.set m p (sha3_256 (pageOctets (Bytes.fit s.vault.storageRoot 32) recs p))) d

/-- Steps 1 and 2 of R244: copy A is written and its pages' digests are recorded. -/
def State.archA (s : State) (pages : List Nat) (recs : NMap ArchRec) : State :=
  { s with ks := { s.ks with archive := recs }, vault := { s.vault with archA := s.pageNote recs pages s.vault.archA } }

/-- Steps 3 and 4 of R244: copy B likewise. -/
def State.archB (s : State) (pages : List Nat) (recs : NMap ArchRec) : State :=
  { s with ks := { s.ks with archiveB := recs }, vault := { s.vault with archB := s.pageNote recs pages s.vault.archB } }

/-- Pages of the archive are updated in both copies, in the order of R244. -/
def State.archSet (s : State) (pages : List Nat) (f : NMap ArchRec → NMap ArchRec) : State :=
  let s1 := s.archA pages (f s.ks.archive)
  s1.archB pages (f s1.ks.archiveB)

/-- The records that `p` picks, by handle, are erased from both copies. -/
def State.archErase (s : State) (p : Nat × ArchRec → Bool) : State :=
  s.archSet ((s.ks.archive.filter p).map fun x => x.2.page).eraseDups fun m => m.filter fun x => !p x

/-- A RESIDENT key's record is written to both copies of the archive, with the slice's digest and the epoch: on the page it
has, or for a new key on the page reserved for it. -/
def State.archWrite (s : State) (k : KeyRec) (fresh : Option Nat) : State :=
  if !k.resident then s
  else
    let page := match NMap.find s.ks.archive k.handle with
      | some a => some a.page
      | none => fresh
    match page with
    | none => s
    | some n =>
      s.archSet [n] fun m => NMap.set m k.handle
        { slice := k.slice, digest := (s.slice k.slice).digest, epoch := s.vault.epoch, key := k, page := n }

/-- A key is created at its reserved place (R99, R215, R227): it takes the slice's GEN, a fixed field where it takes an
invocation counter, `dig` where it lies on a loaded curve, its home quad where it is WARM, its archive record where it is
RESIDENT. Answers its handle. -/
def State.createKey (s : State) (r : Reservation) (n : NewKey) (material pub dig : Bytes) (f : KeyRec → KeyRec) : State × Nat :=
  let gen := NMap.getD s.vault.gens r.slice 1
  let h := mkHandle r.slice r.index gen
  let inv := takesInv n.alg n.usage
  let loaded := (n.alg = 1 || n.alg = 3) && loadedId n.pset
  let res := bit n.persist 2
  let k0 : KeyRec :=
    { handle := h, ktype := n.ktype, alg := n.alg, pset := n.pset, persist := n.persist, export_ := n.export_,
      tallied := r.tally, klen := n.klen, usage := n.usage, replSet := n.replSet, custody := n.custody,
      tallyMax := n.tallyMax, rateMax := n.rateMax, ratePeriod := n.ratePeriod,
      ivFixed := if inv then s.vault.fixedCtr else 0, units := r.units,
      curveId := if loaded then n.pset else 0,
      curveDigest := if loaded then dig else [],
      material := material, pub := pub, invCeil := if res then 2 ^ 20 else 0, usedCeil := if res then 2 ^ 20 else 0 }
  let k1 := f k0
  let k := match r.warm with | some (q, _) => k1.warmIn q | none => k1
  let s1 : State :=
    { s with vault := { s.vault with
        gens := NMap.set s.vault.gens r.slice (if (gen + 1) % 2 ^ 20 = 0 then 1 else (gen + 1) % 2 ^ 20)
        fixedCtr := if inv then s.vault.fixedCtr + 1 else s.vault.fixedCtr } }
  (((s1.putKey k).archWrite k r.arch).bumpSet n.replSet, h)

/-! ### Ceilings of resident keys (R228) -/

/-- A resident key whose counters come within 2^19 of a ceiling has a raise under way. -/
def KeyRec.wantRaise (k : KeyRec) : KeyRec :=
  if k.resident && k.tallied && (k.invCeil ≤ k.inv + 2 ^ 19 || k.usedCeil ≤ k.tallyUsed + 2 ^ 19) then
    { k with archPending := true }
  else k

/-- Whether a binding that charges `n` uses, and takes an INV where `inv`, must wait for a ceiling. -/
def KeyRec.mustWait (k : KeyRec) (n : Nat) (inv : Bool) : Bool :=
  k.resident && k.tallied && ((inv && k.invCeil ≤ k.inv) || k.usedCeil < k.tallyUsed + n)

/-! ### Deletion filter (R239, R240, R242) -/

/-- The filter entry of a key, if one is held. -/
def State.filterOf (s : State) (k : KeyRec) : Option FilterEntry :=
  s.ks.filter.find? fun f => f.slice = k.slice && f.index = hIndex k.handle && f.gen = hGen k.handle

/-- Filter entries of a segment. -/
def State.segEntries (s : State) (seg : Nat) : Nat := (s.ks.filter.filter fun f => f.seg = seg).length

/-- A segment's record. -/
def State.seg (s : State) (n : Nat) : Segment := s.ks.segs.getD n { keyId := n }

/-- Compaction of a segment starts: it takes the spare KeyID, keyed afresh where it is not (R340), and its round steps
(R241). -/
def State.compStart (s0 : State) (seg : Nat) : State :=
  let s := if s0.mem.act.contains s0.ks.spareKeyId then s0 else s0.ownDraw.2.keyed s0.ks.spareKeyId s0.ownDraw.1
  let g := s.seg seg
  { s with
    ks := { s.ks with
      segs := s.ks.segs.set seg { keyId := s.ks.spareKeyId, round := g.round + 1 }
      compSeg := seg, compBusy := true, compPtr := 0, compFreedOld := g.keyId } }

/-- Whether compaction must key the spare KeyID first and cannot: no internal instance runs (R340). -/
def State.spareWaits (s : State) : Bool := !s.mem.act.contains s.ks.spareKeyId && !s.drawReady

/-- Compaction of a segment is asked for: it starts, or waits at its first step for its spare to be keyed (R340). -/
def State.compGo (s : State) (seg : Nat) : State :=
  if s.spareWaits then { s with ks := { s.ks with compSeg := seg, compBusy := true, compWait := true } } else s.compStart seg

/-- Automatic compaction starts on the segment with the most entries when the filter passes AUTO_PCT, in KEYID mode; it is
deferred while its spare cannot be keyed (R242, R243, R340). -/
def State.autoCompact (s : State) : State :=
  let cfg := s.rg .kst 0x080
  if cfg.getLsbD 0 && s.mem.keyIdMode && !s.ks.compBusy && !s.spareWaits && 65536 * fld cfg 8 8 < 100 * s.ks.filter.length then
    let best := (List.range 16).foldl (fun a i => if s.segEntries a < s.segEntries i then i else a) 0
    s.compStart best
  else s

/-- A filter entry is written for a key (R239), replacing an earlier one; `none` where no entry is free. -/
def State.filterTake (s : State) (k : KeyRec) (minRev : Nat) : Option State :=
  let seg := s.segOf k.slice (hIndex k.handle)
  let e : FilterEntry :=
    { slice := k.slice, index := hIndex k.handle, gen := hGen k.handle, minRev := minRev, seg := seg, round := (s.seg seg).round }
  let rest := s.ks.filter.filter fun f => !(f.slice = e.slice && f.index = e.index && f.gen = e.gen)
  if rest.length = s.ks.filter.length && 65536 ≤ s.ks.filter.length then none
  else
    let s1 : State := { s with ks := { s.ks with filter := rest ++ [e] } }
    let ninety := 65536 * 9 < 10 * s1.ks.filter.length
    let s2 := if ninety && !s.ks.filterNinety then
        (({ s1 with ks := { s1.ks with filterNinety := true } }).raise .kst 16).record 0x0405 2 0 (toLE 4 s1.ks.filter.length)
      else s1
    some s2.autoCompact

/-- The filter is full (R238): WARNING, at most one per 64 ticks with repeats coalesced; answers whether this refusal
wrote or joined a record. -/
def State.filterFull (s : State) (sl detail : Nat) : State × Bool :=
  let again := match s.ks.filterFullTick with
    | some t => s.tick < t + 64
    | none => false
  if again && !(s.led.recs.any fun r => r.hits 0x0401 3 (srcSlice sl) (Bytes.padMul (toLE 2 detail) 8) s.tick) then (s, false)
  else
    (({ s with ks := { s.ks with filterFullTick := if again then s.ks.filterFullTick else some s.tick } }).record
      0x0401 3 (srcSlice sl) (toLE 2 detail), true)

end Sys2Proof.Machine
end

