-- ==== Sys2Proof/Machine/CustodyOps.lean ====
section
/-! DEFINITION. Countersigning's shared operations (chapter 11): operation digests, guards, approvals consumed. -/
namespace Sys2Proof.Machine
open Sys2Proof

/-- The operation description of an entry (R251): OPCODE, reserved, IN_LEN, KEY_A, KEY_B, PARAM. -/
def opDescription (e : Bytes) : Bytes :=
  Bytes.sub e 2 2 ++ zeros 2 ++ Bytes.sub e 0x28 4 ++ Bytes.sub e 0x10 16 ++ Bytes.sub e 0x38 56

/-- The operation digest of a description and a job's input (R251). -/
def opDigest (sl : Nat) (descr input : Bytes) : Bytes := sha3_256 (toLE 2 sl ++ descr ++ sha3_256 input)

/-- What guards an operation (Table 11.7). -/
inductive Guard where
  | never | fixed | byBit (b : Nat)
  deriving DecidableEq, Repr

/-- The guard of an operation on KEY_A (Table 11.7); a stream is guarded at its first segment only (R172). -/
def guardOf (e : Bytes) (k : KeyRec) : Guard :=
  let first := (symPar e).isFirst
  match eOp e with
  | 0x0502 =>
    if eB e 0x38 = 1 then (if k.export_ = 2 then .fixed else .byBit 1)
    else if eB e 0x38 = 2 then .byBit 0 else .never
  | 0x0101 => .byBit 2
  | 0x0107 | 0x0106 => .byBit 3
  | 0x0302 => if first then .byBit 3 else .never
  | 0x0303 => if !first then .never else if eB e 0x39 = 1 then .byBit 3 else .byBit 7
  | 0x0104 | 0x0404 => .byBit 4
  | 0x0503 => .byBit 5
  | 0x0505 => .byBit 6
  | 0x0301 | 0x0402 => if first then .byBit 7 else .never
  | _ => .never

/-- A custody group as a key of a slice sees it: defined, and the slice's own (R261). -/
def State.groupFor (s : State) (sl g : Nat) : Option Group :=
  match NMap.find s.vault.groups g with
  | some r => if r.slice = sl then some r else none
  | none => none

/-- Whether the operation needs a countersign (R260). -/
def State.guarded (s : State) (sl : Nat) (e : Bytes) (k : KeyRec) : Bool :=
  k.custody != 0xFFFF &&
    match guardOf e k with
    | .never => false
    | .fixed => true
    | .byBit b => match s.groupFor sl k.custody with
      | some g => bit g.guard b
      | none => false

/-- Row 9 of Table 10.5 (R261): the slot of the approval to consume, none where the operation is not guarded, or the
refusal's detail. -/
def State.countersign (s : State) (sl : Nat) (e input : Bytes) (k : KeyRec) : Nat ⊕ Option Nat :=
  if !s.guarded sl e k then .inr none
  else if (s.groupFor sl k.custody).isNone then .inl 3
  else
    let d := opDigest sl (opDescription e) input
    let fits := s.cus.approvals.filter fun a =>
      a.slice = sl && a.kind = 1 && a.group = k.custody && a.opDigest = d && a.tStart ≤ s.tick && s.tick < a.tEnd
    match fits.find? fun a => a.granted with
    | some a => .inr (some a.slot)
    | none => .inl (if fits.isEmpty then 1 else 2)

/-- An approval is consumed with the charges (R261): freed, and recorded at INFO with the handle and the digest. -/
def State.consume (s : State) (sl : Nat) (slot : Option Nat) (handle : Nat) : State :=
  match slot with
  | none => s
  | some n =>
    match s.cus.approvals.find? fun a => a.slot = n with
    | none => s
    | some a =>
      ({ s with cus := { s.cus with approvals := s.cus.approvals.filter fun x => x.slot != n } }).record 0x0503 1
        (srcSlice sl) (toLE 8 handle ++ a.opDigest)

end Sys2Proof.Machine
end

