-- ==== Sys2Proof/Machine/RngOps.lean ====
section
/-! DEFINITION. The random number service's shared operations (chapter 9): instances, requests, the pool, sources, failure. -/
namespace Sys2Proof.Machine
open Sys2Proof

/-! ### Pieces -/

/-- A source's record. -/
def State.src (s : State) (n : Nat) : Source := s.rng.src.getD n {}

/-- The state with a source replaced. -/
def State.setSrc (s : State) (n : Nat) (v : Source) : State := { s with rng := { s.rng with src := s.rng.src.set n v } }

/-- How many sources count as benched (R194). -/
def State.benched (s : State) : Nat := (s.rng.src.filter fun x => x.st.counts).length

/-- The benched sources as a set of eight bits. -/
def State.benchedSet (s : State) : Nat :=
  ((List.range 8).map fun i => if (s.src i).st.counts then 2 ^ i else 0).sum

/-- How many instances of `l` run. -/
def State.running8 (s : State) (l : List Nat) : Nat := (l.filter fun i => (s.inst i).st = .running).length

/-- RUN changes between READY and DEGRADED (R40); no other value of it changes here. -/
def State.setRun (s : State) (r : RunState) : State := if s.running then { s with glb := { s.glb with run := r } } else s

/-- RUN as the entropy source and the internal instances leave it (R40, R199). -/
def State.reRun (s : State) : State :=
  s.setRun (if s.rng.es = .failed || ([0, 1, 2, 3].all fun i => (s.inst i).st = .fault) then .degraded else .ready)

/-! ### Instances (R196 to R199) -/

/-- An instance is instantiated from two pool words (Table 9.4). -/
def State.instantiate (s : State) (n : Nat) : State :=
  let (w1, s1) := s.poolWord
  let (w2, s2) := s1.poolWord
  let i := s2.inst n
  let kv := drbgInst (w1 ++ w2.take 16 ++ uidBytes ++ toBE 1 n ++ toBE 4 s2.glb.pcc ++ toBE 6 s2.tick)
  let s3 := s2.setInst n { i with st := .running, count := 0, key := kv.1, v := kv.2 }
  if n < 4 then { s3 with rng := { s3.rng with intStopNoted := false } } else s3

/-- The record of the last internal instance's stop (R206): once until one runs again. -/
def State.noteStop (s : State) : State :=
  if s.internalRuns || s.rng.intStopNoted then s
  else ({ s with rng := { s.rng with intStopNoted := true } }).record 0x0704 3 0 []

/-- An instance fails its comparison or a completion detector trips in it (R199). -/
def State.instFault (s : State) (n detail : Nat) : State :=
  let s1 := ((s.uninst n .fault).raise .rng 19).record 0x0601 4 (srcInst n) (toLE 1 n ++ toLE 2 detail)
  s1.reRun

/-- What a generate request comes to: the octets served, waiting for a pool word, or refused. -/
inductive Draw where
  | got (out : Bytes) | wait | refused (code detail : Nat)
  deriving DecidableEq, Repr

/-- One generate request to instances 0 to 3 (R197, R198, R206): served, waiting for a pool word, or refused. `e` is how
the instance's run ends (R199). -/
def State.intRequest (s : State) (e : EngineEnd) : State × Draw :=
  match s.pickInst [0, 1, 2, 3] with
  | none => (s, .refused cEntropy (if [0, 1, 2, 3].all fun i => (s.inst i).st = .fault then 4 else 1))
  | some n =>
    if s.intBlocked then (s, .wait)
    else
      let (out, s1) := s.genInternal n
      match e with
      | .ok => (s1.noteStop, .got out)
      | .detector => (s1.instFault n 2, .refused cMismatch 2)
      | _ => (s1.instFault n 1, .refused cMismatch 1)

/-- The jobs whose internal request waits for a pool word (R195, R198). -/
def State.waitFor (s : State) (id : Nat) : State :=
  if s.rng.waiters.contains id then s else { s with rng := { s.rng with waiters := s.rng.waiters ++ [id] } }

/-- A job's internal request is served: it waits no longer. -/
def State.waitOver (s : State) (id : Nat) : State := { s with rng := { s.rng with waiters := s.rng.waiters.filter (· != id) } }

/-- Work of the unit's own waits for a pool word: a CHALLENGE, a step of AUTH, a memory key, a checkpoint. -/
def State.ownWaits (s : State) : Bool :=
  !s.rng.draws.isEmpty || s.ks.compWait || (s.svc.rotBusy && !s.mem.act.contains s.svc.rotNew) || 4096 ≤ s.led.sinceCp

/-- A job of a ring, of a head or of a teller waits for a pool word. -/
def State.jobWaits (s : State) : Bool :=
  (s.rng.waiters.any fun id => s.jobs.any fun j => j.id = id && j.phase != .done) ||
    s.slices.any fun p => p.2.tellers.any fun t => t.draws

/-- Whether a request of instances 0 to 3 waits for a pool word now: it goes before any of instances 4 to 7 (R195). -/
def State.intWaits (s : State) : Bool :=
  (match s.pickInst [0, 1, 2, 3] with | some n => s.mustReseed n | none => false) && (s.jobWaits || s.ownWaits)

/-- How the instance ends that serves request number `i` of those that the end of a run makes (R199). -/
def drawEnd (r : RunEnd) (i : Nat) : EngineEnd := if i = r.rngAt then r.rng else .ok

/-- RNG_READs bound to an instance that fails go back to the RNG FIFO, where another serves them (R199, R208). -/
def State.requeueReads (s : State) (n : Nat) : State :=
  let back := fun (j : Job) => match j.bnd with
    | some b => (match b.eng with
      | .drbg i => if i.val = n && j.phase = .bound then { j with phase := .staged, bnd := none } else j
      | _ => j)
    | none => j
  ({ s with jobs := s.jobs.map back }).hwmUp.bpNote

/-! ### The entropy source -/

/-- RNG_READs that are bound end with ENTROPY_FAILED, detail 0x0002 (R206). -/
def endReads : List Nat → State → State
  | [], s => s
  | id :: t, s =>
    match s.job id with
    | some j => endReads t (s.finish j { code := cEntropy, detail := 2, result := s.stopRes j j.left } [] false)
    | none => endReads t s

/-- Internal instances whose count stands at LIMIT stop (R206). -/
def State.stopSpent (s : State) : State :=
  ([0, 1, 2, 3].foldl (fun a n =>
    if (a.inst n).st = .running && a.rng.limit ≤ (a.inst n).count then a.uninst n .stopped else a) s).noteStop

/-- The entropy source enters FAILED (R205, R206): cause 1 a fifth benched source, 2 the SOSC, 3 the conditioner (the
model's own numbers). -/
def State.esFail (s : State) (cause : Nat) : State :=
  if s.rng.es != .healthy then s
  else
    let s1 : State := { s with rng := { s.rng with es := .failed, pool := [] } }
    let s2 := [4, 5, 6, 7].foldl (fun a n => a.uninst n .uninst) s1
    let s3 := (s2.record 0x0703 4 0 (toLE 1 cause ++ toLE 1 s2.benchedSet)).raise .rng 16
    let ids := (s3.jobs.filter fun j => j.cls = .rng && j.phase = .bound).map Job.id
    (endReads ids s3).stopSpent.reRun

/-- A source is benched (R194): over [t, t + 64), counted, recorded at WARNING; the fifth takes the source to FAILED. -/
def State.bench (s : State) (n failtest : Nat) : State :=
  let v := s.src n
  let s1 := s.setSrc n
    { v with
      st := .benched, failtest := failtest, benchCnt := satAdd 32 v.benchCnt 1, benchEnd := s.tick + 64, retries := 0 }
  let s2 := (s1.raise .rng 17).record 0x0701 3 (srcSource n) (toLE 1 n ++ toLE 1 failtest ++ toLE 1 v.trim)
  if 5 ≤ s2.benched then s2.esFail 1 else s2

/-! ### Health tests (Table 9.2) -/

/-- The bits of an octet string, each octet's most significant bit first (DESIGN CHOICE: the manual states no order). -/
def bitsOf (b : Bytes) : List Bool := (b.map fun x => (List.range 8).map fun i => x.getMsbD i).flatten

/-- The repetition count over a block from the run in hand: the run after it, and whether 41 or more identical bits in a row
reached into it. -/
def repCount (bit0 : Bool) (run0 : Nat) (l : List Bool) : Bool × Nat × Bool :=
  l.foldl (fun a b =>
    let run := if a.2.1 != 0 && a.1 = b then a.2.1 + 1 else 1
    (b, run, a.2.2 || 41 ≤ run)) (bit0, run0, false)

/-- Adaptive proportion: the first bit's value occurs 793 times or more in the block. -/
def adaptiveFails (l : List Bool) : Bool :=
  match l with
  | [] => false
  | b :: _ => 793 ≤ (l.filter (· = b)).length

/-- Which health test a block fails, as FAILTEST counts them: 0 none, 1 repetition count, 2 adaptive proportion; and the
run the block leaves. -/
def healthTest (v : Source) (bits : Bytes) : Nat × Source :=
  let l := bitsOf bits
  let r := repCount v.repBit v.repRun l
  (if r.2.2 then 1 else if adaptiveFails l then 2 else 0, { v with repBit := r.1, repRun := r.2.1 })

/-! ### Known-answer tests (R208) -/

/-- A part fails its known-answer test: recorded at ALARM with the part (0 to 7 an instance, 8 the conditioner), and
KAT_FAIL raised. -/
def State.katFail (s : State) (part : Nat) : State := (s.record 0x0706 4 0 (toLE 1 part)).raise .rng 18

/-- The conditioner's known-answer test. -/
def State.katCond (s : State) (ok : Bool) : State :=
  let s1 : State := { s with rng := { s.rng with condFailed := !ok, condRetest := s.tick + 64 } }
  if ok then s1 else (s1.katFail 8).esFail 3

/-- An instance's known-answer test, after which it is instantiated again or reads FAULT (R199, R208). -/
def State.katInst (s : State) (n : Nat) (ok : Bool) : State :=
  if ok then ((s.uninst n .testing).instantiate n).reRun
  else
    let s1 := ((((s.uninst n .fault).requeueReads n).katFail n).raise .rng 19)
    s1.reRun

end Sys2Proof.Machine
end

