-- ==== Sys2Proof/Machine/Binding.lean ====
section
/-! DEFINITION. Binding (R20): what each opcode asks of its handles, the rows of Table 10.5, charges, engines offered. -/
namespace Sys2Proof.Machine
open Sys2Proof

/-! ### What an opcode asks of a handle -/

/-- What a binding asks of one handle: whether 0 is refused, the key's algorithm (row 7), the usage rights in order (row
8), whether rows 6, 9 and 10 are judged, the charge, the width of the INV it takes, whether it is the key exported. -/
structure Need where
  required : Bool := false
  alg : KeyRec → Bool := fun _ => true
  rights : List Nat := []
  curve : Bool := true
  guard : Bool := true
  charge : Nat := 1
  tally : Bool := true
  inv : Option Nat := none
  export_ : Bool := false

/-- The INV width of Table 8.10; none where the ALG takes no invocation counter. -/
def invWidth (p : SymPar) : Option Nat :=
  if p.ivsrc || !p.enc then none
  else match p.alg with
    | 0x11 | 0x13 | 0x26 | 0x21 => some 64
    | 0x12 => some (Nat.min 64 (8 * (p.nlen - 4)))
    | _ => none

/-- What an entry asks of KEY_A (Tables 5.9 and 8.2, R146, R152, R229 to R238). -/
def needA (v : SliceView) (e : Bytes) : Need :=
  let pk := fun (k : KeyRec) => k.alg = eB e 0x38 && k.pset = eB e 0x39
  let priv := fun (k : KeyRec) => pk k && k.ktype = 1
  let p := symPar e
  match eOp e with
  | 0x0101 => { required := true, alg := priv, rights := [0] }
  | 0x0102 => { alg := pk, rights := [1] }
  | 0x0104 => { alg := priv, rights := [2] }
  | 0x0105 => { alg := pk, rights := [3] }
  | 0x0106 => { required := true, alg := priv, rights := [4] }
  | 0x0107 => { required := true, alg := priv, rights := [6] }
  | 0x0108 => { alg := pk, rights := [5] }
  | 0x0201 =>
    match v.rld (eB e 0x38) with
    | some r =>
      { alg := fun k => k.alg = eB r 0x15 && k.pset = eB r 0x16, rights := [1], charge := eW e 0x3C }
    | none => { rights := [1], charge := eW e 0x3C }
  | 0x0301 =>
    { required := true, alg := fun k => k.alg = p.alg, rights := if p.ivsrc then [5, 9] else [5], inv := invWidth p }
  | 0x0302 => { required := true, alg := fun k => k.alg = p.alg, rights := [6] }
  | 0x0303 =>
    { required := true, alg := fun k => k.alg = p.alg
      rights := if p.dec then [6] else if p.ivsrc then [5, 9] else [5], inv := invWidth p }
  | 0x0402 => { required := true, alg := fun k => k.alg = p.alg, rights := [7] }
  | 0x0403 => { required := true, alg := fun k => k.alg = p.alg, rights := [8] }
  | 0x0404 => { required := true, alg := fun k => k.alg = p.alg || k.alg = 0x40, rights := [2] }
  | 0x0502 => { required := true, export_ := true }
  | 0x0503 => { required := true, curve := false, tally := false }
  | 0x0504 => { required := true, guard := false, tally := false }
  | 0x0505 => { required := true, tally := false }
  | _ => {}

/-- What an entry asks of KEY_B, where its opcode takes one. -/
def needB (e : Bytes) : Option Need :=
  match eOp e with
  | 0x0104 => some { alg := fun k => k.alg = eB e 0x38 && k.pset = eB e 0x39, rights := [2], guard := false }
  | 0x0501 => if eB e 0x38 = 2 then
      some { required := true, alg := fun k => k.alg = 0x25, rights := [11], guard := false } else none
  | 0x0502 => if eB e 0x38 = 1 then
      some { required := true, alg := fun k => k.alg = 0x25, rights := [10], guard := false } else none
  | _ => none

/-! ### Table 10.5 -/

/-- A key with a job's charge on it (R169, R224, R225). -/
def KeyRec.charged (k : KeyRec) (n : Nat) (inv : Bool) (tick : Nat) : KeyRec :=
  let win := if k.ratePeriod = 0 then 0 else tick / k.ratePeriod
  let k1 : KeyRec :=
    { k with
      tallyUsed := satAdd 32 k.tallyUsed n
      rateCnt := if k.rateMax = 0 then 0 else (if k.rateWin = win then k.rateCnt else 0) + n
      rateWin := if k.rateMax = 0 then k.rateWin else win
      inv := if inv then k.inv + 1 else k.inv }
  k1.wantRaise

/-- Rows 10 and 11 (R169, R224, R225): the code and detail of the first that fails. -/
def KeyRec.spent (k : KeyRec) (n : Need) (tick : Nat) : Option (Nat × Nat) :=
  if n.tally && k.tallyMax != 0 && k.tallyMax < k.tallyUsed + n.charge then some (cExhausted, 1)
  else if n.tally && k.rateMax != 0 &&
      k.rateMax < (if k.rateWin = tick / k.ratePeriod then k.rateCnt else 0) + n.charge then some (cRate, 1)
  else match n.inv with
    | none => none
    | some w => if 2 ^ 64 ≤ k.inv then some (cWrap, 1) else if 2 ^ w ≤ k.inv then some (cWrap, 2) else none

/-- The class and the output size of a KEY_EXPORT (R220, R233), judged after row 8. -/
def exportBad (v : SliceView) (e : Bytes) (k : KeyRec) (blobLen : Nat) : Option (Nat × Nat) :=
  if eOp e != 0x0502 then none
  else
    let pub := k.ktype != 3
    let klass := match eB e 0x38 with
      | 1 => k.export_ = 2 || k.export_ = 3
      | 2 => (k.export_ = 1 || k.export_ = 2 || k.export_ = 3) && k.tallyMax = 0 && k.rateMax = 0
      | _ => pub && (k.alg != 5 || !k.pub.isEmpty)
    let size := match eB e 0x38 with
      | 1 => (materialLen v k.ktype k.alg k.pset k.klen + 7) / 8 * 8 + 8
      | 2 => 80 + blobLen
      | _ => pubLen v k.alg k.pset
    if !klass then some (cUsage, 0x20) else if eOutLen e < size then some (cBadLength, 2) else none

/-- What a key holds beyond its header when it is sealed in a blob (R234: the contents are not described). -/
def KeyRec.hidden (k : KeyRec) : Bytes :=
  toLE 1 k.curveId ++ Bytes.fit k.curveDigest 32 ++ toLE 2 k.klen ++ toLE 1 (b2n k.plainImport) ++ k.pub

/-- The length of a key's blob body. -/
def KeyRec.blobLen (k : KeyRec) : Nat := Config.blobBodyLen k.material k.hidden

/-- The first of rows 1 to 4 that fails (Table 10.5). -/
def State.resolveBad (s : State) (sl h : Nat) : Option (Nat × Nat) :=
  if crc8 ((toBE 8 h).take 7) != BitVec.ofNat 8 (hCheck h) then some (cNotFound, 1)
  else if hSlice h != sl then some (cForeign, 1)
  else match s.keyAt sl (hIndex h) with
    | none => some (cNotFound, 2)
    | some k => if hGen k.handle != hGen h then some (cStale, 1) else none

/-- The loaded curve that a key's ID names for a job: the one the job's entry named when it was checked (R129), else the one
visible now. -/
def State.keyCurve (s : State) (slots : List Nat) (k : KeyRec) : Option Curve :=
  match slots.findSome? fun n => (NMap.find s.eng.curves n).bind fun c => if c.id = k.curveId then some c else none with
  | some c => some c
  | none => (s.curveOf k.slice k.curveId).map Prod.snd

/-- Whether a key on a loaded curve finds its curve changed or gone (R122). -/
def State.curveStale (s : State) (slots : List Nat) (k : KeyRec) : Bool :=
  k.curveId != 0 && match s.keyCurve slots k with | some c => c.digest != k.curveDigest | none => true

/-- An earlier copy of a DEEP record read back, of a live key or of a deleted one (R240): refused where the filter holds an
entry for the handle's slice, INDEX and GEN, whose MIN_REV is above every earlier revision. -/
def State.replayBad (s : State) (sl h : Nat) (m : MemOutcome) : Bool :=
  hIndex h < 0xF00000 && m = .replayed &&
    s.ks.filter.any fun f => f.slice = sl && f.index = hIndex h && f.gen = hGen h

/-- The state after a replayed record is refused (R240). -/
def State.replayNote (s : State) (sl h : Nat) : State :=
  let s1 : State := { s with ks := { s.ks with replayCnt := satAdd 32 s.ks.replayCnt 1 } }
  (s1.raise .kst 18).record 0x0402 4 (srcSlice sl) (toLE 2 sl ++ toLE 4 (hIndex h) ++ toLE 1 (s.segOf sl (hIndex h)))

/-- How a key's record in device memory reads: a line of it that failed stays poisoned, and the key unusable (R19, R339). -/
def State.keyMem (s : State) (k : KeyRec) (m : MemOutcome) : MemOutcome :=
  match k.badLine with
  | some l => if s.poisoned l then .poisonedLine l else m
  | none => m

/-- A line of a key's record is poisoned from now on: the key keeps which one. -/
def KeyRec.lineNote (k : KeyRec) (m : MemOutcome) : KeyRec :=
  match m with
  | .tagFail l | .poisonedLine l | .partialWrite l | .deepPort l _ => { k with badLine := some l }
  | _ => k

/-- Rows 1 to 11 of Table 10.5 on one handle: the state with what the failure or the memory leaves, and the refusal, or
the key as it stands and the approval to consume. Nothing is charged here. -/
def State.checkKey (s : State) (sl : Nat) (slots : List Nat) (e input : Bytes) (n : Need) (h : Nat) (m : MemOutcome) :
    State × (Refuse ⊕ KeyRec × Option Nat) :=
  match s.resolveBad sl h with
  | some (c, d) =>
    if (c = cNotFound && d = 2 || c = cStale) && s.replayBad sl h m then
      (s.replayNote sl h, .inl { code := cMemory, detail := 0x21, recorded := true })
    else (s, .inl { code := c, detail := d })
  | none => match s.resolve sl h with
    | none => (s, .inl { code := cNotFound, detail := 2 })
    | some k =>
      let (s1, bad, rec) := if k.deep then s.memAccess (s.keyMem k m) else (s, none, false)
      match bad with
      | some (c, d) => (s1.putKey (k.lineNote m), .inl { code := c, detail := d, recorded := rec })
      | none =>
        if s1.replayBad sl h m then (s1.replayNote sl h, .inl { code := cMemory, detail := 0x21, recorded := true })
        else if n.curve && s1.curveStale slots k then (s1, .inl { code := cStale, detail := 0x20 })
        else if !n.alg k then (s1, .inl { code := cUsage, detail := 0x10 })
        else match n.rights.find? fun b => !bit k.usage b with
          | some b => (s1, .inl { code := cUsage, detail := 0x100 + b })
          | none => match (if n.export_ then exportBad (s1.view sl) e k k.blobLen else none) with
            | some (c, d) => (s1, .inl { code := c, detail := d })
            | none => match (if n.guard then s1.countersign sl e input k else .inr none) with
              | .inl d => (s1, .inl { code := cQuorum, detail := d })
              | .inr ap => match k.spent n s1.tick with
                | some (c, d) => (s1, .inl { code := c, detail := d })
                | none => (s1, .inr (k, ap))

/-! ### Keys to be created -/

/-- The attributes of the key an entry creates (R99, R163, R230, R232), sized for its reservation. -/
def newKeyOf (v : SliceView) (e : Bytes) : Option NewKey :=
  let alg := eB e 0x38
  let pset := eB e 0x39
  let k : NewKey := { ktype := 3, alg := 0x40, pset := 0, usage := eW e 0x40, persist := eB e 0x44, export_ := eB e 0x45 }
  match eOp e with
  | 0x0103 => some { k with ktype := 1, alg := alg, pset := pset }
  | 0x0104 | 0x0105 | 0x0106 => some { k with klen := secretLen v alg pset }
  | 0x0107 => if bit (eB e 0x3B) 1 then some { k with klen := oaepMax (pkPar 0x0107 e) } else none
  | 0x0404 => some { k with alg := eB e 0x3E, klen := eH e 0x3C }
  | 0x0501 =>
    some { ktype := eB e 0x39, alg := eB e 0x3A, pset := eB e 0x3B, klen := eH e 0x3C, persist := eB e 0x3E
           export_ := eB e 0x3F, usage := eW e 0x40, tallyMax := eW e 0x44, rateMax := eW e 0x48
           ratePeriod := eW e 0x4C, replSet := eB e 0x50, warm := bit (eB e 0x51) 0, custody := eH e 0x52 }
  | 0x0506 =>
    some { ktype := 2, alg := eB e 0x3A, pset := eB e 0x3B, persist := eB e 0x3E, export_ := 4, usage := eW e 0x40
           warm := bit (eB e 0x51) 0 }
  | _ => none

/-- What R221 finds in a key to be created. -/
def State.newKeyBad (s : State) (sl : Nat) (n : NewKey) : Option Nat :=
  s.attrBad sl n.ktype n.alg n.pset n.usage n.persist n.export_ n.custody n.warm

/-- The loaded curve an entry named when it was checked; a job of a head's brings its own. -/
def State.jobCurve (s : State) (j : Job) : Option Curve :=
  match j.remote with
  | some r => if r.curve.isEmpty then none else some { slice := 0, id := 0, block := r.curve, digest := [], visible := true }
  | none => j.curveSlots.findSome? fun n => NMap.find s.eng.curves n

/-- The key a job creates takes its reserved place, with the digest of the job's own curve. -/
def State.jobKey (s : State) (j : Job) (r : Reservation) (n : NewKey) (material pub : Bytes) (f : KeyRec → KeyRec) :
    State × Nat :=
  let v := s.jobView j
  let units := unitsOf v n.ktype n.alg n.pset n.klen
  s.createKey { r with units := units } n material pub (match s.jobCurve j with | some c => c.digest | none => []) f

/-! ### Engines -/

/-- Whether a hash code runs on a quad Keccak unit (R161, Table 8.12). -/
def sha3Code (c : Nat) : Bool := [4, 5, 6, 7, 8, 0x0B, 0x0C, 0x0D].contains c

/-- Whether a symmetric job runs on a quad Keccak unit (Table 8.12). -/
def keccakJob (e : Bytes) : Bool :=
  match eOp e, eB e 0x38 with
  | 0x0401, _ => sha3Code (eB e 0x39)
  | _, 0x33 | _, 0x34 | _, 0x43 | _, 0x44 => true
  | _, 0x31 | _, 0x41 | _, 0x45 | _, 0x46 => sha3Code (eB e 0x39)
  | _, _ => false

/-- Whether a job is bound to an engine, or a chain's records are hashed on it (R154). The passes of tiles on their quad's
Keccak unit leave it free for a symmetric job, which it serves beside them (Table 8.12). -/
def State.engHeld (s : State) (e : Engine) : Bool :=
  s.jobs.any fun j => j.phase != .done &&
    (match j.bnd with | some b => b.eng = e || (j.cls = .bulk && b.hash.contains e) | none => false)

/-- Whether a tile is free: its page reads READY and it is not in bench mode. -/
def State.tileFree (s : State) (t : Fin 96) : Bool := (s.hd (.pkt t)).st = .ready && !(s.tile t.val).bench

/-- Whether a lane pair is free: both its pages read READY. -/
def State.pairFree (s : State) (p : Fin 64) : Bool :=
  (s.hd (.scl ⟨2 * p.val, by omega⟩)).st = .ready && (s.hd (.scl ⟨2 * p.val + 1, by omega⟩)).st = .ready

/-- How many lane pairs are free. -/
def State.freePairs (s : State) : Nat :=
  ((List.range 64).filter fun p => if h : p < 64 then s.pairFree ⟨p, h⟩ else false).length

/-- How many pairs a job takes (R176): one, or for a striped job as many as it may and finds free. -/
def State.pairsFor (s : State) (p : SymPar) : Nat :=
  if p.stripe then Nat.max 1 (Nat.min (p.lanes / 2) (Nat.min s.freePairs (stripeCount p))) else 1

/-- Whether a binding must wait for a ceiling of a resident key that it charges, KEY_A or KEY_B (R228). -/
def State.ceilingWait (s : State) (j : Job) : Bool :=
  let wait := fun (h charge : Nat) (inv : Bool) => match s.resolve j.slice h with
    | some k => k.mustWait charge inv
    | none => false
  let n := needA (s.jobView j) j.entry
  (n.tally && (symPar j.entry).isFirst && wait (eKeyA j.entry) n.charge n.inv.isSome) ||
    ((needB j.entry).isSome && wait (eKeyB j.entry) 1 false)

/-- The job a teller's operation stands for while it is bound. -/
def tellerJob (sl : Nat) (e input : Bytes) (b : Option Bound) : Job :=
  { id := 0, slice := sl, ring := 0, index := 0, addr := 0, pasid := none, entry := e, cls := .sym, phase := .staged
    input := input, bnd := b }

/-- The earliest waiting teller operation that a pair could serve (R189): none that waits for a ceiling (R228). -/
def State.nextTeller (s : State) : Option Nat :=
  let w := (s.slices.map fun p => (p.2.tellers.filter fun t =>
    t.waiting && !s.ceilingWait (tellerJob p.1 t.entry t.input none)).map fun t => t.arrival).flatten
  w.foldl (fun a n => match a with | some m => some (Nat.min m n) | none => some n) none

/-- Whether the offered engine is free and of the kind a job needs (R80, R176, R200); lanes go to a waiting teller ahead of
the SYM FIFO (R189). -/
def State.engFits (s : State) (j : Job) (g : Engine) : Bool :=
  match j.cls, g with
  | .pk, .tile t => s.tileFree t
  | .sym, .keccak q => keccakJob j.entry && s.keccakOn q.val && !s.engHeld g
  | .sym, .lane n => s.nextTeller.isNone && eOp j.entry = 0x0401 && !keccakJob j.entry && (s.hd (.scl n)).st = .ready
  | .sym, .pairs l =>
    s.nextTeller.isNone && !keccakJob j.entry && eOp j.entry != 0x0401 && l.Nodup && l.all s.pairFree && l.length = s.pairsFor (symPar j.entry)
  | .key, .worker n => !s.engHeld g && !(NMap.getD s.svc.cores (n.val / 2) {}).servicing && !s.coreHeld g
  | .rng, .drbg n =>
    s.pickInst ([4, 5, 6, 7].filter fun i => if h : i < 8 then !s.engHeld (.drbg ⟨i, h⟩) else false) = some n.val
  | _, _ => false

/-! ### Streams -/

/-- Whether a job's stream has a segment bound (R174). -/
def State.streamBusy (s : State) (j : Job) : Bool :=
  isSegment j.entry && match s.stream j.slice (symPar j.entry).stream with | some t => t.busy | none => false

/-- The refusal a segment meets (Table 8.11). -/
def State.streamBad (s : State) (j : Job) : Option Nat :=
  if !isSegment j.entry then none
  else
    let p := symPar j.entry
    match s.stream j.slice p.stream with
    | some t =>
      if p.fst then some 0x1A
      else if p.step != t.nextStep then some 0x18
      else if eKeyA j.entry != t.keyA || p.op != t.opcode || p.alg != t.alg || p.sub != t.sub || p.tag != t.tagLen || p.nlen != t.nlen
        then some 0x1B
      else none
    | none => if p.fst then none else some 0x19

/-- The message limit of an ALG in octets (Table 8.7). -/
def messageLimit (p : SymPar) (ctr : Nat) : Nat :=
  match p.alg with
  | 0x11 => 2 ^ 36 - 32
  | 0x12 => Nat.min 16777216 (2 ^ (8 * (15 - p.nlen)) - 1)
  | 0x13 => 2 ^ 38 - 64
  | 0x21 => 16 * (2 ^ 32 - ctr)
  | 0x26 => 2 ^ 38
  | 0x31 | 0x32 | 0x33 | 0x34 | 0 => 2 ^ 61 - 1
  | _ => 2 ^ 64

/-- Whether a segment carries its message past the limit (R165). -/
def State.limitBad (s : State) (j : Job) : Bool :=
  let p := symPar j.entry
  if j.cls != .sym || p.op = 0x0404 then false
  else
    let t := if p.isFirst then none else s.stream j.slice p.stream
    let ctr := match t with
      | some x => beNat (x.nonce.drop 12)
      | none => if p.ivsrc || p.dec then beNat (Bytes.sub j.entry 0x4C 4) else 0
    messageLimit p (if p.alg = 0x21 then ctr else 0) < (match t with | some x => x.total | none => 0) + p.payload

/-! ### Order and refusal -/

/-- Whether a FENCE entry waits for the entries before it on its ring (R60). -/
def State.fenceHeld (s : State) (j : Job) : Bool :=
  eFence j.entry && match s.oldest j.slice j.ring with | some o => o.id != j.id | none => false

/-- The staged job of a FIFO whose turn it is, of those the offered engine can serve (R80, R174, R228). -/
def State.nextJob (s : State) (f : Fifo) (ok : Job → Bool) : Option Job :=
  (s.fifo f).find? fun j => j.phase = .staged && ok j && !s.fenceHeld j && !s.streamBusy j && !s.ceilingWait j

/-- TALLY_LEFT of KEY_A with nothing charged (R47, R98): all ones where it names no key. -/
def State.leftOf (s : State) (j : Job) : Nat :=
  match s.resolve j.slice (eKeyA j.entry) with
  | some k => tallyLeft k
  | none => 0xFFFFFFFF

/-- A job is refused at binding (R216): no engine, no charge, no output; a refused INV is recorded once per key (R169). -/
def State.refuseJob (s : State) (j : Job) (r : Refuse) : State :=
  let first := r.code = cWrap && !s.ks.wrapNoted.contains (eKeyA j.entry)
  let s1 := if first then
      ({ s with ks := { s.ks with wrapNoted := eKeyA j.entry :: s.ks.wrapNoted } }).record 0x0408 3 (srcSlice j.slice)
        (toLE 8 (eKeyA j.entry) ++ toLE 2 r.detail)
    else s
  let res := if r.code = cWrap || eOp j.entry = 0x0201 then zeros 16 else s.stopRes j (s.leftOf j)
  s1.finish j { code := r.code, detail := r.detail, result := res } [] (r.recorded || first)

/-- The IV_FIXED that forms a nonce: bits [31:26] carry the member ID in a cluster (R168). -/
def State.ivFixed (s : State) (k : KeyRec) : Nat :=
  if s.clu.role = .standalone then k.ivFixed else k.ivFixed % 2 ^ 26 + s.clu.id * 2 ^ 26

/-- The nonce, IV or counter block a single entry or first segment uses (R168, R170, R171). -/
def State.formNonce (s : State) (p : SymPar) (e : Bytes) (k : KeyRec) (rnd : Bytes) : Bytes :=
  let fixed := toBE 4 (s.ivFixed k)
  if p.alg = 0x23 then Bytes.sub e 0x40 16
  else if p.ivsrc || !p.enc then Bytes.sub e 0x40 (nonceLen p)
  else match p.alg with
    | 0x11 | 0x13 | 0x26 => fixed ++ toBE 8 k.inv
    | 0x12 => fixed ++ toBE (p.nlen - 4) k.inv
    | 0x21 => fixed ++ toBE 8 k.inv ++ zeros 4
    | 0x22 => rnd.take 16
    | _ => []

end Sys2Proof.Machine
end

