-- ==== Sys2Proof/Machine/Restrict.lean ====
section
/-! DEFINITION. What KEY_ATTR_RESTRICT asks for, how the key store judges it, and what it changes (R221, R223, R237). -/
namespace Sys2Proof.Machine
open Sys2Proof

/-- What KEY_ATTR_RESTRICT asks for (R237). -/
structure Restrict where
  clear : Nat
  exp : Nat
  warm : Nat
  custody : Nat
  tallyMax : Nat
  rateMax : Nat
  ratePeriod : Nat
  clearRepl : Bool
  deriving DecidableEq, Repr

/-- The request an entry spells. -/
def restrictOf (e : Bytes) : Restrict :=
  { clear := eW e 0x38, exp := eB e 0x3C, warm := eB e 0x3D, custody := eH e 0x3E, tallyMax := eW e 0x40
    rateMax := eW e 0x44, ratePeriod := eW e 0x48, clearRepl := eB e 0x4C = 1 }

/-- Whether a request's only change is WARM_OP (R237). -/
def Restrict.warmOnly (q : Restrict) : Bool :=
  q.warm != 0 && q.clear = 0 && q.exp = 0xFF && q.custody = 0xFFFF && q.tallyMax = 0 && q.rateMax = 0 && q.ratePeriod = 0 &&
    !q.clearRepl

/-- Whether a request widens a right of the key (R237). -/
def Restrict.widens (q : Restrict) (k : KeyRec) : Bool :=
  (q.exp != 0xFF && (k.export_ < q.exp || (k.export_ = 4 && q.exp != 4))) ||
    (q.custody != 0xFFFF && k.custody != 0xFFFF && q.custody != k.custody) ||
    (q.tallyMax != 0 && ((k.tallyMax != 0 && k.tallyMax < q.tallyMax) || q.tallyMax < k.tallyUsed)) ||
    (k.rateMax != 0 && ((q.ratePeriod != 0 && q.ratePeriod != k.ratePeriod) || k.rateMax < q.rateMax))

/-- The attributes after a request that narrows. -/
def Restrict.apply (q : Restrict) (k : KeyRec) : KeyRec :=
  { k with
    usage := k.usage &&& (0xFFFFFFFF - q.clear)
    export_ := if q.exp = 0xFF then k.export_ else q.exp
    custody := if q.custody = 0xFFFF then k.custody else q.custody
    tallyMax := if q.tallyMax = 0 then k.tallyMax else q.tallyMax
    rateMax := if q.rateMax = 0 then k.rateMax else q.rateMax
    ratePeriod := if q.ratePeriod = 0 then k.ratePeriod else q.ratePeriod
    replSet := if q.clearRepl then 0 else k.replSet
    tallied := k.tallied || q.tallyMax != 0 || q.rateMax != 0
    warm := if q.warm = 2 then false else k.warm
    warmReady := if q.warm = 2 then false else k.warmReady
    rev := if q.warmOnly then k.rev else k.rev + 1
    restricted := k.restricted || !q.warmOnly }

/-- What the key store finds against a request (R221, R237), in order. -/
def State.restrictBad (s : State) (sl : Nat) (q : Restrict) (k : KeyRec) : Option (Nat × Nat) :=
  let n := q.apply k
  if 2 ^ 12 ≤ q.clear || (q.warm = 1 && !canWarm k.ktype k.alg k.pset) then some (cUsage, 0x11)
  else if k.rateMax = 0 && (q.rateMax = 0) != (q.ratePeriod = 0) then some (cBadParam, 7)
  else if q.widens k then some (cUsage, 0x15)
  else if n.export_ = 2 && n.custody = 0xFFFF then some (cUsage, 0x13)
  else if q.custody != 0xFFFF && !s.ownGroup sl q.custody then some (cUsage, 0x16)
  else if !q.warmOnly && k.rev = 255 then some (cCounter, 0x11)
  else none

/-- What a request needs held until its decision (R111, R223): a tally slot the first time, room for a warm table; the code
and detail where there is none. -/
def State.restrictRoom (s : State) (sl : Nat) (q : Restrict) (k : KeyRec) : Nat × Nat ⊕ Reservation :=
  let slot := (q.apply k).tallied && !k.tallied
  let warm := q.warm = 1 && !k.warm
  let home := if warm then s.homeQuad (warmSize k.pset) else none
  if slot && !s.tallyFree sl then .inl (cCapacity, 0x43)
  else if warm && home.isNone then .inl (cCapacity, 0x45)
  else .inr { slice := sl, index := 0, units := 0, tally := slot, warm := home.map fun h => (h, warmSize k.pset) }

/-- The whole judgement of a request on a key's present attributes. -/
def State.restrictTake (s : State) (sl : Nat) (q : Restrict) (k : KeyRec) : Nat × Nat ⊕ Reservation :=
  match s.restrictBad sl q k with
  | some x => .inl x
  | none => s.restrictRoom sl q k

/-- The key after a request that has what it needs: a key that turns TALLIED takes ceilings above its counters where it is
RESIDENT (R228), one that turns WARM its home quad (R111). -/
def Restrict.made (q : Restrict) (k : KeyRec) (rv : Reservation) : KeyRec :=
  let k1 := q.apply k
  let k2 : KeyRec :=
    if k1.tallied && !k.tallied && k.resident then { k1 with invCeil := k.inv + 2 ^ 20, usedCeil := k.tallyUsed + 2 ^ 20 } else k1
  match rv.warm with
  | some (h, _) => k2.warmIn h
  | none => k2

/-- The units that hold a key's replica have a right to it from before its custody group was named (R307). -/
def State.holdRights (s : State) (k : KeyRec) : State :=
  { s with clu := { s.clu with
      rights := s.clu.rights ++ (s.clu.replicas.filter fun x => x.1 = k.place).map fun x => (k.handle, (s.member x.2).uid) } }

/-- A key takes its new attributes, and its archive record with them; a key out of its replication set leaves the members
(R306). -/
def State.restrictDo (s : State) (q : Restrict) (k : KeyRec) (rv : Reservation) : State × KeyRec :=
  let k1 := q.made k rv
  let s0 := if k.custody = 0xFFFF && k1.custody != 0xFFFF then s.holdRights k else s
  let s1 := (s0.putKey k1).archWrite k1 none
  (if k1.replSet = k.replSet then s1 else (s1.dropReplicas k.place k.handle fun _ => true).bumpSet k.replSet, k1)

end Sys2Proof.Machine
end

