-- ==== Sys2Proof/Machine/BindJob.lean ====
section
/-! DEFINITION. One job's binding in order: state, stream, attributes, place, handles, charges, masks, engine (R20, R216). -/
namespace Sys2Proof.Machine
open Sys2Proof

/-- What a job takes so far on its way to being bound. -/
structure Taking where
  resv : Option Reservation := none
  keyA : Option KeyRec := none
  keyB : Option KeyRec := none
  left : Nat := 0xFFFFFFFF
  inv : Nat := 0
  approval : Option Nat := none
  rnd : Option Bytes := none
  deriving DecidableEq, Repr

/-- What a binding comes to before an engine is taken: refused, or what the job takes. -/
abbrev Bind := State × (Refuse ⊕ Taking)

/-- A stage of a binding follows one that was not refused. -/
def Bind.andThen (b : Bind) (f : State → Taking → Bind) : Bind :=
  match b with
  | (s, .inl r) => (s, .inl r)
  | (s, .inr t) => f s t

/-- The attribute check and the reservation of a creating job (R99, R221, R223). -/
def State.takePlace (s : State) (j : Job) (t : Taking) : Bind :=
  let v := s.jobView j
  match newKeyOf v j.entry with
  | none =>
    if eOp j.entry = 0x0509 && eB j.entry 0x3E != 1 && eB j.entry 0x3E != 2 then (s, .inl { code := cUsage, detail := 0x12 })
    else (s, .inr t)
  | some n =>
    match s.newKeyBad j.slice n with
    | some d => (s, .inl { code := cUsage, detail := d })
    | none =>
      match s.reserve j.slice n (unitsOf v n.ktype n.alg n.pset n.klen) with
      | (s1, .inl r) => (s1, .inl r)
      | (s1, .inr r) => (s1, .inr { t with resv := some r })

/-- KEY_A checked and charged (Table 10.5): its state as charged, and the copy the job keeps. A restriction is judged here
on the key's present attributes, before anything is taken (R221, R237). -/
def State.takeKeyA (s : State) (j : Job) (m : MemOutcome) (t : Taking) : Bind :=
  let v := s.jobView j
  let n := needA v j.entry
  let h := eKeyA j.entry
  if h = 0 then
    if n.required then (s, .inl { code := cNotFound, detail := 3 }) else (s, .inr t)
  else
    match s.checkKey j.slice j.curveSlots j.entry j.input n h m with
    | (s1, .inl r) => (s1, .inl r)
    | (s1, .inr (k, ap)) =>
      let k1 := if n.tally then k.charged n.charge n.inv.isSome s1.tick else k
      let t1 : Taking := { t with keyA := some k, left := tallyLeft k1, inv := k.inv, approval := ap }
      if eOp j.entry = 0x0505 then
        match s1.restrictTake j.slice (restrictOf j.entry) k with
        | .inl (c, d) => (s1, .inl { code := c, detail := d })
        | .inr rv => (s1, .inr { t1 with resv := some rv })
      else (s1.putKey k1, .inr t1)

/-- KEY_B checked and charged; its failure withdraws what KEY_A was charged (R216). -/
def State.takeKeyB (s : State) (j : Job) (m : MemOutcome) (t : Taking) : Bind :=
  match needB j.entry with
  | none => (s, .inr t)
  | some n =>
    let h := eKeyB j.entry
    let back := fun (s : State) => match t.keyA with | some k => s.putKey k | none => s
    if h = 0 then (s, .inr t)
    else
      match s.checkKey j.slice j.curveSlots j.entry j.input n h m with
      | (s1, .inl r) => (back s1, .inl r)
      | (s1, .inr (k, _)) => (s1.putKey (k.charged n.charge false s1.tick), .inr { t with keyB := some k })

/-- What a stream refuses before any handle is looked at (R165, R173, R174). -/
def State.takeStream (s : State) (j : Job) (t : Taking) : Bind :=
  let p := symPar j.entry
  match s.streamBad j with
  | some d => (s, .inl { code := cForbids, detail := d })
  | none =>
    if s.limitBad j then (s, .inl { code := cBadLength, detail := 3 })
    else if isSegment j.entry && p.fst then
      if !s.tallyFree j.slice then (s, .inl { code := cCapacity, detail := 0x43 })
      else if 16 * (s.slice j.slice).alloc.staging ≤ (s.slice j.slice).streams.length then
        (s, .inl { code := cCapacity, detail := 0x44 })
      else (s, .inr t)
    else (s, .inr t)

/-- The handles of an entry, or for a later segment the key its stream recorded (R172), whose state in DRAM is read back: a
failure closes the stream and always leaves an ALARM (R175). -/
def State.takeKeys (s : State) (j : Job) (m : MemOutcome) (t : Taking) : Bind :=
  if isSegment j.entry && !(symPar j.entry).fst then
    match s.stream j.slice (symPar j.entry).stream with
    | none => (s, .inl { code := cForbids, detail := 0x19 })
    | some st =>
      let (s1, bad, rec) := s.memAccess m
      if bad.isSome || m = .replayed then
        let s2 := if rec || (match bad with | some (c, _) => c != cMemory | none => false) then s1 else
          s1.record 0x0402 4 (srcSlice j.slice) (toLE 2 j.slice ++ toLE 4 (symPar j.entry).stream ++ toLE 1 0xFF)
        let c := match bad with | some (c, d) => if c = cMemory then (cMemory, 5) else (c, d) | none => (cMemory, 5)
        (s2.closeStream j.slice (symPar j.entry).stream, .inl { code := c.1, detail := c.2, recorded := rec || c.1 = cMemory })
      else (s1, .inr { t with keyA := st.key, left := match st.key with | some k => tallyLeft k | none => 0xFFFFFFFF })
  else if (match needB j.entry with | some n => n.required && eKeyB j.entry = 0 | none => false) then
    (s, .inl { code := cNotFound, detail := 3 })
  else ((s.takeKeyA j m t)).andThen fun s1 t1 => s1.takeKeyB j m t1

/-- The state in which a job may use handles at all (R213). -/
def State.takeState (s : State) (j : Job) : Bind :=
  if s.lcsCode != 4 && (eKeyA j.entry != 0 || eKeyB j.entry != 0) then (s, .inl { code := cForbids, detail := 0x10 })
  else (s, .inr {})

/-- Everything a binding judges before an engine is taken. -/
def State.taking (s : State) (j : Job) (m : MemOutcome) : Bind :=
  (((s.takeState j).andThen fun s1 t => s1.takeStream j t).andThen fun s1 t => s1.takePlace j t).andThen
    fun s1 t => s1.takeKeys j m t

/-- The stream a segment opens or goes on with reads busy (R172, R174). -/
def State.streamTake (s : State) (j : Job) (key : Option KeyRec) (nonce : Bytes) : State :=
  if !isSegment j.entry then s
  else
    let p := symPar j.entry
    let v := s.slice j.slice
    let t : Stream := match NMap.find v.streams p.stream with
      | some t => { t with busy := true }
      | none =>
        { keyA := eKeyA j.entry, alg := p.alg, sub := p.sub, tagLen := p.tag, nlen := p.nlen, nonce := nonce, key := key
          opcode := p.op, nextStep := 0, busy := true }
    s.setSlice j.slice { v with streams := NMap.set v.streams p.stream t }

/-- Whether an engine is a tile of the home quad of a WARM key whose table is complete (R112). -/
def warmOn (k : Option KeyRec) (g : Engine) : Bool :=
  match k, g with
  | some x, .tile t => x.warm && x.warmReady && x.warmQuad = some (t.val / 4)
  | _, _ => false

/-- What a job works under from its binding on (R20, R89, R168): engine, copies of its keys, nonce, fresh values, limit. -/
def State.mkBound (s : State) (j : Job) (g : Engine) (t : Taking) : State × Bound :=
  let p := symPar j.entry
  let (rnd, s1) := match t.rnd with
    | some b => (b, s)
    | none => if opSecret (eOp j.entry) then s.free 256 else ([], s)
  let isSym := j.cls = .sym && eOp j.entry != 0x0404 && eOp j.entry != 0x0401
  let later := isSegment j.entry && !p.fst
  let nonce := if !isSym then [] else
    if later then (match s.stream j.slice p.stream with | some x => x.nonce | none => [])
    else match t.keyA with | some k => s.formNonce p j.entry k rnd | none => []
  let tl := tileOf (some { eng := g })
  (s1, { eng := g, quad := tl / 4, warm := eOp j.entry = 0x0102 && warmOn t.keyA g, keyA := t.keyA, keyB := t.keyB, tallyLeft := t.left, inv := t.inv
         limit := fld (s.rg .qsc 0x078) 0 16, resv := t.resv, approval := t.approval
         stream := if isSegment j.entry then some p.stream else none, nonce := nonce, rnd := rnd, tick := s.tick })

/-- The job's binding takes effect: the approval is consumed, its stream reads busy, the engine is taken (R20, R261). -/
def State.install (s : State) (j : Job) (g : Engine) (t : Taking) : State :=
  let (s1, b) := s.mkBound j g t
  let s2 := (s1.consume j.slice t.approval (eKeyA j.entry)).streamTake j t.keyA b.nonce
  (s2.putJob { j with phase := .bound, bnd := some b, started := true }).engTake g

/-- A job at its FIFO's turn binds, is refused, or ends for want of masks (R19, R20, R199); a generate request that waits
for a pool word leaves it waiting (R198). -/
def State.bindJob (s : State) (j : Job) (g : Engine) (m : MemOutcome) (rng : EngineEnd) : State :=
  match s.taking j m with
  | (s1, .inl r) => s1.refuseJob j r
  | (s1, .inr t) =>
    if !opSecret (eOp j.entry) || j.cls = .rng then s1.install j g t
    else match s1.intRequest rng with
      | (s2, .got out) => (s2.waitOver j.id).install j g { t with rnd := some out }
      | (_, .wait) => s.waitFor j.id
      | (s2, .refused c d) =>
        let s3 := s2.consume j.slice t.approval (eKeyA j.entry)
        let s4 := if isSegment j.entry then s3.closeStream j.slice (symPar j.entry).stream else s3
        let j1 : Job := { j with bnd := some { eng := g, tallyLeft := t.left } }
        s4.finish j1 { code := c, detail := d, result := s4.stopRes j1 t.left } [] (c = cMismatch)

/-- What an RNG_READ meets at its binding before an instance is taken (R198, R199, R206). -/
def State.readBad (s : State) : Option (Nat × Nat) :=
  if s.rng.es = .failed then some (cEntropy, 3)
  else if [4, 5, 6, 7].all fun i => (s.inst i).st = .fault then some (cEntropy, 4)
  else if s.running8 [4, 5, 6, 7] = 0 then some (cRngNotReady, 2)
  else none

/-- An RNG_READ binds to the instance with the lowest count (R200), or ends at once. -/
def State.bindRead (s : State) (g : Engine) : State :=
  match s.nextJob .rng fun _ => true with
  | none => s
  | some j =>
    match s.readBad with
    | some (c, d) => s.refuseJob j { code := c, detail := d }
    | none => if s.engFits j g then s.bindJob j g .ok .ok else s

/-! ### Sharing of tiles (R82, R112) -/

/-- Whether staged work waits in the BULK item queue. -/
def State.itemWaits (s : State) : Bool :=
  s.eng.itemQueue.any fun q => match s.job q.1 with
    | some j => j.items.any fun i => i.idx = q.2 && i.ready
    | none => false

/-- Whether the next grant of R82's pattern of 16 goes to BULK: QSC_BULK_SHARE grants, evenly spaced. -/
def State.grantBulk (s : State) : Bool :=
  let sh := fld (s.rg .qsc 0x054) 0 4
  let i := s.eng.sharePos % 16
  i * sh / 16 != (i + 1) * sh / 16

/-- Whether a staged PK job could take a tile now: none that waits for a fence, a ceiling or a pool word. -/
def State.pkWaits (s : State) : Bool := (s.nextJob .pk fun j => !s.rng.waiters.contains j.id).isSome

/-- Whether both kinds wait for tiles, so that the pattern decides. -/
def State.shared (s : State) : Bool := s.pkWaits && s.itemWaits

/-- A grant of the pattern has been made: it moves on. -/
def State.shareStep (s : State) : State := { s with eng := { s.eng with sharePos := (s.eng.sharePos + 1) % 16 } }

/-- The home quad a verification must take a tile of while one is free there (R112). -/
def State.homeOf (s : State) (j : Job) : Option Nat :=
  if eOp j.entry != 0x0102 then none
  else match s.resolve j.slice (eKeyA j.entry) with
    | some k => if k.warm then k.warmQuad else none
    | none => none

/-- Whether a tile of a quad is free. -/
def State.quadFree (s : State) (q : Nat) : Bool :=
  (List.range 4).any fun i => if h : 4 * q + i < 96 then s.tileFree ⟨4 * q + i, h⟩ else false

/-- Whether a tile may serve a verification under a WARM key (R112). -/
def State.warmOk (s : State) (home : Option Nat) (t : Fin 96) : Bool :=
  match home with
  | some q => t.val / 4 = q || !s.quadFree q
  | none => true

end Sys2Proof.Machine
end

