-- ==== Sys2Proof/Machine/HashPass.lean ====
section
/-! DEFINITION. The passes that hash a message for a tile (R109, R141, R154): cipher lanes taken ahead of the SYM FIFO, and
quad Keccak units. -/
namespace Sys2Proof.Machine
open Sys2Proof

/-- Where the pass over a signed message of `len` octets runs (R109): on a cipher lane, on the quad's Keccak unit, or no
pass at all. -/
def PkPar.pass (p : PkPar) (len : Nat) : Option Bool :=
  if !p.msg then none
  else match p.alg with
    | 1 | 5 => some (!sha3Code p.hash)
    | 2 => if p.scheme = 2 || 64 < len then some (p.pset = 7) else none
    | 6 => if p.scheme = 1 then some (!sha3Code p.hash) else if 64 < len then some false else none
    | _ => none

/-- The octets of message in an input of `n` octets: what its key, signature and context leave (Table 5.8). -/
def signedLen (v : SliceView) (p : PkPar) (n : Nat) : Nat :=
  n - pkCtxLen p - (if p.op = 0x0102 then (if p.noA then pubLen v p.alg p.pset else 0) + sigLen v p.alg p.pset else 0)

/-- The pass a PK job needs; a curve's digest is computed on the quad's Keccak unit (R125). -/
def State.jobPass (s : State) (j : Job) : Option Bool :=
  let p := pkPar (eOp j.entry) j.entry
  if p.op = 0x0101 || p.op = 0x0102 then p.pass (signedLen (s.jobView j) p j.input.length)
  else if p.op = 0x0507 then some false else none

/-- A batch item's verification block. -/
def batchPar (e d : Bytes) : PkPar := { pkPar 0x0102 e with noA := Bytes.le d 0 8 = 0 }

/-- The descriptor of a batch item. -/
def Job.itemDesc (j : Job) (i : Nat) : Bytes := Bytes.sub j.input (32 * i) 32

/-- The pass a batch item needs; a chain hashes on units of its own (R154), and an item that its descriptor fails on none. -/
def State.itemPass (s : State) (j : Job) (i : Item) : Option Bool :=
  if eOp j.entry = 0x0202 && i.bad.isNone then
    let p := batchPar j.entry (j.itemDesc i.idx)
    p.pass (signedLen (s.jobView j) p i.body.length)
  else none

/-- Free cipher lanes, lowest first: their pages read READY. -/
def State.freeLanes (s : State) : List Engine :=
  (List.range 128).filterMap fun n => if h : n < 128 then
    if (s.hd (.scl ⟨n, h⟩)).st = .ready then some (.lane ⟨n, h⟩) else none else none

/-- Whether a tile can serve work whose message it hashes where `pass` says: not on a Keccak unit that is in FAULT. -/
def State.tileHashes (s : State) (t : Fin 96) (pass : Option Bool) : Bool := pass != some false || s.keccakOn (t.val / 4)

/-- The unit a pass for a tile takes now, if one is free: the lowest free lane, or the quad's Keccak unit, which serves the
four tiles of the quad and a symmetric job beside them (Table 8.12). -/
def State.passUnit (s : State) (lane : Bool) (t : Fin 96) : List Engine :=
  if lane then s.freeLanes.take 1 else [.keccak ⟨t.val / 4, by omega⟩]

/-- A bound PK job whose pass has no unit yet takes one. -/
def State.fillJob (s : State) (j : Job) : State :=
  match j.bnd with
  | some b => match b.eng, s.jobPass j with
    | .tile t, some lane =>
      if j.phase = .bound && b.hash.isEmpty && !b.hashed then
        let l := s.passUnit lane t
        l.foldl State.engTake (s.putJob { j with bnd := some { b with hash := l } })
      else s
    | _, _ => s
  | none => s

/-- An item on a tile whose pass has no unit yet takes one. -/
def State.fillItem (s : State) (j : Job) (i : Item) : State :=
  match i.tile, s.itemPass j i with
  | some t, some lane =>
    if h : t < 96 then
      if i.hash.isEmpty && !i.hashed then
        let l := s.passUnit lane ⟨t, h⟩
        l.foldl State.engTake
          (s.putJob { j with items := j.items.map fun x => if x.idx = i.idx then { i with hash := l } else x })
      else s
    else s
  | _, _ => s

/-- Passes that wait take the lanes and units that are free, in order of arrival, ahead of the SYM FIFO's head (R109). -/
def State.hashFill (s : State) : State :=
  s.jobs.foldl (fun a j =>
    let a1 := match a.job j.id with | some x => if x.cls = .pk then a.fillJob x else a | none => a
    j.items.foldl (fun c i => match c.job j.id with | some x => c.fillItem x i | none => c) a1) s

/-- A pass that runs on a lane. -/
def laneOf : List Engine → Option Engine
  | [.lane n] => some (.lane n)
  | _ => none

/-- The pass of a bound PK job may be over (R109; whether it is by now is a free value): its lane returns to the pool. -/
def State.passEnd (s : State) (j : Job) : State :=
  match j.cls, j.bnd with
  | .pk, some b => match laneOf b.hash with
    | some g =>
      let s1 : State := { s with freeN := s.freeN + 1 }
      if Config.passOver s.freeN then (s1.putJob { j with bnd := some { b with hash := [], hashed := true } }).engDrop g else s1
    | none => s
  | _, _ => s

/-- The pass of an item may be over. -/
def State.itemPassEnd (s : State) (j : Job) (i : Item) : State :=
  match i.tile, laneOf i.hash with
  | some _, some g =>
    let s1 : State := { s with freeN := s.freeN + 1 }
    if Config.passOver s.freeN then
      (s1.putJob { j with items := j.items.map fun x => if x.idx = i.idx then { i with hash := [], hashed := true } else x }).engDrop g
    else s1
  | _, _ => s

/-- Passes that are over by now return their lanes (R109). -/
def State.passEnds (s : State) : State :=
  s.jobs.foldl (fun a j =>
    let a1 := match a.job j.id with | some x => a.passEnd x | none => a
    j.items.foldl (fun c i => match c.job j.id with | some x => c.itemPassEnd x i | none => c) a1) s

/-- Whether a bound PK job still waits for the unit of its pass, so that its tile cannot be done. -/
def State.hashLacks (s : State) (j : Job) (b : Bound) : Bool :=
  !b.remote && (s.jobPass j).isSome && b.hash.isEmpty && !b.hashed

/-- The units a chain's parsing takes (R154): up to eight free lanes, or free Keccak units of powered quads. -/
def State.chainUnits (s : State) (sha3 : Bool) : List Engine :=
  if sha3 then
    ((List.range 24).filterMap fun q => if h : q < 24 then
      if s.keccakOn q && !s.engHeld (.keccak ⟨q, h⟩) then some (Engine.keccak ⟨q, h⟩) else none else none).take 8
  else s.freeLanes.take 8

end Sys2Proof.Machine
end

