-- ==== Sys2Proof/Machine/RunOps.lean ====
section
/-! DEFINITION. How an engine's run ends for the job it serves (R24, R116, R137, R184): mismatch, failed wipe, device memory. -/
namespace Sys2Proof.Machine
open Sys2Proof

/-- The ENGINE_MISMATCH detail of an end (R116); only ML-DSA signing has an iteration bound. -/
def endDetail (mldsa : Bool) : EngineEnd → Option Nat
  | .ok => none
  | .checkFailed => some 1
  | .detector => some 2
  | .iterationBound => if mldsa then some 3 else none

/-- The engine that a failure takes out of service: a job's first pair, the pair of a lane (R184, R185). -/
def failing : Engine → Engine
  | .pairs (p :: _) => .pairs [p]
  | .lane n => .pairs [⟨n.val / 2, by omega⟩]
  | g => g

/-- SRC of an engine's records (Table 16.3). -/
def engSrc : Engine → Nat
  | .tile t => srcTile t.val
  | .pairs (p :: _) => srcPair p.val
  | .lane n => srcPair (n.val / 2)
  | .keccak q => srcTile (4 * q.val)
  | _ => 0

/-- The RLD an entry named when it was checked (R150). -/
def State.jobRld (s : State) (j : Job) : Bytes := ((s.jobView j).rld (eB j.entry 0x38)).getD []

/-- ALG and PSET of a job: its entry's, or for a chain its RLD's (R147). -/
def State.jobAlg (s : State) (j : Job) : Nat × Nat :=
  if eOp j.entry = 0x0201 then (eB (s.jobRld j) 0x15, eB (s.jobRld j) 0x16) else (eB j.entry 0x38, eB j.entry 0x39)

/-- Whether an engine is a member's, which faults and records it itself. -/
def engElsewhere : Engine → Bool
  | .member _ => true
  | _ => false

/-- A failed check on an engine: it reads FAULT with the class of Table 19.3 and an ALARM record names slice, opcode,
algorithm and detail, for a tile PSET too (R116, R184); an engine of a member is that unit's own to fault and record. -/
def State.engMismatch (s : State) (sl op alg pset : Nat) (g : Engine) (d : Nat) : State :=
  let n := engSrc (failing g) % 0x1000
  if engElsewhere g then s
  else (s.engFault (failing g) d).record 0x0601 4 (engSrc (failing g))
    (toLE 1 n ++ toLE 2 sl ++ toLE 2 op ++ toLE 1 alg ++ (match failing g with | .pairs _ => [] | _ => toLE 1 pset) ++ toLE 2 d)

/-- A failed check on an engine that serves a job. -/
def State.mismatch (s : State) (j : Job) (g : Engine) (d : Nat) : State :=
  s.engMismatch j.slice (eOp j.entry) (s.jobAlg j).1 (s.jobAlg j).2 g d

/-- The engine of a job whose failure ends a run: the one that computes, or the unit that hashes for it (R109, R141). -/
def Bound.failed (b : Bound) (r : RunEnd) : Engine := if r.hashUnit then (b.hash.head?).getD b.eng else b.eng

/-- A bound job of an opcode, by its number, whose run ends here: on this unit's own engines, or on a member whose RESULT
has arrived (R310); none once PFW_N has fallen (R400). -/
def State.boundJob (s : State) (op id : Nat) : Option (Job × Bound) :=
  match s.job id with
  | some j =>
    match j.bnd with
    | some b =>
      if (!b.remote || b.arrived) && eOp j.entry = op && j.phase = .bound && !s.mute && !s.coreHeld b.eng then some (j, b) else none
    | none => none
  | none => none

/-- What stops a run before its result: device memory, or the engine (R116, R335). The result block the job then writes
is `res`, `pre` the output it had released. -/
def State.stopped (s : State) (j : Job) (b : Bound) (r : RunEnd) (mldsa : Bool) (pre res : Bytes) : Option State :=
  let (s1, bad, rec) := s.memAccess r.mem
  let shut := fun (s : State) => match b.stream with | some n => s.closeStream j.slice n | none => s
  match bad with
  | some (c, d) => some (((shut s1).finish j { code := c, detail := d, outLen := pre.length, result := res } pre rec).wipeNote b.eng r.wipeBad)
  | none =>
    match endDetail mldsa r.eng with
    | some d =>
      some (((shut (s1.mismatch j (b.failed r) d)).finish j
        { code := cMismatch, detail := d, outLen := pre.length, result := res } pre !engElsewhere (b.failed r)).wipeNote b.eng r.wipeBad)
    | none => none

/-- A job's own run on a tile ends: counted, and its wipe noted. -/
def State.tileEnd (s : State) (g : Engine) (bad : Option (Fin 16384)) : State := (s.tileCount g).wipeNote g bad

/-- The state after device memory answered a run that goes on. -/
def State.memNote (s : State) (r : RunEnd) : State := (s.memAccess r.mem).1

end Sys2Proof.Machine
end

