-- ==== Sys2Proof/Machine/Bench.lean ====
section
/-! DEFINITION. Bench mode (R132 to R138): entry and exit, the data window, the commands of Table 6.7. -/
namespace Sys2Proof.Machine
open Sys2Proof

/-! ### Operand memory -/

/-- The canonical form of an operand memory: addresses below 16,384 rise strictly, and no word listed is 0, which is what an
unlisted address reads as (R134, R137). -/
def Memory.wf (m : NMap (BitVec 40)) : Bool := NMap.wf m && m.all fun p => p.1 < 16384 && p.2 != 0

/-- A word of a tile's operand memory. -/
def Tile.word (t : Tile) (a : Nat) : Nat := (NMap.getD t.mem a 0).toNat

/-- The tile with a word written; a zero word is not listed. -/
def Tile.put (t : Tile) (a v : Nat) : Tile :=
  { t with mem := if v % 2 ^ 40 = 0 then NMap.del t.mem a else NMap.set t.mem a (BitVec.ofNat 40 v) }

/-- The words of a region. -/
def Tile.words (t : Tile) (a n : Nat) : List Nat := (List.range n).map fun i => t.word (a + i)

/-- A region as an integer, least significant limb first (R106). -/
def Tile.num (t : Tile) (a n : Nat) : Nat := (t.words a n).foldr (fun w x => w + 2 ^ 40 * x) 0

/-- An integer as `n` limbs. -/
def limbs : Nat → Nat → List Nat
  | 0, _ => []
  | n + 1, v => v % 2 ^ 40 :: limbs n (v / 2 ^ 40)

/-- Words written from an address on. -/
def Tile.store (t : Tile) (a : Nat) (l : List Nat) : Tile :=
  (List.zip (List.range l.length) l).foldl (fun x p => x.put (a + p.1) p.2) t

/-- A wiped tile: all words zero, the modulus cleared (Table 6.9). -/
def Tile.wiped (t : Tile) : Tile := { t with mem := [], modulus := none, result := none, busy := false }

/-! ### Entering and leaving (R132, R133) -/

/-- Whether some tile other than `t` could be the anchor. -/
def State.otherAnchor (s : State) (t : Fin 96) : Bool :=
  (List.range 96).any fun i => if h : i < 96 then i != t.val && s.anchorable ⟨i, h⟩ else false

/-- A tile's wipe in bench mode (R137): a word that reads back non-zero leaves ERR 8 and the tile in FAULT. DESIGN CHOICE: a
command that runs when bench mode ends is stopped by the wipe, with neither DONE nor an ERR of its own. -/
def State.benchWipe (s : State) (t : Fin 96) (bad : Option (Fin 16384)) : State :=
  let w := (s.tile t.val).wiped
  let s1 := s.setTile t.val (if bad.isSome then { w with err := 8 } else w)
  s1.wipeNote (.tile t) bad

/-- PKT_BENCH_CTRL.ENTER. -/
def benchEnterBody (t : Fin 96) (bad : Option (Fin 16384)) (s : State) : State :=
  s.onPage (.pkt t) fun s =>
    if s.lcsCode != 1 && s.lcsCode != 5 then s.refuse (.pkt t) cForbids 1
    else if (s.hd (.pkt t)).st != .offline then s.refuse (.pkt t) cForbids 2
    else if !s.otherAnchor t then s.refuse (.pkt t) cForbids 5
    else
      let s1 := s.benchWipe t bad
      let s2 := s1.setTile t.val { s1.tile t.val with bench := true }
      s2.record 0x0A04 2 (srcTile t.val) (toLE 1 t.val ++ toLE 1 s.lcsCode)

/-- BENCH_ENTER. -/
def execBenchEnter (tile : Fin 96) (wipeBad : Option (Fin 16384)) (s : State) : Host.Outcome State Fault Refusal :=
  .next (s.hostReq (.benchEnter tile wipeBad) (benchEnterBody tile wipeBad))

/-- Bench mode ends on a tile: its memory is wiped, BENCH reads 0 (R133). -/
def State.benchLeave (s : State) (t : Fin 96) (bad : Option (Fin 16384)) : State :=
  let s1 := s.benchWipe t bad
  s1.setTile t.val { s1.tile t.val with bench := false }

/-- A bench operation on a page acts only in bench mode and, where it must, while no command runs (R133, R134). -/
def State.onBench (s : State) (t : Fin 96) (idle : Bool) (f : State → State) : State :=
  s.onPage (.pkt t) fun s =>
    if !(s.tile t.val).bench then s.refuse (.pkt t) cForbids 3
    else if idle && (s.tile t.val).busy then s.refuse (.pkt t) cForbids 4
    else f s

/-- PKT_BENCH_CTRL.EXIT. -/
def benchExitBody (t : Fin 96) (bad : Option (Fin 16384)) (s : State) : State :=
  s.onBench t false fun s => s.benchLeave t bad

/-- BENCH_EXIT. -/
def execBenchExit (tile : Fin 96) (wipeBad : Option (Fin 16384)) (s : State) : Host.Outcome State Fault Refusal :=
  .next (s.hostReq (.benchExit tile wipeBad) (benchExitBody tile wipeBad))

/-- PKT_BENCH_CTRL.ABORT (Table 6.9): the D region of the stopped command is indeterminate, held as free words. -/
def benchAbortBody (t : Fin 96) (s : State) : State :=
  s.onPage (.pkt t) fun s =>
    let x := s.tile t.val
    if !x.busy then s
    else
      let n := match x.result with | some l => l.length | none => 0
      let (fr, s1) := s.free (5 * n)
      let y : Tile := { x with busy := false, done := true, err := 7, waves := 0, result := none }
      s1.setTile t.val (y.store x.d ((chunks 5 fr).map leNat))

/-- BENCH_ABORT. -/
def execBenchAbort (tile : Fin 96) (s : State) : Host.Outcome State Fault Refusal :=
  .next (s.hostReq (.benchAbort tile) (benchAbortBody tile))

/-- An access to PKT_BENCH_DATA_HI (R134): a write applies the pair, and each access that is not refused moves the address
on, a read in service mode too (Table 6.6). -/
def benchDataBody (t : Fin 96) (write : Bool) (v : BitVec 32) (s : State) : State :=
  let x := s.tile t.val
  let step := fun (y : Tile) => { y with addr := (y.addr + 1) % 16384 }
  if write then
    s.onBench t true fun s => s.setTile t.val (step (x.put x.addr ((v.toNat % 256) * 2 ^ 32 + x.dataLo.toNat)))
  else s.onPage (.pkt t) fun s => s.setTile t.val (step x)

/-- BENCH_DATA_ACCESS. -/
def execBenchDataAccess (tile : Fin 96) (write : Bool) (v : BitVec 32) (s : State) : Host.Outcome State Fault Refusal :=
  .next (s.hostReq (.benchDataAccess tile write v) (benchDataBody tile write v))

/-! ### Commands (R135, R136) -/

/-- The shape of a command: its words per operand, whether it reads A and B and writes D, whether it is modular. -/
structure BenchOp where
  op : Nat
  lattice : Bool := false
  words : Nat
  useA : Bool := true
  useB : Bool := false
  useD : Bool := true
  modular : Bool := false
  waves : Nat := 0

/-- Whether D partly overlaps an operand: equal addresses are allowed. -/
def partly (d a n : Nat) : Bool := d != a && d < a + n && a < d + n

/-- Whether a packed ML-KEM polynomial is well formed (Table 6.8, ERR 6). -/
def kemWordsBad (l : List Nat) : Bool :=
  (l.any fun w => 2 ^ 39 ≤ w || 3329 ≤ w % 2 ^ 13 || 3329 ≤ w / 2 ^ 13 % 2 ^ 13 || 3329 ≤ w / 2 ^ 26 % 2 ^ 13) || 2 ^ 13 ≤ l.getD 85 0

/-- The coefficients of a packed polynomial. -/
def kemUnpack (l : List Nat) : List Nat := ((l.map fun w => [w % 2 ^ 13, w / 2 ^ 13 % 2 ^ 13, w / 2 ^ 26 % 2 ^ 13]).flatten).take 256

/-- Coefficients packed three to a word (R106). -/
def kemPack (l : List Nat) : List Nat :=
  (pieces 3 l.length l).map fun p => p.getD 0 0 + 2 ^ 13 * p.getD 1 0 + 2 ^ 26 * p.getD 2 0

/-- The condition of Table 6.8 with the lowest ERR that a command meets; `l` is its limb count. -/
def benchErr (t : Tile) (o : BenchOp) (l : Nat) : Option Nat :=
  let n := o.words
  let a := t.num t.a n
  let b := t.num t.b n
  let far := fun (use : Bool) (x : Nat) => use && 16384 < x + n
  if (if o.lattice then l != 0 else l = 0 || 205 < l) || far o.useA t.a || far o.useB t.b || far o.useD t.d ||
      (o.useD && ((o.useA && partly t.d t.a n) || (o.useB && partly t.d t.b n))) then some 2
  else if o.modular && (match t.modulus with | some (m, _) => m ≤ a || (o.useB && m ≤ b) | none => false) then some 3
  else if o.modular && (match t.modulus with | some (_, k) => k != l | none => true) then some 4
  else if o.op = 1 && (a % 2 = 0 || a < 3) then some 4
  else if o.op = 8 && (match t.modulus with | some (m, _) => Nat.gcd a m != 1 | none => false) then some 5
  else if (o.op = 0x10 && (t.words t.a n).any fun w => qDsa ≤ w) ||
      (o.op = 0x12 && ((t.words t.a n).any (fun w => qDsa ≤ w) || (t.words t.b n).any fun w => qDsa ≤ w)) then some 6
  else if ((o.op = 0x18 || o.op = 0x19) && kemWordsBad (t.words t.a n)) ||
      (o.op = 0x1A && (kemWordsBad (t.words t.a n) || kemWordsBad (t.words t.b n))) then some 6
  else none

/-- A write of GO (R135, R136): a command that meets a condition ends at once; another runs with its result held until
it ends. `f` gives the words at D from A, B, the modulus and the limb count. -/
def State.benchGo (s : State) (t : Fin 96) (l : BitVec 8) (o : BenchOp) (f : Tile → Nat → List Nat) : State :=
  s.onBench t true fun s =>
    let x : Tile := { s.tile t.val with op := o.op, l := l.toNat }
    match benchErr x o l.toNat with
    | some e => s.setTile t.val { x with done := true, err := e, waves := 0 }
    | none =>
      let m := match x.modulus with | some (m, _) => m | none => 1
      s.setTile t.val { x with busy := true, result := some ((f x m).map (BitVec.ofNat 40)), waves := o.waves }

/-- Waves of a modular multiplication of `l` limbs (R127's arithmetic, Table 6.7). -/
def mulWaves (l : BitVec 8) : Nat := 2 * ((l.toNat * l.toNat + 15) / 16)

/-- R^-1 for a tile's modulus and limb count (R135). -/
def rInv (x : Tile) (m : Nat) : Nat := invMod m (2 ^ (40 * x.l) % m)

/-- SETMOD (Table 6.7): takes A as the modulus. -/
def setmodBody (t : Fin 96) (l : BitVec 8) (s : State) : State :=
  s.benchGo t l { op := 1, words := l.toNat, useD := false } fun _ _ => []

/-- SETMOD. -/
def execSetmod (tile : Fin 96) (l : BitVec 8) (s : State) : Host.Outcome State Fault Refusal :=
  .next (s.hostReq (.setmod tile l) (setmodBody tile l))

/-- MUL. -/
def mulBody (t : Fin 96) (l : BitVec 8) (s : State) : State :=
  s.benchGo t l { op := 2, words := l.toNat, useB := true, modular := true, waves := mulWaves l } fun x m =>
    limbs x.l (x.num x.a x.l * x.num x.b x.l * rInv x m % m)

/-- MUL. -/
def execBenchMul (tile : Fin 96) (l : BitVec 8) (s : State) : Host.Outcome State Fault Refusal :=
  .next (s.hostReq (.benchMul tile l) (mulBody tile l))

/-- SQR. -/
def sqrBody (t : Fin 96) (l : BitVec 8) (s : State) : State :=
  s.benchGo t l { op := 3, words := l.toNat, modular := true, waves := mulWaves l } fun x m =>
    limbs x.l (x.num x.a x.l * x.num x.a x.l * rInv x m % m)

/-- SQR. -/
def execBenchSqr (tile : Fin 96) (l : BitVec 8) (s : State) : Host.Outcome State Fault Refusal :=
  .next (s.hostReq (.benchSqr tile l) (sqrBody tile l))

/-- ADD. -/
def addBody (t : Fin 96) (l : BitVec 8) (s : State) : State :=
  s.benchGo t l { op := 4, words := l.toNat, useB := true, modular := true } fun x m =>
    limbs x.l ((x.num x.a x.l + x.num x.b x.l) % m)

/-- ADD. -/
def execBenchAdd (tile : Fin 96) (l : BitVec 8) (s : State) : Host.Outcome State Fault Refusal :=
  .next (s.hostReq (.benchAdd tile l) (addBody tile l))

/-- SUB. -/
def subBody (t : Fin 96) (l : BitVec 8) (s : State) : State :=
  s.benchGo t l { op := 5, words := l.toNat, useB := true, modular := true } fun x m =>
    limbs x.l ((x.num x.a x.l + m - x.num x.b x.l) % m)

/-- SUB. -/
def execBenchSub (tile : Fin 96) (l : BitVec 8) (s : State) : Host.Outcome State Fault Refusal :=
  .next (s.hostReq (.benchSub tile l) (subBody tile l))

/-- TOMONT. -/
def tomontBody (t : Fin 96) (l : BitVec 8) (s : State) : State :=
  s.benchGo t l { op := 6, words := l.toNat, modular := true, waves := mulWaves l } fun x m =>
    limbs x.l (x.num x.a x.l * 2 ^ (40 * x.l) % m)

/-- TOMONT. -/
def execTomont (tile : Fin 96) (l : BitVec 8) (s : State) : Host.Outcome State Fault Refusal :=
  .next (s.hostReq (.tomont tile l) (tomontBody tile l))

/-- FROMMONT. -/
def frommontBody (t : Fin 96) (l : BitVec 8) (s : State) : State :=
  s.benchGo t l { op := 7, words := l.toNat, modular := true, waves := mulWaves l } fun x m =>
    limbs x.l (x.num x.a x.l * rInv x m % m)

/-- FROMMONT. -/
def execFrommont (tile : Fin 96) (l : BitVec 8) (s : State) : Host.Outcome State Fault Refusal :=
  .next (s.hostReq (.frommont tile l) (frommontBody tile l))

/-- INV. -/
def invBody (t : Fin 96) (l : BitVec 8) (s : State) : State :=
  s.benchGo t l { op := 8, words := l.toNat, modular := true } fun x m => limbs x.l (invMod m (x.num x.a x.l))

/-- INV. -/
def execBenchInv (tile : Fin 96) (l : BitVec 8) (s : State) : Host.Outcome State Fault Refusal :=
  .next (s.hostReq (.benchInv tile l) (invBody tile l))

/-- CMP. -/
def cmpBody (t : Fin 96) (l : BitVec 8) (s : State) : State :=
  s.benchGo t l { op := 9, words := l.toNat, useB := true, useD := false } fun _ _ => []

/-- CMP. -/
def execBenchCmp (tile : Fin 96) (l : BitVec 8) (s : State) : Host.Outcome State Fault Refusal :=
  .next (s.hostReq (.benchCmp tile l) (cmpBody tile l))

/-- COPY. -/
def copyBody (t : Fin 96) (l : BitVec 8) (s : State) : State :=
  s.benchGo t l { op := 0x0A, words := l.toNat } fun x _ => x.words x.a x.l

/-- COPY. -/
def execBenchCopy (tile : Fin 96) (l : BitVec 8) (s : State) : Host.Outcome State Fault Refusal :=
  .next (s.hostReq (.benchCopy tile l) (copyBody tile l))

/-- CLEAR. -/
def clearBody (t : Fin 96) (l : BitVec 8) (s : State) : State :=
  s.benchGo t l { op := 0x0B, words := l.toNat, useA := false } fun x _ => List.replicate x.l 0

/-- CLEAR. -/
def execBenchClear (tile : Fin 96) (l : BitVec 8) (s : State) : Host.Outcome State Fault Refusal :=
  .next (s.hostReq (.benchClear tile l) (clearBody tile l))

/-- NTT_DSA. -/
def nttDsaBody (t : Fin 96) (l : BitVec 8) (s : State) : State :=
  s.benchGo t l { op := 0x10, lattice := true, words := 256, waves := 128 } fun x _ => nttDsa (x.words x.a 256)

/-- NTT_DSA. -/
def execNttDsa (tile : Fin 96) (l : BitVec 8) (s : State) : Host.Outcome State Fault Refusal :=
  .next (s.hostReq (.nttDsa tile l) (nttDsaBody tile l))

/-- INTT_DSA. -/
def inttDsaBody (t : Fin 96) (l : BitVec 8) (s : State) : State :=
  s.benchGo t l { op := 0x11, lattice := true, words := 256, waves := 160 } fun x _ => inttDsa (x.words x.a 256)

/-- INTT_DSA. -/
def execInttDsa (tile : Fin 96) (l : BitVec 8) (s : State) : Host.Outcome State Fault Refusal :=
  .next (s.hostReq (.inttDsa tile l) (inttDsaBody tile l))

/-- PWM_DSA. -/
def pwmDsaBody (t : Fin 96) (l : BitVec 8) (s : State) : State :=
  s.benchGo t l { op := 0x12, lattice := true, words := 256, useB := true, waves := 32 } fun x _ =>
    List.zipWith (fun a b => a * b % qDsa) (x.words x.a 256) (x.words x.b 256)

/-- PWM_DSA. -/
def execPwmDsa (tile : Fin 96) (l : BitVec 8) (s : State) : Host.Outcome State Fault Refusal :=
  .next (s.hostReq (.pwmDsa tile l) (pwmDsaBody tile l))

/-- NTT_KEM. -/
def nttKemBody (t : Fin 96) (l : BitVec 8) (s : State) : State :=
  s.benchGo t l { op := 0x18, lattice := true, words := 86, waves := 112 } fun x _ => kemPack (nttKem (kemUnpack (x.words x.a 86)))

/-- NTT_KEM. -/
def execNttKem (tile : Fin 96) (l : BitVec 8) (s : State) : Host.Outcome State Fault Refusal :=
  .next (s.hostReq (.nttKem tile l) (nttKemBody tile l))

/-- INTT_KEM. -/
def inttKemBody (t : Fin 96) (l : BitVec 8) (s : State) : State :=
  s.benchGo t l { op := 0x19, lattice := true, words := 86, waves := 144 } fun x _ => kemPack (inttKem (kemUnpack (x.words x.a 86)))

/-- INTT_KEM. -/
def execInttKem (tile : Fin 96) (l : BitVec 8) (s : State) : Host.Outcome State Fault Refusal :=
  .next (s.hostReq (.inttKem tile l) (inttKemBody tile l))

/-- BASEMUL_KEM. -/
def baseMulBody (t : Fin 96) (l : BitVec 8) (s : State) : State :=
  s.benchGo t l { op := 0x1A, lattice := true, words := 86, useB := true, waves := 80 } fun x _ =>
    kemPack (baseMulKem (kemUnpack (x.words x.a 86)) (kemUnpack (x.words x.b 86)))

/-- BASEMUL_KEM. -/
def execBasemulKem (tile : Fin 96) (l : BitVec 8) (s : State) : Host.Outcome State Fault Refusal :=
  .next (s.hostReq (.basemulKem tile l) (baseMulBody tile l))

/-- BENCH_COMMAND_DONE (R136 to R138): the running command ends, its words at D, or a completion detector trips and the
tile is wiped and reads FAULT. -/
def benchDone (t : Fin 96) (e : EngineEnd) (bad : Option (Fin 16384)) (s : State) : State :=
  let x := s.tile t.val
  if !x.busy then s
  else if e = .detector then
    let s1 := s.setTile t.val { x.wiped with done := true, err := 8, waves := 0 }
    ((s1.setSt (.pkt t) .fault 2).record 0x0601 4 (srcTile t.val)
      (toLE 1 t.val ++ toLE 1 x.op)).wipeNote (.tile t) bad
  else
    let y : Tile := { x with busy := false, done := true, err := 0, result := none }
    let a := x.num x.a x.l
    let b := x.num x.b x.l
    s.setTile t.val (
      if x.op = 1 then { y with modulus := some (a, x.l) }
      else if x.op = 9 then { y with cmp := if a = b then 0 else if b < a then 1 else 2 }
      else y.store x.d ((x.result.getD []).map BitVec.toNat))

/-- BENCH_COMMAND_DONE. -/
def execBenchCommandDone (tile : Fin 96) (e : EngineEnd) (wipeBad : Option (Fin 16384)) (s : State) :
    Host.Outcome State Fault Refusal := .next (benchDone tile e wipeBad s)

end Sys2Proof.Machine
end

