-- ==== Sys2Proof/Machine/CryptoPq.lean ====
section
/-! DEFINITION. ML-DSA (FIPS 204) and ML-KEM (FIPS 203), which R104 and R105 name: polynomials are lists of 256
coefficients modulo q. -/
namespace Sys2Proof

/-! ### Polynomials -/

/-- Coefficients added modulo q. -/
def polyAdd (q : Nat) (a b : List Nat) : List Nat := List.zipWith (fun x y => (x + y) % q) a b

/-- Coefficients subtracted modulo q. -/
def polySub (q : Nat) (a b : List Nat) : List Nat := List.zipWith (fun x y => (x + (q - y % q)) % q) a b

/-- The polynomial 0. -/
def polyZero : List Nat := List.replicate 256 0

/-- The sum of products of a row and a vector of transforms under a product `mul`. -/
def rowMul (q : Nat) (mul : List Nat → List Nat → List Nat) (row v : List (List Nat)) : List Nat :=
  (List.zipWith mul row v).foldl (polyAdd q) polyZero

/-- Coefficient-wise products modulo q: FIPS 204's product of transforms. -/
def pointMul (q : Nat) (a b : List Nat) : List Nat := List.zipWith (fun x y => x * y % q) a b

/-- Coefficients packed in `d` bits each, the lowest bit first. -/
def packBits (d : Nat) (l : List Nat) : Bytes :=
  (pieces 8 l.length l).flatMap fun c => toLE d (c.reverse.foldl (fun a x => a * 2 ^ d + x % 2 ^ d) 0)

/-- Coefficients of `d` bits each from their packing. -/
def unpackBits (d : Nat) (b : Bytes) : List Nat :=
  (chunks d b).flatMap fun c => (List.range 8).map fun i => leNat c / 2 ^ (d * i) % 2 ^ d

/-- The distance of a residue from 0 modulo q. -/
def normQ (q x : Nat) : Nat := Nat.min (x % q) (q - x % q)

/-! ### ML-KEM (FIPS 203); PSET is the parameter k -/

/-- The bits eta1, du and dv of a parameter set. -/
def kemPar (k : Nat) : Nat × Nat × Nat := (if k = 2 then 3 else 2, if k = 4 then 11 else 10, if k = 4 then 5 else 4)

/-- SampleNTT: residues below q from triples of octets. -/
def sampleNtt (seed : Bytes) : List Nat :=
  let c := (chunks 3 (shake128 840 seed)).flatMap fun t => [leNat t % 4096, leNat t / 4096]
  let l := (c.filter (· < qKem)).take 256
  l ++ List.replicate (256 - l.length) 0

/-- SamplePolyCBD: differences of two sums of `eta` bits. -/
def sampleCbd (eta : Nat) (b : Bytes) : List Nat :=
  let n := leNat b
  (List.range 256).map fun i =>
    let s := fun (o : Nat) => ((List.range eta).map fun j => n / 2 ^ (2 * i * eta + o + j) % 2).sum
    (s 0 + (qKem - s eta)) % qKem

/-- A noise polynomial: octet `n` after the seed. -/
def kemNoise (eta : Nat) (seed : Bytes) (n : Nat) : List Nat := sampleCbd eta (shake256 (64 * eta) (seed ++ toLE 1 n))

/-- Compress to `d` bits. -/
def kemCompress (d : Nat) (l : List Nat) : List Nat := l.map fun x => (2 * x * 2 ^ d + qKem) / (2 * qKem) % 2 ^ d

/-- Decompress from `d` bits. -/
def kemDecompress (d : Nat) (l : List Nat) : List Nat := l.map fun y => (2 * y * qKem + 2 ^ d) / 2 ^ (d + 1)

/-- The matrix of a seed: entry (i, j) from the octets j, i. -/
def kemMatrix (k : Nat) (rho : Bytes) : List (List (List Nat)) :=
  (List.range k).map fun i => (List.range k).map fun j => sampleNtt (rho ++ toLE 1 j ++ toLE 1 i)

/-- Vectors of 12-bit coefficients. -/
def kemVec (b : Bytes) : List (List Nat) := (chunks 384 b).map fun c => (unpackBits 12 c).map (· % qKem)

/-- K-PKE key generation from d: the encapsulation key and the secret vector, both transformed. -/
def kemKeygen (k : Nat) (d : Bytes) : Bytes × List (List Nat) :=
  let (eta, _, _) := kemPar k
  let g := sha3_512 (d ++ toLE 1 k)
  let rho := g.take 32
  let s := (List.range k).map fun i => nttKem (kemNoise eta (g.drop 32) i)
  let e := (List.range k).map fun i => nttKem (kemNoise eta (g.drop 32) (k + i))
  let t := List.zipWith (fun row x => polyAdd qKem (rowMul qKem baseMulKem row s) x) (kemMatrix k rho) e
  (t.flatMap (packBits 12) ++ rho, s)

/-- K-PKE encryption of a message of 32 octets. -/
def kemEncrypt (k : Nat) (ek m r : Bytes) : Bytes :=
  let (eta, du, dv) := kemPar k
  let t := kemVec (ek.take (384 * k))
  let a := kemMatrix k (ek.drop (384 * k))
  let y := (List.range k).map fun i => nttKem (kemNoise eta r i)
  let col := fun (i : Nat) => a.map fun row => row.getD i []
  let u := (List.range k).map fun i => polyAdd qKem (inttKem (rowMul qKem baseMulKem (col i) y)) (kemNoise 2 r (k + i))
  let v := polyAdd qKem (polyAdd qKem (inttKem (rowMul qKem baseMulKem t y)) (kemNoise 2 r (2 * k)))
    (kemDecompress 1 (unpackBits 1 m))
  (u.flatMap fun x => packBits du (kemCompress du x)) ++ packBits dv (kemCompress dv v)

/-- K-PKE decryption under a secret vector. -/
def kemDecrypt (k : Nat) (s : List (List Nat)) (ct : Bytes) : Bytes :=
  let (_, du, dv) := kemPar k
  let u := (chunks (32 * du) (ct.take (32 * du * k))).map fun c => kemDecompress du (unpackBits du c)
  let v := kemDecompress dv (unpackBits dv (ct.drop (32 * du * k)))
  packBits 1 (kemCompress 1 (polySub qKem v (inttKem (rowMul qKem baseMulKem s (u.map nttKem)))))

/-- The encapsulation key of d and z. -/
def mlkemEk (k : Nat) (dz : Bytes) : Bytes := (kemKeygen k (dz.take 32)).1

/-- Encapsulation of m: the shared key and the ciphertext. -/
def mlkemEncaps (k : Nat) (ek m : Bytes) : Bytes × Bytes :=
  let g := sha3_512 (m ++ sha3_256 ek)
  (g.take 32, kemEncrypt k ek m (g.drop 32))

/-- Decapsulation: the shared key, or the implicit-rejection key where the re-encryption differs (R105). -/
def mlkemDecaps (k : Nat) (dz ct : Bytes) : Bytes :=
  let (ek, s) := kemKeygen k (dz.take 32)
  let m := kemDecrypt k s ct
  let e := mlkemEncaps k ek m
  if e.2 = ct then e.1 else shake256 32 (dz.drop 32 ++ ct)

/-! ### ML-DSA (FIPS 204) -/

/-- The parameters of a set: k, l, eta, tau, gamma1, gamma2, beta, omega, octets of the commitment hash. -/
structure DsaPar where
  k : Nat
  l : Nat
  eta : Nat
  tau : Nat
  gamma1 : Nat
  gamma2 : Nat
  beta : Nat
  omega : Nat
  ct : Nat
  deriving DecidableEq, Repr

/-- The parameters of PSET 0x44, 0x65 and 0x87. -/
def dsaPar : Nat → DsaPar
  | 0x44 => { k := 4, l := 4, eta := 2, tau := 39, gamma1 := 2 ^ 17, gamma2 := 95232, beta := 78, omega := 80, ct := 32 }
  | 0x65 => { k := 6, l := 5, eta := 4, tau := 49, gamma1 := 2 ^ 19, gamma2 := 261888, beta := 196, omega := 55, ct := 48 }
  | _ => { k := 8, l := 7, eta := 2, tau := 60, gamma1 := 2 ^ 19, gamma2 := 261888, beta := 120, omega := 75, ct := 64 }

/-- RejNTTPoly: residues of 23 bits below q. -/
def dsaUniform (seed : Bytes) : List Nat :=
  let l := (((chunks 3 (shake128 1008 seed)).map fun t => leNat t % 2 ^ 23).filter (· < qDsa)).take 256
  l ++ List.replicate (256 - l.length) 0

/-- RejBoundedPoly: coefficients within eta of 0 from half octets. -/
def dsaBounded (eta : Nat) (seed : Bytes) : List Nat :=
  let half := fun (x : Nat) =>
    if eta = 2 then (if x < 15 then [(qDsa + 2 - x % 5) % qDsa] else []) else (if x < 9 then [(qDsa + 4 - x) % qDsa] else [])
  let l := ((shake256 544 seed).flatMap fun z => half (z.toNat % 16) ++ half (z.toNat / 16)).take 256
  l ++ List.replicate (256 - l.length) 0

/-- The matrix of a seed, transformed: entry (r, s) from the octets s, r. -/
def dsaMatrix (p : DsaPar) (rho : Bytes) : List (List (List Nat)) :=
  (List.range p.k).map fun r => (List.range p.l).map fun s => dsaUniform (rho ++ toLE 1 s ++ toLE 1 r)

/-- A matrix times a vector of transforms, back in the time domain. -/
def dsaMul (a : List (List (List Nat))) (v : List (List Nat)) : List (List Nat) :=
  a.map fun row => inttDsa (rowMul qDsa (pointMul qDsa) row v)

/-- Power2Round: the high part, and the low part as a residue. -/
def power2Round (x : Nat) : Nat × Nat :=
  let lo := x % 8192
  if lo ≤ 4096 then (x / 8192, lo) else (x / 8192 + 1, qDsa + lo - 8192)

/-- Decompose: the high part, and the low part as a residue. -/
def dsaDecompose (g2 x : Nat) : Nat × Nat :=
  let lo := x % (2 * g2)
  let (hi, r) := if lo ≤ g2 then (x - lo, lo) else (x - lo + 2 * g2, qDsa + lo - 2 * g2)
  if hi = qDsa - 1 then (0, (r + qDsa - 1) % qDsa) else (hi / (2 * g2), r % qDsa)

/-- A pair's expanded key: rho, K, tr, the vectors s1, s2 and t0, and the public key. -/
structure DsaKey where
  rho : Bytes
  kk : Bytes
  tr : Bytes
  s1 : List (List Nat)
  s2 : List (List Nat)
  t0 : List (List Nat)
  pub : Bytes
  deriving DecidableEq, Repr

/-- Key generation from a seed of 32 octets. -/
def dsaKeygen (p : DsaPar) (seed : Bytes) : DsaKey :=
  let h := shake256 128 (seed ++ toLE 1 p.k ++ toLE 1 p.l)
  let rho := h.take 32
  let rp := Bytes.sub h 32 64
  let s1 := (List.range p.l).map fun i => dsaBounded p.eta (rp ++ toLE 2 i)
  let s2 := (List.range p.k).map fun i => dsaBounded p.eta (rp ++ toLE 2 (p.l + i))
  let t := List.zipWith (polyAdd qDsa) (dsaMul (dsaMatrix p rho) (s1.map nttDsa)) s2
  let pub := rho ++ t.flatMap fun x => packBits 10 (x.map fun c => (power2Round c).1)
  { rho := rho, kk := h.drop 96, tr := shake256 64 pub, s1 := s1, s2 := s2
    t0 := t.map fun x => x.map fun c => (power2Round c).2, pub := pub }

/-- ExpandMask: the vector y of a counter. -/
def dsaMask (p : DsaPar) (seed : Bytes) (kappa : Nat) : List (List Nat) :=
  let d := if p.gamma1 = 2 ^ 17 then 18 else 20
  (List.range p.l).map fun r =>
    (unpackBits d (shake256 (32 * d) (seed ++ toLE 2 (kappa + r)))).map fun z => (qDsa + p.gamma1 - z) % qDsa

/-- SampleInBall's exchanges from place `i` on. -/
def ballSwaps (signs i : Nat) (tau : Nat) : List Byte → List Nat → List Nat
  | [], c => c
  | b :: t, c =>
    if 256 ≤ i then c
    else if i < b.toNat then ballSwaps signs i tau t c
    else
      let v := if signs.testBit (i + tau - 256) then qDsa - 1 else 1
      ballSwaps signs (i + 1) tau t ((c.set i (c.getD b.toNat 0)).set b.toNat v)

/-- SampleInBall: tau coefficients of one or minus one. -/
def sampleInBall (tau : Nat) (seed : Bytes) : List Nat :=
  let s := shake256 544 seed
  ballSwaps (leNat (s.take 8)) (256 - tau) tau (s.drop 8) polyZero

/-- w1Encode. -/
def dsaW1 (p : DsaPar) (w : List (List Nat)) : Bytes :=
  w.flatMap fun x => packBits (if p.gamma2 = 95232 then 6 else 4) (x.map fun c => (dsaDecompose p.gamma2 c).1)

/-- Whether every coefficient of a vector lies within less than `b` of 0. -/
def dsaWithin (b : Nat) (v : List (List Nat)) : Bool := v.all fun x => x.all fun c => normQ qDsa c < b

/-- HintBitPack: the places of a vector's ones, and the count after each polynomial. -/
def hintPack (p : DsaPar) (h : List (List Bool)) : Bytes :=
  let ones := h.map fun x => (List.range 256).filter fun i => x.getD i false
  let ends := (List.range p.k).map fun i => ((ones.take (i + 1)).map List.length).sum
  Bytes.fit (ones.flatten.map (BitVec.ofNat 8)) p.omega ++ ends.map (BitVec.ofNat 8)

/-- HintBitUnpack of a well-formed hint. -/
def hintUnpack (p : DsaPar) (b : Bytes) : List (List Bool) :=
  let ends := (b.drop p.omega).map BitVec.toNat
  (List.range p.k).map fun i =>
    let lo := if i = 0 then 0 else ends.getD (i - 1) 0
    let l := (Bytes.sub b lo (ends.getD i 0 - lo)).map BitVec.toNat
    (List.range 256).map fun x => l.contains x

/-- One iteration of the signing loop under a counter: a signature, or none where it is rejected. -/
def dsaTry (p : DsaPar) (key : DsaKey) (a : List (List (List Nat))) (mu seed : Bytes) (kappa : Nat) : Option Bytes :=
  let y := dsaMask p seed kappa
  let w := dsaMul a (y.map nttDsa)
  let ct := shake256 p.ct (mu ++ dsaW1 p w)
  let c := nttDsa (sampleInBall p.tau ct)
  let times := fun (v : List (List Nat)) => v.map fun x => inttDsa (pointMul qDsa c (nttDsa x))
  let z := List.zipWith (polyAdd qDsa) y (times key.s1)
  let r := List.zipWith (polySub qDsa) w (times key.s2)
  let r0 := r.map fun x => x.map fun v => (dsaDecompose p.gamma2 v).2
  if !dsaWithin (p.gamma1 - p.beta) z || !dsaWithin (p.gamma2 - p.beta) r0 then none
  else
    let ct0 := times key.t0
    let hi := fun (x : Nat) => (dsaDecompose p.gamma2 x).1
    let h := List.zipWith (List.zipWith fun x t => hi ((x + t) % qDsa) != hi x) r ct0
    if !dsaWithin p.gamma2 ct0 || p.omega < (h.map fun x => (x.filter id).length).sum then none
    else
      let d := if p.gamma1 = 2 ^ 17 then 18 else 20
      some (ct ++ (z.flatMap fun x => packBits d (x.map fun v => (qDsa + p.gamma1 - v) % qDsa)) ++ hintPack p h)

/-- The signing loop from iteration `i`, by fuel: the signature and how many iterations it took. -/
def dsaLoop (p : DsaPar) (key : DsaKey) (a : List (List (List Nat))) (mu seed : Bytes) : Nat → Nat → Option Bytes × Nat
  | 0, i => (none, i)
  | f + 1, i =>
    match dsaTry p key a mu seed (i * p.l) with
    | some s => (some s, i + 1)
    | none => dsaLoop p key a mu seed f (i + 1)

/-- Hedged signing of a formatted message, bounded at 1,024 iterations (R104). -/
def mldsaSign (pset : Nat) (seed msg rnd : Bytes) : Option Bytes × Nat :=
  let p := dsaPar pset
  let key := dsaKeygen p seed
  let mu := shake256 64 (key.tr ++ msg)
  dsaLoop p key (dsaMatrix p key.rho) mu (shake256 64 (key.kk ++ rnd ++ mu)) 1024 0

/-- The public key of a seed. -/
def mldsaPub (pset : Nat) (seed : Bytes) : Bytes := (dsaKeygen (dsaPar pset) seed).pub

/-- UseHint. -/
def useHint (g2 : Nat) (h : Bool) (x : Nat) : Nat :=
  let m := (qDsa - 1) / (2 * g2)
  let (hi, lo) := dsaDecompose g2 x
  if !h then hi
  else if 0 < lo && lo ≤ (qDsa - 1) / 2 then (hi + 1) % m else (hi + m - 1) % m

/-- Whether a signature whose z and hint are within range carries the challenge of a formatted message (R104). -/
def mldsaMatch (pset : Nat) (pub msg sig : Bytes) : Bool :=
  let p := dsaPar pset
  let d := if p.gamma1 = 2 ^ 17 then 18 else 20
  let a := dsaMatrix p (pub.take 32)
  let t := (chunks 320 (pub.drop 32)).map fun x => nttDsa ((unpackBits 10 x).map (· * 8192 % qDsa))
  let ct := sig.take p.ct
  let z := (chunks (32 * d) (Bytes.sub sig p.ct (32 * d * p.l))).map fun x =>
    nttDsa ((unpackBits d x).map fun v => (qDsa + p.gamma1 - v) % qDsa)
  let h := hintUnpack p (sig.drop (p.ct + 32 * d * p.l))
  let mu := shake256 64 (shake256 64 pub ++ msg)
  let c := nttDsa (sampleInBall p.tau ct)
  let w := List.zipWith (fun row x => inttDsa (polySub qDsa (rowMul qDsa (pointMul qDsa) row z) (pointMul qDsa c x))) a t
  let w1 := List.zipWith (List.zipWith (useHint p.gamma2)) h w
  let d1 := if p.gamma2 = 95232 then 6 else 4
  shake256 p.ct (mu ++ w1.flatMap (packBits d1)) = ct

end Sys2Proof
end

