-- ==== Sys2Proof/Machine/PkRun.lean ====
section
/-! DEFINITION. What a tile computes for a public-key operation (chapter 5), and which row of Table 5.16 an input meets. -/
namespace Sys2Proof.Machine
open Sys2Proof

/-- The Edwards curve of a parameter set. -/
def edOf (pset : Nat) : ECurve := if pset = 7 then ed25519 else ed448

/-- The object identifier's last octet of a hash under HashML-DSA (FIPS 204). -/
def hashOid : Nat → Nat
  | 1 => 1 | 2 => 2 | 3 => 3 | 4 => 8 | 5 => 9 | 6 => 0x0A | 7 => 0x0B | _ => 0x0C

/-- The formatted message of ML-DSA and HashML-DSA (FIPS 204). -/
def mldsaMsg (p : PkPar) (ctx m : Bytes) : Bytes :=
  let head := [BitVec.ofNat 8 ctx.length] ++ ctx
  if p.scheme = 0 then 0 :: head ++ m
  else 1 :: head ++ [0x06, 0x09, 0x60, 0x86, 0x48, 0x01, 0x65, 0x03, 0x04, 0x02, BitVec.ofNat 8 (hashOid p.hash)] ++
    (if p.msg then hashFix p.hash m else m)

/-- The digest a scheme signs: the input, or its hash under MSG = 1. -/
def pkDigest (p : PkPar) (m : Bytes) : Bytes := if p.msg then hashFix p.hash m else m

/-- The message EdDSA signs: prehashed for the ph schemes (R101). -/
def edMsg (p : PkPar) (m : Bytes) : Bytes := if p.scheme = 2 && p.msg then (edOf p.pset).prehash m else m

/-- What is wrong with an inline public key alone: the POINT_INVALID detail of Table 5.16. -/
def pubBad (c : Option WCurve) (alg pset : Nat) (pub : Bytes) : Option Nat :=
  match alg with
  | 1 | 3 => match c with | some w => w.pubBad pub | none => some 1
  | 2 => (edOf pset).pubBad pub
  | 5 => if rsaPubOk (32 * pset) pub then none else some 7
  | 7 => if kemEkOk pub then none else some 8
  | _ => none

/-- RSA signature verification: VERIFY_RANGE, then padding and digest (R103, Table 5.16). -/
def rsaVerify (p : PkPar) (pub sig m : Bytes) : Option (Nat × Nat) :=
  let k := 32 * p.pset
  let n := beNat (pub.take k)
  let x := beNat sig
  if n ≤ x then some (0x0302, 3)
  else
    let em := powMod n x (beNat (pub.drop k))
    let bits := bitLen n - 1
    let ok :=
      if p.scheme = 1 then
        em < 2 ^ (8 * ((bits + 7) / 8)) &&
          pssOk p.hash bits (pkDigest p m) (toBE ((bits + 7) / 8) em) (if p.aux = 0xFFFF then none else some p.aux)
      else toBE k em = v15Encode p.hash k (pkDigest p m)
    if ok then none else some (0x0301, 3)

/-- A verification as PK_VERIFY runs it, the key's own rows first (Table 5.16): `none` where the signature verifies. -/
def pkVerify (c : Option WCurve) (p : PkPar) (pub sig ctx m : Bytes) : Option (Nat × Nat) :=
  match p.alg with
  | 1 =>
    match c with
    | none => some (0x0303, 1)
    | some w => match w.pubBad pub with
      | some d => some (0x0303, d)
      | none => match w.verify (w.point pub) (pkDigest p m) sig with
        | none => none
        | some (0, d) => some (0x0302, d)
        | some (_, d) => some (0x0301, d)
  | 2 =>
    match (edOf p.pset).verify pub sig p.scheme ctx (edMsg p m) with
    | none => none
    | some (0, d) => some (0x0303, d)
    | some (1, d) => some (0x0302, d)
    | some (_, d) => some (0x0301, d)
  | 5 => if !rsaPubOk (32 * p.pset) pub then some (0x0303, 7) else rsaVerify p pub sig m
  | _ =>
    if !mldsaRangeOk p.pset sig then some (0x0302, 4)
    else if mldsaMatch p.pset pub (mldsaMsg p ctx m) sig then none else some (0x0301, 1)

/-- The code a verification ends with says whether the message was hashed: not in classes V and P (R117). -/
def hashedBy (p : PkPar) (r : Option (Nat × Nat)) : Bool :=
  p.msg && match r with | none => true | some (c, _) => c = 0x0301

/-- What a tile's computation comes to: a row of Table 5.16, or output, material and public key of a created key; `again`
where another per-message secret is to be drawn (R100), `bound` where ML-DSA signing ran its 1,024 iterations out (R104). -/
structure PkOut where
  bad : Option (Nat × Nat) := none
  out : Bytes := []
  hashed : Bool := false
  iter : Nat := 0
  material : Option Bytes := none
  pub : Bytes := []
  again : Bool := false
  bound : Bool := false
  deriving DecidableEq, Repr

/-- A scalar from 1 to n - 1 from free octets. -/
def scalarOf (n : Nat) (rnd : Bytes) : Nat := 1 + beNat rnd % (n - 1)

/-- Signing (R100 to R104) under a private key's material. -/
def pkSign (c : Option WCurve) (p : PkPar) (mat ctx m rnd : Bytes) : PkOut :=
  match p.alg with
  | 1 =>
    match c with
    | none => {}
    | some w => match ecdsaSign w (beNat (mat.take w.nlen)) (pkDigest p m) rnd with
      | some (r, s) => { out := toBE w.nlen r ++ toBE w.nlen s, hashed := p.msg }
      | none => { again := true, hashed := p.msg }
  | 2 => { out := (edOf p.pset).sign mat p.scheme ctx (edMsg p m), hashed := p.msg }
  | 5 =>
    let k := 32 * p.pset
    let r := rsaOf k mat
    let bits := bitLen r.n - 1
    let em := if p.scheme = 1 then pssEncode p.hash bits (pkDigest p m) (rnd.take p.aux) else v15Encode p.hash k (pkDigest p m)
    { out := toBE k (r.priv (beNat em)), hashed := p.msg }
  | _ =>
    let r := mldsaSign p.pset (mat.take 32) (mldsaMsg p ctx m) (rnd.take 32)
    { out := r.1.getD [], hashed := p.msg, iter := r.2, bound := r.1.isNone }

/-- A key pair's public key in the inline encoding, from its material. -/
def pubOf (c : Option WCurve) (alg pset : Nat) (mat : Bytes) : Bytes :=
  match alg with
  | 1 | 3 => match c with | some w => w.encode false (w.mul (beNat (mat.take w.nlen)) w.g) | none => []
  | 2 => (edOf pset).pub mat
  | 4 => xdh mat (xdhBase (if pset = 9 then 32 else 56))
  | 5 => mat.take (32 * pset + 32)
  | 6 => mldsaPub pset (mat.take 32)
  | _ => mlkemEk pset mat

/-- A new pair's material from free octets (R99, R102, R104, R105). -/
def pairMaterial (c : Option WCurve) (alg pset : Nat) (rnd : Bytes) : Bytes :=
  match alg with
  | 1 | 3 => match c with
    | some w => let d := scalarOf w.n (rnd.take (w.nlen + 8))
                toBE w.nlen d ++ w.encode false (w.mul d w.g)
    | none => []
  | 2 => rnd.take (if pset = 7 then 32 else 57)
  | 4 => rnd.take (if pset = 9 then 32 else 56)
  | 6 => rnd.take 32
  | _ => rnd.take 64

/-- A public key on output: compressed where COMP asks for it (R95). -/
def pubOut (c : Option WCurve) (alg : Nat) (comp : Bool) (pub : Bytes) : Bytes :=
  match c with
  | some w => if comp && (alg = 1 || alg = 3) then w.encode true (w.point pub) else pub
  | none => pub

/-- Key generation (R99); an ML-DSA pair signs a message of the request's own octets as its consistency test (R115). -/
def pkKeygen (c : Option WCurve) (p : PkPar) (rnd : Bytes) : PkOut :=
  let mat := pairMaterial c p.alg p.pset rnd
  let pub := pubOf c p.alg p.pset mat
  let t := if p.alg = 6 then mldsaSign p.pset mat (Bytes.sub rnd 64 32) (Bytes.sub rnd 32 32) else (some [], 0)
  { out := pubOut c p.alg p.comp pub, material := some mat, pub := pub, iter := t.2, bound := t.1.isNone }

/-- Derivation (R102) with a private key's material and the peer's public key. -/
def pkDerive (c : Option WCurve) (p : PkPar) (mat own peer : Bytes) : PkOut :=
  match p.alg with
  | 3 =>
    match c with
    | none => {}
    | some w => match w.pubBad peer with
      | some d => { bad := some (0x0303, d) }
      | none => match if w.orderBad (w.point peer) then none else w.mul (w.h * beNat (mat.take w.nlen)) (w.point peer) with
        | none => { bad := some (0x0303, 4) }
        | some (x, _) => { out := pubOut c 3 p.comp own, material := some (toBE w.len x) }
  | _ =>
    let z := xdh mat peer
    if z.all (· = 0) then { bad := some (0x0303, 9) } else { out := own, material := some z }

/-- Encapsulation (R105). -/
def kemEncaps (p : PkPar) (ek rnd : Bytes) : PkOut :=
  if !kemEkOk ek then { bad := some (0x0303, 8) }
  else
    let e := mlkemEncaps p.pset ek (rnd.take 32)
    { out := e.2, material := some e.1 }

/-- Decapsulation: the shared key or the implicit-rejection key, never a failure (R105). -/
def kemDecaps (p : PkPar) (mat ct : Bytes) : PkOut := { material := some (mlkemDecaps p.pset mat ct) }

/-- RSA_ENCRYPT (R103, Table 5.16). -/
def rsaEncrypt (p : PkPar) (pub label m rnd : Bytes) : PkOut :=
  let k := 32 * p.pset
  if !rsaPubOk k pub then { bad := some (0x0303, 7) }
  else { out := toBE k (powMod (beNat (pub.take k)) (beNat (oaepEncode p.hash k label m (rnd.take (hashLen p.hash)))) (beNat (pub.drop k))) }

/-- RSA_DECRYPT (R103, Table 5.16). -/
def rsaDecrypt (p : PkPar) (mat label ct : Bytes) : PkOut :=
  let k := 32 * p.pset
  let r := rsaOf k mat
  if r.n ≤ beNat ct then { bad := some (0x0302, 5) }
  else match oaepDecode p.hash label (toBE k (r.priv (beNat ct))) with
    | none => { bad := some (0x0301, 0x30) }
    | some m => if p.keyout then { material := some m } else { out := m }

end Sys2Proof.Machine
end

