-- ==== Sys2Proof/Machine/Pk.lean ====
section
/-! DEFINITION. The eight public-key opcodes (chapter 5): what a bound job completes with when its tile is done. -/
namespace Sys2Proof.Machine
open Sys2Proof

/-- The Weierstrass curve of a parameter set: fixed, or the loaded curve the entry named when it was checked (R129). -/
def State.wcurve (s : State) (j : Job) (pset : Nat) : Option WCurve :=
  if loadedId pset then (s.jobCurve j).map fun c => blockCurve c.block else fixedCurve pset

/-- The parameter block of a job. -/
def Job.pk (j : Job) : PkPar := pkPar (eOp j.entry) j.entry

/-- The public key of a job: inline at the head of its input, or its key's, and what follows it in the input. -/
def pubSplit (n : Nat) (inl : Bool) (k : Option KeyRec) (input : Bytes) : Bytes × Bytes :=
  if inl then (input.take n, input.drop n) else (match k with | some x => x.pub | none => [], input)

/-- The material of a job's key. -/
def matOf (k : Option KeyRec) : Bytes := match k with | some x => x.material | none => []

/-- A PK job ends with what its tile computed (R98, R99, R119): a created key takes its place, or goes
to the head whose job it is (R295), output is released. -/
def State.pkConclude (s : State) (j : Job) (b : Bound) (r : RunEnd) (o : PkOut) : State :=
  match o.bad with
  | some (c, d) =>
    (s.finish j { code := c, detail := d, result := pkResult j 0 o.hashed 0 b.tallyLeft } [] false).wipeNote b.eng r.wipeBad
  | none =>
    let (s1, h) :=
      match o.material, b.resv, newKeyOf (s.jobView j) j.entry with
      | some m, none, _ => (match j.remote with | some x => s.sendMove 0 (.created x.id m) | none => s, 0)
      | some m, some rv, some n => s.jobKey j rv (if n.ktype = 3 then { n with klen := m.length } else n) m o.pub id
      | _, _, _ => (s, 0)
    (s1.finish j { code := cOK, outLen := o.out.length, result := pkResult j h o.hashed o.iter b.tallyLeft } o.out false).wipeNote
      b.eng r.wipeBad

/-- RESULT of a PK job whose tile was stopped (Table 5.10): after a failed check all its work was done, at the iteration
bound 1,024 iterations, at a detector or a memory error as far as a free value says. -/
def pkStopRes (j : Job) (b : Bound) (o : PkOut) (r : RunEnd) (n : Nat) : Bytes :=
  let d := pkDone { j with released := n }
  match r.mem, r.eng with
  | .ok, .checkFailed => pkResult j 0 o.hashed o.iter b.tallyLeft
  | .ok, .iterationBound => pkResult j 0 o.hashed 1024 b.tallyLeft
  | _, _ => pkResult j 0 d.1 d.2 b.tallyLeft

/-- A tile draws another per-message secret (R100): one more request, under which the job signs again; it waits for a pool
word where the instance does, and ends where no instance serves it. -/
def State.drawAgain (s : State) (r : RunEnd) (j : Job) (b : Bound) : State :=
  if b.remote then let (x, s1) := s.free 256
                   s1.putJob { j with bnd := some { b with rnd := x, arrived := false } }
  else match s.intRequest (drawEnd r 0) with
    | (s1, .got x) => (s1.waitOver j.id).putJob { j with bnd := some { b with rnd := x } }
    | (_, .wait) => s.waitFor j.id
    | (s1, .refused c d) => s1.finish j { code := c, detail := d, result := pkResult j 0 j.pk.msg 0 b.tallyLeft } [] (c = cMismatch)

/-- A PK job's run ends: stopped, signing once more, or concluded with what `f` computes; nothing while the pass over its
message still waits for a unit (R109), unless its operands fail before the message is hashed (R117). -/
def State.pkEnd (s0 : State) (op id : Nat) (r0 : RunEnd) (f : State → Job → Bound → PkOut) : State :=
  let s := s0.hashFill
  match s.boundJob op id with
  | none => s
  | some (j, b) =>
    let o := f s j b
    if s.hashLacks j b && o.hashed then s
    else
      let r := if r0.eng = .ok && o.bound then { r0 with eng := .iterationBound } else r0
      let stop : State := { s with freeN := s.freeN + 1 }
      match stop.stopped j b r (j.pk.alg = 6 && (op = 0x0101 || op = 0x0103)) [] (pkStopRes j b o r (Config.progress s.freeN)) with
      | some s1 => s1
      | none => if o.again then (s.memNote r).drawAgain r j b else (s.memNote r).pkConclude j b r o

/-- What PK_SIGN computes: context, then message or digest (Table 5.8). -/
def signRun (s : State) (j : Job) (b : Bound) : PkOut :=
  let p := j.pk
  pkSign (s.wcurve j p.pset) p (matOf b.keyA) (j.input.take (pkCtxLen p)) (j.input.drop (pkCtxLen p)) b.rnd

/-- PK_SIGN. -/
def execPkSign (job : Nat) (r : RunEnd) (s : State) : Host.Outcome State Fault Refusal := .next (s.pkEnd 0x0101 job r signRun)

/-- What PK_VERIFY computes: key, signature, context, message or digest (Table 5.8). -/
def verifyRun (s : State) (j : Job) (b : Bound) : PkOut :=
  let p := j.pk
  let v := s.jobView j
  let (pub, rest) := pubSplit (pubLen v p.alg p.pset) p.noA b.keyA j.input
  let n := sigLen v p.alg p.pset
  let t := rest.drop n
  let out := pkVerify (s.wcurve j p.pset) p pub (rest.take n) (t.take (pkCtxLen p)) (t.drop (pkCtxLen p))
  { bad := out, hashed := hashedBy p out }

/-- PK_VERIFY. -/
def execPkVerify (job : Nat) (r : RunEnd) (s : State) : Host.Outcome State Fault Refusal := .next (s.pkEnd 0x0102 job r verifyRun)

/-- What PK_KEYGEN computes. -/
def keygenRun (s : State) (j : Job) (b : Bound) : PkOut := pkKeygen (s.wcurve j j.pk.pset) j.pk b.rnd

/-- PK_KEYGEN. -/
def execPkKeygen (job : Nat) (r : RunEnd) (s : State) : Host.Outcome State Fault Refusal := .next (s.pkEnd 0x0103 job r keygenRun)

/-- What PK_DERIVE computes: with KEY_A 0 an ephemeral pair whose public key is the output (R102). -/
def deriveRun (s : State) (j : Job) (b : Bound) : PkOut :=
  let p := j.pk
  let c := s.wcurve j p.pset
  let mat := if p.noA then pairMaterial c p.alg p.pset b.rnd else matOf b.keyA
  let own := if p.noA then pubOf c p.alg p.pset mat else []
  let peer := (pubSplit (pubLen (s.jobView j) p.alg p.pset) p.noB b.keyB j.input).1
  let o := pkDerive c p mat own peer
  if p.noA then o else { o with out := [] }

/-- PK_DERIVE. -/
def execPkDerive (job : Nat) (r : RunEnd) (s : State) : Host.Outcome State Fault Refusal := .next (s.pkEnd 0x0104 job r deriveRun)

/-- What KEM_ENCAPS computes. -/
def encapsRun (s : State) (j : Job) (b : Bound) : PkOut :=
  let p := j.pk
  kemEncaps p (pubSplit (pubLen (s.jobView j) p.alg p.pset) p.noA b.keyA j.input).1 b.rnd

/-- KEM_ENCAPS. -/
def execKemEncaps (job : Nat) (r : RunEnd) (s : State) : Host.Outcome State Fault Refusal := .next (s.pkEnd 0x0105 job r encapsRun)

/-- What KEM_DECAPS computes. -/
def decapsRun (_s : State) (j : Job) (b : Bound) : PkOut := kemDecaps j.pk (matOf b.keyA) j.input

/-- KEM_DECAPS. -/
def execKemDecaps (job : Nat) (r : RunEnd) (s : State) : Host.Outcome State Fault Refusal := .next (s.pkEnd 0x0106 job r decapsRun)

/-- What RSA_ENCRYPT computes: key, label, message (Table 5.8). -/
def rsaEncRun (s : State) (j : Job) (b : Bound) : PkOut :=
  let p := j.pk
  let (pub, rest) := pubSplit (pubLen (s.jobView j) p.alg p.pset) p.noA b.keyA j.input
  rsaEncrypt p pub (rest.take p.aux) (rest.drop p.aux) b.rnd

/-- RSA_ENCRYPT. -/
def execRsaEncrypt (job : Nat) (r : RunEnd) (s : State) : Host.Outcome State Fault Refusal := .next (s.pkEnd 0x0108 job r rsaEncRun)

/-- What RSA_DECRYPT computes: label, ciphertext (Table 5.8). -/
def rsaDecRun (_s : State) (j : Job) (b : Bound) : PkOut :=
  rsaDecrypt j.pk (matOf b.keyA) (j.input.take j.pk.aux) (j.input.drop j.pk.aux)

/-- RSA_DECRYPT. -/
def execRsaDecrypt (job : Nat) (r : RunEnd) (s : State) : Host.Outcome State Fault Refusal := .next (s.pkEnd 0x0107 job r rsaDecRun)

/-- Whether a tile of a quad is in service, so that the quad's tables can be built (R113). -/
def State.quadServes (s : State) (q : Nat) : Bool :=
  (List.range 4).any fun i => s.tileServes (4 * q + i)

/-- WARM_TABLE_BUILT (R111, R113): a WARM key's table is complete in its home quad; verifications run warm from then on. -/
def execWarmTableBuilt (handle : BitVec 64) (s : State) : Host.Outcome State Fault Refusal :=
  let h := handle.toNat
  .next (match s.resolve (hSlice h) h with
    | some k =>
      match k.warmQuad with
      | some q => if k.warm && s.quadServes q && !s.asleep then s.putKey { k with warmReady := true, rebuild := false } else s
      | none => s
    | none => s)

end Sys2Proof.Machine
end

