-- ==== Sys2Proof/Machine/Bulk.lean ====
section
/-! DEFINITION. Batch and record-chain verification (chapter 7): items, the item queue, chains, BULK bindings. -/
namespace Sys2Proof.Machine
open Sys2Proof

/-! ### Records of a chain (R147, R153) -/

/-- A field of a record as a number, in either byte order. -/
def fieldNum (be : Bool) (rec : Bytes) (off n : Nat) : Nat :=
  let f := Bytes.sub rec off n
  if be then beNat f else leNat f

/-- The length of the record at the head of `rest`, or none where it cannot be found (R153). -/
def recLen (r rest : Bytes) : Option Nat :=
  if eB r 2 = 0 then some (eH r 4)
  else
    let off := eH r 8
    let sz := eB r 0x0A
    if rest.length < off + sz then none
    else
      let v := fieldNum (bit (eB r 0x0B) 0) rest off sz
      some (if bit (eB r 0x0B) 1 then v else off + sz + v)

/-- The signature's place in a record (Table 7.5). -/
def sigOff (r : Bytes) (sl len : Nat) : Nat := if eB r 0x19 = 0 then eH r 0x1A else len - eH r 0x1A - sl

/-- The octets of a record less its signature field. -/
def lessSig (r rec : Bytes) (sl : Nat) : Bytes :=
  let o := sigOff r sl rec.length
  rec.take o ++ rec.drop (o + sl)

/-- The octets a record's link hash covers (R153). -/
def covered (r rec : Bytes) (sl : Nat) : Bytes := if bit (eB r 0x10) 0 then lessSig r rec sl else rec

/-- The signed message of a record (Table 7.5): from SIGNED_OFF to the end, less the signature. -/
def signedMsg (r rec : Bytes) (sl : Nat) : Bytes :=
  let o := sigOff r sl rec.length
  let f := eH r 0x1C
  if o + sl ≤ f then rec.drop f else Bytes.sub rec f (o - f) ++ rec.drop (Nat.max f (o + sl))

/-- The signature of a record. -/
def recSig (r rec : Bytes) (sl : Nat) : Bytes := Bytes.sub rec (sigOff r sl rec.length) sl

/-- What a parse has found so far: records in order, where the next begins, the link value and the sequence value due,
the first record whose link or sequence fails with its detail, and whether a length failed. -/
structure ChainAt where
  recs : List Bytes := []
  off : Nat := 0
  v : Option Bytes := none
  vs : List Bytes := []
  seq : Option Nat := none
  bad : Option (Nat × Nat) := none
  fail : Option Nat := none
  deriving DecidableEq, Repr

/-- A record's link value after the one before it (R153). -/
def linkValue (r rec : Bytes) (sl : Nat) (prev : Bytes) : Bytes :=
  let h := eB r 0x0F
  if eB r 3 = 1 then hashFix h (prev ++ covered r rec sl) else hashFix h (covered r rec sl)

/-- The parse of up to `n` records (R153, R154): only a length that fails ends it, since no later record can be found; the
first record whose link or sequence fails is noted, the link ranking first. -/
def parseChain (r : Bytes) (sl : Nat) (input : Bytes) : Nat → ChainAt → ChainAt
  | 0, a => a
  | n + 1, a =>
    let rest := input.drop a.off
    match recLen r rest with
    | none => { a with fail := some 3 }
    | some len =>
      if len < eH r 6 || eH r 4 < len || rest.length < len then { a with fail := some 3 }
      else
        let one := rest.take len
        let link := Bytes.sub one (eH r 0x0C) (eB r 0x0E)
        let prev := match a.v with | some x => x | none => if eB r 3 = 1 then link else []
        let sz := eB r 0x11
        let q := fieldNum (bit (eB r 0x14) 0) one (eH r 0x12) sz
        let now : Option (Nat × Nat) :=
          if a.v.isSome && link != prev.take link.length then some (a.recs.length, 1)
          else if sz != 0 && (match a.seq with | some x => q != x | none => false) then some (a.recs.length, 2)
          else none
        let v := linkValue r one sl prev
        parseChain r sl input n
          { a with
            recs := a.recs ++ [one], off := a.off + len, v := some v, vs := a.vs ++ [v]
            seq := some ((q + 1) % 2 ^ (8 * sz)), bad := if a.bad.isSome then a.bad else now }

/-- The signature length under an RLD. -/
def State.chainSig (s : State) (j : Job) : Nat :=
  let r := s.jobRld j
  sigLen (s.jobView j) (eB r 0x15) (eB r 0x16)

/-- The records of a chain: its input after the inline key and LINK_IN. -/
def State.chainBody (s : State) (j : Job) : Bytes := j.input.drop (chainHead (s.jobView j) j.entry (s.jobRld j))

/-- LINK_IN, where the input carries it. -/
def State.chainLink (s : State) (j : Job) : Option Bytes :=
  let r := s.jobRld j
  let n := rldHashLen r
  if bit (eB j.entry 0x39) 0 then some (Bytes.sub j.input (chainHead (s.jobView j) j.entry r - n) n) else none

/-- The whole parse of a chain's input. -/
def State.chainParse (s : State) (j : Job) : ChainAt :=
  parseChain (s.jobRld j) (s.chainSig j) (s.chainBody j) (eW j.entry 0x3C)
    { v := s.chainLink j, seq := if bit (eB j.entry 0x39) 1 then some (eD j.entry 0x40) else none }

/-- The PK_VERIFY block under which a chain's signatures are checked (R147, R153). -/
def rldPar (r : Bytes) : PkPar :=
  { op := 0x0102, alg := eB r 0x15, pset := eB r 0x16, hash := eB r 0x17, scheme := eB r 0x18 % 16, msg := true,
    keyout := false, comp := false, rsvd := false, aux := eH r 0x1E, noA := false, noB := true }

/-- The verification key of a chain: KEY_A's, or inline. -/
def State.chainPub (s : State) (j : Job) (b : Bound) : Bytes :=
  let r := s.jobRld j
  (pubSplit (pubLen (s.jobView j) (eB r 0x15) (eB r 0x16)) (eKeyA j.entry = 0) b.keyA j.input).1

/-! ### Items (R140 to R146) -/

/-- Rows 1 to 3 of Table 7.3 on a descriptor. -/
def descBad (v : SliceView) (e d : Bytes) : Option (Nat × Nat) :=
  match (List.range 8).find? fun i => Bytes.at d (0x18 + i) != 0 with
  | some i => some (cReserved, 0x18 + i)
  | none =>
    let n := Bytes.le d 0x10 4
    let p := batchPar e d
    let f := (if p.noA then pubLen v p.alg p.pset else 0) + sigLen v p.alg p.pset + pkCtxLen p
    let m := pkMsgRange p 4096
    if 2 ^ 64 < Bytes.le d 8 8 + n then some (cBadAddr, 1)
    else if n < f + m.1 || f + m.2 < n then some (cBadLength, 1)
    else none

/-- A batch's items as its descriptors give them (R143, R145): failed by rows 1 to 3, or waiting for their data. -/
def State.batchItems (s : State) (j : Job) : List Item :=
  (List.range (eW j.entry 0x40)).map fun i =>
    let d := j.itemDesc i
    let bad := descBad (s.jobView j) j.entry d
    { idx := i, body := if bad.isSome then [] else zeros (Bytes.le d 0x10 4), bad := bad, ready := bad.isSome }

/-- The reads that ask for the data of a batch's items whose descriptors pass (R63, R143). -/
def askItems (j : Job) (l : List Item) (s : State) : State :=
  l.foldl (fun a i =>
    if i.bad.isSome then a else a.emit (.read j.pasid (Bytes.le (j.itemDesc i.idx) 8 8) (Bytes.le (j.itemDesc i.idx) 0x10 4))) s

/-- A chain's items: the signature check of each record that the parse finds (R154). -/
def chainItems (a : ChainAt) : List Item :=
  (List.zip (List.range a.recs.length) a.recs).map fun p => { idx := p.1, body := p.2, ready := true }

/-- The octets of a chain's input before its records: the inline key and LINK_IN (R152). -/
def State.chainFront (s : State) (j : Job) : Nat := chainHead (s.jobView j) j.entry (s.jobRld j)

/-- Whether all of a bulk job's input that its items are made of has been read. -/
def Job.whole (j : Job) : Bool := eOp j.entry != 0x0201 || eInLen j.entry ≤ j.input.length

/-- A bulk job at the head of its FIFO is opened. A batch's items are made; a chain takes the units that parse it, its key is
bound and charged, and only then are its records asked for (R152); it waits while no unit is free. -/
def State.openBulk (s : State) (j : Job) (m : MemOutcome) : State :=
  let b0 : Bound := { eng := .pairs [], tick := s.tick }
  if eOp j.entry = 0x0202 then
    let l := s.batchItems j
    (askItems j l s).putJob { j with items := l, started := true, bnd := some b0 }
  else if (s.chainUnits (sha3Code (eB (s.jobRld j) 0x0F))).isEmpty then s
  else
    match (s.takeState j).andThen fun s1 t => s1.takeKeys j m t with
    | (s1, .inl r) => s1.refuseJob j r
    | (s1, .inr t) =>
      let r := s1.jobRld j
      let units := s1.chainUnits (sha3Code (eB r 0x0F))
      let b : Bound := { b0 with keyA := t.keyA, tallyLeft := t.left, hash := units }
      let bad := if eKeyA j.entry = 0 then pubBad (s1.wcurve j (eB r 0x16)) (eB r 0x15) (eB r 0x16) (s1.chainPub j b) else none
      match bad with
      | some d => s1.finish j { code := cPoint, detail := d, result := zeros 16 } [] false
      | none =>
        (units.foldl State.engTake (s1.putJob { j with started := true, bnd := some b })).emit
          (.read j.pasid ((eInAddr j.entry + s1.chainFront j) % 2 ^ 64) (eInLen j.entry - s1.chainFront j))

/-- The items of a job that have not yet entered the queue, in order (R139). -/
def Job.toEnter (j : Job) : List Item := j.items.filter fun i => !i.queued

/-- The open job at the head of the BULK FIFO feeds the item queue while it has room (R80); with its last item entered
it leaves its place. -/
def State.feedItems (s : State) : State :=
  match (s.fifo .bulk).find? fun j => j.started with
  | none => s
  | some j =>
    let room := 8192 - s.eng.itemQueue.length
    let ids := (j.toEnter.take room).map Item.idx
    let items := j.items.map fun i => if ids.contains i.idx then { i with queued := true } else i
    let j1 : Job := { j with items := items }
    let j2 : Job := if j1.toEnter.isEmpty && j1.whole then { j1 with phase := .bound } else j1
    ({ s with eng := { s.eng with itemQueue := s.eng.itemQueue ++ ids.map fun i => (j.id, i) } }.putJob j2).hwmUp

/-- The head bulk job is opened where none is open, and the queue is fed (R80). -/
def State.bulkHead (s : State) (m : MemOutcome) : State :=
  let s1 := if (s.fifo .bulk).any fun j => j.started then s else
    match s.nextJob .bulk fun _ => true with
    | some j => s.openBulk j m
    | none => s
  s1.feedItems

/-- The first item of the queue that is staged (R80). -/
def State.nextItem (s : State) : Option (Job × Item) :=
  s.eng.itemQueue.findSome? fun q =>
    match s.job q.1 with
    | some j => match j.items.find? fun i => i.idx = q.2 with
      | some i => if i.ready then some (j, i) else none
      | none => none
    | none => none

/-- A job's item replaced. -/
def Job.setItem (j : Job) (i : Item) : Job := { j with items := j.items.map fun x => if x.idx = i.idx then i else x }

/-- An item leaves the queue. -/
def State.unqueue (s : State) (id idx : Nat) : State :=
  { s with eng := { s.eng with itemQueue := s.eng.itemQueue.filter fun q => !(q.1 = id && q.2 = idx) } }

/-- What a batch item asks of its key (R146). -/
def itemNeed (e : Bytes) : Need :=
  { alg := fun k => k.alg = eB e 0x38 && k.pset = eB e 0x39, rights := [1], guard := false }

/-- The handle an item verifies under: its descriptor's, or its chain's KEY_A. -/
def Job.itemKey (j : Job) (i : Item) : Nat := if eOp j.entry = 0x0202 then Bytes.le (j.itemDesc i.idx) 0 8 else eKeyA j.entry

/-- The WARM key's home quad for an item, if it has one (R112). -/
def State.itemHome (s : State) (j : Job) (i : Item) : Option Nat :=
  match s.resolve j.slice (j.itemKey i) with
  | some k => if k.warm then k.warmQuad else none
  | none => none

/-- An item binds to a tile, or is placed on a member (R146, R303): a batch item with a handle is checked and charged by itself; the job's time limit
runs from its first item. -/
def State.bindItem (s : State) (j : Job) (i : Item) (g : Engine) (m : MemOutcome) : State :=
  let h := j.itemKey i
  let go := fun (s : State) (k : Option KeyRec) =>
    let bnd := j.bnd.map fun b => if b.begun then b else { b with limit := fld (s.rg .qsc 0x078) 0 16, begun := true }
    let i1 : Item := match g with
      | .tile t => { i with tile := some t.val, warmRun := i.warmRun || warmOn k g, keyA := k }
      | .member n => { i with member := some n.val, placements := i.placements + 1, keyA := k }
      | _ => i
    (((if s.shared then s.shareStep else s).unqueue j.id i.idx).putJob ({ j with bnd := bnd }.setItem i1)).engTake g
  if h = 0 || i.bad.isSome then go s none
  else if eOp j.entry = 0x0201 then go s (j.bnd.bind fun b => b.keyA)
  else if i.retried || 0 < i.placements then go s i.keyA
  else if s.lcsCode != 4 then (s.unqueue j.id i.idx).putJob (j.setItem { i with out := some (cForbids, 0x10) })
  else
    match s.checkKey j.slice j.curveSlots j.entry [] (itemNeed j.entry) h m with
    | (s1, .inl r) => (s1.unqueue j.id i.idx).putJob (j.setItem { i with out := some (r.code, r.detail) })
    | (s1, .inr (k, _)) =>
      if k.mustWait 1 false then s1 else go (s1.putKey (k.charged 1 false s1.tick)) (some k)

/-- JOB_BINDING for the BULK FIFO: the head job's items enter the queue, and the offered free tile takes the first staged
item, where R82's pattern gives it the grant. -/
def State.bindBulk (s : State) (g : Engine) (m : MemOutcome) : State :=
  let s1 := s.bulkHead m
  match g, s1.nextItem with
  | .tile t, some (j, i) =>
    if !s1.tileFree t || (s1.pkWaits && !s1.grantBulk) || !s1.warmOk (s1.itemHome j i) t ||
        !s1.tileHashes t (s1.itemPass j i) then s1 else s1.bindItem j i (.tile t) m
  | _, _ => s1

/-! ### Item ends -/

/-- The outcome of an item's verification (R145, R153). -/
def State.itemVerify (s : State) (j : Job) (b : Bound) (i : Item) : Option (Nat × Nat) :=
  let v := s.jobView j
  if i.bad.isSome then i.bad
  else if eOp j.entry = 0x0202 then
    let p := batchPar j.entry (j.itemDesc i.idx)
    let (pub, rest) := pubSplit (pubLen v p.alg p.pset) p.noA i.keyA i.body
    let n := sigLen v p.alg p.pset
    let t := rest.drop n
    pkVerify (s.wcurve j p.pset) p pub (rest.take n) (t.take (pkCtxLen p)) (t.drop (pkCtxLen p))
  else
    let r := s.jobRld j
    pkVerify (s.wcurve j (eB r 0x16)) (rldPar r) (s.chainPub j b) (recSig r i.body (s.chainSig j)) []
      (signedMsg r i.body (s.chainSig j))

/-- Whether a batch item's verification hashes its message: its key and signature pass first (R117). -/
def State.itemHashed (s : State) (j : Job) (b : Bound) (i : Item) : Bool :=
  hashedBy (batchPar j.entry (j.itemDesc i.idx)) (s.itemVerify j b i)

/-- An item whose run an engine failed runs once more on another, or fails with ENGINE_MISMATCH (R141). -/
def State.itemAgain (s : State) (id d : Nat) (i : Item) : State :=
  match s.job id with
  | none => s
  | some j =>
    if i.retried then
      s.putJob (j.setItem { i with tile := none, member := none, hash := [], hashed := false, out := some (cMismatch, d) })
    else
      (({ s with eng := { s.eng with itemQueue := (id, i.idx) :: s.eng.itemQueue } }.putJob
        (j.setItem { i with tile := none, member := none, hash := [], hashed := false, retried := true }))).hwmUp

/-- A unit that hashed for a chain has failed, with its pair where it is a lane (R184): the chain goes on with the others, or
with one that is free. -/
def State.chainLose (s : State) (j : Job) (b : Bound) (g : Engine) : State :=
  let l := b.hash.filter fun x => failing x != failing g
  let more := if l.isEmpty then (s.chainUnits (sha3Code (eB (s.jobRld j) 0x0F))).take 1 else []
  more.foldl State.engTake (s.putJob { j with bnd := some { b with hash := l ++ more } })

/-- An item on a tile ends: decided, or to be run again where its tile or the unit that hashes for it failed (R141). -/
def State.itemDone (s : State) (j : Job) (b : Bound) (i : Item) (t : Fin 96) (r : RunEnd) : State :=
  let g := Engine.tile t
  let units := if i.hash.isEmpty then b.hash else i.hash
  match endDetail false r.eng, (if r.hashUnit then units.head? else none) with
  | some d, some u =>
    let s1 := ((s.mismatch j u d).engDrop g).wipeNote g r.wipeBad
    ((if i.hash.isEmpty then s1.chainLose j b u else s1)).itemAgain j.id d i
  | some d, none => ((i.hash.foldl State.engDrop (s.mismatch j g d)).wipeNote g r.wipeBad).itemAgain j.id d i
  | none, _ =>
    let o := (s.itemVerify j b i).getD (0, 0)
    (i.hash.foldl State.engDrop (((s.tileCount g).engDrop g).putJob
      (j.setItem { i with tile := none, hash := [], out := some o }))).wipeNote g r.wipeBad

/-- An item that outlived its chain ends: its result is discarded, its tile's end is not (R154). -/
def State.strayEnd (s : State) (x : Stray) (r : RunEnd) : State :=
  let s1 : State := { s with eng := { s.eng with strays := s.eng.strays.filter (· != x) } }
  match (if r.hashUnit then none else endDetail false r.eng) with
  | some d => (s1.engMismatch x.slice 0x0201 x.alg x.pset (.tile x.tile) d).wipeNote (.tile x.tile) r.wipeBad
  | none => ((s1.tileCount (.tile x.tile)).engDrop (.tile x.tile)).wipeNote (.tile x.tile) r.wipeBad

/-- BULK_ITEM_COMPLETE (R141, R145, R154): nothing while the pass over its message still waits for a unit (R109). -/
def itemEnd (id idx : Nat) (r : RunEnd) (s0 : State) : State :=
  let s := s0.hashFill
  if s.mute then s
  else match s.eng.strays.find? fun x => x.job = id && x.item = idx with
    | some x => s.strayEnd x r
    | none =>
      match s.job id with
      | none => s
      | some j =>
        match j.bnd, j.items.find? fun i => i.idx = idx with
        | some b, some i =>
          match i.tile with
          | none => s
          | some t =>
            if h : t < 96 then
              if (s.itemPass j i).isSome && i.hash.isEmpty && !i.hashed && s.itemHashed j b i then s
              else s.itemDone j b i ⟨t, h⟩ r
            else s
        | _, _ => s

/-- BULK_ITEM_COMPLETE. -/
def execBulkItemComplete (job item : Nat) (r : RunEnd) (s : State) : Host.Outcome State Fault Refusal := .next (itemEnd job item r s)

/-! ### BATCH_VERIFY and CHAIN_VERIFY -/

/-- An open bulk job of an opcode. -/
def State.bulkJob (s : State) (op id : Nat) : Option (Job × Bound) :=
  match s.job id with
  | some j => match j.bnd with
    | some b => if eOp j.entry = op && j.started && j.phase != .done && !s.mute then some (j, b) else none
    | none => none
  | none => none

/-- The output of a batch (R144): the bitmap, then the causes. -/
def batchOutput (j : Job) : Bytes :=
  let n := eW j.entry 0x40
  let ok := fun (i : Nat) => match j.items.find? fun x => x.idx = i with | some x => x.out = some (0, 0) | none => false
  let words := ((List.range ((n + 63) / 64)).map fun w => toLE 8 (((List.range 64).map fun b => if 64 * w + b < n && ok (64 * w + b) then 2 ^ b else 0).sum)).flatten
  let cause := fun (i : Nat) =>
    let o := match j.items.find? fun x => x.idx = i with | some x => x.out.getD (0, 0) | none => (0, 0)
    Bytes.sub (j.itemDesc i) 0x14 4 ++ toLE 2 o.1 ++ toLE 2 o.2
  words ++ (if bit (eB j.entry 0x44) 0 then ((List.range n).map cause).flatten else [])

/-- BATCH_VERIFY ends when every item is decided (R144, R145). -/
def batchEnd (id : Nat) (r : RunEnd) (s : State) : State :=
  match s.bulkJob 0x0202 id with
  | none => s
  | some (j, _) =>
    let (s1, bad, rec) := s.memAccess r.mem
    match bad with
    | some (c, d) => s1.finish j { code := c, detail := d, result := batchResult j } [] rec
    | none =>
      if j.items.any fun i => i.out.isNone then s
      else
        let fails := (j.items.filter fun i => i.out != some (0, 0)).length
        let out := batchOutput j
        s1.finish j { code := if fails = 0 then cOK else cBatchPartial, detail := fails, outLen := out.length, result := batchResult j } out false

/-- BATCH_VERIFY. -/
def execBatchVerify (job : Nat) (r : RunEnd) (s : State) : Host.Outcome State Fault Refusal := .next (batchEnd job r s)

/-- The CHAIN_BREAK detail of a record whose signature does not pass (Table 7.8); MEMBER_LOST ends the job itself. -/
def chainDetail (o : Nat × Nat) : Nat := if o.1 = cVerifyFail then 4 else if o.1 = cMismatch then 7 else 5

/-- The records of a chain whose signatures count: those below the first whose link or sequence fails, which rank before its
signature (R154). -/
def chainCounts (j : Job) (a : ChainAt) : List Item :=
  match a.bad with
  | some (n, _) => j.items.filter fun i => i.idx < n
  | none => j.items

/-- The first failure of a chain once it is known (R154): its index and detail; `some none` where all has passed. -/
def chainDecided (j : Job) (a : ChainAt) (extra : Bool) : Option (Option (Nat × Nat)) :=
  match (chainCounts j a).find? fun i => i.out != some (0, 0) with
  | some i => match i.out with
    | some o => some (some (i.idx, chainDetail o))
    | none => none
  | none =>
    match a.bad, a.fail with
    | some x, _ => some (some x)
    | none, some d => some (some (a.recs.length, d))
    | none, none => some (if extra then some (a.recs.length, 6) else none)

/-- The running hash after `n` records have passed (R155). -/
def State.runningHash (s : State) (j : Job) (a : ChainAt) (n : Nat) : Bytes :=
  let r := s.jobRld j
  let h := rldHashLen r
  if n = 0 then
    match s.chainLink j with
    | some x => x
    | none => if eB r 3 = 1 then Bytes.fit (Bytes.sub (s.chainBody j) (eH r 0x0C) (eB r 0x0E)) h else zeros h
  else a.vs.getD (n - 1) []

/-- NEXT_SEQ after `n` records have passed (Table 7.9). -/
def State.nextSeq (s : State) (j : Job) (a : ChainAt) (n : Nat) : Nat :=
  let r := s.jobRld j
  let sz := eB r 0x11
  if sz = 0 then 0
  else if n = 0 then eD j.entry 0x40
  else (fieldNum (bit (eB r 0x14) 0) (a.recs.getD (n - 1) []) (eH r 0x12) sz + 1) % 2 ^ (8 * sz)

/-- Items of a chain that are bound when it ends run to their end on their tiles, and their results are discarded (R154). -/
def State.stray (s : State) (j : Job) : State × Job :=
  let l := j.items.filterMap fun i => match i.tile with
    | some t => if h : t < 96 then
        some ({ job := j.id, item := i.idx, tile := ⟨t, h⟩, slice := j.slice, alg := (s.jobAlg j).1, pset := (s.jobAlg j).2 } : Stray)
      else none
    | none => none
  let j1 : Job := { j with items := j.items.map fun i => { i with tile := none } }
  (({ s with eng := { s.eng with strays := s.eng.strays ++ l } }).putJob j1, j1)

/-- The end of a chain one of whose items was lost with a second member (Table 13.6): the lowest such item, where every
record below it has passed. -/
def chainLost (j : Job) (a : ChainAt) : Option (Nat × Nat) :=
  match (chainCounts j a).find? fun i => i.out != some (0, 0) with
  | some i => match i.out with
    | some o => if o.1 = cMemberLost then some o else none
    | none => none
  | none => none

/-- CHAIN_VERIFY ends once its first failure is known and every record below it has passed, or all have (R154, R155). -/
def chainEnd (id : Nat) (r : RunEnd) (s : State) : State :=
  match s.bulkJob 0x0201 id with
  | none => s
  | some (j, _) =>
    let (s1, bad, rec) := s.memAccess r.mem
    match bad with
    | some (c, d) => s1.finish j { code := c, detail := d, result := s1.stopRes j j.left } [] rec
    | none =>
      let a := s.chainParse j
      if !j.whole then s
      else match chainLost j a, chainDecided j a (a.off < (s.chainBody j).length) with
      | some (c, d), _ => let (s2, j1) := s1.stray j
                          s2.finish j1 { code := c, detail := d, result := s1.stopRes j j.left } [] true
      | none, none => s
      | none, some f =>
        let n := match f with | some (i, _) => i | none => a.recs.length
        let off := ((a.recs.take n).map List.length).sum
        let out := s.runningHash j a n
        let res := toLE 4 (if f.isSome then n else 0xFFFFFFFF) ++ toLE 4 (if f.isSome then off else 0xFFFFFFFF) ++ toLE 8 (s.nextSeq j a n)
        let (s2, j1) := s1.stray j
        let d := match f with | some (_, d) => d | none => 0
        s2.finish j1 { code := if f.isSome then cChainBreak else cOK, detail := d, outLen := out.length, result := res } out false

/-- CHAIN_VERIFY. -/
def execChainVerify (job : Nat) (r : RunEnd) (s : State) : Host.Outcome State Fault Refusal := .next (chainEnd job r s)

end Sys2Proof.Machine
end

