-- ==== Sys2Proof/Machine/Curves.lean ====
section
/-! DEFINITION. CURVE_LOAD and RLD_LOAD (R120 to R130, R147 to R150): checks, slots, commits and removals. -/
namespace Sys2Proof.Machine
open Sys2Proof

/-! ### Shared -/

/-- The lowest number a map does not list, below `n`. -/
def NMap.lowFree {α : Type} (m : NMap α) (n : Nat) : Option Nat := (List.range n).find? fun i => (NMap.find m i).isNone

/-- Every key-store job ends with its worker free. -/
def State.keyDone (s : State) (j : Job) (code detail : Nat) (res out : Bytes) (recorded : Bool) : State :=
  s.finish j { code := code, detail := detail, outLen := out.length, result := res } out recorded

/-! ### Curves -/

/-- The checks a worker runs on a curve block: 0x01 to 0x03 of Table 6.4. -/
def curveWorkerBad (b : Bytes) : Option Nat :=
  let p := eH b 4
  let n := eH b 6
  let (l, ln) := blockDims b
  if eH b 0 != 1 || eB b 2 != 1 || !((Bytes.sub b 8 8).all (· = 0)) then some 1
  else if p < 224 || 640 < p || n < 224 || 640 < n || n + 3 < p || p + 1 < n || eB b 3 = 0 || 8 < eB b 3 then some 2
  else if b.length != 16 + 5 * l + ln then some 3
  else none

/-- Whether p^k is 1 modulo n for some k from 1 to `f`. -/
def lowDegree (p n : Nat) : Nat → Nat → Bool
  | 0, _ => false
  | f + 1, x => let y := x * p % n
                if y = 1 % n then true else lowDegree p n f y

/-- The checks a tile runs on a curve block: 0x04 to 0x0E of Table 6.4. -/
def curveTileBad (b : Bytes) : Option Nat :=
  let c := blockCurve b
  let t := c.p + 1
  let hn := c.h * c.n
  let d := if hn ≤ t then t - hn else hn - t
  if bitLen c.p != eH b 4 || bitLen c.n != eH b 6 || c.p % 2 = 0 then some 4
  else if c.p ≤ c.a || c.p ≤ c.b || c.p ≤ c.gx || c.p ≤ c.gy then some 5
  else if (List.range 6).any fun i => fixedCurve (i + 1) = some c then some 6
  else if (4 * c.a * c.a * c.a + 27 * c.b * c.b) % c.p = 0 then some 7
  else if !c.on c.gx c.gy then some 8
  else if 4 * c.p < d * d then some 9
  else if hn = c.p || c.n = c.p then some 0xA
  else if lowDegree c.p c.n 100 1 then some 0xB
  else if !isPrime c.p then some 0xC
  else if !isPrime c.n then some 0xD
  else if c.mul c.n c.g != none then some 0xE
  else none

/-- RESULT of CURVE_LOAD (Table 6.3). -/
def State.curveRes (s : State) (sl : Nat) (d8 : Bytes) (chk slot tile : Nat) : Bytes :=
  Bytes.fit d8 8 ++ toLE 1 chk ++ toLE 1 (s.curvesLeft sl) ++ toLE 2 slot ++ toLE 1 tile ++ zeros 3

/-- The record of a curve's load, with its pool slot, or of its removal (R125, R129). -/
def State.curveRec (s : State) (sl id : Nat) (dig : Bytes) (slot : Option Nat) : State :=
  s.record 0x0307 1 (srcSlice sl) (toLE 2 sl ++ toLE 1 id ++ dig.take 8 ++ (match slot with | some n => toLE 2 n | none => []))

/-- A LOAD ends without a curve (R126): its slots are free again. -/
def State.curveFail (s : State) (j : Job) (code d chk tile : Nat) : State :=
  let s1 := s.unslot j.id
  s1.keyDone { j with slot := none } code d (s1.curveRes j.slice [] chk 0xFFFF tile) [] false

/-- Steps 1 to 3 of a LOAD (R125), on a worker: slots are reserved, checks 0x01 to 0x03 run, and the job joins the tail of
the PK FIFO, its worker free again. -/
def State.curveReserve (s : State) (j : Job) (r : RunEnd) : State :=
  match s.memAccess r.mem with
  | (s1, some (c, d), rc) => s1.keyDone j c d (s1.curveRes j.slice [] 0 0xFFFF 0xFF) [] rc
  | (s1, none, _) =>
    let used := (s1.jobs.filter fun x => x.phase != .done).filterMap Job.slot
    if s1.curvesLeft j.slice = 0 then s1.curveFail j cCapacity 0x40 0 0xFF
    else match (List.range 1024).find? fun i => (NMap.find s1.eng.curves i).isNone && !used.contains i with
      | none => s1.curveFail j cCapacity 0x41 0 0xFF
      | some slot =>
        match curveWorkerBad j.input with
        | some d => s1.curveFail j cCurveRej d d 0xFF
        | none =>
          let s2 := s1.putJob { j with cls := .pk, phase := .staged, bnd := none, slot := some slot, joined := some s1.qsc.nextJob }
          ({ s2 with qsc := { s2.qsc with nextJob := s2.qsc.nextJob + 1 } }).hwmUp.bpNote

/-- Steps 3 to 5 of a LOAD (R125, R126), on a tile: checks 0x04 to 0x0E, the commit, the completion. -/
def State.curveCommit (s : State) (j : Job) (b : Bound) (t : Fin 96) (slot : Nat) (r : RunEnd) : State :=
  match s.stopped { j with slot := none } b r false [] ((s.unslot j.id).curveRes j.slice [] 0 0xFFFF t.val) with
  | some s1 => s1
  | none =>
    let s1 := s.memNote r
    match curveTileBad j.input with
    | some d => (s1.curveFail j cCurveRej d d t.val).wipeNote b.eng r.wipeBad
    | none =>
      let id := eB j.entry 0x39
      if (s1.curveOf j.slice id).isSome then (s1.curveFail j cBadParam 3 0 t.val).wipeNote b.eng r.wipeBad
      else
        let dig := sha3_256 j.input
        let c : Curve := { slice := j.slice, id := id, block := j.input, digest := dig, visible := true }
        let s2 := s1.unslot j.id
        let s3 : State := { s2 with eng := { s2.eng with curves := NMap.set s2.eng.curves slot c } }
        let out := if eOutLen j.entry = 32 then dig else []
        ((s3.curveRec j.slice id dig (some slot)).keyDone { j with slot := none } cOK 0 (s3.curveRes j.slice dig 0 slot t.val) out true).wipeNote
          b.eng r.wipeBad

/-- A LOAD goes on: from its worker to the PK FIFO, or from its tile to its end. -/
def State.curveIn (s0 : State) (j0 : Job) (t : Fin 96) (r : RunEnd) : State :=
  let s := s0.hashFill
  let j := (s.job j0.id).getD j0
  match j.bnd, j.slot with
  | some b, some slot => if b.eng = .tile t && !(s.hashLacks j b && (curveTileBad j.input).isNone) then s.curveCommit j b t slot r
    else s
  | _, _ => s.curveReserve j r

/-- An UNLOAD (R129): the ID leaves the visible set; the slot is freed with its last job. -/
def State.curveOut (s : State) (j : Job) : State :=
  let id := eB j.entry 0x39
  match s.curveOf j.slice id with
  | none => s.keyDone j cBadParam 2 (s.curveRes j.slice [] 0 0xFFFF 0xFF) [] false
  | some (slot, c) =>
    let s1 : State := { s with eng := { s.eng with curves := NMap.set s.eng.curves slot { c with visible := false } } }
    let s2 := s1.reapCurves
    (s2.curveRec j.slice id c.digest none).keyDone j cOK 0 (s2.curveRes j.slice c.digest 0 0xFFFF 0xFF) [] true

/-- CURVE_LOAD, LOAD: the end of its worker's part, then of its tile's; `tile` names the tile of the second. -/
def execCurveLoad (job : Nat) (tile : Fin 96) (r : RunEnd) (s : State) : Host.Outcome State Fault Refusal :=
  .next (match s.boundJob 0x0507 job with
    | some (j, _) => if eB j.entry 0x38 = 0 then s.curveIn j tile r else s
    | none => s)

/-- CURVE_LOAD, UNLOAD. -/
def execCurveUnload (job : Nat) (r : RunEnd) (s : State) : Host.Outcome State Fault Refusal :=
  .next (match s.boundJob 0x0507 job with
    | some (j, _) =>
      if eB j.entry 0x38 != 1 then s
      else match (s.memAccess r.mem) with
        | (s1, some (c, d), rc) => s1.keyDone j c d (s.curveRes j.slice [] 0 0xFFFF 0xFF) [] rc
        | (s1, none, _) => s1.curveOut j
    | none => s)

/-! ### Record-layout descriptors -/

/-- Whether two fields of a record overlap. -/
def fieldsCross (a b : Nat × Nat) : Bool := a.2 != 0 && b.2 != 0 && a.1 < b.1 + b.2 && b.1 < a.1 + a.2

/-- The checks of Table 7.6 up to 0x0105. -/
def rldBadHead (r : Bytes) : Option Nat :=
  let mn := eH r 6
  let fixed := eB r 2 = 0
  let sz := eB r 0x11
  if eH r 0 != 1 || 1 < eB r 2 || 1 < eB r 3 || 1 < eB r 0x19 || 3 < eB r 0x0B || 1 < eB r 0x10 || 1 < eB r 0x14 || 15 < eB r 0x18 ||
      !((r.drop 0x20).all (· = 0)) then some 0x0101
  else if eH r 4 < 16 || 4096 < eH r 4 || mn < 16 || eH r 4 < mn || (fixed && mn != eH r 4) then some 0x0102
  else if (if fixed then eH r 8 != 0 || eB r 0x0A != 0 || eB r 0x0B != 0
      else !([1, 2, 4].contains (eB r 0x0A)) || mn < eH r 8 + eB r 0x0A) then some 0x0103
  else if eB r 0x0F = 0 || 6 < eB r 0x0F || eB r 0x0E < 16 || hashLen (eB r 0x0F) < eB r 0x0E ||
      (eB r 3 = 1 && eB r 0x0E != hashLen (eB r 0x0F)) || mn < eH r 0x0C + eB r 0x0E then some 0x0104
  else if !([0, 1, 2, 4, 8].contains sz) || mn < eH r 0x12 + sz || (sz = 0 && (eH r 0x12 != 0 || eB r 0x14 != 0)) then some 0x0105
  else none

/-- The checks of Table 7.6 from 0x0106 on; a feature the PSET needs and the slice lacks answers with its bit (R149). -/
def rldBadTail (v : SliceView) (r : Bytes) : Option (Nat × Nat) :=
  let p := rldPar r
  let mn := eH r 6
  let plain := (p.alg != 2 && p.alg != 6) || (p.scheme = 0 && p.aux = 0)
  match (algFeatures p.alg p.pset).find? fun b => !v.feat b with
  | some b => some (cFeature, b)
  | none =>
    if (pkBad v p).isSome || !plain then some (cBadParam, 0x0106)
    else
      let sl := sigLen v p.alg p.pset
      let so := eH r 0x1A
      let sig := (sigOff r sl mn, sl)
      let len := (eH r 8, eB r 0x0A)
      let link := (eH r 0x0C, eB r 0x0E)
      let seq := (eH r 0x12, eB r 0x11)
      if mn < so + sl then some (cBadParam, 0x0107)
      else if fieldsCross len link || fieldsCross len seq || fieldsCross len sig || fieldsCross link seq || fieldsCross link sig ||
          fieldsCross seq sig then some (cBadParam, 0x0108)
      else if link.1 < eH r 0x1C || (seq.2 != 0 && seq.1 < eH r 0x1C) || (signedMsg r (zeros mn) sl).isEmpty then
        some (cBadParam, 0x0109)
      else none

/-- What Table 7.6 finds in an RLD. -/
def rldBad (v : SliceView) (r : Bytes) : Option (Nat × Nat) :=
  match rldBadHead r with
  | some d => some (cBadParam, d)
  | none => rldBadTail v r

/-- RESULT of RLD_LOAD (R148). -/
def State.rldRes (s : State) (sl : Nat) (d8 : Bytes) (chk : Nat) : Bytes :=
  Bytes.fit d8 8 ++ toLE 2 chk ++ toLE 1 (s.rldsLeft sl) ++ zeros 5

/-- The record of an RLD's load or removal (R148). -/
def State.rldRec (s : State) (sl id : Nat) (dig : Bytes) : State :=
  s.record 0x0308 1 (srcSlice sl) (toLE 2 sl ++ toLE 1 id ++ dig.take 8)

/-- RLD_LOAD, LOAD (R148, R149). -/
def rldIn (j : Job) (s : State) : State :=
  let sl := j.slice
  let id := eB j.entry 0x39
  if s.rldsLeft sl = 0 then s.keyDone j cCapacity 0x42 (s.rldRes sl [] 0) [] false
  else match rldBad (s.view sl) j.input with
    | some (c, d) => s.keyDone j c d (s.rldRes sl [] (if c = cBadParam then d else 0)) [] false
    | none =>
      match NMap.lowFree s.eng.rlds 65536 with
      | none => s.keyDone j cCapacity 0x42 (s.rldRes sl [] 0) [] false
      | some slot =>
        if (s.rldOf sl id).isSome then s.keyDone j cBadParam 3 (s.rldRes sl [] 0) [] false
        else
          let dig := sha3_256 j.input
          let r : Rld := { slice := sl, id := id, body := j.input, digest := dig }
          let s1 : State := { s with eng := { s.eng with rlds := NMap.set s.eng.rlds slot r } }
          (s1.rldRec sl id dig).keyDone j cOK 0 (s1.rldRes sl dig 0) (if eOutLen j.entry = 32 then dig else []) true

/-- RLD_LOAD, UNLOAD (R150). -/
def rldOut (j : Job) (s : State) : State :=
  let id := eB j.entry 0x39
  match s.rldOf j.slice id with
  | none => s.keyDone j cBadParam 2 (s.rldRes j.slice [] 0) [] false
  | some (slot, r) =>
    let s1 := ({ s with eng := { s.eng with rlds := NMap.set s.eng.rlds slot { r with visible := false } } }).reapCurves
    (s1.rldRec j.slice id r.digest).keyDone j cOK 0 (s1.rldRes j.slice [] 0) [] true

/-- A key-store job whose worker reads device memory: stopped where the memory fails, else what `f` does. -/
def State.workerEnd (s : State) (op id : Nat) (r : RunEnd) (f : Job → Bound → State → State) : State :=
  match s.boundJob op id with
  | none => s
  | some (j, b) =>
    match s.memAccess r.mem with
    | (s1, some (c, d), rc) => s1.keyDone j c d (s1.stopRes j j.left) [] rc
    | (s1, none, _) => f j b s1

/-- RLD_LOAD, LOAD. -/
def execRldLoad (job : Nat) (r : RunEnd) (s : State) : Host.Outcome State Fault Refusal :=
  .next (s.workerEnd 0x0508 job r fun j _ s => if eB j.entry 0x38 = 0 then rldIn j s else s)

/-- RLD_LOAD, UNLOAD. -/
def execRldUnload (job : Nat) (r : RunEnd) (s : State) : Host.Outcome State Fault Refusal :=
  .next (s.workerEnd 0x0508 job r fun j _ s => if eB j.entry 0x38 = 1 then rldOut j s else s)

end Sys2Proof.Machine
end

