-- ==== Sys2Proof/Machine/KeyCmds.lean ====
section
/-! DEFINITION. The key opcodes (R229 to R238): import, export, blobs, attributes, restriction, deletion, public keys. -/
namespace Sys2Proof.Machine
open Sys2Proof

/-! ### Shared -/

/-- What a key opcode needs beside its worker (Table 10.9). -/
inductive Aux where
  | tile | pair
  deriving DecidableEq, Repr

/-- Whether the offered engines are free and of the kinds a job needs, in order. -/
def State.auxFits (s : State) : List Aux → List Engine → Bool
  | [], [] => true
  | .tile :: w, .tile t :: l => s.tileFree t && s.auxFits w l
  | .pair :: w, .pairs [p] :: l => s.pairFree p && s.auxFits w l
  | _, _ => false

/-- The engine whose run a job's end reports: the last it took, its worker where it took none. -/
def auxLast (l : List Engine) (g : Engine) : Engine := (l.getLast?).getD g

/-- A key-store job whose worker needs further engines (R125, Table 10.9): it waits while they are not free; device
memory and a failing engine stop it (R116, R184, R335); else `f` concludes it and its tile's wipe is noted. -/
def State.auxEnd (s : State) (op id : Nat) (aux : List Engine) (r : RunEnd) (want : Job → List Aux)
    (f : Job → Bound → State → State) : State :=
  match s.boundJob op id with
  | none => s
  | some (j, b) =>
    if !s.auxFits (want j) aux then s
    else
      let g := auxLast aux b.eng
      let r1 : RunEnd := if aux.isEmpty then { r with eng := .ok } else r
      match s.stopped j { b with eng := g } r1 false [] (s.stopRes j b.tallyLeft) with
      | some s1 => s1
      | none => (f j b (s.memNote r)).tileEnd g r.wipeBad

/-- A key opcode ends without effect: its code, and TALLY_LEFT with nothing created. -/
def State.keyFail (s : State) (j : Job) (code detail : Nat) (recorded : Bool) : State :=
  s.keyDone j code detail (s.stopRes j j.left) [] recorded

/-- A key opcode ends with a key created: its handle, units and flags. -/
def State.keyMade (s : State) (j : Job) (h : Nat) : State :=
  match s.resolve j.slice h with
  | some k => s.keyDone j cOK 0 (keyRes h k j.left) [] false
  | none => s.keyDone j cOK 0 (keyRes h {} j.left) [] false

/-! ### KEY_IMPORT and PUBKEY_LOAD -/

/-- What Table 10.11 finds wrong with a key pair's material. -/
def materialBad (c : Option WCurve) (alg pset : Nat) (m : Bytes) : Option Nat :=
  match alg with
  | 1 | 3 =>
    match c with
    | none => some 0x10
    | some w =>
      let d := beNat (m.take w.nlen)
      if d = 0 || w.n ≤ d || w.encode false (w.mul d w.g) != m.drop w.nlen then some 0x10 else none
  | 5 => if (rsaOf (32 * pset) m).ok then none else some 0x11
  | _ => none

/-- The material an import reads: plain, or unwrapped under KEY_B (R231). -/
def importMaterial (e input : Bytes) (kb : Option KeyRec) (len : Nat) : Option Bytes :=
  if eB e 0x38 = 2 then
    match kwpUnwrap (matOf kb) input with
    | some m => if m.length = len then some m else none
    | none => none
  else some input

/-- KEY_IMPORT's decision (R230, R231). -/
def importRun (j : Job) (b : Bound) (s : State) : State :=
  match newKeyOf (s.jobView j) j.entry, b.resv with
  | some n, some rv =>
    match importMaterial j.entry j.input b.keyB (materialLen (s.jobView j) n.ktype n.alg n.pset n.klen) with
    | none => s.keyFail j cAuthFail 2 false
    | some m =>
      let c := s.wcurve j n.pset
      match if n.ktype = 1 then materialBad c n.alg n.pset m else none with
      | some d => s.keyFail j cPoint d false
      | none =>
        let pub := if n.ktype = 1 then pubOf c n.alg n.pset m else []
        let (s1, h) := s.jobKey j rv n m pub fun k => { k with imported := true, plainImport := eB j.entry 0x38 = 1 }
        s1.keyMade j h
  | _, _ => s

/-- KEY_IMPORT. -/
def execKeyImport (job : Nat) (aux : List Engine) (r : RunEnd) (s : State) : Host.Outcome State Fault Refusal :=
  .next (s.auxEnd 0x0501 job aux r
    (fun j => (if eB j.entry 0x38 = 2 then [Aux.pair] else []) ++ if eB j.entry 0x39 = 1 then [Aux.tile] else []) importRun)

/-- PUBKEY_LOAD's decision (R232): the checks of an inline key, then the key. -/
def pubLoadRun (j : Job) (b : Bound) (s : State) : State :=
  match newKeyOf (s.jobView j) j.entry, b.resv with
  | some n, some rv =>
    match pubBad (s.wcurve j n.pset) n.alg n.pset j.input with
    | some d => s.keyFail j cPoint d false
    | none => let (s1, h) := s.jobKey j rv n [] j.input id
              s1.keyMade j h
  | _, _ => s

/-- PUBKEY_LOAD. -/
def execPubkeyLoad (job : Nat) (aux : List Engine) (r : RunEnd) (s : State) : Host.Outcome State Fault Refusal :=
  .next (s.auxEnd 0x0506 job aux r (fun _ => [Aux.tile]) pubLoadRun)

/-! ### KEY_EXPORT and blobs (R233 to R235) -/

/-- The blob key of a slice under the present storage root and epoch. -/
def State.blobKeyOf (s : State) (sl : Nat) : Bytes :=
  octets 32 (Config.blobKey (Bytes.fit s.vault.storageRoot 32) sl (s.slice sl).digest s.vault.epoch)

/-- A blob's header (Table 10.12). -/
def blobHeader (sl epoch serial bodyLen : Nat) (k : KeyRec) : Bytes :=
  toLE 4 0x424B5A4C ++ toLE 2 1 ++ toLE 2 0x40 ++ toLE 4 (80 + bodyLen) ++ toLE 2 sl ++ toLE 2 0 ++ toLE 8 epoch ++
    toLE 8 serial ++ toLE 1 k.ktype ++ toLE 1 k.alg ++ toLE 1 k.pset ++ toLE 1 k.export_ ++ toLE 4 k.usage ++
    toLE 2 k.units ++ toLE 2 bodyLen ++ toLE 4 (k.custody + 0x10000 * k.replSet) ++ zeros 16

/-- The nonce of a blob. -/
def blobNonce (serial : Nat) : Bytes := zeros 4 ++ toBE 8 serial

/-- A key sealed in a blob. -/
def State.blobOf (s : State) (sl : Nat) (k : KeyRec) : Bytes :=
  let n := k.blobLen
  let hd := blobHeader sl s.vault.epoch s.vault.blobSerial n k
  let c := gcm false (s.blobKeyOf sl) (blobNonce s.vault.blobSerial) hd (octets n (Config.blobBody k.material k.hidden))
  hd ++ c.1 ++ c.2

/-- KEY_EXPORT's output and the state it leaves. -/
def exportRun (j : Job) (b : Bound) (s : State) : State :=
  match b.keyA with
  | none => s
  | some k =>
    let done := fun (s : State) (out : Bytes) => s.keyDone j cOK 0 (keyRes 0 k j.left) out false
    match eB j.entry 0x38 with
    | 1 => done s (kwpWrap (matOf b.keyB) k.material)
    | 2 => done { s with vault := { s.vault with blobSerial := s.vault.blobSerial + 1 } } (s.blobOf j.slice k)
    | _ => done s k.pub

/-- KEY_EXPORT. -/
def execKeyExport (job : Nat) (aux : List Engine) (r : RunEnd) (s : State) : Host.Outcome State Fault Refusal :=
  .next (s.auxEnd 0x0502 job aux r (fun j => if eB j.entry 0x38 = 3 then [] else [Aux.pair]) exportRun)

/-- Rows 1 to 5 of Table 10.13. -/
def State.blobBad (s : State) (j : Job) : Option (Nat × Nat) :=
  let b := j.input
  if Bytes.le b 0 4 != 0x424B5A4C || Bytes.le b 4 2 != 1 || Bytes.le b 6 2 != 0x40 || Bytes.le b 0x0C 2 / 4096 != 0 ||
      Bytes.le b 0x0E 2 != 0 || Bytes.at b 0x2F != 0 || !((Bytes.sub b 0x30 16).all (· = 0)) then some (cForeign, 3)
  else if Bytes.le b 8 4 != b.length then some (cBadLength, 4)
  else if Bytes.le b 0x0C 2 != j.slice then some (cForeign, 1)
  else if Bytes.le b 0x10 8 < s.vault.epoch then some (cStale, 0x21)
  else if s.vault.epoch < Bytes.le b 0x10 8 then some (cForeign, 4)
  else none

/-- The key a blob recreates: the header's attributes, the entry's persistence and WARM. -/
def blobNewKey (e b : Bytes) (klen : Nat) : NewKey :=
  { ktype := Bytes.at b 0x20, alg := Bytes.at b 0x21, pset := Bytes.at b 0x22, klen := klen, usage := Bytes.le b 0x24 4
    persist := eB e 0x3E, export_ := Bytes.at b 0x23, custody := Bytes.le b 0x2C 2, replSet := Bytes.at b 0x2E
    warm := bit (eB e 0x51) 0 }

/-- BLOB_LOAD's decision (Table 10.13, R221, R235). -/
def blobRun (j : Job) (_b : Bound) (s : State) : State :=
  match s.blobBad j with
  | some (c, d) => s.keyFail j c d false
  | none =>
    let b := j.input
    let o := gcm true (s.blobKeyOf j.slice) (blobNonce (Bytes.le b 0x18 8)) (b.take 64) (Bytes.sub b 64 (b.length - 80))
    if o.2 != b.drop (b.length - 16) then s.keyFail j cForeign 2 false
    else
      let part := fun (n : Nat) => octets (Config.blobOpenLen o.1 n) (Config.blobOpen o.1 n)
      let hid := part 1
      let n := blobNewKey j.entry b (Bytes.le hid 33 2)
      match s.newKeyBad j.slice n with
      | some d => s.keyFail j cUsage d false
      | none =>
        match s.reserve j.slice n (Bytes.le b 0x28 2) with
        | (s1, .inl r) => s1.keyFail j r.code r.detail r.recorded
        | (s1, .inr rv) =>
          let (s2, h) := s1.createKey rv n (part 0) (hid.drop 36) (Bytes.sub hid 1 32) fun k =>
            { k with fromBlob := true, plainImport := Bytes.at hid 35 = 1 }
          s2.keyMade j h

/-- BLOB_LOAD. -/
def execBlobLoad (job : Nat) (aux : List Engine) (r : RunEnd) (s : State) : Host.Outcome State Fault Refusal :=
  .next (s.auxEnd 0x0509 job aux r (fun _ => [Aux.pair]) blobRun)

/-! ### Attributes (R217, R236, R237) -/

/-- KEY_ATTR_GET. -/
def execKeyAttrGet (job : Nat) (r : RunEnd) (s : State) : Host.Outcome State Fault Refusal :=
  .next (s.workerEnd 0x0504 job r fun j b s =>
    match b.keyA with
    | some k => s.keyDone j cOK 0 (zeros 16) (attrRecord k) false
    | none => s)

/-- KEY_ATTR_RESTRICT's decision, at the end of the worker's time (R237, R239): the request is judged again on the key's
attributes as they then stand, with what the binding held for it returned. A key deleted meanwhile changes no more: the job
completes under the key as bound (R20). -/
def restrictRun (j : Job) (b : Bound) (s : State) : State :=
  let q := restrictOf j.entry
  let s0 := s.putJob { j with bnd := some { b with resv := none } }
  match s0.resolve j.slice (eKeyA j.entry), b.keyA with
  | some k, _ =>
    match s0.restrictTake j.slice q k with
    | .inl (c, d) => s0.keyDone j c d (keyRes 0 k j.left) [] false
    | .inr rv =>
      let go := fun (s : State) =>
        let (s1, k1) := s.restrictDo q k rv
        s1.keyDone j cOK 0 (keyRes 0 k1 (tallyLeft k1)) [] false
      if k.deep && !q.warmOnly then
        match s0.filterTake k (k.rev + 1) with
        | some s1 => go s1
        | none => let (s1, rc) := s0.filterFull j.slice 2
                  s1.keyDone j cFilterFull 2 (keyRes 0 k j.left) [] rc
      else go s0
  | none, some k => s0.keyDone j cOK 0 (keyRes 0 (q.apply k) (tallyLeft (q.apply k))) [] false
  | none, none => s

/-- KEY_ATTR_RESTRICT. -/
def execKeyAttrRestrict (job : Nat) (r : RunEnd) (s : State) : Host.Outcome State Fault Refusal :=
  .next (s.workerEnd 0x0505 job r restrictRun)

/-! ### KEY_DELETE (R238) -/

/-- A key stops being live; a RESIDENT key's archive record is erased and recorded. -/
def State.deleteKey (s : State) (k : KeyRec) : State :=
  let s1 := ((s.putKey { k with live := false }).dropReplicas k.place k.handle fun _ => true).bumpSet k.replSet
  if k.resident then
    (s1.archErase fun p => p.1 = k.handle).record 0x0403 1 (srcSlice k.slice) (toLE 8 k.handle)
  else s1

/-- KEY_DELETE's decision. A key that another deletion took meanwhile is deleted already: the job completes under the key
as bound (R20). -/
def deleteRun (j : Job) (_b : Bound) (s : State) : State :=
  match s.resolve j.slice (eKeyA j.entry) with
  | none => s.keyDone j cOK 0 (zeros 16) [] false
  | some k =>
    let go := fun (s : State) => (s.deleteKey k).keyDone j cOK 0 (zeros 16) [] false
    if k.deep then
      match s.filterTake k 256 with
      | some s1 => go s1
      | none => let (s1, rc) := s.filterFull j.slice 1
                s1.keyFail j cFilterFull 1 rc
    else go s

/-- KEY_DELETE. -/
def execKeyDelete (job : Nat) (r : RunEnd) (s : State) : Host.Outcome State Fault Refusal :=
  .next (s.workerEnd 0x0503 job r deleteRun)

/-! ### Compaction and the archive (R241 to R246) -/

/-- KST_COMPACT_CTRL.GO (R242, R243, Table 10.14). -/
def compactGoBody (s : State) : State :=
  s.onPage .kst fun s =>
    if !s.mem.keyIdMode then s.refuse .kst cForbids 1
    else if s.ks.compBusy then s.refuse .kst cForbids 2
    else s.compGo (fld (s.rg .kst 0x060) 0 4)

/-- KST_COMPACT_GO. -/
def execKstCompactGo (s : State) : Host.Outcome State Fault Refusal := .next (s.hostReq .kstCompactGo compactGoBody)

/-- The end of a compaction (R241): the old KeyID is retired and becomes the spare, entries of an earlier round are freed,
blocks quarantined in an earlier round return to the pool (R269); with the filter still above AUTO_PCT the next one starts
(R242). -/
def State.compEnd (s : State) : State :=
  let seg := s.ks.compSeg
  let round := (s.seg seg).round
  let rest := s.ks.filter.filter fun f => !(f.seg = seg && f.round < round)
  let freed := s.ks.filter.length - rest.length
  let s0 := ({ s with freeN := s.freeN + 1 } : State).moveLines s.ks.compFreedOld (s.seg seg).keyId 0 (2 ^ 31) (Config.moveFails s.freeN)
  let s1 : State :=
    { s0 with
      ks := { s.ks with
        filter := rest, filterNinety := decide (65536 * 9 < 10 * rest.length), compBusy := false
        quarantined := s.ks.quarantined.filter fun q => !(q.1 / 256 = seg && q.2 < round)
        spareKeyId := s.ks.compFreedOld, compPtr := 0 }
      mem := { s0.mem with
        act := s.mem.act.filter fun n => n != s.ks.compFreedOld
        retireCnt := satAdd 32 s.mem.retireCnt 1 } }
  (((s1.reowned s0).raise .kst 17).record 0x0404 1 0 (toLE 1 seg ++ toLE 4 freed)).autoCompact

/-- COMPACTION_DONE: the rewrite reached the segment's end; a compaction that waits for its spare takes it instead as
soon as an internal instance runs, and where none runs an automatic one that was deferred starts (R242, R340). -/
def execCompactionDone (s : State) : Host.Outcome State Fault Refusal :=
  .next (
    if !s.running then s
    else if !s.ks.compBusy then s.autoCompact
    else if s.ks.compWait then
      (if s.spareWaits then s
       else ({ s with ks := { s.ks with compWait := false } }).compStart s.ks.compSeg)
    else s.compEnd)

/-- KST_RES_PURGE.GO (R246). -/
def purgeBody (s : State) : State :=
  s.onPage .kst fun s =>
    let n := fld (s.rg .kst 0x074) 0 12
    if (s.slice n).st != .free then s.refuse .kst cForbids 3
    else
      (s.archErase fun p => p.2.slice = n).record 0x0407 2 (srcSlice n)
        (toLE 2 n ++ toLE 4 (s.ks.archive.filter fun p => p.2.slice = n).length)

/-- KST_RES_PURGE_GO. -/
def execKstResPurgeGo (s : State) : Host.Outcome State Fault Refusal := .next (s.hostReq .kstResPurgeGo purgeBody)

/-- The ceilings a background archive write raises (R228). -/
def KeyRec.raised (k : KeyRec) : KeyRec :=
  { k with
    invCeil := if k.invCeil ≤ k.inv + 2 ^ 19 then k.invCeil + 2 ^ 20 else k.invCeil
    usedCeil := if k.usedCeil ≤ k.tallyUsed + 2 ^ 19 then k.usedCeil + 2 ^ 20 else k.usedCeil
    archPending := false }

/-- ARCHIVE_WRITE_COMPLETE (R228, R244): both copies and their digests are written; the raised ceilings hold. The record is
wrapped on the anchor pair, and waits while that reads SERVICING (R409). -/
def execArchiveWriteComplete (handle : BitVec 64) (s : State) : Host.Outcome State Fault Refusal :=
  let h := handle.toNat
  .next (match s.resolve (hSlice h) h with
    | some k =>
      if k.archPending && !s.mute && !s.anchorPairAway then
        let k1 := k.raised.wantRaise
        (s.putKey k1).archWrite k1 none
      else s
    | none => s)

end Sys2Proof.Machine
end

