-- ==== Sys2Proof/Machine/Quorum.lean ====
section
/-! DEFINITION. Countersigning (chapter 11): challenges, submits, tokens, grants, the end of a window. -/
namespace Sys2Proof.Machine
open Sys2Proof

/-! ### Group records (R248, R249) -/

/-- Custodian entry `i` of a group record. -/
def custodian (rec_ : Bytes) (i : Nat) : Bytes := Bytes.sub rec_ (32 + 40 * i) 40

/-- KEY_DIGEST of a custodian entry. -/
def keyDigest (c : Bytes) : Bytes := Bytes.sub c 8 32

/-- Whether a custodian entry is one of Table 11.3, its reserved octet 0. -/
def custodianOk (c : Bytes) : Bool :=
  [(1, 1, 1), (1, 2, 2), (1, 4, 1), (2, 7, 0), (5, 0x0C, 1), (6, 0x65, 0)].contains (Bytes.at c 0, Bytes.at c 1, Bytes.at c 2) &&
    Bytes.at c 3 = 0

/-- N of a record. -/
def recN (r : Bytes) : Nat := Bytes.at r 8

/-- The custodians of a record. -/
def custodians (r : Bytes) : List Bytes := (List.range (recN r)).map (custodian r)

/-- What makes a record of a define or of a change of a group improper (R248, R252). `owner` for group 0, `del` where N
may be 0. -/
def recordBad (r : Bytes) (group slice : Nat) (owner del : Bool) : Bool :=
  let n := recN r
  let m := Bytes.at r 7
  let w := Bytes.le r 0x0C 4
  let fresh := !del
  Bytes.le r 0 4 != 0x47515A4C || Bytes.le r 4 2 != 1 || r.length != 32 + 40 * n || 16 < n ||
    (if n = 0 then fresh else m = 0 || n < m) ||
    Bytes.at r 9 != b2n owner || !((Bytes.sub r 0x18 8).all (· = 0)) || w < 640 || 230400 < w ||
    (if owner then Bytes.le r 0x14 4 != 0 || Bytes.le r 0x0A 2 != 0 else 255 < Bytes.le r 0x14 4) ||
    Bytes.at r 6 != group || (del && Bytes.le r 0x0A 2 != slice) ||
    !(custodians r).all custodianOk || !((custodians r).map keyDigest).Nodup

/-- A record as it will be registered: group, slice and version written into it (R252). -/
def registered (r : Bytes) (group slice : Nat) : Bytes :=
  r.take 6 ++ toLE 1 group ++ Bytes.sub r 7 3 ++ toLE 2 slice ++ Bytes.sub r 0x0C 4 ++ toLE 4 1 ++ r.drop 0x14

/-- The Vault's header fields of a record, with its digest. -/
def groupOf (r : Bytes) : Group :=
  { m := Bytes.at r 7, n := recN r, gflags := Bytes.at r 9, slice := Bytes.le r 0x0A 2, window := Bytes.le r 0x0C 4
    gversion := Bytes.le r 0x10 4, guard := Bytes.le r 0x14 4, digest := sha3_256 r
    custodians := (custodians r).map keyDigest }

/-! ### Approvals -/

/-- Whether a slot carries a slice's cancelled mark with an identifier's serial (R259). -/
def State.marked (s : State) (sl ident : Nat) : Bool :=
  s.cus.marks.any fun m => m.slot = ident % 1024 && m.serial = ident / 1024 && m.slice = sl

/-- An approval replaced at its slot. -/
def State.putAppr (s : State) (a : Approval) : State :=
  { s with cus := { s.cus with approvals := s.cus.approvals.map fun x => if x.slot = a.slot then a else x } }

/-- An approval freed. -/
def State.freeAppr (s : State) (slot : Nat) : State :=
  { s with cus := { s.cus with approvals := s.cus.approvals.filter fun x => x.slot != slot } }

/-- A group 0 approval of slice 0 for a request's digest: granted and not yet used, or the detail that says why not
(R261, Tables 13.4, 15.5). -/
def State.ownerAppr (s : State) (ident : Nat) (dig : Bytes) : Nat ⊕ Approval :=
  match s.approval 0 ident with
  | some a => if a.kind = 4 && a.opDigest = dig then (if a.granted then .inr a else .inl 2) else .inl 1
  | none => .inl 1

/-- Group numbers in use: defined, or named by a define under way. -/
def State.groupsTaken (s : State) : List Nat :=
  (s.vault.groups.map Prod.fst) ++ (s.cus.approvals.filter fun a => a.kind = 2).map Approval.group

/-- Tenant groups a slice holds, with those it is defining (R250). -/
def State.groupsHeld (s : State) (sl : Nat) : Nat :=
  (s.vault.groups.filter fun p => p.1 != 0 && p.2.slice = sl).length +
    (s.cus.approvals.filter fun a => a.kind = 2 && a.slice = sl).length

/-! ### QUORUM_CHALLENGE -/

/-- The digest a KIND 4 countersign signs: a life-cycle request's or a debug grant's header, a whole cluster request
(R297, R350, R357). -/
def requestDigest (r : Bytes) : Bytes :=
  match Bytes.le r 0 4 with
  | 0x594C5A4C => sha3_256 (r.take 80)
  | 0x42445A4C => sha3_256 (r.take 96)
  | _ => sha3_256 r

/-- What an accepted challenge is about. -/
structure Asked where
  group : Nat
  m : Nat
  n : Nat
  window : Nat
  gversion : Nat
  opDigest : Bytes
  record : Bytes := []
  newReq : Nat := 0
  deriving DecidableEq, Repr

/-- The job's input behind an operation description: IN_LEN octets (R251), for a replication the UIDs, which are all that
follows (R307). -/
def describedInput (b : Bytes) : Bytes :=
  if Bytes.le b 0 2 = 0x0510 then b.drop 80 else (b.drop 80).take (Bytes.le b 4 4)

/-- A challenge's request against the groups (R251, R252), up to the room it needs. -/
def State.asked (s : State) (j : Job) : (Nat × Nat) ⊕ Asked :=
  let e := j.entry
  let b := j.input
  let g := eB e 0x39
  let cur := NMap.find s.vault.groups g
  let own := fun (r : Group) => (r.slice = j.slice : Bool)
  match eB e 0x38 with
  | 1 =>
    match s.resolveBad j.slice (Bytes.le b 8 8) with
    | some x => .inl x
    | none =>
      let cust := match s.resolve j.slice (Bytes.le b 8 8) with | some k => k.custody | none => 0xFFFF
      match cur with
      | some r =>
        if cust != g || !own r then .inl (cBadParam, 0x13)
        else .inr
          { group := g, m := r.m, n := r.n, window := r.window, gversion := r.gversion
            opDigest := opDigest j.slice (b.take 80) (describedInput b) }
      | none => .inl (cBadParam, 0x13)
  | 2 =>
    if recordBad b 0 j.slice false false then .inl (cBadParam, 0x11)
    else
      let num := ((List.range 255).map (· + 1)).find? fun i => !s.groupsTaken.contains i
      let r := registered b (num.getD 0) j.slice
      .inr
        { group := num.getD 0, m := recN b, n := recN b, window := Bytes.le b 0x0C 4, gversion := 1
          opDigest := sha3_256 r, record := r }
  | 3 =>
    match cur with
    | none => if recordBad b g j.slice (g = 0) true then .inl (cBadParam, 0x11) else .inl (cBadParam, 0x12)
    | some r =>
      if recordBad b g r.slice (g = 0) true then .inl (cBadParam, 0x11)
      else if !own r || Bytes.le b 0x10 4 != r.gversion + 1 then .inl (cBadParam, 0x12)
      else
        let new := (((custodians b).map keyDigest).filter fun d => !r.custodians.contains d).length
        .inr
          { group := g, m := r.m + new, n := r.n, window := r.window, gversion := r.gversion, opDigest := sha3_256 b, record := b
            newReq := new }
  | _ =>
    match cur with
    | some r =>
      .inr { group := 0, m := r.m, n := r.n, window := r.window, gversion := r.gversion, opDigest := requestDigest b }
    | none => .inl (cBadParam, 0x13)

/-- The room a challenge needs: an approval slot, and for a define a group number (R252). -/
def State.askedRoom (s : State) (j : Job) (q : Asked) : Option (Nat × Nat) :=
  let mine := (s.cus.approvals.filter fun a => a.slice = j.slice).length
  if 16 ≤ mine || 1024 ≤ s.cus.approvals.length then some (cCapacity, 0x50)
  else if eB j.entry 0x38 = 2 && (4 ≤ s.groupsHeld j.slice || q.group = 0) then some (cCapacity, 0x51)
  else none

/-- The 128-octet challenge (Table 11.5a). -/
def challengeBytes (kind sl ident t0 t1 pcc : Nat) (nonce : Bytes) (q : Asked) : Bytes :=
  toLE 4 0x43515A4C ++ toLE 2 1 ++ toLE 1 kind ++ toLE 1 q.group ++ uidBytes ++ toLE 2 sl ++ zeros 2 ++ toLE 4 ident ++
    toLE 8 t0 ++ toLE 8 t1 ++ Bytes.fit nonce 32 ++ q.opDigest ++ toLE 1 q.m ++ toLE 1 q.n ++ zeros 2 ++ toLE 4 q.gversion ++
    toLE 4 pcc ++ zeros 4

/-- The lowest approval slot that is free. -/
def State.apprSlot (s : State) : Nat :=
  ((List.range 1024).find? fun i => !(s.cus.approvals.any fun a => a.slot = i)).getD 0

/-- QUORUM_CHALLENGE's decision (R252 to R254, R259): an approval is issued and its challenge is the output. -/
def challengeRun (j : Job) (b : Bound) (s : State) : State :=
  match s.asked j with
  | .inl (c, d) => s.keyDone j c d (zeros 16) [] false
  | .inr q0 =>
    match s.askedRoom j q0 with
    | some (c, d) => s.keyDone j c d (zeros 16) [] false
    | none =>
      let kind := eB j.entry 0x38
      let slot := s.apprSlot
      let serial := (s.vault.approvalSerial + 1) % 2 ^ 22
      let ident := apprId slot serial
      let t1 := b.tick + q0.window
      let q := q0
      let ch := challengeBytes kind j.slice ident b.tick t1 s.glb.pcc (b.rnd.take 32) q
      let a : Approval :=
        { slot := slot, serial := serial, slice := j.slice, kind := kind, group := q.group, gversion := q.gversion
          challenge := ch, opDigest := q.opDigest, record := q.record, m := q.m, n := q.n, tStart := b.tick, tEnd := t1
          newReq := q.newReq }
      let s1 : State :=
        { s with
          vault := { s.vault with approvalSerial := serial }
          cus := { s.cus with approvals := s.cus.approvals ++ [a], marks := s.cus.marks.filter fun m => m.slot != slot } }
      s1.keyDone j cOK 0 (toLE 4 ident ++ toLE 1 q.group ++ toLE 1 q.m ++ toLE 1 q.n ++ toLE 1 0 ++ toLE 8 t1)
        (if kind = 2 then ch ++ q.record else ch) false

/-- QUORUM_CHALLENGE. -/
def execQuorumChallenge (job : Nat) (r : RunEnd) (s : State) : Host.Outcome State Fault Refusal :=
  .next (s.workerEnd 0x0701 job r challengeRun)

/-! ### QUORUM_SUBMIT -/

/-- One token entry of a submit's input (R255). -/
structure Token where
  index : Nat
  pub : Bytes
  sig : Bytes
  deriving DecidableEq, Repr

/-- Token entries from their octets; `none` where the octets do not hold exactly `n`. -/
def tokensOf : Nat → Bytes → Option (List Token)
  | 0, b => if b.isEmpty then some [] else none
  | n + 1, b =>
    let pk := Bytes.le b 2 2
    let sg := Bytes.le b 4 2
    let len := (8 + pk + sg + 7) / 8 * 8
    if b.length < len then none
    else (tokensOf n (b.drop len)).map fun l => { index := Bytes.at b 0, pub := Bytes.sub b 8 pk, sig := Bytes.sub b (8 + pk) sg } :: l

/-- A token entry kept in an item's octets. -/
def tokenItem (t : Token) : Bytes := toLE 1 t.index ++ zeros 1 ++ toLE 2 t.pub.length ++ toLE 2 t.sig.length ++ zeros 2 ++ t.pub ++ t.sig

/-- The group record at the head of a submit's input. -/
def submitRecord (b : Bytes) : Bytes := b.take (32 + 40 * recN b)

/-- How a token's signature is checked (Table 11.3). -/
def tokenPar (c : Bytes) : PkPar :=
  let alg := Bytes.at c 0
  { op := 0x0102, alg := alg, pset := Bytes.at c 1, hash := Bytes.at c 2, scheme := if alg = 5 then 1 else 0, msg := true
    keyout := false, comp := false, rsvd := false, aux := if alg = 5 then 32 else 0, noA := true, noB := true }

/-- A view with no loaded curve. -/
def plainView : SliceView := { slice := 0, feat := fun _ => false, curve := fun _ => none, rld := fun _ => none }

/-- Row 4 of Table 11.6: whether a token is rejected before its signature is looked at. -/
def tokenBad (rec_ : Bytes) (t : Token) : Bool :=
  let c := custodian rec_ t.index
  recN rec_ ≤ t.index || t.pub.length != pubLen plainView (Bytes.at c 0) (Bytes.at c 1) ||
    t.sig.length != sigLen plainView (Bytes.at c 0) (Bytes.at c 1) || sha3_256 t.pub != keyDigest c

/-- Row 5: whether a token's key or signature fails over the challenge. -/
def tokenFails (rec_ challenge : Bytes) (t : Token) : Bool :=
  let c := custodian rec_ t.index
  (pkVerify (fixedCurve (Bytes.at c 1)) (tokenPar c) t.pub t.sig [] challenge).isSome

/-- A rejected token is counted and recorded (R257). -/
def State.tokenReject (s : State) (j : Job) (group : Nat) (rec_ : Bytes) (t : Token) : State :=
  ({ s with cus := { s.cus with tokenRej := satAdd 32 s.cus.tokenRej 1 } }).record 0x0501 2 (srcSlice j.slice)
    (toLE 1 group ++ toLE 1 t.index ++ Bytes.sub (Bytes.fit (custodian rec_ t.index) 40) 4 4)

/-- The set of custodians among a submit's decided tokens with an outcome: 0 counted, 1 rejected. -/
def tokenSet (l : List Item) (o : Nat) : Nat :=
  l.foldl (fun a i => if i.out = some (o, 0) && Bytes.at i.body 0 < 16 then a ||| 2 ^ Bytes.at i.body 0 else a) 0

/-- A submit ends with its sets (R257). -/
def State.submitDone (s : State) (j : Job) (items : List Item) (counted : Nat) (granted : Bool) : State :=
  let bad := items.any fun i => i.out = some (1, 0)
  let res := toLE 2 counted ++ toLE 2 (tokenSet items 0) ++ toLE 2 (tokenSet items 1) ++ toLE 1 (if granted then 2 else 1) ++ zeros 9
  s.keyDone j (if bad then cVerifyFail else cOK) (if bad then 0x50 else 0) res [] bad

/-- A submit whose approval is not live, by rows 1 and 2 of Table 11.6. -/
def State.submitClosed (s : State) (j : Job) : State :=
  s.keyDone j cWindow (if s.marked j.slice (eW j.entry 0x38) then 2 else 1) (s.submitNone j) [] false

/-- The tokens of a submit, least INDEX first (R256). -/
def sortTokens (l : List Item) : List Item :=
  ((List.range 256).map fun i => l.filter fun x => Bytes.at x.body 0 = i).flatten

/-- Rows 4 and 6 of Table 11.6 on each token in INDEX order. -/
def State.judgeTokens (s : State) (j : Job) (a : Approval) (rec_ : Bytes) : List Item → State × List Item
  | [] => (s, [])
  | i :: l =>
    match tokensOf 1 (Bytes.padMul i.body 8) with
    | some [t] =>
      if tokenBad rec_ t then
        let r := (s.tokenReject j a.group rec_ t).judgeTokens j a rec_ l
        (r.1, { i with out := some (1, 0) } :: r.2)
      else if bit a.counted t.index then
        let r := s.judgeTokens j a rec_ l
        (r.1, { i with out := some (2, 0) } :: r.2)
      else
        let r := s.judgeTokens j a rec_ l
        (r.1, i :: r.2)
    | _ => let r := s.judgeTokens j a rec_ l
           (r.1, { i with out := some (2, 0) } :: r.2)

/-- QUORUM_SUBMIT's decision: rows 1 to 4 and 6; its tokens are then verified on tiles in INDEX order. The submit counts
only where it bound inside the window (R254). -/
def submitRun (j : Job) (b : Bound) (s : State) : State :=
  let rc := submitRecord j.input
  match tokensOf (eB j.entry 0x3C) (j.input.drop rc.length) with
  | none => s.keyDone j cBadLength 1 (s.submitNone j) [] false
  | some ts =>
    match (s.approval j.slice (eW j.entry 0x38)).filter fun a => a.tStart ≤ b.tick with
    | none => s.submitClosed j
    | some a =>
      let dig := if a.kind = 2 then some a.opDigest else (NMap.find s.vault.groups a.group).map Group.digest
      if dig != some (sha3_256 rc) then s.keyDone j cForeign 5 (s.submitNone j) [] false
      else
        let items := ts.zipIdx.map fun p => ({ idx := p.2, body := tokenItem p.1, ready := true } : Item)
        let (s1, l) := s.judgeTokens j a rc (sortTokens items)
        if l.all fun i => i.out.isSome then s1.submitDone j l a.counted a.granted
        else s1.putJob { j with items := l }

/-- QUORUM_SUBMIT. -/
def execQuorumSubmit (job : Nat) (r : RunEnd) (s : State) : Host.Outcome State Fault Refusal :=
  .next (s.workerEnd 0x0702 job r fun j b s => if j.items.isEmpty then submitRun j b s else s)

/-! ### Grants (R258, R259) -/

/-- Approvals of a group other than `slot` are cancelled: freed, each with its mark (R259). -/
def State.cancelGroup (s : State) (group slot : Nat) : State :=
  let hit := fun (a : Approval) => a.group = group && a.kind != 2 && a.slot != slot
  let marks := (s.cus.approvals.filter hit).map fun a => ({ slot := a.slot, serial := a.serial, slice := a.slice } : CancelMark)
  { s with cus := { s.cus with approvals := s.cus.approvals.filter fun a => !hit a, marks := s.cus.marks ++ marks } }

/-- A granted define or change takes effect (R258): the record stands, the approval is freed, others are cancelled. -/
def State.groupEffect (s : State) (a : Approval) : State :=
  let g := groupOf a.record
  let gs := if recN a.record = 0 then NMap.del s.vault.groups a.group else NMap.set s.vault.groups a.group g
  let s1 := ({ s with vault := { s.vault with groups := gs } }).freeAppr a.slot
  let s2 := if a.kind = 3 then s1.cancelGroup a.group a.slot else s1
  s2.record 0x0502 2 (srcSlice a.slice) (toLE 4 g.gversion ++ g.digest)

/-- Custodians in a set of sixteen. -/
def countSet (n : Nat) : Nat := ((List.range 16).filter fun i => bit n i).length

/-- An approval with one more custodian counted, its token and the record shown kept for units that join by it (R299); granted
when the set first meets what the challenge requires (R258). -/
def State.count (s : State) (a : Approval) (index : Nat) (shown token : Bytes) : State × Approval :=
  let c := a.counted ||| 2 ^ index
  let met := a.m ≤ countSet c && a.newReq = 0
  let a1 : Approval := { a with counted := c, granted := a.granted || met, shown := shown, tokens := a.tokens ++ [token] }
  let s1 := s.putAppr a1
  if met && !a.granted then
    let s2 := s1.record 0x0502 2 (srcSlice a.slice) (toLE 1 a.group ++ toLE 4 (apprId a.slot a.serial) ++ a.opDigest)
    (if a.kind = 2 || a.kind = 3 then s2.groupEffect a1 else s2, a1)
  else (s1, a1)

/-- A token's verification ends on its tile (R256 to R258). -/
def State.tokenRun (s : State) (j : Job) (a : Approval) (i : Item) (t : Token) : State :=
  let rc := submitRecord j.input
  let put := fun (o : Nat) => j.items.map fun x => if x.idx = i.idx then { x with out := some (o, 0) } else x
  let close := fun (s : State) (o counted : Nat) (granted freed : Bool) =>
    let l := put o
    if freed || l.all fun x => x.out.isSome then s.submitDone j l counted granted else s.putJob { j with items := l }
  if tokenFails rc a.challenge t then close (s.tokenReject j a.group rc t) 1 a.counted a.granted false
  else if bit a.counted t.index then close s 2 a.counted a.granted false
  else
    let (s1, a1) := s.count a t.index rc i.body
    close s1 0 a1.counted a1.granted (a1.granted && (a.kind = 2 || a.kind = 3))

/-- TOKEN_VERIFIED (R256, R258): the next token in INDEX order, on a free tile. -/
def execTokenVerified (job token : Nat) (tile : Fin 96) (r : RunEnd) (s : State) : Host.Outcome State Fault Refusal :=
  .next (match s.boundJob 0x0702 job with
    | none => s
    | some (j, b) =>
      match j.items.find? fun i => i.out.isNone with
      | none => s
      | some i =>
        if i.idx != token || !s.tileFree tile then s
        else
          match s.stopped j { b with eng := .tile tile } r false [] (s.submitNone j) with
          | some s1 => s1
          | none =>
            let s1 := s.memNote r
            match s1.approval j.slice (eW j.entry 0x38), tokensOf 1 (Bytes.padMul i.body 8) with
            | some a, some [t] => (s1.tokenRun j a i t).tileEnd (.tile tile) r.wipeBad
            | _, _ => (s1.submitClosed j).tileEnd (.tile tile) r.wipeBad)

/-- APPROVAL_WINDOW_END (R254): at T_END the approval is freed, recorded where it was granted and unused. -/
def execApprovalWindowEnd (slot : Fin 1024) (s : State) : Host.Outcome State Fault Refusal :=
  .next (match s.cus.approvals.find? fun a => a.slot = slot.val with
    | some a =>
      if s.tick < a.tEnd then s
      else
        let s1 := s.freeAppr a.slot
        if a.granted then s1.record 0x0504 2 (srcSlice a.slice) (toLE 1 a.group ++ toLE 4 (apprId a.slot a.serial)) else s1
    | none => s)

end Sys2Proof.Machine
end

