-- ==== Sys2Proof/Machine/Sym.lean ====
section
/-! DEFINITION. The symmetric opcodes (chapter 8): sealing, opening, ciphers, hashes, MACs, key derivation. -/
namespace Sys2Proof.Machine
open Sys2Proof

/-! ### A segment's run -/

/-- KDF (R163): the derived octets. -/
def kdfRun (k : KdfPar) (key input : Bytes) : Bytes :=
  let label := input.take k.lbl
  let ctx := input.drop k.lbl
  let data := label ++ [0] ++ ctx ++ toBE 4 (8 * k.klen)
  match k.alg with
  | 0x41 => (ctrKdfBlocks (hmac k.sub key) data (k.klen / hashLen k.sub + 1) 1).take k.klen
  | 0x42 => (ctrKdfBlocks (cmac key) data (k.klen / 16 + 1) 1).take k.klen
  | 0x43 => kmac 168 k.klen key label ctx
  | 0x44 => kmac 136 k.klen key label ctx
  | 0x45 => hkdfExpand k.sub (hkdfExtract k.sub label key) ctx k.klen
  | _ => hkdfExpand k.sub key ctx k.klen

/-- The stream moves on by a segment that ended OK, or closes with its last (R172). -/
def State.streamNext (s : State) (j : Job) (i : SymIn) : State :=
  let p := symPar j.entry
  if !isSegment j.entry then s
  else if p.lst || p.abandon then s.closeStream j.slice p.stream
  else
    let v := s.slice j.slice
    match NMap.find v.streams p.stream with
    | none => s
    | some t =>
      let t1 : Stream :=
        { t with nextStep := p.step + 1, acc := i.prior ++ i.pay, aad := i.aad, total := t.total + p.payload, busy := false }
      s.setSlice j.slice { v with streams := NMap.set v.streams p.stream t1 }

/-- The stream of a segment that did not end OK closes (R175). -/
def State.streamShut (s : State) (j : Job) : State :=
  if isSegment j.entry then s.closeStream j.slice (symPar j.entry).stream else s

/-- RESULT of a symmetric job (Table 8.9). -/
def symResult (j : Job) (i : SymIn) (released scrubbed : Nat) : Bytes :=
  if nonceResult j.entry then nonceOf j
  else if eOp j.entry = 0x0302 then toLE 4 released ++ toLE 4 scrubbed ++ toLE 1 (pairsOf j.bnd) ++ zeros 7
  else toLE 8 (i.prior.length + i.pay.length) ++ toLE 1 (pairsOf j.bnd) ++ zeros 7

/-- The further mask reseeds of a long secret-using segment, a request each (R182, R197): `n` more after the first `k`. What
the last one comes to, and how many are served. -/
def State.moreMasks (r : RunEnd) : Nat → Nat → State → State × Draw × Nat
  | 0, k, s => (s, .got [], k)
  | n + 1, k, s =>
    match s.intRequest (drawEnd r k) with
    | (s1, .got _) => State.moreMasks r n (k + 1) s1
    | (s1, d) => (s1, d, k)

/-- The mask reseeds of a job that are still to be served at its end. -/
def masksLeft (op : Nat) (j : Job) (b : Bound) : Nat :=
  if opSecret op && !b.remote then maskReseeds (symPar j.entry) (pairsOf j.bnd) - b.masks else 0

/-- Output that reaches host memory before a job ends; that of a head's job reaches it only through the head (R309). -/
def State.released (s : State) (j : Job) (out : Bytes) : State :=
  if j.remote.isSome then s else s.emit (.write j.pasid (eOutAddr j.entry) out)

/-- A segment ends with what its lanes computed (R177, R179, R181). -/
def State.symConclude (s : State) (j : Job) (i : SymIn) (o : SymOut) : State :=
  let p := symPar j.entry
  let n := o.out.length
  if !o.bad then (s.streamNext j i).finish j { code := cOK, outLen := n, result := symResult j i (if p.op = 0x0302 then n else 0) 0 } o.out false
  else if p.op = 0x0403 then (s.streamShut j).finish j { code := cVerifyFail, detail := 0x40, result := symResult j i 0 0 } [] false
  else if p.op = 0x0303 || p.vfirst then
    (s.streamShut j).finish j { code := cAuthFail, detail := 2, result := symResult j i 0 0 } [] false
  else if p.scrub then
    ((s.streamShut j).released j o.out).finish j
      { code := cAuthFail, detail := 3, result := symResult j i n n } (zeros n) false
  else (s.streamShut j).finish j { code := cAuthFail, detail := 1, result := symResult j i n 0 } o.out false

/-- How a symmetric job's run stops before its end (R177, R183, R184): the prefix it released, and RESULT. -/
def State.symStop (s : State) (j : Job) (b : Bound) (r : RunEnd) : Bytes × Bytes :=
  let pre := s.symPrefix j b (r.eng = .checkFailed) r.released
  (pre, s.stopRes { j with released := symDone j pre r.released } b.tallyLeft)

/-- A symmetric job's run ends: stopped with the prefix it released, out of masks, or concluded with what its lanes
computed; a mask reseed that waits for a pool word holds it (R198). -/
def State.symEnd (s : State) (op id : Nat) (r : RunEnd) : State :=
  match s.boundJob op id with
  | none => s
  | some (j, b) =>
    let i := s.symIn j b
    let (pre, stopRes) := s.symStop j b r
    match s.stopped j b r false pre stopRes with
    | some s1 => s1
    | none =>
      match s.moreMasks r (masksLeft op j b) b.masks with
      | (s1, .wait, k) => (s1.putJob { j with bnd := some { b with masks := k } }).waitFor id
      | (s1, .refused c d, _) =>
        ((s1.memNote r).streamShut j).finish j { code := c, detail := d, outLen := pre.length, result := stopRes } pre (c = cMismatch)
      | (s1, .got _, _) => ((s1.memNote r).waitOver id).symConclude j i (symRun (symPar j.entry) i)

/-- AEAD_SEAL. -/
def execAeadSeal (job : Nat) (r : RunEnd) (s : State) : Host.Outcome State Fault Refusal := .next (s.symEnd 0x0301 job r)

/-- AEAD_OPEN. -/
def execAeadOpen (job : Nat) (r : RunEnd) (s : State) : Host.Outcome State Fault Refusal := .next (s.symEnd 0x0302 job r)

/-- CIPHER. -/
def execCipher (job : Nat) (r : RunEnd) (s : State) : Host.Outcome State Fault Refusal := .next (s.symEnd 0x0303 job r)

/-- A HASH is computed once, so that only a completion detector can stop it (R185). -/
def hashEnd (e : EngineEnd) : EngineEnd := if e = .checkFailed then .ok else e

/-- HASH. -/
def execHash (job : Nat) (r : RunEnd) (s : State) : Host.Outcome State Fault Refusal :=
  .next (s.symEnd 0x0401 job { r with eng := hashEnd r.eng })

/-- MAC_GEN. -/
def execMacGen (job : Nat) (r : RunEnd) (s : State) : Host.Outcome State Fault Refusal := .next (s.symEnd 0x0402 job r)

/-- MAC_CHECK. -/
def execMacCheck (job : Nat) (r : RunEnd) (s : State) : Host.Outcome State Fault Refusal := .next (s.symEnd 0x0403 job r)

/-- RESULT of KDF (Table 8.9). -/
def kdfResult (j : Job) (h left : Nat) : Bytes := toLE 8 h ++ toLE 1 (pairsOf j.bnd) ++ zeros 3 ++ toLE 4 left

/-- A KDF's run ends: the derived octets become the created key's material (R163), which a
member sends to its head (R295). -/
def kdfEnd (id : Nat) (r : RunEnd) (s : State) : State :=
  match s.boundJob 0x0404 id with
  | none => s
  | some (j, b) =>
    match s.stopped j b r false [] (kdfResult j 0 b.tallyLeft) with
    | some s1 => s1
    | none =>
      let key := match b.keyA with | some k => k.material | none => []
      let m := kdfRun (kdfPar j.entry) key j.input
      match j.remote, b.resv, newKeyOf (s.jobView j) j.entry with
      | some x, _, _ =>
        ((s.memNote r).sendMove 0 (.created x.id m)).finish j { code := cOK, result := kdfResult j 0 b.tallyLeft } [] false
      | none, some rv, some n =>
        let (s1, h) := (s.memNote r).jobKey j rv n m [] fun k => k
        s1.finish j { code := cOK, result := kdfResult j h b.tallyLeft } [] false
      | _, _, _ => s

/-- KDF. -/
def execKdf (job : Nat) (r : RunEnd) (s : State) : Host.Outcome State Fault Refusal := .next (kdfEnd job r s)

end Sys2Proof.Machine
end

