-- ==== Sys2Proof/Machine/Teller.lean ====
section
/-! DEFINITION. Teller contexts (R186 to R189): GO, ABORT, CLEAR, and the end of an operation. -/
namespace Sys2Proof.Machine
open Sys2Proof

/-- A teller page's record. -/
def State.teller (s : State) (sl k : Nat) : Teller := (s.slice sl).tellers.getD k {}

/-- The state with a teller replaced. -/
def State.setTeller (s : State) (sl k : Nat) (t : Teller) : State :=
  let v := s.slice sl
  s.setSlice sl { v with tellers := v.tellers.set k t }

/-- Whether a teller page is live (R186). -/
def State.tellerLive (s : State) (sl k : Nat) : Bool := k < (s.slice sl).alloc.teller

/-- The entry a teller's registers stand for (R188): no addresses, TL_OUT_CAP as OUT_LEN. -/
def State.tellerEntry (s : State) (sl : Fin 4096) (k : Fin 2) : Bytes :=
  let p := Page.tel sl k
  toLE 2 0x0100 ++ toLE 2 (fld (s.rg p 0x04C) 0 16) ++ zeros 12 ++ toLE 8 (s.rgWide p 0x050) ++ zeros 16 ++
    toLE 4 (fld (s.rg p 0x058) 0 9) ++ toLE 4 (fld (s.rg p 0x05C) 0 9) ++ zeros 8 ++ s.rgBytes p 0x080 14 ++ zeros 16

/-- Whether a teller runs an entry's opcode and ALG (R188). -/
def tellerKind (e : Bytes) : Bool :=
  let p := symPar e
  match p.op with
  | 0x0301 | 0x0302 => p.alg = 0x11 || p.alg = 0x13
  | 0x0303 => [0x21, 0x22, 0x26].contains p.alg
  | 0x0402 | 0x0403 => p.alg = 0x31 || p.alg = 0x32
  | 0x0401 => p.alg = 0 && [1, 2, 3, 9, 0x0A].contains p.sub
  | _ => false

/-- What GO's checks find (R188). -/
def State.tellerBad (s : State) (sl : Nat) (e : Bytes) : Option (Nat × Nat) :=
  let p := symPar e
  if !tellerKind e then some (cBadParam, 0x20)
  else match entryCheck false (s.clu.role = .member) (s.view sl) e with
    | some x => some x
    | none => if p.stream != 0 || p.stripe || p.scrub then some (cBadParam, 0x20) else none

/-- A teller's operation ends (Table 8.16): its registers, TL_COUNT, TL_DONE where asked for, its pair free. -/
def State.tellerFinish (s : State) (sl : Fin 4096) (k : Fin 2) (code detail : Nat) (out res : Bytes) : State :=
  let t := s.teller sl.val k.val
  let s1 := match t.bnd with | some b => s.engDrop b.eng | none => s
  let s2 := s1.setTeller sl.val k.val
    { t with
      st := 2, code := code, detail := detail, dout := out, outLen := out.length, result := res, count := t.count + 1
      bnd := none, waiting := false, draws := false, entry := [], input := [] }
  let s3 := s2.reap
  if (s3.rg (.tel sl k) 0x04C).getLsbD 16 then s3.raise (.tel sl k) 16 else s3

/-- RESULT of a teller's operation that ends before its pair gives one (R47, Table 8.9): a pair held counts, and with
`n` the octets it had taken in by then; a teller's AEAD_OPEN releases nothing before its end. -/
def tellerStop (j : Job) (n left : Nat) : Bytes :=
  stopResult { j with released := if j.bnd.isNone || eOp j.entry = 0x0302 then 0 else Nat.min n (symPar j.entry).payload } left

/-- A running operation is stopped with ABORTED (R189): how far its pair had got is a free value. -/
def State.tellerAbort (s : State) (sl : Fin 4096) (k : Fin 2) (detail : Nat) : State :=
  let t := s.teller sl.val k.val
  let j := tellerJob sl.val t.entry t.input t.bnd
  ({ s with freeN := s.freeN + 1 } : State).tellerFinish sl k cAborted detail [] (tellerStop j (Config.progress s.freeN) j.left)

/-- A teller's operation binds to a pair (Table 8.16 step 3): checked and charged as a job, or ended. -/
def State.tellerBind (s : State) (sl : Fin 4096) (k : Fin 2) (pair : Fin 64) (m : MemOutcome) (rng : EngineEnd) : State :=
  let t := s.teller sl.val k.val
  let j := tellerJob sl.val t.entry t.input none
  let e := t.entry
  match s.taking j m with
  | (s1, .inl r) =>
    let first := r.code = cWrap && !s1.ks.wrapNoted.contains (eKeyA e)
    let s2 := if first then
        ({ s1 with ks := { s1.ks with wrapNoted := eKeyA e :: s1.ks.wrapNoted } }).record 0x0408 3 (srcSlice sl.val)
          (toLE 8 (eKeyA e) ++ toLE 2 r.detail)
      else s1
    s2.tellerFinish sl k r.code r.detail [] (if r.code = cWrap then zeros 16 else tellerStop j 0 0xFFFFFFFF)
  | (s1, .inr tk) =>
    let go := fun (s : State) (tk : Taking) =>
      let (s2, b) := s.mkBound j (.pairs [pair]) tk
      let s3 := s2.consume sl.val tk.approval (eKeyA e)
      (s3.setTeller sl.val k.val { s3.teller sl.val k.val with bnd := some b, pair := pair.val, waiting := false, draws := false }).engTake (.pairs [pair])
    if !opSecret (eOp e) then go s1 tk
    else match s1.intRequest rng with
      | (s2, .got out) => go s2 { tk with rnd := some out }
      | (_, .wait) => s.setTeller sl.val k.val { t with draws := true }
      | (s2, .refused c d) => (s2.consume sl.val tk.approval (eKeyA e)).tellerFinish sl k c d [] (tellerStop j 0 tk.left)

/-- A write to a teller page's control register, under R186. -/
def State.onTeller (s : State) (sl : Fin 4096) (k : Fin 2) (f : State → State) : State :=
  s.onPage (.tel sl k) fun s => if !s.tellerLive sl.val k.val then s.refuse (.tel sl k) cForbids 1 else f s

/-- TL_CTRL.GO (R186, R188, R189; R277, R395 where no operation may start): checked at once; it binds the offered pair, or waits in arrival order where none is
free, or for a ceiling (R228). -/
def tlGoBody (sl : Fin 4096) (k : Fin 2) (pair : Fin 64) (m : MemOutcome) (rng : EngineEnd) (s : State) : State :=
  s.onTeller sl k fun s =>
    let t := s.teller sl.val k.val
    if !(s.slice sl.val).feat 9 then s.refuse (.tel sl k) cFeature 9
    else if t.st = 1 then s.refuse (.tel sl k) cForbids 4
    else if (s.slice sl.val).st = .held || s.pwr.deep.isSome then s.refuse (.tel sl k) cForbids 5
    else
      let v := s.passEnds
      let e := v.tellerEntry sl k
      let input := v.rgBytes (.tel sl k) 0x100 64
      let s1 := v.setTeller sl.val k.val
        { v.teller sl.val k.val with
          st := 1, dout := [], outLen := 0, result := [], waiting := true, arrival := v.qsc.nextFin, entry := e
          input := input.take (eInLen e) }
      let s2 : State := { s1 with qsc := { s1.qsc with nextFin := s1.qsc.nextFin + 1 } }
      match v.tellerBad sl.val e with
      | some (c, d) => s2.tellerFinish sl k c d [] (zeros 16)
      | none =>
        if v.pairFree pair && v.nextTeller.isNone && !v.ceilingWait (tellerJob sl.val e input none) then s2.tellerBind sl k pair m rng
        else s2

/-- TL_GO. -/
def execTlGo (slice : Fin 4096) (k : Fin 2) (pair : Fin 64) (mem : MemOutcome) (rng : EngineEnd) (s : State) :
    Host.Outcome State Fault Refusal := .next (s.hostReq (.tlGo slice k pair mem rng) (tlGoBody slice k pair mem rng))

/-- TL_CTRL.ABORT (R189): a running operation ends ABORTED, its output zeroed. -/
def tlAbortBody (sl : Fin 4096) (k : Fin 2) (s : State) : State :=
  s.onTeller sl k fun s => if (s.teller sl.val k.val).st = 1 then s.tellerAbort sl k 3 else s

/-- TL_ABORT. -/
def execTlAbort (slice : Fin 4096) (k : Fin 2) (s : State) : Host.Outcome State Fault Refusal :=
  .next (s.hostReq (.tlAbort slice k) (tlAbortBody slice k))

/-- Registers of a page from `off` on set to their reset values. -/
def State.clearRgs (s : State) (p : Page) (off : Nat) : Nat → State
  | 0 => s
  | n + 1 => (s.clearRgs p off n).setRg p (off + 4 * n) (regReset p (off + 4 * n))

/-- TL_CTRL.CLEAR (Table 8.15): data, parameters, results, status and lengths zeroed, STATE IDLE. -/
def tlClearBody (sl : Fin 4096) (k : Fin 2) (s : State) : State :=
  s.onTeller sl k fun s =>
    let t := s.teller sl.val k.val
    if t.st = 1 then s.refuse (.tel sl k) cForbids 4
    else
      let p := Page.tel sl k
      (((s.clearRgs p 0x058 2).clearRgs p 0x080 14).clearRgs p 0x100 64).setTeller sl.val k.val
        { t with st := 0, code := 0, detail := 0, outLen := 0, result := [], dout := [] }

/-- TL_CLEAR. -/
def execTlClear (slice : Fin 4096) (k : Fin 2) (s : State) : Host.Outcome State Fault Refusal :=
  .next (s.hostReq (.tlClear slice k) (tlClearBody slice k))

/-- The lowest-numbered free pair. -/
def State.somePair (s : State) : Option (Fin 64) :=
  (List.range 64).findSome? fun p => if h : p < 64 then (if s.pairFree ⟨p, h⟩ then some ⟨p, h⟩ else none) else none

/-- A bound teller operation ends: as the symmetric job it stands for, every AEAD_OPEN verified first (R179, R189). -/
def State.tellerEnd (s : State) (sl : Fin 4096) (k : Fin 2) (b : Bound) (r : RunEnd) : State :=
  let t := s.teller sl.val k.val
  let j := tellerJob sl.val t.entry t.input (some b)
  let (s1, bad, _) := s.memAccess r.mem
  match bad with
  | some (c, d) => s1.tellerFinish sl k c d [] (tellerStop j r.released b.tallyLeft)
  | none =>
    match endDetail false (if eOp t.entry = 0x0401 then hashEnd r.eng else r.eng) with
    | some d => (s1.mismatch j b.eng d).tellerFinish sl k cMismatch d [] (tellerStop j r.released b.tallyLeft)
    | none =>
      let i := s.symIn j b
      let o := symRun (symPar t.entry) i
      if !o.bad then s1.tellerFinish sl k cOK 0 o.out (symResult j i (if eOp t.entry = 0x0302 then o.out.length else 0) 0)
      else if eOp t.entry = 0x0403 then s1.tellerFinish sl k cVerifyFail 0x40 [] (symResult j i 0 0)
      else s1.tellerFinish sl k cAuthFail 2 [] (symResult j i 0 0)

/-- TELLER_DONE (R189): the operation ends; one that waited takes the pair that has come free, in arrival order. -/
def tellerDone (sl : Fin 4096) (k : Fin 2) (r : RunEnd) (s : State) : State :=
  let t := s.teller sl.val k.val
  if t.st != 1 || s.mute then s
  else match t.bnd with
    | some b => s.tellerEnd sl k b r
    | none =>
      let s := s.passEnds
      match s.somePair with
      | some p => if t.waiting && s.nextTeller = some t.arrival then s.tellerBind sl k p r.mem (drawEnd r 0) else s
      | none => s

/-- TELLER_DONE. -/
def execTellerDone (slice : Fin 4096) (k : Fin 2) (r : RunEnd) (s : State) : Host.Outcome State Fault Refusal :=
  .next (tellerDone slice k r s)

end Sys2Proof.Machine
end

