-- ==== Sys2Proof/Machine/SliceOps.lean ====
section
/-! DEFINITION. Slice resources and offers (R265, R268, R269, R280), and what a destroyed or ended slice gives up. -/
namespace Sys2Proof.Machine
open Sys2Proof

/-! ### Offers (R280) -/

/-- Slice 0's fixed mask (R280): bits 0, 1, 2, 11, 12 and 13. -/
def managerMask : W32 := 0x3807

/-- SL_FEAT_OFFER0 of an allocation under a mask and a tenant digest (R280). -/
def State.offerFor (s : State) (sl : Nat) (a : Alloc) (mask : W32) (digest : Bytes) : W32 :=
  let o := s.glb.accepted.getD 1 0 &&& (if sl = 0 then managerMask else mask)
  let off := fun (b : Nat) (c : Bool) => if c then BitVec.ofNat 32 (2 ^ b) else 0
  let gone := if sl = 0 then 0 else
    off 9 (a.teller = 0) ||| off 7 (a.curves = 0) ||| off 4 (a.rlds = 0) ||| off 10 (digest.all (· = 0))
  (o &&& ~~~(gone ||| off 13 (s.clu.role != .head))) ||| 1

/-- SL_FEAT_OFFER0 as it reads: kept from CREATE and RESIZE for a tenant, computed at all times for slice 0 (R280). -/
def State.offer0 (s : State) (sl : Nat) : W32 :=
  if sl = 0 then s.offerFor 0 (s.slice 0).alloc 0 [] else (s.slice sl).offer

/-! ### Pools (R268, R269) -/

/-- The amounts of an allocation by resource number, 1 to 9 (Table 12.2). -/
def Alloc.amounts (a : Alloc) : List Nat :=
  [a.rings, a.vecCount, a.hot, a.deep.length, a.tally, a.teller, a.curves, a.rlds, a.staging]

/-- The most a slice may hold of each (Table 12.2). -/
def sliceMost : List Nat := [16384, 64, 32768, 3840, 65536, 2, 8, 16, 65536]

/-- The pools for tenants (Table 12.2). -/
def poolSize : List Nat := [1048512, 2032, 32768, 4096, 65536, 64, 1024, 65536, 262128]

/-- The tenant slices that exist. -/
def State.tenants (s : State) : NMap Slice := s.slices.filter fun p => p.1 != 0 && p.2.st != .free

/-- The free amount of each pool, quarantined deep blocks apart (R269). -/
def State.poolFree (s : State) : List Nat :=
  let used := s.tenants.foldl (fun a p => List.zipWith (· + ·) a p.2.alloc.amounts) (List.replicate 9 0)
  let free := List.zipWith (· - ·) poolSize used
  free.set 3 (free.getD 3 0 - s.ks.quarantined.length)

/-- The first pool that holds less than `want` beyond `have_` (row 9 of Table 12.5): its resource number. -/
def State.poolShort (s : State) (have_ want : List Nat) : Option Nat :=
  ((List.range 9).find? fun i => s.poolFree.getD i 0 < want.getD i 0 - have_.getD i 0).map (· + 1)

/-- The lowest `n` numbers from `lo` on that `used` does not hold. -/
def lowest (used : List Nat) (lo n : Nat) : List Nat :=
  (((List.range (used.length + n)).map (· + lo)).filter fun i => !used.contains i).take n

/-- Global ring IDs in use by tenants. -/
def State.gids (s : State) : List Nat := (s.tenants.map fun p => p.2.rings.map fun r => r.2.gid).flatten

/-- Deep blocks granted to a slice: the lowest-numbered free ones (which ones is the model's choice). -/
def State.grantDeep (s : State) (n : Nat) : List Nat :=
  lowest ((s.tenants.map fun p => p.2.alloc.deep).flatten ++ s.ks.quarantined.map Prod.fst) 0 n

/-- Deep blocks a slice gives up are quarantined until their segment's next compaction (R269); their pages change owner
(R321). -/
def State.quarantine (s : State) (l : List Nat) : State :=
  ({ s with ks := { s.ks with quarantined := s.ks.quarantined ++ l.map fun b => (b, (s.seg (b / 256)).round) } } : State).reowned s

/-! ### Pages -/

/-- The four pages of a slice take their reset values (R274). -/
def State.clearPages (s : State) (sl : Nat) : State :=
  let page := fun (k : Nat) => k / 4 = 0x400 + sl
  { s with
    hdr := s.hdr.filter fun p => !page p.1
    regs := s.regs.filter fun p => !page (p.1 / 0x1000)
    wideHeld := s.wideHeld.filter fun p => !page (p.1 / 0x1000)
    latch := s.latch.filter fun p => !page (p.1 / 0x1000) }

end Sys2Proof.Machine
end

