-- ==== Sys2Proof/Machine/Cluster.lean ====
section
/-! DEFINITION. Cluster membership, links, heartbeats and replicas (chapter 13): the cluster's commands and frames. -/
namespace Sys2Proof.Machine
open Sys2Proof

/-! ### The roster (R296 to R298) -/

/-- An entry of a cluster request: member ID, NEW, UID. -/
structure RosterEntry where
  ident : Nat
  isNew : Bool
  uid : Bytes
  deriving DecidableEq, Repr

/-- The entries of a request (Table 13.3). -/
def rosterEntries (b : Bytes) : List RosterEntry :=
  (List.range (Bytes.at b 8)).map fun j =>
    { ident := Bytes.at b (0x20 + 24 * j), isNew := bit (Bytes.at b (0x21 + 24 * j)) 0, uid := Bytes.sub b (0x24 + 24 * j) 16 }

/-- Row 2 of Table 13.4 on a request as long as CLU_REQ_LEN. -/
def requestBad (b : Bytes) : Bool :=
  let n := Bytes.at b 8
  b.length < 32 || b.length != 32 + 24 * n || Bytes.le b 0 4 != 0x52435A4C || Bytes.le b 4 2 != 1 ||
    !(Bytes.sub b 9 3).all (· = 0) ||
    (List.range n).any fun j => 2 ≤ Bytes.at b (0x21 + 24 * j) || !(Bytes.sub b (0x22 + 24 * j) 2).all (· = 0) ||
      !(Bytes.sub b (0x34 + 24 * j) 4).all (· = 0)

/-- Whether a roster fits its topology (Table 13.1): count, IDs ascending, contiguous in a chain or ring. -/
def topoFits (topo : Nat) (ids : List Nat) : Bool :=
  let n := ids.length
  let asc := (ids.zip (ids.drop 1)).all fun x => x.1 < x.2
  let most := fun (lo hi : Nat) => lo ≤ n && n ≤ hi && asc
  match topo with
  | 1 => most 2 16 && ids = List.range n
  | 2 => most 3 32 && ids = List.range n
  | 3 => most 2 16 && ids.all (· < 16)
  | 4 => most 2 64 && ids.all (· < 64)
  | _ => false

/-- Whether a request's difference from the current roster is what its ACTION allows (row 7 of Table 13.4). -/
def State.diffOk (s : State) (action topo : Nat) (l : List RosterEntry) : Bool :=
  let cur := s.roster
  let kept := l.filter fun e => !e.isNew
  let new := l.filter fun e => e.isNew
  let same := kept.all fun e => cur.contains (e.ident, e.uid)
  match action with
  | 1 => (l.drop 1).all (·.isNew)
  | 2 => topo = s.clu.topo && same && kept.length = cur.length && !new.isEmpty && new.all fun e => !(cur.any fun c => c.1 = e.ident)
  | 3 => topo = s.clu.topo && same && new.isEmpty && kept.length < cur.length
  | 4 =>
    topo = s.clu.topo && same && !new.isEmpty && l.length = cur.length &&
      new.all fun e => e.ident != 0 && cur.any fun c => c.1 = e.ident && c.2 != e.uid
  | _ => false

/-- Row 7 of Table 13.4. -/
def State.rosterBad (s : State) (action : Nat) (b : Bytes) : Bool :=
  let topo := Bytes.at b 7
  let l := rosterEntries b
  let ids := l.map fun e => e.ident
  let head := Bytes.sub b 0x10 16
  if action = 5 then topo != 0 || !l.isEmpty || head != uidBytes
  else
    let first : Bool := match l with | e :: _ => e.ident = 0 && !e.isNew && e.uid = uidBytes | [] => false
    !topoFits topo ids || head != uidBytes || !first || !(l.map fun e => e.uid).Nodup || !s.diffOk action topo l ||
      (action = 3 && ids.any fun n => !((s.pathsIn topo ids).any fun x => x.1 = n))

/-! ### Commands' ends -/

/-- A cluster command ends; CMD_DONE is raised (R311). -/
def State.cluEnd (s : State) (code detail : Nat) : State :=
  ({ s with clu := { s.clu with cmd := { st := 2, code := code, detail := detail } } }).raise .clu 17

/-- Whether a removed member has left: gone from the roster or replaced, or LOST. -/
def State.memberGone (s : State) (n : Nat) : Bool :=
  match NMap.find s.clu.members n with
  | none => true
  | some m => m.st = .lost || m.st != .leaving

/-- EXECUTE completes when every NEW unit reads SERVING and every removed one has left (R298); after DISSOLVE the head is
STANDALONE. -/
def State.cluSettle (s : State) : State :=
  if s.clu.cmd.st != 1 then s
  else if (s.clu.newIds.all fun n => (s.member n).st = .serving) && s.clu.goneIds.all s.memberGone then
    let s1 : State := { s with clu := { s.clu with newIds := [], goneIds := [] } }
    let s2 : State :=
      if s.clu.action = 5 then
        { s1 with clu := { s1.clu with role := .standalone, id := 0, topo := 0, members := [], transfer := [], replicas := [], ranges := [], owed := [] } }
      else s1
    s2.relink.cluEnd cOK 0
  else s

/-- What the head holds for the unit under a member's ID is gone: transfer key, replicas, ranges (R295, R298, R304). -/
def Cluster.without (c : Cluster) (ids : List Nat) : Cluster :=
  { c with
    transfer := c.transfer.filter fun x => !ids.contains x.1
    replicas := c.replicas.filter fun x => !ids.contains x.2
    ranges := c.ranges.filter fun x => !ids.contains x.2.member
    owed := c.owed.filter fun x => !ids.contains x.1 }

/-- A member's ID leaves the roster, or passes to the unit that replaces it, which joins, or reads LOST past its limit (R298);
what still stood on it ends as on a lost member. -/
def State.memberLeft (s : State) (n : Nat) (late : Bool) : State :=
  let m := s.member n
  let s0 := s.loseWork n
  let s1 : State := { s0 with clu := s0.clu.without [n] }
  let s2 : State :=
    if m.repl.isEmpty then { s1 with clu := { s1.clu with members := NMap.del s1.clu.members n } }
    else s1.setMember n { st := if late then .lost else .joining, uid := m.repl, joinEnd := if late then 0 else m.joinEnd }
  (s2.relink.reroute.raise .clu 16).cluSettle

/-! ### EXECUTE (R297, R298) -/

/-- Rows 3 to 7 of Table 13.4. -/
def State.executeBad (s : State) (b : Bytes) : Option (Nat × Nat) :=
  let action := Bytes.at b 6
  if s.lcsCode != 4 then some (cForbids, 2)
  else if !s.devFeat 1 then some (cFeature, 1)
  else if (if action = 1 then s.clu.role != .standalone else s.clu.role != .head) then some (cForbids, 0x20)
  else if Bytes.le b 0x0C 4 != (s.clu.rosterVer + 1) % 2 ^ 32 then some (cBadParam, 0x12)
  else if s.rosterBad action b then some (cBadParam, 0x11)
  else none

/-- The roster as a request leaves it: joiners JOINING, removed members LEAVING, replaced ones LEAVING with a successor
(at once where they are LOST). -/
def State.applyRoster (s : State) (action : Nat) (l : List RosterEntry) : State :=
  let tEnd := s.tick + 3840
  let old := s.clu.members
  let put := fun (a : NMap Member) (e : RosterEntry) =>
    if !e.isNew then (if (NMap.find a e.ident).isSome then a else NMap.set a e.ident { st := .serving, uid := e.uid })
    else match NMap.find old e.ident with
      | some m =>
        if m.st = .lost then NMap.set a e.ident { st := .joining, uid := e.uid, joinEnd := tEnd }
        else NMap.set a e.ident { m with st := .leaving, repl := e.uid, joinEnd := tEnd }
      | none => NMap.set a e.ident { st := .joining, uid := e.uid, joinEnd := tEnd }
  let out := fun (n : Nat) (m : Member) => if n = 0 || l.any fun e => e.ident = n then m else { m with st := .leaving, repl := [] }
  let leave := (old.filter fun m => m.1 != 0 && !(l.any fun e => e.ident = m.1 && !e.isNew)).map fun m => (m.1, decide (m.2.st = .lost))
  let gone := (leave.filter fun x => !x.2).map Prod.fst
  let lost := (leave.filter fun x => x.2).map Prod.fst
  let members := (l.foldl put (NMap.mapV old out)).filter fun m => !lost.contains m.1 || l.any fun e => e.ident = m.1
  { s with clu := { s.clu.without lost with
      members := members, newIds := (l.filter fun e => e.isNew).map fun e => e.ident, goneIds := gone, action := action
      ranges := s.clu.ranges.filter fun (x : Nat × InvRange) => !gone.contains x.2.member && !lost.contains x.2.member } }

/-- UIDs that joined or left by a request. -/
def State.changedUids (s : State) (l : List RosterEntry) : List Bytes :=
  ((l.filter fun e => e.isNew).map fun e => e.uid) ++
    (s.roster.filter fun c => c.1 != 0 && !(l.any fun e => e.uid = c.2)).map Prod.snd

/-- EXECUTE's decision (R298): recorded with the UIDs that join or leave, at most 62 of them a record (R370). -/
def State.executeDo (s : State) (b : Bytes) (a : Approval) : State :=
  let action := Bytes.at b 6
  let l := rosterEntries b
  let ver := Bytes.le b 0x0C 4
  let s1 := s.consume 0 (some a.slot) 0
  let uids := (s.changedUids l).flatten
  let rec_ := fun (b : Bytes) => toLE 1 action ++ toLE 4 ver ++ b
  let s2 := (chunks 992 (uids.drop 992)).foldl (fun (a : State) b => (a.enterNew 0x0C03 2 0 (rec_ b)).cpDue)
    ((s1.applyRoster action l).record 0x0C03 2 0 (rec_ (uids.take 992)))
  let clu : Cluster :=
    { s2.clu with
      role := .head, id := 0, rosterVer := ver, topo := if action = 5 then s2.clu.topo else Bytes.at b 7, headUid := uidBytes
      cmd := { st := 1 }, proof := { request := b, challenge := a.challenge, groupRec := a.shown, tokens := a.tokens } }
  let s3 : State := { s2 with clu := clu }
  ((s3.relink.reroute).raise .clu 16).cluSettle

/-- CLU_CMD EXECUTE (Table 13.4). -/
def executeBody (req : HostRead) (s : State) : State :=
  s.onPage .clu fun s =>
    if s.clu.cmd.st = 1 then s.refuse .clu cForbids 1
    else
      let len := fld (s.rg .clu 0x0A8) 0 11
      let s1 := s.emit (.read none (s.rgWide .clu 0x0A0) len)
      match req with
      | .failed _ => s1.cluEnd cBadAddr 0x13
      | .data d =>
        let b := Bytes.fit d len
        if requestBad b then s1.cluEnd cBadParam 1
        else if s1.lcs.pending then s1.cluEnd cPending 1
        else match s1.executeBad b with
          | some (c, d) => s1.cluEnd c d
          | none => match s1.ownerAppr (s1.rg .clu 0x09C).toNat (sha3_256 b) with
            | .inl d => s1.cluEnd cQuorum d
            | .inr a => s1.executeDo b a

/-- EXECUTE. -/
def execExecute (req : HostRead) (s : State) : Host.Outcome State Fault Refusal := .next (s.hostReq (.execute req) (executeBody req))

/-! ### Members' states (R298, R300, R301, R308, R309) -/

/-- Whether a member sends heartbeats in a state (R301). -/
def MemberState.beats (st : MemberState) : Bool := [.serving, .syncing, .quarantined, .leaving].contains st

/-- A member changes state: MEMBER_CHG is raised. Its first liveness window begins as it comes to send heartbeats; a LOST one
reports nothing any longer. -/
def State.memberTo (s : State) (n : Nat) (st : MemberState) : State :=
  let m := s.member n
  let m1 : Member := { m with st := st, window := if st.beats && !m.st.beats then s.tick else m.window }
  (s.setMember n (if st = .lost then { m1 with links := 0, joinEnd := 0 } else m1)).raise .clu 16

/-- A member reaches SERVING: recorded at NOTICE (R308), the versions that hold are told, EXECUTE may complete. -/
def State.serve (s : State) (n : Nat) : State :=
  let s1 := (s.memberTo n .serving).record 0x0C03 2 (srcMember n) (toLE 1 n ++ (s.member n).uid)
  ((s1.setMember n { s1.member n with joinEnd := 0 }).tellVersions n).cluSettle

/-- A member is declared LOST (R301, R304, R309): recorded with the number of jobs affected, its work ends, its ranges are
abandoned; one that was leaving has then left (R298). -/
def State.loseMember (s : State) (n : Nat) : State :=
  let k := s.placedOn n
  let s1 := (s.memberTo n .lost).record 0x0C01 3 (srcMember n) (toLE 1 n ++ (s.member n).uid ++ toLE 4 k)
  let s2 := s1.loseWork n
  let s3 : State :=
    { s2 with clu := { s2.clu with ranges := s2.clu.ranges.filter fun (x : Nat × InvRange) => x.2.member != n } }
  if (s.member n).st = .leaving then s3.memberLeft n false else s3.reroute.cluSettle

/-- HB_TIMEOUT. -/
def State.hbTimeout (s : State) : Nat := fld (s.rg .clu 0x080) 0 7

/-- MEMBER_LOST (R301): no heartbeat inside [t, t + HB_TIMEOUT). -/
def execMemberLost (ident : Fin 64) (s : State) : Host.Outcome State Fault Refusal :=
  .next (
    let m := s.member ident.val
    if s.running && s.clu.role = .head && ident.val != 0 && m.st.beats && m.window + s.hbTimeout ≤ s.tick then s.loseMember ident.val
    else s)

/-- JOIN_TIMEOUT (R298): a NEW unit not SERVING at its limit reads LOST, and the EXECUTE that waits for it ends with
MEMBER_LOST; the roster stands. -/
def execJoinTimeout (ident : Fin 64) (s : State) : Host.Outcome State Fault Refusal :=
  .next (
    let n := ident.val
    let m := s.member n
    if s.running && s.clu.role = .head && m.joinEnd != 0 && m.joinEnd ≤ s.tick &&
        ([MemberState.joining, .syncing, .quarantined].contains m.st || (m.st = .leaving && !m.repl.isEmpty)) then
      let waits := s.clu.cmd.st = 1 && s.clu.newIds.contains n
      let s1 := if waits then s.cluEnd cMemberLost 0x10 else s
      let s2 := if m.st = .leaving then s1.memberLeft n true else s1.memberTo n .lost
      { s2 with clu := { s2.clu with newIds := s2.clu.newIds.filter (· != n) } }
    else s)

/-- A job of the head's is stopped on this member: its engines are wiped and returned, its result is discarded (R24, R302). -/
def State.dropRemote (s : State) (j : Job) : State :=
  let s1 := s.returned j false
  (({ s1 with freeN := s1.freeN + 1, jobs := s1.jobs.filter fun x => x.id != j.id }).bpNote).stopWipes s.freeN j.engines

/-- HEAD_TIMEOUT (R302): a member that has not heard its head for HB_TIMEOUT stops every job it is running and waits, its
replicas and transfer keys kept; one that was leaving has nothing left to end. -/
def execHeadTimeout (s : State) : Host.Outcome State Fault Refusal :=
  .next (
    if s.running && s.clu.role = .member && !s.clu.headLost && s.clu.headHb + s.hbTimeout ≤ s.tick then
      let s1 : State := { s with clu := { s.clu with headLost := true } }
      ((s.jobs.filter fun j => j.remote.isSome).foldl State.dropRemote s1).leaveNow
    else s)

/-- Whether a lane pair is in service: both lanes read READY or BUSY. -/
def State.pairUp (s : State) (p : Fin 64) : Bool :=
  let on := fun (n : Fin 128) => (s.hd (.scl n)).st = .ready || (s.hd (.scl n)).st = .busy
  on ⟨2 * p.val, by omega⟩ && on ⟨2 * p.val + 1, by omega⟩

/-- The octets of a HEARTBEAT payload (the layout is the model's own, R292): this unit's tiles and pairs that read READY or
BUSY, powered quads, the state of its entropy source, its UP links. -/
def State.hbOctets (s : State) : Bytes :=
  let links := (List.range 4).filter fun p => (s.zlp p).up
  toLE 1 s.tilesUp ++ toLE 1 ((List.finRange 64).filter s.pairUp).length ++ toLE 1 ((List.range 24).filter s.keccakOn).length ++
    toLE 1 (b2n (s.rng.es = .healthy)) ++ toLE 1 ((links.map (2 ^ ·)).sum)

/-- HEARTBEAT_SEND (R301): the head to each SERVING, SYNCING or QUARANTINED member, a member to its head. -/
def execHeartbeatSend (s : State) : Host.Outcome State Fault Refusal :=
  .next (
    if !s.running then s
    else match s.clu.role with
      | .standalone => s
      | .member => s.toMember 0 2 s.hbOctets
      | .head => s.clu.members.foldl (fun a m =>
          if m.1 != 0 && [MemberState.serving, .syncing, .quarantined].contains m.2.st then a.toMember m.1 2 s.hbOctets else a) s)

/-! ### Frames in (R294) -/

/-- A frame that cannot be accepted is dropped and answered with a NAK that names the CTR due, counted in ZL_RETRY_CNT. -/
def State.nak (s : State) (p : Nat) (z : Zl) : State :=
  (s.setZl p { z with retry := satAdd 32 z.retry 1 }).sendFrame p 7 1 s.clu.id z.peer (toBE 8 z.rxCtr)

/-- A frame arrives on a port (R294): tag, then EPOCH and CTR; one for another member goes on, sealed anew, by the table in
force (R291). Answers the state and the payload of a frame that is this unit's to act on. -/
def State.frameIn (s : State) (p : Fin 4) (f : FrameHdr) (typ : Nat) : State × Option Bytes :=
  let z := s.zlp p.val
  if !s.running || !s.linked || s.mute || !z.up then (s, none)
  else
    let s := s.wakeFor 8
    match openFrame f z.rxKey typ with
    | none =>
      let s1 := s.nak p.val { z with authFail := satAdd 32 z.authFail 1, consec := z.consec + 1 }
      if 16 ≤ z.consec + 1 then
        ((s1.dropLink p.val .training).record 0x0C04 4 (srcPort p.val) (toLE 1 p.val ++ Bytes.fit z.peerUid 16), none)
      else (s1, none)
    | some msg =>
      if f.epoch != z.rxEpoch || f.ctr != z.rxCtr then (s.nak p.val { z with consec := 0 }, none)
      else
        let s1 := s.setZl p.val { z with rxCtr := z.rxCtr + 1, consec := 0 }
        if s.clu.role != .standalone && f.dst.val != s.clu.id then
          match s1.route f.dst.val with
          | some q => (s1.sendFrame q typ (b2n f.nak) f.src.val f.dst.val msg, none)
          | none => (s1, none)
        else (s1, some msg)

/-- An accepted frame joins what came before it of its payload; with the last one the whole payload acts. -/
def State.onPayload (s : State) (p : Fin 4) (f : FrameHdr) (typ : Nat) (act : Bytes → State → State) : State :=
  let n := 256 * f.src.val + typ
  match s.frameIn p f typ with
  | (s1, none) => s1
  | (s1, some msg) =>
    let whole := NMap.getD s1.clu.rxPart n [] ++ msg
    if f.last then act whole { s1 with clu := { s1.clu with rxPart := NMap.del s1.clu.rxPart n } }
    else { s1 with clu := { s1.clu with rxPart := NMap.set s1.clu.rxPart n whole } }

/-- An accepted payload acts. -/
def State.onFrame (s : State) (p : Fin 4) (f : FrameHdr) (typ : Nat) (act : State → State) : State :=
  s.onPayload p f typ fun _ => act

/-- What a heartbeat tells the head of its sender (R301, R303). -/
def Member.heard (m : Member) (h : HbMsg) (t : Nat) : Member :=
  { m with
    lastHb := t, window := t, engines := h.tiles.val, pairs := h.pairs.val, quads := h.quads.val, esHealthy := h.healthy, links := h.links }

/-- HEARTBEAT (R301, R302): it renews the window it arrives inside; links that a member reports otherwise than before change
the paths (R291). -/
def execHeartbeat (port : Fin 4) (f : HbFrame) (s : State) : Host.Outcome State Fault Refusal :=
  .next (s.onFrame port f.hdr 2 fun s =>
    let n := f.hdr.src.val
    let m := s.member n
    match s.clu.role with
    | .head =>
      if m.st.beats && s.tick < m.window + s.hbTimeout then
        let s1 := s.setMember n (m.heard f.msg s.tick)
        if f.msg.links = m.links then s1 else s1.reroute.cutOff
      else s
    | .member => if n = 0 then { s with clu := { s.clu with headHb := s.tick, headLost := false } } else s
    | .standalone => s)

/-! ### Links (R291, R293, R294) -/

/-- A port carries links while its page is in service. -/
def State.portOn (s : State) (p : Fin 4) : Bool := s.running && s.linked && (s.hd (.zl p)).st = .ready

/-- Whether AUTH can run (R293, R294): the ephemeral key needs an internal instance, and none runs AUTH while the entropy
source is FAILED; the device identity must be usable (R345). -/
def State.authRuns (s : State) : Bool := s.rng.es != .failed && s.internalRuns && s.identityUsable

/-- The unit's device-identity certificate. -/
def certificate : Bytes := (List.range Config.certLen.toNat).map Config.certificate

/-- Whether a step of AUTH, the secure world's own work, waits: for a pool word (R198) or for the anchor tile (R409). -/
def State.authWaits (s : State) : Bool := s.intBlocked || s.anchorAway

/-- Step 1 of R293: a fresh ephemeral key, from instances 0 to 3, goes out with the UID and the certificate: in the clear in
AUTH, inside the link at a rekey. Nothing where AUTH cannot run; it waits with a reseed that waits (R198), or for the anchor tile (R409). -/
def State.authBegin (s : State) (p : Nat) (inside : Bool) : State :=
  match (if !s.authRuns then (s, .refused cEntropy 1) else if s.anchorAway then (s, .wait) else s.intRequest .ok) with
  | (_, .wait) => s.drawWait (.auth p inside)
  | (_, .refused ..) => s
  | (s1, .got x) =>
    let d := (drawK p384.n 48 x).getD 1
    let pub := p384.encode false (p384.mul d p384.g)
    let s2 := s1.setZl p { s1.zlp p with ephK := d, ephPub := pub }
    let msg := uidBytes ++ pub ++ certificate
    if inside then s2.sendRaw p 1 0 s.clu.id 0x3F msg else s2.sendLink p msg

/-- Step 2 of R293: the signature over both UIDs, both ephemeral keys and the new epoch. -/
def State.authSign (s : State) (p : Nat) (a : AuthMsg) (epoch : Nat) (inside : Bool) : State :=
  let (sig, s1) := s.devSign (uidBytes ++ a.uid ++ (s.zlp p).ephPub ++ a.eph ++ toBE 4 epoch)
  if inside then s1.sendRaw p 1 0 s.clu.id 0x3F sig else s1.sendLink p sig

/-- Step 4 of R293: HKDF with SHA-384 over the ECDH secret; a direction's key is named by the sender's UID and the
receiver's. -/
def Zl.linkKeys (z : Zl) (a : AuthMsg) : Zl :=
  let x := match p384.mul z.ephK (p384.point a.eph) with | some q => q.1 | none => 0
  let prk := hkdfExtract 2 [] (toBE 48 x)
  { z with
    txKey := hkdfExpand 2 prk (uidBytes ++ a.uid) 32, rxKey := hkdfExpand 2 prk (a.uid ++ uidBytes) 32
    ephK := 0, ephPub := [], sent := [] }

/-- LINK_STATE_CHANGE (R291, R294): lanes train and AUTH begins, or the link is lost. -/
def execLinkStateChange (port : Fin 4) (e : LinkEvent) (s : State) : Host.Outcome State Fault Refusal :=
  .next (
    let z := s.zlp port.val
    if !s.portOn port then s
    else match e with
      | .trained w =>
        if (z.st = .down || z.st = .training) && (w.val = 1 || w.val = 2 || w.val = 4) then
          (s.setZl port.val { z with st := .auth, width := w.val, ephK := 0, ephPub := [] }).authBegin port.val false
        else s
      | .lost => if z.st = .down then s else s.dropLink port.val .down)

/-- Whether the peer that an exchange on a port shows is accepted (R293): its ephemeral key is a point, its certificate verifies,
its signature verifies over both UIDs, both ephemeral keys, the signer's first, and the new epoch, and its UID is in the roster
or the pending request. A STANDALONE unit, which has neither, takes any verified peer (DEDUCED). -/
def State.peerOk (s : State) (p : Nat) (a : AuthMsg) (epoch : Nat) : Bool :=
  let msg := a.uid ++ uidBytes ++ a.eph ++ (s.zlp p).ephPub ++ toBE 4 epoch
  a.eph.length = 97 && (p384.pubBad a.eph).isNone && a.certOk && a.key.length = 97 && (p384.pubBad a.key).isNone &&
    a.sig.length = 96 && (p384.verify (p384.point a.key) (sha384 msg) a.sig).isNone && (s.clu.role = .standalone || s.clu.members.any fun m => m.2.uid = a.uid || m.2.repl = a.uid)

/-- AUTH fails (R293): the link reads FAILED, the retry is due after 64 ticks, an ALARM record. -/
def State.authFails (s : State) (p : Fin 4) (a : AuthMsg) : State :=
  let s1 := s.dropLink p.val .failed
  (s1.setZl p.val { s1.zlp p.val with retryAt := s.tick + 64 }).record 0x0C04 4 (srcPort p.val)
    (toLE 1 p.val ++ Bytes.fit a.uid 16)

/-- LINK (R293): an AUTH exchange ends. -/
def linkBody (p : Fin 4) (a : AuthMsg) (s : State) : State :=
  let n := p.val
  if !s.portOn p || s.mute || (s.zlp n).st != .auth then s
  else
    let s := s.wakeFor 8
    let s0 := if (s.zlp n).ephPub.isEmpty then s.authBegin n false else s
    if !s0.authRuns || (s0.zlp n).ephPub.isEmpty then s0
    else if s0.authWaits then s0.drawWait (.link p a)
    else
      let s1 := s0.authSign n a 1 false
      if !s1.peerOk n a 1 then s1.authFails p a
      else
        let z := (s1.zlp n).linkKeys a
        let z1 : Zl :=
          s1.peerOf { z with
            st := .up, peerUid := a.uid, epoch := 1, rxEpoch := 1, txCtr := 0, rxCtr := 0, consec := 0, keyTick := s.tick }
        (s1.setZl n z1).reroute

/-- LINK. -/
def execLinkFrame (port : Fin 4) (_f : FrameHdr) (auth : AuthMsg) (s : State) : Host.Outcome State Fault Refusal :=
  .next (linkBody port auth s)

/-- AUTH_RETRY (R293): 64 ticks after a failure. -/
def execAuthRetry (port : Fin 4) (s : State) : Host.Outcome State Fault Refusal :=
  .next (
    let z := s.zlp port.val
    if s.portOn port && z.st = .failed && z.retryAt ≤ s.tick then
      (s.setZl port.val { z with st := .auth, ephK := 0, ephPub := [] }).authBegin port.val false
    else s)

/-- A frame of a rekey wakes the unit as any Zentulink frame does (R392). -/
def State.wakeLink (s : State) (p : Fin 4) : State := if s.running && s.linked && !s.mute && (s.zlp p.val).up then s.wakeFor 8 else s

/-- REKEY (R294): at CTR 2^39 or 2^22 ticks after the last change, the ends run R293 inside the link, under its old keys, for
epoch + 1 with fresh counters. -/
def rekeyBody (p : Fin 4) (a : AuthMsg) (s : State) : State :=
  let n := p.val
  let z := s.zlp n
  let due := 2 ^ 39 ≤ z.txCtr || 2 ^ 39 ≤ z.rxCtr || z.keyTick + 2 ^ 22 ≤ s.tick
  if !s.portOn p || s.mute || !z.up || !due || !s.authRuns then s.wakeLink p
  else
  let s := s.wakeLink p
  if s.authWaits then s.drawWait (.rekey p a)
  else
    let s0 := if z.ephPub.isEmpty then s.authBegin n true else s
    if !s0.authRuns || (s0.zlp n).ephPub.isEmpty then s0
    else if s0.authWaits then s0.drawWait (.rekey p a)
    else
      let s1 := s0.authSign n a (z.epoch + 1) true
      if !(s1.zlp n).up then s1.reroute.cutOff
      else if !s1.peerOk n a (z.epoch + 1) || a.uid != z.peerUid then s1.authFails p a
      else
        let z1 := (s1.zlp n).linkKeys a
        s1.setZl n { z1 with
          st := .up, epoch := z.epoch + 1, rxEpoch := z.rxEpoch + 1, txCtr := 0, rxCtr := 0, keyTick := s.tick }

/-- REKEY. -/
def execRekey (port : Fin 4) (auth : AuthMsg) (s : State) : Host.Outcome State Fault Refusal := .next (rekeyBody port auth s)

/-! ### Rosters on a member (R299, R308) -/

/-- The ACK of a roster to the head: the version taken and the replica versions applied (R308; the layout is the model's own,
R292). -/
def State.ackRoster (s : State) : State :=
  s.toMember 0 7 (toLE 4 s.clu.rosterVer ++ toLE 1 0 ++ toLE 1 s.clu.replVer.length ++
    (s.clu.replVer.map fun p => toLE 1 p.1 ++ toLE 8 p.2).flatten)

/-- The forwarding table that a roster carries (R298). -/
def nextHops (m : RosterMsg) : NMap Nat := m.table.foldl (fun a x => NMap.set a x.1.val x.2.val) []

/-- A roster is taken over: role, ID, topology, version, members, forwarding table, the transfer key with the head; the ACK to
the head accepts it. -/
def State.adopt (s : State) (m : RosterMsg) (n : Nat) : State :=
  let members := m.ids.foldl (fun a x => NMap.set a x.1.val ({ uid := x.2 } : Member)) []
  let key := match NMap.find s.clu.transfer 0 with
    | some k => k
    | none => (List.range 32).map (Config.transferKey m.headUid)
  let clu : Cluster :=
    { s.clu with
      role := .member, id := n, topo := m.topo.toNat, rosterVer := m.ver.toNat, headUid := m.headUid, members := members
      headHb := s.tick, headLost := false, transfer := [(0, key)], table := nextHops m }
  (({ s with clu := clu }).relink).ackRoster

/-- Whether the approval that a head forwards holds for this unit (R256, R289, R299): a KIND 4 challenge of the head for the
request, the group 0 record that this unit holds too, tokens of at least M custodians that pass over the challenge; a request
that names this unit and the roster it comes with. -/
def State.approved (s : State) (m : RosterMsg) : Bool :=
  let c := m.challenge
  let good := (m.tokens.filterMap fun b => match tokensOf 1 (Bytes.padMul b 8) with
    | some [t] => if tokenBad m.groupRec t || tokenFails m.groupRec c t then none else some t.index
    | _ => none).eraseDups
  (match NMap.find s.vault.groups 0 with
   | some g => g.digest = sha3_256 m.groupRec && g.m ≤ good.length
   | none => false) &&
    Bytes.at c 6 = 4 && Bytes.at c 7 = 0 && Bytes.sub c 8 16 = m.headUid && Bytes.sub c 0x50 32 = sha3_256 m.request &&
    Bytes.sub m.request 0x10 16 = m.headUid && Bytes.le m.request 0x0C 4 = m.ver.toNat &&
    (rosterEntries m.request).any fun e => e.uid = uidBytes && m.ids.any fun x => x.1.val = e.ident && x.2 = uidBytes

/-- A unit refuses to join: an ALARM record with the head's UID (R299). -/
def State.refuseJoin (s : State) (p : Fin 4) (m : RosterMsg) : State :=
  s.record 0x0C04 4 (srcPort p.val) (Bytes.fit m.headUid 16)

/-- ROSTER (R291, R299, R308): a STANDALONE unit joins by an approval of its own group 0; a member takes a newer roster that
is signed or approved, or leaves where it lists it no longer, and takes the forwarding table of its present one, which it
acknowledges with its versions. -/
def rosterBody (p : Fin 4) (m : RosterMsg) (s : State) : State :=
  let mine := (m.ids.find? fun x => x.2 = uidBytes).map fun x => x.1.val
  match s.clu.role with
  | .head => s
  | .standalone =>
    match mine with
    | some n =>
      if s.lcsCode = 4 && s.tenants.isEmpty && n != 0 && s.approved m then s.adopt m n else s.refuseJoin p m
    | none => s.refuseJoin p m
  | .member =>
    if m.ver.toNat < s.clu.rosterVer then s
    else if m.ver.toNat = s.clu.rosterVer then
      if m.headUid != s.clu.headUid then s
      else ({ s with clu := { s.clu with table := nextHops m } }).ackRoster
    else if !(m.signed || s.approved m) then s
    else if mine = some s.clu.id && m.headUid = s.clu.headUid then s.adopt m s.clu.id
    else ({ s with clu := { s.clu with leaving := some m.ver.toNat } }).leaveNow

/-- ROSTER. -/
def execRoster (port : Fin 4) (f : FrameHdr) (m : RosterMsg) (s : State) : Host.Outcome State Fault Refusal :=
  .next (s.onFrame port f 6 (rosterBody port m))

/-! ### ACK and NAK (R294, R308) -/

/-- The identical frames of the current epoch from a CTR on are sent again, each once (R294). -/
def State.resend (s : State) (p named : Nat) : State :=
  ((s.zlp p).sent.filter fun x => named ≤ x.1).foldl (fun a x => a.emit (.frame p x.2.1 x.2.2)) s

/-- Erasures that a member could not be told while it was away are sent now (R308). -/
def State.payOwed (s : State) (n : Nat) : State :=
  let mine := (s.clu.owed.filter fun x => x.1 = n).map Prod.snd
  mine.foldl (fun a h => a.sendMove n (.erase (BitVec.ofNat 64 h)))
    { s with clu := { s.clu with owed := s.clu.owed.filter fun x => x.1 != n } }

/-- The next INV range of a replica is reserved from the key's own counter and sent (R304), for a RESIDENT key after the
archive holds a ceiling above it (R228); up to the counter's end where it cannot be reserved in full; past that end the
member learns that no range is left. -/
def State.reserveRange (s : State) (k : KeyRec) (n : Nat) : State :=
  let h := BitVec.ofNat 64 k.handle
  if !takesInv k.alg k.usage then s
  else if 2 ^ 64 ≤ k.inv then s.sendMove n (.ended h)
  else
    let last := Nat.min (k.inv + 2 ^ 24) (2 ^ 64) - 1
    let k0 : KeyRec := { k with inv := last + 1 }
    let k1 := if k.resident && k.tallied && k.invCeil < last + 1 then
        ({ k0 with invCeil := last + 1 + 2 ^ 20 } : KeyRec) else k0.wantRaise
    let s1 := (s.putKey k1).archWrite k1 none
    let s2 : State := { s1 with clu := { s1.clu with ranges := s1.clu.ranges ++ [(k.place, { member := n, next := k.inv, last := last })] } }
    s2.sendMove n (.range h (BitVec.ofNat 64 k.inv) (BitVec.ofNat 64 last))

/-- A member that returns is armed anew for the replicas it holds: what is left of its former ranges is abandoned, never
reissued, and each key's next range is reserved (R304). -/
def State.rearm (s : State) (n : Nat) : State :=
  let mine := s.ks.keys.filter fun p => p.2.live && s.hasReplica p.2 n
  if mine.isEmpty then s else mine.foldl (fun a p => a.reserveRange p.2 n) (s.sendMove n .abandon)

/-- The oldest replica version that a member reports below the head's, for any set (R308). -/
def State.staleOf (s : State) (l : List (BitVec 8 × BitVec 64)) : Option Nat :=
  let told := fun (n : Nat) => match l.find? fun (x : BitVec 8 × BitVec 64) => x.1.toNat = n with | some x => x.2.toNat | none => 0
  (s.clu.replVer.filter fun p => told p.1 < p.2).foldl (fun a p => match a with
    | some v => some (Nat.min v (told p.1))
    | none => some (told p.1)) none

/-- What a member's ACK tells the head (R298, R308): it has taken the roster and reports its versions, or has left. -/
def State.ackFrom (s : State) (n : Nat) (a : AckMsg) : State :=
  let s0 := s.setMember n { s.member n with ver := a.ver.toNat }
  match (s.member n).st with
  | .leaving => if a.left then s.memberLeft n false else s
  | .joining | .lost =>
    match s.staleOf a.vers with
    | none => ((s0.payOwed n).rearm n).serve n
    | some v =>
      let s1 : State := { s0 with clu := { s0.clu with replicas := s0.clu.replicas.filter fun x => x.2 != n } }
      (((s1.memberTo n .quarantined).raise .clu 18).record 0x0C02 3 (srcMember n)
        (toLE 2 cReplicaStale ++ toLE 1 n ++ toLE 8 v)).payOwed n
  | _ => s0

/-- ACK. -/
def execAckFrame (port : Fin 4) (f : FrameHdr) (a : AckMsg) (s : State) : Host.Outcome State Fault Refusal :=
  .next (
    if f.nak then s.onFrame port f 7 fun s => s.resend port.val a.named
    else s.onFrame port f 7 fun s => if s.clu.role = .head then s.ackFrom f.src.val a else s)

/-! ### Replication (R304, R306 to R308) -/

/-- The operation description of a key's replication (R307). -/
def replDescription (handle replSet : Nat) : Bytes :=
  toLE 2 0x0510 ++ zeros 6 ++ toLE 8 handle ++ zeros 8 ++ toLE 1 replSet ++ zeros 55

/-- The right of a unit to a key with a CUSTODY group (R307): held already, or given by an approval consumed now. -/
def State.replRight (s : State) (k : KeyRec) (n : Nat) : Option State :=
  let uid := (s.member n).uid
  if k.custody = 0xFFFF || s.clu.rights.contains (k.handle, uid) then some s
  else
    let lack := (s.clu.members.filter fun m => s.inSet k m.1 && !s.hasReplica k m.1).map fun m => m.2.uid
    let d := opDigest k.slice (replDescription k.handle k.replSet) lack.flatten
    match s.cus.approvals.find? fun a =>
        a.slice = k.slice && a.kind = 1 && a.group = k.custody && a.opDigest = d && a.granted && s.apprOpen a with
    | some a =>
      let s1 := s.consume k.slice (some a.slot) k.handle
      some { s1 with clu := { s1.clu with rights := s1.clu.rights ++ lack.map fun u => (k.handle, u) } }
    | none => none

/-- REPLICA_COMMIT (R306, R307): a copy commits on a member of the key's set, which becomes eligible for the key. -/
def replicaBody (n : Nat) (h : Nat) (s : State) : State :=
  match s.resolve (hSlice h) h with
  | none => s
  | some k =>
    let m := s.member n
    if !s.running || s.clu.role != .head || !s.inSet k n || s.hasReplica k n || (s.path n).isNone ||
        !([MemberState.serving, .syncing, .quarantined].contains m.st) then s
    else match s.replRight k n with
      | none => s
      | some s1 =>
        let s2 := s1.setMember n { s1.member n with st := if m.st = .quarantined then .syncing else m.st }
        let copy : KeyMove := .replica (BitVec.ofNat 64 k.handle) (BitVec.ofNat 8 k.alg) (BitVec.ofNat 8 k.pset)
          (BitVec.ofNat 8 (k.persist % 4)) k.resident k.material
        let s3 := ({ s2 with clu := { s2.clu with replicas := s2.clu.replicas ++ [(k.place, n)] } }).sendMove n copy
        (s3.reserveRange k n).tellVersions n

/-- REPLICA_COMMIT. -/
def execReplicaCommit (ident : Fin 64) (handle : BitVec 64) (s : State) : Host.Outcome State Fault Refusal :=
  .next (replicaBody ident.val handle.toNat s)

/-- REPLICA_SYNC_COMPLETE (R308). -/
def execReplicaSyncComplete (ident : Fin 64) (s : State) : Host.Outcome State Fault Refusal :=
  .next (
    let n := ident.val
    let m := s.member n
    if s.running && s.clu.role = .head && (m.st = .syncing || m.st = .quarantined) && s.synced n then s.serve n else s)

/-- A write of CLU_REPL_MASK (R306, R308): members taken out of the set lose their replicas, the set's version steps. There
is no set 0. -/
def maskBody (mask : BitVec 64) (s : State) : State :=
  s.onPage .clu fun s =>
    let n := fld (s.rg .clu 0x084) 0 8
    let old := s.replMask n
    if s.clu.role != .head then s.refuse .clu cForbids 1
    else if n = 0 || mask.toNat = old then s
    else
      let s1 : State := { s with clu := { s.clu with replMask := NMap.set s.clu.replMask n mask.toNat } }
      let keys := (s1.ks.keys.filter fun p => p.2.live && p.2.replSet = n).map Prod.snd
      let s2 := keys.foldl (fun a k => a.dropReplicas k.place k.handle fun m => !bit mask.toNat m) s1
      (s2.bumpSet n).bumpGen .clu

/-- CLU_REPL_MASK_WRITE. -/
def execCluReplMaskWrite (mask : BitVec 64) (s : State) : Host.Outcome State Fault Refusal :=
  .next (s.hostReq (.cluReplMaskWrite mask) (maskBody mask))

/-- KEYMOVE (R295, R304, R306, R308): a member takes, erases or ranges a replica, voids its ranges, takes the versions; the head
answers a request for a range. -/
def keymoveBody (src : Nat) (k : KeyMove) (s : State) : State :=
  match s.clu.role, k with
  | .member, .replica h alg pset home res m =>
    let r : Replica := { alg := alg.toNat, pset := pset.toNat, home := home.toNat, resident := res, material := m }
    ({ s with clu := { s.clu with held := NMap.set s.clu.held h.toNat r } }).toMember 0 7 []
  | .member, .erase h => ({ s with clu := { s.clu with held := NMap.del s.clu.held h.toNat } }).toMember 0 7 []
  | .member, .range h a b =>
    match NMap.find s.clu.held h.toNat with
    | some r =>
      let r1 : Replica := { r with ranges := r.ranges ++ [(a.toNat, b.toNat)], asked := false, ended := r.ended || b.toNat + 1 = 2 ^ 64 }
      ({ s with clu := { s.clu with held := NMap.set s.clu.held h.toNat r1 } }).toMember 0 7 []
    | none => s
  | .member, .ended h =>
    match NMap.find s.clu.held h.toNat with
    | some r => ({ s with clu := { s.clu with held := NMap.set s.clu.held h.toNat { r with asked := false, ended := true } } }).toMember 0 7 []
    | none => s
  | .member, .abandon =>
    ({ s with clu := { s.clu with held := NMap.mapV s.clu.held fun _ r => { r with ranges := [], asked := false, ended := false } } }).toMember 0 7 []
  | .member, .versions l =>
    ({ s with clu := { s.clu with replVer := l.foldl (fun a (x : BitVec 8 × BitVec 64) => NMap.set a x.1.toNat x.2.toNat) [] } }).toMember 0 7 []
  | .head, .askRange h =>
    match s.resolve (hSlice h.toNat) h.toNat with
    | some r => if s.hasReplica r src then s.reserveRange r src else s
    | none => s
  | _, _ => s

/-- Whether a payload opens, under the transfer key held with its origin, to what it is said to hold (R295). -/
def State.unwraps (s : State) (src : Nat) (whole : Bytes) (k : KeyMove) : Bool :=
  match NMap.find s.clu.transfer src with
  | some key => whole = Bytes.padMul (kwpWrap key (moveOctets k)) 16
  | none => false

/-- KEYMOVE: a payload that the transfer key does not open is dropped. -/
def execKeymove (port : Fin 4) (f : FrameHdr) (k : KeyMove) (s : State) : Host.Outcome State Fault Refusal :=
  .next (s.onPayload port f 5 fun whole s => if s.unwraps f.src.val whole k then keymoveBody f.src.val k s else s)

end Sys2Proof.Machine
end

