-- ==== Sys2Proof/Machine/Entry.lean ====
section
/-! DEFINITION. Entries and input as they return from host memory (chapter 3): ENTRY_READ_COMPLETE, INPUT_READ_COMPLETE. -/
namespace Sys2Proof.Machine
open Sys2Proof

/-- Whether slice 0 is a cluster member's, whose opcodes are restricted (R288). -/
def State.isMember (s : State) : Bool := s.clu.role = .member

/-- An entry read that failed (R65): the ring enters FAULT, recorded at WARNING. -/
def State.entryFault (s : State) (sl r : Nat) (g : Ring) (c : ReadCause) : State :=
  let addr := g.entryAddr g.scan
  let s1 := s.putRing sl r { g with st := .fault, fcause := c.code, faddr := BitVec.ofNat 64 addr, why := .none }
  let s2 := if h : sl < 4096 then s1.raise (.slc ⟨sl, h⟩) 16 else s1
  s2.record 0x0201 3 (srcSlice sl) (toLE 2 sl ++ toLE 4 g.gid ++ toLE 1 c.code ++ toLE 8 addr)

/-- The job an accepted entry makes. -/
def State.jobOf (s : State) (sl r : Nat) (g : Ring) (e : Bytes) : Job :=
  { id := s.qsc.nextJob, slice := sl, ring := r, index := g.scan, addr := g.entryAddr g.scan, pasid := (s.slice sl).pasid
    entry := e, cls := (opFifo (eOp e)).getD .key, fenced := eFence e, curveSlots := s.namedCurves sl e
    rldSlots := s.namedRlds sl e }

/-- A new outstanding entry joins the ring's set. -/
def State.addJob (s : State) (j : Job) : State :=
  { s with jobs := s.jobs ++ [j], qsc := { s.qsc with nextJob := s.qsc.nextJob + 1 } }

/-- The octets of a job's input that are read before it binds: all of it, but of a chain only what stands before its records
(R152). -/
def State.firstRead (s : State) (j : Job) : Nat :=
  if eOp j.entry = 0x0201 then Nat.min (s.chainFront j) (eInLen j.entry) else eInLen j.entry

/-- An entry owned by the unit arrives (R57, R61, R62, R63): the scan moves on; it is completed by the checker, or it
takes its FIFO place and its input is asked for. -/
def State.acceptEntry (s : State) (sl r : Nat) (g : Ring) (e : Bytes) : State :=
  let j := s.jobOf sl r g e
  let next : Ring := { g with scan := (g.scan + 1) % g.size }
  match entryCheck true s.isMember (s.view sl) e with
  | some (c, d) =>
    let v := s.slice sl
    let s1 := (s.setSlice sl { v with malformed := satAdd 32 v.malformed 1 }).putRing sl r next
    (s1.addJob { j with checker := true }).finish { j with checker := true } { code := c, detail := d, result := zeros 16 } [] false
  | none =>
    let s1 := s.putRing sl r (if eFence e then { next with st := .wait, why := .fence, fenceJob := j.id } else next)
    let n := s.firstRead j
    if n = 0 then (s1.addJob { j with phase := .staged }).hwmUp
    else ((s1.addJob j).hwmUp).emit (.read j.pasid (eInAddr e) n)

/-- A read of an entry brought its octets (R53, R57): the rest of a split fetch is asked for once its first part shows
OWN = 1; a whole entry with OWN = 1 is accepted; else the ring scans on or goes IDLE. -/
def State.entryData (s : State) (sl r : Nat) (g : Ring) (f : Fetch) (b : Bytes) : State :=
  let e := match f.head with
    | some h => h ++ Bytes.fit b 120
    | none => Bytes.fit b 128
  if !eOwn e then s.putRing sl r (if g.rescan then g else { g with st := .idle })
  else if g.split && f.head.isNone then
    ({ s with fetches := s.fetches ++ [{ f with head := some (Bytes.fit b 8) }] }).emit
      (.read (s.slice sl).pasid ((g.entryAddr g.scan + 8) % 2 ^ 64) 120)
  else s.acceptEntry sl r g e

/-- ENTRY_READ_COMPLETE (R53, R57, R65, R67): a read the ring no longer takes is discarded. -/
def entryReturn (sl r : Nat) (h : HostRead) (s : State) : State :=
  match s.fetches.find? fun f => f.slice = sl && f.ring = r with
  | none => s
  | some f =>
    let s1 : State := { s with fetches := s.fetches.filter fun x => !(x.slice = sl && x.ring = r) }
    match s1.ring sl r with
    | none => s1.bpNote
    | some g =>
      if !f.live || s.mute then s1.bpNote
      else (match h with
        | .failed c => s1.entryFault sl r g c
        | .data b => s1.entryData sl r g f b).bpNote

/-- ENTRY_READ_COMPLETE. -/
def execEntryReadComplete (slice : Fin 4096) (ring : Fin 16384) (r : HostRead) (s : State) :
    Host.Outcome State Fault Refusal := .next (entryReturn slice.val ring.val r s)

/-- The records of an open chain arrive: they are parsed, and an item is made for each (R154). -/
def State.chainArrives (s : State) (j : Job) (b : Bytes) : State :=
  let j1 : Job := { j with input := j.input ++ Bytes.fit b (eInLen j.entry - j.input.length) }
  s.putJob { j1 with items := chainItems (s.chainParse j1) }

/-- The detail of a failed input read: the descriptors of a batch and the records of a chain have their own (R63, R143). -/
def inputDetail (e : Bytes) : Nat := if eOp e = 0x0201 || eOp e = 0x0202 then 0x13 else 0x11

/-- INPUT_READ_COMPLETE (R63, R143): the input is staged, or the job ends with BAD_HOST_ADDRESS. -/
def inputReturn (id : Nat) (item : Option Nat) (h : HostRead) (s : State) : State :=
  match s.job id with
  | none => s
  | some j =>
    let bad := fun (d : Nat) =>
      s.finish j { code := cBadAddr, detail := d, result := if eOp j.entry = 0x0201 then stopResult j 0xFFFFFFFF else s.stopRes j j.left } [] false
    match item, h with
    | none, .failed _ => if j.phase = .staging || (j.started && !j.whole) then bad (inputDetail j.entry) else s
    | none, .data b =>
      if j.phase = .staging then s.putJob { j with phase := .staged, input := Bytes.fit b (s.firstRead j) }
      else if j.started && !j.whole then s.chainArrives j b
      else s
    | some i, .failed _ => if j.items.any fun x => x.idx = i && !x.ready && x.out.isNone then bad 0x13 else s
    | some i, .data b =>
      s.putJob { j with items := j.items.map fun x =>
        if x.idx = i && !x.ready && x.out.isNone then { x with ready := true, body := Bytes.fit b x.body.length } else x }

/-- INPUT_READ_COMPLETE. -/
def execInputReadComplete (job : Nat) (item : Option Nat) (r : HostRead) (s : State) :
    Host.Outcome State Fault Refusal := .next (inputReturn job item r s)

end Sys2Proof.Machine
end

