-- ==== Sys2Proof/Machine/Slices.lean ====
section
/-! DEFINITION. The manager's slice commands, slice feature negotiation and the mailboxes (chapter 12). -/
namespace Sys2Proof.Machine
open Sys2Proof

/-! ### The command interface (R270, R271, R285) -/

/-- A manager command ends with its outcome; CMD_DONE is raised. -/
def State.slmEnd (s : State) (code detail info : Nat) : State :=
  ({ s with slm := { s.slm with cmd := { st := 2, code := code, detail := detail, info := info } } }).raise (.slm 0) 16

/-- A write of GO to SLM_CMD: refused while a command runs (R270) or before device features are committed (R44). -/
def State.slmGo (s : State) (f : Nat → State → State) : State :=
  s.onPage (.slm 0) fun s =>
    if s.slm.cmd.st = 1 then s.refuse (.slm 0) cForbids 1
    else if !s.glb.committed then s.refuse (.slm 0) cFeature 0
    else
      let n := fld (s.rg (.slm 0) 0x044) 0 12
      f n { s with slm := { s.slm with target := n } }

/-- Whether the named slice is a tenant's in one of the states (Table 12.3). -/
def State.sliceIn (s : State) (n : Nat) (l : List SliceState) : Bool := n != 0 && l.contains (s.slice n).st

/-! ### CHALLENGE (R275) -/

/-- CHALLENGE's generate request (R197): the command ends with the nonce or for want of an instance, or goes on while a reseed
waits for a pool word (R198). -/
def State.challengeDraw (s : State) (n : Nat) : State :=
  match s.intRequest .ok with
  | (s2, .got out) =>
    let nonce := out.take 32
    let c : ClaimChal := { slice := n, nonce := nonce, tStart := s2.tick, tEnd := s2.tick + 3840 }
    let rest := s2.slm.chals.filter fun (x : ClaimChal) => x.slice != n
    ({ s2 with slm := { s2.slm with chals := rest ++ [c], nonce := nonce, chalEnd := c.tEnd } }).slmEnd cOK 0 0
  | (_, .wait) => ({ s with slm := { s.slm with cmd := { st := 1 } } }).drawWait (.challenge n)
  | (s2, .refused ..) => s2.slmEnd cEntropy 1 0

/-- CHALLENGE's decision. -/
def challengeBody (s : State) : State :=
  s.slmGo fun n s => if !s.sliceIn n [.free] then s.slmEnd cForbids 1 0 else s.challengeDraw n

/-- CHALLENGE. -/
def execChallenge (s : State) : Host.Outcome State Fault Refusal := .next (s.hostReq .challenge challengeBody)

/-! ### CREATE (R272 to R275) -/

/-- TENANT_DIGEST of a block. -/
def blockDigest (b : Bytes) : Bytes := Bytes.sub b 0x30 32

/-- A block's form: the length in SLM_BLK_LEN, MAGIC, VERSION and the reserved octets. -/
def blockForm (b : Bytes) : Bool :=
  let pk := Bytes.le b 0x54 2
  let sg := Bytes.le b 0x56 2
  b.length < 88 || b.length != (88 + pk + sg + 7) / 8 * 8 || Bytes.le b 0 4 != 0x42535A4C || Bytes.le b 4 2 != 1 ||
    !(Bytes.sub b 0x15 3).all (· = 0) || !(Bytes.sub b 0x2C 4).all (· = 0) ||
    Bytes.at b 0x53 != 0 || !(b.drop (88 + pk + sg)).all (· = 0)

/-- Row 2 of Table 12.5. -/
def blockBad (b : Bytes) (n : Nat) : Bool := blockForm b || Bytes.le b 6 2 != n || 2 ^ 20 ≤ Bytes.le b 8 4

/-- Whether a RESIZE block is not about the slice as it stands (R276): SLICE, PASID, VEC_BASE and TENANT_DIGEST its own, the
claim fields 0. -/
def Slice.unlike (v : Slice) (n : Nat) (b : Bytes) : Bool :=
  Bytes.le b 6 2 != n || some (Bytes.le b 8 4) != v.pasid || Bytes.le b 0x0E 2 != v.alloc.vecBase || blockDigest b != v.digest ||
    !(Bytes.sub b 0x50 8).all (· = 0)

/-- The ten values of a block, DEEP_BLOCKS apart; resource numbers in order (Table 12.4). -/
def blockAmounts (b : Bytes) : List Nat :=
  [Bytes.le b 0x0C 2, Bytes.at b 0x10, Bytes.le b 0x18 4, Bytes.le b 0x1C 4, Bytes.le b 0x20 4, Bytes.at b 0x11, Bytes.at b 0x12,
   Bytes.at b 0x13, Bytes.le b 0x24 4]

/-- Row 4: a field outside Table 12.2. -/
def blockOver (b : Bytes) : Bool :=
  ((List.zip (blockAmounts b) sliceMost).any fun x => x.2 < x.1) || Bytes.at b 0x14 = 0

/-- Row 6: the vector range outside entries 16 to 2,047, or overlapping another slice's. -/
def State.vectorsBad (s : State) (n : Nat) (b : Bytes) : Bool :=
  let vb := Bytes.le b 0x0E 2
  let vc := Bytes.at b 0x10
  if vc = 0 then vb != 0
  else vb < 16 || 2048 < vb + vc ||
    s.tenants.any fun p => p.1 != n && 0 < p.2.alloc.vecCount && vb < p.2.alloc.vecBase + p.2.alloc.vecCount && p.2.alloc.vecBase < vb + vc

/-- Row 7: claim fields that do not fit TENANT_DIGEST, or name no row of Table 11.3. -/
def claimBad (b : Bytes) : Bool :=
  let c := Bytes.sub b 0x50 4
  let pk := Bytes.le b 0x54 2
  let sg := Bytes.le b 0x56 2
  if (blockDigest b).all (· = 0) then c != zeros 4 || pk != 0 || sg != 0
  else !custodianOk c || pk != pubLen plainView (Bytes.at c 0) (Bytes.at c 1) ||
    sg != sigLen plainView (Bytes.at c 0) (Bytes.at c 1)

/-- The allocation a block asks for; `deep` are the blocks granted. -/
def blockAlloc (b : Bytes) (deep : List Nat) : Alloc :=
  { rings := Bytes.le b 0x0C 2, vecBase := Bytes.le b 0x0E 2, vecCount := Bytes.at b 0x10, hot := Bytes.le b 0x18 4, deep := deep
    tally := Bytes.le b 0x20 4, teller := Bytes.at b 0x11, curves := Bytes.at b 0x12, rlds := Bytes.at b 0x13
    staging := Bytes.le b 0x24 4, weight := Bytes.at b 0x14 }

/-- The creation statement (Table 12.6). -/
def State.statement (s : State) (b : Bytes) (c : ClaimChal) : Bytes :=
  toLE 4 0x43535A4C ++ toLE 2 1 ++ Bytes.sub b 6 2 ++ uidBytes ++ Bytes.sub b 8 4 ++ toLE 4 s.glb.pcc ++ c.nonce ++
    toLE 8 c.tEnd ++ zeros 8

/-- Rows 11 and 12: the claim key against TENANT_DIGEST, and its signature over the creation statement. -/
def State.claimFails (s : State) (b : Bytes) (c : ClaimChal) : Option (Nat × Nat) :=
  let pk := Bytes.le b 0x54 2
  let pub := Bytes.sub b 0x58 pk
  let sig := Bytes.sub b (0x58 + pk) (Bytes.le b 0x56 2)
  let p := tokenPar (Bytes.sub b 0x50 4)
  if sha3_256 pub != blockDigest b then some (cForeign, 6)
  else if (pkVerify (fixedCurve p.pset) p pub sig [] (s.statement b c)).isSome then some (cVerifyFail, 0x60)
  else none

/-- Rows 2 to 9 of Table 12.5: code, detail and SLM_CMD_INFO of the first that fails. -/
def State.createBad (s : State) (n : Nat) (b : Bytes) : Option (Nat × Nat × Nat) :=
  if blockBad b n then some (cBadParam, 1, 0)
  else if s.lcsCode != 4 then some (cForbids, 2, 0)
  else if blockOver b then some (cBadParam, 2, 0)
  else if s.tenants.any fun p => p.2.pasid = some (Bytes.le b 8 4) then some (cBadParam, 3, 0)
  else if s.vectorsBad n b then some (cBadParam, 4, 0)
  else if claimBad b then some (cBadParam, 5, 0)
  else if !s.running then some (cForbids, 3, 0)
  else match s.poolShort [] (blockAmounts b) with
    | some r => some (cCapacity, 0x60 + r, r)
    | none => none

/-- Whether an archive record is reattached to a slice (R245): its tenant's digest, and its INDEX inside the quotas. -/
def ArchRec.fits (a : ArchRec) (digest : Bytes) (al : Alloc) : Bool :=
  let i := hIndex a.key.handle
  let deep := i + a.key.units ≤ 4096 * al.deep.length
  a.digest = digest && (if i < 0xF00000 then deep else i + a.key.units ≤ 0xF00000 + al.hot)

/-- A key as reattached (R228): counters at their ceilings, the rate window full, the raise under way. -/
def State.reattached (s : State) (a : ArchRec) : KeyRec :=
  let k := a.key
  let k1 : KeyRec :=
    { k with
      live := true, archPending := false, warmReady := false, warmQuad := none, oldQuads := [], badLine := none
      inv := if k.tallied then k.invCeil else k.inv
      tallyUsed := if k.tallied then k.usedCeil else k.tallyUsed
      rateWin := if k.ratePeriod = 0 then 0 else s.tick / k.ratePeriod
      rateCnt := k.rateMax }
  (if k.warm then (s.warmSet k1).getD { k1 with warm := false } else k1).wantRaise

/-- The archive is read for a new slice (R245): older epochs erased and counted, fitting records reattached, the rest
orphans. Answers how many were reattached. -/
def State.reattach (s : State) (n : Nat) : State × Nat :=
  let v := s.slice n
  let stale := fun (p : Nat × ArchRec) => p.2.slice = n && p.2.epoch != s.vault.epoch
  let old := (s.ks.archive.filter stale).length
  let s0 := if old = 0 then s else s.archErase stale
  let mine := s0.ks.archive.filter fun p => p.2.slice = n
  let back := mine.filter fun p => p.2.fits v.digest v.alloc
  let left := (mine.filter fun p => !p.2.fits v.digest v.alloc).map Prod.fst
  let s1 : State :=
    { s0 with ks := { s0.ks with orphans := (s0.ks.orphans.filter fun h => !(mine.map Prod.fst).contains h) ++ left, archStale := satAdd 32 s0.ks.archStale old } }
  (back.foldl (fun a p => a.putKey (a.reattached p.2)) s1, back.length)

/-- The SEQ that a NOTICE of a slice's creation takes, or has where it joins an open record (R373, R382). -/
def State.seqOf (s : State) (typ sev src : Nat) (c : Bytes) : Nat :=
  match s.led.recs.find? fun r => r.hits typ sev src (Bytes.padMul c 8) s.tick with
  | some r => r.seq
  | none => s.led.nextSeq

/-- The unit writes QSC_SLICE_WEIGHT of a slice (Table 12.2): a change counts on the page (R37). -/
def State.weightNote (s : State) (old new : Nat) : State := if old = new then s else s.bumpGen .qsc

/-- A slice is created (R274). -/
def State.createSlice (s : State) (n : Nat) (b : Bytes) : State :=
  let a := blockAlloc b (s.grantDeep (Bytes.le b 0x1C 4))
  let gids := lowest s.gids 64 a.rings
  let rings := (List.zip (List.range a.rings) gids).map fun p => (p.1, ({ gid := p.2 } : Ring))
  let mask := BitVec.ofNat 32 (Bytes.le b 0x28 4)
  let s0 := s.clearPages n
  let v : Slice :=
    { st := .active, pasid := some (Bytes.le b 8 4), alloc := a, featMask := mask.toNat, digest := blockDigest b, weight := a.weight
      rings := rings, offer := s0.offerFor n a mask (blockDigest b) }
  let (s1, back) := ((s0.setSlice n v).stagingTo n a.staging).reattach n
  let c := toLE 2 n ++ toLE 4 (Bytes.le b 8 4) ++ v.digest.take 8 ++ toLE 4 back
  let s2 := s1.setSlice n { s1.slice n with createSeq := s1.seqOf 0x0302 2 (srcSlice n) c }
  (((s2.weightNote (s.slice n).weight a.weight).record 0x0302 2 (srcSlice n) c).slmEnd cOK 0 back)

/-- Whether a grant that includes NORMAL_INV is open in FIELD (R358). -/
def State.invasive (s : State) : Bool :=
  s.lcsCode = 4 && (match s.grantNow with | some g => bit g.scope 1 | none => false)

/-- CREATE's decision on the block read (Table 12.5; R354 while a transition is pending). -/
def State.create (s : State) (n : Nat) (blk : HostRead) : State :=
  match blk with
  | .failed _ => s.slmEnd cBadAddr 0x13 0
  | .data d =>
    let b := Bytes.fit d (fld (s.rg (.slm 0) 0x050) 0 14)
    if !s.sliceIn n [.free] then s.slmEnd cForbids 1 0
    else if s.lcs.pending then s.slmEnd cPending 1 0
    else if s.clu.role = .member then s.slmEnd cForbids 5 0
    else if s.invasive then s.slmEnd cForbids 6 0
    else match s.createBad n b with
      | some (c, d, i) => s.slmEnd c d i
      | none =>
        if (blockDigest b).all (· = 0) then s.createSlice n b
        else match s.slm.chals.find? fun c => c.slice = n && c.tStart ≤ s.tick && s.tick < c.tEnd with
          | none => s.slmEnd cWindow 1 0
          | some c =>
            let s1 : State := { s with slm := { s.slm with chals := s.slm.chals.filter fun x => x.slice != n } }
            match s1.claimFails b c with
            | some (cd, d) => (s1.record 0x0306 2 (srcSlice n) (toLE 2 n ++ Bytes.sub b 8 4)).slmEnd cd d 0
            | none => s1.createSlice n b

/-- CREATE. -/
def createBody (blk : HostRead) (s : State) : State :=
  s.slmGo fun n s =>
    (s.emit (.read none (s.rgWide (.slm 0) 0x048) (fld (s.rg (.slm 0) 0x050) 0 14))).create n blk

/-- CREATE. -/
def execCreate (blk : HostRead) (s : State) : Host.Outcome State Fault Refusal := .next (s.hostReq (.create blk) (createBody blk))

/-! ### RESIZE (R276) -/

/-- Whether an interval of units reaches beyond an allocation's deep blocks or hot units. -/
def Alloc.beyond (a : Alloc) (index units : Nat) : Bool :=
  if index < 0xF00000 then 4096 * a.deep.length < index + units else 0xF00000 + a.hot < index + units

/-- The reservations of bound jobs that an allocation no longer covers take other free units, whose handles no one has seen;
with the resource of one that finds none (DESIGN CHOICE: the manual names live keys only). -/
def State.rehouse (s : State) (n : Nat) : State × Option Nat :=
  s.jobs.foldl (fun x j => match j.bnd with
    | some b => (match b.resv with
      | some r =>
        if r.slice = n && r.units != 0 && (s.slice n).alloc.beyond r.index r.units then
          match x.1.placeKey n r.units (r.index < 0xF00000) with
          | some p => (x.1.putJob { j with bnd := some { b with resv := some { r with index := p } } }, x.2)
          | none => (x.1, some (if r.index < 0xF00000 then 4 else 3))
        else x
      | none => x)
    | none => x) (s, none)

/-- The resource whose reduction is refused (R276): its number, 0 for a feature withdrawn by FEAT_MASK. -/
def State.shrinkBad (s : State) (n : Nat) (b : Bytes) : Option Nat :=
  let v := s.slice n
  let w := blockAmounts b
  let at_ := fun (i : Nat) => w.getD (i - 1) 0
  let inRange := fun (lo hi : Nat) =>
    s.ks.keys.any fun p => p.1 / 2 ^ 24 = n && p.2.live && p.1 % 2 ^ 24 < hi && lo < p.1 % 2 ^ 24 + p.2.units
  let a1 : Alloc := blockAlloc b (v.alloc.deep.take (at_ 4) ++ List.replicate (at_ 4 - v.alloc.deep.length) 0)
  let lost := v.featAcc.getD 0 0 &&& s.offerFor n v.alloc (BitVec.ofNat 32 v.featMask) v.digest &&& ~~~(s.offerFor n a1 (BitVec.ofNat 32 (Bytes.le b 0x28 4)) v.digest)
  if v.rings.any fun r => at_ 1 ≤ r.1 && r.2.st != .disabled then some 1
  else if v.rings.any fun r => r.2.vecEn && at_ 2 ≤ r.2.vec && r.2.vec < v.alloc.vecCount then some 2
  else if inRange (0xF00000 + at_ 3) (0xF00000 + v.alloc.hot) then some 3
  else if inRange (4096 * at_ 4) (4096 * v.alloc.deep.length) then some 4
  else if at_ 5 < v.alloc.tally && at_ 5 < s.tallyUsed n then some 5
  else if 16 * at_ 9 < v.streams.length then some 9
  else if at_ 7 < (s.eng.curves.filter fun c => c.2.slice = n && c.2.visible).length then some 7
  else if at_ 8 < (s.eng.rlds.filter fun c => c.2.slice = n && c.2.visible).length then some 8
  else if (v.tellers.zipIdx).any fun t => at_ 6 ≤ t.2 && t.1.st = 1 then some 6
  else if v.featOk && lost != 0 then
    some (if lost.getLsbD 9 then 6 else if lost.getLsbD 7 then 7 else if lost.getLsbD 4 then 8 else 0)
  else ((s.setSlice n { v with alloc := a1 }).rehouse n).2

/-- The allocation takes its new values (R276): rings and deep blocks kept by index, new ones from the pools, blocks given
up quarantined; the weight as R78 changes it. -/
def State.resizeTo (s : State) (n : Nat) (b : Bytes) : State :=
  let v := s.slice n
  let want := Bytes.le b 0x1C 4
  let a := blockAlloc b (v.alloc.deep.take want ++ s.grantDeep (want - v.alloc.deep.length))
  let kept := v.rings.filter fun r => r.1 < a.rings
  let more := (List.zip ((List.range (a.rings - v.alloc.rings)).map (· + v.alloc.rings)) (lowest s.gids 64 (a.rings - v.alloc.rings))).map
    fun p => (p.1, ({ gid := p.2 } : Ring))
  let mask := BitVec.ofNat 32 (Bytes.le b 0x28 4)
  let v1 : Slice :=
    { v with
      alloc := a, featMask := mask.toNat, rings := kept ++ more, bursts := v.bursts.filter fun x => x.1 < a.rings, ringPtr := v.ringPtr % Nat.max 1 a.rings, weight := a.weight
      credit := Nat.min v.credit a.weight, offer := s.offerFor n a mask v.digest }
  let s1 := (((s.setSlice n v1).rehouse n).1.quarantine (v.alloc.deep.drop want) |>.stagingTo n a.staging).weightNote v.weight a.weight
  let w := blockAmounts b
  (s1.record 0x0305 1 (srcSlice n)
    (toLE 2 (w.getD 0 0) ++ toLE 1 (w.getD 1 0) ++ toLE 4 (w.getD 2 0) ++ toLE 4 (w.getD 3 0) ++ toLE 4 (w.getD 4 0) ++
      toLE 1 (w.getD 5 0) ++ toLE 1 (w.getD 6 0) ++ toLE 1 (w.getD 7 0) ++ toLE 4 (w.getD 8 0) ++ toLE 1 a.weight)).slmEnd cOK 0 0

/-- RESIZE's decision on the block read. -/
def State.resize (s : State) (n : Nat) (blk : HostRead) : State :=
  match blk with
  | .failed _ => s.slmEnd cBadAddr 0x13 0
  | .data d =>
    let b := Bytes.fit d (fld (s.rg (.slm 0) 0x050) 0 14)
    let v := s.slice n
    if !s.sliceIn n [.active, .held] then s.slmEnd cForbids 1 0
    else if blockForm b then s.slmEnd cBadParam 1 0
    else if v.unlike n b then s.slmEnd cBadParam 5 0
    else if blockOver b then s.slmEnd cBadParam 2 0
    else if Bytes.at b 0x10 != 0 && s.vectorsBad n b then s.slmEnd cBadParam 4 0
    else match s.shrinkBad n b with
      | some r => s.slmEnd cForbids 4 r
      | none => match s.poolShort v.alloc.amounts (blockAmounts b) with
        | some r => s.slmEnd cCapacity (0x60 + r) r
        | none => s.resizeTo n b

/-- RESIZE. -/
def resizeBody (blk : HostRead) (s : State) : State :=
  s.slmGo fun n s =>
    (s.emit (.read none (s.rgWide (.slm 0) 0x048) (fld (s.rg (.slm 0) 0x050) 0 14))).resize n blk

/-- RESIZE. -/
def execResize (blk : HostRead) (s : State) : Host.Outcome State Fault Refusal := .next (s.hostReq (.resize blk) (resizeBody blk))

/-! ### HOLD and RELEASE (R271, R277) -/

/-- A slice changes between ACTIVE and HELD: recorded at NOTICE, HELD_CHG raised on its control page. -/
def State.holdTo (s : State) (n : Nat) (from_ to_ : SliceState) : State :=
  if !s.sliceIn n [from_] then s.slmEnd cForbids 1 0
  else
    let s1 := s.setSlice n { s.slice n with st := to_ }
    let s2 := if h : n < 4096 then s1.raise (.slc ⟨n, h⟩) 18 else s1
    (s2.record 0x0304 2 (srcSlice n) (toLE 2 n)).slmEnd cOK 0 0

/-- HOLD's decision. -/
def holdBody (s : State) : State := s.slmGo fun n s => s.holdTo n .active .held

/-- HOLD. -/
def execHold (s : State) : Host.Outcome State Fault Refusal := .next (s.hostReq .hold holdBody)

/-- RELEASE's decision. -/
def releaseBody (s : State) : State := s.slmGo fun n s => s.holdTo n .held .active

/-- RELEASE. -/
def execRelease (s : State) : Host.Outcome State Fault Refusal := .next (s.hostReq .release releaseBody)

/-! ### DESTROY (R278) -/

/-- A slice's running tellers are aborted and its streams closed. -/
def State.stopTellers (s : State) (n : Nat) : State :=
  if h : n < 4096 then
    [(0 : Fin 2), 1].foldl (fun a k => if (a.teller n k.val).st = 1 then a.tellerAbort ⟨n, h⟩ k 2 else a) s
  else s

/-- Step 1 of R278 on a slice: its rings stop as by DISABLE_ABORT, tellers and streams end, approvals and messages go, and
its window part is unoccupied. -/
def State.endSlice (s : State) (n : Nat) : State :=
  let s1 := (s.slice n).rings.foldl (fun a r => if r.2.st = .disabled then a else a.stopAbortRing n r.1 2) s
  let s2 := s1.stopTellers n
  let v := s2.slice n
  let s3 := s2.setSlice n { v with st := .destroying, streams := [], mbox := {} }
  { s3 with cus := { s3.cus with approvals := s3.cus.approvals.filter fun a => a.slice != n } }

/-- DESTROY's decision. -/
def destroyBody (s : State) : State :=
  s.slmGo fun n s =>
    if !s.sliceIn n [.active, .held] then s.slmEnd cForbids 1 0
    else
      let s1 := s.endSlice n
      { s1 with slm := { s1.slm with cmd := { st := 1 } } }.reap

/-- DESTROY. -/
def execDestroy (s : State) : Host.Outcome State Fault Refusal := .next (s.hostReq .destroy destroyBody)

/-- Steps 3 and 4 of R278: keys, archive records, groups, curves and RLDs are erased, replicas withdrawn (R306), vectors
masked, every resource back in its pool. Answers how many keys were erased. -/
def State.eraseSlice (s : State) (n : Nat) : State × Nat :=
  let v := s.slice n
  let mine := (s.ks.keys.filter fun p => p.1 / 2 ^ 24 = n && p.2.live).map Prod.snd
  let s0 := mine.foldl (fun a k => (a.dropReplicas k.place k.handle fun _ => true).bumpSet k.replSet) s
  let s1 := ((s0.quarantine v.alloc.deep).stagingTo n 0).archErase fun p => p.2.slice = n && !s.ks.orphans.contains p.1
  let hit := fun (i : Nat) => v.alloc.vecBase ≤ i && i < v.alloc.vecBase + v.alloc.vecCount
  ({ s1 with
      ks := { s1.ks with
        keys := s1.ks.keys.filter fun p => p.1 / 2 ^ 24 != n }
      vault := { s1.vault with groups := s1.vault.groups.filter fun p => p.1 = 0 || p.2.slice != n }
      eng := { s1.eng with
        curves := s1.eng.curves.filter fun p => p.2.slice != n
        rlds := s1.eng.rlds.filter fun p => p.2.slice != n }
      msix := NMap.mapV s1.msix fun i e => if hit i then { e with mask := true, pend := false } else e
      slices := NMap.del s1.slices n }, mine.length)

/-- SLICE_ERASE_COMPLETE (R15, R278): once the last in-flight job has ended, the slice reads FREE and DESTROY completes. -/
def execSliceEraseComplete (slice : Fin 4096) (s : State) : Host.Outcome State Fault Refusal :=
  .next (
    let n := slice.val
    if !s.running || (s.slice n).st != .destroying || s.jobs.any fun j => j.slice = n then s
    else
      let (s1, k) := s.eraseSlice n
      (s1.record 0x0303 2 (srcSlice n) (toLE 2 n ++ toLE 4 k)).slmEnd cOK 0 k)

/-! ### Feature negotiation (R281) -/

/-- The cause that refuses a slice's commit, if any (R281). -/
def State.commitBad (s : State) (n : Nat) (acc : List W32) : Option Nat :=
  let v := s.slice n
  let a0 := acc.getD 0 0
  let drops := fun (b : Nat) => v.feat b && !a0.getLsbD b
  if a0 &&& ~~~(s.offer0 n) != 0 || (acc.drop 1).any (· != 0) then some 1
  else if !a0.getLsbD 0 then some 2
  else if v.rings.any fun r => r.2.st != .disabled then some 3
  else if drops 7 && (s.eng.curves.any fun c => c.2.slice = n && c.2.visible) ||
      drops 4 && (s.eng.rlds.any fun c => c.2.slice = n && c.2.visible) ||
      drops 11 && ((s.vault.groups.any fun g => g.2.slice = n) || s.cus.approvals.any fun a => a.slice = n) ||
      drops 9 && (v.tellers.any fun t => t.st = 1) then some 4
  else none

/-- SL_FEAT_COMMIT.GO (R281). -/
def slFeatBody (sl : Fin 4096) (s : State) : State :=
  s.onPage (.slc sl) fun s =>
    let v := s.slice sl.val
    let acc := (List.range 4).map fun i => s.rg (.slc sl) (0x050 + 4 * i)
    match s.commitBad sl.val acc with
    | some c => s.setSlice sl.val { v with featRes := 2, featCause := c }
    | none => s.setSlice sl.val { v with featAcc := acc, featOk := true, featRes := 1, featCause := 0 }

/-- SL_FEAT_COMMIT. -/
def execSlFeatCommit (slice : Fin 4096) (s : State) : Host.Outcome State Fault Refusal :=
  .next (s.hostReq (.slFeatCommit slice) (slFeatBody slice))

/-! ### Mailboxes (R283 to R286) -/

/-- A write to a slice's mailbox page: slice 0 has none (R283). -/
def State.onMailbox (s : State) (sl : Fin 4096) (f : State → State) : State := s.onPage (.mbx sl) f

/-- A slice's mailbox replaced. -/
def State.setMbox (s : State) (n : Nat) (m : Mailbox) : State := s.setSlice n { s.slice n with mbox := m }

/-- MB_SEND (R283): MB_OUT0-15 and MB_OUT_LEN are copied to the manager. -/
def mbSendBody (sl : Fin 4096) (s : State) : State :=
  s.onMailbox sl fun s =>
    let m := (s.slice sl.val).mbox
    let n := fld (s.rg (.mbx sl) 0x044) 0 7
    if m.outFull then s.refuse (.mbx sl) cForbids 6
    else if n = 0 || 64 < n then s.refuse (.mbx sl) cBadParam 8
    else (s.setMbox sl.val { m with outFull := true, outMsg := s.rgBytes (.mbx sl) 0x080 16, outLen := n, sent := m.sent + 1 }).raise (.slm 0) 17

/-- MB_SEND. -/
def execMbSend (slice : Fin 4096) (s : State) : Host.Outcome State Fault Refusal := .next (s.hostReq (.mbSend slice) (mbSendBody slice))

/-- MB_IN_ACK (R283, R285): the manager's side is free. -/
def mbInAckBody (sl : Fin 4096) (s : State) : State :=
  s.onMailbox sl fun s =>
    let m := (s.slice sl.val).mbox
    if m.inFull then (s.setMbox sl.val { m with inFull := false }).raise (.slm 0) 18 else s

/-- MB_IN_ACK. -/
def execMbInAck (slice : Fin 4096) (s : State) : Host.Outcome State Fault Refusal :=
  .next (s.hostReq (.mbInAck slice) (mbInAckBody slice))

/-- A write to SLM page 1 on the selected slice (R286). -/
def State.onSelected (s : State) (f : Fin 4096 → State → State) : State :=
  s.onHdr (.slm 1) fun s =>
    let n := fld (s.rg (.slm 1) 0x040) 0 12
    if h : n < 4096 then f ⟨n, h⟩ s else s

/-- The octets the manager has written for a slice. -/
def Mailbox.txBytes (m : Mailbox) : Bytes := ((List.range 16).map fun i => toLE 4 (NMap.getD m.txWords i 0).toNat).flatten

/-- SLM_MB_TX_SEND (R286). -/
def txSendBody (s : State) : State :=
  s.onSelected fun sl s =>
    let m := (s.slice sl.val).mbox
    if m.inFull then s.refuse (.slm 1) cForbids 6
    else if m.txLen = 0 || 64 < m.txLen then s.refuse (.slm 1) cBadParam 8
    else (s.setMbox sl.val { m with inFull := true, inMsg := m.txBytes, inLen := m.txLen, recv := m.recv + 1 }).raise (.mbx sl) 16

/-- SLM_MB_TX_SEND. -/
def execSlmMbTxSend (s : State) : Host.Outcome State Fault Refusal := .next (s.hostReq .slmMbTxSend txSendBody)

/-- SLM_MB_RX_ACK (R283, R286): the tenant's message is acknowledged. -/
def rxAckBody (s : State) : State :=
  s.onSelected fun sl s =>
    let m := (s.slice sl.val).mbox
    if m.outFull then (s.setMbox sl.val { m with outFull := false }).raise (.mbx sl) 17 else s

/-- SLM_MB_RX_ACK. -/
def execSlmMbRxAck (s : State) : Host.Outcome State Fault Refusal := .next (s.hostReq .slmMbRxAck rxAckBody)

end Sys2Proof.Machine
end

