-- ==== Sys2Proof/Machine/LedgerFlash.lean ====
section
/-! DEFINITION. The Ledger's flash region (R375 to R377, R385): erase blocks, commits, reclaiming, wear. -/
namespace Sys2Proof.Machine
open Sys2Proof

/-- Octets of an erase block's records in use; a block holds 65,536 less its 32-octet header. -/
def blockUsed (l : List LedRec) (b : Nat) : Nat := ((l.filter fun r => r.place = .flash b).map LedRec.size).sum

/-- Whether a block has room for `n` octets more; no record spans a block. -/
def Ledger.room (g : Ledger) (n b : Nat) : Bool := blockUsed g.recs b + n ≤ 65504

/-- Whether a block holds no record. -/
def Ledger.blank (g : Ledger) (b : Nat) : Bool := blockUsed g.recs b = 0

/-- ERASES of a block. -/
def Ledger.erased (g : Ledger) (b : Nat) : Nat := NMap.getD g.erases b 0

/-- A block is erased for reuse: counted, its FIRST_SEQ taken (R375). -/
def Ledger.erase (g : Ledger) (b first : Nat) : Ledger :=
  { g with erases := NMap.set g.erases b (NMap.getD g.erases b 0 + 1), blockFirst := NMap.set g.blockFirst b first }

/-- The octets of an erase block as the flash device holds them (R375): the block header, the records back to back, 0xFF in
what is not used. -/
def Ledger.blockOctets (g : Ledger) (b : Nat) : Bytes :=
  let head := if g.erased b = 0 then [] else
    toLE 4 0x424C5A4C ++ toLE 2 1 ++ toLE 2 0 ++ toLE 4 (g.erased b) ++ toLE 8 (NMap.getD g.blockFirst b 0) ++ zeros 12
  let recs := ((g.recs.filter fun r => r.place = .flash b).map fun r => r.octets true).flatten
  head ++ recs ++ List.replicate (65536 - head.length - recs.length) 0xFF

/-- The general region's blocks. -/
def generalBlocks : List Nat := (List.range 240).map (· + 16)

/-- Whether a block may be erased once more: its ERASES then exceeds the mean of the general region by 1,000 at most (R385). -/
def Ledger.mayErase (g : Ledger) (b : Nat) : Bool :=
  240 * (g.erased b + 1) ≤ (generalBlocks.map g.erased).sum + 240000

/-- The blank general block of the fewest erasures, the lowest-numbered on a tie, other than `b` (which block is the
model's choice; R385 bounds the spread). -/
def Ledger.freeBlock (g : Ledger) (b : Nat) : Option Nat :=
  generalBlocks.foldl (fun a i =>
    if i = b || !g.blank i || !g.mayErase i then a
    else match a with
      | some j => if g.erased i < g.erased j then some i else a
      | none => some i) none

/-- The oldest record of the general region of strictly lower severity (R376), of those whose block may be erased (R385). -/
def Ledger.flashVictim (g : Ledger) (sev : Nat) : Option (LedRec × Nat) :=
  (g.recs.filterMap fun r => match r.place with
    | .flash b => if 16 ≤ b && r.sev < sev && g.mayErase b then some (r, b) else none
    | _ => none).foldl (fun a x => match a with
      | some y => if x.1.seq < y.1.seq then some x else a
      | none => some x) none

/-- Records of lower severity are overwritten, oldest first, until a block has room: that block, reclaimed with its other
records copied (R376), by fuel. -/
def Ledger.reclaim (g : Ledger) (n sev first : Nat) : Nat → Option (Ledger × Nat)
  | 0 => none
  | f + 1 =>
    match g.flashVictim sev with
    | none => none
    | some (v, b) =>
      let g1 : Ledger := { g with recs := g.recs.filter fun r => r.seq != v.seq, ovw := bumpSev g.ovw v.sev }
      if g1.room n b then some ({ g1.erase b first with curGeneral := b }, b) else g1.reclaim n sev first f

/-- The block a record is committed to: the TAMPER reserve from its current block on while it has room (R376), else the current general block, else
a blank one, else one reclaimed; none where the record is dropped. -/
def Ledger.blockFor (g : Ledger) (r : LedRec) : Option (Ledger × Nat) :=
  let fresh := fun (g : Ledger) (b : Nat) => if g.blank b then g.erase b r.seq else g
  let general : Option (Ledger × Nat) :=
    if g.room r.size g.curGeneral && !(g.blank g.curGeneral && !g.mayErase g.curGeneral) then some (fresh g g.curGeneral, g.curGeneral)
    else match g.freeBlock g.curGeneral with
      | some b => some ({ g.erase b r.seq with curGeneral := b }, b)
      | none => g.reclaim r.size r.sev r.seq (g.recs.length + 1)
  if r.sev = 5 then
    match ((List.range 16).map fun i => (g.curReserve + i) % 16).find? (g.room r.size) with
    | some b => some ({ fresh g b with curReserve := b }, b)
    | none => general
  else general

/-- One record is committed to the region, with `flags` added (STAGED); or dropped (R376). The Vault keeps its SEQ and D, D
being the one it had when it took its SEQ (R371, R375). -/
def Ledger.commitRec (g : Ledger) (r : LedRec) (flags : Nat) : Ledger :=
  let g0 : Ledger := { g with recs := g.recs.filter fun x => x.seq != r.seq }
  match g0.blockFor r with
  | none => { g0 with drop := bumpSev g0.drop r.sev }
  | some (g1, b) =>
    let r1 : LedRec := { r with place := .flash b, flags := r.flags ||| flags }
    { g1 with
      recs := (g1.recs.filter fun x => x.seq < r.seq) ++ [r1] ++ g1.recs.filter fun x => r.seq < x.seq
      committedSeq := some r.seq, committedD := r.dig }

/-- The highest ERASES of the region (R385). -/
def Ledger.wear (g : Ledger) : Nat := g.erases.foldl (fun a p => Nat.max a p.2) 0

/-- The record of a region that reaches 90,000 erasures (R385), once. -/
def State.wearNote (s : State) : State :=
  if s.led.wearNoted || s.led.wear < 90000 then s
  else ({ s with led := { s.led with wearNoted := true } }).record 0x0104 3 0 (toLE 4 s.led.wear)

/-- Records at a place, oldest first. -/
def Ledger.at_ (g : Ledger) (p : LedPlace) : List LedRec := g.recs.filter fun r => r.place = p

/-- Every record of a list is committed, in order. -/
def State.commitAll (s : State) (l : List LedRec) (flags : Nat) : State :=
  ({ s with led := l.foldl (fun g r => g.commitRec r flags) s.led }).wearNote

/-- Whether a record has closed by tick `t` (R373, R374). -/
def LedRec.closed (r : LedRec) (t : Nat) : Bool := !r.isOpen || r.winEnd ≤ t

/-- The records of one 4 KiB write: the buffer's oldest, in SEQ order, as far as they have closed and fit (R375). -/
def batch (t : Nat) : Nat → List LedRec → List LedRec
  | _, [] => []
  | n, r :: l => if r.closed t && r.size ≤ n then { r with isOpen := false } :: batch t (n - r.size) l else []

/-- The buffer's records of the next write. -/
def State.nextBatch (s : State) : List LedRec := batch s.tick 4096 (s.led.at_ .buffer)

/-- Whether commits go on (R377): not within 64 ticks of the third failure in a row. -/
def State.commitsRun (s : State) : Bool := s.linked && !s.mute && !s.led.flashErr

end Sys2Proof.Machine
end

