-- ==== Sys2Proof/Machine/PageCtl.lean ====
section
/-! DEFINITION. PG_CTRL (R32, R33), leases (R323, R324), self-tests (R409), and the other header rows (R34, R36, R43, R70). -/
namespace Sys2Proof.Machine
open Sys2Proof

/-! ### Blocks -/

/-- The other lane of a lane's pair. -/
def otherLane (n : Fin 128) : Fin 128 := if n.val % 2 = 0 then ⟨(n.val + 1) % 128, by omega⟩ else ⟨n.val - 1, by omega⟩

/-- The pages that a gating of a page's block turns off together: both lanes of a pair (R323). -/
def gatedWith : Page → List Page
  | .scl n => [.scl n, .scl (otherLane n)]
  | p => [p]

/-- Whether an engine is one that a page shows. -/
def engOn (p : Page) (e : Engine) : Bool := (engPages e).contains p

/-- Whether a block has work in flight: a bound job, a bulk item, a teller operation. -/
def State.working (s : State) (p : Page) : Bool :=
  let on := fun (b : Option Bound) => match b with | some x => engOn p x.eng || x.hash.any (engOn p) | none => false
  let item := fun (i : Item) => i.hash.any (engOn p) || match i.tile, p with | some t, .pkt n => t = n.val | _, _ => false
  (s.jobs.any fun j => j.phase != .done && (on j.bnd || j.items.any item)) ||
    (s.eng.strays.any fun x => engOn p (.tile x.tile)) || s.slices.any fun v => v.2.tellers.any fun t => on t.bnd

/-- Whether a tile, the lowest-numbered of its quad that serves, builds a discarded warm table again (R113, Table 14.5). -/
def State.rebuilds (s : State) (t : Fin 96) : Bool :=
  let q := t.val / 4
  (List.range 4).findSome? (fun i => if s.tileServes (4 * q + i) then some (4 * q + i) else none) = some t.val &&
    s.ks.keys.any fun p => p.2.warm && p.2.live && p.2.rebuild && !p.2.warmReady && p.2.warmQuad = some q

/-- Whether the secure world holds a lease on a page's block (Table 14.5). -/
def State.leased (s : State) (p : Page) : Bool :=
  match p with
  | .zl n => (s.zlp n.val).up && (s.zlp n.val).rostered
  | .pkt t => (s.hd p).st = .servicing || (s.running && s.anchorTile = some t.val) || s.rebuilds t
  | .scl n => (gatedWith p).any (fun q => (s.hd q).st = .servicing) || (s.running && s.anchorPair = some (n.val / 2))
  | _ => false

/-- The instance a LEASE_DENIED record names: the lower-numbered lane of a pair (R324). -/
def leaseInst : Page → Nat
  | .scl n => n.val / 2 * 2
  | p => pageInst p

/-- A gating request is refused (R324): LEASE_DENIED in PG_ERR, counted, recorded at NOTICE. -/
def State.leaseRefuse (s : State) (p : Page) : State :=
  let s1 := s.refuse p cLease 0
  ({ s1 with pwr := { s1.pwr with leaseDeny := satAdd 32 s1.pwr.leaseDeny 1 } }).record 0x0901 2 (srcPower (leaseInst p))
    (toLE 2 (pageBlock p) ++ toLE 2 (leaseInst p) ++ toLE 1 0)

/-- Warm tables of a quad none of whose tiles is powered are discarded; the keys stay WARM (R113). -/
def State.dropWarm (s : State) : State :=
  let off := fun (k : KeyRec) => match k.warmQuad with | some q => !s.quadOn q | none => false
  { s with ks := { s.ks with keys := NMap.mapV s.ks.keys fun _ k => if off k then { k with warmReady := false, rebuild := true } else k } }

/-- A Zentulink page that leaves service takes its link DOWN (R312). -/
def State.unlink (s : State) (p : Page) : State :=
  match p with
  | .zl n => if (s.zlp n.val).st = .down then s else s.dropLink n.val .down
  | _ => s

/-- PG_CTRL.ENABLE of a block's pages takes a value; a change counts on each page it changes (R37). -/
def State.setEnable (s : State) (p : Page) (on : Bool) : State :=
  (gatedWith p).foldl (fun a q =>
    if (a.hd q).enable = on then a else (a.setHd q { a.hd q with enable := on }).bumpGen q) s

/-- Whether the power manager is asked to gate the blocks that go together. -/
def State.setGating (s : State) (p : Page) (on : Bool) : State :=
  (gatedWith p).foldl (fun a q => a.setHd q { a.hd q with gating := on }) s

/-- The power manager gates a block that has drained (R32, R324): OFF, or refused while a lease holds it; a lane that has come to
read FAULT meanwhile goes on reading it (R33, R421). -/
def State.gate (s : State) (p : Page) : State :=
  let s0 := s.setGating p false
  if s.leased p then (s0.setEnable p true).leaseRefuse p
  else (((gatedWith p).foldl (fun a q => if (a.hd q).st = .fault then a else a.setSt q .off 0) s0).unlink p).dropWarm

/-- A block's state follows its PG_CTRL fields and its work (R32). -/
def State.settle (s : State) (p : Page) : State :=
  let h := s.hd p
  let w := s.working p
  if !([BlockState.ready, .busy, .draining, .offline].contains h.st) then s
  else if h.gating then
    if (gatedWith p).any s.working then s.setSt p .draining 0 else s.gate p
  else if h.st = .offline then s
  else if h.offline then (if w then s.setSt p .draining 0 else (s.setSt p .offline 0).unlink p)
  else if h.drain then s.setSt p .draining 0
  else s.setSt p (if w then .busy else .ready) 0

/-- After a request that gating was refused, the block goes on by its other fields. -/
def State.settle2 (s : State) (p : Page) : State :=
  let s1 := s.settle p
  if (s1.hd p).enable && (s.hd p).gating && !(s1.hd p).gating then s1.settle p else s1

/-- A powered block passes through SERVICING (R32, R409). -/
def State.toServicing (s : State) (p : Page) : State := s.setSt p .servicing 0

/-! ### PG_CTRL (R32, R33) -/

/-- A write to PG_CTRL of a page that honours it; ignored elsewhere (R32). -/
def State.onCtrl (s : State) (p : Page) (f : State → State) : State :=
  s.onPage p fun s => if honoursCtrl p then f s else s

/-- What a write to PG_CTRL does once its fields hold the values written (R32, R33); `h` is the header before it. A bench
tile leaves bench mode at OFFLINE = 0 whatever its state (R133). ENABLE = 1 on a powered block changes nothing: a gating that
was asked for goes on. DESIGN CHOICE: OFFLINE written 0 while the block still drains towards OFFLINE returns it straight to
READY or BUSY, since R32 gives the self-test to a block that reads OFFLINE. -/
def State.ctrlAct (s : State) (p : Page) (h : Hdr) (en off : Bool) (bad : Option (Fin 16384)) : State :=
  let s1 := if off then s else match p with
    | .pkt t => if (s.tile t.val).bench then s.benchLeave t bad else s
    | _ => s
  let st := (s1.hd p).st
  if st = .fault then (if off then s1.setSt p .offline 0 else s1)
  else if st = .off then
    (if en then (gatedWith p).foldl (fun a q => if (a.hd q).st = .off then a.toServicing q else a) s1 else s1)
  else if !en && h.enable then (gatedWith p).foldl (fun a q => a.settle2 q) (s1.setGating p true)
  else if !off && st = .offline then s1.toServicing p
  else s1.settle2 p

/-- A write to PG_CTRL with its three fields (R32, R33, R37): refused whole, or taken whole and counted once on the page. ENABLE
acts on both lanes of a pair (R323), so that a write that would change it is refused while either reads FAULT. -/
def State.ctrlWrite (s : State) (p : Page) (en dr off : Bool) (bad : Option (Fin 16384)) : State :=
  s.onCtrl p fun s =>
    let h := s.hd p
    if (h.st = .fault && dr != h.drain) || (en != h.enable && (gatedWith p).any fun q => (s.hd q).st = .fault) then
      s.refuse p cForbids 0
    else if !en && h.enable && s.leased p then s.leaseRefuse p
    else
      let s1 := s.setHd p { h with drain := dr, offline := off }
      let s2 := s1.setEnable p en
      let s3 := if en = h.enable && (dr != h.drain || off != h.offline) then s2.bumpGen p else s2
      s3.ctrlAct p h en off bad

/-- A write that leaves ENABLE, DRAIN and OFFLINE but one as they stand. -/
def ctrlEnableBody (p : Page) (on : Bool) (s : State) : State := s.ctrlWrite p on (s.hd p).drain (s.hd p).offline none

/-- PG_CTRL_ENABLE. -/
def execPgCtrlEnable (pg : Page) (on : Bool) (s : State) : Host.Outcome State Fault Refusal :=
  .next (s.hostReq (.pgCtrlEnable pg on) (ctrlEnableBody pg on))

/-- PG_CTRL.DRAIN. -/
def ctrlDrainBody (p : Page) (on : Bool) (s : State) : State := s.ctrlWrite p (s.hd p).enable on (s.hd p).offline none

/-- PG_CTRL_DRAIN. -/
def execPgCtrlDrain (pg : Page) (on : Bool) (s : State) : Host.Outcome State Fault Refusal :=
  .next (s.hostReq (.pgCtrlDrain pg on) (ctrlDrainBody pg on))

/-- PG_CTRL.OFFLINE (R32, R33); `bad` is the word that a bench tile's wipe finds non-zero (R137). -/
def ctrlOfflineBody (p : Page) (on : Bool) (bad : Option (Fin 16384)) (s : State) : State :=
  s.ctrlWrite p (s.hd p).enable (s.hd p).drain on bad

/-- PG_CTRL_OFFLINE. -/
def execPgCtrlOffline (pg : Page) (on : OfflineWrite) (s : State) : Host.Outcome State Fault Refusal :=
  .next (s.hostReq (.pgCtrlOffline pg on) (ctrlOfflineBody pg on.on on.wipeBad))

/-- BLOCK_DRAINED (R32): the last work of a draining block has ended. -/
def execBlockDrained (pg : Page) (s : State) : Host.Outcome State Fault Refusal :=
  .next (
    if honoursCtrl pg && s.linked && (s.hd pg).st = .draining && !((gatedWith pg).any s.working && (s.hd pg).gating) && !s.working pg then
      s.settle2 pg
    else s)

/-! ### Self-tests (R32, R409) -/

/-- An image class's record. -/
def State.imgClass (s : State) (n : Nat) : ImageClass := s.svc.classes.getD n {}

/-- The staged image of a class while PENDING reads 1: the spare copy, or the copy in use where a start has selected the staged
image (R408, R413). -/
def ImageClass.stagedImg (c : ImageClass) : Image := if c.taken then c.sel else c.spare

/-- Staged microcode is taken on the way through SERVICING: by a tile, or by both lanes of a pair together. -/
def State.takeMicrocode (s : State) (p : Page) (both : Bool) : State :=
  match p with
  | .pkt t =>
    if (s.imgClass 2).pending then { s with svc := { s.svc with tileVer := NMap.set s.svc.tileVer t.val (s.imgClass 2).stagedImg.ver } } else s
  | .scl n =>
    if both && (s.imgClass 3).pending then
      { s with svc := { s.svc with laneVer := NMap.set s.svc.laneVer (n.val / 2) (s.imgClass 3).stagedImg.ver } }
    else s
  | _ => s

/-- SRC of a block's records (Table 16.3). -/
def blockSrc : Page → Nat
  | .pkt t => srcTile t.val
  | .scl n => srcPair (n.val / 2)
  | .zl n => srcPort n.val
  | _ => 0

/-- One page's self-test ends. -/
def State.testEnd (s : State) (p : Page) (r : SelfTest) : State :=
  match r with
  | .pass => (s.setSt p .ready 0).settle2 p
  | .fail => (s.setSt p .fault 5).record 0x0602 4 (blockSrc p) (toLE 1 (pageInst p) ++ toLE 1 5)
  | .microcode => (s.setSt p .fault 7).record 0x0602 4 (blockSrc p) (toLE 1 (pageInst p) ++ toLE 1 7)

/-- SELF_TEST_DONE (R32, R409): a lane waits in SERVICING while its partner reads OFFLINE; two lanes in SERVICING end
together. -/
def selfTestBody (pg : Page) (r : SelfTest) (s : State) : State :=
  if !s.running || !honoursCtrl pg || (s.hd pg).st != .servicing then s
  else
    let mates := (gatedWith pg).filter fun q => q != pg
    if mates.any fun q => (s.hd q).st = .offline then s
    else
      let both := mates.all fun q => (s.hd q).st = .servicing
      let s1 := if r = .pass then s.takeMicrocode pg both else s
      let s2 := s1.testEnd pg r
      if both then mates.foldl (fun a q => a.testEnd q r) s2 else s2

/-! ### Locks, interrupts, device features (R34, R36, R43, R70) -/

/-- PG_LOCK (R36, R37): LOCK is set once. -/
def lockBody (p : Page) (lock : Bool) (s : State) : State :=
  s.onHdr p fun s =>
    let h := s.hd p
    if lock && !h.lock then (s.setHd p { h with lock := true }).bumpGen p else s

/-- PG_LOCK_WRITE. -/
def execPgLockWrite (pg : Page) (lock : Bool) (s : State) : Host.Outcome State Fault Refusal :=
  .next (s.hostReq (.pgLockWrite pg lock) (lockBody pg lock))

/-- PG_INT_EN (R34, R37): a message where the write enables a bit that already reads 1. -/
def intEnBody (p : Page) (en : BitVec 32) (s : State) : State :=
  s.onHdr p fun s =>
    let h := s.hd p
    let before := s.intEnOf p
    let s1 := s.setHd p { h with intEn := en }
    let s2 := if en = h.intEn then s1 else s1.bumpGen p
    if s2.intEnOf p &&& ~~~before &&& h.intStat != 0 then s2.signal (pageOwner p) 0 else s2

/-- PG_INT_EN_WRITE. -/
def execPgIntEnWrite (pg : Page) (en : BitVec 32) (s : State) : Host.Outcome State Fault Refusal :=
  .next (s.hostReq (.pgIntEnWrite pg en) (intEnBody pg en))

/-- MSIX_UNMASK (R40, R70): the table answers from the first configuration access on; the mask is cleared, and a pending bit
sends one message and clears. -/
def unmaskBody (v : Nat) (s : State) : State :=
  if !s.pwr.configUp then s
  else
    let e := NMap.getD s.msix v {}
    if e.pend && !s.mute then
      ({ s with msix := NMap.set s.msix v { e with mask := false, pend := false } }).emit (.msix v e.addr e.data)
    else { s with msix := NMap.set s.msix v { e with mask := false } }

/-- MSIX_UNMASK. -/
def execMsixUnmask (vec : Fin 2048) (s : State) : Host.Outcome State Fault Refusal :=
  .next (s.hostReq (.msixUnmask vec) (unmaskBody vec.val))

/-- GLB_FEAT_OFFER (R42, R280): six device features; slice features 0 to 12, 14, 15, and CLUSTER on a head. -/
def State.devOffer (s : State) : List W32 := [0x3F, if s.clu.role = .head then 0xFFFF else 0xDFFF, 0, 0]

/-- The cause that refuses a device feature commit, if any (R43, in its order). -/
def State.devCommitBad (s : State) (acc : List W32) : Option Nat :=
  if (List.zip acc s.devOffer).any fun x => x.1 &&& ~~~x.2 != 0 then some 1
  else if !(acc.getD 0 0).getLsbD 0 || !(acc.getD 1 0).getLsbD 0 then some 2
  else if s.slices.any fun p => p.1 != 0 && p.2.st != .free then some 3
  else if !s.running then some 4
  else none

/-- GLB_FEAT_COMMIT.GO (R43). -/
def featBody (s : State) : State :=
  s.onPage .glb fun s =>
    let acc := (List.range 4).map fun i => s.rg .glb (0x080 + 4 * i)
    match s.devCommitBad acc with
    | some c => { s with glb := { s.glb with featRes := 2, featCause := c } }
    | none =>
      ({ s with glb := { s.glb with accepted := acc, committed := true, featRes := 1, featCause := 0 } }).record 0x0301 1 0
        ((acc.map fun (w : W32) => toLE 4 w.toNat).flatten)

/-- GLB_FEAT_COMMIT. -/
def execGlbFeatCommit (s : State) : Host.Outcome State Fault Refusal := .next (s.hostReq .glbFeatCommit featBody)

end Sys2Proof.Machine
end

