-- ==== Sys2Proof/Machine/ResetOps.lean ====
section
/-! DEFINITION. What a reset, a supply loss and an erasure leave (R213, R266, R346, R347, R363, R364, R384, R399). -/
namespace Sys2Proof.Machine
open Sys2Proof

/-! ### Debug grants that end (R359) -/


/-- An MPU replaced. -/
def State.setMpu (s : State) (m : Nat) (u : Mpu) : State := { s with mpu := NMap.set s.mpu m u }

/-- How many of an entry's four registers two entries differ in (Table 14.7). -/
def entryDiff (old new : MpuEntry) : Nat :=
  let plain := fun (x : MpuEntry) => { x with base := 0, limit := 0 }
  b2n (old.base % 2 ^ 32 != new.base % 2 ^ 32) + b2n (old.base / 2 ^ 32 != new.base / 2 ^ 32) +
    b2n (old.limit % 2 ^ 32 != new.limit % 2 ^ 32) + b2n (old.limit / 2 ^ 32 != new.limit / 2 ^ 32 || plain old != plain new)

/-- PG_GEN of a page counts changes of its registers' values (R37). -/
def State.bumpBy (s : State) (p : Page) (n : Nat) : State :=
  let h := s.hd p
  s.setHd p { h with gen := h.gen + BitVec.ofNat 32 n }

/-- The debug port's entries become those given, each register that changes counted (R37). -/
def State.debugEntries (s : State) (ent : NMap MpuEntry) : State :=
  let u := s.mpuOf 48
  let s1 := s.setMpu 48 { u with ent := ent, heldBase := [], heldLimit := [], pending := false }
  s1.bumpBy (.mpu 48) (((List.range 32).map fun e => entryDiff (NMap.getD u.ent e {}) (NMap.getD ent e {})).sum)

/-- An open grant closes: the debug port's entries are invalidated and synchronised, cores halted under it restarted, jobs
running on one ended ABORTED where jobs still complete (R24), a NOTICE record with the cause (the model's own numbers: 1 end tick, 2 DEBUG_CLOSE, 3 reset, 4 tamper, 5 transition). -/
def State.closeGrant (s : State) (cause : Nat) : State :=
  match s.lcs.grant with
  | none => s
  | some _ =>
    let held := (s.jobs.filter fun j => j.phase = .bound && match j.bnd with | some b => s.coreHeld b.eng | none => false).map Job.id
    let s0 := (if cause = 3 || cause = 4 then s else abortAll 0x22 held s).debugEntries []
    let s1 : State :=
      { s0 with
        lcs := { s0.lcs with grant := none }
        svc := { s0.svc with cores := NMap.mapV s0.svc.cores fun _ c => if c.halted then { c with halted := false, running := true } else c } }
    s1.record 0x0A04 2 0 (toLE 1 cause)

/-! ### Volatile state -/

/-- The roster as a unit finds it after a reset: on a head the other members are to authenticate again, those that were
leaving are out; on a member nothing is shown. Ranges are abandoned (R304), replicas of non-RESIDENT keys gone (R302). -/
def Cluster.afterReset (c : Cluster) (kept : Nat → Bool) : Cluster :=
  let members := match c.role with
    | .head => (c.members.filter fun p => p.2.st != .leaving || !p.2.repl.isEmpty).map fun p =>
        (p.1, ({ st := if p.1 = 0 then .serving else .joining, uid := if p.2.repl.isEmpty then p.2.uid else p.2.repl } : Member))
    | _ => c.members.map fun p => (p.1, ({ uid := p.2.uid } : Member))
  { role := c.role, id := c.id, topo := c.topo, rosterVer := c.rosterVer, headUid := c.headUid, members := members
    replMask := c.replMask, replVer := if c.role = .member && c.held.any fun p => !p.2.resident then [] else c.replVer, rights := c.rights, transfer := c.transfer
    replicas := c.replicas.filter fun x => kept x.1
    held := (c.held.filter fun p => p.2.resident).map fun p => (p.1, { p.2 with ranges := [], asked := false }) }

/-- What the flash device, the antifuse and the Vault keep of servicing. -/
def Service.afterReset (v : Service) : Service := { classes := v.classes, wdogCnt := v.wdogCnt }

/-- What the antifuse, the Vault and flash keep of the life cycle. -/
def LifeCycle.afterReset (l : LifeCycle) : LifeCycle :=
  { recs := l.recs, staged := l.staged, ownerDigest := l.ownerDigest, cfg := l.cfg, cfgNext := l.cfgNext
    groupNext := l.groupNext, grantStaged := l.grantStaged, otpGone := l.otpGone }

/-- What flash and the Vault keep of the Ledger; a buffer that no flush emptied is gone, and stands here until the next
start counts it as lost (R401). -/
def Ledger.afterReset (g : Ledger) : Ledger :=
  { recs := g.recs, nextSeq := g.nextSeq, headD := g.headD, cpIndex := g.cpIndex, lastCpSeq := g.lastCpSeq
    sinceCp := g.sinceCp, cpLost := g.cpLost, ovw := g.ovw
    drop := g.drop, chainRestart := g.chainRestart, flushing := true, committedSeq := g.committedSeq
    committedD := g.committedD, erases := g.erases, blockFirst := g.blockFirst, curGeneral := g.curGeneral
    curReserve := g.curReserve, wearNoted := g.wearNoted }

/-- The erasures that members are owed for keys that are lost here, those whose place `kept` does not name (R213, R308). -/
def State.owedFor (s : State) (kept : Nat → Bool) : List (Nat × Nat) :=
  s.clu.replicas.filterMap fun x => if kept x.1 then none else (NMap.find s.ks.keys x.1).map fun k => (x.2, k.handle)

/-- Everything outside the island, the Vault, flash and antifuse takes its reset value (R213, R266, R399): keys but the
resident archive's, slices, rings, jobs, streams, approvals, every register page; RUN reads STARTING. What DRAM holds fails its tag
from now on (R333). -/
def State.cleared (s : State) : State :=
  { glb := { optime := s.glb.optime, pcc := s.glb.pcc }
    led := s.led.afterReset
    vault := s.vault
    ks := { archive := s.ks.archive, archiveB := s.ks.archiveB }
    pwr :=
      { pfwCnt := s.pwr.pfwCnt, unwarned := s.pwr.unwarned, pfwLow := s.pwr.pfwLow, pfwRiseSeen := s.pwr.pfwRiseSeen
        coreSupply := s.pwr.coreSupply, vaon := s.pwr.vaon, resumeDigest := s.pwr.resumeDigest, reset := s.pwr.reset
        resetCause := s.pwr.resetCause }
    clu :=
      let kept := fun (place : Nat) => s.ks.archive.any fun p => p.2.key.place = place
      { s.clu.afterReset kept with owed := s.clu.owed ++ s.owedFor kept }
    svc := s.svc.afterReset
    lcs := s.lcs.afterReset
    tmp := { s.tmp with readySince := false }
    mem := { lines := NMap.mapV s.mem.lines fun _ d => { d with old := true } }
    isl := s.isl
    out := s.out, freeN := s.freeN, pending := s.pending }

/-- Whether the unit still holds itself in reset at power-up (R428): no start has begun since the supplies came. -/
def State.powerUp (s : State) : Bool :=
  s.pwr.reset = .powerOn && s.glb.run = .starting && s.pwr.startStep = 0 && !s.pwr.configUp

/-- A reset of a class is taken (Table 17.4): an open grant closes, the staging flush runs (R378), PCC counts, volatile
state is gone, and the flags of the next start are set. -/
def State.takeReset (s : State) (c : ResetClass) (cause : Nat) : State :=
  let s1 := ((s.closeGrant 3).stagingFlush).cleared
  { s1 with
    glb := { s1.glb with pcc := (s1.glb.pcc + 1) % 2 ^ 32, tamperReset := decide (c = .tamper), wdogReset := decide (c = .watchdog) }
    pwr :=
      { s1.pwr with
        reset := c, resetCause := cause, pfwLow := s1.pwr.pfwLow && c != .powerFail
        pfwRiseSeen := s1.pwr.pfwRiseSeen && c != .powerFail }
    lcs := { s1.lcs with grantStaged := if c = .tamper then s1.lcs.grantStaged else none } }

/-! ### Erasures (R346, R347, R363, R364) -/

/-- What a Squall erases in the Vault (Table 11, steps 2 to 4 of R363): the epoch steps, tenant groups go; keys, tally
slots and the deletion filter with them. -/
def State.squallErase (s : State) : State :=
  { s with
    vault := { s.vault with epoch := s.vault.epoch + 1, groups := s.vault.groups.filter fun p => p.1 = 0 }
    ks := { s.ks with keys := [], filter := [] }
    clu := { s.clu with held := [], replicas := [], ranges := [], owed := s.clu.owed ++ s.owedFor fun _ => false } }

/-- The repair erasure (Table 15.2). -/
def State.repairErase (s : State) : State :=
  let s1 := s.squallErase
  { s1 with
    vault := { s1.vault with storageRoot := [], fixedCtr := 0, blobSerial := 0, groups := [], archA := [], archB := [] }
    lcs := { s1.lcs with cfg := {}, cfgNext := none, groupNext := none }
    ks := { s1.ks with archive := [], archiveB := [] } }

/-- The record of the highest SEQ of a list. -/
def topRec (l : List LedRec) : Option LedRec :=
  l.foldl (fun a r => match a with
    | some (x : LedRec) => if x.seq < r.seq then some r else a
    | none => some r) none

/-- The records that the flash region holds. -/
def Ledger.region (g : Ledger) : List LedRec := g.recs.filter fun r => match r.place with | .flash _ => true | _ => false

/-- D of a record as it took its SEQ, before STAGED was set. -/
def LedRec.firstDig (r : LedRec) : Bytes := { r with flags := r.flags &&& 0xFD }.dig

/-- The Vault's copy of the chain is gone, and its staging with it (R384): what the buffer of a powered core still holds
stays, until the flush that follows; SEQ goes on above the highest record that is left, the next record restarts the chain from it, and the next start
finds the last checkpoint in the region. -/
def Ledger.vaultGone (g : Ledger) : Ledger :=
  let l := g.recs.filter fun r => match r.place with | .staging => false | .buffer => !g.flushing | .flash _ => true
  let top := topRec l
  let com := topRec g.region
  { g with
    recs := l, nextSeq := (match top with | some r => r.seq + 1 | none => 0)
    headD := (match top with | some r => r.firstDig | none => [])
    committedSeq := com.map LedRec.seq, committedD := (match com with | some r => r.firstDig | none => [])
    cpLost := true, ovw := List.replicate 6 0, drop := List.replicate 6 0, chainRestart := true }

/-- Whether a checkpoint's signature verifies under the unit's device-identity key (R380, R384). -/
def LedRec.cpSigned (r : LedRec) : Bool :=
  let hdr := { r with flags := r.flags &&& 0xF5 }.header true
  (p384.verify (p384.mul Config.deviceKey p384.g) (sha384 (hdr ++ r.content.take 112)) (Bytes.sub r.content 112 96)).isNone

/-- After the Vault's copy was erased, a start takes CP_INDEX from the last checkpoint of the region that verifies (R384). -/
def Ledger.findCp (g : Ledger) : Ledger :=
  if !g.cpLost then g
  else
    let cp := topRec (g.region.filter fun r => r.typ = 0x0101 && r.cpSigned)
    { g with
      cpLost := false, cpIndex := (match cp with | some r => Bytes.le r.content 0 8 | none => 0), lastCpSeq := cp.map LedRec.seq
      sinceCp := (g.recs.filter fun r => r.typ != 0x0101 && match cp with | some c => c.seq < r.seq | none => true).length }

/-- The whole Vault but OPTIME, PCC and, where `gens` says so, the slices' generation counters (R347, R364). The serial of
the storage root is the model's own and goes on. -/
def State.vaultErase (s : State) (gens : Bool) : State :=
  { s with
    vault := { gens := if gens then s.vault.gens else [] }
    clu := {}
    led := s.led.vaultGone
    pwr := { s.pwr with pfwCnt := 0, unwarned := 0, resumeDigest := [] }
    svc := { s.svc with wdogCnt := 0 }
    lcs :=
      { s.lcs with
        staged := none, ownerDigest := [], cfg := {}, cfgNext := none, groupNext := none, grantStaged := none } }

/-- The scrap erasure (R347): the repair erasure, the whole Vault but OPTIME and PCC, every flash region but the Ledger's;
the identity seed and the analogue trims are burned to all ones. -/
def State.scrapErase (s : State) : State :=
  let s1 := (s.repairErase).vaultErase false
  { s1 with
    svc := { s1.svc with classes := s1.svc.classes.map fun c => { arb := c.arb } }
    lcs := { s1.lcs with otpGone := true } }

/-! ### Life-cycle records (R348, R349) -/

/-- Whether a record has any cell burned. -/
def LcRec.burned (r : LcRec) : Bool := r.code != 0 || r.ncode != 0 || r.commit != 0

/-- NEXT_REC: one above the highest record with a cell burned (R349). -/
def State.nextRec (s : State) : Nat :=
  s.lcs.recs.foldl (fun a p => if p.2.burned then Nat.max a (p.1 + 1) else a) 0

/-- A record's cells. -/
def State.lcRec (s : State) (n : Nat) : LcRec := NMap.getD s.lcs.recs n {}

/-- A record is burned whole and committed (R348, Table 15.6). -/
def State.burn (s : State) (n to_ : Nat) : State :=
  { s with lcs := { s.lcs with recs := NMap.set s.lcs.recs n { code := to_, ncode := 15 - to_, commit := 3 }, staged := none } }

/-- A record of a transition by its stage: the new state where it commits (2), else FROM, TO and REC (1 staged, 3 completed at
a start, 4 forced) (Table 15.6, R353, R366). -/
def State.transRec (s : State) (from_ to_ rec_ stage : Nat) : State :=
  s.record 0x0A01 2 0 (if stage = 2 then toLE 1 to_ else toLE 1 from_ ++ toLE 1 to_ ++ toLE 1 rec_)

/-- Table 15.6, steps 4 to 6: the erasure of the transition or the new owner's digest (Table 15.2), the burn, the commit
(SCRAP burns before it erases). -/
def State.commitTo (s : State) (from_ to_ rec_ stage : Nat) : State :=
  let s1 := if to_ = 7 then s.scrapErase else if to_ = 5 then s.repairErase else s
  let s2 : State := match s.lcs.staged with
    | some h => if to_ = 3 then { s1 with lcs := { s1.lcs with ownerDigest := Bytes.sub h 0x20 32 } } else s1
    | none => s1
  (s2.burn rec_ to_).transRec from_ to_ rec_ stage

/-! ### Outcomes -/

/-- An LCS command ends (R351, Table 15.12). -/
def State.lcsEnd (s : State) (code detail : Nat) : State :=
  { s with lcs := { s.lcs with cmd := { st := 2, code := code, detail := detail } } }

end Sys2Proof.Machine
end

