-- ==== Sys2Proof/Machine/RngCmds.lean ====
section
/-! DEFINITION. The random number service's commands and events (chapter 9). -/
namespace Sys2Proof.Machine
open Sys2Proof

/-- Whether the RNG domain is powered and past its start. -/
def State.rngOn (s : State) : Bool := s.rng.es != .starting && s.linked && s.pwr.ladder != .fog

/-! ### Sources (R191, R194) -/

/-- A source is benched because the SOSC left its range (R191). -/
def State.benchSosc (s : State) (n : Nat) : State :=
  let v := s.src n
  if v.st = .retired || v.st = .off then s
  else
    let v1 : Source :=
      { v with st := .benched, failtest := 3, benchCnt := satAdd 32 v.benchCnt 1, benchEnd := s.tick + 64, retries := 0 }
    ((s.setSrc n v1).raise .rng 17).record 0x0701 3 (srcSource n) (toLE 1 n ++ toLE 1 3 ++ toLE 1 v.trim)

/-- SOSC_MEASURE (R191): a value out of range benches every source that an earlier one has not benched already. -/
def soscMeasureBody (khz : BitVec 16) (s : State) : State :=
  if !s.rngOn then s
  else
    let ok := 12000 ≤ khz.toNat && khz.toNat ≤ 20000
    let s1 : State := { s with rng := { s.rng with soscKhz := khz.toNat, soscErr := !ok } }
    if ok then s1
    else
      let hit := (List.range 8).filter fun n => !(s.rng.soscErr && (s.src n).st = .benched)
      let s2 := hit.foldl (fun a n => a.benchSosc n) s1
      (s2.record 0x0707 4 0 (toLE 2 khz.toNat)).esFail 2

/-- RAW_BLOCK (R193 to R195): a block is tested; one that passes from an ACTIVE source feeds the pool, or is discarded while
the pool is full. -/
def rawBlockBody (n : Fin 8) (bits : Bytes) (s : State) : State :=
  let v := s.src n.val
  if !s.rngOn || s.rng.soscErr || (v.st != .active && v.st != .retry) then s
  else
    let (f, v1) := healthTest v bits
    if f = 0 then
      if v.st = .retry then s.setSrc n.val { v1 with st := .active, retries := 0 }
      else
        let s1 := s.setSrc n.val v1
        if 64 ≤ s1.rng.pool.length then s.setSrc n.val { v1 with discard := satAdd 32 v1.discard 1 } else { s1 with rng := { s1.rng with pool := s1.rng.pool ++ [sha3_256 bits] } }
    else
      let v2 : Source := { v1 with discard := satAdd 32 v1.discard 1 }
      if v.st = .active then s.setSrc n.val { v2 with st := .retry, retries := 0 }
      else if v.retries + 1 < 3 then s.setSrc n.val { v2 with retries := v.retries + 1 }
      else (s.setSrc n.val v2).bench n.val f

/-- SOURCE_BENCH_END (R194): the bench has lasted [t, t + 64). -/
def execSourceBenchEnd (src : Fin 8) (s : State) : Host.Outcome State Fault Refusal :=
  .next (
    let v := s.src src.val
    if s.rngOn && v.st = .benched && v.benchEnd ≤ s.tick then s.setSrc src.val { v with st := .recal } else s)

/-- The TRIM a recalibration keeps (R194): of the lowest max(|bias|, |lag-1 correlation|), the lowest-numbered on a tie
(DESIGN CHOICE: the manual names no tie rule). -/
def bestTrim (x : RecalScan) : Nat :=
  let at_ := fun (i : Nat) => let p := x.found.getD i (0, 0); Nat.max p.1 p.2
  (List.range 16).foldl (fun a i => if at_ i < at_ a then i else a) 0

/-- RECAL_COMPLETE (R194; no bit is sampled while the SOSC is out of range, R191): the best TRIM is kept and the start-up test begins. -/
def execRecalComplete (src : Fin 8) (scan : RecalScan) (s : State) : Host.Outcome State Fault Refusal :=
  .next (
    let v := s.src src.val
    if s.rngOn && v.st = .recal && !s.rng.soscErr then s.setSrc src.val { v with st := .startup, trim := bestTrim scan, repRun := 0 } else s)

/-- STARTUP_TEST_DONE (R193, R194): a fail benches the source again, the eighth in a row then retires it. -/
def startupTestBody (n : Fin 8) (bits : Bytes) (s : State) : State :=
  let v := s.src n.val
  if !s.rngOn || s.rng.soscErr || v.st != .startup then s
  else
    let (f, v1) := healthTest { v with repRun := 0 } bits
    if f = 0 then s.setSrc n.val { v1 with st := .active, consec := 0, retries := 0 }
    else
      let s1 := (s.setSrc n.val { v1 with consec := v.consec + 1 }).bench n.val f
      if v.consec + 1 < 8 then s1
      else
        (s1.setSrc n.val { s1.src n.val with st := .retired }).record 0x0702 4 (srcSource n.val)
          (toLE 1 n.val ++ toLE 1 f ++ toLE 1 v.trim)

/-! ### Recovery and tests (R207, R208) -/

/-- Whether FAILED may end (R207). -/
def State.canRecover (s : State) : Bool :=
  s.rng.es = .failed && s.benched ≤ 3 && !s.rng.soscErr && !s.rng.condFailed

/-- ES_RECOVERY (R207), in its order. -/
def esRecoveryBody (kat : KatRun) (s : State) : State :=
  if !s.canRecover then s
  else
    let s1 := [0, 1, 2, 3].foldl (fun a n =>
      match (a.inst n).st with
      | .running => a.reseed n
      | .stopped | .fault => a.katInst n (kat.inst.getD n true)
      | _ => a) s
    let s2 : State := { s1 with rng := { s1.rng with es := .healthy } }
    let s3 := (s2.reRun.record 0x0705 2 0 []).raise .rng 16
    [4, 5, 6, 7].foldl (fun a n => a.katInst n (kat.inst.getD n true)) s3

/-- A test cycle (R208): the conditioner, then the instances one at a time; its result and time are kept. -/
def State.katCycle (s : State) (kat : KatRun) : State :=
  let s1 := s.katCond kat.conditioner
  let s2 := if kat.conditioner then
      (List.range 8).foldl (fun a n => a.katInst n (kat.inst.getD n true)) s1
    else s1
  let part := if !kat.conditioner then 8 else ((List.range 8).find? fun n => !kat.inst.getD n true).getD 15
  { s2 with rng := { s2.rng with katRes := if part = 15 then 1 else 2, katPart := part, katTick := s2.tick,
                                 nextCycle := s2.tick + 5529600 } }

/-- RNG_SRC_CTRL.RECAL (R209). -/
def recalBody (s : State) : State :=
  s.onPage .rng fun s =>
    let n := fld (s.rg .rng 0x044) 0 3
    let v := s.src n
    if v.st != .active && v.st != .retry && v.st != .retired then s.refuse .rng cForbids 3
    else if 2 < s.benched then s.refuse .rng cForbids 4
    else (s.setSrc n { v with st := .recal, consec := 0, retries := 0 }).record 0x0709 2 (srcSource n) (toLE 1 n)

/-- RECAL. -/
def execRecal (s : State) : Host.Outcome State Fault Refusal := .next (s.hostReq .recal recalBody)

/-- A write of RNG_RESEED (R198); while the source is FAILED it stops the internal instances that have reached the new LIMIT
(R206). -/
def reseedWriteBody (x : BitVec 32) (s : State) : State :=
  s.onPage .rng fun s =>
    let n := fld x 0 17
    if n < 256 || s.rng.limit < n then s.refuse .rng cBadParam 1
    else
      let s0 := ({ s with rng := { s.rng with limit := n } }).record 0x0709 2 0 (toLE 4 n)
      let s1 := if s0.rng.es = .failed then s0.stopSpent else s0
      if n = s.rng.limit then s1 else s1.bumpGen .rng

/-- RNG_RESEED_WRITE. -/
def execRngReseedWrite (v : BitVec 32) (s : State) : Host.Outcome State Fault Refusal :=
  .next (s.hostReq (.rngReseedWrite v) (reseedWriteBody v))

/-! ### RNG_READ (R200 to R202) -/

/-- RESULT of RNG_READ (Table 9.5). -/
def State.readRes (s : State) (n : Nat) (reseeded : Bool) : Bytes :=
  toLE 1 n ++ toLE 1 (b2n reseeded) ++ zeros 2 ++ toLE 4 (s.rng.limit - (s.inst n).count) ++ zeros 8

/-- A bound RNG_READ and its instance. -/
def State.boundRead (s : State) (id : Nat) : Option (Job × Bound × Nat) :=
  match s.boundJob 0x0601 id with
  | some (j, b) => match b.eng with
    | .drbg n => some (j, b, n.val)
    | _ => none
  | none => none

/-- RNG_READ ends: served, waiting for a pool word behind instances 0 to 3 (R195), or failed with its instance (R199,
R200). -/
def rngReadBody (id : Nat) (r : RunEnd) (s : State) : State :=
  match s.boundRead id with
  | none => s
  | some (j, _, n) =>
    match endDetail false r.eng with
    | some d =>
      (s.instFault n d).finish j { code := cMismatch, detail := d, result := toLE 1 n ++ zeros 15 } [] true
    | none =>
      let re := bit (eB j.entry 0x38) 0 || s.rng.limit ≤ (s.inst n).count
      if (s.inst n).st != .running || (re && (s.rng.pool.isEmpty || s.intWaits)) then s
      else
        let s1 := if re then s.reseed n else s
        let i := s1.inst n
        let g := drbgGen i.key i.v (eOutLen j.entry) j.input
        let s2 := s1.setInst n { i with count := i.count + 1, key := g.2.1, v := g.2.2 }
        let s3 : State := { s2 with rng := { s2.rng with hostOct := (s2.rng.hostOct + eOutLen j.entry) % 2 ^ 64 } }
        s3.finish j { code := cOK, outLen := eOutLen j.entry, result := s3.readRes n re } g.1 false

/-- RNG_READ. -/
def execRngRead (job : Nat) (r : RunEnd) (s : State) : Host.Outcome State Fault Refusal := .next (rngReadBody job r s)

/-- RNG_PR_TIMEOUT (R202): no pool word reached a request with PR in time. -/
def prTimeoutBody (id : Nat) (s : State) : State :=
  match s.boundRead id with
  | none => s
  | some (j, _, n) =>
    if bit (eB j.entry 0x38) 0 && (s.rng.pool.isEmpty || s.intWaits) then
      s.finish j { code := cRngNotReady, detail := 1, result := s.readRes n false } [] false
    else s

/-- RNG_PR_TIMEOUT. -/
def execRngPrTimeout (job : Nat) (s : State) : Host.Outcome State Fault Refusal := .next (prTimeoutBody job s)

end Sys2Proof.Machine
end

