-- ==== Sys2Proof/Machine/Start.lean ====
section
/-! DEFINITION. How the unit starts (R203, R204, R353, R366, R379, R397, R401 to R403, R413): Table 17.3 step by step. -/
namespace Sys2Proof.Machine
open Sys2Proof

/-- The SMBus cause byte takes a value; SMB_ALERT_N falls where it changes (R434). -/
def State.setCause (s : State) (c : Nat) : State :=
  if s.isl.cause = c then s else { s with isl := { s.isl with cause := c, smbAlert := true } }

/-- A step of Table 17.3 is complete: UART_TX sends its line with the SMBus cause byte (R430). -/
def State.stepDone (s : State) (n : Nat) : State := ({ s with pwr := { s.pwr with startStep := n } }).emit (.uart n s.isl.cause)

/-! ### Step 2: life-cycle records (R348, R353, R354, R364, R366) -/

/-- Whether a record's burned cells are consistent with a state (R353). -/
def LcRec.consistent (r : LcRec) (to_ : Nat) : Bool := r.code &&& (15 - to_) = 0 && r.ncode &&& to_ = 0

/-- The highest record that has a cell burned but is not committed, unless a committed one stands above it (R348, R353). -/
def State.openRec (s : State) : Option (Nat × LcRec) :=
  match (s.lcs.recs.filter fun p => p.2.burned).getLast? with
  | some p => if recCommitted p.2 then none else some p
  | none => none

/-- Whether the state's code is one that is never burned (R344). -/
def State.noState (s : State) : Bool := s.lcsCode = 6 || 8 ≤ s.lcsCode

/-- PENDING and its ALARM record (R344, R354). -/
def State.setPending (s : State) (n : Nat) (r : LcRec) : State :=
  ({ s with lcs := { s.lcs with pending := true } }).record 0x0A03 4 0
    (toLE 1 n ++ toLE 1 r.code ++ toLE 1 r.ncode ++ toLE 1 r.commit)

/-- A start that finds the Storm mark (R366): REPAIR from OWNED and FIELD, SCRAP where the records are used up. -/
def State.afterStorm (s : State) : State :=
  let code := s.lcsCode
  let s1 :=
    if code = 3 || code = 4 then
      let t := if s.nextRec ≤ 46 then s.commitTo code 5 s.nextRec 4 else s.commitTo code 7 47 4
      { t with lcs := { t.lcs with forced := true } }
    else s
  { s1 with tmp := { s1.tmp with stormMark := false } }

/-- Whether a staged header is intact, by the SHA3-256 staged with it, and names a record of this unit's next state (R353). -/
def State.stagedFits (s : State) (n : Nat) (r : LcRec) : Option Nat :=
  match s.lcs.staged with
  | some h =>
    if Bytes.sub h 80 32 = sha3_256 (h.take 80) && Bytes.at h 8 = n && Bytes.at h 6 = s.lcsCode && r.consistent (Bytes.at h 7) then
      some (Bytes.at h 7)
    else none
  | none => none

/-- A transition that was carried out when the supplies fell, and its start goes on from Table 15.6, step 4 (R353): the state it
commits and its record; none where the start goes another way. -/
def State.interrupted (s : State) : Option (Nat × Nat) :=
  if s.tmp.eraseFail && s.lcsCode != 7 then none
  else match s.openRec with
    | none => none
    | some (n, r) => if n = 47 && r.code = 7 && r.ncode = 8 then none else (s.stagedFits n r).map fun to_ => (to_, n)

/-- Table 15.6 from step 4 on, at a start: step 7's life-cycle reset follows, with a start of its own; a SCRAP unit then reads
HALTED (R347, R352, R353). -/
def State.finishTransition (s : State) (to_ n : Nat) : State :=
  let s1 := (s.commitTo s.lcsCode to_ n 3).takeReset .lifeCycle 0
  if to_ = 7 then { s1 with glb := { s1.glb with run := .halted }, pwr := { s1.pwr with configUp := true } } else s1

/-- Step 2 of Table 17.3, where no transition goes on. -/
def State.startRecords (s : State) : State :=
  let s0 : State := { s with lcs := { s.lcs with pending := false, forced := false } }
  if s0.tmp.eraseFail && s0.lcsCode != 7 then
    let s1 := s0.commitTo s0.lcsCode 7 47 4
    { s1 with tmp := { s1.tmp with stormMark := false } }
  else match s0.openRec with
    | none =>
      if s0.tmp.stormMark then s0.afterStorm
      else if s0.noState then s0.setPending (s0.nextRec - 1) (s0.lcRec (s0.nextRec - 1)) else s0
    | some (n, r) =>
      if n = 47 && r.code = 7 && r.ncode = 8 then s0.commitTo s0.lcsCode 7 47 3
      else if s0.tmp.stormMark then s0.afterStorm else s0.setPending n r

/-- Owner configuration takes effect (R355), the island's
registers take their reset values (R361, Table 15.13). -/
def State.startConfig (s : State) : State :=
  let cfg := s.lcs.cfgNext.getD s.lcs.cfg
  let vault : Vault :=
    { s.vault with
      groups := (match s.lcs.groupNext with | some g => NMap.set s.vault.groups 0 g | none => s.vault.groups) }
  let quiet := s.lcsCode != 3 && s.lcsCode != 4
  let s1 : State :=
    { s with
      lcs := { s.lcs with cfg := cfg, cfgNext := none, groupNext := none }
      vault := vault
      rng := { s.rng with limit := cfg.reseedLimit }
      svc := { s.svc with wdogMs := cfg.wdogMs }
      mem := { s.mem with keyIdMode := bit cfg.mem 0, locked := bit cfg.mem 1 }
      tmp :=
        { s.tmp with
          resp := if quiet then 0 else BitVec.ofNat 32 cfg.tmpResp, en := BitVec.ofNat 32 cfg.tmpEn, mesh := cfg.meshPeriod
          swPol := cfg.swPol, swDebounce := cfg.swDebounce } }
  if s.lcsCode = 4 && cfg.tmpLock then (s1.setHd .tmp { s1.hd .tmp with lock := true }).bumpGen .tmp else s1

/-! ### Steps 3 and 6: images (R397, R402, R403, R407, R413) -/

/-- The copy of a class that a start selects: of those that verify and are not below the counter, the higher version; the
one in use on a tie. -/
def ImageClass.select (c : ImageClass) (okSel okSpare : Bool) : Option ImageClass :=
  let a := okSel && c.arb ≤ c.sel.arb
  let b := okSpare && c.arb ≤ c.spare.arb
  let swap : ImageClass := { c with sel := c.spare, spare := c.sel, taken := c.pending && !c.taken }
  if a && b then some (if c.sel.ver < c.spare.ver then swap else c)
  else if a then some c
  else if b then some swap
  else none

/-- The image class of a number replaced. -/
def State.setClass (s : State) (n : Nat) (c : ImageClass) : State :=
  { s with svc := { s.svc with classes := s.svc.classes.set n c } }

/-- No copy of a class verifies (R403): HALTED until the next reset, its class in the SMBus status, an ALARM record staged. -/
def State.noImage (s : State) (n : Nat) : State :=
  let s1 := (s.setCause (0x10 + n)).record 0x0D03 4 0 (toLE 1 n)
  { s1 with glb := { s1.glb with run := .halted } }

/-- Whether the image of a class in flash has the digest that the Vault recorded at the entry to Frost (R395, R397). -/
def State.resumed (s : State) (env : StartEnv) (n : Nat) : Bool :=
  env.resumeOk.getD n true && s.pwr.resumeDigest[n]? = some (s.imgClass n).sel.digest

/-- One class is loaded. On an exit from Frost whose digests match, the image in use is loaded as it is (R397). -/
def State.loadClass (s : State) (env : StartEnv) (frost : Bool) (n : Nat) : State :=
  if s.glb.run = .halted then s
  else if frost && (List.range 4).all (s.resumed env) then s
  else match (s.imgClass n).select (env.copySel.getD n true) (env.copySpare.getD n true) with
    | some c => s.setClass n c
    | none => s.noImage n

/-! ### Step 4: the random number service (R203, R204, Table 9.6) -/

/-- The start-up test of a source over the raw bits of its attempts, by Table 9.2, up to the first that passes: the test the
last attempt failed (0 where it passed), and the source with the run of bits it leaves. -/
def startTest (v : Source) (blocks : List Bytes) : Nat × Source :=
  blocks.foldl (fun a b => if a.1 = 0 then a else healthTest a.2 b) (1, { v with repRun := 0 })

/-- A source's start-up test: ACTIVE unless four attempts fail, which bench it. -/
def State.startSource (s : State) (env : StartEnv) (n : Nat) : State :=
  let (f, v) := startTest (s.src n) (env.srcBlocks.getD n [])
  if f = 0 then s.setSrc n { v with st := .active, retries := 0, consec := 0 }
  else
    let v1 : Source :=
      { v with
        st := .benched, failtest := f, benchCnt := satAdd 32 v.benchCnt 1, benchEnd := s.tick + 64
        retries := 0, consec := 0 }
    ((s.setSrc n v1).raise .rng 17).record 0x0701 3 (srcSource n) (toLE 1 n ++ toLE 1 v1.failtest ++ toLE 1 v.trim)

/-- Why a start of the service fails (R204): 1 SOSC, 2 conditioner, 3 fewer than five sources, 4 no instance passed, in the
numbering of Table 20.11. -/
def rngStartCause (s : State) (env : StartEnv) : Option Nat :=
  let ok := fun (l : List Nat) => l.any fun n => env.kat.inst.getD n true
  if env.soscKhz < 12000 || 20000 < env.soscKhz then some 1
  else if !env.kat.conditioner then some 2
  else if ((List.range 8).filter fun n => (startTest (s.src n) (env.srcBlocks.getD n [])).1 = 0).length < 5 then some 3
  else if !ok [0, 1, 2, 3] || !ok [4, 5, 6, 7] then some 4
  else none

/-- A failed attempt (R204): repeated after 64 ticks; the first of a start writes an ALARM record, later ones count in its
REPEAT field. -/
def State.rngStartFails (s : State) (c : Nat) : State :=
  let s1 : State := { s with rng := { s.rng with startFailed := true, startRetry := s.tick + 64 } }
  let s2 :=
    if s.rng.startFailed then
      let last := (s.led.recs.filter fun r => r.typ = 0x0708).foldl (fun a r => Nat.max a r.seq) 0
      let again := fun (r : LedRec) =>
        if r.typ = 0x0708 && r.seq = last then
          { r with rep := satAdd 16 r.rep 1, lastDelta := (s.tick - r.optime) % 2 ^ 32 }
        else r
      { s1 with led := { s1.led with recs := s1.led.recs.map again } }
    else s1.record 0x0708 4 0 (toLE 1 c)
  s2.setCause c

/-- Step 3 of Table 9.6: the known-answer tests of the conditioner and of each instance (R208). One that fails is recorded;
a failing instance reads FAULT (R199). KAT_STAT shows the cycle. -/
def State.rngTests (s : State) (kat : KatRun) : State :=
  let s1 := if kat.conditioner then s else s.katFail 8
  let bad := (List.range 8).filter fun n => !kat.inst.getD n true
  let s2 := bad.foldl (fun a n => ((a.uninst n .fault).katFail n).raise .rng 19) s1
  let part := if kat.conditioner then bad.headD 15 else 8
  { s2 with rng := { s2.rng with
      condFailed := !kat.conditioner, katRes := if part = 15 then 1 else 2, katPart := part, katTick := s2.tick
      nextCycle := s2.tick + 5529600 } }

/-- The start of the service: the SOSC, the tests, the sources, the pool's first words, the instances (Table 9.6). It fails at
the first step that R204 names. -/
def State.rngStart (s : State) (env : StartEnv) : State × Bool :=
  let bad : Bool := env.soscKhz < 12000 || 20000 < env.soscKhz
  let s0 := { s with rng := { s.rng with soscKhz := env.soscKhz, soscErr := bad } }.rngTests env.kat
  let s1 := if bad || !env.kat.conditioner then s0 else (List.range 8).foldl (fun a n => a.startSource env n) s0
  match rngStartCause s env with
  | some c => (s1.rngStartFails c, false)
  | none =>
    let s2 : State := { s1 with rng := { s1.rng with startFailed := false, pool := env.words } }
    let pass := (List.range 8).filter fun n => env.kat.inst.getD n true
    let s3 := pass.foldl (fun a n => (a.uninst n .testing).instantiate n) s2
    let s4 : State := { s3 with rng := { s3.rng with es := .healthy, intStopNoted := false } }
    ((if s.rng.es = .healthy then s4 else s4.raise .rng 16), true)

/-! ### Steps 7 to 9 -/

/-- Step 7: every engine reads READY, or FAULT with the class of a failed self-test (R33, Table 19.3); a quad Keccak unit, which
has no page, takes no job where it failed. -/
def State.testEngines (s : State) (env : StartEnv) : State :=
  let ready := fun (a : State) (p : Page) => a.setHd p { a.hd p with st := .ready }
  let bad := fun (a : State) (p : Page) (n : Nat) => (a.setHd p { a.hd p with st := .fault, fclass := 5 }).record 0x0602 4 (blockSrc p) (toLE 1 n ++ toLE 1 5)
  let s1 := (List.finRange 4).foldl (fun a n => ready a (.zl n)) s
  let s2 := (List.finRange 96).foldl (fun a n => if env.tileFail.contains n then bad a (.pkt n) n.val else ready a (.pkt n)) s1
  let s3 := (List.finRange 128).foldl (fun a n =>
    if env.pairFail.contains ⟨n.val / 2, by omega⟩ then bad a (.scl n) n.val else ready a (.scl n)) s2
  env.keccakFail.foldl (fun a q =>
    ({ a with eng := { a.eng with keccakBad := a.eng.keccakBad ++ [q.val] } }).record 0x0602 4 (srcTile (4 * q.val))
      (toLE 1 q.val ++ toLE 1 5)) s3

/-- Records lost with the supplies (R401): those of a buffer that no flush emptied, and those that a flush cut short did
not stage. -/
def State.lostRecs (s : State) (env : StartEnv) : List LedRec :=
  s.led.recs.filter fun r =>
    r.place = .buffer || (r.place = .staging && s.pwr.reset = .powerOn && r.pcc != s.glb.pcc &&
      (match env.lost with | some (a, b) => a ≤ r.seq && r.seq ≤ b | none => false))

/-- SEQ and D of the region's last committed record, as the flash device gives them at a start (R379). -/
def State.regionLast (s : State) (env : StartEnv) : Option Nat × Bytes :=
  match env.region with
  | some (q, d) => (some q, d)
  | none => match topRec s.led.region with
    | some r => (some r.seq, r.firstDig)
    | none => (none, [])

/-- Step 8 (R379, R401): lost SEQs are counted and recorded, staged records committed with STAGED set, the region checked. -/
def State.startLedger (s : State) (env : StartEnv) : State :=
  let lost := s.lostRecs env
  let keep := s.led.recs.filter fun r => !lost.any fun x => x.seq = r.seq
  let s1 : State := { s with led := { s.led with recs := shutAll s.tick keep, drop := s.led.drop.modify 5 (satAdd 32 · lost.length) } }
  let s1c := s1.commitAll (s1.led.at_ .staging) 2
  let s2 : State := { s1c with led := { s1c.led with flushing := false }.findCp }
  let found := s2.regionLast env
  let s3 : State :=
    if found = (s2.led.committedSeq, s2.led.committedD) then s2
    else
      let s3 : State := { s2 with led := { s2.led with regionBad := true, chainRestart := true, headD := s2.led.committedD } }
      s3.record 0x0102 4 0 (toLE 8 (s2.led.committedSeq.getD 0) ++ toLE 8 (found.1.getD 0))
  match lost with
  | [] => s3
  | r :: _ =>
    let last := lost.foldl (fun a x => Nat.max a x.seq) r.seq
    let first := lost.foldl (fun a x => Nat.min a x.seq) r.seq
    ({ s3 with pwr := { s3.pwr with unwarned := satAdd 16 s3.pwr.unwarned 1 } }).record 0x0105 4 0 (toLE 8 first ++ toLE 8 last)

/-- A copy of the archive with the pages named taken from the other copy. -/
def pagesFrom (pages : List Nat) (bad good : NMap ArchRec) : NMap ArchRec :=
  (good.filter fun x => pages.contains x.2.page).foldl (fun m x => NMap.set m x.1 x.2) (bad.filter fun x => !pages.contains x.2.page)

/-- Step 9 (R244): a page whose copy does not match its digest is restored from the other copy; pages whose two copies both
fail are erased in both and counted, an ALARM record each. -/
def State.startArchive (s : State) (env : StartEnv) : State :=
  let both := env.pagesBadA.filter env.pagesBadB.contains
  let onA := (env.pagesBadA.filter fun p => !env.pagesBadB.contains p).map Fin.val
  let onB := (env.pagesBadB.filter fun p => !env.pagesBadA.contains p).map Fin.val
  let s1 := if onA.isEmpty then s else s.archA onA (pagesFrom onA s.ks.archive s.ks.archiveB)
  let s2 := if onB.isEmpty then s1 else s1.archB onB (pagesFrom onB s1.ks.archiveB s1.ks.archive)
  both.foldl (fun a p =>
    let a1 := a.archSet [p.val] fun m => m.filter fun x => x.2.page != p.val
    ({ a1 with ks := { a1.ks with archLost := satAdd 32 a1.ks.archLost 1 } }).record 0x0406 4 0 (toLE 2 p.val)) s2

/-! ### Step 10 -/

/-- Slice 0 as every start gives it (R265). -/
def managerSlice : Slice :=
  { st := .active, alloc := { rings := 64, vecCount := 16, staging := 16, weight := 16 }, weight := 16
    rings := (List.range 64).map fun i => (i, { gid := i }) }

/-- A core as a start leaves it. -/
def State.startCore (s : State) (n : Nat) : Core :=
  let c := s.imgClass (if n < 4 then 0 else 1)
  { running := true, parts := if n < 4 then 0 else (Config.coreParts n).toNat, fwVer := c.sel.ver, compat := c.sel.compat }

/-- The record of a start by its class (Table 17.4): none where another record stands for it. -/
def State.startRec (s : State) : State :=
  let c := toLE 1 s.pwr.reset.code ++ toLE 1 s.pwr.resetCause
  match s.pwr.reset with
  | .powerOn | .frostExit => s.record 0x0D01 1 0 c
  | .system | .powerFail => s.record 0x0D01 2 0 c
  | .watchdog | .tamper | .lifeCycle => s

/-- The runs of pages of a range, first and last, that no page of owner POT interrupts (R332). -/
def State.offPot (s : State) (lo hi : Nat) : List (Nat × Nat) :=
  (List.range (hi + 1 - lo)).foldl (fun l i =>
    if (s.potOf (lo + i)).owner = 4 then l
    else match l.getLast? with
      | some r => if r.2 + 1 = lo + i then l.dropLast ++ [(r.1, lo + i)] else l ++ [(lo + i, lo + i)]
      | none => [(lo + i, lo + i)]) []

/-- A debug grant opens (R358): its range, but for the POT's own pages, in the debug port's MPU entries (R332), as far as these
reach; a NOTICE record. -/
def State.openGrant (s : State) (g : Grant) : State :=
  let key := g.rangeKey * 2 ^ 42
  let e := fun (r : Nat × Nat) =>
    ({ base := key + r.1 * 4096, limit := key + r.2 * 4096, r := bit g.rangeAcc 0, w := bit g.rangeAcc 1, valid := true } : MpuEntry)
  let none_ := g.rangeBase = 0 && g.rangeLast = 0
  let s0 :=
    if none_ || !bit g.scope 1 then s
    else s.debugEntries ((List.range 32).zip ((s.offPot (g.rangeBase / 4096) (g.rangeLast / 4096)).map e))
  let s1 : State := { s0 with lcs := { s.lcs with grant := some { g with tOpen := s.tick }, grantStaged := none } }
  s1.record 0x0A04 2 0 (toLE 1 g.scope ++ toLE 4 g.duration ++ g.keyDigest.take 8)

/-- Step 10: READY, slice 0 ACTIVE, the engines' microcode and the cores' images as loaded, the start's record. -/
def State.startReady (s : State) (env : StartEnv) : State :=
  let s1 : State :=
    { s with
      glb := { s.glb with run := .ready }
      slices := NMap.set s.slices 0 managerSlice
      svc :=
        { s.svc with
          cores := (List.range 16).map fun n => (n, s.startCore n)
          tileVer := (List.range 96).map fun n => (n, (s.imgClass 2).sel.ver)
          laneVer := (List.range 64).map fun n => (n, (s.imgClass 3).sel.ver)
          started := s.svc.classes.map fun c => c.sel.digest }
      clu := { s.clu with headHb := s.tick }
      tmp := { s.tmp with readySince := true }
      pwr := { s.pwr with configUp := true } }
  let s2 := ((s1.stagingTo 0 16).reRun.startRec).setCause (if !env.port0 then 0x22 else if !env.port1 then 0x23 else 0)
  match s2.lcs.grantStaged with
  | some g => s2.openGrant g
  | none => s2

/-! ### The sequence -/

/-- Steps 6 to 10. -/
def State.startFrom6 (s : State) (env : StartEnv) (frost : Bool) : State :=
  let s1 := [1, 2, 3].foldl (fun a n => a.loadClass env frost n) s
  if s1.glb.run = .halted then s1
  else
    let s2 := ((s1.stepDone 6).testEngines env).stepDone 7
    let s3 := ((s2.startLedger env).stepDone 8).startArchive env
    ((s3.stepDone 9).startReady env).stepDone 10

/-- In OWNED a start that finds no storage root draws it from instances 0 to 3, and clears the fixed-field and the blob serial
counter (R346). -/
def State.drawRoot (s : State) : State :=
  if s.lcsCode != 3 || !s.vault.storageRoot.isEmpty then s
  else match s.intRequest .ok with
    | (a, .got d) => { a with vault := { a.vault with storageRoot := d.take 32, fixedCtr := 0, blobSerial := 0 } }
    | _ => s

/-- Step 5 and what follows (R432): the memory keys and the mesh patterns are drawn, DRAM trains; where a channel fails the
step is retried after 64 ticks. -/
def State.startFrom5 (s : State) (env : StartEnv) (frost : Bool) : State :=
  let s0 : State := { s with pwr := { s.pwr with trainRetry := s.tick + 64 } }
  if !env.dram0 then s0.setCause 0x20
  else if env.gib1 != 0 && !env.dram1 then s0.setCause 0x21
  else
    let act := if s.mem.keyIdMode then List.range 64 else [0]
    let s1 : State :=
      { s with
        mem := { s.mem with act := act, ch0 := env.gib0, ch1 := env.gib1, reserve := (List.range 12).map (· + 52) }
        ks := { s.ks with
          segs := (List.range 16).map fun n => ({ keyId := if s.mem.keyIdMode then n + 1 else 0 } : Segment)
          spareKeyId := if s.mem.keyIdMode then 17 else 0 } }
    let s2 : State := match s1.intRequest .ok with
      | (a, .got d) => { a with mem := { a.mem with keyDraw := d, rekeyed := [] } }
      | _ => s1
    (s2.drawRoot.stepDone 5).startFrom6 env frost

/-- Step 4 and what follows. -/
def State.startFrom4 (s : State) (env : StartEnv) (frost : Bool) : State :=
  match s.rngStart env with
  | (s1, true) => (s1.stepDone 4).startFrom5 env frost
  | (s1, false) => s1

/-- Whether a start goes on as an exit from Frost whose images are the ones last selected (R397). -/
def State.frostStart (s : State) : Bool := s.pwr.reset = .frostExit

/-- The whole sequence of Table 17.3. A SCRAP unit reads HALTED and goes no further (R347). -/
def State.startUp (s : State) (env : StartEnv) : State :=
  let s0 : State := { s with pwr := { s.pwr with configUp := true } }
  match s0.interrupted with
  | some (to_, n) => s0.finishTransition to_ n
  | none =>
  let marked := s0.tmp.stormMark || s0.tmp.resetMark
  let s1 := s0.startRecords
  let s2 : State :=
    { s1 with glb := { s1.glb with tamperReset := s1.glb.tamperReset || marked }, tmp := { s1.tmp with resetMark := false } }
  if s2.lcsCode = 7 then { s2 with glb := { s2.glb with run := .halted } }
  else
    let s3 := (s2.startConfig).stepDone 2
    let warn := fun (a : State) (n : Nat) => if a.resumed env n then a else a.record 0x0D03 3 0 (toLE 1 n)
    let s4 := if s.frostStart then (List.range 4).foldl warn s3 else s3
    let s5 := s4.loadClass env s.frostStart 0
    if s5.glb.run = .halted then s5 else (s5.stepDone 3).startFrom4 env s.frostStart

/-- COLD_START (R402): with supplies in range, PFW_N high and the reset released. Supplies that had fallen make it a
POWER_ON start; PCC counts it (R399). -/
def coldStartBody (env : StartEnv) (s : State) : State :=
  if s.pwr.pfwLow || s.isl.jtagHold || s.pwr.ladder = .frost then s
  else if !s.pwr.coreSupply || (s.glb.run = .starting && s.pwr.startStep = 0 && !s.rng.startFailed) then
    let s1 : State :=
      if s.pwr.coreSupply && s.pwr.reset != .powerOn then s
      else
        { s with
          glb := { s.glb with pcc := (s.glb.pcc + 1) % 2 ^ 32 }
          led := s.stagingFlush.led
          pwr := { s.pwr with coreSupply := true, reset := .powerOn, resetCause := 0 } }
    s1.startUp env
  else s

/-- COLD_START. -/
def execColdStart (env : StartEnv) (s : State) : Host.Outcome State Fault Refusal := .next (coldStartBody env s)

/-- DRAM_TRAINING_RETRY (R432): 64 ticks after a channel failed to train. -/
def trainRetryBody (env : StartEnv) (s : State) : State :=
  if s.glb.run = .starting && s.pwr.startStep = 4 && s.pwr.trainRetry ≤ s.tick && !s.mute then s.startFrom5 env s.frostStart
  else s

/-- DRAM_TRAINING_RETRY. -/
def execDramTrainingRetry (env : StartEnv) (s : State) : Host.Outcome State Fault Refusal := .next (trainRetryBody env s)

end Sys2Proof.Machine
end

