-- ==== Sys2Proof/Machine/LifeCycle.lean ====
section
/-! DEFINITION. Life-cycle transitions, owner configuration and field debug (R350 to R359): the commands of the LCS page. -/
namespace Sys2Proof.Machine
open Sys2Proof

/-! ### Signature blocks (Table 15.4) and roots (Table 15.1) -/

/-- A signature block. -/
structure SigBlock where
  role : Nat
  custodian : Bytes
  key : Bytes
  sig : Bytes
  deriving DecidableEq, Repr

/-- Blocks that fill a string exactly, at most `n` of them, their padding zero; `none` where they do not. -/
def sigBlocks : Nat → Bytes → Option (List SigBlock)
  | 0, b => if b.isEmpty then some [] else none
  | n + 1, b =>
    if b.isEmpty then some []
    else
      let pk := Bytes.le b 4 2
      let sg := Bytes.le b 6 2
      let len := (8 + pk + sg + 7) / 8 * 8
      if b.length < len || b.length < 8 || !(Bytes.sub b (8 + pk + sg) (len - (8 + pk + sg))).all (· = 0) then none
      else
        let one : SigBlock :=
          { role := Bytes.at b 0, custodian := Bytes.sub b 1 3 ++ zeros 1, key := Bytes.sub b 8 pk, sig := Bytes.sub b (8 + pk) sg }
        (sigBlocks n (b.drop len)).map fun l => one :: l

/-- The digest fused in OTP for a vendor root or the Maelmos key. -/
def otpRoot (n : Nat) : Bytes := (List.range 32).map (Config.rootDigest n)

/-- Whether an owner root is held and usable in the present state (Table 15.1; in REPAIR the three uses that reach a check
there are those it may sign). -/
def State.ownerUsable (s : State) : Bool := !s.lcs.ownerDigest.isEmpty && 3 ≤ s.lcsCode && s.lcsCode ≤ 5

/-- The digest that a role's key must hash to in the present state; `none` where its root is treated as absent (R345).
`newOwner` is OWNER_DIGEST of a request. -/
def State.roleDigest (s : State) (newOwner : Option Bytes) : Nat → Option Bytes
  | 1 => if s.lcsCode = 1 then some (otpRoot 0) else none
  | 2 => if s.lcsCode != 7 then some (otpRoot 1) else none
  | 3 => if s.ownerUsable then some s.lcs.ownerDigest else none
  | 4 => newOwner
  | 5 => if 2 ≤ s.lcsCode && s.lcsCode ≤ 5 then some (otpRoot 2) else none
  | _ => none

/-- Whether a block's key is its role's (row 8): the algorithm one of Table 11.3, ECDSA P-384 with SHA-384 for vendor roles
and MAELMOS, and the digest that of the root. -/
def State.blockKeyOk (s : State) (newOwner : Option Bytes) (b : SigBlock) : Bool :=
  custodianOk b.custodian && (b.role = 3 || b.role = 4 || Bytes.sub b.custodian 0 3 = [1, 2, 2]) &&
    s.roleDigest newOwner b.role = some (sha3_256 b.key)

/-- Whether a block's signature over a message passes (row 9). -/
def sigPasses (msg : Bytes) (b : SigBlock) : Bool :=
  let c := b.custodian
  b.key.length = pubLen plainView (Bytes.at c 0) (Bytes.at c 1) && b.sig.length = sigLen plainView (Bytes.at c 0) (Bytes.at c 1) &&
    (pkVerify (fixedCurve (Bytes.at c 1)) (tokenPar c) b.key b.sig [] msg).isNone

/-- Rows 8 and 9 of Table 15.5: some set of `need` is there among the roles, every block's key is its role's, every
signature passes. -/
def State.signersBad (s : State) (newOwner : Option Bytes) (need : List (List Nat)) (msg : Bytes) (l : List SigBlock) :
    Option (Nat × Nat) :=
  let roles := l.map SigBlock.role
  if !(need.any fun n => n.all fun r => roles.contains r) || !l.all (s.blockKeyOk newOwner) then some (cForeign, 8)
  else if !l.all (sigPasses msg) then some (cVerifyFail, 0x70)
  else none

/-- A transition refused by row 8 or 9: recorded at NOTICE with the roles involved (R351). -/
def State.signersRefuse (s : State) (l : List SigBlock) (code detail : Nat) : State :=
  (s.record 0x0A02 2 0 ((l.map fun b => toLE 1 b.role).flatten)).lcsEnd code detail

/-! ### The command interface (R347, R351) -/

/-- A write of GO to LCS_CMD: refused in SCRAP, and while a command runs. -/
def State.lcsGo (s : State) (f : State → State) : State :=
  s.onPage .lcs fun s =>
    if s.lcsCode = 7 then s.refuse .lcs cForbids 0x42
    else if s.lcs.cmd.st = 1 then s.refuse .lcs cForbids 1
    else f s

/-- LCS_REQ_LEN. -/
def State.lcsLen (s : State) : Nat := fld (s.rg .lcs 0x058) 0 15

/-- The one read of a request; row 1 of Table 15.5 where it fails. -/
def State.lcsRead (s : State) (req : HostRead) (f : Bytes → State → State) : State :=
  let s1 := s.emit (.read none (s.rgWide .lcs 0x050) s.lcsLen)
  match req with
  | .failed _ => s1.lcsEnd cBadAddr 0x13
  | .data d => f (Bytes.fit d s.lcsLen) s1

/-! ### TRANSITION (R346, R350 to R352, R354) -/

/-- The permitted transitions (Table 15.2): which roles sign, by alternatives. -/
def State.signers (s : State) (from_ to_ : Nat) (newOwner : Bytes) : Option (List (List Nat)) :=
  if to_ = 7 then some [[2], [3]]
  else match from_, to_ with
    | 0, 1 | 1, 2 => some [[2]]
    | 2, 3 => some [[2, 4]]
    | 3, 4 | 4, 5 => some [[3]]
    | 5, 3 => some (if s.lcs.ownerDigest.isEmpty || s.lcs.ownerDigest = newOwner then [[2, 4]] else [[2, 3, 4]])
    | _, _ => none

/-- Whether a transition needs a group 0 countersign. -/
def countersigned (from_ to_ : Nat) : Bool := (from_ = 3 && to_ = 4) || (from_ = 4 && to_ = 5)

/-- Row 2 of Table 15.5: the request's form; its signature blocks where it is good. -/
def requestForm (b : Bytes) : Option (List SigBlock) :=
  let n := Bytes.le b 0x0C 4
  if b.length < 80 || Bytes.le b 0 4 != 0x594C5A4C || Bytes.le b 4 2 != 1 || !(Bytes.sub b 9 3).all (· = 0) ||
      !(Bytes.sub b 0x40 16).all (· = 0) || n = 0 || 3 < n then none
  else match sigBlocks 3 (b.drop 80) with
    | some l => if l.length = n then some l else none
    | none => none

/-- Whether a request resubmits the transition that is pending (R354). -/
def State.resubmits (s : State) (b : Bytes) : Bool :=
  match s.openRec with
  | some (n, r) =>
    Bytes.at b 8 = n && Bytes.at b 6 = s.lcsCode && r.consistent (Bytes.at b 7) &&
      (s.signers (Bytes.at b 6) (Bytes.at b 7) (Bytes.sub b 0x20 32)).isSome
  | none => false

/-- OWNER_DIGEST of a request against the owner root held (Table 15.3), where TO is not OWNED. -/
def State.ownerField (s : State) (b : Bytes) : Bool :=
  Bytes.at b 7 = 3 || Bytes.sub b 0x20 32 = Bytes.fit s.lcs.ownerDigest 32

/-- Rows 3 to 7 of Table 15.5; `again` for a resubmission, which skips 5 to 7. -/
def State.transBad (s : State) (b : Bytes) (again : Bool) : Option (Nat × Nat) :=
  let from_ := Bytes.at b 6
  let to_ := Bytes.at b 7
  if s.lcs.pending && !again && to_ != 7 then some (cPending, 1)
  else if Bytes.sub b 0x10 16 != uidBytes then some (cForeign, 7)
  else if again then none
  else if from_ != s.lcsCode || (s.signers from_ to_ []).isNone then some (cForbids, 0x40)
  else if Bytes.at b 8 != (if to_ = 7 then 47 else s.nextRec) then some (cBadParam, 0x12)
  else if to_ != 7 && 46 < s.nextRec then some (cCounter, 0x20)
  else none

/-- Bench mode ends on every tile (R133); `bad` lists the words that a wipe finds non-zero (R137). -/
def State.benchEndAll (s : State) (bad : List (Fin 96 × Fin 16384)) : State :=
  (List.finRange 96).foldl (fun a t =>
    if (a.tile t.val).bench then a.benchLeave t ((bad.find? fun p => p.1 = t).map Prod.snd) else a) s

/-- Fetch stops on every ring (R67). -/
def State.stopAllRings (s : State) : State :=
  s.slices.foldl (fun a p => p.2.rings.foldl (fun x r => if r.2.st = .disabled then x else x.stopRing p.1 r.1) a) s

/-- Every tenant slice is destroyed (R278). -/
def State.destroyAll (s : State) : State :=
  s.tenants.foldl (fun a p =>
    let (a1, k) := (a.endSlice p.1).eraseSlice p.1
    a1.record 0x0303 2 (srcSlice p.1) (toLE 2 p.1 ++ toLE 4 k)) s

/-- Table 15.6, from the decision to the life-cycle reset; a SCRAP unit then reads HALTED and still enumerates (R347). -/
def State.carryOut (s : State) (b : Bytes) (slot : Option Nat) (wipe : List (Fin 96 × Fin 16384)) : State :=
  let from_ := Bytes.at b 6
  let to_ := Bytes.at b 7
  let n := Bytes.at b 8
  let s1 := ((((s.consume 0 slot 0).stopAllRings).benchEndAll wipe).closeGrant 5)
  let s2 := ({ s1 with lcs := { s1.lcs with staged := some (b.take 80 ++ sha3_256 (b.take 80)) } }).transRec from_ to_ n 1
  let s3 := if to_ = 5 then s2.destroyAll else s2
  let s4 := ((s3.commitTo from_ to_ n 2).lcsEnd cOK 0).takeReset .lifeCycle 0
  if to_ = 7 then { s4 with glb := { s4.glb with run := .halted }, pwr := { s4.pwr with configUp := true } } else s4

/-- TRANSITION on the request read (Table 15.5). -/
def State.transition (s : State) (b : Bytes) (wipe : List (Fin 96 × Fin 16384)) : State :=
  match requestForm b with
  | none => s.lcsEnd cBadParam 1
  | some l =>
    let again := s.lcs.pending && s.resubmits b
    match s.transBad b again with
    | some (c, d) => s.lcsEnd c d
    | none =>
      let from_ := Bytes.at b 6
      let to_ := Bytes.at b 7
      let digest := Bytes.sub b 0x20 32
      let bad := if s.ownerField b then
          s.signersBad (if to_ = 3 then some digest else none) ((s.signers from_ to_ digest).getD []) (b.take 80) l
        else some (cForeign, 8)
      match bad with
      | some (c, d) => s.signersRefuse l c d
      | none =>
        if again || !countersigned from_ to_ then s.carryOut b none wipe
        else match s.ownerAppr (s.rg .lcs 0x04C).toNat (sha3_256 (b.take 80)) with
          | .inl d => s.lcsEnd cQuorum d
          | .inr a => s.carryOut b (some a.slot) wipe

/-- LCS_CMD OP 1. -/
def transitionBody (req : HostRead) (wipe : List (Fin 96 × Fin 16384)) (s : State) : State :=
  s.lcsGo fun s => s.lcsRead req fun b s => s.transition b wipe

/-- TRANSITION. -/
def execTransition (req : TransRead) (s : State) : Host.Outcome State Fault Refusal :=
  .next (s.hostReq (.transition req) (transitionBody req.req req.wipeBad))

/-! ### Field debug (R356 to R359) -/

/-- The debug challenge's generate request: a nonce, live for 3,840 ticks from the decision; the command goes on while a
reseed waits for a pool word (R198). -/
def State.debugDraw (s : State) : State :=
  match s.intRequest .ok with
  | (s2, .got out) =>
    let l : LifeCycle :=
      { s2.lcs with nonce := out.take 32, nonceStart := s2.tick, nonceEnd := s2.tick + 3840, nonceLive := true }
    { s2 with lcs := l }.lcsEnd cOK 0
  | (_, .wait) => ({ s with lcs := { s.lcs with cmd := { st := 1 } } }).drawWait .debug
  | (s2, .refused ..) => s2.lcsEnd cEntropy 1

/-- LCS_CMD OP 2. -/
def dbgChallengeBody (s : State) : State :=
  s.lcsGo fun s => if s.lcs.pending then s.lcsEnd cPending 1 else s.debugDraw

/-- DEBUG_CHALLENGE. -/
def execDebugChallenge (s : State) : Host.Outcome State Fault Refusal := .next (s.hostReq .debugChallenge dbgChallengeBody)

/-- Whether the debug nonce is live now. -/
def State.nonceNow (s : State) : Bool := s.lcs.nonceLive && s.lcs.nonceStart ≤ s.tick && s.tick < s.lcs.nonceEnd

/-- The scopes of a state and the roles that grant them (Table 15.8). -/
def State.scopes (s : State) : Nat × List Nat × Bool :=
  match s.lcsCode with
  | 0 => (0xF, [], false)
  | 1 => (0xF, [1], false)
  | 2 => (7, [5], false)
  | 3 | 4 => (7, [5], true)
  | 5 => (7, if s.lcs.ownerDigest.isEmpty then [5] else [3, 5], false)
  | _ => (0, [], false)

/-- Row 2 on a debug grant: its signature blocks where its form is good. -/
def grantForm (b : Bytes) : Option (List SigBlock) :=
  if b.length < 96 || Bytes.le b 0 4 != 0x42445A4C || Bytes.le b 4 2 != 1 || 16 ≤ Bytes.at b 6 ||
      !(Bytes.sub b 0x52 14).all (· = 0) || Bytes.le b 0x3C 4 < 64 || 230400 < Bytes.le b 0x3C 4 || 4 ≤ Bytes.at b 0x50 then none
  else sigBlocks 3 (b.drop 96)

/-- A range that names a location outside DRAM, or that no 48-bit address spells (R358). -/
def State.rangeBad (s : State) (b : Bytes) : Bool :=
  let lo := Bytes.le b 0x40 8
  let hi := Bytes.le b 0x48 8
  (lo != 0 || hi != 0) &&
    (lo % 4096 != 0 || hi % 4096 != 0 || (s.mem.ch0 + s.mem.ch1) * 2 ^ 30 ≤ Nat.max lo hi || 64 ≤ Bytes.at b 0x51)

/-- The grant of a header; the Maelmos key's digest for its record. -/
def grantOf (b : Bytes) (l : List SigBlock) : Grant :=
  { scope := Bytes.at b 6, duration := Bytes.le b 0x3C 4, rangeBase := Bytes.le b 0x40 8, rangeLast := Bytes.le b 0x48 8
    rangeAcc := Bytes.at b 0x50, rangeKey := Bytes.at b 0x51
    keyDigest := (match l.find? fun x => x.role = 5 with | some x => sha3_256 x.key | none => zeros 32) }

/-- The grant takes effect: after a Squall where Table 15.8 asks for one, with a TAMPER record that names no sensor (0xFF is the
model's own), else at the decision (R358, R363). -/
def State.takeGrant (s : State) (g : Grant) : State :=
  let s1 : State := { s with lcs := { s.lcs with nonceLive := false } }
  if s.lcsCode = 4 && bit g.scope 1 then
    let s2 := ({ s1 with lcs := { s1.lcs with grantStaged := some g } }).stagingFlush.squallErase
    (s2.record 0x0B01 5 (srcSensor 0xFF) (toLE 1 0xFF ++ toLE 2 0)).takeReset .tamper 0
  else (s1.openGrant g).lcsEnd cOK 0

/-- DEBUG_OPEN on the grant read. -/
def State.debugOpen (s : State) (b : Bytes) : State :=
  match grantForm b with
  | none => s.lcsEnd cBadParam 1
  | some l =>
    let (mask, roles, cs) := s.scopes
    if Bytes.sub b 8 16 != uidBytes then s.lcsEnd cForeign 7
    else match s.signersBad none [roles] (b.take 96) l with
      | some (c, d) => s.lcsEnd c d
      | none =>
        match (if cs then (match s.ownerAppr (s.rg .lcs 0x04C).toNat (sha3_256 (b.take 96)) with
            | .inl d => Sum.inl d
            | .inr a => .inr (some a.slot)) else .inr none : Nat ⊕ Option Nat) with
        | .inl d => s.lcsEnd cQuorum d
        | .inr slot =>
          if Bytes.at b 7 != s.lcsCode || Bytes.le b 0x38 4 != s.glb.pcc || !s.nonceNow || Bytes.sub b 0x18 32 != s.lcs.nonce then
            s.lcsEnd cWindow 1
          else if Bytes.at b 6 &&& (15 - mask) != 0 || s.rangeBad b then s.lcsEnd cForbids 0x44
          else (s.consume 0 slot 0).takeGrant (grantOf b l)

/-- LCS_CMD OP 3. -/
def debugOpenBody (req : HostRead) (s : State) : State :=
  s.lcsGo fun s => if s.lcs.pending then s.lcsEnd cPending 1 else s.lcsRead req fun b s => s.debugOpen b

/-- DEBUG_OPEN. -/
def execDebugOpen (req : HostRead) (s : State) : Host.Outcome State Fault Refusal :=
  .next (s.hostReq (.debugOpen req) (debugOpenBody req))

/-- LCS_CMD OP 4; with no grant open it has nothing to close. -/
def debugCloseBody (s : State) : State :=
  s.lcsGo fun s => if s.lcs.pending then s.lcsEnd cPending 1 else (s.closeGrant 2).lcsEnd cOK 0

/-- DEBUG_CLOSE. -/
def execDebugClose (s : State) : Host.Outcome State Fault Refusal := .next (s.hostReq .debugClose debugCloseBody)

/-- DEBUG_GRANT_END (R359): the tick T_OPEN + DURATION. -/
def execDebugGrantEnd (s : State) : Host.Outcome State Fault Refusal :=
  .next (match s.lcs.grant with
    | some g => if s.linked && !s.mute && g.tOpen + g.duration ≤ s.tick then s.closeGrant 1 else s
    | none => s)

/-! ### Owner configuration (R355) -/

/-- Row 2 on a configuration: the group 0 record's length and the one signature block, where the form is good. -/
def configForm (b : Bytes) : Option (Bytes × Bytes × List SigBlock) :=
  let rc := (b.drop 48).take (32 + 40 * recN (b.drop 48))
  if b.length < 80 || Bytes.le b 0 4 != 0x464F5A4C || Bytes.le b 4 2 != 1 || Bytes.le b 6 2 != 0 || Bytes.le b 0x1D 3 != 0 then none
  else match sigBlocks 1 (b.drop (48 + rc.length)) with
    | some l => if l.length = 1 then some (b.take (48 + rc.length), rc, l) else none
    | none => none

/-- Fields outside their ranges, or a group 0 record that R248 does not admit: at its definition GVERSION is 1; beside a group 0
that stands, it is that group's own record again or a change of it. -/
def configRange (cur : Option Group) (b rc : Bytes) : Bool :=
  let v := Bytes.le rc 0x10 4
  let verBad : Bool := match cur with
    | none => v != 1
    | some g => v != g.gversion + 1 && !(v = g.gversion && sha3_256 rc = g.digest)
  let out := fun (v lo hi : Nat) => v < lo || hi < v
  4 ≤ Bytes.at b 0x0C || 2 ≤ Bytes.at b 0x0D || out (Bytes.le b 0x0E 2) 10 1000 || out (Bytes.le b 0x10 4) 256 65536 ||
    ((List.range 16).any fun i => Bytes.le b 0x14 4 / 4 ^ i % 4 = 3) || out (Bytes.at b 0x1A) 1 125 || 16 ≤ Bytes.at b 0x1B ||
    Bytes.at b 0x1C = 0 || recordBad rc 0 0 true false || verBad

/-- The configuration of a block. -/
def configOf (b : Bytes) : OwnerCfg :=
  { version := Bytes.le b 8 4, mem := Bytes.at b 0x0C, tmpLock := bit (Bytes.at b 0x0D) 0, wdogMs := Bytes.le b 0x0E 2
    reseedLimit := Bytes.le b 0x10 4, tmpResp := Bytes.le b 0x14 4, tmpEn := Bytes.le b 0x18 2, meshPeriod := Bytes.at b 0x1A
    swPol := Bytes.at b 0x1B, swDebounce := Bytes.at b 0x1C }

/-- CONFIG on the block read. -/
def State.configure (s : State) (b : Bytes) : State :=
  match configForm b with
  | none => s.lcsEnd cBadParam 1
  | some (msg, rc, l) =>
    let cur := s.lcs.cfgNext.getD s.lcs.cfg
    if Bytes.sub b 0x20 16 != uidBytes then s.lcsEnd cForeign 7
    else match s.signersBad none [[3]] msg l with
      | some (c, d) => s.lcsEnd c d
      | none =>
        if Bytes.le b 8 4 ≤ cur.version then s.lcsEnd cBadParam 0x12
        else if configRange (NMap.find s.vault.groups 0) b rc then s.lcsEnd cBadParam 2
        else if bit cur.mem 1 && bit (Bytes.at b 0x0C) 0 != bit cur.mem 0 then s.lcsEnd cForbids 0x43
        else
          let s1 : State := { s with lcs := { s.lcs with cfgNext := some (configOf b), groupNext := some (groupOf rc) } }
          (s1.record 0x0A05 2 0 (toLE 4 (Bytes.le b 8 4))).lcsEnd cOK 0

/-- LCS_CMD OP 5: in OWNED only, and not while a transition is pending (R354). -/
def configBody (req : HostRead) (s : State) : State :=
  s.lcsGo fun s =>
    if s.lcs.pending then s.lcsEnd cPending 1
    else if s.lcsCode != 3 then s.lcsEnd cForbids 0x41
    else s.lcsRead req fun b s => s.configure b

/-- CONFIG. -/
def execConfig (req : HostRead) (s : State) : Host.Outcome State Fault Refusal := .next (s.hostReq (.config req) (configBody req))

end Sys2Proof.Machine
end

