-- ==== Sys2Proof/Machine/Worlds.lean ====
section
/-! DEFINITION. Partitions, the secure watchdog, MPU entries and the debug access port (chapter 14). -/
namespace Sys2Proof.Machine
open Sys2Proof

/-! ### Partitions (R317, R318) -/

/-- A control core. -/
def State.core (s : State) (n : Nat) : Core := NMap.getD s.svc.cores n {}

/-- A control core replaced. -/
def State.setCore (s : State) (n : Nat) (c : Core) : State :=
  { s with svc := { s.svc with cores := NMap.set s.svc.cores n c } }

/-- The input a partition parses ends as R318 says; `none` where no such input is being parsed. A command block's or
request's event stands for the GO whose parse was stopped. -/
def State.stopParse (s : State) (i : ParsedInput) : Option State :=
  let stop := fun (ops : List Nat) (id : Nat) =>
    match s.job id with
    | some j => if j.phase = .bound && ops.contains (eOp j.entry) then some (s.abortJob j 0x21) else none
    | none => none
  match i with
  | .rldOrRecord id => (match s.job id with
    | some j => if eOp j.entry = 0x0508 && eB j.entry 0x38 != 0 then none else stop [0x0201, 0x0203, 0x0508] id
    | none => none)
  | .quorum id => stop [0x0701, 0x0702] id
  | .sliceBlock => if s.slm.cmd.st = 1 then none else some (s.slmEnd cAborted 0x21 0)
  | .clusterRequest => if s.clu.cmd.st = 1 then none else some (s.cluEnd cAborted 0x21)
  | .lifeCycle => if s.lcs.cmd.st = 1 then none else some (s.lcsEnd cAborted 0x21)
  | .certificate p =>
    let z := s.zlp p.val
    if z.st = .auth || z.st = .rekey then some (s.authFails p { uid := z.peerUid }) else none
  | .framePayload p => if (s.zlp p.val).up then some (s.nak p.val (s.zlp p.val)) else none

/-- A partition is stopped (R318): its input ends, it restarts with zeroed pages, the core counts it, a WARNING record. -/
def State.stopPart (s : State) (core part : Nat) (i : ParsedInput) : State :=
  if !s.running || !s.linked || s.mute || !(s.core core).running || core < 4 then s
  else match s.stopParse i with
    | none => s
    | some s1 =>
      let c := s1.core core
      let s2 := s1.zeroLines fun n => (s1.potOf (n / 64)).owner = 0x10 + part
      (s2.setCore core { c with faults := satAdd 32 c.faults 1 }).record 0x0804 3 (srcPart part)
        (toLE 1 part ++ toLE 1 i.code)

/-- A partition faults: by its second-stage translation, or by an access of its own, at level 0 on its core, which the gates
judge; denied, it counts at the core's MPU (R328), admitted it is no fault. -/
def partFaultBody (core : Fin 16) (part : Fin 32) (f : PartFault) (s : State) : State :=
  match f.access with
  | none => s.stopPart core.val part.val f.inp
  | some (k, a) =>
    if !s.running || !s.linked || s.mute || !(s.core core.val).running || core.val < 4 || (s.stopParse f.inp).isNone then s
    else match s.gateCause { master := ⟨core.val, by omega⟩, kind := k, addr := a, part := some part } with
      | some c => (s.deny core.val (k = .write) c 0 a.toNat).stopPart core.val part.val f.inp
      | none => s

/-- PARTITION_FAULT (R318): a translation fault, or a denial of the partition's own access. -/
def execPartitionFault (core : Fin 16) (part : Fin 32) (inp : PartFault) (s : State) : Host.Outcome State Fault Refusal :=
  .next (partFaultBody core part inp s)

/-- PARTITION_TIME_LIMIT (R318): more than 10 ms of real time on one input. -/
def execPartitionTimeLimit (core : Fin 16) (part : Fin 32) (i : ParsedInput) (s : State) : Host.Outcome State Fault Refusal :=
  .next (s.stopPart core.val part.val i)

/-! ### The secure watchdog (R322) -/

/-- Whether the watchdog runs for a secure core: not while the core complex is stopped (R394), nor while the core reads
SERVICING, for up to 1,000 ms, which are 64 ticks (R6, R410). A core halted by a debugger kicks no more than one that hangs. -/
def State.wdogRuns (s : State) (n : Nat) : Bool :=
  s.linked && !s.mute && s.pwr.ladder != .calm && s.pwr.ladder != .fog && ((s.core n).running || (s.core n).halted) &&
    !((s.core n).servicing && s.tick < (s.core n).svcTick + 64)

/-- The watchdog expires for a core: flush, the ALARM record staged, a watchdog reset, CORE_WDOG_CNT. -/
def wdogBody (n : Nat) (s : State) : State :=
  if !s.wdogRuns n then s
  else
    let s1 := s.stagingFlush.record 0x0D02 4 (srcCore n) (toLE 1 n ++ toLE 2 s.svc.wdogMs)
    let s2 := s1.takeReset .watchdog 0
    { s2 with svc := { s2.svc with wdogCnt := satAdd 16 s2.svc.wdogCnt 1 } }

/-- WATCHDOG_EXPIRY. -/
def execWatchdogExpiry (core : Fin 4) (s : State) : Host.Outcome State Fault Refusal := .next (wdogBody core.val s)

/-- CORE_WDOG.PERIOD. -/
def wdogWriteBody (v : BitVec 32) (s : State) : State :=
  s.onPage (.core 0) fun s =>
    let n := fld v 0 10
    if s.lcsCode != 3 then s.refuse (.core 0) cForbids 1
    else if n < 10 || 1000 < n then s.refuse (.core 0) cBadParam 1
    else if n = s.svc.wdogMs then s
    else { s with svc := { s.svc with wdogMs := n } }.bumpGen (.core 0)

/-- CORE_WDOG_WRITE. -/
def execCoreWdogWrite (v : BitVec 32) (s : State) : Host.Outcome State Fault Refusal :=
  .next (s.hostReq (.coreWdogWrite v) (wdogWriteBody v))

/-! ### MPU entries (R326, R329, R330) -/

/-- MPU_SYNC (R330): GO sets PENDING. -/
def execMpuSync (master : Fin 53) (s : State) : Host.Outcome State Fault Refusal :=
  .next (if s.linked then s.setMpu master.val { s.mpuOf master.val with pending := true } else s)

/-- MPU_SYNC_DONE (R330): no access checked under older rules is in flight any longer. -/
def execMpuSyncDone (master : Fin 53) (s : State) : Host.Outcome State Fault Refusal :=
  .next (if s.linked then s.setMpu master.val { s.mpuOf master.val with pending := false } else s)

/-- BASE as two registers hold it: a page's full 48-bit address. -/
def mpuPage (lo hi : Nat) : Nat := hi % 2 ^ 16 * 2 ^ 32 + lo % 2 ^ 32 / 4096 * 4096

/-- The entry that the four registers spell (Table 14.7). -/
def mpuEntryOf (baseLo baseHi limitLo attr : BitVec 32) : MpuEntry :=
  { base := mpuPage baseLo.toNat baseHi.toNat, limit := mpuPage limitLo.toNat (fld attr 0 16)
    r := attr.getLsbD 16, w := attr.getLsbD 17, x := attr.getLsbD 18, keyIdAny := attr.getLsbD 19, levels := fld attr 20 4
    lock := attr.getLsbD 24, valid := attr.getLsbD 31 }

/-- Whether an entry keeps off what the debug port's entries never cover (R332): the MPU pages and core 0's page, which has
CORE_WDOG, in the internal view; sealed ranges; DRAM pages of owner POT. -/
def State.debugClear (s : State) (e : MpuEntry) : Bool :=
  let lo := e.base % 2 ^ 42
  let hi := e.limit % 2 ^ 42 + 0xFFF
  let off := fun (b n : Nat) => hi < b || b + n ≤ lo
  off 0x3F000310000 0x35000 && off 0x3F000300000 0x1000 && off 0x30000000000 0x10000 && off 0x30100000000 0x400000 &&
    off 0x30200000000 0x100000 && off 0x30300000000 0x100000000 &&
    (List.range (hi / 4096 + 1 - lo / 4096)).all fun i =>
      !s.potGoverns (lo + 4096 * i) || (s.potOf (lo / 4096 + i)).owner != 4

/-- What the secure kernel may give the debug port (R332, R356, R358): nothing, or pages of the open grant's range; in BLANK,
where every scope is open with no grant, any it may have. -/
def State.debugEntryOk (s : State) (e : MpuEntry) : Bool :=
  !e.valid || s.debugClear e && (s.lcsCode = 0 && !e.x ||
    match s.grantNow with
    | some g =>
      bit g.scope 1 && !e.keyIdAny && g.rangeKey * 2 ^ 42 + g.rangeBase ≤ e.base &&
        e.limit ≤ g.rangeKey * 2 ^ 42 + g.rangeLast && (g.rangeBase != 0 || g.rangeLast != 0) &&
        (!e.r || bit g.rangeAcc 0) && (!e.w || bit g.rangeAcc 1) && !e.x
    | none => false)

/-- The four registers of an entry are written, ATTR last, which applies the whole entry (R326); a locked entry refuses
(R329). Each of the four that changes counts in PG_GEN (R37). -/
def entAttrBody (m : Fin 53) (e : Nat) (baseLo baseHi limitLo attr : BitVec 32) (s : State) : State :=
  let u := s.mpuOf m.val
  let old := NMap.getD u.ent e {}
  let new := mpuEntryOf baseLo baseHi limitLo attr
  if !s.linked || (m.val = 48 && !s.debugEntryOk new) then s
  else if old.lock then s.refuse (.mpu m) cForbids 0x31
  else
    let u1 : Mpu := { u with ent := NMap.set u.ent e new, heldBase := NMap.del u.heldBase e, heldLimit := NMap.del u.heldLimit e }
    (s.setMpu m.val u1).bumpBy (.mpu m) (entryDiff old new)

/-- ENT_ATTR_WRITE. -/
def execEntAttrWrite (master : Fin 53) (e : Fin 32) (baseLo baseHi limitLo attr : BitVec 32) (s : State) :
    Host.Outcome State Fault Refusal :=
  .next (entAttrBody master e.val baseLo baseHi limitLo attr s)

/-! ### The debug access port (R332, R356) -/

/-- The scope a debugger needs for what it does to a core (R356); none gives it the registers of a secure core. -/
def coreScope (n : Fin 16) : CoreOp → Option Nat
  | .pc | .counters => some (if n.val < 4 then 2 else 0)
  | .halt | .resume | .step => some (if n.val < 4 then 3 else 1)
  | .reg _ => if n.val < 4 then none else some 1

/-- Whether a scope is open: every one in BLANK, from reset; else those of the open grant (Table 15.8). -/
def State.scopeOpen (s : State) (b : Nat) : Bool :=
  s.lcsCode = 0 || match s.grantNow with | some g => bit g.scope b | none => false

/-- The answer to a debug access that is refused: zeros with an error response for a read, nothing for a write (R332). -/
def State.debugRefuse (s : State) (write : Bool) (n : Nat) : State := if write then s else s.emit (.debugRead (zeros n) true)

/-- What a debugger does to a core (R356): halting and resuming change CORE_STAT; what registers, counters and the program
counter hold, and what one step of firmware changes, is not described. -/
def debugCore (n : Fin 16) (op : CoreOp) (write : Bool) (len : Nat) (s : State) : State :=
  let c := s.core n.val
  let answer := if write then s else let (f, s1) := s.free len; s1.emit (.debugRead f)
  match coreScope n op with
  | none => s.debugRefuse write len
  | some b =>
    if !s.scopeOpen b then s.debugRefuse write len
    else match op with
      | .halt => if c.running && !c.servicing then s.setCore n.val { c with running := false, halted := true } else s
      | .resume => if c.halted then s.setCore n.val { c with running := true, halted := false } else s
      | .step => s
      | .reg _ => if c.halted then answer else s.debugRefuse write len
      | .pc | .counters => answer

/-- The first gate that refuses a debug access, by Table 14.6's cause. -/
def State.debugCause (s : State) (a : Nat) (write : Bool) : Option Nat :=
  s.gateCause { master := 48, kind := if write then .write else .read, addr := BitVec.ofNat 48 a }

/-- A debug access to memory (R332): blocked, a read returns zeros with an error response and a write is dropped, and both
follow R328; else it passes the inline engine. -/
def debugMem (a : BitVec 48) (write : Bool) (data : Bytes) (s : State) : State :=
  match s.access { master := 48, kind := if write then .write else .read, addr := a } data [] with
  | (s1, .served o) => if write then s1 else s1.emit (.debugRead o)
  | (s1, .denied _) => s1.debugRefuse write data.length
  | (s1, .failed _) => if write then s1.emit .debugError else s1.debugRefuse false data.length

/-- A debug access, with the test access port's DEBUG instruction loaded (R437). -/
def debugBody (t : DebugTarget) (write : Bool) (data : Bytes) (s : State) : State :=
  if s.isl.jtagIr != 0x20 || !s.linked then s
  else match t with
    | .mem a => debugMem a write data s
    | .core n op => debugCore n op write data.length s

/-- DEBUG_PORT_ACCESS. -/
def execDebugPortAccess (addr : DebugTarget) (write : Bool) (data : Bytes) (s : State) : Host.Outcome State Fault Refusal :=
  .next (debugBody addr write data s)

end Sys2Proof.Machine
end

