-- ==== Sys2Proof/Machine/Servicing.lean ====
section
/-! DEFINITION. Servicing while running (chapter 18): images installed, activated, committed, abandoned; KeyIDs rotated. -/
namespace Sys2Proof.Machine
open Sys2Proof

/-! ### The command interface (R405) -/

/-- A servicing command's outcome in CORE_SVC_RES. -/
def State.svcEnd (s : State) (code detail : Nat) : State :=
  { s with svc := { s.svc with cmd := { st := 2, code := code, detail := detail } } }

/-- A write of GO to CORE_SVC_CMD: refused while a command runs. -/
def State.svcGo (s : State) (f : State → State) : State :=
  s.onPage (.core 0) fun s => if s.svc.cmd.st = 1 then s.refuse (.core 0) cForbids 1 else f s

/-- CORE_SVC_ARG.CLASS. -/
def State.argClass (s : State) : Nat := fld (s.rg (.core 0) 0x104) 8 2
/-- CORE_SVC_ARG.TARGET. -/
def State.argTarget (s : State) : Nat := fld (s.rg (.core 0) 0x104) 0 6

/-- The versions that a class's instances run: cores of its world, tiles, lane pairs. -/
def State.versions (s : State) (c : Nat) : List Nat :=
  match c with
  | 0 => (List.range 4).map fun n => (s.core n).fwVer
  | 1 => ((List.range 12).map (· + 4)).map fun n => (s.core n).fwVer
  | 2 => (List.range 96).map fun n => NMap.getD s.svc.tileVer n 0
  | _ => (List.range 64).map fun n => NMap.getD s.svc.laneVer n 0

/-- MIXED of a class: its instances run different versions (Table 18.1). -/
def State.mixed (s : State) (c : Nat) : Bool :=
  match s.versions c with
  | [] => false
  | v :: l => l.any (· != v)

/-- A record of INSTALL, COMMIT or ABANDON: class, IMG_VER, ARB or counter. -/
def State.svcRec (s : State) (c ver arb : Nat) : State := s.record 0x0E01 2 0 (toLE 1 c ++ toLE 2 ver ++ toLE 1 arb)

/-! ### INSTALL (R406 to R408) -/

/-- Row 2 of Table 18.3; an image is at most 8,388,608 octets long (Table 18.1). -/
def imageBad (b : Bytes) : Bool :=
  let n := Bytes.le b 0x10 4
  b.length < 64 || 8388608 < b.length || Bytes.le b 0 4 != 0x4D495A4C || Bytes.le b 4 2 != 1 || Bytes.at b 7 != 0 || Bytes.le b 0x0E 2 != 0 ||
    !(Bytes.sub b 0x14 12).all (· = 0) || b.length != 64 + n + 208 || sha3_256 (Bytes.sub b 64 n) != Bytes.sub b 0x20 32

/-- Row 6: the signature block under the vendor production root, over the header. -/
def State.imageSigned (s : State) (b : Bytes) : Bool :=
  match sigBlocks 1 (b.drop (64 + Bytes.le b 0x10 4)) with
  | some [x] => x.role = 2 && s.blockKeyOk none x && sigPasses (b.take 64) x
  | _ => false

/-- Rows 2 to 8 of Table 18.3. -/
def State.installBad (s : State) (b : Bytes) : Option (Nat × Nat) :=
  let c := s.argClass
  let arb := Bytes.le b 0x0C 2
  if imageBad b then some (cBadParam, 1)
  else if s.lcsCode < 2 || 5 < s.lcsCode then some (cForbids, 2)
  else if Bytes.at b 6 != c then some (cBadParam, 2)
  else if (s.imgClass c).pending then some (cForbids, 0x70)
  else if !s.imageSigned b then some (cVerifyFail, 0x80)
  else if 255 < arb then some (cCounter, 0x30)
  else if arb < (s.imgClass c).arb then some (cForbids, 0x71)
  else none

/-- The image of a header. -/
def imageOf (b : Bytes) : Image :=
  { ver := Bytes.le b 8 2, compat := Bytes.le b 0x0A 2, arb := Bytes.le b 0x0C 2, digest := Bytes.sub b 0x20 32 }

/-- CORE_SVC_CMD OP 1. PENDING says whether the two copies differ. -/
def installBody (img : HostRead) (flashOk : Bool) (s : State) : State :=
  s.svcGo fun s =>
    let len := fld (s.rg (.core 0) 0x110) 0 24
    let s1 := s.emit (.read none (s.rgWide (.core 0) 0x108) len)
    match img with
    | .failed _ => s1.svcEnd cBadAddr 0x13
    | .data d =>
      let b := Bytes.fit d len
      match s1.installBad b with
      | some (c, d) => s1.svcEnd c d
      | none =>
        if !flashOk then s1.svcEnd cMemory 0x10
        else
          let c := s1.argClass
          let k := s1.imgClass c
          let i := imageOf b
          ((s1.setClass c { k with spare := i, pending := true, taken := false }).svcRec c i.ver i.arb).svcEnd cOK 0

/-- INSTALL. -/
def execInstall (img : HostRead) (flashOk : Bool) (s : State) : Host.Outcome State Fault Refusal :=
  .next (s.hostReq (.install img flashOk) (installBody img flashOk))

/-! ### ACTIVATE (R410) -/

/-- The cores of a world other than one. -/
def otherCores (n : Nat) : List Nat := (if n < 4 then List.range 4 else (List.range 12).map (· + 4)).filter (· != n)

/-- Table 18.4's refusals, in its order; a core that reads SERVICING itself is refused as another would be. -/
def State.activateBad (s : State) : Option (Nat × Nat) :=
  let t := s.argTarget
  let c := s.argClass
  let k := s.imgClass c
  let others := (otherCores t).map s.core
  if 15 < t || c != (if t < 4 then 0 else 1) then some (cBadParam, 2)
  else if !k.pending then some (cForbids, 0x73)
  else if others.any fun (x : Core) => x.fwVer < k.stagedImg.compat || k.stagedImg.ver < x.compat then some (cForbids, 0x74)
  else if (s.core t).servicing || others.any fun (x : Core) => x.servicing then some (cForbids, 0x75)
  else if s.cmdBusy then some (cForbids, 0x76)
  else none

/-- CORE_SVC_CMD OP 2: the core reads SERVICING; a normal core's partitions restart on other normal cores (the
lowest-numbered one here: which is not stated). -/
def activateBody (s : State) : State :=
  s.svcGo fun s =>
    match s.activateBad with
    | some (c, d) => s.svcEnd c d
    | none =>
      let t := s.argTarget
      let x := s.core t
      let s1 := s.setCore t { x with servicing := true, svcTick := s.tick, parts := 0 }
      let s2 := match (otherCores t).head? with
        | some n => if t < 4 then s1 else s1.setCore n { s1.core n with parts := (s1.core n).parts + x.parts }
        | none => s1
      s2.svcEnd cOK 0

/-- ACTIVATE. -/
def execActivate (s : State) : Host.Outcome State Fault Refusal := .next (s.hostReq .activate activateBody)

/-- Whether a secure core's key-store workers, two a core, have a job in hand. -/
def State.coreWorks (s : State) (n : Nat) : Bool :=
  s.jobs.any fun j => j.phase = .bound &&
    match j.bnd with
    | some b => (match b.eng with | .worker w => w.val / 2 = n | _ => false)
    | none => false

/-- ACTIVATION_COMPLETE (R410): the drained core has loaded the staged image and restarted. -/
def activationBody (n : Nat) (s : State) : State :=
  let x := s.core n
  if !s.linked || s.mute || !x.servicing || s.coreWorks n then s
  else
    let i := (s.imgClass (if n < 4 then 0 else 1)).stagedImg
    (s.setCore n { x with servicing := false, fwVer := i.ver, compat := i.compat }).record 0x0E02 1 (srcCore n)
      (toLE 1 n ++ toLE 2 i.ver)

/-- ACTIVATION_COMPLETE. -/
def execActivationComplete (core : Fin 16) (s : State) : Host.Outcome State Fault Refusal := .next (activationBody core.val s)

/-! ### COMMIT and ABANDON (R411, R412) -/

/-- CORE_SVC_CMD OP 3: both copies hold the staged image, the counter reaches its ARB. -/
def commitBody (s : State) : State :=
  s.svcGo fun s =>
    let c := s.argClass
    let k := s.imgClass c
    let i := k.stagedImg
    if !k.pending || !(s.versions c).all (· = i.ver) then s.svcEnd cForbids 0x77
    else
      let arb := Nat.max k.arb i.arb
      ((s.setClass c { sel := i, spare := i, arb := arb }).svcRec c i.ver arb).svcEnd cOK 0

/-- COMMIT. -/
def execCommit (s : State) : Host.Outcome State Fault Refusal := .next (s.hostReq .commit commitBody)

/-- CORE_SVC_CMD OP 4: the spare copy takes the running image. -/
def abandonBody (s : State) : State :=
  s.svcGo fun s =>
    let c := s.argClass
    let k := s.imgClass c
    if !k.pending || (s.versions c).any (· = k.stagedImg.ver) then s.svcEnd cForbids 0x78
    else ((s.setClass c { sel := k.sel, spare := k.sel, arb := k.arb }).svcRec c k.stagedImg.ver k.arb).svcEnd cOK 0

/-- ABANDON. -/
def execAbandon (s : State) : Host.Outcome State Fault Refusal := .next (s.hostReq .abandon abandonBody)

/-! ### KeyID rotation (R414) -/

/-- The new KeyID is keyed, once an internal instance runs. -/
def State.rotKeyed (s : State) : State :=
  if s.mem.act.contains s.svc.rotNew || !s.drawReady then s
  else
    s.ownDraw.2.keyed s.svc.rotNew s.ownDraw.1

/-- A record of a rotation's start (1) or end (2), with both KeyIDs. -/
def State.rotRec (s : State) (stage : Nat) : State :=
  s.record 0x0E03 2 0 (toLE 1 s.svc.rotKey ++ toLE 1 s.svc.rotNew ++ toLE 1 stage)

/-- CORE_SVC_CMD OP 5. The rotation itself goes on behind CORE_SVC_ROT. -/
def rotateBody (s : State) : State :=
  s.svcGo fun s =>
    let t := s.argTarget
    if (1 ≤ t && t ≤ 17) || s.mem.reserve.contains t then s.svcEnd cBadParam 2
    else if !s.mem.keyIdMode then s.svcEnd cForbids 1
    else if s.ks.compBusy || s.svc.rotBusy then s.svcEnd cForbids 0x79
    else match s.mem.reserve.head? with
      | none => s.svcEnd cForbids 0x7A
      | some n =>
        let s1 : State :=
          { s with
            svc := { s.svc with rotKey := t, rotNew := n, rotBusy := true, rotPtr := 0, rotPage := 0 }
            mem := { s.mem with act := s.mem.act.filter fun (k : Nat) => k != n } }
        ((s1.rotKeyed).rotRec 1).svcEnd cOK 0

/-- ROTATE. -/
def execRotate (s : State) : Host.Outcome State Fault Refusal := .next (s.hostReq .rotate rotateBody)

/-- Of the pages from the `lo`-th up to the `hi`-th, those whose POT entry names a KeyID. -/
def State.pagesOf (s : State) (key lo hi : Nat) : Nat :=
  ((List.range (hi - lo)).filter fun i =>
    (s.potOf (if lo + i < s.dramPages then lo + i else 0x20000000 + (lo + i - s.dramPages))).keyId = key).length

/-- A rotation has moved the pages up to the `hi`-th: a line that fails its tag is recorded, and the rotation goes on (R335,
R336). -/
def State.rotUpTo (s : State) (hi : Nat) : State :=
  let v := s.svc
  let s1 := ({ s with freeN := s.freeN + 1 } : State).moveLines v.rotKey v.rotNew v.rotPage hi (Config.moveFails s.freeN)
  { s1 with svc := { s1.svc with rotPage := hi, rotPtr := (v.rotPtr + s.pagesOf v.rotKey v.rotPage hi) % 2 ^ 20 } }

/-- How many pages of DRAM and retention SRAM there are. -/
def State.pages (s : State) : Nat := s.dramPages + 8192

/-- A rotation goes on for one tick of an idle unit, below every job in priority (R414). -/
def State.rotTick (s : State) : State :=
  if s.svc.rotBusy && s.mem.act.contains s.svc.rotNew && s.running then
    s.rotUpTo (Nat.min s.pages (s.svc.rotPage + (Config.rotRate s.tick).toNat))
  else s

/-- ROTATION_COMPLETE: every page has moved, the old KeyID is retired into the reserve (R340). A rotation that waits for
its new KeyID to be keyed takes that step first. -/
def rotationBody (s : State) : State :=
  if !s.svc.rotBusy || !s.linked || s.mute then s
  else if !s.mem.act.contains s.svc.rotNew then s.rotKeyed
  else
    let old := s.svc.rotKey
    let new := s.svc.rotNew
    let s1 := (s.rotUpTo s.pages).moveKey old new
    let mem : MemCtl :=
      { s1.mem with
        act := s1.mem.act.filter fun (k : Nat) => k != old
        reserve := (s1.mem.reserve.filter fun (k : Nat) => k != new) ++ [old], retireCnt := satAdd 32 s1.mem.retireCnt 1 }
    { s1 with mem := mem, svc := { s1.svc with rotBusy := false, rotPage := 0 } }.rotRec 2

/-- ROTATION_COMPLETE. -/
def execRotationComplete (s : State) : Host.Outcome State Fault Refusal := .next (rotationBody s)

end Sys2Proof.Machine
end

