-- ==== Sys2Proof/Machine/TamperCmds.lean ====
section
/-! DEFINITION. The tamper island (R360 to R369, R415): fired sensors and their responses, the battery, its service window. -/
namespace Sys2Proof.Machine
open Sys2Proof

/-! ### Responses (R361) -/

/-- TMP_RESP's field of a sensor. -/
def State.respField (s : State) (n : Nat) : Nat := fld s.tmp.resp (2 * n) 2

/-- The response of a sensor in the present state: 0 RECORD, 1 SQUALL, 2 STORM (Tables 15.10, 15.13). -/
def State.response (s : State) (n : Nat) : Nat :=
  if s.lcsCode = 4 then
    (if n = 0 || n = 14 then 2 else if n = 15 then 0 else s.respField n)
  else if s.lcsCode = 3 then s.respField n
  else 0

/-- Whether a sensor is enabled and sampled (Table 15.10): 1 to 8 by TMP_EN; 9 and 13 only while the core is powered, 9 not
while PFW_N is low (R423). -/
def State.sensorOn (s : State) (n : Nat) : Bool :=
  if 1 ≤ n && n ≤ 8 then s.tmp.en.getLsbD n
  else if n = 9 then s.linked && !s.pwr.pfwLow
  else if n = 13 then s.linked
  else true

/-- Whether a battery-service window is open (R362). -/
def State.battOpen (s : State) : Bool := match s.tmp.battEnd with | some e => decide (s.tick < e) | none => false

/-- A fired sensor as the island latches it: its bit, the count, the last event (R363, Table 15.13). -/
def State.latchEvt (s : State) (n : Nat) : State :=
  { s with tmp :=
    { s.tmp with
      evt := s.tmp.evt ||| BitVec.ofNat 32 (2 ^ n), cnt := satAdd 32 s.tmp.cnt 1, lastTick := s.tick, last := n
      lastResp := s.response n } }

/-- A fired sensor's TAMPER record; the failing row where an erasure met one (R364). -/
def State.tamperRec (s : State) (reading : Nat) (badRow : Option Nat) (n : Nat) : State :=
  s.record 0x0B01 5 (srcSensor n)
    (toLE 1 n ++ toLE 2 reading ++ (match badRow with | some r => toLE 2 r | none => []))

/-- RECORD: a record each and TMP_EVENT; a wake event (R392), as every response is. -/
def State.respondRecord (s : State) (l : List Nat) (reading : Nat) : State :=
  ((l.foldl (fun a n => a.tamperRec reading none n) s).raise .tmp 16).wakeTamper

/-- A reset that a response takes where the core is powered. -/
def State.tamperReset (s : State) : State := if s.linked then s.takeReset .tamper 0 else s

/-- What every Squall and Storm does first: TAMPER_OUT_N low (R367), any debug grant closed (R359), a grant that waits for
its own Squall given up. -/
def State.respondHard (s : State) : State :=
  let s1 := s.closeGrant 4
  { s1 with tmp := { s1.tmp with outLow := true }, lcs := { s1.lcs with grantStaged := none } }

/-- SQUALL (Table 15.11): nothing is written to the host any more; erasure, the records staged, the tamper reset, and the
next start's TAMPER_RESET. -/
def State.respondSquall (s : State) (l : List Nat) (reading : Nat) : State :=
  let s1 := s.stagingFlush.respondHard.squallErase
  let s2 := l.foldl (fun a n => a.tamperRec reading none n) s1
  ({ s2 with tmp := { s2.tmp with resetMark := true } }).tamperReset.wakeFrost 7

/-- STORM (Table 15.11, R364): active Vault erasure, then the flush of a powered core's buffer (R378) and the records in the
emptied staging, the Storm mark. -/
def State.respondStorm (s : State) (l : List Nat) (reading : Nat) (badRow : Option Nat) : State :=
  let s1 := ((s.squallErase).vaultErase true).stagingFlush.respondHard
  let s2 := l.foldl (fun a n => a.tamperRec reading badRow n) s1
  let s3 : State :=
    { s2 with tmp := { s2.tmp with stormMark := true, resetMark := true, eraseFail := s2.tmp.eraseFail || badRow.isSome } }
  s3.tamperReset.wakeFrost 7

/-- The sensors of one island sample fire (R365): each has its bit and record; the response is the highest of theirs. -/
def State.fire (s : State) (l : List Nat) (reading : Nat) (badRow : Option Nat) : State :=
  let s1 := l.foldl State.latchEvt s
  match (l.map s.response).foldl Nat.max 0 with
  | 0 => s1.respondRecord l reading
  | 1 => s1.respondSquall l reading
  | _ => s1.respondStorm l reading badRow

/-- A sensor fires in a command that carries no outcome of an erasure: which row fails, if one does, is a free value. -/
def State.fireFree (s : State) (n reading : Nat) : State :=
  ({ s with freeN := s.freeN + 1 }).fire [n] reading ((Config.stormRow s.freeN).map BitVec.toNat)

/-- VBAT below 2.4 V in a battery-service window fires nothing and is recorded at NOTICE (R362). -/
def State.battNote (s : State) (removed : Bool) : State := s.record 0x0B02 2 0 (toLE 1 (b2n removed) ++ toLE 2 s.tmp.vbat)

/-- Whether the service window keeps sensor 14 from firing: open, with VAON present. -/
def State.battHolds (s : State) : Bool := s.battOpen && s.tmp.battEnd.isSome && s.pwr.vaon

/-- Sensor 14's condition (Table 15.10): VBAT below 2.4 V, and no service window with VAON present. -/
def State.vbatGone (s : State) : Bool := s.tmp.vbat < 240 && !s.battHolds

/-- TAMPER_EVENT's sensors that fire now, each once. -/
def State.firing (s : State) (sensors : List (Fin 16)) : List Nat :=
  (List.range 16).filter fun n => (sensors.any fun x => x.val = n) && s.sensorOn n && (n != 14 || s.vbatGone)

/-- TAMPER_EVENT (R363 to R365). -/
def tamperBody (sensors : List (Fin 16)) (reading : BitVec 16) (badRow : Option Nat) (s : State) : State :=
  match s.firing sensors with
  | [] => s
  | l => s.fire l reading.toNat badRow

/-- TAMPER_EVENT. -/
def execTamperEvent (sensors : List (Fin 16)) (reading : BitVec 16) (badRow : Option Nat) (s : State) :
    Host.Outcome State Fault Refusal :=
  .next (tamperBody sensors reading badRow s)

/-! ### The battery (R362, R369, R415) -/

/-- TMP_BATT_SVC.GO: a window over [tick, tick + DURATION). -/
def battSvcBody (duration : BitVec 12) (vaonOk : Bool) (s : State) : State :=
  s.onPage .tmp fun s =>
    let d := duration.toNat
    if d < 64 || 3840 < d then s.refuse .tmp cBadParam 2
    else if !vaonOk || !s.pwr.vaon then s.refuse .tmp cForbids 0x51
    else { s with tmp := { s.tmp with battEnd := some (s.tick + d) } }

/-- TMP_BATT_SVC_GO. -/
def execTmpBattSvcGo (duration : BitVec 12) (vaonOk : Bool) (s : State) : Host.Outcome State Fault Refusal :=
  .next (s.hostReq (.tmpBattSvcGo duration vaonOk) (battSvcBody duration vaonOk))

/-- The window ends at its end tick; with VBAT below 2.4 V sensor 14 then fires (R415). -/
def battEndBody (badRow : Option Nat) (s : State) : State :=
  match s.tmp.battEnd with
  | some e =>
    if s.tick < e then s
    else
      let s1 : State := { s with tmp := { s.tmp with battEnd := none } }
      if s.tmp.vbat < 240 then s1.fire [14] s.tmp.vbat badRow else s1
  | none => s

/-- BATT_SVC_WINDOW_END. -/
def execBattSvcWindowEnd (badRow : Option Nat) (s : State) : Host.Outcome State Fault Refusal := .next (battEndBody badRow s)

/-- VBAT_CHANGE (R362, R369, R415): TMP_VBAT in 10 mV; a WARNING record at each fall below 2.8 V; in a service window a NOTICE
record as VBAT passes 2.4 V either way; outside one, a fall below it fires sensor 14. -/
def vbatBody (level : BitVec 10) (s : State) : State :=
  let v := level.toNat
  let was := s.tmp.vbat
  let low := decide (v < 280)
  let s1 : State := { s with tmp := { s.tmp with vbat := v, vbatLow := low } }
  let s2 := if low && !s.tmp.vbatLow then s1.record 0x0B03 3 0 (toLE 2 v) else s1
  if s.battHolds then (if decide (v < 240) != decide (was < 240) then s2.battNote (decide (v < 240)) else s2)
  else if v < 240 && 240 ≤ was then s2.fireFree 14 v else s2

/-- VBAT_CHANGE. -/
def execVbatChange (level : BitVec 10) (s : State) : Host.Outcome State Fault Refusal := .next (vbatBody level s)

/-! ### TMP_EVT (R367) -/

/-- A write of ones to TMP_EVT; with every bit clear after the next READY, TAMPER_OUT_N is released. -/
def evtClearBody (mask : BitVec 32) (s : State) : State :=
  s.onPage .tmp fun s =>
    let e := s.tmp.evt &&& ~~~mask
    { s with tmp := { s.tmp with evt := e, outLow := s.tmp.outLow && !(e = 0 && s.tmp.readySince) } }

/-- TMP_EVT_CLEAR. -/
def execTmpEvtClear (mask : BitVec 32) (s : State) : Host.Outcome State Fault Refusal :=
  .next (s.hostReq (.tmpEvtClear mask) (evtClearBody mask))

end Sys2Proof.Machine
end

