-- ==== Sys2Proof/Machine/RegView.lean ====
section
/-! DEFINITION. What every register reads (R11, R31, R38 and each block's register table), and the latch of wide pairs. -/
namespace Sys2Proof.Machine
open Sys2Proof

/-- A register word from fields (lowest bit, width, value). -/
def word (l : List (Nat × Nat × Nat)) : W32 := BitVec.ofNat 32 (l.foldl (fun a x => a + x.2.2 % 2 ^ x.2.1 * 2 ^ x.1) 0)

/-- Word `i` of a wide value. -/
def half (v i : Nat) : W32 := BitVec.ofNat 32 (v / 2 ^ (32 * i))

/-- Word `i` of a string, octet 0 in bits [7:0]; zero past its end. -/
def wordOf (b : Bytes) (i : Nat) : W32 := BitVec.ofNat 32 (Bytes.le b (4 * i) 4)

/-- A UID's word `i` (R39): word 3 leads, each word big-endian. -/
def uidWord (u : Bytes) (i : Nat) : W32 := BitVec.ofNat 32 (beNat (Bytes.sub (Bytes.fit u 16) (4 * (3 - i)) 4))

/-- The outcome registers of a command interface: STATE, then CODE and DETAIL. -/
def CmdRegs.stat (c : CmdRegs) : W32 := word [(0, 2, c.st)]

/-- CODE and DETAIL of an outcome. -/
def CmdRegs.res (c : CmdRegs) : W32 := word [(0, 16, c.code), (16, 16, c.detail)]

/-- A mask of the numbers in a list. -/
def maskOf (l : List Nat) : Nat := l.foldl (fun a n => a ||| 2 ^ n) 0

/-! ### The header (Table 2.4) -/

/-- The common header's registers. -/
def State.readHdr (s : State) (p : Page) (off : Nat) : W32 :=
  let h := s.hd p
  match off with
  | 0x000 => word [(16, 16, pageBlock p), (0, 16, pageInst p)]
  | 0x004 => 0x01000000
  | 0x008 => match p with
    | .tel sl k => if k.val < (s.slice sl.val).alloc.teller then 1 else 0
    | _ => 0
  | 0x00C => if honoursCtrl p then word [(0, 1, b2n h.enable), (1, 1, b2n h.drain), (2, 1, b2n h.offline)] else 1
  | 0x010 => word [(0, 4, h.st.code), (8, 8, h.fclass)]
  | 0x014 => h.intStat
  | 0x018 => s.intEnOf p
  | 0x01C => word [(0, 16, h.errCode), (16, 16, h.errDetail)]
  | 0x020 => word [(0, 1, b2n h.lock)]
  | 0x024 => h.gen
  | _ => 0

/-! ### The low control pages -/

/-- The GLB page (Table 2.5). -/
def State.readGlb (s : State) (off : Nat) : W32 :=
  let g := s.glb
  if 0x040 ≤ off && off ≤ 0x04C then uidWord uidBytes ((off - 0x040) / 4)
  else if 0x070 ≤ off && off ≤ 0x07C then s.devOffer.getD ((off - 0x070) / 4) 0
  else if 0x080 ≤ off && off ≤ 0x08C then s.rg .glb off
  else match off with
    | 0x050 => 0x094000B0
    | 0x054 => word [(0, 4, g.run.code), (4, 4, s.lcsCode)]
    | 0x058 => word [(0, 1, b2n g.stateLost), (1, 1, b2n g.tamperReset), (2, 1, b2n g.wdogReset), (3, 1, b2n g.badacc)]
    | 0x05C => BitVec.ofNat 32 g.badaccCnt
    | 0x060 => half g.optime 0
    | 0x064 => half g.optime 1
    | 0x068 => BitVec.ofNat 32 g.pcc
    | 0x094 => word [(0, 2, g.featRes), (8, 8, g.featCause)]
    | _ => 0

/-- The BARO page (Table 4.3). -/
def State.readBaro (s : State) (off : Nat) : W32 :=
  let b := s.baro
  match off with
  | 0x040 => word [(0, 16, b.pace), (16, 16, b.seq)]
  | 0x044 => word [(0, 16, b.min)]
  | 0x050 => word [(0, 16, b.rttMax), (16, 16, b.rttMean)]
  | 0x054 => word [(0, 10, b.vdd), (16, 1, b2n b.ceil), (17, 1, b2n b.floor), (18, 1, b2n b.pmbErr)]
  | _ => s.rg .baro off

/-- The PWR page (Table 17.5). -/
def State.readPwr (s : State) (off : Nat) : W32 :=
  let w := s.pwr
  match off with
  | 0x040 => word [(0, 3, w.ladder.code), (8, 4, w.wake), (16, 3, w.reset.code)]
  | 0x05C => w.cmd.stat
  | 0x060 => w.cmd.res
  | 0x064 => BitVec.ofNat 32 w.leaseDeny
  | 0x068 => BitVec.ofNat 32 w.pfwCnt
  | 0x06C => word [(0, 16, w.unwarned)]
  | _ => s.rg .pwr off

/-- The RNG page (Table 9.7). -/
def State.readRng (s : State) (off : Nat) : W32 :=
  let r := s.rng
  let v := s.src (fld (s.rg .rng 0x044) 0 3)
  let i := s.inst (fld (s.rg .rng 0x060) 0 3)
  match off with
  | 0x040 =>
    word [(0, 2, r.es.code), (8, 4, s.benched), (12, 4, s.running8 [0, 1, 2, 3]), (16, 4, s.running8 [4, 5, 6, 7]),
      (24, 1, b2n r.soscErr)]
  | 0x048 => word [(0, 3, v.st.code), (4, 2, v.retries), (8, 2, v.failtest), (16, 4, v.trim), (24, 4, v.consec)]
  | 0x050 => BitVec.ofNat 32 v.discard
  | 0x054 => BitVec.ofNat 32 v.benchCnt
  | 0x058 => word [(0, 16, r.soscKhz)]
  | 0x05C => word [(0, 17, r.limit)]
  | 0x064 => word [(0, 3, i.st.code)]
  | 0x068 => word [(0, 17, i.count)]
  | 0x06C => i.reseeds
  | 0x074 => word [(0, 2, r.katRes), (8, 4, r.katPart)]
  | 0x078 => half r.katTick 0
  | 0x07C => half r.katTick 1
  | 0x080 => word [(0, 7, r.pool.length)]
  | 0x084 => half r.hostOct 0
  | 0x088 => half r.hostOct 1
  | _ => s.rg .rng off

/-- LCS_ROOTS.USABLE (Table 15.1). -/
def State.roots (s : State) : Nat :=
  let c := s.lcsCode
  b2n (decide (c = 1)) + 2 * b2n (decide (c ≤ 5)) + 4 * b2n s.ownerUsable + 8 * b2n (decide (2 ≤ c && c ≤ 5)) +
    16 * b2n (!s.vault.storageRoot.isEmpty && (c = 3 || c = 4)) + 32 * b2n (decide (c = 4))

/-- The LCS page (Table 15.12). -/
def State.readLcs (s : State) (off : Nat) : W32 :=
  let l := s.lcs
  let live := l.nonceLive && s.tick < l.nonceEnd
  if 0x080 ≤ off && off ≤ 0x09C then wordOf l.nonce ((off - 0x080) / 4)
  else if 0x0A0 ≤ off && off ≤ 0x0BC then wordOf l.ownerDigest ((off - 0x0A0) / 4)
  else match off with
    | 0x040 =>
      word [(0, 4, s.lcsCode), (4, 1, b2n l.pending), (5, 1, b2n l.forced), (8, 6, s.nextRec), (16, 6, 47 - s.nextRec)]
    | 0x044 => word [(0, 6, s.roots)]
    | 0x05C => l.cmd.stat
    | 0x060 => l.cmd.res
    | 0x064 =>
      word [(0, 4, if s.lcsCode = 0 then 15 else match s.grantNow with | some g => g.scope | none => 0),
        (4, 1, b2n l.grantStaged.isSome), (8, 1, b2n live)]
    | 0x068 => half (match l.grant with | some g => g.tOpen + g.duration | none => 0) 0
    | 0x06C => half (match l.grant with | some g => g.tOpen + g.duration | none => 0) 1
    | 0x070 => half (if live then l.nonceEnd else 0) 0
    | 0x074 => half (if live then l.nonceEnd else 0) 1
    | _ => s.rg .lcs off

/-- TMP_RESP as it reads (R361): 0 outside OWNED and FIELD; in FIELD the fixed responses stand in their fields. -/
def State.respView (s : State) : Nat :=
  if s.lcsCode = 3 || s.lcsCode = 4 then (List.range 16).foldl (fun a n => a + s.response n * 4 ^ n) 0 else 0

/-- The TMP page (Table 15.13). -/
def State.readTmp (s : State) (off : Nat) : W32 :=
  let t := s.tmp
  match off with
  | 0x040 => word [(0, 1, b2n (decide (480 ≤ t.vcap))), (1, 1, b2n t.vbatLow), (2, 1, b2n s.battOpen), (4, 1, b2n t.eraseFail)]
  | 0x044 => t.evt
  | 0x048 => BitVec.ofNat 32 s.respView
  | 0x04C => (t.en &&& 0x1FE) ||| 0xFE01
  | 0x050 => word [(0, 7, t.mesh)]
  | 0x054 => word [(0, 4, t.swPol), (8, 8, t.swDebounce)]
  | 0x05C => word [(0, 10, t.vcap)]
  | 0x060 => word [(0, 10, t.vbat)]
  | 0x064 => word [(0, 16, (t.tj % 65536).toNat)]
  | 0x068 => BitVec.ofNat 32 t.cnt
  | 0x06C => half t.lastTick 0
  | 0x070 => half t.lastTick 1
  | 0x074 => word [(0, 4, t.last), (8, 2, t.lastResp)]
  | _ => 0

/-- KiB that octets take, rounded up. -/
def kib (n : Nat) : Nat := (n + 1023) / 1024

/-- The LDG page (Table 16.5). -/
def State.readLdg (s : State) (off : Nat) : W32 :=
  let g := s.led
  let oldest := match g.recs with | r :: l => l.foldl (fun a x => Nat.min a x.seq) r.seq | [] => g.nextSeq
  let cp := g.lastCpSeq.getD 0
  if 0x064 ≤ off && off ≤ 0x078 then BitVec.ofNat 32 (g.drop.getD ((off - 0x064) / 4) 0)
  else if 0x07C ≤ off && off ≤ 0x090 then BitVec.ofNat 32 (g.ovw.getD ((off - 0x07C) / 4) 0)
  else match off with
    | 0x040 =>
      word [(0, 9, kib (ledUsed g.recs .buffer)), (16, 5, kib (ledUsed g.recs .staging)), (24, 1, b2n g.flashErr),
        (25, 1, b2n s.unsigned), (26, 1, b2n g.regionBad)]
    | 0x044 => half g.nextSeq 0
    | 0x048 => half g.nextSeq 1
    | 0x04C => half oldest 0
    | 0x050 => half oldest 1
    | 0x054 => half cp 0
    | 0x058 => half cp 1
    | 0x05C => word [(0, 13, g.sinceCp)]
    | 0x094 => word [(0, 17, g.wear)]
    | 0x098 => word [(0, 11, kib (((List.range 16).map (blockUsed g.recs)).sum))]
    | _ => s.rg .ldg off

/-- A POT entry as its register shows it (R319). -/
def PotEntry.view (e : PotEntry) : W32 := word [(0, 8, e.owner), (8, 12, e.slice), (20, 6, e.keyId)]

/-- The MEM page (Table 14.9). -/
def State.readMem (s : State) (off : Nat) : W32 :=
  let m := s.mem
  match off with
  | 0x040 => word [(0, 1, b2n m.keyIdMode), (1, 1, b2n m.locked), (8, 8, m.ch0), (16, 8, m.ch1)]
  | 0x044 => half (maskOf m.act) 0
  | 0x048 => half (maskOf m.act) 1
  | 0x04C => BitVec.ofNat 32 m.ce
  | 0x050 => BitVec.ofNat 32 m.tagFail
  | 0x054 => word [(0, 11, m.poison.length), (16, 16, Nat.min m.poisonPages.length 0xFFFF)]
  | 0x058 => BitVec.ofNat 32 m.retired
  | 0x05C => BitVec.ofNat 32 m.potDeny
  | 0x060 => half (m.lastFail / 64 * 64) 0
  | 0x064 => word [(0, 10, m.lastFail / 2 ^ 32), (16, 6, m.lastFailKey)]
  | 0x06C => (s.potOf (fld (s.rg .mem 0x068) 0 30)).view
  | 0x070 => BitVec.ofNat 32 m.retireCnt
  | _ => s.rg .mem off

/-! ### The cluster and its ports -/

/-- Members in any of some states, as a mask. -/
def State.memberMask (s : State) (l : List MemberState) : Nat :=
  maskOf ((s.clu.members.filter fun p => l.contains p.2.st).map Prod.fst)

/-- The CLU page (Table 13.8). -/
def State.readClu (s : State) (off : Nat) : W32 :=
  let c := s.clu
  let m := s.member (fld (s.rg .clu 0x060) 0 6)
  let set := fld (s.rg .clu 0x084) 0 8
  if 0x068 ≤ off && off ≤ 0x074 then uidWord m.uid ((off - 0x068) / 4)
  else match off with
    | 0x040 => word [(0, 2, c.role.code), (8, 6, c.id), (16, 3, if c.role = .standalone then 0 else c.topo)]
    | 0x044 => BitVec.ofNat 32 c.rosterVer
    | 0x048 => half (s.memberMask [.serving]) 0
    | 0x04C => half (s.memberMask [.serving]) 1
    | 0x050 => half (s.memberMask [.quarantined, .syncing]) 0
    | 0x054 => half (s.memberMask [.quarantined, .syncing]) 1
    | 0x058 => half (s.memberMask [.lost]) 0
    | 0x05C => half (s.memberMask [.lost]) 1
    | 0x064 => word [(0, 3, m.st.code), (4, 5, m.hops), (10, 2, m.port), (16, 7, if s.clu.role = .head && fld (s.rg .clu 0x060) 0 6 = 0 then s.tilesUp else m.engines)]
    | 0x078 => half m.lastHb 0
    | 0x07C => half m.lastHb 1
    | 0x088 => half (NMap.getD c.replMask set 0) 0
    | 0x08C => half (NMap.getD c.replMask set 0) 1
    | 0x090 => half (NMap.getD c.replVer set 0) 0
    | 0x094 => half (NMap.getD c.replVer set 0) 1
    | 0x0AC => c.cmd.stat
    | 0x0B0 => c.cmd.res
    | 0x0B4 => BitVec.ofNat 32 c.jobsLost
    | 0x0B8 => BitVec.ofNat 32 c.jobsRetried
    | 0x0BC => BitVec.ofNat 32 c.late
    | _ => s.rg .clu off

/-- A ZL page (Table 13.9). -/
def State.readZl (s : State) (n : Fin 4) (off : Nat) : W32 :=
  let z := s.zlp n.val
  if 0x044 ≤ off && off ≤ 0x050 then (if z.peerUid.isEmpty then 0 else uidWord z.peerUid ((off - 0x044) / 4))
  else match off with
    | 0x040 => word [(0, 3, z.st.code), (4, 3, z.width), (8, 6, z.peer), (16, 1, b2n z.rostered)]
    | 0x054 => BitVec.ofNat 32 z.epoch
    | 0x058 => half z.txCtr 0
    | 0x05C => half z.txCtr 1
    | 0x060 => half z.rxCtr 0
    | 0x064 => half z.rxCtr 1
    | 0x068 => BitVec.ofNat 32 z.authFail
    | 0x06C => BitVec.ofNat 32 z.retry
    | 0x070 => BitVec.ofNat 32 z.down
    | _ => s.rg (.zl n) off

/-! ### Rings and the scheduler -/

/-- SL_RING_STAT of a ring (Table 3.8). -/
def Ring.stat (g : Ring) : W32 :=
  word [(0, 3, g.st.code), (3, 1, b2n g.rescan), (4, 4, g.fcause),
    (8, 2, match g.why with | .none => 0 | .full => 1 | .fence => 2), (16, 16, g.scan)]

/-- Rings of the unit in any of some states. -/
def State.ringsIn (s : State) (l : List RingState) : Nat :=
  (s.slices.map fun p => (p.2.rings.filter fun q => l.contains q.2.st).length).sum

/-- FILL and HWM of a FIFO. -/
def State.fifoView (s : State) (f : Fifo) : W32 := word [(0, 16, s.fill f), (16, 16, s.qsc.hwm.getD (fifoNum f) 0)]

/-- The QSC page (Tables 3.9 and 4.4). -/
def State.readQsc (s : State) (off : Nat) : W32 :=
  let v := s.slice (fld (s.rg .qsc 0x040) 0 12)
  let live := s.slices.filter fun p => p.2.active
  let sel := s.findRing (fld (s.rg .qsc 0x100) 0 20)
  match off with
  | 0x044 => word [(0, 8, if sliceOpen v then v.weight else 0)]
  | 0x048 => word [(0, 8, if sliceOpen v then v.credit else 0), (16, 1, b2n v.active)]
  | 0x04C => word [(0, 13, live.length)]
  | 0x050 => word [(0, 20, (live.map fun p => p.2.weight).sum)]
  | 0x058 => BitVec.ofNat 32 s.qsc.bpCnt
  | 0x05C => word [(0, 6, s.fetches.length)]
  | 0x060 => s.fifoView .pk
  | 0x064 => s.fifoView .bulk
  | 0x068 => s.fifoView .sym
  | 0x06C => s.fifoView .key
  | 0x070 => s.fifoView .rng
  | 0x07C => word [(0, 14, s.eng.itemQueue.length), (16, 14, s.qsc.hwm.getD 5 0)]
  | 0x080 => BitVec.ofNat 32 s.qsc.timeoutCnt
  | 0x104 => match sel with
    | some (sl, r) => word [(20, 12, sl), (16, 1, 1), (0, 14, r)]
    | none => 0
  | 0x108 => match sel with
    | some (sl, r) => (match s.ring sl r with | some g => g.stat | none => 0)
    | none => 0
  | 0x10C => match sel with
    | some (sl, r) => word [(0, 17, (s.ringJobs sl r).length)]
    | none => 0
  | 0x114 => word [(0, 21, s.ringsIn [.scanning, .wait])]
  | 0x118 => word [(0, 21, s.ringsIn [.fault])]
  | _ => s.rg .qsc off

/-! ### The manager's pages -/

/-- SLM page 0 (Table 12.9). -/
def State.readSlm0 (s : State) (off : Nat) : W32 :=
  let m := s.slm
  let f := fun (i : Nat) => s.poolFree.getD i 0
  if 0x080 ≤ off && off ≤ 0x09C then wordOf m.nonce ((off - 0x080) / 4)
  else match off with
    | 0x054 => m.cmd.stat
    | 0x058 => m.cmd.res
    | 0x05C => BitVec.ofNat 32 m.cmd.info
    | 0x060 => half m.chalEnd 0
    | 0x064 => half m.chalEnd 1
    | 0x0A0 => word [(0, 21, f 0)]
    | 0x0A4 => word [(0, 12, f 1)]
    | 0x0A8 => word [(0, 17, f 2)]
    | 0x0AC => word [(0, 13, f 3), (16, 13, s.ks.quarantined.length)]
    | 0x0B0 => word [(0, 17, f 4)]
    | 0x0B4 => word [(0, 7, f 5), (16, 11, f 6)]
    | 0x0B8 => word [(0, 17, f 7)]
    | 0x0BC => word [(0, 19, f 8)]
    | 0x0C0 => word [(0, 13, s.tenants.length)]
    | _ => s.rg (.slm 0) off

/-- SLM page 1 (Table 12.10): the mailbox of the slice in SLM_MB_SLICE. -/
def State.readSlm1 (s : State) (off : Nat) : W32 :=
  let n := fld (s.rg (.slm 1) 0x040) 0 12
  let m := if n = 0 then {} else (s.slice n).mbox
  if 0x080 ≤ off && off ≤ 0x0BC then wordOf m.outMsg ((off - 0x080) / 4)
  else if 0x0C0 ≤ off && off ≤ 0x0FC then NMap.getD m.txWords ((off - 0x0C0) / 4) 0
  else match off with
    | 0x044 => word [(0, 1, b2n m.outFull), (8, 7, if m.outFull then m.outLen else 0), (16, 1, b2n m.inFull)]
    | 0x04C => word [(0, 7, m.txLen)]
    | _ => s.rg (.slm 1) off

/-- SLM page 2 (R287): the pending messages, and the slices' states. -/
def State.readSlm2 (s : State) (off : Nat) : W32 :=
  if 0x400 ≤ off && off ≤ 0x5FC then
    word ((List.range 32).map fun b =>
      let n := 32 * ((off - 0x400) / 4) + b
      (b, 1, b2n (n != 0 && (s.slice n).mbox.outFull)))
  else if 0x800 ≤ off && off ≤ 0xFFC then
    word ((List.range 8).map fun i => (4 * i, 4, (s.slice (8 * ((off - 0x800) / 4) + i)).st.code))
  else 0

/-! ### Engines, cores and MPUs -/

/-- A PKT page (Table 6.6). The data window reads 0 out of bench mode (R133). -/
def State.readPkt (s : State) (n : Fin 96) (off : Nat) : W32 :=
  let t := s.tile n.val
  match off with
  | 0x040 => word [(0, 8, n.val / 4), (8, 16, NMap.getD s.svc.tileVer n.val 0)]
  | 0x048 =>
    word [(0, 1, b2n t.bench), (1, 1, b2n t.busy), (2, 1, b2n t.done), (4, 4, t.err), (8, 2, t.cmp), (10, 1, b2n t.modulus.isSome)]
  | 0x04C => word [(0, 8, t.op), (8, 8, t.l)]
  | 0x050 => word [(0, 14, t.a)]
  | 0x054 => word [(0, 14, t.b)]
  | 0x058 => word [(0, 14, t.d)]
  | 0x05C => word [(0, 14, t.addr)]
  | 0x060 => if t.bench then half (t.word t.addr) 0 else 0
  | 0x064 => if t.bench then half (t.word t.addr) 1 else 0
  | 0x068 => BitVec.ofNat 32 t.waves
  | 0x06C => t.jobs
  | _ => 0

/-- A CORE page (Tables 14.10 and 18.1). -/
def State.readCore (s : State) (n : Fin 16) (off : Nat) : W32 :=
  let c := s.core n.val
  let v := s.svc
  match off with
  | 0x040 => word [(0, 1, b2n (decide (n.val < 4))), (8, 8, if n.val < 4 then 0 else 1), (16, 16, c.fwVer)]
  | 0x044 => word [(0, 1, b2n c.running), (1, 1, b2n c.servicing), (8, 5, c.parts)]
  | 0x048 => BitVec.ofNat 32 c.faults
  | _ =>
    if n.val != 0 then 0
    else if 0x120 ≤ off && off ≤ 0x12C then
      let k := (off - 0x120) / 4
      let i := s.imgClass k
      word [(0, 16, i.stagedImg.ver), (16, 8, i.stagedImg.arb), (24, 1, b2n i.pending), (25, 1, b2n (s.mixed k))]
    else match off with
      | 0x080 => word [(0, 10, v.wdogMs), (16, 1, b2n (decide (s.lcsCode = 4)))]
      | 0x084 => word [(0, 16, v.wdogCnt)]
      | 0x114 => v.cmd.stat
      | 0x118 => v.cmd.res
      | 0x11C => word ((List.range 4).map fun i => (8 * i, 8, (s.imgClass i).arb))
      | 0x130 => word [(0, 6, v.rotKey), (8, 1, b2n v.rotBusy), (12, 20, v.rotPtr)]
      | _ => s.rg (.core n) off

/-- An MPU page (Table 14.7); a half that is held reads as held. -/
def State.readMpu (s : State) (n : Fin 53) (off : Nat) : W32 :=
  let u := s.mpuOf n.val
  if 0x100 ≤ off && off < 0x300 then
    let i := (off - 0x100) / 16
    let e := NMap.getD u.ent i {}
    let base := NMap.getD u.heldBase i e.base
    let limit := NMap.getD u.heldLimit i (e.limit % 2 ^ 32)
    match off % 16 with
    | 0 => half base 0
    | 4 => word [(0, 16, base / 2 ^ 32)]
    | 8 => half limit 0
    | 12 =>
      word [(0, 16, e.limit / 2 ^ 32), (16, 1, b2n e.r), (17, 1, b2n e.w), (18, 1, b2n e.x), (19, 1, b2n e.keyIdAny),
        (20, 4, e.levels), (24, 1, b2n e.lock), (31, 1, b2n e.valid)]
    | _ => 0
  else match off with
    | 0x040 =>
      word [(0, 6, n.val), (8, 2, if n.val < 16 then 0 else if n.val < 48 then 1 else if n.val = 48 then 2 else 3), (16, 8, 0x20)]
    | 0x044 => word [(8, 1, b2n u.pending)]
    | 0x048 => BitVec.ofNat 32 (maskOf ((u.ent.filter fun p => p.2.lock).map Prod.fst))
    | 0x04C => BitVec.ofNat 32 u.denyCnt
    | 0x050 => half u.denyAddr 0
    | 0x054 => half u.denyAddr 1
    | 0x058 => word [(0, 1, b2n u.denyValid), (1, 1, b2n u.denyWrite), (2, 2, u.denyCause), (8, 2, u.denyLevel)]
    | _ => 0

/-! ### The key store and custody -/

/-- The KST page (Table 10.14). -/
def State.readKst (s : State) (off : Nat) : W32 :=
  let k := s.ks
  let units := fun (d : Bool) => ((k.keys.filter fun p => p.2.deep = d).map fun p => p.2.units).sum
  let arch := fun (f : Nat → Bool) => ((k.archive.filter fun p => f p.1).map fun p => p.2.key.units).sum
  let seg := fld (s.rg .kst 0x068) 0 4
  match off with
  | 0x040 => word [(0, 16, units false + s.heldUnits fun r => r.home = 2)]
  | 0x044 => word [(0, 25, units true + s.heldUnits fun r => r.home != 2)]
  | 0x048 => word [(0, 17, (arch fun _ => true) + s.heldUnits fun r => r.resident)]
  | 0x04C => word [(0, 17, (s.slices.map fun p => s.tallyUsed p.1).sum)]
  | 0x050 => word [(0, 17, k.filter.length), (24, 1, b2n (decide (58982 < k.filter.length)))]
  | 0x054 => half s.vault.epoch 0
  | 0x058 => half s.vault.epoch 1
  | 0x05C => word [(0, 26, s.vault.fixedCtr)]
  | 0x064 => word [(0, 4, k.compSeg), (4, 1, b2n k.compBusy), (8, 20, k.compPtr)]
  | 0x06C => word [(0, 6, (s.seg seg).keyId), (8, 17, s.segEntries seg), (25, 7, (s.seg seg).round)]
  | 0x070 => word [(0, 17, arch k.orphans.contains)]
  | 0x078 =>
    word [(0, 1, b2n (k.keys.any fun p => p.2.archPending)), (8, 8, Nat.min k.archLost 255), (16, 16, Nat.min k.archStale 0xFFFF)]
  | 0x07C => BitVec.ofNat 32 k.replayCnt
  | _ => s.rg .kst off

/-- The CUS page (Table 11.8). -/
def State.readCus (s : State) (off : Nat) : W32 :=
  let g := NMap.find s.vault.groups (fld (s.rg .cus 0x040) 0 8)
  match off with
  | 0x044 => match g with
    | some x => word [(0, 1, 1), (8, 4, x.m - 1), (12, 4, x.n - 1), (16, 12, x.slice)]
    | none => 0
  | 0x048 => BitVec.ofNat 32 (match g with | some x => x.gversion | none => 0)
  | 0x04C => BitVec.ofNat 32 (match g with | some x => x.guard | none => 0)
  | 0x050 => word [(0, 11, s.cus.approvals.length)]
  | 0x054 => word [(0, 11, (s.cus.approvals.filter fun a => a.granted).length)]
  | 0x058 => BitVec.ofNat 32 s.cus.tokenRej
  | _ => s.rg .cus off

/-! ### A slice's pages -/

/-- The slice control page's ring registers, which act on the ring in SL_RING_SEL (Table 3.8). -/
def State.readRing (s : State) (sl : Fin 4096) (off : Nat) : W32 :=
  match s.ring sl.val (s.ringSel sl) with
  | none => if off = 0x104 then 0xFFFFF else 0
  | some g => match off with
    | 0x104 => word [(0, 20, g.gid), (31, 1, 1)]
    | 0x108 => half g.base.toNat 0
    | 0x10C => half g.base.toNat 1
    | 0x110 => g.cfg
    | 0x114 => word [(0, 8, g.weight), (8, 7, g.burst)]
    | 0x11C => g.stat
    | 0x120 => word [(0, 17, (s.ringJobs sl.val (s.ringSel sl)).length)]
    | 0x124 => half g.faddr.toNat 0
    | 0x128 => half g.faddr.toNat 1
    | 0x12C => g.done
    | _ => 0

/-- A slice's control page (Tables 3.8 and 12.7). -/
def State.readSlc (s : State) (sl : Fin 4096) (off : Nat) : W32 :=
  let v := s.slice sl.val
  let a := v.alloc
  if 0x040 ≤ off && off ≤ 0x04C then (if off = 0x040 then s.offer0 sl.val else 0)
  else if 0x088 ≤ off && off ≤ 0x0A4 then wordOf v.digest ((off - 0x088) / 4)
  else if 0x104 ≤ off && off ≤ 0x12C then s.readRing sl off
  else if 0x800 ≤ off then
    let w := (off - 0x800) / 4
    BitVec.ofNat 32 (maskOf ((List.range 32).filter fun i =>
      match NMap.find v.rings (32 * w + i) with | some g => g.st = .fault | none => false))
  else match off with
    | 0x064 => word [(0, 2, v.featRes), (8, 8, v.featCause)]
    | 0x068 => word [(0, 3, v.st.code), (8, 1, b2n (v.digest.any (· != 0))), (12, 20, v.pasid.getD 0)]
    | 0x070 => word [(0, 15, a.rings), (16, 7, a.vecCount), (24, 2, a.teller)]
    | 0x074 => word [(0, 4, a.curves), (8, 5, a.rlds), (16, 8, v.weight)]
    | 0x078 => word [(0, 17, a.hot)]
    | 0x07C => word [(0, 12, a.deep.length)]
    | 0x080 => word [(0, 17, a.tally)]
    | 0x084 => word [(0, 17, a.staging)]
    | 0x130 => BitVec.ofNat 32 v.stray
    | 0x134 => BitVec.ofNat 32 v.malformed
    | _ => s.rg (.slc sl) off

/-- A mailbox page (Table 12.8); slice 0's reads 0 (R283). -/
def State.readMbx (s : State) (sl : Fin 4096) (off : Nat) : W32 :=
  let m := (s.slice sl.val).mbox
  if sl.val = 0 then 0
  else if 0x0C0 ≤ off && off ≤ 0x0FC then wordOf m.inMsg ((off - 0x0C0) / 4)
  else match off with
    | 0x040 => word [(0, 1, b2n m.outFull)]
    | 0x04C => word [(0, 1, b2n m.inFull), (8, 7, if m.inFull then m.inLen else 0)]
    | 0x054 => m.sent
    | 0x058 => m.recv
    | _ => s.rg (.mbx sl) off

/-- A teller page (Table 8.15). -/
def State.readTel (s : State) (sl : Fin 4096) (k : Fin 2) (off : Nat) : W32 :=
  let t := s.teller sl.val k.val
  if 0x0C0 ≤ off && off ≤ 0x0CC then wordOf t.result ((off - 0x0C0) / 4)
  else if 0x200 ≤ off && off ≤ 0x2FC then wordOf t.dout ((off - 0x200) / 4)
  else match off with
    | 0x044 => word [(0, 2, t.st), (8, 6, t.pair)]
    | 0x048 => word [(0, 16, t.code), (16, 16, t.detail)]
    | 0x060 => word [(0, 9, t.outLen)]
    | 0x064 => t.count
    | _ => s.rg (.tel sl k) off

/-! ### Any register -/

/-- What a register holds, wide halves as they stand now. -/
def State.readReg (s : State) (p : Page) (off : Nat) : W32 :=
  if off < 0x040 then s.readHdr p off
  else match p with
    | .glb => s.readGlb off
    | .baro => s.readBaro off
    | .pwr => s.readPwr off
    | .rng => s.readRng off
    | .lcs => s.readLcs off
    | .tmp => s.readTmp off
    | .ldg => s.readLdg off
    | .mem => s.readMem off
    | .clu => s.readClu off
    | .zl n => s.readZl n off
    | .qsc => s.readQsc off
    | .slm n => if n.val = 0 then s.readSlm0 off else if n.val = 1 then s.readSlm1 off else if n.val = 2 then s.readSlm2 off else 0
    | .pkt n => s.readPkt n off
    | .scl _ => 0
    | .core n => s.readCore n off
    | .mpu n => s.readMpu n off
    | .kst => s.readKst off
    | .cus => s.readCus off
    | .slc sl => s.readSlc sl off
    | .mbx sl => s.readMbx sl off
    | .tel sl k => s.readTel sl k off

/-- Whether an offset is the low half of a wide pair. -/
def wideLo : Page → Nat → Bool
  | .glb, off => off = 0x060
  | .pwr, off => off = 0x054
  | .rng, off => off = 0x078 || off = 0x084
  | .lcs, off => [0x050, 0x068, 0x070].contains off
  | .tmp, off => off = 0x06C
  | .ldg, off => [0x044, 0x04C, 0x054].contains off
  | .mem, off => off = 0x044 || off = 0x060
  | .clu, off => [0x048, 0x050, 0x058, 0x078, 0x088, 0x090, 0x0A0].contains off
  | .zl _, off => off = 0x058 || off = 0x060
  | .slm n, off => n.val = 0 && (off = 0x048 || off = 0x060)
  | .pkt _, off => off = 0x060
  | .core n, off => n.val = 0 && off = 0x108
  | .mpu _, off => off = 0x050 || (0x100 ≤ off && off < 0x300 && off % 16 = 0)
  | .kst, off => off = 0x054
  | .slc _, off => off = 0x108 || off = 0x124
  | .tel _ _, off => off = 0x050
  | _, _ => false

/-- What a host read of a register returns (R38): the latched half of a pair's _HI once its _LO has been read. The data
window of a tile in service mode reads 0 (R133). -/
def State.hostRead (s : State) (p : Page) (off : Nat) : W32 :=
  let service := match p with | .pkt t => off = 0x064 && !(s.tile t.val).bench | _ => false
  if !s.pageAnswers p || service then 0
  else if 4 ≤ off && wideLo p (off - 4) then NMap.getD s.latch (regKey p (off - 4)) (s.readReg p off)
  else s.readReg p off

/-- The page of a window's address (Table 2.1, R28, R30). -/
def pageAt : Window → Nat → Option Page
  | .control, a => if a < 2 ^ 24 then controlPage (a / 4096) else none
  | .slice, a => slicePage (a / 4096)
  | .config, _ => none

/-- What reading a register does (R11, R38, R134): a _LO latches the matching _HI, an access to PKT_BENCH_DATA_HI moves
the address on. -/
def State.readEffect (s : State) (p : Page) (off : Nat) : State :=
  let s1 := if s.pageAnswers p && wideLo p off then
      { s with latch := NMap.set s.latch (regKey p off) (s.readReg p (off + 4)) }
    else s
  match p with
  | .pkt t => if off = 0x064 then benchDataBody t false 0 s1 else s1
  | _ => s1

/-- The MSI-X table and the pending-bit array (R25, R40), which answer from the first configuration access on. -/
def State.readMsix (s : State) (a : Nat) : W32 :=
  if !s.pwr.configUp then 0
  else if a < 0xF08000 then
    let e := NMap.getD s.msix ((a - 0xF00000) / 16) {}
    match a % 16 with
    | 0 => e.addrLo
    | 4 => e.addrHi
    | 8 => e.data
    | _ => word [(0, 1, b2n e.mask)]
  else word ((List.range 32).map fun b => (b, 1, b2n (NMap.getD s.msix (8 * (a - 0xF08000) + b) {}).pend))

/-- Whether a control-window address lies in the MSI-X table or its pending-bit array of 2,048 vectors. -/
def msixAt (a : Nat) : Bool := 0xF00000 ≤ a && a < 0xF08100

/-- A 4-byte read at an aligned address of a window: what it returns and what it does. The doorbell window and addresses
that no page occupies return 0 (R26, R27). -/
def State.readWord (s : State) (w : Space) (a : Nat) : W32 × State :=
  let at_ := fun (p : Option Page) => match p with
    | some p => (s.hostRead p (a % 4096), s.readEffect p (a % 4096))
    | none => (0, s)
  match w with
  | .doorbell => (0, s)
  | .slice => at_ (pageAt .slice a)
  | .control => if msixAt a then (s.readMsix a, s) else at_ (pageAt .control a)

/-- The octets of a word that four byte enables choose, the lowest address first. -/
def enabledOctets (be : Nat) (v : W32) : Bytes :=
  ((List.range 4).filter fun i => be.testBit i).map fun i => v.extractLsb' (8 * i) 8

/-- One half of an 8-byte block in a read: nothing happens where it enables none of its bytes. -/
def readHalf (w : Space) (a be : Nat) (x : Bytes × State) : Bytes × State :=
  if be = 0 then x else ((x.1 ++ enabledOctets be (x.2.readWord w a).1), (x.2.readWord w a).2)

/-- A read (R26): `addr` names an 8-byte block and `be` its byte enables; the lower register first, then the upper. -/
def readBody (w : Space) (addr : Nat) (be : BitVec 8) (s : State) : State :=
  let base := addr / 8 * 8
  let r := readHalf w (base + 4) (be.toNat / 16) (readHalf w base (be.toNat % 16) ([], s))
  r.2.emit (.loaded r.1)

/-- WIDE_LO_READ; it stands for every read of a window, which has no other row. -/
def execWideLoRead (win : Space) (addr : HostLoad) (s : State) : Host.Outcome State Fault Refusal :=
  .next (s.hostReq (.wideLoRead win addr) (readBody win addr.addr.toNat addr.be))

end Sys2Proof.Machine
end

