-- ==== Sys2Proof/Machine/Island.lean ====
section
/-! DEFINITION. What the board reaches beside the windows: SMBus (R434), the test access port (R437), the island's supply
(R360, R394). -/
namespace Sys2Proof.Machine
open Sys2Proof

/-! ### The SMBus slave (R434) -/

/-- Octet 10 of the status block; while the core is unpowered only bits 5 to 7 are valid. -/
def State.smbFlags (s : State) : Nat :=
  let core := b2n s.glb.stateLost + 2 * b2n s.glb.tamperReset + 4 * b2n s.glb.wdogReset + 8 * b2n (decide (s.rng.es = .failed)) +
    16 * b2n s.lcs.pending
  (if s.linked then core else 0) + 32 * b2n s.tmp.eraseFail + 64 * b2n s.tmp.vbatLow + 128 * b2n (decide (480 ≤ s.tmp.vcap))

/-- The READY pin (Table 20.8): high while RUN reads READY or DEGRADED, low otherwise and in Frost. -/
def State.readyPin (s : State) : Bool := s.linked && (s.glb.run = .ready || s.glb.run = .degraded)

/-- A signed temperature as 16 bits. -/
def int16 (t : Int) : Nat := (t % 65536).toNat

/-- The status block (Table 20.11). -/
def State.smbStatus (s : State) : Bytes :=
  let on := fun (n : Nat) => if s.linked then n else 0
  toLE 1 (if s.linked then s.glb.run.code else 0xE) ++ toLE 1 s.lcsCode ++ toLE 1 s.pwr.ladder.code ++
    toLE 1 (on s.pwr.reset.code) ++ toLE 1 (on s.pwr.startStep) ++ toLE 1 (on s.isl.cause) ++ toLE 2 (on (int16 s.tmp.tj)) ++
    toLE 2 (on s.baro.pace) ++ toLE 1 s.smbFlags ++ [0] ++ toLE 4 s.glb.pcc

/-- STATUS: the block is sent and SMB_ALERT_N rises; no answer on VBAT alone. -/
def smbStatusBody (s : State) : State :=
  if s.pwr.vaon then ({ s with isl := { s.isl with smbAlert := false } }).emit (.smbus s.smbStatus) else s

/-- SMBUS_STATUS. -/
def execSmbusStatus (s : State) : Host.Outcome State Fault Refusal := .next (smbStatusBody s)

/-- UID. -/
def smbUidBody (s : State) : State := if s.pwr.vaon then s.emit (.smbus uidBytes) else s

/-- SMBUS_UID. -/
def execSmbusUid (s : State) : Host.Outcome State Fault Refusal := .next (smbUidBody s)

/-! ### The test access port (R437) -/

/-- An instruction that leaves the unit running: the reset of EXTEST, CLAMP or HIGHZ is released, the pins are the unit's. -/
def State.tapLoad (s : State) (ir : Nat) : State :=
  { s with isl := { s.isl with jtagIr := ir, jtagHold := false, bsDrive := [], floats := false } }

/-- EXTEST, CLAMP or HIGHZ: a SYSTEM reset, in which the unit stays. -/
def State.tapHold (s : State) (ir : Nat) (cells drive : Bytes) (floats : Bool) : State :=
  let s1 := if s.isl.jtagHold || s.powerUp then s else s.takeReset .system SysCause.jtag.code
  { s1 with isl := { s1.isl with jtagIr := ir, jtagHold := true, bscan := cells, bsDrive := drive, floats := floats } }

/-- EXTEST drives what the boundary-scan cells hold. -/
def extestBody (cells : Bytes) (s : State) : State := if s.linked then s.tapHold 0x00 cells cells false else s

/-- EXTEST. -/
def execExtest (cells : Bytes) (s : State) : Host.Outcome State Fault Refusal := .next (extestBody cells s)

/-- CLAMP drives what was preloaded. -/
def clampBody (s : State) : State := if s.linked then s.tapHold 0x04 s.isl.bscan s.isl.bscan false else s

/-- CLAMP. -/
def execClamp (s : State) : Host.Outcome State Fault Refusal := .next (clampBody s)

/-- HIGHZ floats the outputs. -/
def highzBody (s : State) : State := if s.linked then s.tapHold 0x05 s.isl.bscan [] true else s

/-- HIGHZ. -/
def execHighz (s : State) : Host.Outcome State Fault Refusal := .next (highzBody s)

/-- IDCODE reads 0x1094_05CF. -/
def idcodeBody (s : State) : State := if s.linked then (s.tapLoad 0x01).emit (.jtag (toLE 4 0x109405CF)) else s

/-- IDCODE. -/
def execIdcode (s : State) : Host.Outcome State Fault Refusal := .next (idcodeBody s)

/-- SAMPLE/PRELOAD: the pins are shifted out, the cells preloaded. -/
def sampleBody (pins cells : Bytes) (s : State) : State :=
  if s.linked then
    let s1 := s.tapLoad 0x02
    ({ s1 with isl := { s1.isl with bscan := cells } }).emit (.jtag pins)
  else s

/-- SAMPLE_PRELOAD. -/
def execSamplePreload (pins cells : Bytes) (s : State) : Host.Outcome State Fault Refusal := .next (sampleBody pins cells s)

/-- DEBUG connects the debug access port. -/
def debugInstrBody (s : State) : State := if s.linked then s.tapLoad 0x20 else s

/-- DEBUG. -/
def execDebugInstr (s : State) : Host.Outcome State Fault Refusal := .next (debugInstrBody s)

/-- BYPASS, under its own code or any other that is not listed. -/
def bypassBody (s : State) : State := if s.linked then s.tapLoad 0xFF else s

/-- BYPASS. -/
def execBypass (_code : BitVec 8) (s : State) : Host.Outcome State Fault Refusal := .next (bypassBody s)

/-! ### The island's supply (R360, R394) -/

/-- VAON_LOSS: the island runs on VBAT alone; with VBAT below 2.4 V in a service window sensor 14 fires (R360, R415). -/
def vaonLossBody (s : State) : State :=
  let s1 : State := { s with pwr := { s.pwr with vaon := false } }
  if s.battHolds && s.tmp.vbat < 240 then s1.fireFree 14 s.tmp.vbat else s1

/-- VAON_LOSS. -/
def execVaonLoss (s : State) : Host.Outcome State Fault Refusal := .next (vaonLossBody s)

/-- VAON_RETURN. -/
def execVaonReturn (s : State) : Host.Outcome State Fault Refusal := .next { s with pwr := { s.pwr with vaon := true } }

end Sys2Proof.Machine
end

