-- ==== Sys2Proof/Machine/LedgerCmds.lean ====
section
/-! DEFINITION. Ledger windows, flash commits, LEDGER_READ and NOP (R74, R373 to R383). -/
namespace Sys2Proof.Machine
open Sys2Proof

/-- RECORD_WINDOW_CLOSE (R373): a record's window has ended. -/
def windowCloseBody (seq : Nat) (s : State) : State :=
  { s with led := { s.led with
      recs := s.led.recs.map fun r => if r.seq = seq && r.winEnd ≤ s.tick then { r with isOpen := false } else r } }

/-- RECORD_WINDOW_CLOSE. -/
def execRecordWindowClose (seq : Nat) (s : State) : Host.Outcome State Fault Refusal := .next (windowCloseBody seq s)

/-- The block after the one that a batch's first record was written to, in the reserve or the general region: where a
failed write is tried again (R377). -/
def Ledger.nextBlock (g : Ledger) (l : List LedRec) : Ledger × Nat :=
  let at_ := (l.head?.bind g.blockFor).map Prod.snd
  match at_ with
  | some b =>
    if b < 16 then ({ g with curReserve := (b + 1) % 16 }, (b + 1) % 16)
    else
      let c := (g.freeBlock b).getD b
      ({ g with curGeneral := c }, c)
  | none => (g, g.curGeneral)

/-- FLASH_COMMIT_COMPLETE (R375, R377): a write of the region ends; a failed one moves on to another block, and the third in
a row stops commits. -/
def flashCommitBody (ok : Bool) (s : State) : State :=
  if !s.commitsRun || s.nextBatch.isEmpty then s
  else if ok then ({ s with led := { s.led with flashFails := 0 } }).commitAll s.nextBatch 0
  else
    let n := s.led.flashFails + 1
    let (g, b) := s.led.nextBlock s.nextBatch
    let s1 : State := { s with led := { g with flashFails := n % 3 } }
    if n < 3 then s1
    else ({ s1 with led := { s1.led with flashErr := true, resumeAt := s.tick + 64 } }).record 0x0103 4 0 (toLE 2 b)

/-- FLASH_COMMIT_COMPLETE. -/
def execFlashCommitComplete (ok : Bool) (s : State) : Host.Outcome State Fault Refusal := .next (flashCommitBody ok s)

/-- FLASH_COMMIT_RESUME (R377): 64 ticks after the third failure. -/
def execFlashCommitResume (s : State) : Host.Outcome State Fault Refusal :=
  .next (if s.led.flashErr && s.led.resumeAt ≤ s.tick then { s with led := { s.led with flashErr := false } } else s)

/-! ### LEDGER_READ (R382, R383) -/

/-- Whether a slice receives a record in full (R382). -/
def State.fullFor (s : State) (sl : Nat) (r : LedRec) : Bool :=
  sl = 0 || r.typ = 0x0101 || (r.src = srcSlice sl && (s.slice sl).createSeq ≤ r.seq)

/-- A record as a readout gives it, after its prefix. -/
def State.readOne (s : State) (sl : Nat) (r : LedRec) : Bytes :=
  let full := s.fullFor sl r
  let o := r.octets full
  toLE 1 (if full then 1 else 2) ++ zeros 3 ++ toLE 4 o.length ++ o

/-- The records of a readout: at most `n`, as many as fit `room` octets, with their octets. -/
def State.readList (s : State) (sl : Nat) : Nat → Nat → List LedRec → List (LedRec × Bytes)
  | 0, _, _ => []
  | _, _, [] => []
  | n + 1, room, r :: l =>
    let o := s.readOne sl r
    if o.length ≤ room then (r, o) :: s.readList sl n (room - o.length) l else []

/-- LEDGER_READ's effect. -/
def State.ledgerRead (s : State) (j : Job) : State :=
  let e := j.entry
  let due : Bool := 1 ≤ s.led.sinceCp
  let s1 := if due then s.checkpoint else s
  let issued := due && s.cpReady
  let start := s1.led.readStart e
  let upTo := fun (r : LedRec) => !issued || (match s1.led.lastCpSeq with | some q => r.seq ≤ q | none => true)
  let l := s1.readList j.slice (eW e 0x40) (eOutLen e) (s1.led.retained.filter fun r => start ≤ r.seq && upTo r)
  let next := match l.getLast? with | some x => x.1.seq + 1 | none => start
  let cp := issued && l.any fun x => s1.led.lastCpSeq = some x.1.seq
  let out := (l.map Prod.snd).flatten
  let res := toLE 8 next ++ toLE 4 l.length ++ toLE 1 (b2n cp + 2 * b2n (s1.led.readGap e) + 4 * b2n s1.unsigned) ++ zeros 3
  s1.finish j { code := cOK, outLen := out.length, result := res } out false

/-- LEDGER_READ; one that calls for a checkpoint does not end while the anchor tile is in SERVICING (R409), nor while the
checkpoint's draw waits for a pool word (R198). -/
def execLedgerRead (job : Nat) (r : RunEnd) (s : State) : Host.Outcome State Fault Refusal :=
  .next (
    match s.boundJob 0x0F01 job with
    | none => s
    | some (j, b) =>
      if 1 ≤ s.led.sinceCp && s.anchorAway then s
      else if 1 ≤ s.led.sinceCp && s.intBlocked then s.waitFor job
      else match s.stopped j b { r with eng := .ok } false [] (s.stopRes j b.tallyLeft) with
        | some s1 => s1
        | none => ((s.waitOver job).memNote r).ledgerRead j)

/-- NOP (R74): OPTIME and BARO_PACE at completion. -/
def execNop (job : Nat) (_r : RunEnd) (s : State) : Host.Outcome State Fault Refusal :=
  .next (
    match s.boundJob 0x0F00 job with
    | none => s
    | some (j, _) =>
      s.finish j { code := cOK, result := s.nopRes } [] false)

end Sys2Proof.Machine
end

