-- ==== Sys2Proof/Machine/Place.lean ====
section
/-! DEFINITION. JOB_BINDING (R20, R80, R82), placing work on members and taking their results (R303, R304, R310). -/
namespace Sys2Proof.Machine
open Sys2Proof

/-! ### Which work goes to a member (R303, R304) -/

/-- Whether a job's class of work is distributed: PK jobs, single-entry SYM jobs but HASH, not AES-CCM seals with NLEN
below 9. -/
def distributed (j : Job) : Bool :=
  let p := symPar j.entry
  match j.cls with
  | .pk => eOp j.entry != 0x0507
  | .sym => !isSegment j.entry && eOp j.entry != 0x0401 && !(eOp j.entry = 0x0301 && p.alg = 0x12 && p.nlen < 9)
  | _ => false

/-- The kinds of engine that a job distributed to members can take. -/
inductive Kind where
  | tiles | pairs | quads
  deriving DecidableEq, Repr

/-- The kind of engine a job takes. -/
def kindOf (j : Job) : Kind := if j.cls != .sym then .tiles else if keccakJob j.entry then .quads else .pairs

/-- Whether this unit has a free engine of the kind a job needs. -/
def State.ownFree (s : State) (j : Job) : Bool :=
  match kindOf j with
  | .quads => (List.range 24).any fun q => if h : q < 24 then s.keccakOn q && !s.engHeld (.keccak ⟨q, h⟩) else false
  | .pairs => s.freePairs != 0
  | .tiles => (List.range 96).any fun t => if h : t < 96 then s.tileFree ⟨t, h⟩ else false

/-- The pairs a job is taken to hold on a member: one, or as many as it asks for where it is striped (R176). -/
def pairsAsked (j : Job) : Nat :=
  let p := symPar j.entry
  if j.cls = .sym && p.stripe then Nat.max 1 (Nat.min (p.lanes / 2) (stripeCount p)) else 1

/-- How much of a kind stands on a member: jobs, and items on tiles. -/
def State.kindOn (s : State) (n : Nat) (k : Kind) : Nat :=
  (((s.jobsOn n).filter fun j => kindOf j = k).map pairsAsked).sum +
    if k = .tiles then (s.jobs.map fun j => (j.items.filter fun i => i.onMember n).length).sum else 0

/-- A member's free engines of a kind: those in service that it last reported, less what stands on it. -/
def State.memberFree (s : State) (k : Kind) (n : Nat) : Nat :=
  let m := s.member n
  (match k with | .tiles => m.engines | .pairs => m.pairs | .quads => m.quads) - s.kindOn n k

/-- Whether a member may take work: SERVING, reached by a path, not the one that lost it, with an engine free. -/
def State.memberOpen (s : State) (k : Kind) (n : Nat) (barred : Option Nat) : Bool :=
  n != 0 && (s.member n).st = .serving && (s.path n).isSome && barred != some n && s.memberFree k n != 0

/-- Whether a member holds what a secret-using job needs: committed replicas of its keys, a HEALTHY source. -/
def State.memberHolds (s : State) (n : Nat) (j : Job) : Bool :=
  let has := fun (h : Nat) => h = 0 || match s.resolve j.slice h with | some k => s.hasReplica k n | none => false
  !opSecret (eOp j.entry) || ((s.member n).esHealthy && has (eKeyA j.entry) && has (eKeyB j.entry))

/-- The eligible member with the most free engines, the lowest ID on a tie. -/
def State.bestMember (s : State) (k : Kind) (ok : Nat → Bool) : Option Nat :=
  s.rosterIds.foldl (fun a n =>
    if ok n then
      match a with
      | some b => if s.memberFree k b < s.memberFree k n then some n else a
      | none => some n
    else a) none

/-- Whether a job goes to a member now: distributed, no engine of this unit's free, the member the best of the eligible. -/
def State.goesTo (s : State) (n : Nat) (j : Job) : Bool :=
  s.clu.role = .head && distributed j && !s.ownFree j &&
    s.bestMember (kindOf j) (fun m => s.memberOpen (kindOf j) m j.member && s.memberHolds m j) = some n

/-! ### Binding for a member -/

/-- The octets of a JOB payload (the layout is the model's own, R292): number, item, entry, input, public halves of keys. -/
def jobOctets (id : Nat) (item : Option Nat) (entry input : Bytes) (keys : List (Option KeyRec)) : Bytes :=
  toLE 8 id ++ toLE 2 (match item with | some i => i + 1 | none => 0) ++ entry ++ toLE 4 input.length ++ input ++
    (keys.map fun k => match k with | some x => toLE 2 x.pub.length ++ x.pub | none => toLE 2 0).flatten

/-- Whether a job is bound. -/
def State.isBound (s : State) (id : Nat) : Bool := match s.job id with | some x => x.phase = .bound | none => false

/-- A job that has taken what it needs is placed on a member: its JOB frames are sent (R303). -/
def State.place (s : State) (n : Fin 64) (j : Job) (b : Bound) : State :=
  (s.putJob { j with phase := .bound, bnd := some b, placements := j.placements + 1, started := true }).toMember n.val 3
    (jobOctets j.id none j.entry j.input [b.keyA, b.keyB])

/-- A job binds for a member in the head's key store (R304): checked and charged here. A value of the key's invocation counter
is taken on the member, from a range counted as taken already, so that the key's own counter does not move; it refuses a nonce
that is too short for it (R169), while the counter's end is the member's to meet. -/
def State.bindFor (s : State) (n : Fin 64) (j : Job) (m : MemOutcome) : State :=
  let key := if (needA (s.jobView j) j.entry).inv.isSome then s.resolve j.slice (eKeyA j.entry) else none
  let s0 := match key with
    | some k => s.putKey { k with inv := if (match (needA (s.jobView j) j.entry).inv with | some w => w < 64 && 2 ^ w ≤ k.inv | none => false) then k.inv else 0 }
    | none => s
  let back := fun (x : State) => match key with
    | some k => (match NMap.find x.ks.keys k.place with
      | some k1 => x.putKey { k1 with inv := k.inv }
      | none => x)
    | none => x
  match s0.taking j m with
  | (s1, .inl r) => (back s1).refuseJob j r
  | (s1, .inr t) =>
    let (s2, b) := s1.mkBound j (.member n) t
    ((back s2).consume j.slice t.approval (eKeyA j.entry)).place n j b

/-- JOB_BINDING for a member: the job whose turn it is, placed there; one placed before keeps its binding (Table 13.6). A
member's tiles are granted in R82's pattern, as this unit's are (R303). -/
def State.bindRemote (s : State) (f : Fifo) (n : Fin 64) (m : MemOutcome) : State :=
  if f = .pk && s.itemWaits && s.grantBulk then s
  else match s.nextJob f (s.goesTo n.val) with
  | none => s
  | some j =>
    let s1 := match j.bnd with
      | some b => s.place n j { b with eng := .member n, arrived := false }
      | none => s.bindFor n j m
    if f = .pk && s.shared && s1.isBound j.id then s1.shareStep else s1

/-! ### Binding on a member (R303, R304) -/

/-- Whether a job takes a value of KEY_A's invocation counter. -/
def State.takesValue (s : State) (j : Job) : Bool := (needA (s.jobView j) j.entry).inv.isSome

/-- The replica a head's job works under. -/
def State.replicaOf (s : State) (j : Job) : Option Replica := NMap.find s.clu.held (eKeyA j.entry)

/-- Whether a job waits for the next range of its key (R304). -/
def State.rangeWait (s : State) (j : Job) : Bool :=
  j.remote.isSome && s.takesValue j && match s.replicaOf j with
    | some r => r.ranges.isEmpty && !r.ended
    | none => false

/-- A replica with fewer than 2^22 values left asks the head for its next range, once (R304). -/
def State.askMore (s : State) (h : Nat) : State :=
  match NMap.find s.clu.held h with
  | some r =>
    if !r.asked && !r.ended && (r.ranges.map fun x => x.2 + 1 - x.1).sum < 2 ^ 22 then
      ({ s with clu := { s.clu with held := NMap.set s.clu.held h { r with asked := true } } }).sendMove 0
        (.askRange (BitVec.ofNat 64 h))
    else s
  | none => s

/-- The lowest value of a replica's ranges is taken. -/
def Replica.take (r : Replica) : Option (Nat × Replica) :=
  match r.ranges with
  | [] => none
  | (a, b) :: t => some (a, { r with ranges := if a < b then (a + 1, b) :: t else t })

/-- The keys a head's job works under: replicas held here, public halves it brings. -/
def State.remoteKey (s : State) (h : Nat) (pub : Bytes) (ivFixed inv : Nat) : Option KeyRec :=
  if h = 0 then none
  else match NMap.find s.clu.held h with
    | some r => some { handle := h, alg := r.alg, pset := r.pset, material := r.material, ivFixed := ivFixed, inv := inv, pub := pub }
    | none => some { handle := h, ktype := 2, pub := pub }

/-- A head's job takes an offered engine of this member: its value of the invocation counter from the range held, in
ascending order (R304), and its fresh values from this unit's own generators; nothing is checked or charged here. -/
def State.bindHere (s : State) (j : Job) (x : RemoteJob) (g : Engine) (rng : EngineEnd) : State :=
  let h := eKeyA j.entry
  let refuse := fun (s : State) (c d : Nat) => s.finish j { code := c, detail := d } [] true
  let go := fun (s : State) (inv : Option Nat) (rnd : Option Bytes) =>
    let t : Taking :=
      { keyA := s.remoteKey h x.pubA x.ivFixed.toNat (inv.getD 0), keyB := s.remoteKey (eKeyB j.entry) x.pubB 0 0
        inv := inv.getD 0, rnd := rnd }
    let (s1, b) := s.mkBound j g t
    (s1.putJob { j with phase := .bound, bnd := some { b with limit := 0, invTaken := inv.isSome }, started := true }).engTake g
  let take := fun (s : State) (rnd : Option Bytes) =>
    if !s.takesValue j then go s none rnd
    else match s.replicaOf j with
      | none => refuse s cNotFound 2
      | some r => match r.take with
        | some (v, r1) =>
          if (match (needA (s.jobView j) j.entry).inv with | some w => decide (2 ^ w ≤ v) | none => false) then refuse s cWrap 2
          else go (({ s with clu := { s.clu with held := NMap.set s.clu.held h r1 } }).askMore h) (some v) rnd
        | none => refuse s cWrap 1
  if !opSecret (eOp j.entry) then take s none
  else match s.intRequest rng with
    | (s1, .got out) => take (s1.waitOver j.id) (some out)
    | (_, .wait) => s.waitFor j.id
    | (s1, .refused c d) => refuse s1 c d

/-! ### JOB_BINDING -/

/-- Whether binding goes on at all: running, PFW_N high (R400), awake. -/
def State.bindOn (s : State) : Bool := s.running && !s.mute && s.linked && !s.asleep

/-- A staged job of the PK, SYM or KEY FIFO takes the offered engine (R80, R82, R112). -/
def State.bindOwn (s : State) (f : Fifo) (g : Engine) (m : MemOutcome) (rng : EngineEnd) : State :=
  match s.nextJob f fun j => s.engFits j g && !s.rangeWait j with
  | none => s
  | some j =>
    let tileOk : Bool := match g with
      | .tile t => !(s.itemWaits && s.grantBulk) && s.warmOk (s.homeOf j) t && s.tileHashes t (s.jobPass j)
      | _ => true
    if !tileOk then s
    else
      let s1 := s.wakeFor 6
      let s2 := match j.bnd, j.remote with
        | none, some x => s1.bindHere j x g rng
        | some b, _ =>
          let warm := eOp j.entry = 0x0102 && warmOn (s.resolve j.slice (eKeyA j.entry)) g
          (s1.putJob { j with phase := .bound, bnd := some { b with eng := g, warm := warm }, started := true }).engTake g
        | none, none => s1.bindJob j g m rng
      if f = .pk && s.shared && s2.isBound j.id then s2.shareStep else s2

/-- A bulk item is placed on a member, where no tile of this unit's is free (R303). -/
def State.bulkRemote (s : State) (n : Fin 64) (m : MemOutcome) : State :=
  let s1 := s.bulkHead m
  match s1.nextItem with
  | none => s1
  | some (j, i) =>
    let free := (List.range 96).any fun t => if h : t < 96 then s1.tileFree ⟨t, h⟩ else false
    if s1.clu.role != .head || free || (s1.pkWaits && !s1.grantBulk) ||
        s1.bestMember .tiles (fun x => s1.memberOpen .tiles x i.barred) != some n.val then s1
    else
      let s2 := s1.bindItem j i (.member n) m
      let placed : Bool := match s2.job j.id with
        | some x => x.items.any fun y => y.idx = i.idx && y.onMember n.val
        | none => false
      if placed then s2.toMember n.val 3 (jobOctets j.id (some i.idx) j.entry i.body [i.keyA]) else s2

/-- One offer of an engine to a FIFO. -/
def State.offer (s : State) (fifo : Fifo) (eng : Engine) (mem : MemOutcome) (rng : EngineEnd) : State :=
  match fifo, eng with
  | .bulk, .member n => s.bulkRemote n mem
  | .bulk, _ => s.bindBulk eng mem
  | .rng, _ => s.bindRead eng
  | f, .member n => s.bindRemote f n mem
  | f, _ => s.bindOwn f eng mem rng

/-- JOB_BINDING: passes that are over return their lanes and passes that wait take theirs first (R109); back-pressure is judged
anew (R81). -/
def execJobBinding (fifo : Fifo) (eng : Engine) (mem : MemOutcome) (rng : EngineEnd) (s : State) :
    Host.Outcome State Fault Refusal :=
  .next (
    if !s.bindOn then s else ((s.passEnds.hashFill.offer fifo eng mem rng).hashFill).bpNote)

/-! ### JOB and RESULT frames (R303, R310) -/

/-- A head's job enters this member's queue (R303). It stands on no ring. -/
def State.takeJob (s : State) (x : RemoteJob) : State :=
  let id := s.qsc.nextJob
  let e := Bytes.fit x.entry 128
  let j : Job :=
    { id := id, slice := 0, ring := 0x10000 + id, index := 0, addr := 0, pasid := none, entry := e, cls := (opFifo (eOp e)).getD .pk
      phase := .staged, input := x.input, remote := some x }
  (({ s with qsc := { s.qsc with nextJob := id + 1 }, jobs := s.jobs ++ [j] }).askMore (eKeyA e)).hwmUp.bpNote

/-- JOB: a member takes the job, which its engines then run; the payload's layout is not described (R292). -/
def execJobFrame (port : Fin 4) (f : FrameHdr) (j : RemoteJob) (s : State) : Host.Outcome State Fault Refusal :=
  .next (s.onFrame port f 3 fun s =>
    if s.clu.role = .member && !s.clu.headLost && s.clu.leaving.isNone && f.src.val = 0 then (s.toMember 0 7 []).takeJob j else s)

/-- The state a meaning answers. -/
def stateOf (o : Host.Outcome State Fault Refusal) (s : State) : State := match o with
  | .next t => t
  | _ => s

/-- A job that ran on a member ends by its opcode's own rules. -/
def State.concludeJob (s : State) (j : Job) (r : RunEnd) : State :=
  let e := fun (f : Nat → RunEnd → State → Host.Outcome State Fault Refusal) => stateOf (f j.id r s) s
  match eOp j.entry with
  | 0x0101 => e execPkSign
  | 0x0102 => e execPkVerify
  | 0x0103 => e execPkKeygen
  | 0x0104 => e execPkDerive
  | 0x0105 => e execKemEncaps
  | 0x0106 => e execKemDecaps
  | 0x0107 => e execRsaDecrypt
  | 0x0108 => e execRsaEncrypt
  | 0x0301 => e execAeadSeal
  | 0x0302 => e execAeadOpen
  | 0x0303 => e execCipher
  | 0x0402 => e execMacGen
  | 0x0403 => e execMacCheck
  | 0x0404 => e execKdf
  | _ => s

/-- A result that no placement waits for is discarded and counted (R310). -/
def State.lateResult (s : State) : State := { s with clu := { s.clu with late := satAdd 32 s.clu.late 1 } }

/-- An item that ran on a member is decided, or placed once more after an engine fault there (R141). -/
def State.remoteItem (s : State) (j : Job) (b : Bound) (i : Item) (r : RunEnd) : State :=
  match endDetail false r.eng with
  | some d => s.itemAgain j.id d i
  | none => s.putJob (j.setItem { i with member := none, out := some ((s.itemVerify j b i).getD (0, 0)) })

/-- A binding as a member's RESULT completes it: the pairs held there, and the nonce that the value of its range formed, with
the member's ID in IV_FIXED (R168, R304). -/
def State.memberBound (s : State) (n : Nat) (j : Job) (b : Bound) (res : RemoteResult) : Bound :=
  let v := res.inv.getD 0
  let nonce := match (if s.takesValue j then b.keyA else none) with
    | some k => ({ s with clu := { s.clu with id := n } }).formNonce (symPar j.entry) j.entry { k with inv := v } b.rnd
    | none => b.nonce
  { b with arrived := true, pairs := res.pairs, inv := if s.takesValue j then v else b.inv, nonce := nonce }

/-- A RESULT frame's effect on the head. -/
def State.result (s : State) (src : Fin 64) (res : RemoteResult) : State :=
  match s.job res.job with
  | none => s.lateResult
  | some j =>
    match j.bnd, res.item with
    | some b, none =>
      if b.eng = .member src && j.phase = .bound then
        match res.refused with
        | some (c, d) => s.refuseJob j { code := c, detail := d }
        | none => (s.putJob { j with bnd := some (s.memberBound src.val j b res) }).concludeJob j res.run
      else s.lateResult
    | some b, some n =>
      match j.items.find? fun i => i.idx = n && i.onMember src.val with
      | some i => s.remoteItem j b i res.run
      | none => s.lateResult
    | none, _ => s.lateResult

/-- RESULT. -/
def execResultFrame (port : Fin 4) (f : FrameHdr) (res : RemoteResult) (s : State) : Host.Outcome State Fault Refusal :=
  .next (s.onFrame port f 4 fun s => if s.clu.role = .head then s.result f.src res else s)

end Sys2Proof.Machine
end

