-- ==== Sys2Proof/Machine/Pci.lean ====
section
/-! DEFINITION. The PCIe function's configuration space (R25, R29, R403): identification, BARs, capabilities. -/
namespace Sys2Proof.Machine
open Sys2Proof

/-! ### PCIe configuration (R25, R29, R403) -/

/-- The capabilities of Table 2.2 that the function carries. -/
inductive PciCap where
  | express | power | msix | aer | pasid | serial | secondary | dataLink | phy16 | phy32 | margining
  deriving DecidableEq, Repr

/-- Table 2.2's present rows, in its order; MSI, SR-IOV, ATS, PRI, ACS, Resizable BAR, TPH, DPC and IDE are absent. -/
def pciCaps : List PciCap :=
  [.express, .power, .msix, .aer, .pasid, .serial, .secondary, .dataLink, .phy16, .phy32, .margining]

/-- The identifier a capability's first word carries (PRESUMED: PCI Express Base): Power Management, MSI-X and PCI Express
are of the first list, the others extended. -/
def PciCap.ident : PciCap → Nat
  | .power => 0x01 | .express => 0x10 | .msix => 0x11
  | .aer => 0x0001 | .serial => 0x0003 | .secondary => 0x0019 | .pasid => 0x001B | .dataLink => 0x0025 | .phy16 => 0x0026
  | .margining => 0x0027 | .phy32 => 0x002A

/-- Where a capability stands: three in the first 256 octets, the rest from 0x100 on, none over another. The manual gives no
places (PRESUMED: the sizes of the Base specification; DESIGN CHOICE: the order). -/
def PciCap.base : PciCap → Nat
  | .power => 0x40 | .msix => 0x50 | .express => 0x70
  | .aer => 0x100 | .secondary => 0x150 | .phy16 => 0x180 | .phy32 => 0x1B0 | .dataLink => 0x1E0 | .margining => 0x1F0
  | .serial => 0x240 | .pasid => 0x250

/-- How many octets a capability takes (PRESUMED: PCI Express Base, a link of sixteen lanes). -/
def PciCap.size : PciCap → Nat
  | .power => 8 | .msix => 12 | .express => 0x3C
  | .aer => 0x48 | .secondary => 0x2C | .phy16 => 0x30 | .phy32 => 0x30 | .dataLink => 12 | .margining => 0x48
  | .serial => 12 | .pasid => 8

/-- The next capability of a capability's list: the chain that a search follows names each present one and no absent one. -/
def PciCap.next : PciCap → Nat
  | .power => PciCap.base .msix | .msix => PciCap.base .express | .express => 0
  | .aer => PciCap.base .secondary | .secondary => PciCap.base .phy16 | .phy16 => PciCap.base .phy32
  | .phy32 => PciCap.base .dataLink | .dataLink => PciCap.base .margining | .margining => PciCap.base .serial
  | .serial => PciCap.base .pasid | .pasid => 0

/-- A capability's first word: its identifier and where the next one stands. -/
def PciCap.head (c : PciCap) (free : W32) : W32 :=
  match c with
  | .power | .msix | .express => (free &&& 0xFFFF0000) ||| BitVec.ofNat 32 (c.ident + 0x100 * c.next)
  | _ => (free &&& 0x000F0000) ||| BitVec.ofNat 32 (c.ident + 0x100000 * c.next)

/-- The words of a capability that Table 2.2, R25 and R398 give: an endpoint of up to x16 and 32 GT/s that shows all five
speeds and no Function Level Reset, D0 and D3hot but neither D1 nor D2, with No_Soft_Reset; 2,048 vectors with table and array
in BAR 0 at Table 2.1's offsets; Max PASID Width 20 with neither permission bit; UID bits [63:0]. -/
def PciCap.word (c : PciCap) (d3 : Bool) (k : Nat) (free : W32) : W32 :=
  match c, k with
  | .power, 0 => c.head free &&& 0xF9FFFFFF
  | .power, 4 => (free &&& 0xFFFFFFF4) ||| (if d3 then 0xB else 0x8)
  | .msix, 0 => (c.head free &&& 0xF800FFFF) ||| 0x07FF0000
  | .msix, 4 => 0x00F00000
  | .msix, 8 => 0x00F08000
  | .express, 0 => (c.head free &&& 0xFF00FFFF) ||| 0x00020000
  | .express, 4 => free &&& 0xEFFFFFFF
  | .express, 0xC => (free &&& 0xFFFFFC00) ||| 0x105
  | .express, 0x2C => (free &&& 0xFFFFFF01) ||| 0x3E
  | .pasid, 4 => (free &&& 0xFFFF0000) ||| 0x1400
  | .serial, 4 => uidWord uidBytes 0
  | .serial, 8 => uidWord uidBytes 1
  | _, 0 => c.head free
  | _, _ => free

/-- A word of configuration space: identification, class and BARs as R25 and R29 state them, the head of the capability list,
then the capabilities; every other word is a free value. -/
def State.pciRead (s : State) (off : Nat) : W32 :=
  let free := Config.pciWord off s.pci.command
  match off with
  | 0x00 => 0x0940#16 ++ Config.vendorId
  | 0x04 => (free &&& 0xFFEF0000) ||| 0x00100000 ||| (s.pci.command &&& 0xFFFF)
  | 0x08 => 0x108000B0
  | 0x0C => free &&& 0xFF00FFFF
  | 0x10 => BitVec.ofNat 32 s.pci.bar0
  | 0x14 => 0
  | 0x18 => half s.pci.bar2 0 ||| 0xC
  | 0x1C => half s.pci.bar2 1
  | 0x20 => half s.pci.bar4 0 ||| 0x4
  | 0x24 => half s.pci.bar4 1
  | 0x34 => (free &&& 0xFFFFFF00) ||| BitVec.ofNat 32 (PciCap.base .power)
  | _ =>
    match pciCaps.find? fun c => c.base ≤ off && off < c.base + c.size with
    | some c => c.word s.pwr.d3 (off - c.base) free
    | none => free

/-- A BAR's address bits: those below the window's size read 0 and cannot be written (R25). -/
def barFit (size v : Nat) : Nat := v / size * size

/-- A word of configuration space is written: the Command register, the addresses of the three BARs. -/
def State.pciWrite (s : State) (off : Nat) (v : W32) : State :=
  let p := s.pci
  let lo := fun (old : Nat) => old / 2 ^ 32 * 2 ^ 32 + v.toNat
  let hi := fun (old : Nat) => v.toNat * 2 ^ 32 + old % 2 ^ 32
  match off with
  | 0x04 => { s with pci := { p with command := v &&& 0xFFFF } }
  | 0x10 => { s with pci := { p with bar0 := barFit (2 ^ 24) v.toNat } }
  | 0x18 => { s with pci := { p with bar2 := barFit (2 ^ 29) (lo p.bar2) } }
  | 0x1C => { s with pci := { p with bar2 := hi p.bar2 } }
  | 0x20 => { s with pci := { p with bar4 := barFit (2 ^ 26) (lo p.bar4) } }
  | 0x24 => { s with pci := { p with bar4 := hi p.bar4 } }
  | _ => s

/-- A word with the octets that four byte enables choose taken from another. -/
def mergeOctets (old new : W32) (be : Nat) : W32 :=
  (List.range 4).foldl (fun a i => if be.testBit i then a &&& ~~~(0xFF#32 <<< (8 * i)) ||| new &&& (0xFF#32 <<< (8 * i)) else a) old

/-- A configuration write: retry status until the function answers; then the words that the byte enables touch. -/
def configWriteBody (addr : Nat) (be : BitVec 8) (data : BitVec 64) (s : State) : State :=
  let base := addr % 4096 / 8 * 8
  let put := fun (i : Nat) (a : State) =>
    let n := be.toNat / 16 ^ i % 16
    let off := base + 4 * i
    if n = 0 then a else a.pciWrite off (mergeOctets (a.pciRead off) (half data.toNat i) n)
  if !s.linked then s
  else if !s.pwr.configUp then s.emit (.config none)
  else (put 1 (put 0 s)).emit (.config (some []))

/-- The words of configuration space. -/
def State.configSpace (s : State) : List W32 := (List.range 1024).map fun i => s.pciRead (4 * i)

/-- A configuration read: retry status until the function answers, then its words; the command does not say which one is
read, so all are shown. -/
def configReqBody (s : State) : State :=
  if !s.linked then s else if !s.pwr.configUp then s.emit (.config none) else s.emit (.config (some s.configSpace))

/-- CONFIGURATION_REQUEST; a write of configuration space is a REGISTER_WRITE to the window of that name. -/
def execConfigurationRequest (s : State) : Host.Outcome State Fault Refusal := .next (configReqBody s)

end Sys2Proof.Machine
end

