-- ==== Sys2Proof/Machine/PowerOps.lean ====
section
/-! DEFINITION. Shared by the weather ladder's commands (R390, R395): what refuses a deep entry, and its outcome. -/
namespace Sys2Proof.Machine
open Sys2Proof

/-- The first condition of R395 that refuses a PWR_CMD; `known` says whether OP is 1 or 2. -/
def State.deepBad (s : State) (known : Bool) : Option (Nat × Nat) :=
  if !s.devFeat 3 then some (cFeature, 3)
  else if s.clu.role != .standalone then some (cForbids, 0x60)
  else if s.grantNow.isSome || s.lcs.grantStaged.isSome || s.lcs.pending then some (cForbids, 0x61)
  else if s.cmdBusy then some (cForbids, 1)
  else if !known then some (cBadParam, 6)
  else none

/-- PWR_CMD_RES takes an outcome; a command already running stays BUSY. -/
def State.pwrRes (s : State) (code detail : Nat) : State :=
  { s with pwr := { s.pwr with cmd := { s.pwr.cmd with st := if s.pwr.cmd.st = 1 then 1 else 2, code := code, detail := detail } } }

/-- A write of GO to PWR_CMD. -/
def State.pwrGo (s : State) (known : Bool) (f : State → State) : State :=
  s.onPage .pwr fun s => match s.deepBad known with
    | some (c, d) => s.pwrRes c d
    | none => f s

end Sys2Proof.Machine
end

