-- ==== Sys2Proof/Machine/RegWrite.lean ====
section
/-! DEFINITION. A host write to a register that has no row of its own (R26, R31, R36 to R38): applied, refused or dropped. -/
namespace Sys2Proof.Machine
open Sys2Proof

/-! ### Plain registers -/

/-- A wide pair takes both halves (R38): the low half held, or the present one. -/
def State.applyPair (s : State) (p : Page) (lo : Nat) (hi : W32) : State :=
  let k := regKey p lo
  let l := NMap.getD s.wideHeld k (s.rg p lo)
  let mix := fun (off : Nat) (v : W32) => (s.rg p off &&& ~~~s.writable p off) ||| (v &&& s.writable p off)
  let nl := mix lo l
  let nh := mix (lo + 4) hi
  let s1 : State := { (s.setRg p lo nl).setRg p (lo + 4) nh with wideHeld := NMap.del s.wideHeld k }
  if nl = s.rg p lo && nh = s.rg p (lo + 4) then s1 else s1.bumpGen p

/-- A register of the file takes a value; the low half of a pair is held until the high half comes. Any other offset holds
nothing that a write changes. -/
def State.writePlain (s : State) (p : Page) (off : Nat) (v : W32) : State :=
  match regDesc p off with
  | none => s
  | some d =>
    if d.lo then { s with wideHeld := NMap.set s.wideHeld (regKey p off) v }
    else if d.hi then s.applyPair p (off - 4) v
    else s.writeRg p off v

/-- A plain write that a range check may refuse; where the field is locked the check does not apply (R36). -/
def State.writeRanged (s : State) (p : Page) (off : Nat) (v : W32) (ok locks : Bool) (code detail : Nat) : State :=
  if ok || (locks && (s.hd p).lock) then s.writePlain p off v else s.refuse p code detail

/-- A field held outside the register file changes: PG_GEN counts where it differs. -/
def State.writeField (s : State) (p : Page) (changed : Bool) (t : State) : State := if changed then t.bumpGen p else s

/-! ### Block by block -/

/-- The header registers that a write changes: PG_INT_STAT is W1C (R34); PG_CTRL takes its three fields together (R32);
PG_INT_EN and PG_LOCK do what their rows say (R34, R36). -/
def State.writeHdr (s : State) (p : Page) (off : Nat) (v : W32) : State :=
  s.onHdr p fun s =>
  let h := s.hd p
  match off with
  | 0x00C => s.ctrlWrite p (v.getLsbD 0) (v.getLsbD 1) (v.getLsbD 2) none
  | 0x014 => s.setHd p { h with intStat := h.intStat &&& ~~~v }
  | 0x018 => intEnBody p v s
  | 0x020 => lockBody p (v.getLsbD 0) s
  | _ => s

/-- GLB: the flags are W1C (Table 2.5). -/
def State.writeGlb (s : State) (off : Nat) (v : W32) : State :=
  let g := s.glb
  if off = 0x058 then
    { s with glb :=
      { g with
        stateLost := g.stateLost && !v.getLsbD 0, tamperReset := g.tamperReset && !v.getLsbD 1
        wdogReset := g.wdogReset && !v.getLsbD 2, badacc := g.badacc && !v.getLsbD 3 } }
  else s.writePlain .glb off v

/-- PWR (R391, R395, Table 17.5). -/
def State.writePwr (s : State) (off : Nat) (v : W32) : State :=
  if off = 0x044 then
    if 3 < fld v 0 2 then s.refuse .pwr cBadParam 1
    else if fld v 0 2 = 3 && s.clu.role != .standalone then s.refuse .pwr cForbids 0x60
    else s.writeRanged .pwr off v (fld v 8 8 != 0 && fld v 16 16 != 0) false cBadParam 2
  else if off = 0x048 then
    if v.getLsbD 31 && fld v 0 2 != 1 && fld v 0 2 != 2 then s.pwrGo false id else s
  else if off = 0x04C then s.writeRanged .pwr off v (fld v 0 14 != 0 && fld v 0 14 ≤ 10000) false cBadParam 2
  else s.writePlain .pwr off v

/-- LCS: a GO with an OP that Table 15.12 does not list. -/
def State.writeLcs (s : State) (off : Nat) (v : W32) : State :=
  if off = 0x048 then
    if v.getLsbD 31 && (fld v 0 3 = 0 || 5 < fld v 0 3) then s.lcsGo fun s => s.refuse .lcs cBadParam 6 else s
  else s.writePlain .lcs off v

/-- TMP (R36, R361, Table 15.13). -/
def State.writeTmp (s : State) (off : Nat) (v : W32) : State :=
  let t := s.tmp
  if (s.hd .tmp).lock then s
  else match off with
    | 0x048 =>
      if (List.range 16).any fun n => fld v (2 * n) 2 = 3 then s.refuse .tmp cBadParam 1
      else if s.lcsCode = 4 && [0, 14, 15].any fun n => fld v (2 * n) 2 != s.response n then s.refuse .tmp cForbids 0x50
      else if s.lcsCode != 3 && s.lcsCode != 4 then s
      else s.writeField .tmp (decide (v.toNat != s.respView)) { s with tmp := { t with resp := v } }
    | 0x04C => s.writeField .tmp (v &&& 0x1FE != t.en &&& 0x1FE) { s with tmp := { t with en := v &&& 0x1FE } }
    | 0x050 =>
      let n := fld v 0 7
      if n = 0 || 125 < n then s.refuse .tmp cBadParam 2
      else s.writeField .tmp (n != t.mesh) { s with tmp := { t with mesh := n } }
    | 0x054 =>
      let n := fld v 8 8
      if n = 0 then s.refuse .tmp cBadParam 2
      else s.writeField .tmp (n != t.swDebounce || fld v 0 4 != t.swPol) { s with tmp := { t with swPol := fld v 0 4, swDebounce := n } }
    | _ => s

/-- Whether MEM, CORE and MPU hold a register at an offset that the host may not write (R331). -/
def kernelReg : Page → Nat → Bool
  | .mem, off => 0x040 ≤ off && off ≤ 0x070 && off != 0x068
  | .core n, off => off = 0x040 || off = 0x044 || off = 0x048 || (n.val = 0 && off = 0x084)
  | .mpu _, off => (0x040 ≤ off && off ≤ 0x058) || (0x100 ≤ off && off < 0x300)
  | _, _ => false

/-- CLU: HB_TIMEOUT, and a GO with an OP other than EXECUTE (Table 13.8). -/
def State.writeClu (s : State) (off : Nat) (v : W32) : State :=
  if off = 0x080 then s.writeRanged .clu off v (2 ≤ fld v 0 7 && fld v 0 7 ≤ 64) true cBadParam 1
  else if off = 0x098 then
    if v.getLsbD 31 && fld v 0 2 != 1 then (if s.clu.cmd.st = 1 then s.refuse .clu cForbids 1 else s.refuse .clu cBadParam 6) else s
  else s.writePlain .clu off v

/-- QSC: the bulk share, and a ring command that Table 3.9 does not list. -/
def State.writeQsc (s : State) (off : Nat) (v : W32) : State :=
  if off = 0x054 then s.writeRanged .qsc off v (fld v 0 4 != 0) false cBadParam 7
  else if off = 0x110 then (if fld v 0 2 = 2 || fld v 0 2 = 3 then s else s.refuse .qsc cBadParam 6)
  else s.writePlain .qsc off v

/-- SLM page 0: the block length, and a GO with an OP that Table 12.3 does not list. -/
def State.writeSlm0 (s : State) (off : Nat) (v : W32) : State :=
  if off = 0x050 then s.writeRanged (.slm 0) off v (fld v 0 14 ≤ 8192) false cBadParam 9
  else if off = 0x040 then
    if v.getLsbD 31 && (fld v 0 4 = 0 || 6 < fld v 0 4) then
      (if s.slm.cmd.st = 1 then s.refuse (.slm 0) cForbids 1
       else if !s.glb.committed then s.refuse (.slm 0) cFeature 0
       else s.refuse (.slm 0) cBadParam 6)
    else s
  else s.writePlain (.slm 0) off v

/-- SLM page 1 (R286): SLM_MB_SLICE always; every other write acts on the selected slice, if it has a mailbox in use. -/
def State.writeSlm1 (s : State) (off : Nat) (v : W32) : State :=
  if off = 0x040 then s.writePlain (.slm 1) off v
  else s.onSelected fun sl s =>
    let m := (s.slice sl.val).mbox
    if off = 0x04C then s.writeField (.slm 1) (m.txLen != fld v 0 7) (s.setMbox sl.val { m with txLen := fld v 0 7 })
    else if 0x0C0 ≤ off && off ≤ 0x0FC then
      let i := (off - 0x0C0) / 4
      s.writeField (.slm 1) (NMap.getD m.txWords i 0 != v) (s.setMbox sl.val { m with txWords := NMap.set m.txWords i v })
    else s

/-- The OP codes of Table 6.7. -/
def benchOps : List Nat := [0x01, 0x02, 0x03, 0x04, 0x05, 0x06, 0x07, 0x08, 0x09, 0x0A, 0x0B, 0x10, 0x11, 0x12, 0x18, 0x19, 0x1A]

/-- The bench registers of a tile (R133, R134, Table 6.8). -/
def State.writePkt (s : State) (t : Fin 96) (off : Nat) (v : W32) : State :=
  let x := s.tile t.val
  let p := Page.pkt t
  let a := fld v 0 14
  let put := fun (changed : Bool) (y : Tile) => s.writeField p changed (s.setTile t.val y)
  if off < 0x048 || 0x068 < off then s
  else if x.busy then s.refuse p cForbids 4
  else match off with
    | 0x048 => if v.getLsbD 2 then s.setTile t.val { x with done := false } else s
    | 0x04C =>
      let y : Tile := { x with op := fld v 0 8, l := fld v 8 8 }
      if v.getLsbD 31 then
        if benchOps.contains (fld v 0 8) then s
        else if !x.bench then s.refuse p cForbids 3
        else s.setTile t.val { y with done := true, err := 1, waves := 0 }
      else put (y.op != x.op || y.l != x.l) y
    | 0x050 => put (a != x.a) { x with a := a }
    | 0x054 => put (a != x.b) { x with b := a }
    | 0x058 => put (a != x.d) { x with d := a }
    | 0x05C => put (a != x.addr) { x with addr := a }
    | 0x060 => if x.bench then s.setTile t.val { x with dataLo := v } else s.refuse p cForbids 3
    | 0x064 => benchDataBody t true v s
    | _ => s

/-- CORE page 0: a GO with an OP that Table 18.1 does not list; the argument registers. -/
def State.writeCore (s : State) (n : Fin 16) (off : Nat) (v : W32) : State :=
  if n.val = 0 && off = 0x100 then
    if v.getLsbD 31 && (fld v 0 3 = 0 || 5 < fld v 0 3) then s.svcGo fun s => s.svcEnd cBadParam 6 else s
  else s.writePlain (.core n) off v

/-- A slice's control page: a ring command that Table 3.8 does not list. -/
def State.writeSlc (s : State) (sl : Fin 4096) (off : Nat) (v : W32) : State :=
  if off = 0x118 then
    if 1 ≤ fld v 0 3 && fld v 0 3 ≤ 4 then s else s.onRing sl fun _ _ => s.refuse (.slc sl) cBadParam 6
  else s.writePlain (.slc sl) off v

/-- A mailbox page: slice 0 has none; the outgoing words are frozen while a message waits (R283). -/
def State.writeMbx (s : State) (sl : Fin 4096) (off : Nat) (v : W32) : State :=
  s.onMailbox sl fun s =>
    if 0x080 ≤ off && off ≤ 0x0BC && (s.slice sl.val).mbox.outFull then s.refuse (.mbx sl) cForbids 6
    else s.writePlain (.mbx sl) off v

/-- A teller page: only a live one takes writes, and none while an operation runs (R186, R189). -/
def State.writeTel (s : State) (sl : Fin 4096) (k : Fin 2) (off : Nat) (v : W32) : State :=
  let p := Page.tel sl k
  if off = 0x040 && fld v 0 3 != 0 then s
  else if !s.tellerLive sl.val k.val then s.refuse p cForbids 1
  else if (s.teller sl.val k.val).st = 1 then s.refuse p cForbids 4
  else s.writePlain p off v

/-- One 4-byte register takes a value. -/
def State.writeReg (s : State) (p : Page) (off : Nat) (v : W32) : State :=
  if off < 0x040 then s.writeHdr p off v
  else if kernelReg p off then s.refuse p cForbids 0x30
  else match p with
    | .glb => s.writeGlb off v
    | .pwr => s.writePwr off v
    | .lcs => s.writeLcs off v
    | .tmp => s.writeTmp off v
    | .ldg => if off = 0x060 then s.writeRanged p off v (16 ≤ fld v 0 11 && fld v 0 11 ≤ 1024) true cBadParam 1 else s
    | .clu => s.writeClu off v
    | .qsc => s.writeQsc off v
    | .slm n => if n.val = 0 then s.writeSlm0 off v else if n.val = 1 then s.writeSlm1 off v else s
    | .pkt t => s.writePkt t off v
    | .core n => s.writeCore n off v
    | .kst =>
      if off = 0x080 then s.writeRanged p off v (10 ≤ fld v 8 8 && fld v 8 8 ≤ 90) true cBadParam 1 else s.writePlain p off v
    | .slc sl => s.writeSlc sl off v
    | .mbx sl => s.writeMbx sl off v
    | .tel sl k => s.writeTel sl k off v
    | .baro => if off = 0x05C then s.writePlain p off v else s
    | .rng | .mem | .zl _ | .scl _ | .mpu _ | .cus => s.writePlain p off v

/-! ### The MSI-X table (R29, R40, R70) -/

/-- One 4-byte field of the table; clearing a mask sends a pending message. -/
def State.writeMsix (s : State) (i off : Nat) (v : W32) : State :=
  let e := NMap.getD s.msix i {}
  let put := fun (e : MsixEntry) => { s with msix := NMap.set s.msix i e }
  match off with
  | 0 => put { e with addrLo := v &&& 0xFFFFFFFC }
  | 4 => put { e with addrHi := v }
  | 8 => put { e with data := v }
  | _ => if v.getLsbD 0 then put { e with mask := true } else unmaskBody i s

/-! ### Accesses (R26) -/

/-- A dropped write (R26): counted and flagged; the first since the reset is recorded at NOTICE with the address. -/
def State.badAccess (s : State) (addr : Nat) : State :=
  let first := !s.glb.badaccNoted
  let s1 : State :=
    { s with glb := { s.glb with badaccCnt := satAdd 32 s.glb.badaccCnt 1, badacc := true, badaccNoted := true } }
  if first then s1.record 0x0203 2 0 (toLE 8 addr) else s1

/-- The halves of an 8-byte block that a write covers whole, or none where its byte enables do not cover whole registers. -/
def halves (be : BitVec 8) : Option (List Nat) :=
  let lo := be.toNat % 16
  let hi := be.toNat / 16
  if be = 0 || (lo != 0 && lo != 15) || (hi != 0 && hi != 15) then none
  else some ((if lo = 15 then [0] else []) ++ if hi = 15 then [1] else [])

/-- The address of a write: that of its first enabled octet. -/
def firstEnabled (base : Nat) (be : BitVec 8) : Nat := base + ((List.range 8).find? fun i => be.getLsbD i).getD 0

/-- A write to the windows. `addr` names an 8-byte block, `be` and `data` its eight octets. DESIGN CHOICE: each of the two
registers that an 8-byte write changes counts in PG_GEN, since R26 treats the access as two of 4 bytes. -/
def regWriteBody (w : Window) (addr : Nat) (be : BitVec 8) (data : BitVec 64) (s : State) : State :=
  let base := addr / 8 * 8
  let val := fun (i : Nat) => half data.toNat i
  let inTable : Bool := decide (w = .control) && 0xF00000 ≤ base && base < 0xF08000
  if inTable then
    match s.pwr.configUp, halves be with
    | true, some l => l.foldl (fun a i => a.writeMsix ((base - 0xF00000) / 16) (base % 16 + 4 * i) (val i)) s
    | _, _ => s
  else match pageAt w base with
    | none => s
    | some p =>
      if !s.pageAnswers p then s
      else match halves be with
        | none => s.badAccess (firstEnabled base be)
        | some l => l.foldl (fun a i => a.writeReg p (base % 4096 + 4 * i) (val i)) s

/-- REGISTER_WRITE; configuration space answers in every ladder state with a link. -/
def execRegisterWrite (win : Window) (addr : BitVec 26) (be : BitVec 8) (data : BitVec 64) (s : State) :
    Host.Outcome State Fault Refusal :=
  .next (if win = .config then configWriteBody addr.toNat be data s
    else s.hostReq (.registerWrite win addr be data) (regWriteBody win addr.toNat be data))

end Sys2Proof.Machine
end

