-- ==== Sys2Proof/Machine/RngEvents.lean ====
section
/-! DEFINITION. The events after which the unit's own work that waited goes on: those of the random number service, for a pool word
(R191 to R195, R198, R207, R208), and the end of a self-test, for the anchor tile (R409). -/
namespace Sys2Proof.Machine
open Sys2Proof

/-- A piece of the unit's own work takes its generate request. -/
def State.serveOne (s : State) : OwnDraw → State
  | .challenge n => s.challengeDraw n
  | .debug => s.debugDraw
  | .auth p inside => s.authBegin p inside
  | .link p a => linkBody p a s
  | .rekey p a => rekeyBody p a s
  | .rosters => s.reroute

/-- The work that waits, in the order in which it came, as far as requests are served now. -/
def State.serveList (s : State) : List OwnDraw → State
  | [] => s
  | d :: t =>
    if s.intBlocked then { s with rng := { s.rng with draws := s.rng.draws ++ d :: t } } else (s.serveOne d).serveList t

/-- What waits for a request of instances 0 to 3 goes on where one is served now: the queue, a rotation's and a compaction's
memory key, an overdue checkpoint (R198, R340, R381). -/
def State.serveDraws (s : State) : State :=
  if !s.ownWaits || !s.linked || s.mute || s.glb.run = .halted then s
  else
    let s1 := ({ s with rng := { s.rng with draws := [] } } : State).serveList s.rng.draws
    let s2 := if s1.svc.rotBusy then s1.rotKeyed else s1
    let s3 := if s2.ks.compWait && !s2.spareWaits then ({ s2 with ks := { s2.ks with compWait := false } } : State).compStart s2.ks.compSeg
      else s2
    if s3.running then s3.cpDue else s3

/-- SELF_TEST_DONE: the secure world's work that waited for the anchor goes on. -/
def execSelfTestDone (pg : Page) (r : SelfTest) (s : State) : Host.Outcome State Fault Refusal :=
  .next (selfTestBody pg r s).serveDraws

/-- SOSC_MEASURE. -/
def execSoscMeasure (khz : BitVec 16) (s : State) : Host.Outcome State Fault Refusal := .next (soscMeasureBody khz s).serveDraws

/-- RAW_BLOCK. -/
def execRawBlock (src : Fin 8) (bits : Bytes) (s : State) : Host.Outcome State Fault Refusal := .next (rawBlockBody src bits s).serveDraws

/-- STARTUP_TEST_DONE. -/
def execStartupTestDone (src : Fin 8) (bits : Bytes) (s : State) : Host.Outcome State Fault Refusal :=
  .next (startupTestBody src bits s).serveDraws

/-- ES_RECOVERY. -/
def execEsRecovery (kat : KatRun) (s : State) : Host.Outcome State Fault Refusal := .next (esRecoveryBody kat s).serveDraws

/-- RNG_CTRL.KAT (R208). -/
def katBody (kat : KatRun) (s : State) : State :=
  s.onPage .rng fun s =>
    if s.rng.katRes = 3 then s.refuse .rng cForbids 1
    else if s.rng.es != .healthy then s.refuse .rng cForbids 2
    else (s.katCycle kat).serveDraws

/-- KAT. -/
def execKat (kat : KatRun) (s : State) : Host.Outcome State Fault Refusal := .next (s.hostReq (.kat kat) (katBody kat))

/-- KAT_CYCLE (R208): every 5,529,600 ticks. -/
def execKatCycle (kat : KatRun) (s : State) : Host.Outcome State Fault Refusal :=
  .next (if s.rngOn && s.rng.es = .healthy && s.rng.nextCycle ≤ s.tick then (s.katCycle kat).serveDraws else s)

/-- CONDITIONER_RETEST (R208): every 64 ticks after a failure. -/
def execConditionerRetest (ok : Bool) (s : State) : Host.Outcome State Fault Refusal :=
  .next (if s.rngOn && s.rng.condFailed && s.rng.condRetest ≤ s.tick then (s.katCond ok).serveDraws else s)

end Sys2Proof.Machine
end

