-- ==== Sys2Proof/Machine/Ladder.lean ====
section
/-! DEFINITION. The weather ladder, resets and supplies (chapter 17): descent, wake and exit, Fog and Frost, D3hot, PFW_N. -/
namespace Sys2Proof.Machine
open Sys2Proof

/-! ### Descending (R390) -/

/-- Whether an internal need of R390's list is in progress. -/
def State.internalNeed (s : State) : Bool :=
  s.ks.compBusy || (s.ks.keys.any fun p => p.2.archPending) || s.rng.katRes = 3 || (s.commitsRun && !s.nextBatch.isEmpty) ||
    (s.hdr.any fun p => p.2.st = .servicing) || (s.svc.cores.any fun p => p.2.servicing) || s.svc.rotBusy || s.grantNow.isSome ||
    s.slices.any fun p => p.2.active

/-- One tick of OPTIME passes with no command: OPTIME advances, modulo 2^48, while VAON or the core supplies are present, which
in Frost are off (R394); compaction and rotation, which run below every job, go on; a need in progress keeps the idle time at 0 (R390). -/
def idleTick (s : State) : State :=
  if s.pwr.vaon || s.linked then
    let s1 := ({ s with glb := { s.glb with optime := (s.glb.optime + 1) % 2 ^ 48 } }).compTick.rotTick
    if s.internalNeed then s1.needEnds else s1
  else s

/-- PWR_CTRL.TARGET. -/
def State.target (s : State) : Nat := fld (s.rg .pwr 0x044) 0 2

/-- Whether the unit may go on below Breeze: idle for IDLE_TICKS more, no internal need. -/
def State.quiet (s : State) : Bool := s.idle && !s.internalNeed && s.pwr.idleTick + fld (s.rg .pwr 0x044) 16 16 ≤ s.tick

/-- The warm tables are lost (Table 17.1, R113); the keys stay WARM. -/
def State.warmLost (s : State) : State :=
  { s with ks := { s.ks with keys := NMap.mapV s.ks.keys fun _ k => { k with warmReady := false, rebuild := k.rebuild || k.warm } } }

/-- A step down the ladder; `auto` says that R390 makes it, which alone takes a TRACE record (R386). -/
def State.stepDown (s : State) (to_ : Ladder) (auto : Bool) : State :=
  let c := toLE 1 s.pwr.ladder.code ++ toLE 1 to_.code ++ toLE 1 s.pwr.wake ++ zeros 5
  let s1 := if auto then s.traceRec 0x0D04 0 c else s
  let s2 : State := { s1 with pwr := { s1.pwr with ladder := to_, idleTick := s1.tick } }
  if to_ = .breeze then s2 else s2.warmLost

/-- Whether the ladder may move by itself at all. -/
def State.ladderOn (s : State) : Bool := s.running && s.linked && !s.mute && !s.pwr.exiting && s.pwr.deep.isNone

/-- BREEZE_ENTRY: idle for BREEZE_US; TARGET 0 keeps the unit in Gale. -/
def breezeBody (s : State) : State :=
  if s.ladderOn && s.pwr.ladder = .gale && s.idle && s.target != 0 then s.stepDown .breeze true else s

/-- BREEZE_ENTRY. -/
def execBreezeEntry (s : State) : Host.Outcome State Fault Refusal := .next (breezeBody s)

/-- LADDER_DESCENT: to Lull, then to Calm, each after IDLE_TICKS; in D3hot to Lull once nothing is in flight (R398). -/
def descentBody (s : State) : State :=
  if !s.ladderOn then s
  else match s.pwr.ladder with
    | .gale => if s.pwr.d3 && s.idle then s.stepDown .lull false else s
    | .breeze =>
      if s.pwr.d3 && s.idle then s.stepDown .lull false
      else if 2 ≤ s.target && s.quiet then s.stepDown .lull true else s
    | .lull => if s.target = 3 && s.quiet then s.stepDown .calm true else s
    | _ => s

/-- LADDER_DESCENT. -/
def execLadderDescent (s : State) : Host.Outcome State Fault Refusal := .next (descentBody s)

/-! ### Waking (R392, R396) -/

/-- A wake source of Fog and Frost (R396). -/
def State.wakeDeep (s : State) (cause : Nat) : State :=
  match s.pwr.ladder with
  | .fog => s.wakeFor cause
  | .frost => s.wakeFrost cause
  | _ => s

/-- WAKE_EVENT: R392's events, from Breeze down to Fog; tamper and PERST_N reach Frost. The sources of PWR_WAKE_EN have rows
of their own. -/
def wakeBody (c : WakeCause) (s : State) : State :=
  match c with
  | .host | .internal | .zentulink => if s.linked then s.wakeFor c.code else s
  | .tamper => if s.linked then s.wakeFor c.code else s.wakeFrost c.code
  | .perst => s.wakeFrost c.code
  | .gpio | .smbus | .tick => s

/-- WAKE_EVENT. -/
def execWakeEvent (cause : WakeCause) (s : State) : Host.Outcome State Fault Refusal := .next (wakeBody cause s)

/-- PWR_WAKE_TICK. -/
def State.wakeTick (s : State) : Nat := s.rgWide .pwr 0x054 % 2 ^ 48

/-- WAKE_TICK_ALARM: PWR_WAKE_EN.TICK is 1 and OPTIME has reached PWR_WAKE_TICK. -/
def tickAlarmBody (s : State) : State :=
  if (s.rg .pwr 0x050).getLsbD 17 && s.wakeTick ≤ s.tick then s.wakeDeep WakeCause.tick.code else s

/-- WAKE_TICK_ALARM. -/
def execWakeTickAlarm (s : State) : Host.Outcome State Fault Refusal := .next (tickAlarmBody s)

/-- GPIO_WAKE: a rising edge on a pin that PWR_WAKE_EN.GPIO enables. -/
def gpioBody (pin : Nat) (s : State) : State := if (s.rg .pwr 0x050).getLsbD pin then s.wakeDeep WakeCause.gpio.code else s

/-- GPIO_WAKE. -/
def execGpioWake (pin : Fin 16) (s : State) : Host.Outcome State Fault Refusal := .next (gpioBody pin.val s)

/-- The SMBus command WAKE (R434): honoured while PWR_WAKE_EN.SMBUS is 1; no answer on VBAT alone. -/
def smbusWakeBody (s : State) : State :=
  if s.pwr.vaon && (s.rg .pwr 0x050).getLsbD 16 then s.wakeDeep WakeCause.smbus.code else s

/-- SMBUS_WAKE. -/
def execSmbusWake (s : State) : Host.Outcome State Fault Refusal := .next (smbusWakeBody s)

/-! ### Fog and Frost on command (R395) -/

/-- Step 1 of R395: fetch stops, teller GO is refused, the drain begins. -/
def deepBody (to_ : Ladder) (s : State) : State :=
  s.pwrGo true fun s => { s with pwr := { s.pwr with cmd := { st := 1 }, deep := some to_, abortedByDrain := 0 } }

/-- ENTER_FOG. -/
def execEnterFog (s : State) : Host.Outcome State Fault Refusal := .next (s.hostReq .enterFog (deepBody .fog))

/-- ENTER_FROST. -/
def execEnterFrost (s : State) : Host.Outcome State Fault Refusal := .next (s.hostReq .enterFrost (deepBody .frost))

/-- The teller operations that run, as slice and context. -/
def State.busyTellers (s : State) : List (Nat × Nat) :=
  (s.slices.map fun p => ([0, 1].filter fun k => (s.teller p.1 k).st = 1).map fun k => (p.1, k)).flatten

/-- Tiles that still run items of ended chains stop (R395). -/
def State.dropStrays (s : State) : State :=
  let l := s.eng.strays.map fun x => Engine.tile x.tile
  (l.foldl State.engDrop ({ s with freeN := s.freeN + 1, eng := { s.eng with strays := [] } } : State)).stopWipes s.freeN l

/-- One running teller operation is ended as ABORTED. -/
def State.abortTeller (s : State) (detail sl k : Nat) : State :=
  if h : sl < 4096 ∧ k < 2 then s.tellerAbort ⟨sl, h.1⟩ ⟨k, h.2⟩ detail else s

/-- DRAIN_LIMIT (R395 step 2, R398): whatever still runs ends ABORTED, 0x0040 for Fog and Frost, 0x0041 in D3hot. -/
def drainBody (s : State) : State :=
  if s.mute || !s.linked || (s.pwr.deep.isNone && !s.pwr.d3) then s
  else
    let d := if s.pwr.deep.isSome then 0x40 else 0x41
    let ids := (s.jobs.filter fun j => j.phase != .done).map Job.id
    let ts := s.busyTellers
    let s1 := abortAll d ids s
    let s2 := ts.foldl (fun a t => a.abortTeller d t.1 t.2) s1.dropStrays
    { s2 with pwr := { s2.pwr with abortedByDrain := s2.pwr.abortedByDrain + ids.length + ts.length } }

/-- DRAIN_LIMIT. -/
def execDrainLimit (s : State) : Host.Outcome State Fault Refusal := .next (drainBody s)

/-- Whether the drain has ended: nothing in flight (R395 step 2). -/
def State.drained (s : State) : Bool :=
  (s.jobs.all fun j => j.phase = .done) && s.fetches.isEmpty && s.eng.strays.isEmpty && !s.tellerBusy

/-- Step 4 of R395: every instance is uninstantiated, the RNG domain and the ports are unpowered. -/
def State.rngDown (s : State) : State :=
  let s1 := (List.range 8).foldl (fun a n => a.uninst n .uninst) s
  let off : Rng :=
    { s1.rng with es := .starting, pool := [], src := s1.rng.src.map fun x => { x with st := .off, repRun := 0 }, startFailed := false }
  let s2 : State := { s1 with rng := off }
  let s3 := if s.rng.es = .starting then s2 else s2.raise .rng 16
  (List.range 4).foldl (fun a p => if (a.zlp p).st = .down then a else a.dropLink p .down) s3

/-- Fog: retention is engaged; everything but warm tables and the random service stays. -/
def State.enterFogNow (s : State) : State :=
  let s1 := s.rngDown.warmLost
  { s1 with pwr := { s1.pwr with ladder := .fog, deep := none, idleTick := s1.tick, cmd := { st := 2 } } }

/-- Frost: the resume digest is taken of the images that the last start selected, every supply but the island's is switched off. The island keeps the PWR page. -/
def State.enterFrostNow (s : State) : State :=
  let regs := s.regs.filter fun p => p.1 / 0x1000 = pageKey .pwr
  let s1 : State := { s with pwr := { s.pwr with resumeDigest := s.svc.started } }
  let s2 := s1.cleared
  { s2 with regs := regs, pwr := { s2.pwr with ladder := .frost } }

/-- Every record of the buffer is committed, and the records that this writes (R385, R380) after it, by fuel. -/
def State.commitBuffer (s : State) : Nat → State
  | 0 => s
  | n + 1 =>
    if (s.led.at_ .buffer).isEmpty then s
    else
      let s1 : State := { s with led := { s.led with recs := shutAll s.tick s.led.recs } }
      (s1.commitAll (s1.led.at_ .buffer) 0).commitBuffer n

/-- DEEP_ENTRY_AFTER_DRAIN: steps 3 to 6 of R395; the INFO record with the state and the jobs aborted. The commits before
Frost wait while a failing flash has stopped them (R377). -/
def deepEntryBody (s : State) : State :=
  match s.pwr.deep with
  | none => s
  | some to_ =>
    if !s.drained || !s.linked || s.mute || !s.running then s
    else
      let s1 := s.record 0x0D01 1 0 (toLE 1 to_.code ++ toLE 4 s.pwr.abortedByDrain)
      let s2 : State := { s1 with led := { s1.led with recs := shutAll s1.tick s1.led.recs } }
      match to_ with
      | .frost => if s.led.flashErr then s else (s2.commitBuffer 4).enterFrostNow
      | _ => s2.enterFogNow

/-- DEEP_ENTRY_AFTER_DRAIN. -/
def execDeepEntryAfterDrain (s : State) : Host.Outcome State Fault Refusal := .next (deepEntryBody s)

/-! ### D3hot (R398) -/

/-- D3HOT_ENTRY: fetch stops, completion words are held; to Lull once nothing is in flight. -/
def d3Body (s : State) : State :=
  if !s.linked || s.mute then s
  else descentBody { s with pwr := { s.pwr with d3 := true } }

/-- D3HOT_ENTRY. -/
def execD3hotEntry (s : State) : Host.Outcome State Fault Refusal := .next (d3Body s)

/-- A job in its place in the order of completion. -/
def insertFin (j : Job) : List Job → List Job
  | [] => [j]
  | x :: l => if j.finSeq < x.finSeq then j :: x :: l else x :: insertFin j l

/-- The ended jobs whose words are held, in the order they ended. -/
def State.heldWords (s : State) : List Job := (s.jobs.filter fun j => j.fin.isSome).foldl (fun a j => insertFin j a) []

/-- The word of an ended job is written unless an INORDER ring still holds it; then those that waited for it. -/
def State.wordOut (s : State) (j : Job) : State :=
  match s.job j.id with
  | some x => match x.fin with
    | some c => if s.wordWaits x then s else flushRing x.slice x.ring (s.jobs.length + 1) (s.issueWord x c)
    | none => s
  | none => s

/-- The held completion words are written, each followed by its MSI-X message. -/
def State.wordsOut (s : State) : State := s.heldWords.foldl State.wordOut s

/-! ### The exit (R393, R397) -/

/-- What a host request does once the unit is in Gale; other commands are never held. -/
def hostEffect : Instr → State → State
  | .registerWrite win addr be data => regWriteBody win addr.toNat be data
  | .wideLoRead win x => readBody win x.addr.toNat x.be
  | .pgLockWrite pg lock => lockBody pg lock
  | .pgIntEnWrite pg en => intEnBody pg en
  | .pgCtrlEnable pg on => ctrlEnableBody pg on
  | .pgCtrlDrain pg on => ctrlDrainBody pg on
  | .pgCtrlOffline pg x => ctrlOfflineBody pg x.on x.wipeBad
  | .msixUnmask vec => unmaskBody vec.val
  | .glbFeatCommit => featBody
  | .doorbell addr be => doorbellBody addr be
  | .ringEnable slice => ringEnableBody slice
  | .ringDisable slice => ringDisableBody slice
  | .ringDisableAbort slice => ringDisableAbortBody slice
  | .ringResume slice => ringResumeBody slice
  | .ringConfigWrite slice reg v => ringConfigWriteBody slice reg v
  | .ringSchedWrite slice v => ringSchedWriteBody slice v
  | .qscSliceWeightWrite v => qscSliceWeightBody v
  | .qscRingDisable => qscStopBody false
  | .qscRingDisableAbort => qscStopBody true
  | .hwmClr => hwmClrBody
  | .minClr => minClrBody
  | .baroTargetWrite v vout => targetBody v vout
  | .baroVlimWrite v => vlimBody v
  | .benchEnter tile wipeBad => benchEnterBody tile wipeBad
  | .benchExit tile wipeBad => benchExitBody tile wipeBad
  | .benchAbort tile => benchAbortBody tile
  | .benchDataAccess tile write v => benchDataBody tile write v
  | .setmod tile l => setmodBody tile l
  | .benchMul tile l => mulBody tile l
  | .benchSqr tile l => sqrBody tile l
  | .benchAdd tile l => addBody tile l
  | .benchSub tile l => subBody tile l
  | .tomont tile l => tomontBody tile l
  | .frommont tile l => frommontBody tile l
  | .benchInv tile l => invBody tile l
  | .benchCmp tile l => cmpBody tile l
  | .benchCopy tile l => copyBody tile l
  | .benchClear tile l => clearBody tile l
  | .nttDsa tile l => nttDsaBody tile l
  | .inttDsa tile l => inttDsaBody tile l
  | .pwmDsa tile l => pwmDsaBody tile l
  | .nttKem tile l => nttKemBody tile l
  | .inttKem tile l => inttKemBody tile l
  | .basemulKem tile l => baseMulBody tile l
  | .tlGo slice k pair mem rng => tlGoBody slice k pair mem rng
  | .tlAbort slice k => tlAbortBody slice k
  | .tlClear slice k => tlClearBody slice k
  | .kat kat => katBody kat
  | .recal => recalBody
  | .rngReseedWrite v => reseedWriteBody v
  | .kstCompactGo => compactGoBody
  | .kstResPurgeGo => purgeBody
  | .challenge => challengeBody
  | .create blk => createBody blk
  | .resize blk => resizeBody blk
  | .hold => holdBody
  | .release => releaseBody
  | .destroy => destroyBody
  | .slFeatCommit slice => slFeatBody slice
  | .mbSend slice => mbSendBody slice
  | .mbInAck slice => mbInAckBody slice
  | .slmMbTxSend => txSendBody
  | .slmMbRxAck => rxAckBody
  | .execute req => executeBody req
  | .cluReplMaskWrite mask => maskBody mask
  | .coreWdogWrite v => wdogWriteBody v
  | .transition req => transitionBody req.req req.wipeBad
  | .debugChallenge => dbgChallengeBody
  | .debugOpen req => debugOpenBody req
  | .debugClose => debugCloseBody
  | .config req => configBody req
  | .tmpBattSvcGo duration vaonOk => battSvcBody duration vaonOk
  | .tmpEvtClear mask => evtClearBody mask
  | .enterFog => deepBody .fog
  | .enterFrost => deepBody .frost
  | .install img flashOk => installBody img flashOk
  | .activate => activateBody
  | .commit => commitBody
  | .abandon => abandonBody
  | .rotate => rotateBody
  | _ => id

/-- Requests held during the sleep and the exit are served in order, as if they arrived now (R393). -/
def State.serveHeld (s : State) : State := s.held.foldl (fun a c => hostEffect c a) { s with held := [] }

/-- The exit to Gale is complete: WAKE keeps its cause, held requests are served. -/
def State.exitDone (s : State) : State := (s.toGale s.pwr.wake).serveHeld

/-- The exit from Fog (R397): the random service starts first, RUN keeping its value meanwhile (R393); where that fails it is
repeated every 64 ticks (R204), its cause in the SMBus status until then. -/
def State.fogExit (s : State) (env : StartEnv) : State :=
  match s.rngStart env with
  | (s1, true) => (if 1 ≤ s1.isl.cause && s1.isl.cause ≤ 4 then s1.setCause 0 else s1).reRun.exitDone
  | (s1, false) => s1

/-- LADDER_EXIT_COMPLETE. -/
def exitBody (env : StartEnv) (s : State) : State :=
  if !s.pwr.exiting || !s.linked || s.mute then s
  else match s.pwr.ladder with
    | .lull | .calm => s.exitDone
    | .fog => if s.rng.startFailed then s else s.fogExit env
    | _ => s

/-- LADDER_EXIT_COMPLETE. -/
def execLadderExitComplete (env : StartEnv) (s : State) : Host.Outcome State Fault Refusal := .next (exitBody env s)

/-- RNG_START_RETRY (R204): 64 ticks after a failed start of the service it is repeated from step 1; on an exit from Fog the
exit then goes on by itself. -/
def rngRetryBody (env : StartEnv) (s : State) : State :=
  if !s.rng.startFailed || s.tick < s.rng.startRetry || s.mute then s
  else if s.pwr.ladder = .fog && s.pwr.exiting then s.fogExit env
  else if s.glb.run = .starting then s.startFrom4 env s.frostStart
  else s

/-- RNG_START_RETRY. -/
def execRngStartRetry (env : StartEnv) (s : State) : Host.Outcome State Fault Refusal := .next (rngRetryBody env s)

/-- D0_RETURN (R398): the unit leaves Lull or Calm, held words are written, fetch resumes, held requests are served; in Fog
the exit begins. -/
def d0Body (s : State) : State :=
  if !s.pwr.d3 || s.mute || !s.linked then s
  else
    let s1 : State := { s with pwr := { s.pwr with d3 := false } }
    match s1.pwr.ladder with
    | .fog => s1.wordsOut.wakeFor 1
    | .gale => s1.wordsOut
    | _ => (s1.toGale 1).wordsOut.serveHeld

/-- D0_RETURN. -/
def execD0Return (s : State) : Host.Outcome State Fault Refusal := .next (d0Body s)

/-- FROST_EXIT (R397): a start of class FROST_EXIT once the supplies are back; STATE_LOST is set. -/
def frostExitBody (env : StartEnv) (s : State) : State :=
  if s.pwr.ladder != .frost || !s.pwr.exiting || s.pwr.pfwLow then s
  else
    let s1 := s.cleared
    let s2 : State :=
      { s1 with
        glb := { s1.glb with pcc := (s1.glb.pcc + 1) % 2 ^ 32, stateLost := true }
        pwr := { s1.pwr with reset := .frostExit, resetCause := 0, wake := s.pwr.wake } }
    s2.startUp env

/-- FROST_EXIT. -/
def execFrostExit (env : StartEnv) (s : State) : Host.Outcome State Fault Refusal := .next (frostExitBody env s)

/-! ### Resets and supplies (R399 to R401) -/

/-- SYSTEM_RESET: flush and reset. A unit that boundary scan holds in reset, or whose power-up is not over (R428), stays in it;
the PCIe link going down counts from Gale to Calm only; in Frost PERST_N is a wake source (R396), SYS_RESET_N an island pin
that keeps its function (R430), and there is no link. -/
def sysResetBody (c : SysCause) (s : State) : State :=
  if !s.pwr.coreSupply || s.isl.jtagHold || s.powerUp then s
  else if s.pwr.ladder = .frost then
    (match c with
      | .perstN => s.wakeFrost WakeCause.perst.code
      | .sysResetN => s.takeReset .system c.code
      | _ => s)
  else if c = .linkDown && s.pwr.ladder = .fog then s
  else s.takeReset .system c.code

/-- SYSTEM_RESET. -/
def execSystemReset (cause : SysCause) (s : State) : Host.Outcome State Fault Refusal := .next (sysResetBody cause s)

/-- PFW_FALL (R400): fetch, binding and completions stop, the staging flush runs, the fall is counted. -/
def pfwFallBody (s : State) : State :=
  if s.pwr.pfwLow && !s.pwr.pfwRiseSeen then s
  else
    let s1 := s.stagingFlush
    { s1 with pwr := { s1.pwr with pfwLow := true, pfwRiseSeen := false, pfwCnt := satAdd 32 s1.pwr.pfwCnt 1 } }

/-- PFW_FALL. -/
def execPfwFall (s : State) : Host.Outcome State Fault Refusal := .next (pfwFallBody s)

/-- The core supplies fall: everything outside the island, the Vault, flash and antifuse is gone until a POWER_ON start. -/
def State.coreLost (s : State) : State :=
  let s1 := (s.closeGrant 3).cleared
  { s1 with pwr := { s1.pwr with coreSupply := false, reset := .powerOn, resetCause := 0, pfwRiseSeen := false }
            isl := { s1.isl with jtagIr := 0x01, jtagHold := false, bsDrive := [], floats := false } }

/-- A core supply leaves its range with PFW_N high: sensor 9 fires (R429); its reading, and how an erasure ends, are free. -/
def State.coreV (s : State) : State :=
  let (b, s1) := s.free 2
  if s.sensorOn 9 then s1.fireFree 9 (leNat b) else s

/-- CORE_SUPPLY_LOSS, after PFW_N has fallen or without warning. -/
def coreLossBody (warned : Bool) (s : State) : State :=
  if !s.linked then s else (if warned then pfwFallBody s else s.coreV).coreLost

/-- CORE_SUPPLY_LOSS. -/
def execCoreSupplyLoss (warned : Bool) (s : State) : Host.Outcome State Fault Refusal := .next (coreLossBody warned s)

/-- PFW_RISE (R400): with every supply still in range a POWER_FAIL reset follows; else the supplies had fallen. -/
def pfwRiseBody (inRange : Bool) (s : State) : State :=
  let high := fun (s : State) => { s with pwr := { s.pwr with pfwLow := false, pfwRiseSeen := false } }
  if !s.pwr.pfwLow then s
  else if !s.linked then high s
  else if inRange then { s with pwr := { s.pwr with pfwRiseSeen := true } }
  else high s.coreLost

/-- PFW_RISE. -/
def execPfwRise (inRange : Bool) (s : State) : Host.Outcome State Fault Refusal := .next (pfwRiseBody inRange s)

/-- POWER_FAIL_RESET (R400). -/
def powerFailBody (s : State) : State := if s.pwr.pfwRiseSeen && s.linked then s.takeReset .powerFail 0 else s

/-- POWER_FAIL_RESET. -/
def execPowerFailReset (s : State) : Host.Outcome State Fault Refusal := .next (powerFailBody s)

end Sys2Proof.Machine
end

