-- ==== Sys2Proof/Machine/Dispatch.lean ====
section
/-! DEFINITION. The dispatch of commands to their meanings: one arm per constructor of Instr. -/
namespace Sys2Proof.Machine
open Sys2Proof

/-- The effect of a command on everything but the queue. -/
def exec (i : Instr) (s : State) : Host.Outcome State Fault Refusal :=
  match i with
  | .registerWrite win addr be data => Sys2Proof.Machine.execRegisterWrite win addr be data s
  | .wideLoRead win addr => Sys2Proof.Machine.execWideLoRead win addr s
  | .pgLockWrite pg lock => Sys2Proof.Machine.execPgLockWrite pg lock s
  | .pgIntEnWrite pg en => Sys2Proof.Machine.execPgIntEnWrite pg en s
  | .pgCtrlEnable pg on => Sys2Proof.Machine.execPgCtrlEnable pg on s
  | .pgCtrlDrain pg on => Sys2Proof.Machine.execPgCtrlDrain pg on s
  | .pgCtrlOffline pg on => Sys2Proof.Machine.execPgCtrlOffline pg on s
  | .blockDrained pg => Sys2Proof.Machine.execBlockDrained pg s
  | .selfTestDone pg r => Sys2Proof.Machine.execSelfTestDone pg r s
  | .msixUnmask vec => Sys2Proof.Machine.execMsixUnmask vec s
  | .glbFeatCommit => Sys2Proof.Machine.execGlbFeatCommit s
  | .doorbell addr be => Sys2Proof.Machine.execDoorbell addr be s
  | .fetchTurn => Sys2Proof.Machine.execFetchTurn s
  | .entryReadComplete slice ring r => Sys2Proof.Machine.execEntryReadComplete slice ring r s
  | .inputReadComplete job item r => Sys2Proof.Machine.execInputReadComplete job item r s
  | .jobBinding fifo eng mem rng => Sys2Proof.Machine.execJobBinding fifo eng mem rng s
  | .ringEnable slice => Sys2Proof.Machine.execRingEnable slice s
  | .ringDisable slice => Sys2Proof.Machine.execRingDisable slice s
  | .ringDisableAbort slice => Sys2Proof.Machine.execRingDisableAbort slice s
  | .ringResume slice => Sys2Proof.Machine.execRingResume slice s
  | .ringConfigWrite slice reg v => Sys2Proof.Machine.execRingConfigWrite slice reg v s
  | .ringSchedWrite slice v => Sys2Proof.Machine.execRingSchedWrite slice v s
  | .qscSliceWeightWrite v => Sys2Proof.Machine.execQscSliceWeightWrite v s
  | .qscRingDisable => Sys2Proof.Machine.execQscRingDisable s
  | .qscRingDisableAbort => Sys2Proof.Machine.execQscRingDisableAbort s
  | .hwmClr => Sys2Proof.Machine.execHwmClr s
  | .jobTimeLimit job => Sys2Proof.Machine.execJobTimeLimit job s
  | .baroUpdate reading ack => Sys2Proof.Machine.execBaroUpdate reading ack s
  | .hostRttInterval reads maxNs meanNs => Sys2Proof.Machine.execHostRttInterval reads maxNs meanNs s
  | .minClr => Sys2Proof.Machine.execMinClr s
  | .baroTargetWrite v vout => Sys2Proof.Machine.execBaroTargetWrite v vout s
  | .baroVlimWrite v => Sys2Proof.Machine.execBaroVlimWrite v s
  | .pkSign job r => Sys2Proof.Machine.execPkSign job r s
  | .pkVerify job r => Sys2Proof.Machine.execPkVerify job r s
  | .pkKeygen job r => Sys2Proof.Machine.execPkKeygen job r s
  | .pkDerive job r => Sys2Proof.Machine.execPkDerive job r s
  | .kemEncaps job r => Sys2Proof.Machine.execKemEncaps job r s
  | .kemDecaps job r => Sys2Proof.Machine.execKemDecaps job r s
  | .rsaEncrypt job r => Sys2Proof.Machine.execRsaEncrypt job r s
  | .rsaDecrypt job r => Sys2Proof.Machine.execRsaDecrypt job r s
  | .warmTableBuilt handle => Sys2Proof.Machine.execWarmTableBuilt handle s
  | .batchVerify job r => Sys2Proof.Machine.execBatchVerify job r s
  | .chainVerify job r => Sys2Proof.Machine.execChainVerify job r s
  | .bulkItemComplete job item r => Sys2Proof.Machine.execBulkItemComplete job item r s
  | .rldLoad job r => Sys2Proof.Machine.execRldLoad job r s
  | .rldUnload job r => Sys2Proof.Machine.execRldUnload job r s
  | .curveLoad job tile r => Sys2Proof.Machine.execCurveLoad job tile r s
  | .curveUnload job r => Sys2Proof.Machine.execCurveUnload job r s
  | .benchEnter tile wipeBad => Sys2Proof.Machine.execBenchEnter tile wipeBad s
  | .benchExit tile wipeBad => Sys2Proof.Machine.execBenchExit tile wipeBad s
  | .benchAbort tile => Sys2Proof.Machine.execBenchAbort tile s
  | .benchDataAccess tile write v => Sys2Proof.Machine.execBenchDataAccess tile write v s
  | .setmod tile l => Sys2Proof.Machine.execSetmod tile l s
  | .benchMul tile l => Sys2Proof.Machine.execBenchMul tile l s
  | .benchSqr tile l => Sys2Proof.Machine.execBenchSqr tile l s
  | .benchAdd tile l => Sys2Proof.Machine.execBenchAdd tile l s
  | .benchSub tile l => Sys2Proof.Machine.execBenchSub tile l s
  | .tomont tile l => Sys2Proof.Machine.execTomont tile l s
  | .frommont tile l => Sys2Proof.Machine.execFrommont tile l s
  | .benchInv tile l => Sys2Proof.Machine.execBenchInv tile l s
  | .benchCmp tile l => Sys2Proof.Machine.execBenchCmp tile l s
  | .benchCopy tile l => Sys2Proof.Machine.execBenchCopy tile l s
  | .benchClear tile l => Sys2Proof.Machine.execBenchClear tile l s
  | .nttDsa tile l => Sys2Proof.Machine.execNttDsa tile l s
  | .inttDsa tile l => Sys2Proof.Machine.execInttDsa tile l s
  | .pwmDsa tile l => Sys2Proof.Machine.execPwmDsa tile l s
  | .nttKem tile l => Sys2Proof.Machine.execNttKem tile l s
  | .inttKem tile l => Sys2Proof.Machine.execInttKem tile l s
  | .basemulKem tile l => Sys2Proof.Machine.execBasemulKem tile l s
  | .benchCommandDone tile e wipeBad => Sys2Proof.Machine.execBenchCommandDone tile e wipeBad s
  | .aeadSeal job r => Sys2Proof.Machine.execAeadSeal job r s
  | .aeadOpen job r => Sys2Proof.Machine.execAeadOpen job r s
  | .cipher job r => Sys2Proof.Machine.execCipher job r s
  | .hash job r => Sys2Proof.Machine.execHash job r s
  | .macGen job r => Sys2Proof.Machine.execMacGen job r s
  | .macCheck job r => Sys2Proof.Machine.execMacCheck job r s
  | .kdf job r => Sys2Proof.Machine.execKdf job r s
  | .tlGo slice k pair mem rng => Sys2Proof.Machine.execTlGo slice k pair mem rng s
  | .tlAbort slice k => Sys2Proof.Machine.execTlAbort slice k s
  | .tlClear slice k => Sys2Proof.Machine.execTlClear slice k s
  | .tellerDone slice k r => Sys2Proof.Machine.execTellerDone slice k r s
  | .soscMeasure khz => Sys2Proof.Machine.execSoscMeasure khz s
  | .rawBlock src bits => Sys2Proof.Machine.execRawBlock src bits s
  | .sourceBenchEnd src => Sys2Proof.Machine.execSourceBenchEnd src s
  | .recalComplete src trim => Sys2Proof.Machine.execRecalComplete src trim s
  | .startupTestDone src bits => Sys2Proof.Machine.execStartupTestDone src bits s
  | .esRecovery kat => Sys2Proof.Machine.execEsRecovery kat s
  | .rngRead job r => Sys2Proof.Machine.execRngRead job r s
  | .rngPrTimeout job => Sys2Proof.Machine.execRngPrTimeout job s
  | .kat kat => Sys2Proof.Machine.execKat kat s
  | .katCycle kat => Sys2Proof.Machine.execKatCycle kat s
  | .conditionerRetest ok => Sys2Proof.Machine.execConditionerRetest ok s
  | .recal => Sys2Proof.Machine.execRecal s
  | .rngReseedWrite v => Sys2Proof.Machine.execRngReseedWrite v s
  | .rngStartRetry env => Sys2Proof.Machine.execRngStartRetry env s
  | .keyImport job aux r => Sys2Proof.Machine.execKeyImport job aux r s
  | .keyExport job aux r => Sys2Proof.Machine.execKeyExport job aux r s
  | .blobLoad job aux r => Sys2Proof.Machine.execBlobLoad job aux r s
  | .keyDelete job r => Sys2Proof.Machine.execKeyDelete job r s
  | .keyAttrGet job r => Sys2Proof.Machine.execKeyAttrGet job r s
  | .keyAttrRestrict job r => Sys2Proof.Machine.execKeyAttrRestrict job r s
  | .pubkeyLoad job aux r => Sys2Proof.Machine.execPubkeyLoad job aux r s
  | .kstCompactGo => Sys2Proof.Machine.execKstCompactGo s
  | .compactionDone => Sys2Proof.Machine.execCompactionDone s
  | .kstResPurgeGo => Sys2Proof.Machine.execKstResPurgeGo s
  | .archiveWriteComplete handle => Sys2Proof.Machine.execArchiveWriteComplete handle s
  | .quorumChallenge job r => Sys2Proof.Machine.execQuorumChallenge job r s
  | .quorumSubmit job r => Sys2Proof.Machine.execQuorumSubmit job r s
  | .tokenVerified job token tile r => Sys2Proof.Machine.execTokenVerified job token tile r s
  | .approvalWindowEnd slot => Sys2Proof.Machine.execApprovalWindowEnd slot s
  | .challenge => Sys2Proof.Machine.execChallenge s
  | .create blk => Sys2Proof.Machine.execCreate blk s
  | .resize blk => Sys2Proof.Machine.execResize blk s
  | .hold => Sys2Proof.Machine.execHold s
  | .release => Sys2Proof.Machine.execRelease s
  | .destroy => Sys2Proof.Machine.execDestroy s
  | .sliceEraseComplete slice => Sys2Proof.Machine.execSliceEraseComplete slice s
  | .slFeatCommit slice => Sys2Proof.Machine.execSlFeatCommit slice s
  | .mbSend slice => Sys2Proof.Machine.execMbSend slice s
  | .mbInAck slice => Sys2Proof.Machine.execMbInAck slice s
  | .slmMbTxSend => Sys2Proof.Machine.execSlmMbTxSend s
  | .slmMbRxAck => Sys2Proof.Machine.execSlmMbRxAck s
  | .execute req => Sys2Proof.Machine.execExecute req s
  | .cluReplMaskWrite mask => Sys2Proof.Machine.execCluReplMaskWrite mask s
  | .heartbeatSend => Sys2Proof.Machine.execHeartbeatSend s
  | .heartbeat port f => Sys2Proof.Machine.execHeartbeat port f s
  | .memberLost id => Sys2Proof.Machine.execMemberLost id s
  | .headTimeout => Sys2Proof.Machine.execHeadTimeout s
  | .linkFrame port f auth => Sys2Proof.Machine.execLinkFrame port f auth s
  | .jobFrame port f j => Sys2Proof.Machine.execJobFrame port f j s
  | .resultFrame port f res => Sys2Proof.Machine.execResultFrame port f res s
  | .keymove port f k => Sys2Proof.Machine.execKeymove port f k s
  | .roster port f m => Sys2Proof.Machine.execRoster port f m s
  | .ackFrame port f a => Sys2Proof.Machine.execAckFrame port f a s
  | .linkStateChange port e => Sys2Proof.Machine.execLinkStateChange port e s
  | .authRetry port => Sys2Proof.Machine.execAuthRetry port s
  | .rekey port auth => Sys2Proof.Machine.execRekey port auth s
  | .joinTimeout id => Sys2Proof.Machine.execJoinTimeout id s
  | .replicaCommit id handle => Sys2Proof.Machine.execReplicaCommit id handle s
  | .replicaSyncComplete id => Sys2Proof.Machine.execReplicaSyncComplete id s
  | .partitionFault core part inp => Sys2Proof.Machine.execPartitionFault core part inp s
  | .partitionTimeLimit core part inp => Sys2Proof.Machine.execPartitionTimeLimit core part inp s
  | .watchdogExpiry core => Sys2Proof.Machine.execWatchdogExpiry core s
  | .coreWdogWrite v => Sys2Proof.Machine.execCoreWdogWrite v s
  | .mpuSync master => Sys2Proof.Machine.execMpuSync master s
  | .mpuSyncDone master => Sys2Proof.Machine.execMpuSyncDone master s
  | .transition req => Sys2Proof.Machine.execTransition req s
  | .debugChallenge => Sys2Proof.Machine.execDebugChallenge s
  | .debugOpen req => Sys2Proof.Machine.execDebugOpen req s
  | .debugClose => Sys2Proof.Machine.execDebugClose s
  | .debugGrantEnd => Sys2Proof.Machine.execDebugGrantEnd s
  | .config req => Sys2Proof.Machine.execConfig req s
  | .tamperEvent sensors reading badRow => Sys2Proof.Machine.execTamperEvent sensors reading badRow s
  | .tmpBattSvcGo duration vaonOk => Sys2Proof.Machine.execTmpBattSvcGo duration vaonOk s
  | .battSvcWindowEnd badRow => Sys2Proof.Machine.execBattSvcWindowEnd badRow s
  | .tmpEvtClear mask => Sys2Proof.Machine.execTmpEvtClear mask s
  | .recordWindowClose seq => Sys2Proof.Machine.execRecordWindowClose seq s
  | .flashCommitComplete ok => Sys2Proof.Machine.execFlashCommitComplete ok s
  | .flashCommitResume => Sys2Proof.Machine.execFlashCommitResume s
  | .ledgerRead job r => Sys2Proof.Machine.execLedgerRead job r s
  | .nop job r => Sys2Proof.Machine.execNop job r s
  | .breezeEntry => Sys2Proof.Machine.execBreezeEntry s
  | .ladderDescent => Sys2Proof.Machine.execLadderDescent s
  | .wakeEvent cause => Sys2Proof.Machine.execWakeEvent cause s
  | .wakeTickAlarm => Sys2Proof.Machine.execWakeTickAlarm s
  | .gpioWake pin => Sys2Proof.Machine.execGpioWake pin s
  | .ladderExitComplete env => Sys2Proof.Machine.execLadderExitComplete env s
  | .enterFog => Sys2Proof.Machine.execEnterFog s
  | .enterFrost => Sys2Proof.Machine.execEnterFrost s
  | .deepEntryAfterDrain => Sys2Proof.Machine.execDeepEntryAfterDrain s
  | .drainLimit => Sys2Proof.Machine.execDrainLimit s
  | .d3hotEntry => Sys2Proof.Machine.execD3hotEntry s
  | .d0Return => Sys2Proof.Machine.execD0Return s
  | .frostExit env => Sys2Proof.Machine.execFrostExit env s
  | .coldStart env => Sys2Proof.Machine.execColdStart env s
  | .dramTrainingRetry env => Sys2Proof.Machine.execDramTrainingRetry env s
  | .systemReset cause => Sys2Proof.Machine.execSystemReset cause s
  | .pfwFall => Sys2Proof.Machine.execPfwFall s
  | .pfwRise inRange => Sys2Proof.Machine.execPfwRise inRange s
  | .powerFailReset => Sys2Proof.Machine.execPowerFailReset s
  | .install img flashOk => Sys2Proof.Machine.execInstall img flashOk s
  | .activate => Sys2Proof.Machine.execActivate s
  | .activationComplete core => Sys2Proof.Machine.execActivationComplete core s
  | .commit => Sys2Proof.Machine.execCommit s
  | .abandon => Sys2Proof.Machine.execAbandon s
  | .rotate => Sys2Proof.Machine.execRotate s
  | .rotationComplete => Sys2Proof.Machine.execRotationComplete s
  | .smbusStatus => Sys2Proof.Machine.execSmbusStatus s
  | .smbusWake => Sys2Proof.Machine.execSmbusWake s
  | .smbusUid => Sys2Proof.Machine.execSmbusUid s
  | .extest cells => Sys2Proof.Machine.execExtest cells s
  | .idcode => Sys2Proof.Machine.execIdcode s
  | .samplePreload pins cells => Sys2Proof.Machine.execSamplePreload pins cells s
  | .clamp => Sys2Proof.Machine.execClamp s
  | .highz => Sys2Proof.Machine.execHighz s
  | .debugInstr => Sys2Proof.Machine.execDebugInstr s
  | .bypass code => Sys2Proof.Machine.execBypass code s
  | .coreSupplyLoss warned => Sys2Proof.Machine.execCoreSupplyLoss warned s
  | .vaonLoss => Sys2Proof.Machine.execVaonLoss s
  | .vaonReturn => Sys2Proof.Machine.execVaonReturn s
  | .vbatChange level => Sys2Proof.Machine.execVbatChange level s
  | .entAttrWrite master e baseLo baseHi limitLo attr => Sys2Proof.Machine.execEntAttrWrite master e baseLo baseHi limitLo attr s
  | .debugPortAccess addr write data => Sys2Proof.Machine.execDebugPortAccess addr write data s
  | .configurationRequest => Sys2Proof.Machine.execConfigurationRequest s

end Sys2Proof.Machine
end

