-- ==== Sys2Proof/Safety.lean ====
section
/-! DEFINITION. The vocabulary of the statements: how a command completes, when the host reaches the unit, how a job ends. -/
namespace Sys2Proof.Machine
open Sys2Proof

/-- The command answers a next state, and that state has the property. -/
def Completes (c : Instr) (s : State) (P : State → Prop) : Prop := ∃ t, exec c s = .next t ∧ P t

/-- The core is powered and the unit is in Gale, so that a host request is served at once (R392, R393). -/
abbrev State.awake (s : State) : Prop := s.pwr.coreSupply = true ∧ s.pwr.ladder = .gale

/-- The host's write reaches a page: the unit is awake, the page answers (R26, R28, R40) and is not one that refuses every
write (R283). -/
abbrev State.reach (s : State) (p : Page) : Prop := s.awake ∧ s.pageAnswers p = true ∧ noWrites p = false

/-- The register of a control-window access: the half `i` (0 or 1) of the 8-byte block at `addr`, on page `p` at `off`. -/
abbrev AtReg (win : Window) (addr : BitVec 26) (i : Nat) (p : Page) (off : Nat) : Prop :=
  i < 2 ∧ pageAt win (addr.toNat / 8 * 8) = some p ∧ off = addr.toNat / 8 * 8 % 4096 + 4 * i

/-- The byte enables of a 4-byte access to half `i` of its block. -/
def oneReg (i : Nat) : BitVec 8 := if i = 0 then 0x0F else 0xF0

/-- What a job's ending writes to host memory before anything else (R54 steps 1 and 2): its output, OUT_LEN, RESULT. -/
def endWrites (j : Job) (c : Completion) (out : Bytes) : List Out :=
  (if out.isEmpty then [] else [.write j.pasid (eOutAddr j.entry) out]) ++
    [.write j.pasid ((j.addr + 0x2C) % 2 ^ 64) (toLE 4 c.outLen),
     .write j.pasid ((j.addr + 0x70) % 2 ^ 64) (Bytes.fit c.result 16)]

/-- Whether something the unit sends is a write to host memory. -/
def Out.isWrite : Out → Bool
  | .write _ _ _ => true
  | _ => false

/-- The state the endings of jobs never change: a job's end touches its ring, its engines, keys, the Ledger, what the
unit sends. -/
structure EndFrame (s t : State) : Prop where
  glb : t.glb = s.glb
  regs : t.regs = s.regs
  wideHeld : t.wideHeld = s.wideHeld
  latch : t.latch = s.latch
  baro : t.baro = s.baro
  pwr : t.pwr = s.pwr
  svc : t.svc = s.svc
  lcs : t.lcs = s.lcs
  tmp : t.tmp = s.tmp
  isl : t.isl = s.isl
  held : t.held = s.held

/-- A job ends in `t` with a completion and an output (R54): its output, OUT_LEN and RESULT are the first writes to host
memory that leave, in that order; no record of it is left that has not ended; the frame is kept. A job that runs here for
a cluster's head writes nothing to host memory: its record is gone (R303). -/
def Ends (s t : State) (j : Job) (c : Completion) (out : Bytes) : Prop :=
  (match j.remote with
    | none =>
      (∃ pre rest, t.out = s.out ++ pre ++ endWrites j c out ++ rest ∧ pre.all (fun o => !o.isWrite) = true) ∧
        ∀ x ∈ t.jobs, x.id = j.id → x.phase = .done ∧ x.fin = some c
    | some _ => ∀ x ∈ t.jobs, x.id ≠ j.id) ∧
    EndFrame s t

/-- The shape of the state that every step keeps: the engines' sparse maps, the stored lines and the key store list each
place once, in rising order; every key stands at the place its handle names; every slice has its two teller pages; jobs carry numbers
of their own, each given out before; the random number service has its eight sources and eight instances; there are four
image classes. -/
def State.sane (s : State) : Bool :=
  NMap.wf s.eng.tiles && NMap.wf s.eng.curves && NMap.wf s.eng.rlds && NMap.wf s.mem.lines &&
    NMap.wf s.ks.keys &&
    (s.ks.keys.all fun p => p.2.place = p.1) && (s.slices.all fun p => p.2.tellers.length = 2) &&
    decide (s.jobs.map Job.id).Nodup && (s.jobs.all fun j => j.id < s.qsc.nextJob) &&
    decide (s.rng.inst.length = 8) && decide (s.rng.src.length = 8) && decide (s.svc.classes.length = 4)

/-- The life-cycle records are whole (R348, R350): records 0 to 47 in rising order, each burned with a state of Table 15.1
and its complement and committed, record 47 with SCRAP and no other record with it. -/
def State.lcsWhole (s : State) : Bool :=
  NMap.wf s.lcs.recs && s.lcs.recs.all fun p =>
    decide (p.1 ≤ 47) && [1, 2, 3, 4, 5, 7].contains p.2.code && decide (p.2.ncode = 15 - p.2.code) &&
      decide (p.2.commit = 3) && decide (p.1 = 47 ↔ p.2.code = 7)

/-- Only what the Ledger's own working may change differs: records, the random service's counts, page events and their
messages, the free values drawn. -/
def Logged (s t : State) : Prop :=
  t = { s with led := t.led, rng := t.rng, hdr := t.hdr, msix := t.msix, out := t.out, freeN := t.freeN }

/-- A reset of a class was taken (R399, R213, R266, Table 17.4): PCC counts it, and slices, rings, jobs, keys, registers,
engines, links, approvals and held requests are as at reset; OPTIME runs on. -/
structure WasReset (s t : State) (c : ResetClass) (cause : Nat) : Prop where
  cls : t.pwr.reset = c ∧ t.pwr.resetCause = cause
  pcc : t.glb.pcc = (s.glb.pcc + 1) % 2 ^ 32
  optime : t.glb.optime = s.glb.optime
  ladder : t.pwr.ladder = .gale
  gone : t.slices = [] ∧ t.jobs = [] ∧ t.fetches = [] ∧ t.ks.keys = [] ∧ t.cus = {} ∧ t.eng = {} ∧ t.rng = {} ∧ t.held = []
  pages : t.regs = [] ∧ t.hdr = [] ∧ t.wideHeld = [] ∧ t.latch = [] ∧ t.msix = [] ∧ t.zl = [] ∧ t.mpu = [] ∧ t.qsc = {} ∧ t.slm = {}

/-- The key record at the place a handle names. -/
def State.keyIn (s : State) (h : Nat) : Option KeyRec := NMap.find s.ks.keys (keyPlace (hSlice h) (hIndex h))

/-- Only one ring changes: other slices, and the slice's other rings, stay. -/
def OneRing (s t : State) (sl r : Nat) : Prop :=
  (∀ k, k ≠ sl → NMap.find t.slices k = NMap.find s.slices k) ∧ ∀ k, k ≠ r → t.ring sl k = s.ring sl k

end Sys2Proof.Machine
end

