-- ==== Sys2Proof/Certificates/Slice0/Obligations.lean ====
section
/-! DEFINITION. The statements for the provers, by chapter of the spec. A statement of several clauses is their conjunction. -/

open Sys2Proof Sys2Proof.Machine

/-! ### The queue, registers and pages (chapter 2) -/

/-- A step with a command at the front of the queue is `exec` of that command on the state with the queue's rest. -/
def Obligations.StepRunsFront : Prop :=
  ∀ (c : Instr) (s : State) (rest : List Instr), s.pending = c :: rest → step s = exec c { s with pending := rest }

/-- On an empty queue one tick of OPTIME passes while VAON or, out of Frost, the core supplies are present (R6, R394),
modulo 2^48. Nothing else changes but the pointer of a compaction that runs (R241), what a rotation that runs moves
(R414), and the tick from which the ladder counts idle time, which an internal need keeps at this one (R390). That an
empty queue stands for a tick is the model's choice (assumption 1). -/
def Obligations.EmptyQueueTicks : Prop :=
  ∀ (s : State), s.pending = [] →
    ∃ t, step s = .next t ∧
      (s.pwr.vaon = true ∨ s.linked = true → t.glb.optime = (s.glb.optime + 1) % 2 ^ 48) ∧
      (s.pwr.vaon = false → s.linked = false → t = s) ∧
      (s.ks.compBusy = false → t.ks = s.ks) ∧ (s.internalNeed = false → t.pwr = s.pwr) ∧
      (s.svc.rotBusy = false →
        t = { s with
          glb := { s.glb with optime := t.glb.optime }, ks := { s.ks with compPtr := t.ks.compPtr }
          pwr := { s.pwr with idleTick := t.pwr.idleTick } }) ∧
      t.glb = { s.glb with optime := t.glb.optime } ∧ t.regs = s.regs ∧ t.jobs = s.jobs ∧ t.slices = s.slices ∧
      t.vault = s.vault ∧ t.eng = s.eng

/-- Every command completes: it answers a next state, whatever the state and its operands; and the queue belongs to
`step`: no command's effect adds a command to it or takes one from it. -/
def Obligations.QueueKept : Prop :=
  ∀ (c : Instr) (s : State), Completes c s fun t => t.pending = s.pending

/-- REGISTER_WRITE of one whole register of the plain file changes exactly its writable bits: RW always, RWL until
PG_LOCK (R9, R36); a write that changes one of them counts in PG_GEN (R37); every other register and every other
page's header stays. -/
def Clause.PlainRegisterWrite : Prop :=
  ∀ (win : Window) (addr : BitVec 26) (i : Nat) (data : BitVec 64) (s : State) (p : Page) (off : Nat) (d : RegD),
    s.reach p → AtReg win addr i p off → regDesc p off = some d → d.lo = false → d.hi = false →
    (p = .glb ∨ p = .rng ∨ p = .cus ∨ (∃ n, p = .zl n) ∨ ∃ sl, p = .slc sl) →
    let m := BitVec.ofNat 32 d.rw ||| (if (s.hd p).lock then 0 else BitVec.ofNat 32 d.rwl)
    let new := (s.rg p off &&& ~~~m) ||| (half data.toNat i &&& m)
    Completes (.registerWrite win addr (oneReg i) data) s fun t =>
      t.rg p off = new ∧
      (t.hd p).gen = (if new = s.rg p off then (s.hd p).gen else (s.hd p).gen + 1) ∧
      t.hd p = { s.hd p with gen := (t.hd p).gen } ∧
      (∀ k, k ≠ regKey p off → NMap.find t.regs k = NMap.find s.regs k) ∧
      (∀ k, k ≠ pageKey p → NMap.find t.hdr k = NMap.find s.hdr k) ∧
      t = { s with regs := t.regs, hdr := t.hdr }

/-- REGISTER_WRITE to a page's registers whose byte enables do not cover whole registers is dropped: BADACC is set and
counted, the first since the reset is recorded at NOTICE with the address of its first octet, and nothing else changes
(R26). -/
def Clause.PartialWriteDropped : Prop :=
  ∀ (win : Window) (addr : BitVec 26) (be : BitVec 8) (data : BitVec 64) (s : State) (p : Page),
    s.reach p → pageAt win (addr.toNat / 8 * 8) = some p → halves be = none →
    Completes (.registerWrite win addr be data) s fun t =>
      t.glb = { s.glb with badaccCnt := satAdd 32 s.glb.badaccCnt 1, badacc := true, badaccNoted := true } ∧
      (s.glb.badaccNoted = true → t = { s with glb := t.glb }) ∧
      (s.glb.badaccNoted = false →
        t = ({ s with glb := t.glb }).record 0x0203 2 0 (toLE 8 (firstEnabled (addr.toNat / 8 * 8) be)))

/-- Register writes change exactly the writable bits, and partial writes are dropped and counted. -/
def Obligations.RegisterWrites : Prop :=
  Clause.PlainRegisterWrite ∧ Clause.PartialWriteDropped

/-- REGISTER_WRITE of PG_INT_STAT, PG_LOCK_WRITE and PG_INT_EN_WRITE: a write of 1 clears a PG_INT_STAT bit (R34);
PG_LOCK is set once (R36); PG_INT_EN takes its value; a change of PG_LOCK or PG_INT_EN counts in PG_GEN (R37). No
other page's header changes, and nothing but headers, pending bits of the MSI-X table and what the unit sends. On SLM
page 1, while no mailbox of the selected slice is in use, each is refused instead with STATE_FORBIDS (R286). -/
def Clause.HeaderWrites : Prop :=
  (∀ (win : Window) (addr : BitVec 26) (i : Nat) (data : BitVec 64) (s : State) (p : Page),
    s.reach p → s.mbClosed p = none → AtReg win addr i p 0x014 →
    Completes (.registerWrite win addr (oneReg i) data) s fun t =>
      t.hd p = { s.hd p with intStat := (s.hd p).intStat &&& ~~~half data.toNat i } ∧
      (∀ k, k ≠ pageKey p → NMap.find t.hdr k = NMap.find s.hdr k) ∧ t = { s with hdr := t.hdr }) ∧
  (∀ (p : Page) (lock : Bool) (s : State), s.reach p → s.mbClosed p = none →
    Completes (.pgLockWrite p lock) s fun t =>
      t.hd p = (if lock && !(s.hd p).lock then { s.hd p with lock := true, gen := (s.hd p).gen + 1 } else s.hd p) ∧
      (∀ k, k ≠ pageKey p → NMap.find t.hdr k = NMap.find s.hdr k) ∧ t = { s with hdr := t.hdr }) ∧
  (∀ (p : Page) (en : BitVec 32) (s : State), s.reach p → s.mbClosed p = none →
    Completes (.pgIntEnWrite p en) s fun t =>
      t.hd p = { s.hd p with intEn := en, gen := if en = (s.hd p).intEn then (s.hd p).gen else (s.hd p).gen + 1 } ∧
      (∀ k, k ≠ pageKey p → NMap.find t.hdr k = NMap.find s.hdr k) ∧
      t = { s with hdr := t.hdr, msix := t.msix, out := t.out }) ∧
  (∀ (s : State) (d : Nat) (lock : Bool) (en : BitVec 32), s.reach (.slm 1) → s.mbClosed (.slm 1) = some d →
    ∀ c ∈ [Instr.pgLockWrite (.slm 1) lock, .pgIntEnWrite (.slm 1) en],
      Completes c s fun t =>
        (t.hd (.slm 1)).errCode = cForbids ∧ (t.hd (.slm 1)).lock = (s.hd (.slm 1)).lock ∧
        (t.hd (.slm 1)).intEn = (s.hd (.slm 1)).intEn ∧ t.regs = s.regs ∧ t.slices = s.slices)

/-- WIDE_LO_READ, a host read of a window: one of a _LO register returns it and latches the matching _HI half, and a
host read of the _HI register returns that half whatever the register has become since (R11, R38). A read of any other
register returns what it holds; one of the doorbell window, or where no page is, returns zeros; neither changes
anything but what is returned (R26, R27), PKT_BENCH_DATA apart (R134). A configuration request is answered with the
words of the function, or with retry status until it answers (R29, R403). -/
def Clause.WideReadLatches : Prop :=
  (∀ (win : Window) (sp : Space) (x : HostLoad) (i : Nat) (s : State) (p : Page) (off : Nat),
    s.awake → s.pageAnswers p = true → (win = .control ∧ sp = .control ∨ win = .slice ∧ sp = .slice) → i < 2 → x.be = oneReg i →
    pageAt win (x.addr.toNat / 8 * 8) = some p → off = x.addr.toNat / 8 * 8 % 4096 + 4 * i →
    (wideLo p off = true →
      Completes (.wideLoRead sp x) s fun t =>
        (∀ u : State, u.latch = t.latch → u.pageAnswers p = true → u.hostRead p (off + 4) = s.readReg p (off + 4)) ∧
        (∀ k, k ≠ regKey p off → NMap.find t.latch k = NMap.find s.latch k) ∧
        t = { s with latch := t.latch, out := s.out ++ [.loaded (enabledOctets 15 (s.readReg p off))] }) ∧
    (wideLo p off = false → (∀ n, p ≠ .pkt n) →
      Completes (.wideLoRead sp x) s fun t => t = { s with out := s.out ++ [.loaded (enabledOctets 15 (s.hostRead p off))] })) ∧
  (∀ (sp : Space) (x : HostLoad) (i : Nat) (s : State), s.awake → i < 2 → x.be = oneReg i →
    (sp = .doorbell ∨ (sp = .slice ∧ pageAt .slice (x.addr.toNat / 8 * 8) = none) ∨
      (sp = .control ∧ pageAt .control (x.addr.toNat / 8 * 8) = none ∧ msixAt (x.addr.toNat / 8 * 8) = false)) →
    Completes (.wideLoRead sp x) s fun t => t = { s with out := s.out ++ [.loaded [0, 0, 0, 0]] })

/-- Event bits, locks and event enables take their writes; reads return their registers, and a _LO read latches its _HI half. -/
def Obligations.HeadersAndWideReads : Prop :=
  Clause.HeaderWrites ∧ Clause.WideReadLatches

/-- PG_CTRL_ENABLE, PG_CTRL_DRAIN and PG_CTRL_OFFLINE of a block with no work in flight, unless a lease holds it:
ENABLE = 0 takes the block's pages to OFF, ENABLE = 1 takes an OFF block to SERVICING, DRAIN to DRAINING, OFFLINE to
OFFLINE, OFFLINE = 0 an OFFLINE block to SERVICING (R32, R33). -/
def Clause.PageControl : Prop :=
  ∀ (s : State) (p : Page), s.reach p → honoursCtrl p = true →
    ((∀ q ∈ gatedWith p, (s.hd q).st = .ready ∧ (s.hd q).enable = true ∧ s.working q = false) → s.leased p = false →
      (∀ n, p = .pkt n → (s.tile n.val).bench = false) →
      Completes (.pgCtrlEnable p false) s fun t =>
        (∀ q ∈ gatedWith p, (t.hd q).st = .off ∧ (t.hd q).enable = false) ∧
          ((∀ n, p ≠ .zl n) → t.jobs = s.jobs) ∧ t.regs = s.regs) ∧
    ((∀ q ∈ gatedWith p, (s.hd q).st = .off) → (s.hd p).enable = false →
      Completes (.pgCtrlEnable p true) s fun t =>
        (∀ q ∈ gatedWith p, (t.hd q).st = .servicing ∧ (t.hd q).enable = true) ∧ t.jobs = s.jobs ∧ t.regs = s.regs) ∧
    (((s.hd p).st = .ready ∨ (s.hd p).st = .busy) → (s.hd p).enable = true → (s.hd p).offline = false →
      (s.hd p).drain = false → (s.hd p).gating = false →
      Completes (.pgCtrlDrain p true) s fun t =>
        (t.hd p).st = .draining ∧ (t.hd p).drain = true ∧ t.jobs = s.jobs ∧ t.regs = s.regs) ∧
    ((s.hd p).st = .ready → (s.hd p).enable = true → s.working p = false → (s.hd p).gating = false →
      Completes (.pgCtrlOffline p { on := true }) s fun t =>
        (t.hd p).st = .offline ∧ (t.hd p).offline = true ∧ ((∀ n, p ≠ .zl n) → t.jobs = s.jobs) ∧ t.regs = s.regs) ∧
    ((s.hd p).st = .offline → (s.hd p).enable = true → (∀ n, p = .pkt n → (s.tile n.val).bench = false) →
      Completes (.pgCtrlOffline p { on := false }) s fun t =>
        (t.hd p).st = .servicing ∧ (t.hd p).offline = false ∧ t.jobs = s.jobs ∧ t.regs = s.regs) ∧
    ((s.hd p).st = .fault →
      Completes (.pgCtrlOffline p { on := true }) s fun t => (t.hd p).st = .offline ∧ (t.hd p).fclass = 0 ∧ t.jobs = s.jobs)

/-- PG_CTRL_ENABLE: a gating request that a lease refuses writes LEASE_DENIED to PG_ERR and is counted, and the block
stays as it was (R324). -/
def Clause.LeaseRefuses : Prop :=
  ∀ (s : State) (p : Page), s.reach p → honoursCtrl p = true → (s.hd p).enable = true → (s.hd p).st ≠ .fault →
    s.leased p = true →
    Completes (.pgCtrlEnable p false) s fun t =>
      (t.hd p).errCode = cLease ∧ (t.hd p).st = (s.hd p).st ∧ (t.hd p).enable = true ∧
      t.pwr = { s.pwr with leaseDeny := satAdd 32 s.pwr.leaseDeny 1 } ∧ t.jobs = s.jobs

/-- PG_CTRL gates, drains, takes offline and brings back a block; a lease refuses the gating. -/
def Obligations.BlockControl : Prop :=
  Clause.PageControl ∧ Clause.LeaseRefuses

/-- BLOCK_DRAINED and SELF_TEST_DONE. The last work of a draining block ends: a block that is to be offline reads
OFFLINE, one that is to be gated reads OFF where no lease holds it (R32). A self-test that passes ends in READY, one
that fails in FAULT of class 5, or of class 7 where the microcode does not verify (R32, R409, Table 19.3). -/
def Obligations.DrainAndSelfTest : Prop :=
  (∀ (s : State) (p : Page), s.awake → honoursCtrl p = true → (s.hd p).st = .draining →
    (∀ q ∈ gatedWith p, s.working q = false) →
    ((s.hd p).gating = false → (s.hd p).offline = true →
      Completes (.blockDrained p) s fun t =>
        (t.hd p).st = .offline ∧ ((∀ n, p ≠ .zl n) → t.jobs = s.jobs) ∧ t.regs = s.regs) ∧
    ((s.hd p).gating = true → (s.hd p).enable = false → s.leased p = false →
      Completes (.blockDrained p) s fun t => (∀ q ∈ gatedWith p, (t.hd q).st = .off) ∧ ((∀ n, p ≠ .zl n) → t.jobs = s.jobs) ∧ t.regs = s.regs)) ∧
  (∀ (s : State) (p : Page) (r : SelfTest), s.running = true → honoursCtrl p = true → (s.hd p).st = .servicing →
    (∀ q ∈ gatedWith p, (s.hd q).st = .servicing) →
    (r = .pass → (∀ q ∈ gatedWith p, (s.hd q).enable = true ∧ (s.hd q).drain = false ∧ (s.hd q).offline = false ∧
        (s.hd q).gating = false ∧ s.working q = false) →
      Completes (.selfTestDone p r) s fun t => ∀ q ∈ gatedWith p, (t.hd q).st = .ready) ∧
    (r = .fail → Completes (.selfTestDone p r) s fun t =>
      ∀ q ∈ gatedWith p, (t.hd q).st = .fault ∧ (t.hd q).fclass = 5) ∧
    (r = .microcode → Completes (.selfTestDone p r) s fun t =>
      ∀ q ∈ gatedWith p, (t.hd q).st = .fault ∧ (t.hd q).fclass = 7))

/-- MSIX_UNMASK: unmasking an MSI-X entry clears its mask; a pending bit sends one message with the entry's address
and data and clears; without one nothing is sent (R70). No other entry changes. -/
def Clause.MsixUnmask : Prop :=
  ∀ (s : State) (vec : Fin 2048) (e : MsixEntry), s.awake → s.pwr.pfwLow = false → s.pwr.configUp = true →
    e = NMap.getD s.msix vec.val {} →
    Completes (.msixUnmask vec) s fun t =>
      NMap.find t.msix vec.val = some { e with mask := false, pend := false } ∧
      t.out = s.out ++ (if e.pend then [.msix vec.val e.addr e.data] else []) ∧
      (∀ k, k ≠ vec.val → NMap.find t.msix k = NMap.find s.msix k) ∧
      t = { s with msix := t.msix, out := t.out }

/-- GLB_FEAT_COMMIT: a device feature commit that no condition of R43 refuses copies the enable words into the
accepted words and reads result 1; one that a condition refuses reads result 2 with that condition's cause and changes
nothing else. -/
def Clause.DeviceFeatureCommit : Prop :=
  ∀ (s : State), s.reach .glb →
    let acc := [s.rg .glb 0x080, s.rg .glb 0x084, s.rg .glb 0x088, s.rg .glb 0x08C]
    (∀ c, s.devCommitBad acc = some c →
      Completes .glbFeatCommit s fun t => t = { s with glb := { s.glb with featRes := 2, featCause := c } }) ∧
    (s.devCommitBad acc = none →
      Completes .glbFeatCommit s fun t =>
        t.glb = { s.glb with accepted := acc, committed := true, featRes := 1, featCause := 0 } ∧
        t.regs = s.regs ∧ t.slices = s.slices ∧ t.jobs = s.jobs)

/-- Unmasking a vector sends its pending message; a device feature commit takes all words or none. -/
def Obligations.MessagesAndFeatures : Prop :=
  Clause.MsixUnmask ∧ Clause.DeviceFeatureCommit

/-! ### Rings and the scheduler (chapters 3 and 4) -/

/-- DOORBELL: a doorbell acts by its ring's state (R56, Table 3.3): IDLE begins to scan; SCANNING and WAIT note a
rescan; DISABLED, STOPPING and a ring the slice does not hold count a stray doorbell; FAULT does nothing; where the
slice's part is not occupied nothing happens at all. Whatever byte enables touch the one doorbell, it rings once
(R27). -/
def Obligations.DoorbellByRingState : Prop :=
  ∀ (s : State) (addr : BitVec 29) (be : List Bool) (d sl r : Nat),
    s.awake → s.running = true → doorbells addr.toNat be = [d] → d < 2 ^ 26 → sl = d / 16384 → r = d % 16384 →
    Completes (.doorbell addr be) s fun t =>
      (sliceOpen (s.slice sl) = false → t = s) ∧
      (sliceOpen (s.slice sl) = true →
        (s.ring sl r = none → t = s.setSlice sl { s.slice sl with stray := satAdd 32 (s.slice sl).stray 1 }) ∧
        ∀ g, s.ring sl r = some g →
          (g.st = .idle → t.ring sl r = some { g with st := .scanning }) ∧
          ((g.st = .scanning ∨ g.st = .wait) → t.ring sl r = some { g with rescan := true }) ∧
          ((g.st = .disabled ∨ g.st = .stopping) →
            t = s.setSlice sl { s.slice sl with stray := satAdd 32 (s.slice sl).stray 1 }) ∧
          (g.st = .fault → t = s)) ∧
      t = { s with slices := t.slices }

/-- RING_ENABLE, RING_DISABLE, RING_RESUME, RING_SCHED_WRITE where no row of Table 3.7 refuses them: ENABLE scans from
entry 0, DISABLE stops fetching (DISABLED at once with nothing outstanding, else STOPPING), RESUME scans on from where
the ring stopped (R66 to R69); WEIGHT and BURST are taken, judged with the configuration they would make. Other rings
of the slice and other slices stay. -/
def Clause.RingCommands : Prop :=
  ∀ (s : State) (sl : Fin 4096) (g : Ring), s.reach (.slc sl) → s.ring sl.val (s.ringSel sl) = some g →
    ((s.slice sl.val).featOk = true → ringConfigRefusal (s.slice sl.val) g g.base.toNat g.cfg = none →
      Completes (.ringEnable sl) s fun t =>
        t.ring sl.val (s.ringSel sl) = some { g with st := .scanning, scan := 0, why := .none } ∧
        OneRing s t sl.val (s.ringSel sl) ∧ t = { s with slices := t.slices }) ∧
    (g.st ≠ .disabled →
      Completes (.ringDisable sl) s fun t =>
        t.ring sl.val (s.ringSel sl) = some { g with
          st := if (s.ringJobs sl.val (s.ringSel sl)).isEmpty then .disabled else .stopping, why := .none } ∧
        (∀ f ∈ t.fetches, f.slice = sl.val → f.ring = s.ringSel sl → f.live = false) ∧
        (∀ k, k ≠ sl.val → NMap.find t.slices k = NMap.find s.slices k) ∧
        t = { s with slices := t.slices, fetches := t.fetches }) ∧
    (g.st = .fault →
      Completes (.ringResume sl) s fun t =>
        t.ring sl.val (s.ringSel sl) = some { g with st := .scanning } ∧
        (t.readReg (.slc sl) (0x800 + 4 * (s.ringSel sl / 32))).getLsbD (s.ringSel sl % 32) = false ∧
        OneRing s t sl.val (s.ringSel sl) ∧ t = { s with slices := t.slices }) ∧
    (∀ v : BitVec 32, ringConfigRefusal (s.slice sl.val) { g with weight := fld v 0 8, burst := fld v 8 7, st := .disabled }
        g.base.toNat g.cfg = none →
      Completes (.ringSchedWrite sl v) s fun t =>
        t.ring sl.val (s.ringSel sl) =
          some { g with weight := fld v 0 8, burst := fld v 8 7, credit := Nat.min g.credit (fld v 0 8) } ∧
        OneRing s t sl.val (s.ringSel sl) ∧ t = { s with slices := t.slices, hdr := t.hdr })

/-- RING_CONFIG_WRITE: the ring base and configuration registers (R38, R69): the low half of the base is held, the
high half applies the pair; SL_RING_CFG is taken while no row of Table 3.7 refuses it. -/
def Clause.RingConfiguration : Prop :=
  ∀ (s : State) (sl : Fin 4096) (g : Ring) (x : BitVec 32), s.reach (.slc sl) →
    s.ring sl.val (s.ringSel sl) = some g →
    (Completes (.ringConfigWrite sl .baseLo x) s fun t =>
      t.ring sl.val (s.ringSel sl) = some { g with baseLo := some (x &&& 0xFFFFF000) } ∧ t = { s with slices := t.slices }) ∧
    (∀ lo : W32, g.baseLo = some lo → g.st = .disabled → x.toNat * 2 ^ 32 + lo.toNat + g.size * 128 ≤ 2 ^ 64 →
      Completes (.ringConfigWrite sl .baseHi x) s fun t =>
        t.ring sl.val (s.ringSel sl) =
          some { g with base := BitVec.ofNat 64 (x.toNat * 2 ^ 32 + lo.toNat), baseLo := none } ∧
        t = { s with slices := t.slices, hdr := t.hdr }) ∧
    (ringConfigRefusal (s.slice sl.val) g g.base.toNat (x &&& 0x7FFFF) = none →
      Completes (.ringConfigWrite sl .cfg x) s fun t =>
        t.ring sl.val (s.ringSel sl) = some { g with cfg := x &&& 0x7FFFF } ∧ t = { s with slices := t.slices, hdr := t.hdr })

/-- A ring command that Table 3.7 refuses leaves the ring as it is and writes the row's code to PG_ERR: no ring under
SL_RING_SEL, features not committed, a bad configuration or schedule, a ring that reads DISABLED under DISABLE, one
that does not read FAULT under RESUME (R69). -/
def Clause.RingRefusals : Prop :=
  ∀ (s : State) (sl : Fin 4096), s.reach (.slc sl) →
    (s.ring sl.val (s.ringSel sl) = none → ∀ c ∈ [Instr.ringDisable sl, .ringDisableAbort sl, .ringResume sl],
      Completes c s fun t => (t.hd (.slc sl)).errCode = cBadParam ∧ t.slices = s.slices ∧ t.jobs = s.jobs) ∧
    ((s.slice sl.val).featOk = false →
      Completes (.ringEnable sl) s fun t => (t.hd (.slc sl)).errCode = cFeature ∧ t.slices = s.slices) ∧
    (∀ g, s.ring sl.val (s.ringSel sl) = some g →
      (∀ c d, (s.slice sl.val).featOk = true → ringConfigRefusal (s.slice sl.val) g g.base.toNat g.cfg = some (c, d) →
        Completes (.ringEnable sl) s fun t => (t.hd (.slc sl)).errCode = c ∧ t.slices = s.slices) ∧
      (g.st = .disabled → ∀ c ∈ [Instr.ringDisable sl, .ringDisableAbort sl],
        Completes c s fun t => (t.hd (.slc sl)).errCode = cForbids ∧ t.slices = s.slices ∧ t.jobs = s.jobs) ∧
      (∀ v c d, ringConfigRefusal (s.slice sl.val) { g with weight := fld v 0 8, burst := fld v 8 7, st := .disabled }
          g.base.toNat g.cfg = some (c, d) →
        Completes (.ringSchedWrite sl v) s fun t => (t.hd (.slc sl)).errCode = c ∧ t.slices = s.slices) ∧
      (g.st ≠ .fault →
        Completes (.ringResume sl) s fun t => (t.hd (.slc sl)).errCode = cForbids ∧ t.slices = s.slices))

/-- Ring ENABLE, DISABLE, RESUME and configuration, and the refusals of each. -/
def Obligations.RingCommands : Prop :=
  Clause.RingCommands ∧ Clause.RingConfiguration ∧ Clause.RingRefusals

/-- RING_DISABLE_ABORT, by the tenant on its selected ring, and QSC_RING_DISABLE and QSC_RING_DISABLE_ABORT, by the
manager on the ring of QSC_RING_SEL (R67, R73): after an abort no entry of the ring is left outstanding that has not
ended; reads in flight are discarded; a ring with nothing outstanding reads DISABLED at once, else the manager's
DISABLE leaves its jobs and STOPPING. A ring ID that no slice holds is refused. -/
def Obligations.DisableAbortEndsRing : Prop :=
  ∀ (s : State) (sl : Fin 4096) (r : Nat) (g : Ring), s.awake → s.pwr.pfwLow = false → s.sane = true →
    s.ring sl.val r = some g → g.st ≠ .disabled →
    (s.reach (.slc sl) → r = s.ringSel sl →
      Completes (.ringDisableAbort sl) s fun t =>
        (∀ x ∈ t.jobs, x.slice = sl.val → x.ring = r → x.phase = .done) ∧
        (∀ f ∈ t.fetches, f.slice = sl.val → f.ring = r → f.live = false) ∧
        ((s.ringJobs sl.val r).isEmpty = true →
          t.ring sl.val r = some { g with st := .disabled, why := .none } ∧ t.jobs = s.jobs)) ∧
    (s.reach .qsc → s.findRing (fld (s.rg .qsc 0x100) 0 20) = some (sl.val, r) →
      Completes .qscRingDisableAbort s fun t =>
        (∀ x ∈ t.jobs, x.slice = sl.val → x.ring = r → x.phase = .done) ∧
        (∀ f ∈ t.fetches, f.slice = sl.val → f.ring = r → f.live = false) ∧
        ((s.ringJobs sl.val r).isEmpty = true →
          t.ring sl.val r = some { g with st := .disabled, why := .none } ∧ t.jobs = s.jobs)) ∧
    (s.reach .qsc → s.findRing (fld (s.rg .qsc 0x100) 0 20) = some (sl.val, r) →
      Completes .qscRingDisable s fun t =>
        t.ring sl.val r = some { g with
          st := if (s.ringJobs sl.val r).isEmpty then .disabled else .stopping, why := .none } ∧
        (∀ f ∈ t.fetches, f.slice = sl.val → f.ring = r → f.live = false) ∧ t.jobs = s.jobs) ∧
    (s.reach .qsc → s.findRing (fld (s.rg .qsc 0x100) 0 20) = none → ∀ c ∈ [Instr.qscRingDisable, .qscRingDisableAbort],
      Completes c s fun t => (t.hd .qsc).errCode = cForbids ∧ t.slices = s.slices ∧ t.jobs = s.jobs)

/-- FETCH_TURN (R57, R76, R77): where the arbiter's two levels choose a ring, that ring is SCANNING, its slice ACTIVE,
and no read of its own is in flight; unless its own oldest entry is the one it would scan, its entry is read (8 octets of
a SPLIT ring, else 128) and the read is in flight. -/
def Obligations.FetchTurn : Prop :=
  ∀ (s s1 s2 : State) (sl r : Nat) (g : Ring),
    s.fetchStopped = false → s.pwr.ladder = .gale → s.backPressure = false → s.fetches.length < 32 →
    s.chooseSlice = some (s1, sl) → s1.chooseRing sl = some (s2, r) → s.ring sl r = some g →
    g.st = .scanning ∧ (s.slice sl).st = .active ∧ (∀ f ∈ s.fetches, ¬(f.slice = sl ∧ f.ring = r)) ∧
    Completes .fetchTurn s fun t =>
      ((∀ o, s.oldest sl r = some o → o.index ≠ g.scan) →
        t.fetches = s.fetches ++ [{ slice := sl, ring := r, index := g.scan }] ∧
        t.out = s.out ++ [.read (s.slice sl).pasid (g.entryAddr g.scan) (if g.split then 8 else 128)]) ∧
      (∀ o, s.oldest sl r = some o → o.index = g.scan →
        t.fetches = s.fetches ∧ t.out = s.out ∧ ∃ g', t.ring sl r = some g' ∧ g'.st = .wait) ∧
      t.jobs = s.jobs ∧ t.regs = s.regs ∧ t.hdr = s.hdr

/-- ENTRY_READ_COMPLETE (R53, R57, R61, R65): a failed read takes the ring to FAULT with its cause and address; an
entry not owned by the unit leaves the ring IDLE, or as it is where a doorbell rang meanwhile; the first part of a
SPLIT entry that is owned has its other 120 octets asked for; a whole owned entry moves the scan on (a fence waits):
one that the checker refuses is counted and ends with the checker's code, one that it accepts is outstanding and its
input is asked for. -/
def Obligations.EntryReadReturns : Prop :=
  ∀ (s : State) (sl : Fin 4096) (r : Fin 16384) (f : Fetch) (g : Ring), s.mute = false →
    s.fetches.find? (fun f => f.slice = sl.val && f.ring = r.val) = some f → f.live = true →
    s.ring sl.val r.val = some g →
    (∀ c : ReadCause, Completes (.entryReadComplete sl r (.failed c)) s fun t =>
      t.ring sl.val r.val = some { g with
        st := .fault, fcause := c.code, faddr := BitVec.ofNat 64 (g.entryAddr g.scan), why := .none } ∧ t.jobs = s.jobs) ∧
    (∀ b : Bytes,
      let e := match f.head with | some h => h ++ Bytes.fit b 120 | none => Bytes.fit b 128
      let j := s.jobOf sl.val r.val g e
      let next : Ring := { g with scan := (g.scan + 1) % g.size }
      (eOwn e = false → Completes (.entryReadComplete sl r (.data b)) s fun t =>
        t.ring sl.val r.val = some (if g.rescan then g else { g with st := .idle }) ∧ t.jobs = s.jobs ∧ t.out = s.out) ∧
      (eOwn e = true → g.split = true → f.head = none → Completes (.entryReadComplete sl r (.data b)) s fun t =>
        { f with head := some (Bytes.fit b 8) } ∈ t.fetches ∧ t.ring sl.val r.val = some g ∧ t.jobs = s.jobs ∧
        t.out = s.out ++ [.read (s.slice sl.val).pasid ((g.entryAddr g.scan + 8) % 2 ^ 64) 120]) ∧
      (eOwn e = true → (g.split = false ∨ f.head ≠ none) →
        (entryCheck true s.isMember (s.view sl.val) e = none → Completes (.entryReadComplete sl r (.data b)) s fun t =>
          t.ring sl.val r.val = some (if eFence e then { next with st := .wait, why := .fence, fenceJob := j.id } else next) ∧
          (s.firstRead j = 0 → t.jobs = s.jobs ++ [{ j with phase := .staged }] ∧ t.out = s.out) ∧
          (s.firstRead j ≠ 0 → t.jobs = s.jobs ++ [j] ∧ t.out = s.out ++ [.read j.pasid (eInAddr e) (s.firstRead j)])) ∧
        (∀ c d, entryCheck true s.isMember (s.view sl.val) e = some (c, d) →
          Completes (.entryReadComplete sl r (.data b)) s fun t =>
            (t.slice sl.val).malformed = satAdd 32 (s.slice sl.val).malformed 1 ∧
            Ends s t j { code := c, detail := d, result := zeros 16 } [])))

/-- INPUT_READ_COMPLETE (R63, R143, R152): a staging job's input is staged, cut or padded to what was asked for; an
open chain's records are joined to it, parsed and made into items; a batch item's octets make that item ready; a read
that failed ends the job with BAD_HOST_ADDRESS, whose detail tells descriptors and records from input. -/
def Obligations.InputReadReturns : Prop :=
  ∀ (s : State) (id : Nat) (j : Job), s.job id = some j → s.mute = false →
    let res := if eOp j.entry = 0x0201 then stopResult j 0xFFFFFFFF else s.stopRes j j.left
    (j.phase = .staging → ∀ b : Bytes, Completes (.inputReadComplete id none (.data b)) s fun t =>
      t.job id = some { j with phase := .staged, input := Bytes.fit b (s.firstRead j) } ∧ t = { s with jobs := t.jobs }) ∧
    (j.phase ≠ .staging → j.started = true → j.whole = false → ∀ b : Bytes,
      let j1 : Job := { j with input := j.input ++ Bytes.fit b (eInLen j.entry - j.input.length) }
      Completes (.inputReadComplete id none (.data b)) s fun t =>
        t.job id = some { j1 with items := chainItems (s.chainParse j1) } ∧ t = { s with jobs := t.jobs }) ∧
    ((j.phase = .staging ∨ (j.started = true ∧ j.whole = false)) → ∀ c : ReadCause,
      Completes (.inputReadComplete id none (.failed c)) s fun t =>
        Ends s t j { code := cBadAddr, detail := if eOp j.entry = 0x0201 ∨ eOp j.entry = 0x0202 then 0x13 else 0x11, result := res }
          []) ∧
    (∀ (i : Nat) (b : Bytes), Completes (.inputReadComplete id (some i) (.data b)) s fun t =>
      (∃ y, t.job id = some y ∧ y.items.length = j.items.length ∧
        ∀ x ∈ y.items, x.idx = i → x.ready = true ∨ x.out.isSome = true) ∧
      t = { s with jobs := t.jobs }) ∧
    (∀ (i : Nat) (c : ReadCause), (∃ x ∈ j.items, x.idx = i ∧ x.ready = false ∧ x.out = none) →
      Completes (.inputReadComplete id (some i) (.failed c)) s fun t =>
        Ends s t j { code := cBadAddr, detail := 0x13, result := res } [])

/-- QSC_SLICE_WEIGHT_WRITE and HWM_CLR (R78, R88, Table 4.4): QSC_SLICE_WEIGHT sets the selected slice's weight and
lowers its credit to it; HWM_CLR sets each high-water mark to its FIFO's fill. -/
def Clause.QscRegisters : Prop :=
  (∀ (s : State) (v : BitVec 32), s.reach .qsc →
    let n := fld (s.rg .qsc 0x040) 0 12
    sliceOpen (s.slice n) = true → fld v 0 8 ≠ 0 →
    Completes (.qscSliceWeightWrite v) s fun t =>
      t.slice n = { s.slice n with weight := fld v 0 8, credit := Nat.min (s.slice n).credit (fld v 0 8) } ∧
      (∀ k, k ≠ n → NMap.find t.slices k = NMap.find s.slices k) ∧ t = { s with slices := t.slices, hdr := t.hdr }) ∧
  (∀ (s : State), s.reach .qsc →
    Completes .hwmClr s fun t =>
      t = { s with qsc := { s.qsc with
        hwm := [s.fill .pk, s.fill .bulk, s.fill .sym, s.fill .key, s.fill .rng, s.eng.itemQueue.length] } })

/-- JOB_TIME_LIMIT: a bound job that has a time limit and reaches it is counted and ends ABORTED, detail 0x10, with
the output it had released by then (R89, R177; how far it had got is a free value). -/
def Clause.JobTimeLimit : Prop :=
  ∀ (s : State) (id : Nat) (j : Job) (b : Bound), s.mute = false → s.job id = some j → j.bnd = some b → b.limit ≠ 0 →
    j.phase ≠ .done →
    Completes (.jobTimeLimit id) s fun t =>
      t.qsc.timeoutCnt = satAdd 32 s.qsc.timeoutCnt 1 ∧
      let p := s.stopAt j
      Ends s t j { code := cAborted, detail := 0x10, outLen := p.1.length, result := s.stopRes p.2 b.tallyLeft } p.1

/-- Scheduler registers take their writes; a bound job at its time limit ends ABORTED and is counted. -/
def Obligations.SchedulerAndTimeLimit : Prop :=
  Clause.QscRegisters ∧ Clause.JobTimeLimit

/-! ### The Barometer (chapter 4) -/

/-- BARO_UPDATE (R83, R85, R87), in every run state while the core is powered and not in Frost: the reading saturates
at both ends, SEQ counts modulo 2^16, MIN follows, TMP_TJ and TMP_VCAP show the samples of the same millisecond; with the loop running and acknowledged one VOUT_COMMAND leaves that
is never above VMAX and differs by at most 5 mV where the last one lay within the limits; unacknowledged, the loop
stops with PMB_ERR. -/
def Clause.BarometerUpdate : Prop :=
  ∀ (s : State) (reading : BaroSample) (ack : Bool), s.linked = true →
    let u : State := { s with tmp := { s.tmp with tj := reading.tj.toInt, vcap := reading.vcap.toNat } }
    Completes (.baroUpdate reading ack) s fun t =>
      t.tmp = u.tmp ∧ t.baro.pace = Nat.max 0x1CD (Nat.min reading.pace 0x500) ∧ t.baro.seq = (s.baro.seq + 1) % 2 ^ 16 ∧
      t.baro.min = Nat.min s.baro.min t.baro.pace ∧
      (s.baro.loop = false → t = { u with baro := { s.baro with pace := t.baro.pace, seq := t.baro.seq, min := t.baro.min } }) ∧
      (s.baro.loop = true → ack = true →
        t.out = s.out ++ [.pmbus (fld (s.rg .baro 0x05C) 0 7) (fld (s.rg .baro 0x05C) 8 8) t.baro.v] ∧
        t.baro.v ≤ fld (s.rg .baro 0x058) 16 10 ∧ t.baro.vdd = t.baro.v ∧
        (u.vFloor ≤ s.baro.v → s.baro.v ≤ fld (s.rg .baro 0x058) 16 10 →
          t.baro.v ≤ s.baro.v + 5 ∧ s.baro.v ≤ t.baro.v + 5 ∧ u.vFloor ≤ t.baro.v)) ∧
      (s.baro.loop = true → ack = false → t.baro.loop = false ∧ t.baro.pmbErr = true) ∧
      t.jobs = s.jobs ∧ t.regs = s.regs ∧ t.glb = s.glb

/-- HOST_RTT_INTERVAL, MIN_CLR, BARO_VLIM_WRITE, BARO_TARGET_WRITE: an interval of at least 64 reads sets the
round-trip fields, one of fewer leaves them (R84); MIN_CLR takes MIN to PACE (R85); BARO_VLIM takes limits in range
(R86); BARO_TARGET starts the loop from the voltage READ_VOUT gives, or retargets it (R87). -/
def Clause.BarometerRegisters : Prop :=
  (∀ (s : State) (n mx mean : Nat), s.running = true →
    Completes (.hostRttInterval n mx mean) s fun t =>
      t = if n < 64 then s else { s with baro := { s.baro with rttMax := Nat.min mx 0xFFFF, rttMean := Nat.min mean 0xFFFF } }) ∧
  (∀ (s : State), s.reach .baro → Completes .minClr s fun t => t = { s with baro := { s.baro with min := s.baro.pace } }) ∧
  (∀ (s : State) (x : BitVec 32), s.reach .baro → (s.hd .baro).lock = false →
    600 ≤ fld x 0 10 → fld x 16 10 ≤ 900 → fld x 0 10 ≤ fld x 16 10 →
    Completes (.baroVlimWrite x) s fun t =>
      t.rg .baro 0x058 = (s.rg .baro 0x058 &&& ~~~0x03FF03FF) ||| (x &&& 0x03FF03FF) ∧
      t = { s with regs := t.regs, hdr := t.hdr }) ∧
  (∀ (s : State) (x : BitVec 32) (v : Nat), s.reach .baro → s.devFeat 2 = true → 0x1CD ≤ fld x 0 16 → fld x 0 16 ≤ 0x500 →
    Completes (.baroTargetWrite x (some v)) s fun t =>
      t.rg .baro 0x04C = (s.rg .baro 0x04C &&& ~~~0xFFFF) ||| (x &&& 0xFFFF) ∧ t.baro.loop = true ∧
      t.baro.v = (if s.baro.loop then s.baro.v else v) ∧ t.jobs = s.jobs ∧ t.out = s.out)

/-- The Barometer saturates, counts and steers the voltage inside its limits. -/
def Obligations.BarometerUpdates : Prop :=
  Clause.BarometerUpdate ∧ Clause.BarometerRegisters

/-! ### Binding (chapters 4, 5 and 10) -/

/-- JOB_BINDING of a PK, SYM or KEY job (R20, R80): the job whose turn it is takes the offered engine. With its
handles passing (`taking`) it is bound, keeps copies of its keys and the time limit then in QSC_JOB_LIMIT, and its
engine's pages read BUSY; a secret-using job first draws its fresh values (R19), and waits, or ends with what refuses
the draw; refused at a handle, it ends with the refusal's code. Passes that wait for a hashing unit are served first
(R109). -/
def Clause.JobBinds : Prop :=
  ∀ (s s1 : State) (f : Fifo) (g : Engine) (m : MemOutcome) (e : EngineEnd) (j : Job),
    let u := s.passEnds.hashFill
    s.bindOn = true → s.pwr.ladder = .gale → u.itemWaits = false → f ≠ .bulk → f ≠ .rng → (∀ n, g ≠ .member n) →
    u.nextJob f (fun j => u.engFits j g && !u.rangeWait j) = some j → j.bnd = none → j.remote = none → j.cls = f →
    (∀ t, g = .tile t → u.warmOk (u.homeOf j) t = true ∧ u.tileHashes t (u.jobPass j) = true) →
    (∀ tk, u.taking j m = (s1, .inr tk) →
      (∀ s2, (opSecret (eOp j.entry) = false ∧ s2 = s1) ∨
          (opSecret (eOp j.entry) = true ∧ ∃ x, s1.intRequest e = (s2, .got x)) →
        Completes (.jobBinding f g m e) s fun t =>
          (∃ x, t.job j.id = some x ∧ x.phase = .bound ∧ ∃ b, x.bnd = some b ∧ b.eng = g ∧ b.keyA = tk.keyA ∧
            b.keyB = tk.keyB ∧ b.tallyLeft = tk.left ∧ b.limit = fld (s2.rg .qsc 0x078) 0 16) ∧
          (∀ p ∈ engPages g, (s2.hd p).st = .ready → (t.hd p).st = .busy) ∧ t.glb = s2.glb) ∧
      (∀ s2, opSecret (eOp j.entry) = true → s1.intRequest e = (s2, .wait) →
        Completes (.jobBinding f g m e) s fun t => t.rng.waiters.contains j.id = true ∧ t.slices = u.slices ∧ t.ks = u.ks) ∧
      (∀ s2 c d, opSecret (eOp j.entry) = true → s1.intRequest e = (s2, .refused c d) →
        Completes (.jobBinding f g m e) s fun t => ∃ x, Ends s2 t j x [] ∧ x.code = c ∧ x.detail = d)) ∧
    (∀ rf, u.taking j m = (s1, .inl rf) →
      Completes (.jobBinding f g m e) s fun t => ∃ c, Ends s1 t j c [] ∧ c.code = rf.code ∧ c.detail = rf.detail)

/-- JOB_BINDING of an RNG_READ and for the BULK FIFO: an RNG_READ takes the offered instance, or ends at once where
the source has failed or no host instance runs (R198, R199, R206); the head job of the BULK FIFO is opened by its
turn, a batch with one item for each descriptor (R143); the first staged item takes the offered free tile (R80, R146). -/
def Clause.RngAndBulkBind : Prop :=
  (∀ (s : State) (g : Engine) (m : MemOutcome) (e : EngineEnd) (j : Job), s.bindOn = true →
    let u := s.passEnds.hashFill
    u.nextJob .rng (fun _ => true) = some j →
    (∀ c d, u.readBad = some (c, d) → Completes (.jobBinding .rng g m e) s fun t =>
      ∃ x, Ends u t j x [] ∧ x.code = c ∧ x.detail = d) ∧
    (u.readBad = none → u.engFits j g = true → j.cls = .rng → eKeyA j.entry = 0 → eKeyB j.entry = 0 →
      eOp j.entry = 0x0601 →
      Completes (.jobBinding .rng g m e) s fun t =>
        ∃ x, t.job j.id = some x ∧ x.phase = .bound ∧ ∃ b, x.bnd = some b ∧ b.eng = g)) ∧
  (∀ (s : State) (w : Fin 8) (m : MemOutcome) (e : EngineEnd) (j : Job), s.bindOn = true →
    let u := s.passEnds.hashFill
    u.nextJob .bulk (fun _ => true) = some j → (u.fifo .bulk).any (fun j => j.started) = false → eOp j.entry = 0x0202 →
    Completes (.jobBinding .bulk (.worker w) m e) s fun t =>
      ∃ x, t.job j.id = some x ∧ x.started = true ∧ x.items.map Item.idx = List.range (eW j.entry 0x40)) ∧
  (∀ (s : State) (tile : Fin 96) (m : MemOutcome) (e : EngineEnd) (j : Job) (i : Item), s.bindOn = true →
    let v := s.passEnds.hashFill.bulkHead m
    v.nextItem = some (j, i) → v.tileFree tile = true → v.pkWaits = false → v.warmOk (v.itemHome j i) tile = true →
    v.tileHashes tile (v.itemPass j i) = true →
    (j.itemKey i = 0 ∨ i.bad.isSome = true) →
    Completes (.jobBinding .bulk (.tile tile) m e) s fun t =>
      ∃ x, t.job j.id = some x ∧ ∀ y ∈ x.items, y.idx = i.idx → y.tile = some tile.val)

/-- A job at its turn takes its engine with copies of its keys, or ends with what refuses it. -/
def Obligations.JobsBind : Prop :=
  Clause.JobBinds ∧ Clause.RngAndBulkBind

/-! ### The public-key service (chapter 5) -/

/-- The eight public-key commands with their opcodes and what their tiles compute. -/
def pkTable : List ((Nat → RunEnd → Instr) × Nat × (State → Job → Bound → PkOut)) :=
  [(.pkSign, 0x0101, signRun), (.pkVerify, 0x0102, verifyRun), (.pkKeygen, 0x0103, keygenRun), (.pkDerive, 0x0104, deriveRun),
   (.kemEncaps, 0x0105, encapsRun), (.kemDecaps, 0x0106, decapsRun), (.rsaDecrypt, 0x0107, rsaDecRun),
   (.rsaEncrypt, 0x0108, rsaEncRun)]

/-- PK_SIGN, PK_VERIFY, PK_KEYGEN, PK_DERIVE, KEM_ENCAPS, KEM_DECAPS, RSA_ENCRYPT, RSA_DECRYPT: a bound job whose
tile, and the unit that hashed for it, ran to their end (R98, R99, R109). Where the tile's computation meets a row of
Table 5.16, the job ends with that row's code and detail and no output; else it ends OK with the output, and a key it
creates stands at the place its handle names, with the material and public key computed, and RESULT names the handle.
An ECDSA signature whose secret gave r or s 0 draws another (R100). -/
def Obligations.PublicKeyJobs : Prop :=
  ∀ x ∈ pkTable, ∀ (s : State) (id : Nat) (w : Option (Fin 16384)) (j : Job) (b : Bound),
    let u := s.hashFill
    u.boundJob x.2.1 id = some (j, b) → u.hashLacks j b = false →
    let o := x.2.2 u j b
    o.bound = false →
    (o.again = false → Completes (x.1 id { wipeBad := w }) s fun t =>
      match o.bad with
      | some (c, d) => Ends u t j { code := c, detail := d, result := pkResult j 0 o.hashed 0 b.tallyLeft } []
      | none =>
        match o.material, b.resv, newKeyOf (u.jobView j) j.entry with
        | some m, some rv, some _ =>
          let h := mkHandle rv.slice rv.index (NMap.getD u.vault.gens rv.slice 1)
          Ends u t j { code := cOK, outLen := o.out.length, result := pkResult j h o.hashed o.iter b.tallyLeft } o.out ∧
          ∃ k, t.keyIn h = some k ∧ k.handle = h ∧ k.material = m ∧ k.pub = o.pub ∧ k.live = true
        | _, _, _ => Ends u t j { code := cOK, outLen := o.out.length, result := pkResult j 0 o.hashed o.iter b.tallyLeft } o.out) ∧
    (o.again = true → b.remote = false → ∀ u1 y, u.intRequest .ok = (u1, .got y) →
      Completes (x.1 id { wipeBad := w }) s fun t => t.job id = some { j with bnd := some { b with rnd := y } })

/-- What stops a bound public-key job before its result (R104, R116, R335, Table 19.3): a failed check or a completion
detector ends it ENGINE_MISMATCH with the check's detail, and the pages of the unit that failed read FAULT with that
class; ML-DSA signing that ran its 1,024 iterations out ends with detail 3; device memory ends it with what it
answered. No output. -/
def Obligations.StoppedJobs : Prop :=
  ∀ x ∈ pkTable, ∀ (s s1 : State) (id : Nat) (r : RunEnd) (j : Job) (b : Bound),
    let u := s.hashFill
    u.boundJob x.2.1 id = some (j, b) → u.hashLacks j b = false →
    let o := x.2.2 u j b
    let res := pkStopRes j b o r (Config.progress u.freeN)
    (∀ c d rec, r.mem ≠ .ok → ({ u with freeN := u.freeN + 1 } : State).memAccess r.mem = (s1, some (c, d), rec) →
      Completes (x.1 id r) s fun t => Ends s1 t j { code := c, detail := d, result := res } []) ∧
    (r.mem = .ok → (r.eng = .checkFailed ∨ r.eng = .detector) →
      let d := if r.eng = .checkFailed then 1 else 2
      Completes (x.1 id r) s fun t =>
        Ends u t j { code := cMismatch, detail := d, result := res } [] ∧
        ((∀ n, b.failed r ≠ .member n) → ∀ p ∈ engPages (failing (b.failed r)), (t.hd p).st = .fault ∧ (r.wipeBad = none → (t.hd p).fclass = d))) ∧
    (r.mem = .ok → (r.eng = .iterationBound ∨ r.eng = .ok ∧ o.bound = true) → j.pk.alg = 6 → (x.2.1 = 0x0101 ∨ x.2.1 = 0x0103) →
      Completes (x.1 id r) s fun t =>
        Ends u t j { code := cMismatch, detail := 3, result := pkResult j 0 o.hashed 1024 b.tallyLeft } [])

/-- WARM_TABLE_BUILT: a WARM key whose home quad has a tile in service becomes ready once its table is built, and
nothing else of the machine changes (R111, R113). -/
def Clause.WarmTableBuilt : Prop :=
  ∀ (s : State) (h : BitVec 64) (k : KeyRec) (q : Nat), s.asleep = false →
    s.resolve (hSlice h.toNat) h.toNat = some k → k.warm = true → k.warmQuad = some q → s.quadServes q = true →
    Completes (.warmTableBuilt h) s fun t =>
      NMap.find t.ks.keys k.place = some { k with warmReady := true, rebuild := false } ∧
      (∀ p, p ≠ k.place → NMap.find t.ks.keys p = NMap.find s.ks.keys p) ∧
      t = { s with ks := { s.ks with keys := t.ks.keys } }

/-! ### Bulk verification, curves, record layouts (chapters 6 and 7) -/

/-- BULK_ITEM_COMPLETE (R141, R145): an item whose tile is done takes its verification's outcome, or the outcome its
descriptor gave it; after a failure of its tile, or of the unit that hashes for it, whose pages then read FAULT, it
goes back to the front of the queue once, and a second failure decides it as ENGINE_MISMATCH. -/
def Clause.BulkItems : Prop :=
  ∀ (s : State) (id idx : Nat) (r : RunEnd) (j : Job) (b : Bound) (i : Item) (tile : Fin 96),
    let u := s.hashFill
    u.mute = false → (∀ x ∈ u.eng.strays, ¬(x.job = id ∧ x.item = idx)) → u.job id = some j → j.bnd = some b →
    j.items.find? (fun i => i.idx = idx) = some i → i.tile = some tile.val →
    ((u.itemPass j i).isNone = true ∨ i.hash.isEmpty = false ∨ i.hashed = true) →
    let unit := if r.hashUnit then (if i.hash.isEmpty then b.hash else i.hash).head? else none
    Completes (.bulkItemComplete id idx r) s fun t =>
      (∃ x, t.job id = some x ∧ ∀ y ∈ x.items, y.idx = idx →
        y = match endDetail false r.eng with
          | none => { i with tile := none, hash := [], out := some ((u.itemVerify j b i).getD (0, 0)) }
          | some d => if i.retried then { i with tile := none, member := none, hash := [], hashed := false, out := some (cMismatch, d) }
                      else { i with tile := none, member := none, hash := [], hashed := false, retried := true }) ∧
      (∀ d, endDetail false r.eng = some d →
        ((∀ n, unit.getD (.tile tile) ≠ .member n) →
          ∀ p ∈ engPages (failing (unit.getD (.tile tile))), p ≠ .pkt tile ∨ r.wipeBad = none →
            (t.hd p).st = .fault ∧ (t.hd p).fclass = d) ∧
        t.eng.itemQueue = (if i.retried then [] else [(id, idx)]) ++ u.eng.itemQueue) ∧
      EndFrame u t

/-- BATCH_VERIFY and CHAIN_VERIFY: a batch whose items are all decided ends OK, or BATCH_PARTIAL with the count of
items that did not pass, its bitmap and causes written (R144); a chain whose records have been read ends once its
first failure is known, or with all records passed, and releases its running hash (R154, R155); one whose item was
lost with a second member ends with that item's code. -/
def Clause.BatchesAndChains : Prop :=
  (∀ (s : State) (id : Nat) (r : RunEnd) (j : Job) (b : Bound), s.bulkJob 0x0202 id = some (j, b) → r.mem = .ok →
    (∀ i ∈ j.items, i.out ≠ none) →
    let fails := (j.items.filter fun i => i.out != some (0, 0)).length
    Completes (.batchVerify id r) s fun t =>
      Ends s t j { code := if fails = 0 then cOK else cBatchPartial, detail := fails, outLen := (batchOutput j).length,
                   result := batchResult j } (batchOutput j)) ∧
  (∀ (s : State) (id : Nat) (r : RunEnd) (j : Job) (b : Bound), s.bulkJob 0x0201 id = some (j, b) → r.mem = .ok →
    j.whole = true →
    let a := s.chainParse j
    (∀ c d, chainLost j a = some (c, d) → Completes (.chainVerify id r) s fun t =>
      Ends s t j { code := c, detail := d, result := s.stopRes j j.left } []) ∧
    (chainLost j a = none → chainDecided j a (decide (a.off < (s.chainBody j).length)) = some none →
      Completes (.chainVerify id r) s fun t => ∃ res,
        Ends s t j { code := cOK, outLen := (s.runningHash j a a.recs.length).length, result := res }
          (s.runningHash j a a.recs.length)) ∧
    (∀ n d, chainLost j a = none → chainDecided j a (decide (a.off < (s.chainBody j).length)) = some (some (n, d)) →
      Completes (.chainVerify id r) s fun t => ∃ res,
        Ends s t j { code := cChainBreak, detail := d, outLen := (s.runningHash j a n).length, result := toLE 4 n ++ res }
          (s.runningHash j a n)))

/-- Bulk items take their outcomes with one retry; batches and chains end by their items and records. -/
def Obligations.BulkVerification : Prop :=
  Clause.BulkItems ∧ Clause.BatchesAndChains

/-- RLD_LOAD and RLD_UNLOAD: a record-layout descriptor is loaded where the slice has room, Table 7.6 finds nothing
and the ID is free, and ends KEY_CAPACITY, or with the table's code, or BAD_PARAM 3 otherwise (R148, R149); an unload
takes its ID out of view (R150). -/
def Clause.RecordLayouts : Prop :=
  ∀ (s : State) (id : Nat) (j : Job) (b : Bound), s.boundJob 0x0508 id = some (j, b) → s.sane = true →
    (eB j.entry 0x38 = 0 → Completes (.rldLoad id {}) s fun t =>
      if s.rldsLeft j.slice = 0 then Ends s t j { code := cCapacity, detail := 0x42, result := s.rldRes j.slice [] 0 } []
      else match rldBad (s.view j.slice) j.input with
        | some (c, d) => Ends s t j { code := c, detail := d, result := s.rldRes j.slice [] (if c = cBadParam then d else 0) } []
        | none =>
          (s.rldOf j.slice (eB j.entry 0x39)).isNone = true → ∀ slot, NMap.lowFree s.eng.rlds 65536 = some slot →
            (∃ res, Ends s t j { code := cOK, outLen := (if eOutLen j.entry = 32 then (sha3_256 j.input).length else 0), result := res }
              (if eOutLen j.entry = 32 then sha3_256 j.input else [])) ∧
            NMap.find t.eng.rlds slot =
              some { slice := j.slice, id := eB j.entry 0x39, body := j.input, digest := sha3_256 j.input }) ∧
    (eB j.entry 0x38 = 1 → Completes (.rldUnload id {}) s fun t =>
      match s.rldOf j.slice (eB j.entry 0x39) with
      | none => Ends s t j { code := cBadParam, detail := 2, result := s.rldRes j.slice [] 0 } []
      | some (slot, _) => (∃ res, Ends s t j { code := cOK, result := res } []) ∧
          ∀ x, NMap.find t.eng.rlds slot = some x → x.visible = false)

/-- CURVE_LOAD and CURVE_UNLOAD. A LOAD whose worker is done holds a free slot and joins the tail of the PK FIFO, or
ends KEY_CAPACITY or CURVE_REJECTED with the first check that failed; one whose tile is done takes its slot under its
ID, or ends CURVE_REJECTED, or BAD_PARAM 3 where the ID is taken (R125, R126, Table 6.4); an UNLOAD takes the ID out
of view (R129). -/
def Clause.LoadedCurves : Prop :=
  (∀ (s : State) (id : Nat) (tile : Fin 96) (j0 j : Job) (b0 b : Bound),
    let u := s.hashFill
    let v := u.unslot j.id
    s.boundJob 0x0507 id = some (j0, b0) → eB j0.entry 0x38 = 0 → u.boundJob 0x0507 id = some (j, b) →
    let held := (u.jobs.filter fun x => x.phase != .done).filterMap Job.slot
    (j.slot = none → u.curvesLeft j.slice = 0 → Completes (.curveLoad id tile {}) s fun t =>
      Ends u t j { code := cCapacity, detail := 0x40, result := v.curveRes j.slice [] 0 0xFFFF 0xFF } []) ∧
    (∀ slot, j.slot = none → u.curvesLeft j.slice ≠ 0 →
      (List.range 1024).find? (fun i => (NMap.find u.eng.curves i).isNone && !held.contains i) = some slot →
      Completes (.curveLoad id tile {}) s fun t => match curveWorkerBad j.input with
        | some d => Ends u t j { code := cCurveRej, detail := d, result := v.curveRes j.slice [] d 0xFFFF 0xFF } []
        | none => t.job id = some
            { j with cls := .pk, phase := .staged, bnd := none, slot := some slot, joined := some u.qsc.nextJob }) ∧
    (∀ slot, j.slot = some slot → b.eng = .tile tile → u.hashLacks j b = false →
      Completes (.curveLoad id tile {}) s fun t => match curveTileBad j.input with
        | some d => Ends u t j { code := cCurveRej, detail := d, result := v.curveRes j.slice [] d 0xFFFF tile.val } []
        | none => if (u.curveOf j.slice (eB j.entry 0x39)).isSome then
            Ends u t j { code := cBadParam, detail := 3, result := v.curveRes j.slice [] 0 0xFFFF tile.val } []
          else
            NMap.find t.eng.curves slot = some (Curve.mk j.slice (eB j.entry 0x39) j.input (sha3_256 j.input) true) ∧
            ∃ res out, Ends u t j { code := cOK, outLen := out.length, result := res } out)) ∧
  (∀ (s : State) (id : Nat) (j : Job) (b : Bound), s.boundJob 0x0507 id = some (j, b) → s.sane = true →
    eB j.entry 0x38 = 1 → Completes (.curveUnload id {}) s fun t =>
      match s.curveOf j.slice (eB j.entry 0x39) with
      | none => Ends s t j { code := cBadParam, detail := 2, result := s.curveRes j.slice [] 0 0xFFFF 0xFF } []
      | some (n, _) => (∃ res, Ends s t j { code := cOK, result := res } []) ∧
          ∀ x, NMap.find t.eng.curves n = some x → x.visible = false)
/-! ### Bench mode (chapter 6) -/

/-- Warm tables, record layouts and curves come into use and go out of view. -/
def Obligations.LoadedTables : Prop :=
  Clause.WarmTableBuilt ∧ Clause.RecordLayouts ∧ Clause.LoadedCurves

/-- BENCH_ENTER, BENCH_EXIT, BENCH_DATA_ACCESS, BENCH_ABORT (R132 to R134): ENTER, in TEST or REPAIR on an OFFLINE
tile while another tile can be the anchor, wipes the tile; EXIT wipes it and ends bench mode; the data window writes
one 40-bit word and moves on, a read moves on; ABORT stops a running command with ERR 7 and leaves every word outside
its D region. Outside TEST and REPAIR ENTER is refused. -/
def Obligations.BenchMode : Prop :=
  ∀ (s : State) (n : Fin 96), s.reach (.pkt n) →
    ((s.lcsCode = 1 ∨ s.lcsCode = 5) → (s.hd (.pkt n)).st = .offline → s.otherAnchor n = true →
      Completes (.benchEnter n none) s fun t =>
        (t.tile n.val).bench = true ∧ (t.tile n.val).modulus = none ∧ (∀ a, (t.tile n.val).word a = 0) ∧
        (∀ m, m ≠ n.val → t.tile m = s.tile m) ∧ t.regs = s.regs ∧ t.jobs = s.jobs) ∧
    (s.lcsCode ≠ 1 → s.lcsCode ≠ 5 →
      Completes (.benchEnter n none) s fun t => (t.hd (.pkt n)).errCode = cForbids ∧ t.eng = s.eng) ∧
    ((s.tile n.val).bench = true →
      (Completes (.benchExit n none) s fun t =>
        (t.tile n.val).bench = false ∧ (∀ a, (t.tile n.val).word a = 0) ∧ (∀ m, m ≠ n.val → t.tile m = s.tile m) ∧
        t = { s with eng := { s.eng with tiles := t.eng.tiles } }) ∧
      ((s.tile n.val).busy = false → ∀ v : BitVec 32, Completes (.benchDataAccess n true v) s fun t =>
        (t.tile n.val).word (s.tile n.val).addr = v.toNat % 256 * 2 ^ 32 + (s.tile n.val).dataLo.toNat ∧
        (∀ a, a ≠ (s.tile n.val).addr → (t.tile n.val).word a = (s.tile n.val).word a) ∧
        (t.tile n.val).addr = ((s.tile n.val).addr + 1) % 16384 ∧
        t = { s with eng := { s.eng with tiles := t.eng.tiles } })) ∧
    (∀ v : BitVec 32, Completes (.benchDataAccess n false v) s fun t =>
      t.tile n.val = { s.tile n.val with addr := ((s.tile n.val).addr + 1) % 16384 } ∧
      t = { s with eng := { s.eng with tiles := t.eng.tiles } }) ∧
    (∀ l, (s.tile n.val).busy = true → (s.tile n.val).result = some l →
      Completes (.benchAbort n) s fun t =>
        (t.tile n.val).busy = false ∧ (t.tile n.val).done = true ∧ (t.tile n.val).err = 7 ∧
        (∀ a, a < (s.tile n.val).d ∨ (s.tile n.val).d + l.length ≤ a → (t.tile n.val).word a = (s.tile n.val).word a))

/-- The commands of Table 6.7 with their shapes and the words each gives at D from A, B, the modulus and the limb
count. -/
def benchTable (l : BitVec 8) : List ((Fin 96 → BitVec 8 → Instr) × BenchOp × (Tile → Nat → List Nat)) :=
  let L := l.toNat
  let a := fun (x : Tile) => x.num x.a L
  let b := fun (x : Tile) => x.num x.b L
  let w := 2 * ((L * L + 15) / 16)
  let ri := fun (m : Nat) => invMod m (2 ^ (40 * L) % m)
  [(.setmod, { op := 1, words := L, useD := false }, fun _ _ => []),
   (.benchMul, { op := 2, words := L, useB := true, modular := true, waves := w }, fun x m => limbs L (a x * b x * ri m % m)),
   (.benchSqr, { op := 3, words := L, modular := true, waves := w }, fun x m => limbs L (a x * a x * ri m % m)),
   (.benchAdd, { op := 4, words := L, useB := true, modular := true }, fun x m => limbs L ((a x + b x) % m)),
   (.benchSub, { op := 5, words := L, useB := true, modular := true }, fun x m => limbs L ((a x + m - b x) % m)),
   (.tomont, { op := 6, words := L, modular := true, waves := w }, fun x m => limbs L (a x * 2 ^ (40 * L) % m)),
   (.frommont, { op := 7, words := L, modular := true, waves := w }, fun x m => limbs L (a x * ri m % m)),
   (.benchInv, { op := 8, words := L, modular := true }, fun x m => limbs L (invMod m (a x))),
   (.benchCmp, { op := 9, words := L, useB := true, useD := false }, fun _ _ => []),
   (.benchCopy, { op := 0x0A, words := L }, fun x _ => x.words x.a L),
   (.benchClear, { op := 0x0B, words := L, useA := false }, fun _ _ => List.replicate L 0),
   (.nttDsa, { op := 0x10, lattice := true, words := 256, waves := 128 }, fun x _ => nttDsa (x.words x.a 256)),
   (.inttDsa, { op := 0x11, lattice := true, words := 256, waves := 160 }, fun x _ => inttDsa (x.words x.a 256)),
   (.pwmDsa, { op := 0x12, lattice := true, words := 256, useB := true, waves := 32 }, fun x _ =>
      List.zipWith (fun a b => a * b % qDsa) (x.words x.a 256) (x.words x.b 256)),
   (.nttKem, { op := 0x18, lattice := true, words := 86, waves := 112 }, fun x _ => kemPack (nttKem (kemUnpack (x.words x.a 86)))),
   (.inttKem, { op := 0x19, lattice := true, words := 86, waves := 144 }, fun x _ => kemPack (inttKem (kemUnpack (x.words x.a 86)))),
   (.basemulKem, { op := 0x1A, lattice := true, words := 86, useB := true, waves := 80 }, fun x _ =>
      kemPack (baseMulKem (kemUnpack (x.words x.a 86)) (kemUnpack (x.words x.b 86))))]

/-- SETMOD, MUL, SQR, ADD, SUB, TOMONT, FROMMONT, INV, CMP, COPY, CLEAR, NTT_DSA, INTT_DSA, PWM_DSA, NTT_KEM,
INTT_KEM, BASEMUL_KEM: a command of Table 6.7 on an idle tile in bench mode (R135, R136, Table 6.8): the lowest ERR
whose condition it meets ends it at once with the operand memory as it was; else it runs, and its words are those the
table gives. -/
def Clause.BenchCommands : Prop :=
  ∀ (s : State) (n : Fin 96) (l : BitVec 8), s.reach (.pkt n) → (s.tile n.val).bench = true → (s.tile n.val).busy = false →
    ∀ x ∈ benchTable l,
      let y : Tile := { s.tile n.val with op := x.2.1.op, l := l.toNat }
      Completes (x.1 n l) s fun t =>
        t.tile n.val = (match benchErr y x.2.1 l.toNat with
          | some e => { y with done := true, err := e, waves := 0 }
          | none =>
            let m := match y.modulus with | some (m, _) => m | none => 1
            { y with busy := true, waves := x.2.1.waves, result := some ((x.2.2 y m).map (BitVec.ofNat 40)) }) ∧
        (∀ m, m ≠ n.val → t.tile m = s.tile m) ∧ t = { s with eng := { s.eng with tiles := t.eng.tiles } }

/-- BENCH_COMMAND_DONE: a running bench command ends (R136, R138): its words stand at D and every other word of the
operand memory stays; SETMOD takes A as the modulus and CMP compares A with B, neither touching memory; a completion
detector ends it with ERR 8, a wiped tile and FAULT. -/
def Clause.BenchCommandEnds : Prop :=
  ∀ (s : State) (n : Fin 96) (x : Tile) (w : List (BitVec 40)), x = s.tile n.val → x.busy = true → x.result = some w →
    (x.op ≠ 1 → x.op ≠ 9 → ∀ e, e ≠ .detector → Completes (.benchCommandDone n e none) s fun t =>
      (∀ i (h : i < w.length), (t.tile n.val).word (x.d + i) = (w[i]).toNat) ∧
      (∀ a, a < x.d ∨ x.d + w.length ≤ a → (t.tile n.val).word a = x.word a) ∧
      (t.tile n.val).busy = false ∧ (t.tile n.val).done = true ∧ (t.tile n.val).err = 0 ∧
      t = { s with eng := { s.eng with tiles := t.eng.tiles } }) ∧
    (x.op = 1 → Completes (.benchCommandDone n .ok none) s fun t =>
      t.tile n.val = { x with busy := false, done := true, err := 0, result := none, modulus := some (x.num x.a x.l, x.l) }) ∧
    (x.op = 9 → Completes (.benchCommandDone n .ok none) s fun t =>
      t.tile n.val = { x with
        busy := false, done := true, err := 0, result := none
        cmp := if x.num x.a x.l = x.num x.b x.l then 0 else if x.num x.b x.l < x.num x.a x.l then 1 else 2 }) ∧
    (Completes (.benchCommandDone n .detector none) s fun t =>
      (t.tile n.val).err = 8 ∧ (∀ a, (t.tile n.val).word a = 0) ∧ (t.hd (.pkt n)).st = .fault ∧ (t.hd (.pkt n)).fclass = 2)

/-- A bench command computes what its table row says or ends with the lowest ERR it meets. -/
def Obligations.BenchCommands : Prop :=
  Clause.BenchCommands ∧ Clause.BenchCommandEnds

/-- The integer at D after ADD, SUB or MUL has run to its end is the table's, modulo 2^(40 L) (R106, R135): the limbs
are stored least significant first and read back as they were. -/
def Obligations.BenchResultReadsBack : Prop :=
  ∀ (s : State) (n : Fin 96) (l : BitVec 8) (m k : Nat) (x : Tile),
    s.reach (.pkt n) → x = s.tile n.val → x.bench = true → x.busy = false → x.modulus = some (m, k) →
    let L := l.toNat
    ∀ row ∈ [(Instr.benchMul n l, 2, x.num x.a L * x.num x.b L * invMod m (2 ^ (40 * L) % m) % m, mulWaves l),
             (.benchAdd n l, 4, (x.num x.a L + x.num x.b L) % m, 0), (.benchSub n l, 5, (x.num x.a L + m - x.num x.b L) % m, 0)],
      benchErr { x with op := row.2.1, l := L } { op := row.2.1, words := L, useB := true, modular := true, waves := row.2.2.2 } L
        = none →
      ∃ u t, exec row.1 s = .next u ∧ exec (.benchCommandDone n .ok none) u = .next t ∧
        (t.tile n.val).num x.d L = row.2.2.1 % 2 ^ (40 * L)

/-! ### The symmetric service and tellers (chapter 8) -/

/-- The symmetric commands with their opcodes and what their lanes compute. -/
def symTable : List ((Nat → RunEnd → Instr) × Nat × (SymPar → SymIn → SymOut)) :=
  [(.aeadSeal, 0x0301, sealRun), (.aeadOpen, 0x0302, openRun), (.cipher, 0x0303, cipherRun), (.hash, 0x0401, hashRun),
   (.macGen, 0x0402, macGenRun), (.macCheck, 0x0403, macCheckRun)]

/-- AEAD_SEAL, AEAD_OPEN, CIPHER, HASH, MAC_GEN, MAC_CHECK: a bound symmetric job whose lanes ran to their end with no
mask reseed left to ask for (R177, R179, R181): sealing, a cipher, a hash or a MAC writes what its lanes computed and
ends OK; a failed unwrap ends AUTH_FAIL detail 2, a MAC that does not match VERIFY_FAIL, with no output at all; an
opening whose tag matches writes its plaintext and ends OK; one whose tag fails ends AUTH_FAIL, with detail 2 and no
output where it verifies first, with detail 1 and its plaintext released where it streams. -/
def Clause.SymmetricJobs : Prop :=
  ∀ (s : State) (id : Nat) (j : Job) (b : Bound),
    let p := symPar j.entry
    let i := s.symIn j b
    let u := s.waitOver id
    let ends := fun (t : State) (c d released : Nat) (out : Bytes) =>
      Ends u t j { code := c, detail := d, outLen := out.length, result := symResult j i released 0 } out
    p.abandon = false →
    (s.boundJob 0x0401 id = some (j, b) → Completes (.hash id {}) s fun t => ends t cOK 0 0 (hashRun p i).out) ∧
    (s.boundJob 0x0301 id = some (j, b) → masksLeft 0x0301 j b = 0 →
      Completes (.aeadSeal id {}) s fun t => ends t cOK 0 0 (sealRun p i).out) ∧
    (s.boundJob 0x0303 id = some (j, b) → masksLeft 0x0303 j b = 0 →
      Completes (.cipher id {}) s fun t =>
        if (cipherRun p i).bad = false then ends t cOK 0 0 (cipherRun p i).out else ends t cAuthFail 2 0 []) ∧
    (s.boundJob 0x0402 id = some (j, b) → masksLeft 0x0402 j b = 0 →
      Completes (.macGen id {}) s fun t => ends t cOK 0 0 (macGenRun p i).out) ∧
    (s.boundJob 0x0403 id = some (j, b) → masksLeft 0x0403 j b = 0 →
      Completes (.macCheck id {}) s fun t =>
        if (macCheckRun p i).bad = false then ends t cOK 0 0 [] else ends t cVerifyFail 0x40 0 []) ∧
    (s.boundJob 0x0302 id = some (j, b) → masksLeft 0x0302 j b = 0 →
      Completes (.aeadOpen id {}) s fun t =>
        let o := openRun p i
        if o.bad = false then ends t cOK 0 o.out.length o.out
        else if p.vfirst = true then ends t cAuthFail 2 0 []
        else p.scrub = false → ends t cAuthFail 1 o.out.length o.out)

/-- The same commands where a mask reseed is left to ask for (R182, R197 to R199): one that waits for a pool word holds
the job, which keeps what was served, ahead of every RNG_READ; one that is refused ends the job with what refuses it;
once all are served the job ends as its lanes' result says. A segment that abandons its stream ends OK with no output
(R175). -/
def Clause.MaskReseeds : Prop :=
  ∀ x ∈ symTable, ∀ (s s1 : State) (id k : Nat) (j : Job) (b : Bound), s.boundJob x.2.1 id = some (j, b) →
    let p := symPar j.entry
    let i := s.symIn j b
    let n := masksLeft x.2.1 j b
    (s.moreMasks {} n b.masks = (s1, .wait, k) → Completes (x.1 id {}) s fun t =>
      t.job id = some { j with bnd := some { b with masks := k } } ∧ t.rng.waiters.contains id = true ∧
      t.slices = s1.slices ∧ t.ks = s1.ks ∧ t.out = s1.out) ∧
    (∀ c d, s.moreMasks {} n b.masks = (s1, .refused c d, k) → Completes (x.1 id {}) s fun t =>
      ∃ e out, Ends s1 t j e out ∧ e.code = c ∧ e.detail = d) ∧
    (∀ y, s.moreMasks {} n b.masks = (s1, .got y, k) → (p.abandon = true ∨ (x.2.2 p i).bad = false) →
      let out := if p.abandon then [] else (x.2.2 p i).out
      Completes (x.1 id {}) s fun t =>
        Ends (s1.waitOver id) t j
          { code := cOK, outLen := out.length, result := symResult j i (if x.2.1 = 0x0302 then out.length else 0) 0 } out)

/-- SCRUB (R177): a streaming opening that fails with SCRUB zeroes what it had released: the plaintext is written,
then as many zero octets over it, before OUT_LEN 0 and RESULT with both counts. -/
def Clause.ScrubZeroesReleased : Prop :=
  ∀ (s : State) (id : Nat) (j : Job) (b : Bound), s.boundJob 0x0302 id = some (j, b) → j.remote = none →
    masksLeft 0x0302 j b = 0 →
    let p := symPar j.entry
    let i := s.symIn j b
    let o := openRun p i
    p.abandon = false → p.vfirst = false → p.scrub = true → o.bad = true →
    o.out ≠ [] →
    Completes (.aeadOpen id {}) s fun t =>
      ∃ rest, t.out = s.out ++ [.write j.pasid (eOutAddr j.entry) o.out, .write j.pasid (eOutAddr j.entry) (zeros o.out.length),
        .write j.pasid ((j.addr + 0x2C) % 2 ^ 64) (toLE 4 0),
        .write j.pasid ((j.addr + 0x70) % 2 ^ 64) (Bytes.fit (symResult j i o.out.length o.out.length) 16)] ++ rest

/-- KDF: a bound job whose lanes ran ends OK with the key it derived at the place its handle names (R163); RESULT
names the handle. One that runs here for a cluster's head ends with its record gone: the key goes to the head (R303). -/
def Clause.KeyDerivation : Prop :=
  ∀ (s : State) (id : Nat) (j : Job) (b : Bound), s.boundJob 0x0404 id = some (j, b) →
    (∀ rv n, j.remote = none → b.resv = some rv → newKeyOf (s.jobView j) j.entry = some n →
      let h := mkHandle rv.slice rv.index (NMap.getD s.vault.gens rv.slice 1)
      let mat := kdfRun (kdfPar j.entry) (match b.keyA with | some k => k.material | none => []) j.input
      Completes (.kdf id {}) s fun t =>
        Ends s t j { code := cOK, result := kdfResult j h b.tallyLeft } [] ∧
        ∃ k, t.keyIn h = some k ∧ k.handle = h ∧ k.material = mat ∧ k.live = true) ∧
    (j.remote.isSome = true → Completes (.kdf id {}) s fun t =>
      Ends s t j { code := cOK, result := kdfResult j 0 b.tallyLeft } [])

/-- A symmetric job ends with its output, or with nothing released that a failure forbids. -/
def Obligations.SymmetricJobs : Prop :=
  Clause.SymmetricJobs ∧ Clause.MaskReseeds ∧ Clause.ScrubZeroesReleased ∧ Clause.KeyDerivation

/-- TL_GO (R186, R188, R189, R228): an operation that the checks refuse is DONE at once with their code; one that
passes and finds its pair free, with no teller waiting before it and no ceiling to wait for, is BUSY bound to that
pair, its handles passing; else it is BUSY and waits. A dead page, a page BUSY, or TELLERS not accepted refuses GO in
PG_ERR. -/
def Clause.TellerGo : Prop :=
  ∀ (s : State) (sl : Fin 4096) (k : Fin 2) (pair : Fin 64) (m : MemOutcome) (e : EngineEnd), s.reach (.tel sl k) →
    s.sane = true →
    (s.tellerLive sl.val k.val = false → Completes (.tlGo sl k pair m e) s fun t =>
      (t.hd (.tel sl k)).errCode = cForbids ∧ t.slices = s.slices) ∧
    (s.tellerLive sl.val k.val = true → (s.slice sl.val).feat 9 = true → (s.teller sl.val k.val).st ≠ 1 →
      (s.slice sl.val).st ≠ .held → s.pwr.deep = none →
      let v := s.passEnds
      let en := v.tellerEntry sl k
      let input := v.rgBytes (.tel sl k) 0x100 64
      let free := v.pairFree pair && v.nextTeller.isNone && !v.ceilingWait (tellerJob sl.val en input none)
      (∀ c d, v.tellerBad sl.val en = some (c, d) → Completes (.tlGo sl k pair m e) s fun t =>
        (t.teller sl.val k.val).st = 2 ∧ (t.teller sl.val k.val).code = c ∧ (t.teller sl.val k.val).detail = d ∧
        (t.teller sl.val k.val).dout = [] ∧ (t.teller sl.val k.val).count = (v.teller sl.val k.val).count + 1) ∧
      (v.tellerBad sl.val en = none → free = false → Completes (.tlGo sl k pair m e) s fun t =>
        (t.teller sl.val k.val).st = 1 ∧ (t.teller sl.val k.val).waiting = true ∧
        (t.teller sl.val k.val).entry = en ∧ t.jobs = v.jobs ∧ t.hdr = v.hdr) ∧
      (v.tellerBad sl.val en = none → free = true → Completes (.tlGo sl k pair m e) s fun t =>
        let u := t.teller sl.val k.val
        (u.st = 1 ∧ ((∃ b, u.bnd = some b ∧ b.eng = .pairs [pair]) ∨ u.waiting = true)) ∨
          (u.st = 2 ∧ u.dout = [] ∧ u.count = (v.teller sl.val k.val).count + 1)) ∧
      (v.tellerBad sl.val en = none → free = true → opSecret (eOp en) = false → eKeyA en = 0 → eKeyB en = 0 →
        v.limitBad (tellerJob sl.val en (input.take (eInLen en)) none) = false →
        Completes (.tlGo sl k pair m e) s fun t =>
          (t.teller sl.val k.val).st = 1 ∧ (t.teller sl.val k.val).waiting = false ∧ (t.teller sl.val k.val).pair = pair.val ∧
          ∃ b, (t.teller sl.val k.val).bnd = some b ∧ b.eng = .pairs [pair]))

/-- TL_ABORT, TELLER_DONE, TL_CLEAR (R189, Tables 8.15 and 8.16): ABORT ends it ABORTED detail 3 with no output; its
pair's end gives its output, an AEAD_OPEN that fails giving none; both count and free the pair. CLEAR of a page that
is not BUSY zeroes its data, parameters, results and status. -/
def Clause.TellerEnds : Prop :=
  ∀ (s : State) (sl : Fin 4096) (k : Fin 2) (u : Teller), u = s.teller sl.val k.val →
    (s.reach (.tel sl k) → s.tellerLive sl.val k.val = true → u.st = 1 → Completes (.tlAbort sl k) s fun t =>
      (t.teller sl.val k.val).st = 2 ∧ (t.teller sl.val k.val).code = cAborted ∧ (t.teller sl.val k.val).detail = 3 ∧
      (t.teller sl.val k.val).dout = [] ∧ (t.teller sl.val k.val).count = u.count + 1 ∧ (t.teller sl.val k.val).bnd = none) ∧
    (∀ b, s.mute = false → u.st = 1 → u.bnd = some b →
      let j := tellerJob sl.val u.entry u.input (some b)
      let i := s.symIn j b
      let o := symRun (symPar u.entry) i
      Completes (.tellerDone sl k {}) s fun t =>
        (t.teller sl.val k.val).st = 2 ∧ (t.teller sl.val k.val).bnd = none ∧ (t.teller sl.val k.val).count = u.count + 1 ∧
        (o.bad = false → (t.teller sl.val k.val).code = cOK ∧ (t.teller sl.val k.val).dout = o.out) ∧
        (o.bad = true → (t.teller sl.val k.val).dout = [] ∧
          (t.teller sl.val k.val).code = if eOp u.entry = 0x0403 then cVerifyFail else cAuthFail) ∧
        t.out.filter Out.isWrite = s.out.filter Out.isWrite ∧ EndFrame s t) ∧
    (s.reach (.tel sl k) → s.tellerLive sl.val k.val = true → u.st = 2 → Completes (.tlClear sl k) s fun t =>
      t.teller sl.val k.val = { u with st := 0, code := 0, detail := 0, outLen := 0, result := [], dout := [] } ∧
      (∀ n < 64, t.rg (.tel sl k) (0x100 + 4 * n) = 0) ∧ (∀ n < 14, t.rg (.tel sl k) (0x080 + 4 * n) = 0) ∧
      t.jobs = s.jobs ∧ t.out = s.out)

/-- A teller operation starts, waits, ends, is aborted and is cleared as its page shows. -/
def Obligations.Tellers : Prop :=
  Clause.TellerGo ∧ Clause.TellerEnds

/-! ### Random numbers (chapter 9) -/

/-- What follows an event of the random service: the state it makes, and, where work of the unit's own waits for a pool
word, that work as far as it is served now (R195, R198). -/
def Served (t : State) (P : State → Prop) : Prop := ∃ u : State, P u ∧ t = u.serveDraws ∧ (u.ownWaits = false → t = u)

/-- SOSC_MEASURE: a measurement in range is kept and clears the error; one out of range sets it, benches every source
that runs, and takes a HEALTHY entropy source to FAILED with its pool emptied (R191, R205, R206). -/
def Clause.OscillatorMeasure : Prop :=
  ∀ (s : State) (khz : BitVec 16), s.rngOn = true →
    (12000 ≤ khz.toNat → khz.toNat ≤ 20000 →
      Completes (.soscMeasure khz) s fun t => Served t fun u =>
        u = { s with rng := { s.rng with soscKhz := khz.toNat, soscErr := false } }) ∧
    ((khz.toNat < 12000 ∨ 20000 < khz.toNat) →
      Completes (.soscMeasure khz) s fun t => Served t fun u =>
        u.rng.soscKhz = khz.toNat ∧ u.rng.soscErr = true ∧
        (∀ n < 8, (s.src n).st ≠ .retired → (s.src n).st ≠ .off → (u.src n).st = .benched) ∧
        (s.rng.es = .healthy → u.rng.es = .failed ∧ u.rng.pool = []))

/-- RAW_BLOCK (R193 to R195): one that passes from an ACTIVE source feeds the pool its SHA3-256, up to 64 words, and
is discarded and counted while the pool is full; a failure takes an ACTIVE source to RETRY, a pass there takes it
back; the third failure benches it for 64 ticks, and the fifth benched source takes the entropy source to FAILED. -/
def Clause.RawBlocks : Prop :=
  ∀ (s : State) (n : Fin 8) (bits : Bytes) (f : Nat) (v : Source), s.rngOn = true → s.rng.soscErr = false →
    healthTest (s.src n.val) bits = (f, v) →
    ((s.src n.val).st = .active → f = 0 → Completes (.rawBlock n bits) s fun t => Served t fun u =>
      u.rng.pool = (if 64 ≤ s.rng.pool.length then s.rng.pool else s.rng.pool ++ [sha3_256 bits]) ∧
      u.src n.val = (if 64 ≤ s.rng.pool.length then { v with discard := satAdd 32 v.discard 1 } else v) ∧
      u = { s with rng := { s.rng with pool := u.rng.pool, src := u.rng.src } }) ∧
    ((s.src n.val).st = .retry → f = 0 → Completes (.rawBlock n bits) s fun t => Served t fun u =>
      u.src n.val = { v with st := .active, retries := 0 } ∧ u = { s with rng := { s.rng with src := u.rng.src } }) ∧
    ((s.src n.val).st = .active → f ≠ 0 → Completes (.rawBlock n bits) s fun t => Served t fun u =>
      u.src n.val = { v with st := .retry, retries := 0, discard := satAdd 32 v.discard 1 } ∧
      u = { s with rng := { s.rng with src := u.rng.src } }) ∧
    ((s.src n.val).st = .retry → f ≠ 0 → (s.src n.val).retries = 2 → Completes (.rawBlock n bits) s fun t => Served t fun u =>
      (u.src n.val).st = .benched ∧ (u.src n.val).benchEnd = s.tick + 64 ∧ (u.src n.val).failtest = f ∧
      (s.benched = 4 → s.rng.es = .healthy → u.rng.es = .failed ∧ u.rng.pool = [] ∧
        ∀ i ∈ [4, 5, 6, 7], (u.inst i).st = .uninst))

/-- Raw blocks feed the pool or fail their source; an oscillator out of range fails the entropy source. -/
def Obligations.NoiseSources : Prop :=
  Clause.OscillatorMeasure ∧ Clause.RawBlocks

/-- SOURCE_BENCH_END, RECAL_COMPLETE, STARTUP_TEST_DONE, RECAL: a benched source's way back (R193, R194, R209): the
bench ends after 64 ticks in RECAL, recalibration ends in STARTUP with the TRIM of the lowest max(|bias|, |lag-1
correlation|), the start-up test ends in ACTIVE, or after the eighth failed attempt in RETIRED; RECAL sends an ACTIVE, RETRY or RETIRED source to recalibration while at
most two sources are benched. -/
def Clause.SourceRecovery : Prop :=
  ∀ (s : State) (n : Fin 8) (v : Source), v = s.src n.val →
    (s.rngOn = true → v.st = .benched → v.benchEnd ≤ s.tick →
      Completes (.sourceBenchEnd n) s fun t => t.src n.val = { v with st := .recal } ∧ t = { s with rng := { s.rng with src := t.rng.src } }) ∧
    (s.rngOn = true → s.rng.soscErr = false → v.st = .recal → ∀ scan : RecalScan, Completes (.recalComplete n scan) s fun t =>
      let worst := fun (i : Nat) => Nat.max (scan.found.getD i (0, 0)).1 (scan.found.getD i (0, 0)).2
      let best := (t.src n.val).trim
      t.src n.val = { v with st := .startup, trim := best, repRun := 0 } ∧ best < 16 ∧ (∀ i < 16, worst best ≤ worst i) ∧
      t = { s with rng := { s.rng with src := t.rng.src } }) ∧
    (s.rngOn = true → s.rng.soscErr = false → v.st = .startup → ∀ bits : Bytes, Completes (.startupTestDone n bits) s fun t => Served t fun u =>
      ((healthTest { v with repRun := 0 } bits).1 = 0 →
        (u.src n.val).st = .active ∧ (u.src n.val).consec = 0 ∧ u = { s with rng := { s.rng with src := u.rng.src } }) ∧
      ((healthTest { v with repRun := 0 } bits).1 ≠ 0 → 7 ≤ v.consec → (u.src n.val).st = .retired) ∧
      ((healthTest { v with repRun := 0 } bits).1 ≠ 0 → v.consec < 7 →
        (u.src n.val).st = .benched ∧ (u.src n.val).consec = v.consec + 1)) ∧
    (s.reach .rng → n.val = fld (s.rg .rng 0x044) 0 3 → (v.st = .active ∨ v.st = .retry ∨ v.st = .retired) → s.benched ≤ 2 →
      Completes .recal s fun t => t.src n.val = { v with st := .recal, consec := 0, retries := 0 } ∧ t.jobs = s.jobs) ∧
    (s.reach .rng → n.val = fld (s.rg .rng 0x044) 0 3 → v.st ≠ .active → v.st ≠ .retry → v.st ≠ .retired →
      Completes .recal s fun t => (t.hd .rng).errCode = cForbids ∧ t.rng = s.rng)

/-- KAT, KAT_CYCLE, CONDITIONER_RETEST, ES_RECOVERY (R207, R208): a cycle with a conditioner that passes leaves every
instance RUNNING or in FAULT by its own result, and keeps the cycle's result and time; a conditioner that fails takes
a HEALTHY source to FAILED; recovery makes the source HEALTHY and every host instance RUNNING where its test passes. -/
def Clause.KnownAnswerTests : Prop :=
  ∀ (s : State) (kat : KatRun), s.sane = true →
    let good := kat.conditioner && (List.range 8).all fun n => kat.inst.getD n true
    let after := fun (t : State) => Served t fun u =>
      u.rng.katTick = s.tick ∧ u.rng.nextCycle = s.tick + 5529600 ∧ u.rng.katRes = (if good then 1 else 2) ∧
      (kat.conditioner = true → ∀ n < 8, (u.inst n).st = if kat.inst.getD n true then .running else .fault) ∧
      (kat.conditioner = false → u.rng.es = .failed ∧ u.rng.katPart = 8 ∧ u.rng.condFailed = true)
    (s.reach .rng → s.rng.katRes ≠ 3 → s.rng.es = .healthy → Completes (.kat kat) s after) ∧
    (s.rngOn = true → s.rng.es = .healthy → s.rng.nextCycle ≤ s.tick → Completes (.katCycle kat) s after) ∧
    (s.rngOn = true → s.rng.condFailed = true → s.rng.condRetest ≤ s.tick →
      (Completes (.conditionerRetest true) s fun t => Served t fun u =>
        u = { s with rng := { s.rng with condFailed := false, condRetest := s.tick + 64 } }) ∧
      Completes (.conditionerRetest false) s fun t => Served t fun u => u.rng.condFailed = true ∧ u.rng.condRetest = s.tick + 64) ∧
    (s.canRecover = true → Completes (.esRecovery kat) s fun t => Served t fun u =>
      u.rng.es = .healthy ∧ (∀ n ∈ [4, 5, 6, 7], (u.inst n).st = if kat.inst.getD n true then .running else .fault))

/-- A benched source comes back or retires; known-answer tests decide instances and the entropy source. -/
def Obligations.SourcesRecover : Prop :=
  Clause.SourceRecovery ∧ Clause.KnownAnswerTests

/-- RNG_READ and RNG_PR_TIMEOUT: a bound RNG_READ whose instance runs, with a pool word that no internal request is
due where it must reseed, ends OK with the generated octets and counts one request and its octets; with PR set and no
word in time it ends RNG_NOT_READY; where its instance failed it ends ENGINE_MISMATCH (R195, R199 to R202). -/
def Clause.RandomReads : Prop :=
  ∀ (s : State) (id n : Nat) (j : Job) (b : Bound), s.boundRead id = some (j, b, n) →
    (let re := bit (eB j.entry 0x38) 0 || decide (s.rng.limit ≤ (s.inst n).count)
     (s.inst n).st = .running → (re = true → s.rng.pool ≠ [] ∧ s.intWaits = false) →
      let u := if re then s.reseed n else s
      let g := drbgGen (u.inst n).key (u.inst n).v (eOutLen j.entry) j.input
      Completes (.rngRead id {}) s fun t =>
        (∃ res, Ends s t j { code := cOK, outLen := eOutLen j.entry, result := res } g.1) ∧
        t.rng.hostOct = (s.rng.hostOct + eOutLen j.entry) % 2 ^ 64 ∧
        t.inst n = { u.inst n with count := (u.inst n).count + 1, key := g.2.1, v := g.2.2 }) ∧
    (∀ (r : RunEnd) (d : Nat), endDetail false r.eng = some d → Completes (.rngRead id r) s fun t =>
      Ends (s.instFault n d) t j { code := cMismatch, detail := d, result := toLE 1 n ++ zeros 15 } []) ∧
    (bit (eB j.entry 0x38) 0 = true → (s.rng.pool = [] ∨ s.intWaits = true) → Completes (.rngPrTimeout id) s fun t =>
      Ends s t j { code := cRngNotReady, detail := 1, result := s.readRes n false } [])

/-- RNG_RESEED_WRITE takes a limit from 256 up to the one in force, and refuses any other with BAD_PARAM (R198). -/
def Clause.ReseedLimit : Prop :=
  ∀ (s : State) (x : BitVec 32), s.reach .rng →
    (256 ≤ fld x 0 17 → fld x 0 17 ≤ s.rng.limit →
      Completes (.rngReseedWrite x) s fun t => t.rng.limit = fld x 0 17 ∧ t.jobs = s.jobs ∧ t.regs = s.regs ∧ t.glb = s.glb) ∧
    ((fld x 0 17 < 256 ∨ s.rng.limit < fld x 0 17) →
      Completes (.rngReseedWrite x) s fun t => (t.hd .rng).errCode = cBadParam ∧ t.rng = s.rng)

/-- RNG_READ returns the generated octets and is counted; the reseed limit only falls. -/
def Obligations.RandomReads : Prop :=
  Clause.RandomReads ∧ Clause.ReseedLimit

/-! ### Keys (chapter 10) -/

/-- A created key's handle carries its slice, INDEX and GEN with a check byte, and resolves to the key with the
material it was made from; the slice's GEN moves on (R214, R215). -/
def Obligations.CreatedKeyResolves : Prop :=
  ∀ (s : State) (rv : Reservation) (n : NewKey) (material pub dig : Bytes),
    rv.slice < 4096 → rv.index < 2 ^ 24 → NMap.getD s.vault.gens rv.slice 1 < 2 ^ 20 →
    let r := s.createKey rv n material pub dig id
    hSlice r.2 = rv.slice ∧ hIndex r.2 = rv.index ∧ hGen r.2 = NMap.getD s.vault.gens rv.slice 1 ∧
    (∃ k, r.1.resolve rv.slice r.2 = some k ∧ k.material = material ∧ k.pub = pub ∧ k.alg = n.alg ∧ k.usage = n.usage ∧
      k.handle = r.2) ∧
    NMap.getD r.1.vault.gens rv.slice 1 ≠ NMap.getD s.vault.gens rv.slice 1

/-- KEY_IMPORT and PUBKEY_LOAD (R230 to R232): material that does not unwrap ends AUTH_FAIL 2, a pair or public key
that Table 10.11 or 5.16 rejects ends POINT_INVALID, and otherwise the key stands at the place its handle names. -/
def Clause.KeysComeIn : Prop :=
  ∀ (s : State) (id : Nat) (aux : List Engine) (j : Job) (b : Bound) (rv : Reservation) (n : NewKey),
    newKeyOf (s.jobView j) j.entry = some n → b.resv = some rv →
    let h := mkHandle rv.slice rv.index (NMap.getD s.vault.gens rv.slice 1)
    (s.boundJob 0x0501 id = some (j, b) →
      s.auxFits ((if eB j.entry 0x38 = 2 then [Aux.pair] else []) ++ if eB j.entry 0x39 = 1 then [Aux.tile] else []) aux = true →
      Completes (.keyImport id aux {}) s fun t =>
        match importMaterial j.entry j.input b.keyB (materialLen (s.jobView j) n.ktype n.alg n.pset n.klen) with
        | none => Ends s t j { code := cAuthFail, detail := 2, result := s.stopRes j j.left } []
        | some m =>
          match if n.ktype = 1 then materialBad (s.wcurve j n.pset) n.alg n.pset m else none with
          | some d => Ends s t j { code := cPoint, detail := d, result := s.stopRes j j.left } []
          | none => (∃ res, Ends s t j { code := cOK, result := res } []) ∧
              ∃ k, t.keyIn h = some k ∧ k.handle = h ∧ k.material = m ∧ k.imported = true ∧ k.live = true) ∧
    (s.boundJob 0x0506 id = some (j, b) → s.auxFits [Aux.tile] aux = true →
      Completes (.pubkeyLoad id aux {}) s fun t =>
        match pubBad (s.wcurve j n.pset) n.alg n.pset j.input with
        | some d => Ends s t j { code := cPoint, detail := d, result := s.stopRes j j.left } []
        | none => (∃ res, Ends s t j { code := cOK, result := res } []) ∧
            ∃ k, t.keyIn h = some k ∧ k.handle = h ∧ k.pub = j.input ∧ k.live = true)

/-- KEY_EXPORT and KEY_ATTR_GET (R217, R233, R234, R236): the wrapped material, the sealed blob or the public key
leaves as output, a blob taking the next serial of the Vault; the attribute record of the key leaves as output and
nothing of it changes. -/
def Obligations.KeysGoOut : Prop :=
  ∀ (s : State) (id : Nat) (aux : List Engine) (j : Job) (b : Bound) (k : KeyRec), b.keyA = some k →
    (s.boundJob 0x0502 id = some (j, b) → s.auxFits (if eB j.entry 0x38 = 3 then [] else [Aux.pair]) aux = true →
      let out := match eB j.entry 0x38 with
        | 1 => kwpWrap (matOf b.keyB) k.material
        | 2 => s.blobOf j.slice k
        | _ => k.pub
      Completes (.keyExport id aux {}) s fun t =>
        Ends s t j { code := cOK, outLen := out.length, result := keyRes 0 k j.left } out ∧
        t.vault = (if eB j.entry 0x38 = 2 then { s.vault with blobSerial := s.vault.blobSerial + 1 } else s.vault)) ∧
    (s.boundJob 0x0504 id = some (j, b) → Completes (.keyAttrGet id {}) s fun t =>
      Ends s t j { code := cOK, outLen := (attrRecord k).length, result := zeros 16 } (attrRecord k) ∧ t.vault = s.vault)

/-- BLOB_LOAD (R235, Table 10.13): a blob that a row refuses ends with that row's code, one whose tag fails ends
KEY_FOREIGN 2, attributes that R221 forbids end KEY_USAGE; else the key it seals stands at the place reserved for it. -/
def Clause.BlobLoads : Prop :=
  ∀ (s : State) (id : Nat) (aux : List Engine) (j : Job) (b : Bound), s.boundJob 0x0509 id = some (j, b) →
    s.auxFits [Aux.pair] aux = true →
    let bl := j.input
    let o := gcm true (s.blobKeyOf j.slice) (blobNonce (Bytes.le bl 0x18 8)) (bl.take 64) (Bytes.sub bl 64 (bl.length - 80))
    let part := fun (n : Nat) => octets (Config.blobOpenLen o.1 n) (Config.blobOpen o.1 n)
    let n := blobNewKey j.entry bl (Bytes.le (part 1) 33 2)
    Completes (.blobLoad id aux {}) s fun t =>
      match s.blobBad j with
      | some (c, d) => Ends s t j { code := c, detail := d, result := s.stopRes j j.left } []
      | none =>
        if o.2 ≠ bl.drop (bl.length - 16) then Ends s t j { code := cForeign, detail := 2, result := s.stopRes j j.left } []
        else match s.newKeyBad j.slice n with
          | some d => Ends s t j { code := cUsage, detail := d, result := s.stopRes j j.left } []
          | none => ∀ rv, s.reserve j.slice n (Bytes.le bl 0x28 2) = (s, .inr rv) →
              (∃ res, Ends s t j { code := cOK, result := res } []) ∧
              ∃ k, t.keyIn (mkHandle rv.slice rv.index (NMap.getD s.vault.gens rv.slice 1)) = some k ∧
                k.material = part 0 ∧ k.fromBlob = true ∧ k.live = true

/-- Imported material, public keys and blobs are checked and stand at the place their handle names. -/
def Obligations.KeysComeIn : Prop :=
  Clause.KeysComeIn ∧ Clause.BlobLoads

/-- KEY_DELETE (R238, R239): the handle resolves to nothing afterwards, and a DEEP key leaves a deletion-filter entry
above every revision; with no entry free the job ends DELETE_FILTER_FULL and the key stays. KEY_ATTR_RESTRICT narrows
the key's attributes as asked and steps its revision, or changes nothing (R237). A key that another deletion took
meanwhile ends either job OK (R20). -/
def Obligations.DeleteAndRestrict : Prop :=
  (∀ (s : State) (id : Nat) (j : Job) (b : Bound), s.resolve j.slice (eKeyA j.entry) = none →
    (s.boundJob 0x0503 id = some (j, b) → Completes (.keyDelete id {}) s fun t => Ends s t j { code := cOK, result := zeros 16 } []) ∧
    (∀ k, s.boundJob 0x0505 id = some (j, b) → b.keyA = some k → Completes (.keyAttrRestrict id {}) s fun t =>
      ∃ res, Ends s t j { code := cOK, result := res } [])) ∧
  ∀ (s : State) (id : Nat) (j : Job) (b : Bound) (k : KeyRec), s.sane = true →
    s.resolve j.slice (eKeyA j.entry) = some k → (∀ x ∈ s.clu.replicas, x.1 ≠ k.place) →
    (s.boundJob 0x0503 id = some (j, b) → k.deep = false → Completes (.keyDelete id {}) s fun t =>
      t.resolve j.slice (eKeyA j.entry) = none ∧ Ends s t j { code := cOK, result := zeros 16 } []) ∧
    (s.boundJob 0x0503 id = some (j, b) → k.deep = true → ∀ u, s.filterTake k 256 = some u → Completes (.keyDelete id {}) s fun t =>
      t.resolve j.slice (eKeyA j.entry) = none ∧
      ∃ f ∈ t.ks.filter, f.slice = k.slice ∧ f.index = hIndex k.handle ∧ f.gen = hGen k.handle ∧ f.minRev = 256) ∧
    (s.boundJob 0x0503 id = some (j, b) → k.deep = true → s.filterTake k 256 = none → Completes (.keyDelete id {}) s fun t =>
      (∃ k', t.resolve j.slice (eKeyA j.entry) = some k') ∧
      Ends s t j { code := cFilterFull, detail := 1, result := s.stopRes j j.left } []) ∧
    (∀ rv, let q := restrictOf j.entry
     s.boundJob 0x0505 id = some (j, b) →
      (s.putJob { j with bnd := some { b with resv := none } }).restrictTake j.slice q k = .inr rv →
      (k.deep = false ∨ q.warmOnly = true) →
      Completes (.keyAttrRestrict id {}) s fun t =>
        Ends s t j { code := cOK, result := keyRes 0 (q.made k rv) (tallyLeft (q.made k rv)) } [] ∧
        ∃ k', NMap.find t.ks.keys k.place = some k' ∧ k'.handle = k.handle ∧ k'.material = k.material ∧
          k'.usage = k.usage &&& (0xFFFFFFFF - q.clear) ∧ k'.export_ = (if q.exp = 0xFF then k.export_ else q.exp) ∧
          k'.tallyMax = (if q.tallyMax = 0 then k.tallyMax else q.tallyMax) ∧
          k'.rev = (if q.warmOnly then k.rev else k.rev + 1)) ∧
    (let q := restrictOf j.entry
     s.boundJob 0x0505 id = some (j, b) →
      ∀ c d, (s.putJob { j with bnd := some { b with resv := none } }).restrictTake j.slice q k = .inl (c, d) →
      Completes (.keyAttrRestrict id {}) s fun t =>
        Ends s t j { code := c, detail := d, result := keyRes 0 k j.left } [] ∧
        ∃ k', NMap.find t.ks.keys k.place = some k' ∧ k'.usage = k.usage ∧ k'.rev = k.rev)

/-- KST_COMPACT_GO, COMPACTION_DONE, KST_RES_PURGE_GO, ARCHIVE_WRITE_COMPLETE (R228, R241 to R246): GO starts on the
selected segment with the spare KeyID keyed; the end retires the old KeyID, which becomes the spare, and frees the
filter entries of earlier rounds; a purge drops a FREE slice's archive records from both copies; an archive write lets
the raised ceilings hold, once the anchor pair that wraps it does not read SERVICING (R409). Automatic compaction is off
here. -/
def Obligations.CompactionAndArchive : Prop :=
  (∀ (s : State), s.reach .kst → s.mem.keyIdMode = true → s.ks.compBusy = false → s.spareWaits = false →
    Completes .kstCompactGo s fun t =>
      t.ks.compBusy = true ∧ t.ks.compSeg = fld (s.rg .kst 0x060) 0 4 ∧ t.ks.compFreedOld = (s.seg t.ks.compSeg).keyId ∧
      t.mem.act.contains s.ks.spareKeyId = true ∧ t.ks.keys = s.ks.keys ∧ t.jobs = s.jobs ∧ t.glb = s.glb) ∧
  (∀ (s : State), s.reach .kst → (s.mem.keyIdMode = false ∨ s.ks.compBusy = true) →
    Completes .kstCompactGo s fun t => (t.hd .kst).errCode = cForbids ∧ t.ks = s.ks) ∧
  (∀ (s : State), s.ks.compBusy = true → s.running = true → s.ks.compWait = false → (s.rg .kst 0x080).getLsbD 0 = false →
    Completes .compactionDone s fun t =>
      t.ks.compBusy = false ∧ t.ks.spareKeyId = s.ks.compFreedOld ∧ s.ks.compFreedOld ∉ t.mem.act ∧
      t.mem.retireCnt = satAdd 32 s.mem.retireCnt 1 ∧ t.ks.keys = s.ks.keys ∧
      (∀ f ∈ t.ks.filter, f.seg = s.ks.compSeg → (s.seg s.ks.compSeg).round ≤ f.round)) ∧
  (∀ (s : State), s.reach .kst →
    let n := fld (s.rg .kst 0x074) 0 12
    ((s.slice n).st = .free → Completes .kstResPurgeGo s fun t =>
      (∀ p ∈ t.ks.archive, p.2.slice ≠ n) ∧ (∀ p ∈ t.ks.archiveB, p.2.slice ≠ n) ∧
      (∀ p ∈ s.ks.archive, p.2.slice ≠ n → p ∈ t.ks.archive) ∧ t.ks.keys = s.ks.keys ∧
      t.led = ((s.archErase fun p => p.2.slice = n).record 0x0407 2 (srcSlice n) (toLE 2 n ++ toLE 4 (s.ks.archive.filter fun p => p.2.slice = n).length)).led) ∧
    ((s.slice n).st ≠ .free → Completes .kstResPurgeGo s fun t =>
      (t.hd .kst).errCode = cForbids ∧ (t.hd .kst).errDetail = (if s.devFeat 5 then 3 else 0) ∧ t.ks = s.ks)) ∧
  (∀ (s : State) (h : BitVec 64) (k : KeyRec), s.resolve (hSlice h.toNat) h.toNat = some k → k.archPending = true →
    s.mute = false → (s.anchorPairAway = true → Completes (.archiveWriteComplete h) s fun t => t = s) ∧
    (s.anchorPairAway = false → Completes (.archiveWriteComplete h) s fun t =>
      ∃ k', NMap.find t.ks.keys k.place = some k' ∧
        k'.invCeil = (if k.invCeil ≤ k.inv + 2 ^ 19 then k.invCeil + 2 ^ 20 else k.invCeil) ∧
        k'.usedCeil = (if k.usedCeil ≤ k.tallyUsed + 2 ^ 19 then k.usedCeil + 2 ^ 20 else k.usedCeil) ∧
        k'.material = k.material ∧ t.jobs = s.jobs))

/-! ### Countersigning (chapter 11) -/

/-- QUORUM_CHALLENGE (R252 to R254, R259): a request that stands and for which there is room takes an approval slot,
open from the job's binding for the group's window, its cancelled mark cleared, and the challenge leaves as output;
else the job ends with the code that refuses it and no approval is issued. -/
def Obligations.ChallengeIssued : Prop :=
  ∀ (s : State) (id : Nat) (j : Job) (b : Bound), s.boundJob 0x0701 id = some (j, b) →
    (∀ q, s.asked j = .inr q → s.askedRoom j q = none → Completes (.quorumChallenge id {}) s fun t =>
      ∃ a, t.cus.approvals = s.cus.approvals ++ [a] ∧ a.slot = s.apprSlot ∧ a.slice = j.slice ∧ a.kind = eB j.entry 0x38 ∧
        a.group = q.group ∧ a.m = q.m ∧ a.opDigest = q.opDigest ∧ a.counted = 0 ∧ a.granted = false ∧
        a.tStart = b.tick ∧ a.tEnd = b.tick + q.window ∧ (∀ m ∈ t.cus.marks, m.slot ≠ a.slot) ∧
        t.vault = { s.vault with approvalSerial := a.serial } ∧
        ∃ out res, Ends s t j { code := cOK, outLen := out.length, result := res } out ∧ a.challenge <+: out) ∧
    (∀ c d, (s.asked j = .inl (c, d) ∨ ∃ q, s.asked j = .inr q ∧ s.askedRoom j q = some (c, d)) →
      Completes (.quorumChallenge id {}) s fun t =>
        Ends s t j { code := c, detail := d, result := zeros 16 } [] ∧ t.cus = s.cus ∧ t.vault = s.vault)

/-- QUORUM_SUBMIT (R254 to R257): input that its tokens do not fill exactly ends BAD_LENGTH; with no live approval
whose window held the job's binding it ends WINDOW_CLOSED; a record that is not the group's ends KEY_FOREIGN 5;
otherwise it ends, or waits with its tokens to be verified in INDEX order. -/
def Clause.SubmitJudged : Prop :=
  ∀ (s : State) (id : Nat) (j : Job) (b : Bound), s.boundJob 0x0702 id = some (j, b) → j.items = [] →
    let rc := submitRecord j.input
    let toks := tokensOf (eB j.entry 0x3C) (j.input.drop rc.length)
    let ap := (s.approval j.slice (eW j.entry 0x38)).filter fun a => a.tStart ≤ b.tick
    (toks = none → Completes (.quorumSubmit id {}) s fun t => Ends s t j { code := cBadLength, detail := 1, result := s.submitNone j } []) ∧
    (toks ≠ none → ap = none → Completes (.quorumSubmit id {}) s fun t =>
      Ends s t j { code := cWindow, detail := if s.marked j.slice (eW j.entry 0x38) then 2 else 1, result := s.submitNone j } []) ∧
    (∀ a, toks ≠ none → ap = some a →
      let dig := if a.kind = 2 then some a.opDigest else (NMap.find s.vault.groups a.group).map Group.digest
      (dig ≠ some (sha3_256 rc) → Completes (.quorumSubmit id {}) s fun t =>
        Ends s t j { code := cForeign, detail := 5, result := s.submitNone j } []) ∧
      (dig = some (sha3_256 rc) → Completes (.quorumSubmit id {}) s fun t =>
        t.cus.approvals = s.cus.approvals ∧
        ((∃ c, Ends s t j c [] ∧ (c.code = cOK ∨ c.code = cVerifyFail)) ∨
          ∀ x ∈ t.jobs, x.id = j.id → x.phase = .bound ∧ ∃ i ∈ x.items, i.out = none)))

/-- TOKEN_VERIFIED and APPROVAL_WINDOW_END. A token's tile ends (R256 to R258): a signature that fails is counted as
rejected and the approval stays; one that verifies from a custodian not counted yet counts it, and the approval of an
operation or a request is granted once M have; at T_END an approval is freed (R254). -/
def Clause.TokensCount : Prop :=
  (∀ (s : State) (id : Nat) (tile : Fin 96) (j : Job) (b : Bound) (i : Item) (a : Approval) (tk : Token),
    s.boundJob 0x0702 id = some (j, b) → j.items.find? (fun i => i.out.isNone) = some i → s.tileFree tile = true →
    s.approval j.slice (eW j.entry 0x38) = some a → tokensOf 1 (Bytes.padMul i.body 8) = some [tk] →
    Completes (.tokenVerified id i.idx tile {}) s fun t =>
      if tokenFails (submitRecord j.input) a.challenge tk = true then
        t.cus = { s.cus with tokenRej := satAdd 32 s.cus.tokenRej 1 }
      else bit a.counted tk.index = false → (a.kind = 1 ∨ a.kind = 4) →
        ∀ x ∈ t.cus.approvals, x.slot = a.slot →
          x = { a with
            counted := a.counted ||| 2 ^ tk.index, shown := submitRecord j.input, tokens := a.tokens ++ [i.body]
            granted := a.granted || (decide (a.m ≤ countSet (a.counted ||| 2 ^ tk.index)) && decide (a.newReq = 0)) }) ∧
  (∀ (s : State) (slot : Fin 1024) (a : Approval), s.cus.approvals.find? (fun a => a.slot = slot.val) = some a → a.tEnd ≤ s.tick →
    Completes (.approvalWindowEnd slot) s fun t =>
      (∀ x ∈ t.cus.approvals, x.slot ≠ slot.val) ∧ (∀ x ∈ s.cus.approvals, x.slot ≠ slot.val → x ∈ t.cus.approvals) ∧
      t.jobs = s.jobs ∧ t.vault = s.vault)

/-- Submitted tokens are judged in order, counted once each, and grant at the threshold; a window ends. -/
def Obligations.TokensJudged : Prop :=
  Clause.SubmitJudged ∧ Clause.TokensCount

/-! ### Slices and their manager (chapter 12) -/

/-- The manager's command interface takes a command for the slice in SLM_TARGET: page 0 answers, none runs, device
features are committed (R44, R270). -/
def slmReady (s : State) (n : Nat) : Prop :=
  s.reach (.slm 0) ∧ s.slm.cmd.st ≠ 1 ∧ s.glb.committed = true ∧ n = fld (s.rg (.slm 0) 0x044) 0 12

/-- A manager command ended in `t` with a code and a detail, and INFO (Table 12.9). -/
def slmEnded (t : State) (code detail info : Nat) : Prop :=
  t.slm.cmd = { st := 2, code := code, detail := detail, info := info }

/-- CHALLENGE (R275): for a FREE tenant slice, while an internal instance runs, a fresh challenge replaces the slice's
last one, open for 3,840 ticks; with a reseed that waits for a pool word the command runs on and waits (R198); a slice in
another state ends STATE_FORBIDS, no instance running ENTROPY_FAILED. -/
def Clause.ClaimChallenge : Prop :=
  ∀ (s : State) (n : Nat), slmReady s n →
    (n ≠ 0 → (s.slice n).st = .free → s.internalRuns = true → s.intBlocked = false → Completes .challenge s fun t =>
      slmEnded t cOK 0 0 ∧
      ∃ c ∈ t.slm.chals, c.slice = n ∧ c.tStart = s.tick ∧ c.tEnd = s.tick + 3840 ∧ c.nonce = t.slm.nonce ∧
        (∀ x ∈ t.slm.chals, x.slice = n → x = c) ∧ t.slices = s.slices ∧ t.jobs = s.jobs) ∧
    (n ≠ 0 → (s.slice n).st = .free → s.internalRuns = true → s.intBlocked = true → Completes .challenge s fun t =>
      t.slm.cmd.st = 1 ∧ OwnDraw.challenge n ∈ t.rng.draws ∧ t.slm.chals = s.slm.chals ∧ t.slices = s.slices ∧ t.jobs = s.jobs) ∧
    ((n = 0 ∨ (s.slice n).st ≠ .free) → Completes .challenge s fun t => slmEnded t cForbids 1 0 ∧ t.slices = s.slices) ∧
    (n ≠ 0 → (s.slice n).st = .free → s.internalRuns = false → Completes .challenge s fun t =>
      slmEnded t cEntropy 1 0 ∧ t.slices = s.slices)

/-- CREATE (R272 to R275, Table 12.5): a block that a row refuses ends with that row's code and changes no slice; a
claimed creation needs a live challenge and a claim key whose signature verifies; else the slice is ACTIVE with its
block's allocation, PASID and digest, its rings DISABLED, and no other slice changes. -/
def Clause.SliceCreated : Prop :=
  ∀ (s : State) (n : Nat) (d : Bytes), slmReady s n → n ≠ 0 → (s.slice n).st = .free → s.lcs.pending = false →
    s.clu.role ≠ .member → s.invasive = false →
    let b := Bytes.fit d (fld (s.rg (.slm 0) 0x050) 0 14)
    let made := fun (t : State) =>
      (t.slice n).st = .active ∧ (t.slice n).pasid = some (Bytes.le b 8 4) ∧ (t.slice n).digest = blockDigest b ∧
      (t.slice n).alloc = blockAlloc b (s.grantDeep (Bytes.le b 0x1C 4)) ∧ (t.slice n).featOk = false ∧
      (∀ r ∈ (t.slice n).rings, r.2.st = .disabled) ∧ (t.slm.cmd.st = 2 ∧ t.slm.cmd.code = cOK) ∧
      (∀ k, k ≠ n → NMap.find t.slices k = NMap.find s.slices k) ∧ t.jobs = s.jobs
    Completes (.create (.data d)) s fun t =>
      match s.createBad n b with
      | some (c, dt, i) => slmEnded t c dt i ∧ t.slices = s.slices
      | none =>
        if (blockDigest b).all (· = 0) then made t
        else match s.slm.chals.find? fun c => c.slice = n && c.tStart ≤ s.tick && s.tick < c.tEnd with
          | none => slmEnded t cWindow 1 0 ∧ t.slices = s.slices
          | some c => match s.claimFails b c with
            | some (cd, dt) => slmEnded t cd dt 0 ∧ t.slices = s.slices
            | none => made t

/-- A claim challenge opens for a free slice; CREATE makes the slice of its block or changes nothing. -/
def Obligations.SliceCreated : Prop :=
  Clause.ClaimChallenge ∧ Clause.SliceCreated

/-- RESIZE, HOLD and RELEASE (R276, R277): a block of no proper form, or not about the slice as it stands, is refused;
a reduction below what is in use is refused with its resource number, and the allocation takes the block's amounts
otherwise; HOLD and RELEASE move the slice between ACTIVE and HELD; a slice in another state ends STATE_FORBIDS. No
other slice changes. -/
def Clause.SliceResizedAndHeld : Prop :=
  ∀ (s : State) (n : Nat), slmReady s n → n ≠ 0 →
    let others := fun (t : State) => ∀ k, k ≠ n → NMap.find t.slices k = NMap.find s.slices k
    ((s.slice n).st = .active → Completes .hold s fun t => slmEnded t cOK 0 0 ∧ t.slice n = { s.slice n with st := .held } ∧ others t) ∧
    ((s.slice n).st = .held → Completes .release s fun t =>
      slmEnded t cOK 0 0 ∧ t.slice n = { s.slice n with st := .active } ∧ others t) ∧
    ((s.slice n).st ≠ .active → Completes .hold s fun t => slmEnded t cForbids 1 0 ∧ t.slices = s.slices) ∧
    ((s.slice n).st ≠ .held → Completes .release s fun t => slmEnded t cForbids 1 0 ∧ t.slices = s.slices) ∧
    (∀ d : Bytes, let b := Bytes.fit d (fld (s.rg (.slm 0) 0x050) 0 14)
      ((s.slice n).st = .active ∨ (s.slice n).st = .held) →
      Completes (.resize (.data d)) s fun t =>
        if blockForm b = true then slmEnded t cBadParam 1 0 ∧ t.slices = s.slices
        else if (s.slice n).unlike n b = true then slmEnded t cBadParam 5 0 ∧ t.slices = s.slices
        else if blockOver b = true then slmEnded t cBadParam 2 0 ∧ t.slices = s.slices
        else if Bytes.at b 0x10 ≠ 0 ∧ s.vectorsBad n b = true then slmEnded t cBadParam 4 0 ∧ t.slices = s.slices
        else match s.shrinkBad n b with
        | some r => slmEnded t cForbids 4 r ∧ t.slices = s.slices
        | none => match s.poolShort (s.slice n).alloc.amounts (blockAmounts b) with
          | some r => slmEnded t cCapacity (0x60 + r) r ∧ t.slices = s.slices
          | none => slmEnded t cOK 0 0 ∧ (t.slice n).alloc.rings = Bytes.le b 0x0C 2 ∧ (t.slice n).alloc.hot = Bytes.le b 0x18 4 ∧
              (t.slice n).alloc.vecCount = Bytes.at b 0x10 ∧ (t.slice n).alloc.tally = Bytes.le b 0x20 4 ∧
              (t.slice n).weight = Bytes.at b 0x14 ∧ (t.slice n).st = (s.slice n).st ∧ others t)

/-- DESTROY and SLICE_ERASE_COMPLETE (R15, R278): the slice's part of the windows is unoccupied at once, its streams
and approvals are gone and the command runs on; once no job of the slice is left, its keys, curves and record layouts
are erased, it reads FREE with every resource back in its pool, and the command ends OK. -/
def Clause.SliceDestroyed : Prop :=
  (∀ (s : State) (n : Nat), slmReady s n → n ≠ 0 → ((s.slice n).st = .active ∨ (s.slice n).st = .held) →
    Completes .destroy s fun t =>
      (t.slice n).st = .destroying ∧ (t.slice n).streams = [] ∧ (t.slice n).mbox = {} ∧ t.slm.cmd.st = 1 ∧
      (∀ a ∈ t.cus.approvals, a.slice ≠ n) ∧ t.glb = s.glb) ∧
  (∀ (s : State) (n : Fin 4096), s.running = true → (s.slice n.val).st = .destroying → (∀ j ∈ s.jobs, j.slice ≠ n.val) →
    Completes (.sliceEraseComplete n) s fun t =>
      NMap.find t.slices n.val = none ∧ (t.slice n.val).st = .free ∧ (∀ p ∈ t.ks.keys, p.1 / 2 ^ 24 ≠ n.val) ∧
      (∀ p ∈ t.eng.curves, p.2.slice ≠ n.val) ∧ (∀ p ∈ t.eng.rlds, p.2.slice ≠ n.val) ∧
      (∀ g ∈ t.vault.groups, g.1 ≠ 0 → g.2.slice ≠ n.val) ∧ t.slm.cmd.st = 2 ∧ t.slm.cmd.code = cOK)

/-- RESIZE, HOLD, RELEASE and DESTROY change their slice alone; a destroyed slice leaves nothing behind. -/
def Obligations.SliceChanged : Prop :=
  Clause.SliceResizedAndHeld ∧ Clause.SliceDestroyed

/-- SL_FEAT_COMMIT (R281): accepted words are taken whole with result 1, or result 2 with the first condition's cause
and the accepted words as they were; no other slice and no other field of the machine changes. -/
def Clause.SliceFeatureCommit : Prop :=
  ∀ (s : State) (sl : Fin 4096), s.reach (.slc sl) →
    let acc := [s.rg (.slc sl) 0x050, s.rg (.slc sl) 0x054, s.rg (.slc sl) 0x058, s.rg (.slc sl) 0x05C]
    Completes (.slFeatCommit sl) s fun t =>
      t.slice sl.val = (match s.commitBad sl.val acc with
        | some c => { s.slice sl.val with featRes := 2, featCause := c }
        | none => { s.slice sl.val with featAcc := acc, featOk := true, featRes := 1, featCause := 0 }) ∧
      (∀ k, k ≠ sl.val → NMap.find t.slices k = NMap.find s.slices k) ∧ t = { s with slices := t.slices }

/-- MB_SEND, MB_IN_ACK, SLM_MB_TX_SEND, SLM_MB_RX_ACK (R283 to R286): a tenant's message is taken while none waits,
the manager's while the tenant's side is free; an acknowledgement frees the side it names; each counts and raises the
other side's event, and a message that waits refuses the next. -/
def Clause.Mailboxes : Prop :=
  ∀ (s : State) (sl : Fin 4096), sl.val ≠ 0 →
    let m := (s.slice sl.val).mbox
    let others := fun (t : State) => (∀ k, k ≠ sl.val → NMap.find t.slices k = NMap.find s.slices k) ∧
      t = { s with slices := t.slices, hdr := t.hdr, msix := t.msix, out := t.out }
    let len := fld (s.rg (.mbx sl) 0x044) 0 7
    (s.reach (.mbx sl) → m.outFull = false → len ≠ 0 → len ≤ 64 → Completes (.mbSend sl) s fun t =>
      (t.slice sl.val).mbox = { m with outFull := true, outMsg := s.rgBytes (.mbx sl) 0x080 16, outLen := len, sent := m.sent + 1 } ∧
      (t.hd (.slm 0)).intStat.getLsbD 17 = true ∧ others t) ∧
    (s.reach (.mbx sl) → m.outFull = true → Completes (.mbSend sl) s fun t =>
      (t.hd (.mbx sl)).errCode = cForbids ∧ t.slices = s.slices) ∧
    (s.reach (.mbx sl) → m.inFull = true → Completes (.mbInAck sl) s fun t =>
      (t.slice sl.val).mbox = { m with inFull := false } ∧ (t.hd (.slm 0)).intStat.getLsbD 18 = true ∧ others t) ∧
    (s.reach (.slm 1) → fld (s.rg (.slm 1) 0x040) 0 12 = sl.val → sliceOpen (s.slice sl.val) = true →
      (m.inFull = false → m.txLen ≠ 0 → m.txLen ≤ 64 → Completes .slmMbTxSend s fun t =>
        (t.slice sl.val).mbox = { m with inFull := true, inMsg := m.txBytes, inLen := m.txLen, recv := m.recv + 1 } ∧
        (t.hd (.mbx sl)).intStat.getLsbD 16 = true ∧ others t) ∧
      (m.inFull = true → Completes .slmMbTxSend s fun t => (t.hd (.slm 1)).errCode = cForbids ∧ t.slices = s.slices) ∧
      (m.outFull = true → Completes .slmMbRxAck s fun t =>
        (t.slice sl.val).mbox = { m with outFull := false } ∧ (t.hd (.mbx sl)).intStat.getLsbD 17 = true ∧ others t))

/-- A slice feature commit takes all or nothing; mailboxes carry one message each way at a time. -/
def Obligations.SliceWindow : Prop :=
  Clause.SliceFeatureCommit ∧ Clause.Mailboxes

/-! ### Cluster and Zentulink (chapter 13) -/

/-- EXECUTE (R297, R298, Table 13.4): a request that a row refuses ends with that row's code and leaves the roster; a
granted owner approval is consumed, the unit is the head with the request's version and topology, and the command runs
on or, with nobody to wait for, ends OK. -/
def Obligations.ClusterExecute : Prop :=
  ∀ (s : State) (d : Bytes), s.reach .clu → s.clu.cmd.st ≠ 1 →
    let b := Bytes.fit d (fld (s.rg .clu 0x0A8) 0 11)
    let ended := fun (t : State) (c dt : Nat) => t.clu = { s.clu with cmd := { st := 2, code := c, detail := dt } } ∧ t.cus = s.cus
    Completes (.execute (.data d)) s fun t =>
      if requestBad b = true then ended t cBadParam 1
      else if s.lcs.pending = true then ended t cPending 1
      else match s.executeBad b with
        | some (c, dt) => ended t c dt
        | none => match s.ownerAppr (s.rg .clu 0x09C).toNat (sha3_256 b) with
          | .inl dt => ended t cQuorum dt
          | .inr a => (∀ x ∈ t.cus.approvals, x.slot ≠ a.slot) ∧ t.clu.rosterVer = Bytes.le b 0x0C 4 ∧ t.clu.headUid = uidBytes ∧
              (Bytes.at b 6 ≠ 5 → t.clu.role = .head ∧ t.clu.id = 0 ∧ t.clu.topo = Bytes.at b 7) ∧
              (t.clu.cmd.st = 1 ∨ (t.clu.cmd.st = 2 ∧ t.clu.cmd.code = cOK))

/-- HEARTBEAT, JOB, RESULT, KEYMOVE, ROSTER, ACK as they come in (R292, R294): while a link carries frames, one whose
tag fails, or whose EPOCH or CTR is not the one due, acts on nothing, is counted and answered with a NAK that names
the CTR due. The sixteenth tag failure in a row takes the link to TRAINING. A frame taken whose payload goes on in the
next is kept until the last (R292). -/
def Obligations.FrameAcceptance : Prop :=
  ∀ (s : State) (p : Fin 4) (f : FrameHdr), s.running = true → s.awake → s.pwr.pfwLow = false → (s.zlp p.val).up = true →
    (s.zlp p.val).txCtr + 1 < 2 ^ 40 →
    let z := s.zlp p.val
    let due := Bytes.padMul (toBE 8 z.rxCtr) 16
    let hdr := frameHdr 7 1 s.clu.id z.peer due.length z.epoch z.txCtr
    ∀ c ∈ [(Instr.heartbeat p { hdr := f }, 2), (.jobFrame p f { id := 0 }, 3), (.resultFrame p f { job := 0 }, 4),
           (.keymove p f (.erase 0), 5), (.roster p f { ver := 0, topo := 0, headUid := [], ids := [] }, 6), (.ackFrame p f {}, 7)],
      (openFrame f z.rxKey c.2 = none → z.consec < 15 → Completes c.1 s fun t =>
        (t.zlp p.val).authFail = satAdd 32 z.authFail 1 ∧ (t.zlp p.val).consec = z.consec + 1 ∧
        (t.zlp p.val).retry = satAdd 32 z.retry 1 ∧ (t.zlp p.val).rxCtr = z.rxCtr ∧
        t.out = s.out ++ [.frame p.val hdr (sealBody z.txKey hdr due)] ∧ t.clu = s.clu ∧ t.jobs = s.jobs) ∧
      (openFrame f z.rxKey c.2 = none → 15 ≤ z.consec → Completes c.1 s fun t => (t.zlp p.val).st = .training) ∧
      (openFrame f z.rxKey c.2 ≠ none → (f.epoch ≠ z.rxEpoch ∨ f.ctr ≠ z.rxCtr) → Completes c.1 s fun t =>
        (t.zlp p.val).retry = satAdd 32 z.retry 1 ∧ (t.zlp p.val).rxCtr = z.rxCtr ∧ (t.zlp p.val).authFail = z.authFail ∧
        (t.zlp p.val).consec = 0 ∧
        t.out = s.out ++ [.frame p.val hdr (sealBody z.txKey hdr due)] ∧ t.clu = s.clu ∧ t.jobs = s.jobs) ∧
      (∀ v m, s.frameIn p f c.2 = (v, some m) → f.last = false → Completes c.1 s fun t =>
        let n := 256 * f.src.val + c.2
        t = { v with clu := { v.clu with rxPart := NMap.set v.clu.rxPart n (NMap.getD v.clu.rxPart n [] ++ m) } })

/-- A frame is taken for this unit, and with it the whole of its payload has come (R292): the payload, and the state in which
it acts. -/
def Accepted (s : State) (p : Fin 4) (f : FrameHdr) (typ : Nat) (msg : Bytes) (u : State) : Prop :=
  ∃ v m, s.frameIn p f typ = (v, some m) ∧ f.last = true ∧ msg = NMap.getD v.clu.rxPart (256 * f.src.val + typ) [] ++ m ∧
    u = { v with clu := { v.clu with rxPart := NMap.del v.clu.rxPart (256 * f.src.val + typ) } }

/-- HEARTBEAT, JOB, RESULT and ACK frames that this unit accepts (`u` is the state with the frame taken): a heartbeat
inside its sender's window renews it and tells the head what the member has free, one from the head renews the
member's (R301 to R303); a JOB at a member is acknowledged and joins its queue (R303); a RESULT completes the job
placed on its sender, one that no placement waits for is counted late (R310); a NAK has the frames of the epoch from
the one it names sent again (R294). -/
def Clause.FrameEffects : Prop :=
  ∀ (s u : State) (p : Fin 4) (f : FrameHdr) (msg : Bytes),
    (Accepted s p f 2 msg u → ∀ h : HbMsg,
      (u.clu.role = .head → (u.member f.src.val).st.beats = true → u.tick < (u.member f.src.val).window + u.hbTimeout →
        h.links = (u.member f.src.val).links → Completes (.heartbeat p { hdr := f, msg := h }) s fun t =>
          t.member f.src.val = (u.member f.src.val).heard h u.tick ∧ t = { u with clu := { u.clu with members := t.clu.members } }) ∧
      (u.clu.role = .member → f.src.val = 0 → Completes (.heartbeat p { hdr := f, msg := h }) s fun t =>
        t = { u with clu := { u.clu with headHb := u.tick, headLost := false } })) ∧
    (Accepted s p f 3 msg u → u.clu.role = .member → u.clu.headLost = false → u.clu.leaving = none → f.src.val = 0 →
      ∀ j : RemoteJob, Completes (.jobFrame p f j) s fun t =>
        ∃ x, t.jobs = u.jobs ++ [x] ∧ x.remote = some j ∧ x.phase = .staged ∧ x.entry = Bytes.fit j.entry 128 ∧ x.input = j.input) ∧
    (Accepted s p f 4 msg u → u.clu.role = .head → ∀ res : RemoteResult,
      (u.job res.job = none → Completes (.resultFrame p f res) s fun t =>
        t = { u with clu := { u.clu with late := satAdd 32 u.clu.late 1 } }) ∧
      (∀ j b, u.job res.job = some j → j.bnd = some b → b.eng = .member f.src → j.phase = .bound → eOp j.entry = 0x0102 →
        res.item = none → res.refused = none → res.run = {} → u.mute = false → Completes (.resultFrame p f res) s fun t =>
          ∃ c, Ends u t j c [] ∧ c.code = match (verifyRun u j b).bad with | some (code, _) => code | none => cOK)) ∧
    (Accepted s p f 7 msg u → f.nak = true → ∀ a : AckMsg, Completes (.ackFrame p f a) s fun t =>
      t.out = u.out ++ ((u.zlp p.val).sent.filter fun x => a.named ≤ x.1).map (fun x => Out.frame p.val x.2.1 x.2.2) ∧
      t = { u with out := t.out })

/-- What accepted ACK, ROSTER and KEYMOVE frames do (R295, R298, R299, R304, R306, R308): a joining or returning member
that reports the head's version of every set reads SERVING, one that reports an older one QUARANTINED, a leaving one that
has left leaves the roster; a unit outside a cluster takes a roster whose approval its own group 0 confirms and becomes a
member, a member ignores an older one and acknowledges its present one (which leaves the links as they are where no send
counter reaches its end over the frames); replicas are stored, ranged, voided and erased,
where the payload opens under the transfer key held with its origin, and nothing happens where it does not. -/
def Clause.MembershipFrames : Prop :=
  ∀ (s u : State) (p : Fin 4) (f : FrameHdr) (msg : Bytes),
    (Accepted s p f 7 msg u → f.nak = false → u.clu.role = .head → u.clu.cmd.st ≠ 1 → ∀ a : AckMsg,
      (((u.member f.src.val).st = .joining ∨ (u.member f.src.val).st = .lost) →
        let told := fun (set : Nat) => match a.vers.find? fun x => x.1.toNat = set with | some x => x.2.toNat | none => 0
        ((∀ x ∈ u.clu.replVer, x.2 ≤ told x.1) → Completes (.ackFrame p f a) s fun t => (t.member f.src.val).st = .serving) ∧
        ((∃ x ∈ u.clu.replVer, told x.1 < x.2) → Completes (.ackFrame p f a) s fun t => (t.member f.src.val).st = .quarantined)) ∧
      ((u.member f.src.val).st = .leaving → (u.member f.src.val).repl = [] → a.left = true →
        Completes (.ackFrame p f a) s fun t => NMap.find t.clu.members f.src.val = none)) ∧
    (Accepted s p f 6 msg u → ∀ m : RosterMsg,
      (∀ n, u.clu.role = .standalone → (m.ids.find? fun x => x.2 = uidBytes).map (fun x => x.1.val) = some n → n ≠ 0 →
        u.approved m = true → u.lcsCode = 4 → u.tenants.isEmpty = true →
        Completes (.roster p f m) s fun t =>
          t.clu.role = .member ∧ t.clu.id = n ∧ t.clu.rosterVer = m.ver.toNat ∧ t.clu.headUid = m.headUid) ∧
      (u.clu.role = .member → m.ver.toNat < u.clu.rosterVer → Completes (.roster p f m) s fun t => t = u) ∧
      (u.clu.role = .member → m.ver.toNat = u.clu.rosterVer → m.headUid = u.clu.headUid →
        (∀ q : Nat, (u.zlp q).txCtr + u.clu.replVer.length + 1 < 2 ^ 40) → Completes (.roster p f m) s fun t =>
        t = { u with clu := { u.clu with table := m.table.foldl (fun a x => NMap.set a x.1.val x.2.val) [] }, zl := t.zl, out := t.out } ∧
        (∀ q, NMap.find t.clu.table 0 = some q → (u.zlp q).up = true → u.mute = false → ∃ b, t.out = u.out ++ b ∧ b ≠ []))) ∧
    (Accepted s p f 5 msg u → u.clu.role = .member →
      let opens := fun (k : KeyMove) => ∃ key, NMap.find u.clu.transfer f.src.val = some key ∧
        msg = Bytes.padMul (kwpWrap key (moveOctets k)) 16
      (∀ k, ¬opens k → Completes (.keymove p f k) s fun t => t = u) ∧
      (opens .abandon → Completes (.keymove p f .abandon) s fun t => ∀ x ∈ t.clu.held, x.2.ranges = []) ∧
      ∀ (h : BitVec 64) (alg pset home : BitVec 8) (res : Bool) (mat : Bytes),
        (opens (.replica h alg pset home res mat) → Completes (.keymove p f (.replica h alg pset home res mat)) s fun t =>
          NMap.find t.clu.held h.toNat =
            some { alg := alg.toNat, pset := pset.toNat, home := home.toNat, resident := res, material := mat }) ∧
        (opens (.erase h) → Completes (.keymove p f (.erase h)) s fun t => NMap.find t.clu.held h.toNat = none) ∧
        (∀ (x : Replica) (a b : BitVec 64), opens (.range h a b) → NMap.find u.clu.held h.toNat = some x →
          Completes (.keymove p f (.range h a b)) s fun t => NMap.find t.clu.held h.toNat =
            some { x with ranges := x.ranges ++ [(a.toNat, b.toNat)], asked := false, ended := x.ended || b.toNat + 1 = 2 ^ 64 }))

/-- What accepted heartbeats, jobs, results, rosters, key moves and acknowledgements do. -/
def Obligations.FrameEffects : Prop :=
  Clause.FrameEffects ∧ Clause.MembershipFrames

/-- LINK_STATE_CHANGE, LINK, AUTH_RETRY, REKEY (R291, R293, R294): trained lanes begin AUTH, a lost link reads DOWN;
an AUTH exchange whose peer is accepted takes up the peer with fresh epochs and link keys, one that is not reads
FAILED with its retry 64 ticks on; a step that waits for a pool word or for the anchor tile waits as it is (R198, R409);
the retry begins AUTH again; a rekey that is due steps both epochs and clears the counters. -/
def Obligations.Links : Prop :=
  ∀ (s : State) (p : Fin 4) (f : FrameHdr) (a : AuthMsg), s.portOn p = true →
    let z := s.zlp p.val
    (∀ w : Fin 5, (w.val = 1 ∨ w.val = 2 ∨ w.val = 4) → (z.st = .down ∨ z.st = .training) →
      Completes (.linkStateChange p (.trained w)) s fun t =>
        (t.zlp p.val).st = .auth ∧ (t.zlp p.val).width = w.val ∧ t.clu = s.clu ∧ t.jobs = s.jobs) ∧
    (z.st ≠ .down → Completes (.linkStateChange p .lost) s fun t => (t.zlp p.val).st = .down) ∧
    (let w := s.wakeFor 8
     s.mute = false → z.st = .auth → z.ephPub ≠ [] → w.authRuns = true →
      (w.authWaits = true → Completes (.linkFrame p f a) s fun t =>
        t.rng.draws.contains (.link p a) = true ∧ t.zl = s.zl ∧ t.clu = s.clu ∧ t.jobs = s.jobs) ∧
      (w.authWaits = false → w.peerOk p.val a 1 = true → Completes (.linkFrame p f a) s fun t =>
        (t.zlp p.val).peerUid = a.uid ∧ (t.zlp p.val).epoch = 1 ∧ (t.zlp p.val).rxEpoch = 1 ∧
        (s.clu.role ≠ .head → (t.zlp p.val).st = .up ∧ (t.zlp p.val).txKey = (z.linkKeys a).txKey ∧
          (t.zlp p.val).rxKey = (z.linkKeys a).rxKey)) ∧
      (w.authWaits = false → w.peerOk p.val a 1 = false → Completes (.linkFrame p f a) s fun t =>
        (t.zlp p.val).st = .failed ∧ (t.zlp p.val).retryAt = s.tick + 64)) ∧
    (z.st = .failed → z.retryAt ≤ s.tick → Completes (.authRetry p) s fun t =>
      (t.zlp p.val).st = .auth ∧ (t.zlp p.val).peerUid = z.peerUid ∧ t.clu = s.clu ∧ t.jobs = s.jobs) ∧
    (let w := s.wakeLink p
     let b := if z.ephPub = [] then w.authBegin p.val true else w
     s.mute = false → z.up = true → w.authRuns = true → w.authWaits = false → 2 ^ 39 ≤ z.txCtr → z.txCtr + 16 < 2 ^ 40 →
      b.authRuns = true → b.authWaits = false → b.peerOk p.val a (z.epoch + 1) = true → a.uid = z.peerUid →
      Completes (.rekey p a) s fun t =>
        (t.zlp p.val).st = .up ∧ (t.zlp p.val).epoch = z.epoch + 1 ∧ (t.zlp p.val).rxEpoch = z.rxEpoch + 1 ∧
        (t.zlp p.val).txCtr = 0 ∧ (t.zlp p.val).rxCtr = 0 ∧ (t.zlp p.val).keyTick = s.tick ∧
        (t.zlp p.val).txKey = ((b.zlp p.val).linkKeys a).txKey ∧ (t.zlp p.val).rxKey = ((b.zlp p.val).linkKeys a).rxKey)

/-- MEMBER_LOST, JOIN_TIMEOUT, REPLICA_SYNC_COMPLETE, HEAD_TIMEOUT, HEARTBEAT_SEND (R298, R301, R302, R308): a member
with no heartbeat inside its window reads LOST and loses its INV ranges; a NEW unit not SERVING at its limit reads
LOST and the EXECUTE that waits for it ends MEMBER_LOST 0x10; a member that holds every replica of its sets reads
SERVING; one that has not heard its head stops every job of the head's, and is STANDALONE where it was leaving;
heartbeats go to the members that serve, sync or are quarantined, a member's to its head. -/
def Clause.Members : Prop :=
  ∀ (s : State) (n : Fin 64), s.running = true →
    (s.clu.role = .head → n.val ≠ 0 → ((s.member n.val).st = .serving ∨ (s.member n.val).st = .syncing ∨ (s.member n.val).st = .quarantined) →
      (s.member n.val).window + s.hbTimeout ≤ s.tick → s.clu.cmd.st ≠ 1 → Completes (.memberLost n) s fun t =>
        (t.member n.val).st = .lost ∧ ∀ r ∈ t.clu.ranges, r.2.member ≠ n.val) ∧
    (s.clu.role = .head → (s.member n.val).st = .joining → (s.member n.val).joinEnd ≠ 0 → (s.member n.val).joinEnd ≤ s.tick →
      Completes (.joinTimeout n) s fun t =>
        (t.member n.val).st = .lost ∧ n.val ∉ t.clu.newIds ∧
        t.clu.cmd = (if s.clu.cmd.st = 1 ∧ n.val ∈ s.clu.newIds then { st := 2, code := cMemberLost, detail := 0x10 } else s.clu.cmd)) ∧
    (s.clu.role = .head → ((s.member n.val).st = .syncing ∨ (s.member n.val).st = .quarantined) → s.synced n.val = true →
      s.clu.cmd.st ≠ 1 → Completes (.replicaSyncComplete n) s fun t => (t.member n.val).st = .serving) ∧
    (s.clu.role = .member → s.clu.headLost = false → s.clu.headHb + s.hbTimeout ≤ s.tick →
      Completes .headTimeout s fun t => (∀ j ∈ t.jobs, j.remote = none) ∧
        (s.clu.leaving = none → t.clu = { s.clu with headLost := true }) ∧ (s.clu.leaving ≠ none → t.clu.role = .standalone)) ∧
    (Completes .heartbeatSend s fun t => t = match s.clu.role with
      | .standalone => s
      | .member => s.toMember 0 2 s.hbOctets
      | .head => s.clu.members.foldl (fun a m =>
          if m.1 != 0 && [MemberState.serving, .syncing, .quarantined].contains m.2.st then a.toMember m.1 2 s.hbOctets else a) s)

/-- REPLICA_COMMIT, CLU_REPL_MASK_WRITE (R304, R306, R308): a copy that commits makes the member eligible for the key,
with an INV range reserved from the key's own counter where the key takes one; a new mask withdraws the replicas of
the members it leaves out. -/
def Clause.Replication : Prop :=
  (∀ (s : State) (n : Fin 64) (h : BitVec 64) (k : KeyRec), s.resolve (hSlice h.toNat) h.toNat = some k → s.running = true →
    s.clu.role = .head → s.inSet k n.val = true → s.hasReplica k n.val = false → (s.path n.val).isSome = true →
    (s.member n.val).st = .serving → (k.custody = 0xFFFF ∨ s.clu.rights.contains (k.handle, (s.member n.val).uid) = true) →
    Completes (.replicaCommit n h) s fun t =>
      (k.place, n.val) ∈ t.clu.replicas ∧
      (takesInv k.alg k.usage = true → k.inv < 2 ^ 64 →
        (k.place, { member := n.val, next := k.inv, last := Nat.min (k.inv + 2 ^ 24) (2 ^ 64) - 1 }) ∈ t.clu.ranges)) ∧
  (∀ (s : State) (mask : BitVec 64), s.reach .clu → s.clu.role = .head →
    let n := fld (s.rg .clu 0x084) 0 8
    n ≠ 0 → mask.toNat ≠ s.replMask n → Completes (.cluReplMaskWrite mask) s fun t =>
      t.replMask n = mask.toNat ∧
      ∀ p ∈ s.ks.keys, p.2.live = true → p.2.replSet = n → ∀ m, bit mask.toNat m = false → (p.2.place, m) ∉ t.clu.replicas)

/-- Members are lost, time out and sync; replicas commit with their ranges and are withdrawn by a mask. -/
def Obligations.MembersAndReplicas : Prop :=
  Clause.Members ∧ Clause.Replication

/-! ### Worlds and memory protection (chapter 14) -/

/-- PARTITION_FAULT and PARTITION_TIME_LIMIT (R318): the input that was being parsed ends as ABORTED with detail 0x21
and the core of the normal world counts the stop; no other core changes. An access of the partition's own that a gate
denies counts at the core's MPU as well (R328); one that the gates admit is no fault. -/
def Clause.PartitionStops : Prop :=
  ∀ (s s1 : State) (n : Fin 16) (p : Fin 32) (i : ParsedInput), s.running = true → s.linked = true → s.pwr.pfwLow = false →
    4 ≤ n.val → (s.core n.val).running = true → s.stopParse i = some s1 →
    (∀ (k : AccessKind) (a : BitVec 48),
      let g : GateAccess := { master := ⟨n.val, by omega⟩, kind := k, addr := a, part := some p }
      (∀ c, s.gateCause g = some c → Completes (.partitionFault n p { inp := i, access := some (k, a) }) s fun t =>
        (t.mpuOf n.val).denyCnt = satAdd 32 (s.mpuOf n.val).denyCnt 1 ∧
        t.core n.val = { s.core n.val with faults := satAdd 32 (s.core n.val).faults 1 }) ∧
      (s.gateCause g = none → Completes (.partitionFault n p { inp := i, access := some (k, a) }) s fun t => t = s)) ∧
    ∀ c ∈ [Instr.partitionFault n p { inp := i }, .partitionTimeLimit n p i],
      Completes c s fun t =>
        t.core n.val = { s.core n.val with faults := satAdd 32 (s.core n.val).faults 1 } ∧
        (∀ k, k ≠ n.val → t.core k = s.core k) ∧
        (∀ id, i = .rldOrRecord id ∨ i = .quorum id → ∀ x ∈ t.jobs, x.id = id →
          x.phase = .done ∧ ∃ f, x.fin = some f ∧ f.code = cAborted ∧ f.detail = 0x21) ∧
        (i = .sliceBlock → t.slm.cmd = { st := 2, code := cAborted, detail := 0x21 }) ∧
        (i = .clusterRequest → t.clu.cmd = { st := 2, code := cAborted, detail := 0x21 }) ∧
        (i = .lifeCycle → t.lcs.cmd = { st := 2, code := cAborted, detail := 0x21 }) ∧ t.regs = s.regs

/-- WATCHDOG_EXPIRY and CORE_WDOG_WRITE (R322): an expiry for a core takes a watchdog reset that CORE_WDOG_CNT counts
and that leaves the Vault and the life cycle; CORE_WDOG takes a period of 10 to 1,000 ms in OWNED and refuses any
other write. -/
def Clause.Watchdog : Prop :=
  (∀ (s : State) (n : Fin 4), s.wdogRuns n.val = true →
    Completes (.watchdogExpiry n) s fun t =>
      WasReset s t .watchdog 0 ∧ t.glb.run = .starting ∧ t.glb.wdogReset = true ∧
      t.svc.wdogCnt = satAdd 16 s.svc.wdogCnt 1 ∧ t.vault = s.vault ∧ t.lcs.recs = s.lcs.recs ∧ t.clu.role = s.clu.role) ∧
  (∀ (s : State) (v : BitVec 32), s.reach (.core 0) →
    let n := fld v 0 10
    (s.lcsCode = 3 → 10 ≤ n → n ≤ 1000 → Completes (.coreWdogWrite v) s fun t =>
      t.svc = { s.svc with wdogMs := n } ∧ t = { s with svc := t.svc, hdr := t.hdr }) ∧
    (s.lcsCode ≠ 3 → Completes (.coreWdogWrite v) s fun t => (t.hd (.core 0)).errCode = cForbids ∧ t.svc = s.svc) ∧
    (s.lcsCode = 3 → (n < 10 ∨ 1000 < n) → Completes (.coreWdogWrite v) s fun t =>
      (t.hd (.core 0)).errCode = cBadParam ∧ t.svc = s.svc))

/-- A stopped partition ends its input; the secure watchdog resets the unit. -/
def Obligations.WorldsStop : Prop :=
  Clause.PartitionStops ∧ Clause.Watchdog

/-- MPU_SYNC, MPU_SYNC_DONE and ENT_ATTR_WRITE (R326, R329, R330): ATTR applies the whole entry the four registers
spell, and PG_GEN counts each of the four that changes (R37); a locked entry refuses and stays; the debug port's MPU
takes no entry but within the open grant (R332); SYNC reads PENDING until its end. No other entry and no other MPU
changes. -/
def Clause.MpuEntries : Prop :=
  ∀ (s : State) (m : Fin 53), s.linked = true →
    (Completes (.mpuSync m) s fun t => t.mpuOf m.val = { s.mpuOf m.val with pending := true } ∧ t = { s with mpu := t.mpu }) ∧
    (Completes (.mpuSyncDone m) s fun t => t.mpuOf m.val = { s.mpuOf m.val with pending := false } ∧ t = { s with mpu := t.mpu }) ∧
    (∀ (e : Fin 32) (bl bh ll at_ : BitVec 32),
      let old := NMap.getD (s.mpuOf m.val).ent e.val {}
      let new := mpuEntryOf bl bh ll at_
      (m.val = 48 → s.debugEntryOk new = false → Completes (.entAttrWrite m e bl bh ll at_) s fun t => t = s) ∧
      ((m.val = 48 → s.debugEntryOk new = true) →
      (old.lock = false → Completes (.entAttrWrite m e bl bh ll at_) s fun t =>
        NMap.find (t.mpuOf m.val).ent e.val = some new ∧
        (∀ k, k ≠ e.val → NMap.find (t.mpuOf m.val).ent k = NMap.find (s.mpuOf m.val).ent k) ∧
        (∀ k, k ≠ m.val → t.mpuOf k = s.mpuOf k) ∧
        t.hd (.mpu m) = { s.hd (.mpu m) with gen := (s.hd (.mpu m)).gen + BitVec.ofNat 32 (entryDiff old new) } ∧
        t = { s with mpu := t.mpu, hdr := t.hdr }) ∧
      (old.lock = true → Completes (.entAttrWrite m e bl bh ll at_) s fun t =>
        (t.hd (.mpu m)).errCode = cForbids ∧ t.mpu = s.mpu)))

/-- DEBUG_PORT_ACCESS (R320, R327, R328, R332, R356): a memory access that a gate refuses is counted in the debug port's
MPU, the first with its address and cause; a refused read returns zeros with an error response, and neither memory nor
a register changes. The page-ownership table lists no debug port: it refuses every access to a page that it governs.
Elsewhere a permitted read returns the octets asked for up to the end of its 4 KiB page, and nothing is written. What a
debugger does to a core needs its scope open; halting stops a core that runs, resuming lets it run again. -/
def Clause.DebugPort : Prop :=
  ∀ (s : State) (w : Bool) (d : Bytes), s.linked = true → s.isl.jtagIr = 0x20 →
    (∀ a : BitVec 48,
      let l := a.toNat % 2 ^ 42
      (∀ c, s.debugCause a.toNat w = some c → Completes (.debugPortAccess (.mem a) w d) s fun t =>
        (t.mpuOf 48).denyCnt = satAdd 32 (s.mpuOf 48).denyCnt 1 ∧
        ((s.mpuOf 48).denyValid = false →
          (t.mpuOf 48).denyAddr = a.toNat ∧ (t.mpuOf 48).denyCause = c ∧ (t.mpuOf 48).denyWrite = w) ∧
        (w = false → ∃ pre, t.out = s.out ++ pre ++ [.debugRead (zeros d.length) true]) ∧
        t.mem.poison = s.mem.poison ∧ t.mem.lines = s.mem.lines ∧ t.regs = s.regs ∧ t.jobs = s.jobs) ∧
      (s.potGoverns l = true → ∃ c, s.debugCause a.toNat w = some c) ∧
      (s.debugCause a.toNat w = none → Completes (.debugPortAccess (.mem a) w d) s fun t =>
        (w = true → t = s) ∧
        (w = false → t = { s with out := t.out, freeN := t.freeN } ∧ ∃ o : Bytes,
          t.out = s.out ++ [.debugRead o] ∧ o.length = Nat.min d.length (4096 - l % 4096)))) ∧
    ∀ (n : Fin 16) (op : CoreOp),
      let c := s.core n.val
      let shut := ∀ b, coreScope n op = some b → s.scopeOpen b = false
      (shut → Completes (.debugPortAccess (.core n op) w d) s fun t =>
        t = if w = true then s else { s with out := s.out ++ [.debugRead (zeros d.length) true] }) ∧
      (¬shut → op = .halt → c.running = true → c.servicing = false → Completes (.debugPortAccess (.core n op) w d) s fun t =>
        t.core n.val = { c with running := false, halted := true } ∧ t = { s with svc := t.svc }) ∧
      (¬shut → op = .resume → c.halted = true → Completes (.debugPortAccess (.core n op) w d) s fun t =>
        t.core n.val = { c with running := true, halted := false } ∧ t = { s with svc := t.svc })

/-- An access to a page that the page-ownership table governs, after the gates (R334 to R336, R339, R340): under a
retired KeyID it fails and is counted. Where every stored line opens and the burst comes back whole, a read returns the
octets asked for up to the end of the 4 KiB page and changes nothing, or fails where a line is poisoned; a write stores
each line it covers whole in its sealed form and frees exactly those from the poison list. -/
def Clause.DeviceAccess : Prop :=
  ∀ (s : State) (a : GateAccess) (d : Bytes), s.gateCause a = none → s.potGoverns a.loc = true →
    let n := Nat.min d.length (4096 - a.loc % 4096)
    let retired := s.mem.keyIdMode && !s.mem.act.contains a.key
    let covers := fun (x : Nat) => a.loc ≤ x * 64 ∧ x * 64 + 64 ≤ a.loc + n
    let t := (s.access a d []).1
    let e := (s.access a d []).2
    (retired = true → e = .failed 4 ∧ t.mem = { s.mem with retired := satAdd 32 s.mem.retired 1, retiredNoted := true }) ∧
    (retired = false →
      (∀ m x, NMap.find s.mem.lines m = some x →
        ∃ o : Bytes, s.openLine (64 * m) (s.potLine (64 * m)).keyId x = some o ∧ o.length = 64) →
      (a.kind ≠ .write → t = { s with freeN := t.freeN } ∧
        ((∀ k, k < n → s.poisoned (a.loc + k) = false) → ∃ o : Bytes, e = .served o ∧ o.length = n) ∧
        (∀ k, k < n → s.poisoned (a.loc + k) = true → e = .failed 2)) ∧
      (a.kind = .write →
        t = { s with mem := { s.mem with poison := t.mem.poison, lines := t.mem.lines }, freeN := t.freeN } ∧
        (∀ x, x ∈ t.mem.poison ↔ x ∈ s.mem.poison ∧ ¬covers x) ∧
        (∀ x, covers x → NMap.find t.mem.lines x =
          some (s.sealLine (64 * x) (s.potLine (64 * x)).keyId (Bytes.sub d (64 * x - a.loc) 64)))))

/-- MPU entries apply whole or stay locked; the debug port sees only what the gates admit. -/
def Obligations.MemoryProtection : Prop :=
  Clause.MpuEntries ∧ Clause.DebugPort ∧ Clause.DeviceAccess

/-! ### Life cycle, debug and the tamper island (chapter 15) -/

/-- TRANSITION (R347, R350 to R352, R354, Tables 15.2, 15.5 and 15.6): a request that cannot be read, and the first
row a request meets ends the command with the row's code and burns nothing; a request that none meets burns the record
it names with its new state, complement and COMMIT, and takes the life-cycle reset, with the erasure or the owner root
its transition asks for; SCRAP reads HALTED, and then refuses every command of the page. -/
def Obligations.LifeCycleTransition : Prop :=
  (∀ (s : State) (q : TransRead) (r : HostRead), s.reach .lcs → s.lcsCode = 7 →
    ∀ c ∈ [Instr.transition q, .debugChallenge, .debugOpen r, .debugClose, .config r],
      Completes c s fun t => (t.hd .lcs).errCode = cForbids ∧ t.lcs = s.lcs ∧ t.vault = s.vault) ∧
  (∀ (s : State) (q : TransRead) (k : ReadCause), s.reach .lcs → s.lcsCode ≠ 7 → s.lcs.cmd.st ≠ 1 → q.req = .failed k →
    Completes (.transition q) s fun t =>
      t.lcs = { s.lcs with cmd := { st := 2, code := cBadAddr, detail := 0x13 } } ∧ t.vault = s.vault) ∧
  ∀ (s : State) (d : Bytes) (wipe : List (Fin 96 × Fin 16384)), s.reach .lcs → s.lcsCode ≠ 7 → s.lcs.cmd.st ≠ 1 →
    let b := Bytes.fit d s.lcsLen
    let from_ := Bytes.at b 6
    let to_ := Bytes.at b 7
    let n := Bytes.at b 8
    let ended := fun (t : State) (c dt : Nat) => t.lcs = { s.lcs with cmd := { st := 2, code := c, detail := dt } } ∧ t.vault = s.vault
    let made := fun (t : State) =>
      NMap.find t.lcs.recs n = some { code := to_, ncode := 15 - to_, commit := 3 } ∧
      (∀ k, k ≠ n → NMap.find t.lcs.recs k = NMap.find s.lcs.recs k) ∧ t.lcs.staged = none ∧ WasReset s t .lifeCycle 0 ∧
      t.glb.run = (if to_ = 7 then .halted else .starting) ∧
      (to_ = 3 → t.lcs.ownerDigest = Bytes.sub b 0x20 32) ∧
      (to_ = 5 → t.vault.storageRoot = [] ∧ t.vault.groups = [] ∧ t.ks.archive = [] ∧ t.ks.archiveB = []) ∧
      (to_ = 7 → t.vault = { gens := [] } ∧ t.ks.archive = [] ∧ t.ks.archiveB = [] ∧
        t.lcs.ownerDigest = [] ∧ t.lcs.otpGone = true)
    Completes (.transition { req := .data d, wipeBad := wipe }) s fun t =>
      match requestForm b with
      | none => ended t cBadParam 1
      | some l =>
        let again := s.lcs.pending && s.resubmits b
        match s.transBad b again with
        | some (c, dt) => ended t c dt
        | none =>
          if s.ownerField b = false then ended t cForeign 8
          else match s.signersBad (if to_ = 3 then some (Bytes.sub b 0x20 32) else none)
              ((s.signers from_ to_ (Bytes.sub b 0x20 32)).getD []) (b.take 80) l with
            | some (c, dt) => ended t c dt
            | none =>
              if again = true ∨ countersigned from_ to_ = false then made t
              else match s.ownerAppr (s.rg .lcs 0x04C).toNat (sha3_256 (b.take 80)) with
                | .inl dt => ended t cQuorum dt
                | .inr _ => made t

/-- DEBUG_CHALLENGE, DEBUG_OPEN, DEBUG_CLOSE and DEBUG_GRANT_END (R354, R356 to R359): while a transition is pending
the commands of the page but TRANSITION end so; else a challenge is live for 3,840 ticks from its decision, waits with
its command while a reseed waits for a pool word (R198), or finds no instance; a grant that a row refuses ends with the
row's code and opens nothing, one that stands opens for its scope, or in FIELD with memory scope first takes a Squall;
DEBUG_CLOSE and the end tick close it: cores halted under it run again, and a job on one has ended ABORTED. -/
def Clause.DebugGrants : Prop :=
  (∀ (s : State) (r : HostRead), s.reach .lcs → s.lcsCode ≠ 7 → s.lcs.cmd.st ≠ 1 → s.lcs.pending = true →
    ∀ c ∈ [Instr.debugChallenge, .debugOpen r, .debugClose, .config r],
      Completes c s fun t => t = { s with lcs := { s.lcs with cmd := { st := 2, code := cPending, detail := 1 } } }) ∧
  (∀ (s : State), s.reach .lcs → s.lcsCode ≠ 7 → s.lcs.cmd.st ≠ 1 → s.lcs.pending = false →
    (s.internalRuns = true → s.intBlocked = false → Completes .debugChallenge s fun t =>
      ∃ o : Bytes, (s.intRequest .ok).2 = .got o ∧ t.lcs = { s.lcs with
        nonce := o.take 32, nonceStart := s.tick, nonceEnd := s.tick + 3840, nonceLive := true, cmd := { st := 2, code := cOK } }) ∧
    (s.internalRuns = true → s.intBlocked = true → Completes .debugChallenge s fun t =>
      t.lcs = { s.lcs with cmd := { st := 1 } } ∧ OwnDraw.debug ∈ t.rng.draws) ∧
    (s.internalRuns = false → Completes .debugChallenge s fun t =>
      t.lcs = { s.lcs with cmd := { st := 2, code := cEntropy, detail := 1 } }) ∧
    (Completes .debugClose s fun t => t.lcs = { s.lcs with grant := none, cmd := { st := 2, code := cOK } } ∧ t.vault = s.vault)) ∧
  (∀ (s : State) (g : Grant), s.linked = true → s.mute = false → s.lcs.grant = some g → g.tOpen + g.duration ≤ s.tick →
    let onHalted := fun (j : Job) => j.phase = .bound ∧ ∃ b, j.bnd = some b ∧ s.coreHeld b.eng = true
    Completes .debugGrantEnd s fun t =>
      t.lcs = { s.lcs with grant := none } ∧ (t.mpuOf 48).ent = [] ∧ (∀ n, (t.core n).halted = false) ∧
      (∀ n, (s.core n).halted = true → (t.core n).running = true) ∧ ((∀ j ∈ s.jobs, ¬onHalted j) → t.jobs = s.jobs) ∧
      (s.sane = true → ∀ j ∈ s.jobs, onHalted j → j.remote = none → ∀ x ∈ t.jobs, x.id = j.id →
        x.phase = .done ∧ ∃ f, x.fin = some f ∧ f.code = cAborted ∧ f.detail = 0x22)) ∧
  (∀ (s : State) (d : Bytes), s.reach .lcs → s.lcsCode ≠ 7 → s.lcs.cmd.st ≠ 1 → s.lcs.pending = false →
    let b := Bytes.fit d s.lcsLen
    let ended := fun (t : State) (c dt : Nat) => t.lcs = { s.lcs with cmd := { st := 2, code := c, detail := dt } } ∧ t.vault = s.vault
    let judged := fun (t : State) (l : List SigBlock) =>
      if Bytes.at b 7 ≠ s.lcsCode ∨ Bytes.le b 0x38 4 ≠ s.glb.pcc ∨ s.nonceNow = false ∨ Bytes.sub b 0x18 32 ≠ s.lcs.nonce then
        ended t cWindow 1
      else if Bytes.at b 6 &&& (15 - s.scopes.1) ≠ 0 ∨ s.rangeBad b = true then ended t cForbids 0x44
      else if s.lcsCode = 4 ∧ bit (Bytes.at b 6) 1 = true then
        WasReset s t .tamper 0 ∧ t.lcs.grantStaged = some (grantOf b l) ∧ t.vault.epoch = s.vault.epoch + 1
      else
        t.lcs = { s.lcs with
          nonceLive := false, grant := some { grantOf b l with tOpen := s.tick }, grantStaged := none, cmd := { st := 2, code := cOK } } ∧
        t.vault = s.vault ∧ t.jobs = s.jobs
    Completes (.debugOpen (.data d)) s fun t =>
      match grantForm b with
      | none => ended t cBadParam 1
      | some l =>
        if Bytes.sub b 8 16 ≠ uidBytes then ended t cForeign 7
        else match s.signersBad none [s.scopes.2.1] (b.take 96) l with
          | some (c, dt) => ended t c dt
          | none =>
            if s.scopes.2.2 = false then judged t l
            else match s.ownerAppr (s.rg .lcs 0x04C).toNat (sha3_256 (b.take 96)) with
              | .inl dt => ended t cQuorum dt
              | .inr _ => judged t l)

/-- CONFIG, the owner configuration (R355): in OWNED alone, a block that a row refuses changes nothing; one that
stands is held until the next start, with its group 0 record, and the configuration in force stays. -/
def Clause.OwnerConfiguration : Prop :=
  ∀ (s : State) (d : Bytes), s.reach .lcs → s.lcsCode ≠ 7 → s.lcs.cmd.st ≠ 1 → s.lcs.pending = false →
    let b := Bytes.fit d s.lcsLen
    let cur := s.lcs.cfgNext.getD s.lcs.cfg
    let ended := fun (t : State) (c dt : Nat) => t.lcs = { s.lcs with cmd := { st := 2, code := c, detail := dt } }
    (∀ r, s.lcsCode ≠ 3 → Completes (.config r) s fun t => ended t cForbids 0x41) ∧
    (∀ k, s.lcsCode = 3 → Completes (.config (.failed k)) s fun t => ended t cBadAddr 0x13) ∧
    (s.lcsCode = 3 → Completes (.config (.data d)) s fun t =>
      match configForm b with
      | none => ended t cBadParam 1
      | some (msg, rc, l) =>
        if Bytes.sub b 0x20 16 ≠ uidBytes then ended t cForeign 7
        else match s.signersBad none [[3]] msg l with
          | some (c, dt) => ended t c dt
          | none =>
            if Bytes.le b 8 4 ≤ cur.version then ended t cBadParam 0x12
            else if configRange (NMap.find s.vault.groups 0) b rc = true then ended t cBadParam 2
            else if bit cur.mem 1 = true ∧ bit (Bytes.at b 0x0C) 0 ≠ bit cur.mem 0 then ended t cForbids 0x43
            else t.lcs = { s.lcs with
              cfgNext := some (configOf b), groupNext := some (groupOf rc), cmd := { st := 2, code := cOK } })

/-- Debug grants open and close as their rows say; an owner configuration is held for the next start. -/
def Obligations.DebugAndConfiguration : Prop :=
  Clause.DebugGrants ∧ Clause.OwnerConfiguration

/-- TAMPER_EVENT: the sensors of one sample fire (R361, R363 to R365): each latches its bit and is counted; the
highest of their responses is taken: RECORD erases nothing, SQUALL erases keys and tenant groups and steps the epoch,
STORM the Vault but OPTIME, PCC and the generation counters, with the Storm mark; both hard ones pull TAMPER_OUT_N low
and reset a powered core, and leave the mark that the next start reports. -/
def Clause.TamperResponses : Prop :=
  ∀ (s : State) (sensors : List (Fin 16)) (reading : BitVec 16) (bad : Option Nat), s.firing sensors ≠ [] →
    let l := s.firing sensors
    let r := (l.map s.response).foldl Nat.max 0
    Completes (.tamperEvent sensors reading bad) s fun t =>
      (∀ n ∈ l, t.tmp.evt.getLsbD n = true) ∧ (∀ n, s.tmp.evt.getLsbD n = true → t.tmp.evt.getLsbD n = true) ∧
      t.tmp.cnt = l.foldl (fun c _ => satAdd 32 c 1) s.tmp.cnt ∧ t.tmp.lastTick = s.tick ∧
      (r = 0 → t.vault = s.vault ∧ t.ks = s.ks ∧ t.jobs = s.jobs ∧ t.glb = s.glb) ∧
      (1 ≤ r → t.ks.keys = [] ∧ t.ks.filter = [] ∧ t.tmp.outLow = true ∧ t.tmp.resetMark = true ∧ t.lcs.grant = none ∧
        (s.linked = true → WasReset s t .tamper 0 ∧ t.glb.run = .starting ∧ t.glb.tamperReset = true)) ∧
      (r = 1 → t.vault = { s.vault with epoch := s.vault.epoch + 1, groups := s.vault.groups.filter fun p => p.1 = 0 }) ∧
      (2 ≤ r → t.vault = { gens := s.vault.gens } ∧ t.tmp.stormMark = true)

/-- TMP_BATT_SVC_GO, BATT_SVC_WINDOW_END, VBAT_CHANGE and TMP_EVT_CLEAR (R362, R367, R369, R415): GO opens a service
window of 64 to 3,840 ticks; at its end VBAT below 2.4 V fires sensor 14, as its fall below it does outside such a
window; TMP_VBAT follows VBAT and its low mark stands below 2.8 V; ones written to TMP_EVT clear its bits, and with none left after READY TAMPER_OUT_N is released. -/
def Clause.BatteryAndEvents : Prop :=
  (∀ (s : State) (d : BitVec 12) (ok : Bool), s.reach .tmp →
    (64 ≤ d.toNat → d.toNat ≤ 3840 → ok = true → s.pwr.vaon = true → Completes (.tmpBattSvcGo d ok) s fun t =>
      t = { s with tmp := { s.tmp with battEnd := some (s.tick + d.toNat) } }) ∧
    ((d.toNat < 64 ∨ 3840 < d.toNat) → Completes (.tmpBattSvcGo d ok) s fun t =>
      (t.hd .tmp).errCode = cBadParam ∧ t.tmp = s.tmp)) ∧
  (∀ (s : State) (e : Nat) (bad : Option Nat), s.tmp.battEnd = some e → e ≤ s.tick →
    Completes (.battSvcWindowEnd bad) s fun t =>
      t.tmp.battEnd = none ∧ (240 ≤ s.tmp.vbat → t = { s with tmp := { s.tmp with battEnd := none } }) ∧
      (s.tmp.vbat < 240 → t.tmp.evt.getLsbD 14 = true)) ∧
  (∀ (s : State) (v : BitVec 10),
    let fires := v.toNat < 240 ∧ 240 ≤ s.tmp.vbat ∧ s.battHolds = false
    (¬fires → Completes (.vbatChange v) s fun t =>
      t.tmp = { s.tmp with vbat := v.toNat, vbatLow := decide (v.toNat < 280) } ∧ Logged { s with tmp := t.tmp } t) ∧
    (fires → Completes (.vbatChange v) s fun t =>
      t.tmp.vbat = v.toNat ∧ t.tmp.vbatLow = true ∧ t.tmp.evt.getLsbD 14 = true)) ∧
  (∀ (s : State) (m : BitVec 32), s.reach .tmp → Completes (.tmpEvtClear m) s fun t =>
    t = { s with tmp := { s.tmp with
      evt := s.tmp.evt &&& ~~~m
      outLow := if s.tmp.evt &&& ~~~m = 0 ∧ s.tmp.readySince = true then false else s.tmp.outLow } })

/-- Fired sensors take the highest response of a sample; the battery window and TMP_EVT. -/
def Obligations.TamperResponses : Prop :=
  Clause.TamperResponses ∧ Clause.BatteryAndEvents

/-! ### The Ledger (chapter 16) -/

/-- RECORD_WINDOW_CLOSE, FLASH_COMMIT_COMPLETE and FLASH_COMMIT_RESUME (R373, R375, R377): a record whose window has
ended is closed and stays as it was; a write of the region that succeeds leaves none of its records in the buffer, one
that fails counts, the third in a row stops commits for 64 ticks, after which they go on. -/
def Clause.LedgerCommits : Prop :=
  (∀ (s : State) (seq : Nat), Completes (.recordWindowClose seq) s fun t =>
    t = { s with led := { s.led with recs := t.led.recs } } ∧
    t.led.recs = s.led.recs.map fun r => if r.seq = seq ∧ r.winEnd ≤ s.tick then { r with isOpen := false } else r) ∧
  (∀ (s : State), s.commitsRun = true → s.nextBatch ≠ [] →
    (Completes (.flashCommitComplete true) s fun t => ∃ u : State, t = u.wearNote ∧ u = { s with led := u.led } ∧ u.led.flashFails = 0 ∧
      ∀ r ∈ u.led.recs, (∃ x ∈ s.nextBatch, x.seq = r.seq) → ∃ b, r.place = .flash b) ∧
    (s.led.flashFails + 1 < 3 → Completes (.flashCommitComplete false) s fun t =>
      t = { s with led := { s.led with flashFails := s.led.flashFails + 1, curGeneral := t.led.curGeneral, curReserve := t.led.curReserve } }) ∧
    (3 ≤ s.led.flashFails + 1 → Completes (.flashCommitComplete false) s fun t =>
      t.led.flashErr = true ∧ t.led.resumeAt = s.tick + 64 ∧ Logged s t)) ∧
  (∀ (s : State), s.led.flashErr = true → s.led.resumeAt ≤ s.tick → Completes .flashCommitResume s fun t =>
    t = { s with led := { s.led with flashErr := false } })

/-- LEDGER_READ (R382, R383): after the checkpoint that is due, the retained records from START on leave in SEQ order,
at most COUNT of them and within OUT_LEN, each as its reader may see it; RESULT gives the next SEQ and their count.
One that calls for a checkpoint waits for the anchor tile (R409), and where the checkpoint's draw must reseed first for
a pool word (R198). NOP ends OK with OPTIME and the pace (R74). -/
def Clause.LedgerReadAndNop : Prop :=
  (∀ (s : State) (id : Nat) (j : Job) (b : Bound), s.boundJob 0x0F01 id = some (j, b) →
    let v := s.waitOver id
    let u := if 1 ≤ s.led.sinceCp then v.checkpoint else v
    let start := if bit (eB j.entry 0x44) 0 then u.led.oldest else Nat.max (eD j.entry 0x38) u.led.oldest
    (1 ≤ s.led.sinceCp → s.anchorAway = true → ∀ r, Completes (.ledgerRead id r) s fun t => t = s) ∧
    (1 ≤ s.led.sinceCp → s.anchorAway = false → s.intBlocked = true → ∀ r, Completes (.ledgerRead id r) s fun t =>
      id ∈ t.rng.waiters ∧ t = { s with rng := { s.rng with waiters := t.rng.waiters } }) ∧
    ((s.led.sinceCp = 0 ∨ (s.anchorAway = false ∧ s.intBlocked = false)) → Completes (.ledgerRead id {}) s fun t =>
      ∃ (l : List LedRec) (next fl : Nat) (out : Bytes),
      out = (l.map (u.readOne j.slice)).flatten ∧ out.length ≤ eOutLen j.entry ∧ l.length ≤ eW j.entry 0x40 ∧
      (∀ r ∈ l, r ∈ u.led.recs ∧ start ≤ r.seq) ∧ l.Pairwise (fun a b => a.seq ≤ b.seq) ∧
      (s.led.sinceCp = 0 → l <+: u.led.retained.filter fun r => start ≤ r.seq) ∧
      (∀ r, l.getLast? = some r → next = r.seq + 1) ∧ (l = [] → next = start) ∧
      Ends s t j { code := cOK, outLen := out.length, result := toLE 8 next ++ toLE 4 l.length ++ toLE 1 fl ++ zeros 3 } out)) ∧
  (∀ (s : State) (id : Nat) (r : RunEnd) (j : Job) (b : Bound), s.boundJob 0x0F00 id = some (j, b) →
    Completes (.nop id r) s fun t =>
      Ends s t j { code := cOK, result := toLE 6 s.glb.optime ++ toLE 2 s.baro.pace ++ zeros 8 } [])

/-- Records close and are committed; LEDGER_READ gives the retained records in order; NOP reports. -/
def Obligations.LedgerCommitsAndReads : Prop :=
  Clause.LedgerCommits ∧ Clause.LedgerReadAndNop

/-! ### The weather ladder, starts, resets (chapter 17) -/

/-- BREEZE_ENTRY, LADDER_DESCENT and D3HOT_ENTRY (R390): Gale to Breeze while idle unless TARGET is 0, to Lull and
then to Calm as TARGET allows after IDLE_TICKS more with no internal need; warm tables are lost below Breeze (R113);
D3hot with nothing in flight is Lull (R398). -/
def Clause.LadderDescends : Prop :=
  ∀ (s : State), s.ladderOn = true →
    let down := fun (t : State) (x : Ladder) =>
      t.pwr = { s.pwr with ladder := x, idleTick := s.tick } ∧ t.jobs = s.jobs ∧ t.slices = s.slices ∧ t.regs = s.regs
    (s.pwr.ladder = .gale → s.idle = true → s.target ≠ 0 → Completes .breezeEntry s fun t => down t .breeze ∧ t.ks = s.ks) ∧
    (s.target = 0 → Completes .breezeEntry s fun t => t = s) ∧
    (s.pwr.ladder = .breeze → 2 ≤ s.target → s.quiet = true → Completes .ladderDescent s fun t =>
      down t .lull ∧ ∀ p ∈ t.ks.keys, p.2.warmReady = false) ∧
    (s.pwr.ladder = .lull → s.target = 3 → s.quiet = true → Completes .ladderDescent s fun t =>
      down t .calm ∧ ∀ p ∈ t.ks.keys, p.2.warmReady = false) ∧
    (s.pwr.ladder = .gale → s.idle = true → Completes .d3hotEntry s fun t =>
      t.pwr = { s.pwr with d3 := true, ladder := .lull, idleTick := s.tick } ∧ t.jobs = s.jobs) ∧
    (s.pwr.ladder = .gale → s.idle = false → Completes .d3hotEntry s fun t => t = { s with pwr := { s.pwr with d3 := true } })

/-- WAKE_EVENT, GPIO_WAKE, WAKE_TICK_ALARM and SMBUS_WAKE (R392, R396, R434): a wake event ends Breeze at once and
begins the exit from Lull, Calm and Fog with its cause; the sources of PWR_WAKE_EN begin it from Fog and, while VAON
is present, from Frost, as tamper and PERST_N do. -/
def Clause.Waking : Prop :=
  ∀ (s : State) (pin : Fin 16), s.pwr.exiting = false →
    let begun := fun (t : State) (c : WakeCause) => t = { s with pwr := { s.pwr with exiting := true, wake := c.code } }
    let en := s.rg .pwr 0x050
    let sources := [(Instr.gpioWake pin, WakeCause.gpio, en.getLsbD pin.val = true),
      (.wakeTickAlarm, .tick, en.getLsbD 17 = true ∧ s.wakeTick ≤ s.tick), (.smbusWake, .smbus, en.getLsbD 16 = true ∧ s.pwr.vaon = true)]
    (s.linked = true → s.pwr.ladder = .breeze → ∀ c ∈ [WakeCause.host, .internal, .tamper, .zentulink],
      Completes (.wakeEvent c) s fun t => t.pwr = { s.pwr with ladder := .gale, wake := c.code } ∧ Logged { s with pwr := t.pwr } t) ∧
    (s.linked = true → (s.pwr.ladder = .lull ∨ s.pwr.ladder = .calm ∨ s.pwr.ladder = .fog) →
      ∀ c ∈ [WakeCause.host, .internal, .tamper, .zentulink], Completes (.wakeEvent c) s fun t => begun t c) ∧
    (s.pwr.ladder = .fog → ∀ x ∈ sources, x.2.2 → Completes x.1 s fun t => begun t x.2.1) ∧
    (s.pwr.ladder = .frost → s.pwr.vaon = true →
      (∀ x ∈ sources, x.2.2 → Completes x.1 s fun t => begun t x.2.1) ∧
      (∀ c ∈ [WakeCause.tamper, .perst], Completes (.wakeEvent c) s fun t => begun t c) ∧
      (s.pwr.coreSupply = true → s.isl.jtagHold = false → s.powerUp = false →
        Completes (.systemReset .perstN) s fun t => begun t .perst))

/-- The ladder descends by R390 and wakes by R392 and R396. -/
def Obligations.LadderMoves : Prop :=
  Clause.LadderDescends ∧ Clause.Waking

/-- LADDER_EXIT_COMPLETE, D0_RETURN and FROST_EXIT (R203, R204, R393, R397, R398): the exit from Lull, Calm, or Fog
once the random service has started ends in Gale with WAKE kept, and the requests held during it are then served in
their order; where the service does not start RUN keeps its value and it is tried again 64 ticks later; D0 lifts D3hot;
an exit from Frost is a start of its own class that PCC counts and that sets STATE_LOST. -/
def Obligations.LadderExits : Prop :=
  (∀ (s : State) (env : StartEnv), s.pwr.exiting = true → s.linked = true → s.mute = false →
    ((s.pwr.ladder = .lull ∨ s.pwr.ladder = .calm) → Completes (.ladderExitComplete env) s fun t =>
      ∃ u, Logged { s with held := [], pwr := { s.pwr with ladder := .gale, exiting := false } } u ∧
        t = s.held.foldl (fun a c => hostEffect c a) u) ∧
    (s.pwr.ladder = .fog → s.rng.startFailed = false → rngStartCause s env = none → s.held = [] →
      Completes (.ladderExitComplete env) s fun t =>
        t.pwr.ladder = .gale ∧ t.pwr.exiting = false ∧ t.pwr.wake = s.pwr.wake ∧ (s.running = true → t.glb.run = .ready) ∧
        t.rng.es = .healthy ∧ t.jobs = s.jobs ∧ t.regs = s.regs) ∧
    (s.pwr.ladder = .fog → s.rng.startFailed = false → ∀ c, rngStartCause s env = some c →
      Completes (.ladderExitComplete env) s fun t =>
        t.pwr = s.pwr ∧ t.glb.run = s.glb.run ∧ t.rng.startFailed = true ∧ t.rng.startRetry = s.tick + 64 ∧ t.isl.cause = c ∧
        t.held = s.held ∧ t.jobs = s.jobs ∧ t.regs = s.regs)) ∧
  (∀ (s : State), s.pwr.d3 = true → s.linked = true → s.mute = false → s.held = [] → Completes .d0Return s fun t =>
    t.pwr.d3 = false ∧ (s.pwr.ladder = .lull ∨ s.pwr.ladder = .calm → t.pwr.ladder = .gale) ∧
    (s.pwr.ladder = .fog → t.pwr.exiting = true) ∧ t.regs = s.regs) ∧
  (∀ (s : State) (env : StartEnv), s.pwr.ladder = .frost → s.pwr.exiting = true → s.pwr.pfwLow = false →
    s.interrupted = none → Completes (.frostExit env) s fun t =>
      t.glb.stateLost = true ∧ t.glb.pcc = (s.glb.pcc + 1) % 2 ^ 32 ∧ t.pwr.reset = .frostExit ∧ t.pwr.ladder = .gale ∧
      t.glb.optime = s.glb.optime)

/-- ENTER_FOG, ENTER_FROST, DRAIN_LIMIT and DEEP_ENTRY_AFTER_DRAIN (R395, R396): a condition of R395 refuses the
command and changes nothing else; else it runs until the drain has ended; DRAIN_LIMIT ends what still runs as ABORTED;
then the unit is in Fog with no DRBG instance running, or in Frost with every supply but the island's gone, which waits
while the Ledger's commits are stopped (R377). -/
def Obligations.DeepSleep : Prop :=
  (∀ (s : State), s.reach .pwr → ∀ x ∈ [(Instr.enterFog, Ladder.fog), (.enterFrost, .frost)],
    Completes x.1 s fun t => match s.deepBad true with
      | some (c, d) => t = s.pwrRes c d
      | none => t = { s with pwr := { s.pwr with cmd := { st := 1 }, deep := some x.2, abortedByDrain := 0 } }) ∧
  (∀ (s : State), s.linked = true → s.mute = false → s.sane = true → (s.pwr.deep ≠ none ∨ s.pwr.d3 = true) →
    Completes .drainLimit s fun t =>
      (∀ x ∈ t.jobs, x.phase = .done) ∧ (∀ sl k, sl < 4096 → k < 2 → (t.teller sl k).st ≠ 1) ∧
      t.pwr.abortedByDrain =
        s.pwr.abortedByDrain + (s.jobs.filter fun j => j.phase != .done).length + s.busyTellers.length) ∧
  (∀ (s : State), s.linked = true → s.mute = false → s.running = true → s.drained = true →
    (s.pwr.deep = some .fog → Completes .deepEntryAfterDrain s fun t =>
      t.pwr.ladder = .fog ∧ t.pwr.deep = none ∧ t.pwr.cmd = { st := 2 } ∧ (∀ n, n < 8 → (t.inst n).st ≠ .running) ∧
      (∀ p ∈ t.ks.keys, p.2.warmReady = false) ∧ t.regs = s.regs) ∧
    (s.pwr.deep = some .frost → s.led.flashErr = true → Completes .deepEntryAfterDrain s fun t => t = s) ∧
    (s.pwr.deep = some .frost → s.led.flashErr = false → Completes .deepEntryAfterDrain s fun t =>
      t.pwr.ladder = .frost ∧ t.glb.run = .starting ∧ t.slices = [] ∧ t.jobs = [] ∧ t.ks.keys = [] ∧
      t.pwr.resumeDigest = s.svc.started ∧ t.vault = s.vault ∧ t.lcs.recs = s.lcs.recs))

/-- COLD_START, RNG_START_RETRY and DRAM_TRAINING_RETRY (R402, R403, R413, R430, R432, Table 17.3): a start whose
images verify, whose random service starts and whose DRAM trains reaches READY or DEGRADED with slice 0 ACTIVE, the
line of step 10 the last that UART_TX sends, from step 1, or from where a failed random service or DRAM training
repeats it; a failure of either is repeated 64 ticks later; an image class with no copy that verifies halts the unit; a
life-cycle transition that power cut short is finished first, with its own reset (R353). -/
def Obligations.StartReachesReady : Prop :=
  ∀ (s : State) (env : StartEnv), s.glb.run = .starting →
    let images := fun (l : List Nat) =>
      ∀ n ∈ l, ((s.imgClass n).select (env.copySel.getD n true) (env.copySpare.getD n true)).isSome = true
    let dram := env.dram0 = true ∧ (env.gib1 = 0 ∨ env.dram1 = true)
    let up := fun (t : State) => t.running = true ∧ (t.slice 0).st = .active ∧ t.pwr.startStep = 10 ∧ t.out.getLast? = some (.uart 10 t.isl.cause) ∧ t.pwr.configUp = true ∧ t.lcs.recs = s.lcs.recs
    let cold := s.pwr.pfwLow = false ∧ s.isl.jtagHold = false ∧ s.pwr.ladder ≠ .frost ∧
      (s.pwr.coreSupply = false ∨ (s.pwr.startStep = 0 ∧ s.rng.startFailed = false)) ∧ s.tmp.stormMark = false ∧
      s.tmp.eraseFail = false ∧ s.lcsWhole = true ∧ s.lcsCode ≠ 7
    (cold → images [0, 1, 2, 3] → rngStartCause s env = none → dram → Completes (.coldStart env) s fun t =>
      up t ∧ t.readyPin = true ∧ t.glb.pcc = (if s.pwr.coreSupply = true ∧ s.pwr.reset ≠ .powerOn then s.glb.pcc else (s.glb.pcc + 1) % 2 ^ 32)) ∧
    (cold → (s.pwr.coreSupply = false ∨ s.pwr.reset ≠ .frostExit) →
      (s.imgClass 0).select (env.copySel.getD 0 true) (env.copySpare.getD 0 true) = none → Completes (.coldStart env) s fun t =>
        t.glb.run = .halted ∧ t.isl.cause = 0x10) ∧
    (s.pwr.pfwLow = false → s.isl.jtagHold = false → s.pwr.ladder ≠ .frost → s.pwr.coreSupply = false → ∀ to_ n,
      s.interrupted = some (to_, n) → Completes (.coldStart env) s fun t =>
        NMap.find t.lcs.recs n = some { code := to_, ncode := 15 - to_, commit := 3 } ∧ t.lcs.staged = none ∧
        t.pwr.reset = .lifeCycle ∧ t.glb.run = (if to_ = 7 then .halted else .starting)) ∧
    (s.rng.startFailed = true → s.pwr.ladder ≠ .fog → s.rng.startRetry ≤ s.tick → s.mute = false →
      (images [1, 2, 3] → rngStartCause s env = none → dram → Completes (.rngStartRetry env) s up) ∧
      (∀ c, rngStartCause s env = some c → Completes (.rngStartRetry env) s fun t =>
        t.rng.startFailed = true ∧ t.rng.startRetry = s.tick + 64 ∧ t.glb.run = .starting ∧ t.isl.cause = c)) ∧
    (s.pwr.startStep = 4 → s.pwr.trainRetry ≤ s.tick → s.mute = false →
      (images [1, 2, 3] → dram → Completes (.dramTrainingRetry env) s up) ∧
      (env.dram0 = false → Completes (.dramTrainingRetry env) s fun t =>
        t.pwr.trainRetry = s.tick + 64 ∧ t.glb.run = .starting ∧ t.isl.cause = 0x20))

/-- SYSTEM_RESET, PFW_FALL, PFW_RISE, POWER_FAIL_RESET, CORE_SUPPLY_LOSS, VAON_LOSS and VAON_RETURN (R399 to R401,
R394): a SYSTEM reset and the reset that follows a passing dip of PFW_N leave the Vault and the life cycle; PFW_N
falling is counted and flushes the Ledger's buffer to staging; with the core supplies gone nothing is left but the
island, the Vault, flash and antifuse, and a loss that PFW_N does not announce fires sensor 9 (R429); VAON comes and
goes alone, but takes a battery-service window's hold on sensor 14 with it (R362). -/
def Obligations.ResetsAndSupplies : Prop :=
  ∀ (s : State),
    let kept := fun (t : State) => t.vault = s.vault ∧ t.lcs.recs = s.lcs.recs ∧ t.glb.run = .starting ∧ t.tmp.evt = s.tmp.evt
    (∀ c : SysCause, s.isl.jtagHold = false → s.powerUp = false → (c = .linkDown → s.pwr.ladder ≠ .fog) →
      (s.linked = true ∨ (s.pwr.coreSupply = true ∧ s.pwr.ladder = .frost ∧ c = .sysResetN)) →
      Completes (.systemReset c) s fun t => WasReset s t .system c.code ∧ kept t) ∧
    (s.powerUp = true → ∀ c, Completes (.systemReset c) s fun t => t = s) ∧
    (s.pwr.pfwLow = false → Completes .pfwFall s fun t =>
      t.pwr = { s.pwr with pfwLow := true, pfwRiseSeen := false, pfwCnt := satAdd 32 s.pwr.pfwCnt 1 } ∧
      (s.led.flushing = false → ∀ r ∈ t.led.recs, r.place ≠ .buffer) ∧ t = { s with pwr := t.pwr, led := t.led }) ∧
    (s.pwr.pfwLow = true → s.linked = true → Completes (.pfwRise true) s fun t =>
      t = { s with pwr := { s.pwr with pfwRiseSeen := true } }) ∧
    (s.pwr.pfwRiseSeen = true → s.linked = true → Completes .powerFailReset s fun t =>
      WasReset s t .powerFail 0 ∧ kept t ∧ t.pwr.pfwLow = false ∧ t.pwr.pfwRiseSeen = false) ∧
    (s.linked = true → ∀ w : Bool, Completes (.coreSupplyLoss w) s fun t =>
      t.pwr.coreSupply = false ∧ t.slices = [] ∧ t.jobs = [] ∧ t.ks.keys = [] ∧ t.regs = [] ∧ t.isl.jtagIr = 0x01 ∧
      t.glb.run = .starting ∧ t.glb.optime = s.glb.optime ∧
      (w = true ∨ s.sensorOn 9 = false → kept t ∧ t.glb.pcc = s.glb.pcc) ∧
      (w = false → s.sensorOn 9 = true → t.tmp.evt.getLsbD 9 = true)) ∧
    (s.battHolds = false ∨ 240 ≤ s.tmp.vbat → Completes .vaonLoss s fun t => t = { s with pwr := { s.pwr with vaon := false } }) ∧
    (s.battHolds = true → s.tmp.vbat < 240 → Completes .vaonLoss s fun t => t.pwr.vaon = false ∧ t.tmp.evt.getLsbD 14 = true) ∧
    (Completes .vaonReturn s fun t => t = { s with pwr := { s.pwr with vaon := true } })

/-! ### Servicing (chapter 18) and what the board reaches (chapter 20) -/

/-- The servicing interface takes a command: its page answers and none runs. -/
def svcReady (s : State) : Prop := s.reach (.core 0) ∧ s.svc.cmd.st ≠ 1 ∧ s.sane = true

/-- INSTALL, COMMIT and ABANDON (R406 to R408, R411, R412): an image that a row of Table 18.3 refuses leaves every
copy; one that passes stands in the spare copy with PENDING set; COMMIT puts the staged image (the spare copy, or the
copy in use where a start selected it, R413) into both copies and raises the counter to its ARB once every instance
runs it, ABANDON puts the image in use back while none does. No other class changes. -/
def Clause.ImagesServiced : Prop :=
  ∀ (s : State), svcReady s →
    let c := s.argClass
    let k := s.imgClass c
    let i := if k.taken then k.sel else k.spare
    let ended := fun (t : State) (x d : Nat) => t.svc = { s.svc with cmd := { st := 2, code := x, detail := d } }
    let became := fun (t : State) (n : ImageClass) =>
      t.imgClass c = n ∧ (∀ i, i ≠ c → t.imgClass i = s.imgClass i) ∧ t.svc.cmd = { st := 2, code := cOK } ∧ t.jobs = s.jobs ∧ t.regs = s.regs
    (∀ k ok, Completes (.install (.failed k) ok) s fun t => ended t cBadAddr 0x13) ∧
    (∀ (d : Bytes) (ok : Bool), let b := Bytes.fit d (fld (s.rg (.core 0) 0x110) 0 24)
      Completes (.install (.data d) ok) s fun t => match s.installBad b with
        | some (x, dt) => ended t x dt
        | none => if ok = false then ended t cMemory 0x10 else became t { k with spare := imageOf b, pending := true, taken := false }) ∧
    (Completes .commit s fun t =>
      if k.pending = true ∧ (s.versions c).all (fun v => v = i.ver) = true then
        became t { sel := i, spare := i, arb := Nat.max k.arb i.arb }
      else ended t cForbids 0x77) ∧
    (Completes .abandon s fun t =>
      if k.pending = true ∧ (s.versions c).any (fun v => v = i.ver) = false then
        became t { sel := k.sel, spare := k.sel, arb := k.arb } ∧ t.led = (s.svcRec c i.ver k.arb).led
      else ended t cForbids 0x78)

/-- ACTIVATE and ACTIVATION_COMPLETE (R410): a core that no row of Table 18.4 refuses reads SERVICING with no
partitions left on it; once it has nothing in hand it runs the staged image and leaves SERVICING. -/
def Clause.CoresActivated : Prop :=
  (∀ (s : State), svcReady s → Completes .activate s fun t => match s.activateBad with
    | some (x, d) => t.svc = { s.svc with cmd := { st := 2, code := x, detail := d } }
    | none => (t.core s.argTarget).servicing = true ∧ (t.core s.argTarget).parts = 0 ∧ t.svc.cmd = { st := 2, code := cOK } ∧
        ∀ n, (t.core n).fwVer = (s.core n).fwVer) ∧
  (∀ (s : State) (n : Fin 16), s.linked = true → s.mute = false → (s.core n.val).servicing = true → s.coreWorks n.val = false →
    let i := (s.imgClass (if n.val < 4 then 0 else 1)).stagedImg
    Completes (.activationComplete n) s fun t =>
      t.core n.val = { s.core n.val with servicing := false, fwVer := i.ver, compat := i.compat } ∧
      (∀ k, k ≠ n.val → t.core k = s.core k) ∧ t.jobs = s.jobs)

/-- ROTATE and ROTATION_COMPLETE (R340, R414): the keys of the key store and the reserve are no rotation's targets; a
rotation takes a KeyID of the reserve, and ends with the pages' entries naming it and the old KeyID retired into the
reserve, counted. -/
def Clause.KeyIdsRotate : Prop :=
  (∀ (s : State), svcReady s →
    let g := s.argTarget
    let ended := fun (t : State) (x d : Nat) => t.svc = { s.svc with cmd := { st := 2, code := x, detail := d } } ∧ t.mem = s.mem
    Completes .rotate s fun t =>
      if (1 ≤ g ∧ g ≤ 17) ∨ g ∈ s.mem.reserve then ended t cBadParam 2
      else if s.mem.keyIdMode = false then ended t cForbids 1
      else if s.ks.compBusy = true ∨ s.svc.rotBusy = true then ended t cForbids 0x79
      else match s.mem.reserve.head? with
        | none => ended t cForbids 0x7A
        | some n => t.svc.rotBusy = true ∧ t.svc.rotKey = g ∧ t.svc.rotNew = n ∧ t.svc.cmd = { st := 2, code := cOK } ∧
            (s.drawReady = true → n ∈ t.mem.act)) ∧
  (∀ (s : State), s.svc.rotBusy = true → s.linked = true → s.mute = false → s.mem.act.contains s.svc.rotNew = true →
    Completes .rotationComplete s fun t =>
      t.svc.rotBusy = false ∧ s.svc.rotKey ∉ t.mem.act ∧ s.svc.rotKey ∈ t.mem.reserve ∧
      (∀ p e, NMap.find s.mem.pot p = some e → e.keyId = s.svc.rotKey →
        ∃ e', NMap.find t.mem.pot p = some e' ∧ e'.keyId = s.svc.rotNew) ∧
      t.mem.retireCnt = satAdd 32 s.mem.retireCnt 1 ∧ t.jobs = s.jobs ∧ t.ks = s.ks)

/-- Images are installed, activated, committed and abandoned; KeyIDs rotate into the reserve. -/
def Obligations.Servicing : Prop :=
  Clause.ImagesServiced ∧ Clause.CoresActivated ∧ Clause.KeyIdsRotate

/-- SMBUS_STATUS, SMBUS_UID, CONFIGURATION_REQUEST, EXTEST, CLAMP, HIGHZ, IDCODE, SAMPLE_PRELOAD, DEBUG and BYPASS
(R25, R29, R403, R434, R437): STATUS answers its 16 octets and releases SMB_ALERT_N, UID answers the UID, while VAON
is present; a configuration request is answered with retry status until the function answers, then with its words, the
class code and BAR 1's zero among them, and a write of BAR 0 keeps the address bits above the window; EXTEST, CLAMP
and HIGHZ hold the unit in a SYSTEM reset with the pins driven or floating, or in the reset that holds it already; the
other test instructions leave it running. -/
def Obligations.BoardAccess : Prop :=
  ∀ (s : State),
    (s.pwr.vaon = true → (Completes .smbusStatus s fun t =>
        t = { s with isl := { s.isl with smbAlert := false }, out := s.out ++ [.smbus s.smbStatus] } ∧ s.smbStatus.length = 16) ∧
      Completes .smbusUid s fun t => t = { s with out := s.out ++ [.smbus uidBytes] }) ∧
    (s.linked = true →
      (Completes .configurationRequest s fun t => t = { s with out := s.out ++ [.config (if s.pwr.configUp then some s.configSpace else none)] }) ∧
      s.configSpace[2]? = some 0x108000B0 ∧ s.configSpace[5]? = some 0 ∧
      (s.pwr.configUp = true → ∀ data : BitVec 64, Completes (.registerWrite .config 0x10 0x0F data) s fun t =>
        t = { s with pci := { s.pci with bar0 := data.toNat % 2 ^ 32 / 2 ^ 24 * 2 ^ 24 }, out := s.out ++ [.config (some [])] }) ∧
      (∀ c : Bytes,
        ∀ x ∈ [(Instr.extest c, 0x00, c, c, false), (.clamp, 0x04, s.isl.bscan, s.isl.bscan, false), (.highz, 0x05, s.isl.bscan, [], true)],
          let isl : Island := { s.isl with jtagIr := x.2.1, jtagHold := true, bscan := x.2.2.1, bsDrive := x.2.2.2.1, floats := x.2.2.2.2 }
          (s.isl.jtagHold = false → s.powerUp = false → Completes x.1 s fun t =>
            WasReset s t .system SysCause.jtag.code ∧ t.vault = s.vault ∧ t.isl = isl) ∧
          ((s.isl.jtagHold = true ∨ s.powerUp = true) → Completes x.1 s fun t => t = { s with isl := isl })) ∧
      (let load := fun (ir : Nat) => { s with isl := { s.isl with jtagIr := ir, jtagHold := false, bsDrive := [], floats := false } }
       (Completes .idcode s fun t => t = { load 0x01 with out := s.out ++ [.jtag (toLE 4 0x109405CF)] }) ∧
       (∀ pins cells : Bytes, Completes (.samplePreload pins cells) s fun t =>
         t = { load 0x02 with isl := { (load 0x02).isl with bscan := cells }, out := s.out ++ [.jtag pins] }) ∧
       (Completes .debugInstr s fun t => t = load 0x20) ∧
       (∀ code : BitVec 8, Completes (.bypass code) s fun t => t = load 0xFF)))

/-! ### Invariants -/

/-- The life-cycle antifuse (R348): from every state whose records are whole, a step leaves them whole, and no record
that was burned ever changes: a cell once burned stays burned. -/
def Obligations.LifeCycleRecordsOnlyGrow : Prop :=
  ∀ (s t : State), s.lcsWhole = true → step s = .next t →
    t.lcsWhole = true ∧ ∀ n r, NMap.find s.lcs.recs n = some r → NMap.find t.lcs.recs n = some r

/-- From every state of the right shape, a step leaves a state of the right shape: maps in canonical form, keys at the
places their handles name, two tellers a slice, job numbers never given twice (R214, R215). -/
def Obligations.ShapeKept : Prop :=
  ∀ (s t : State), s.sane = true → step s = .next t → t.sane = true

/-- The machine right after reset: RUN reads STARTING and only GLB answers (R40), the ladder is in Gale, nothing is
queued, no slice is occupied and no key stands; READY is low; both invariants hold. That the life cycle is BLANK there
and PCC reads 0 is the model's choice (assumption 30). -/
def Obligations.ResetState : Prop :=
  let s := State.reset
  s.sane = true ∧ s.lcsWhole = true ∧ s.glb.run = .starting ∧ s.pwr.ladder = .gale ∧ s.pending = [] ∧ s.slices = [] ∧
    s.ks.keys = [] ∧ s.jobs = [] ∧ s.lcsCode = 0 ∧ s.glb.pcc = 0 ∧ s.readyPin = false ∧ s.tmp.evt = 0 ∧ ∀ p, s.pageAnswers p = true ↔ p = .glb
end

