-- ==== Sys2Proof/Laws/Ledger.lean ====
section
/-! SUPPORT. The retained records: which they are, and that they stand in SEQ order. -/
namespace Sys2Proof.Laws
open Sys2Proof Sys2Proof.Machine

theorem mem_seqInsert {a r : LedRec} {l : List LedRec} : a ∈ seqInsert r l ↔ a = r ∨ a ∈ l := by
  induction l with
  | nil => simp [seqInsert]
  | cons x l ih =>
    simp only [seqInsert]
    split
    · simp
    · simp [ih, or_left_comm]

theorem seqInsert_sorted {r : LedRec} {l : List LedRec} (h : l.Pairwise fun a b => a.seq ≤ b.seq) :
    (seqInsert r l).Pairwise fun a b => a.seq ≤ b.seq := by
  induction l with
  | nil => simp [seqInsert]
  | cons x l ih =>
    have hx := List.pairwise_cons.1 h
    simp only [seqInsert]
    split
    · rename_i hr
      refine List.pairwise_cons.2 ⟨fun b hb => ?_, h⟩
      rcases List.mem_cons.1 hb with rfl | hb
      · exact hr
      · exact Nat.le_trans hr (hx.1 b hb)
    · rename_i hr
      refine List.pairwise_cons.2 ⟨fun b hb => ?_, ih hx.2⟩
      rcases mem_seqInsert.1 hb with rfl | hb
      · omega
      · exact hx.1 b hb

/-- The retained records are the Ledger's records. -/
theorem mem_retained {g : Ledger} {a : LedRec} : a ∈ g.retained ↔ a ∈ g.recs := by
  unfold Ledger.retained
  induction g.recs with
  | nil => simp
  | cons x l ih => simp [mem_seqInsert, ih]

/-- They stand in SEQ order. -/
theorem retained_sorted (g : Ledger) : g.retained.Pairwise fun a b => a.seq ≤ b.seq := by
  unfold Ledger.retained
  induction g.recs with
  | nil => simp
  | cons x l ih => exact seqInsert_sorted ih

end Sys2Proof.Laws
end

