-- ==== Sys2Proof/Laws/Map.lean ====
section
/-! SUPPORT. The laws of sparse maps: read after set and delete, and the canonical form that every operation keeps. -/
namespace Sys2Proof.Laws
open Sys2Proof

variable {α β : Type}

@[simp] theorem find_nil (k : Nat) : NMap.find ([] : NMap α) k = none := rfl

@[simp] theorem find_set_self (m : NMap α) (k : Nat) (v : α) : NMap.find (NMap.set m k v) k = some v := by
  induction m with
  | nil => simp [NMap.set, NMap.find]
  | cons p t ih =>
    obtain ⟨a, w⟩ := p
    unfold NMap.set
    split
    · simp [NMap.find]
    · split
      · simp [NMap.find]
      · rename_i h1 h2
        simp [NMap.find, h2, ih]

theorem find_set_ne (m : NMap α) {k l : Nat} (v : α) (h : l ≠ k) : NMap.find (NMap.set m k v) l = NMap.find m l := by
  induction m with
  | nil => simp [NMap.set, NMap.find, Ne.symm h]
  | cons p t ih =>
    obtain ⟨a, w⟩ := p
    unfold NMap.set
    split
    · simp [NMap.find, Ne.symm h]
    · split
      · rename_i h1 h2
        subst h2
        simp [NMap.find, Ne.symm h]
      · simp [NMap.find, ih]

@[simp] theorem getD_set_self (m : NMap α) (k : Nat) (v d : α) : NMap.getD (NMap.set m k v) k d = v := by
  simp [NMap.getD]

theorem getD_set_ne (m : NMap α) {k l : Nat} (v d : α) (h : l ≠ k) : NMap.getD (NMap.set m k v) l d = NMap.getD m l d := by
  simp [NMap.getD, find_set_ne m v h]

theorem find_filter (m : NMap α) (q : Nat → Bool) (k : Nat) (h : q k = true) :
    NMap.find (m.filter fun p => q p.1) k = NMap.find m k := by
  induction m with
  | nil => rfl
  | cons p t ih =>
    obtain ⟨a, w⟩ := p
    by_cases ha : q a = true
    · simp [List.filter, ha, NMap.find, ih]
    · have : a ≠ k := fun e => ha (e ▸ h)
      simp [List.filter, ha, NMap.find, ih, this]

theorem find_eq_none (m : NMap α) (k : Nat) (h : ∀ p ∈ m, p.1 ≠ k) : NMap.find m k = none := by
  induction m with
  | nil => rfl
  | cons p t ih =>
    obtain ⟨a, w⟩ := p
    have h1 : a ≠ k := h (a, w) (by simp)
    simp only [NMap.find, h1, if_false]
    exact ih fun q hq => h q (by simp [hq])

@[simp] theorem find_del_self (m : NMap α) (k : Nat) : NMap.find (NMap.del m k) k = none :=
  find_eq_none _ _ fun p hp => by simpa using (List.mem_filter.1 hp).2

theorem find_del_ne (m : NMap α) {k l : Nat} (h : l ≠ k) : NMap.find (NMap.del m k) l = NMap.find m l :=
  find_filter m (fun a => a != k) l (by simpa using h)

theorem mem_of_find {m : NMap α} {k : Nat} {v : α} (h : NMap.find m k = some v) : (k, v) ∈ m := by
  induction m with
  | nil => simp at h
  | cons p t ih =>
    obtain ⟨a, w⟩ := p
    simp only [NMap.find] at h
    split at h
    · rename_i e; subst e; cases h; simp
    · exact List.mem_cons_of_mem _ (ih h)

/-- What a map holds after a set was there before, or is what was set. -/
theorem mem_set {m : NMap α} {k : Nat} {v : α} {p : Nat × α} (h : p ∈ NMap.set m k v) : p = (k, v) ∨ p ∈ m := by
  induction m with
  | nil => left; simpa [NMap.set] using h
  | cons q t ih =>
    obtain ⟨a, w⟩ := q
    unfold NMap.set at h
    split at h
    · rcases List.mem_cons.1 h with h | h
      · exact .inl h
      · exact .inr h
    · split at h
      · rcases List.mem_cons.1 h with h | h
        · exact .inl h
        · exact .inr (List.mem_cons_of_mem _ h)
      · rcases List.mem_cons.1 h with h | h
        · exact .inr (h ▸ List.mem_cons_self ..)
        · rcases ih h with h | h
          · exact .inl h
          · exact .inr (List.mem_cons_of_mem _ h)

theorem wf_iff (m : NMap α) : NMap.wf m = true ↔ m.Pairwise fun a b => a.1 < b.1 := by simp [NMap.wf]

theorem wf_nil : NMap.wf ([] : NMap α) = true := by simp [NMap.wf]

theorem wf_set {m : NMap α} (k : Nat) (v : α) (h : NMap.wf m = true) : NMap.wf (NMap.set m k v) = true := by
  rw [wf_iff] at *
  induction m with
  | nil => simp [NMap.set]
  | cons p t ih =>
    obtain ⟨a, w⟩ := p
    have ⟨h1, h2⟩ := List.pairwise_cons.1 h
    unfold NMap.set
    split
    · rename_i hk
      refine List.pairwise_cons.2 ⟨fun q hq => ?_, h⟩
      rcases List.mem_cons.1 hq with e | e
      · subst e; exact hk
      · exact Nat.lt_trans hk (h1 q e)
    · split
      · rename_i _ e
        subst e
        exact List.pairwise_cons.2 ⟨h1, h2⟩
      · rename_i g1 g2
        refine List.pairwise_cons.2 ⟨fun q hq => ?_, ih h2⟩
        rcases mem_set hq with e | e
        · subst e; show a < k; omega
        · exact h1 q e

theorem wf_filter {m : NMap α} (q : Nat × α → Bool) (h : NMap.wf m = true) : NMap.wf (m.filter q) = true := by
  rw [wf_iff] at *
  exact h.filter q

theorem wf_del {m : NMap α} (k : Nat) (h : NMap.wf m = true) : NMap.wf (NMap.del m k) = true := wf_filter _ h

theorem wf_mapV {m : NMap α} (f : Nat → α → β) (h : NMap.wf m = true) : NMap.wf (NMap.mapV m f) = true := by
  rw [wf_iff] at *
  exact List.pairwise_map.2 h

/-- In a map of the canonical form, what is listed is what is found. -/
theorem find_of_mem {m : NMap α} {k : Nat} {v : α} (h : NMap.wf m = true) (hm : (k, v) ∈ m) : NMap.find m k = some v := by
  rw [wf_iff] at h
  induction m with
  | nil => simp at hm
  | cons p t ih =>
    obtain ⟨a, w⟩ := p
    have ⟨h1, h2⟩ := List.pairwise_cons.1 h
    rcases List.mem_cons.1 hm with e | e
    · cases e; simp [NMap.find]
    · have : a < k := h1 _ e
      simp [NMap.find, Nat.ne_of_lt this, ih h2 e]

end Sys2Proof.Laws
end

