-- ==== Sys2Proof/Laws/State.lean ====
section
/-! SUPPORT. The frame of every named update of the state: the fields it leaves, one lemma a field; and that a read of what an update wrote gives what it wrote. -/
namespace Sys2Proof.Laws
open Sys2Proof Sys2Proof.Machine

/-! ### `emit` changes `out` -/

@[simp] theorem emit_glb (s : State) (o : Out) : (s.emit o).glb = s.glb := rfl
@[simp] theorem emit_hdr (s : State) (o : Out) : (s.emit o).hdr = s.hdr := rfl
@[simp] theorem emit_regs (s : State) (o : Out) : (s.emit o).regs = s.regs := rfl
@[simp] theorem emit_wideHeld (s : State) (o : Out) : (s.emit o).wideHeld = s.wideHeld := rfl
@[simp] theorem emit_latch (s : State) (o : Out) : (s.emit o).latch = s.latch := rfl
@[simp] theorem emit_msix (s : State) (o : Out) : (s.emit o).msix = s.msix := rfl
@[simp] theorem emit_led (s : State) (o : Out) : (s.emit o).led = s.led := rfl
@[simp] theorem emit_vault (s : State) (o : Out) : (s.emit o).vault = s.vault := rfl
@[simp] theorem emit_ks (s : State) (o : Out) : (s.emit o).ks = s.ks := rfl
@[simp] theorem emit_cus (s : State) (o : Out) : (s.emit o).cus = s.cus := rfl
@[simp] theorem emit_slices (s : State) (o : Out) : (s.emit o).slices = s.slices := rfl
@[simp] theorem emit_slm (s : State) (o : Out) : (s.emit o).slm = s.slm := rfl
@[simp] theorem emit_jobs (s : State) (o : Out) : (s.emit o).jobs = s.jobs := rfl
@[simp] theorem emit_fetches (s : State) (o : Out) : (s.emit o).fetches = s.fetches := rfl
@[simp] theorem emit_qsc (s : State) (o : Out) : (s.emit o).qsc = s.qsc := rfl
@[simp] theorem emit_baro (s : State) (o : Out) : (s.emit o).baro = s.baro := rfl
@[simp] theorem emit_eng (s : State) (o : Out) : (s.emit o).eng = s.eng := rfl
@[simp] theorem emit_rng (s : State) (o : Out) : (s.emit o).rng = s.rng := rfl
@[simp] theorem emit_pwr (s : State) (o : Out) : (s.emit o).pwr = s.pwr := rfl
@[simp] theorem emit_clu (s : State) (o : Out) : (s.emit o).clu = s.clu := rfl
@[simp] theorem emit_zl (s : State) (o : Out) : (s.emit o).zl = s.zl := rfl
@[simp] theorem emit_mpu (s : State) (o : Out) : (s.emit o).mpu = s.mpu := rfl
@[simp] theorem emit_mem (s : State) (o : Out) : (s.emit o).mem = s.mem := rfl
@[simp] theorem emit_svc (s : State) (o : Out) : (s.emit o).svc = s.svc := rfl
@[simp] theorem emit_lcs (s : State) (o : Out) : (s.emit o).lcs = s.lcs := rfl
@[simp] theorem emit_tmp (s : State) (o : Out) : (s.emit o).tmp = s.tmp := rfl
@[simp] theorem emit_isl (s : State) (o : Out) : (s.emit o).isl = s.isl := rfl
@[simp] theorem emit_pci (s : State) (o : Out) : (s.emit o).pci = s.pci := rfl
@[simp] theorem emit_held (s : State) (o : Out) : (s.emit o).held = s.held := rfl
@[simp] theorem emit_freeN (s : State) (o : Out) : (s.emit o).freeN = s.freeN := rfl
@[simp] theorem emit_pending (s : State) (o : Out) : (s.emit o).pending = s.pending := rfl

/-! ### `setHd` changes `hdr` -/

@[simp] theorem setHd_glb (s : State) (p : Page) (h : Hdr) : (s.setHd p h).glb = s.glb := rfl
@[simp] theorem setHd_regs (s : State) (p : Page) (h : Hdr) : (s.setHd p h).regs = s.regs := rfl
@[simp] theorem setHd_wideHeld (s : State) (p : Page) (h : Hdr) : (s.setHd p h).wideHeld = s.wideHeld := rfl
@[simp] theorem setHd_latch (s : State) (p : Page) (h : Hdr) : (s.setHd p h).latch = s.latch := rfl
@[simp] theorem setHd_msix (s : State) (p : Page) (h : Hdr) : (s.setHd p h).msix = s.msix := rfl
@[simp] theorem setHd_led (s : State) (p : Page) (h : Hdr) : (s.setHd p h).led = s.led := rfl
@[simp] theorem setHd_vault (s : State) (p : Page) (h : Hdr) : (s.setHd p h).vault = s.vault := rfl
@[simp] theorem setHd_ks (s : State) (p : Page) (h : Hdr) : (s.setHd p h).ks = s.ks := rfl
@[simp] theorem setHd_cus (s : State) (p : Page) (h : Hdr) : (s.setHd p h).cus = s.cus := rfl
@[simp] theorem setHd_slices (s : State) (p : Page) (h : Hdr) : (s.setHd p h).slices = s.slices := rfl
@[simp] theorem setHd_slm (s : State) (p : Page) (h : Hdr) : (s.setHd p h).slm = s.slm := rfl
@[simp] theorem setHd_jobs (s : State) (p : Page) (h : Hdr) : (s.setHd p h).jobs = s.jobs := rfl
@[simp] theorem setHd_fetches (s : State) (p : Page) (h : Hdr) : (s.setHd p h).fetches = s.fetches := rfl
@[simp] theorem setHd_qsc (s : State) (p : Page) (h : Hdr) : (s.setHd p h).qsc = s.qsc := rfl
@[simp] theorem setHd_baro (s : State) (p : Page) (h : Hdr) : (s.setHd p h).baro = s.baro := rfl
@[simp] theorem setHd_eng (s : State) (p : Page) (h : Hdr) : (s.setHd p h).eng = s.eng := rfl
@[simp] theorem setHd_rng (s : State) (p : Page) (h : Hdr) : (s.setHd p h).rng = s.rng := rfl
@[simp] theorem setHd_pwr (s : State) (p : Page) (h : Hdr) : (s.setHd p h).pwr = s.pwr := rfl
@[simp] theorem setHd_clu (s : State) (p : Page) (h : Hdr) : (s.setHd p h).clu = s.clu := rfl
@[simp] theorem setHd_zl (s : State) (p : Page) (h : Hdr) : (s.setHd p h).zl = s.zl := rfl
@[simp] theorem setHd_mpu (s : State) (p : Page) (h : Hdr) : (s.setHd p h).mpu = s.mpu := rfl
@[simp] theorem setHd_mem (s : State) (p : Page) (h : Hdr) : (s.setHd p h).mem = s.mem := rfl
@[simp] theorem setHd_svc (s : State) (p : Page) (h : Hdr) : (s.setHd p h).svc = s.svc := rfl
@[simp] theorem setHd_lcs (s : State) (p : Page) (h : Hdr) : (s.setHd p h).lcs = s.lcs := rfl
@[simp] theorem setHd_tmp (s : State) (p : Page) (h : Hdr) : (s.setHd p h).tmp = s.tmp := rfl
@[simp] theorem setHd_isl (s : State) (p : Page) (h : Hdr) : (s.setHd p h).isl = s.isl := rfl
@[simp] theorem setHd_pci (s : State) (p : Page) (h : Hdr) : (s.setHd p h).pci = s.pci := rfl
@[simp] theorem setHd_held (s : State) (p : Page) (h : Hdr) : (s.setHd p h).held = s.held := rfl
@[simp] theorem setHd_out (s : State) (p : Page) (h : Hdr) : (s.setHd p h).out = s.out := rfl
@[simp] theorem setHd_freeN (s : State) (p : Page) (h : Hdr) : (s.setHd p h).freeN = s.freeN := rfl
@[simp] theorem setHd_pending (s : State) (p : Page) (h : Hdr) : (s.setHd p h).pending = s.pending := rfl

/-! ### `setSlice` changes `slices` -/

@[simp] theorem setSlice_glb (s : State) (n : Nat) (v : Slice) : (s.setSlice n v).glb = s.glb := rfl
@[simp] theorem setSlice_hdr (s : State) (n : Nat) (v : Slice) : (s.setSlice n v).hdr = s.hdr := rfl
@[simp] theorem setSlice_regs (s : State) (n : Nat) (v : Slice) : (s.setSlice n v).regs = s.regs := rfl
@[simp] theorem setSlice_wideHeld (s : State) (n : Nat) (v : Slice) : (s.setSlice n v).wideHeld = s.wideHeld := rfl
@[simp] theorem setSlice_latch (s : State) (n : Nat) (v : Slice) : (s.setSlice n v).latch = s.latch := rfl
@[simp] theorem setSlice_msix (s : State) (n : Nat) (v : Slice) : (s.setSlice n v).msix = s.msix := rfl
@[simp] theorem setSlice_led (s : State) (n : Nat) (v : Slice) : (s.setSlice n v).led = s.led := rfl
@[simp] theorem setSlice_vault (s : State) (n : Nat) (v : Slice) : (s.setSlice n v).vault = s.vault := rfl
@[simp] theorem setSlice_ks (s : State) (n : Nat) (v : Slice) : (s.setSlice n v).ks = s.ks := rfl
@[simp] theorem setSlice_cus (s : State) (n : Nat) (v : Slice) : (s.setSlice n v).cus = s.cus := rfl
@[simp] theorem setSlice_slm (s : State) (n : Nat) (v : Slice) : (s.setSlice n v).slm = s.slm := rfl
@[simp] theorem setSlice_jobs (s : State) (n : Nat) (v : Slice) : (s.setSlice n v).jobs = s.jobs := rfl
@[simp] theorem setSlice_fetches (s : State) (n : Nat) (v : Slice) : (s.setSlice n v).fetches = s.fetches := rfl
@[simp] theorem setSlice_qsc (s : State) (n : Nat) (v : Slice) : (s.setSlice n v).qsc = s.qsc := rfl
@[simp] theorem setSlice_baro (s : State) (n : Nat) (v : Slice) : (s.setSlice n v).baro = s.baro := rfl
@[simp] theorem setSlice_eng (s : State) (n : Nat) (v : Slice) : (s.setSlice n v).eng = s.eng := rfl
@[simp] theorem setSlice_rng (s : State) (n : Nat) (v : Slice) : (s.setSlice n v).rng = s.rng := rfl
@[simp] theorem setSlice_pwr (s : State) (n : Nat) (v : Slice) : (s.setSlice n v).pwr = s.pwr := rfl
@[simp] theorem setSlice_clu (s : State) (n : Nat) (v : Slice) : (s.setSlice n v).clu = s.clu := rfl
@[simp] theorem setSlice_zl (s : State) (n : Nat) (v : Slice) : (s.setSlice n v).zl = s.zl := rfl
@[simp] theorem setSlice_mpu (s : State) (n : Nat) (v : Slice) : (s.setSlice n v).mpu = s.mpu := rfl
@[simp] theorem setSlice_mem (s : State) (n : Nat) (v : Slice) : (s.setSlice n v).mem = s.mem := rfl
@[simp] theorem setSlice_svc (s : State) (n : Nat) (v : Slice) : (s.setSlice n v).svc = s.svc := rfl
@[simp] theorem setSlice_lcs (s : State) (n : Nat) (v : Slice) : (s.setSlice n v).lcs = s.lcs := rfl
@[simp] theorem setSlice_tmp (s : State) (n : Nat) (v : Slice) : (s.setSlice n v).tmp = s.tmp := rfl
@[simp] theorem setSlice_isl (s : State) (n : Nat) (v : Slice) : (s.setSlice n v).isl = s.isl := rfl
@[simp] theorem setSlice_pci (s : State) (n : Nat) (v : Slice) : (s.setSlice n v).pci = s.pci := rfl
@[simp] theorem setSlice_held (s : State) (n : Nat) (v : Slice) : (s.setSlice n v).held = s.held := rfl
@[simp] theorem setSlice_out (s : State) (n : Nat) (v : Slice) : (s.setSlice n v).out = s.out := rfl
@[simp] theorem setSlice_freeN (s : State) (n : Nat) (v : Slice) : (s.setSlice n v).freeN = s.freeN := rfl
@[simp] theorem setSlice_pending (s : State) (n : Nat) (v : Slice) : (s.setSlice n v).pending = s.pending := rfl

/-! ### `setRg` changes `regs` -/

@[simp] theorem setRg_glb (s : State) (p : Page) (off : Nat) (v : W32) : (s.setRg p off v).glb = s.glb := rfl
@[simp] theorem setRg_hdr (s : State) (p : Page) (off : Nat) (v : W32) : (s.setRg p off v).hdr = s.hdr := rfl
@[simp] theorem setRg_wideHeld (s : State) (p : Page) (off : Nat) (v : W32) : (s.setRg p off v).wideHeld = s.wideHeld := rfl
@[simp] theorem setRg_latch (s : State) (p : Page) (off : Nat) (v : W32) : (s.setRg p off v).latch = s.latch := rfl
@[simp] theorem setRg_msix (s : State) (p : Page) (off : Nat) (v : W32) : (s.setRg p off v).msix = s.msix := rfl
@[simp] theorem setRg_led (s : State) (p : Page) (off : Nat) (v : W32) : (s.setRg p off v).led = s.led := rfl
@[simp] theorem setRg_vault (s : State) (p : Page) (off : Nat) (v : W32) : (s.setRg p off v).vault = s.vault := rfl
@[simp] theorem setRg_ks (s : State) (p : Page) (off : Nat) (v : W32) : (s.setRg p off v).ks = s.ks := rfl
@[simp] theorem setRg_cus (s : State) (p : Page) (off : Nat) (v : W32) : (s.setRg p off v).cus = s.cus := rfl
@[simp] theorem setRg_slices (s : State) (p : Page) (off : Nat) (v : W32) : (s.setRg p off v).slices = s.slices := rfl
@[simp] theorem setRg_slm (s : State) (p : Page) (off : Nat) (v : W32) : (s.setRg p off v).slm = s.slm := rfl
@[simp] theorem setRg_jobs (s : State) (p : Page) (off : Nat) (v : W32) : (s.setRg p off v).jobs = s.jobs := rfl
@[simp] theorem setRg_fetches (s : State) (p : Page) (off : Nat) (v : W32) : (s.setRg p off v).fetches = s.fetches := rfl
@[simp] theorem setRg_qsc (s : State) (p : Page) (off : Nat) (v : W32) : (s.setRg p off v).qsc = s.qsc := rfl
@[simp] theorem setRg_baro (s : State) (p : Page) (off : Nat) (v : W32) : (s.setRg p off v).baro = s.baro := rfl
@[simp] theorem setRg_eng (s : State) (p : Page) (off : Nat) (v : W32) : (s.setRg p off v).eng = s.eng := rfl
@[simp] theorem setRg_rng (s : State) (p : Page) (off : Nat) (v : W32) : (s.setRg p off v).rng = s.rng := rfl
@[simp] theorem setRg_pwr (s : State) (p : Page) (off : Nat) (v : W32) : (s.setRg p off v).pwr = s.pwr := rfl
@[simp] theorem setRg_clu (s : State) (p : Page) (off : Nat) (v : W32) : (s.setRg p off v).clu = s.clu := rfl
@[simp] theorem setRg_zl (s : State) (p : Page) (off : Nat) (v : W32) : (s.setRg p off v).zl = s.zl := rfl
@[simp] theorem setRg_mpu (s : State) (p : Page) (off : Nat) (v : W32) : (s.setRg p off v).mpu = s.mpu := rfl
@[simp] theorem setRg_mem (s : State) (p : Page) (off : Nat) (v : W32) : (s.setRg p off v).mem = s.mem := rfl
@[simp] theorem setRg_svc (s : State) (p : Page) (off : Nat) (v : W32) : (s.setRg p off v).svc = s.svc := rfl
@[simp] theorem setRg_lcs (s : State) (p : Page) (off : Nat) (v : W32) : (s.setRg p off v).lcs = s.lcs := rfl
@[simp] theorem setRg_tmp (s : State) (p : Page) (off : Nat) (v : W32) : (s.setRg p off v).tmp = s.tmp := rfl
@[simp] theorem setRg_isl (s : State) (p : Page) (off : Nat) (v : W32) : (s.setRg p off v).isl = s.isl := rfl
@[simp] theorem setRg_pci (s : State) (p : Page) (off : Nat) (v : W32) : (s.setRg p off v).pci = s.pci := rfl
@[simp] theorem setRg_held (s : State) (p : Page) (off : Nat) (v : W32) : (s.setRg p off v).held = s.held := rfl
@[simp] theorem setRg_out (s : State) (p : Page) (off : Nat) (v : W32) : (s.setRg p off v).out = s.out := rfl
@[simp] theorem setRg_freeN (s : State) (p : Page) (off : Nat) (v : W32) : (s.setRg p off v).freeN = s.freeN := rfl
@[simp] theorem setRg_pending (s : State) (p : Page) (off : Nat) (v : W32) : (s.setRg p off v).pending = s.pending := rfl

/-! ### `putKey` changes `ks` -/

@[simp] theorem putKey_glb (s : State) (k : KeyRec) : (s.putKey k).glb = s.glb := rfl
@[simp] theorem putKey_hdr (s : State) (k : KeyRec) : (s.putKey k).hdr = s.hdr := rfl
@[simp] theorem putKey_regs (s : State) (k : KeyRec) : (s.putKey k).regs = s.regs := rfl
@[simp] theorem putKey_wideHeld (s : State) (k : KeyRec) : (s.putKey k).wideHeld = s.wideHeld := rfl
@[simp] theorem putKey_latch (s : State) (k : KeyRec) : (s.putKey k).latch = s.latch := rfl
@[simp] theorem putKey_msix (s : State) (k : KeyRec) : (s.putKey k).msix = s.msix := rfl
@[simp] theorem putKey_led (s : State) (k : KeyRec) : (s.putKey k).led = s.led := rfl
@[simp] theorem putKey_vault (s : State) (k : KeyRec) : (s.putKey k).vault = s.vault := rfl
@[simp] theorem putKey_cus (s : State) (k : KeyRec) : (s.putKey k).cus = s.cus := rfl
@[simp] theorem putKey_slices (s : State) (k : KeyRec) : (s.putKey k).slices = s.slices := rfl
@[simp] theorem putKey_slm (s : State) (k : KeyRec) : (s.putKey k).slm = s.slm := rfl
@[simp] theorem putKey_jobs (s : State) (k : KeyRec) : (s.putKey k).jobs = s.jobs := rfl
@[simp] theorem putKey_fetches (s : State) (k : KeyRec) : (s.putKey k).fetches = s.fetches := rfl
@[simp] theorem putKey_qsc (s : State) (k : KeyRec) : (s.putKey k).qsc = s.qsc := rfl
@[simp] theorem putKey_baro (s : State) (k : KeyRec) : (s.putKey k).baro = s.baro := rfl
@[simp] theorem putKey_eng (s : State) (k : KeyRec) : (s.putKey k).eng = s.eng := rfl
@[simp] theorem putKey_rng (s : State) (k : KeyRec) : (s.putKey k).rng = s.rng := rfl
@[simp] theorem putKey_pwr (s : State) (k : KeyRec) : (s.putKey k).pwr = s.pwr := rfl
@[simp] theorem putKey_clu (s : State) (k : KeyRec) : (s.putKey k).clu = s.clu := rfl
@[simp] theorem putKey_zl (s : State) (k : KeyRec) : (s.putKey k).zl = s.zl := rfl
@[simp] theorem putKey_mpu (s : State) (k : KeyRec) : (s.putKey k).mpu = s.mpu := rfl
@[simp] theorem putKey_mem (s : State) (k : KeyRec) : (s.putKey k).mem = s.mem := rfl
@[simp] theorem putKey_svc (s : State) (k : KeyRec) : (s.putKey k).svc = s.svc := rfl
@[simp] theorem putKey_lcs (s : State) (k : KeyRec) : (s.putKey k).lcs = s.lcs := rfl
@[simp] theorem putKey_tmp (s : State) (k : KeyRec) : (s.putKey k).tmp = s.tmp := rfl
@[simp] theorem putKey_isl (s : State) (k : KeyRec) : (s.putKey k).isl = s.isl := rfl
@[simp] theorem putKey_pci (s : State) (k : KeyRec) : (s.putKey k).pci = s.pci := rfl
@[simp] theorem putKey_held (s : State) (k : KeyRec) : (s.putKey k).held = s.held := rfl
@[simp] theorem putKey_out (s : State) (k : KeyRec) : (s.putKey k).out = s.out := rfl
@[simp] theorem putKey_freeN (s : State) (k : KeyRec) : (s.putKey k).freeN = s.freeN := rfl
@[simp] theorem putKey_pending (s : State) (k : KeyRec) : (s.putKey k).pending = s.pending := rfl

/-! ### `putJob` changes `jobs` -/

@[simp] theorem putJob_glb (s : State) (j : Job) : (s.putJob j).glb = s.glb := rfl
@[simp] theorem putJob_hdr (s : State) (j : Job) : (s.putJob j).hdr = s.hdr := rfl
@[simp] theorem putJob_regs (s : State) (j : Job) : (s.putJob j).regs = s.regs := rfl
@[simp] theorem putJob_wideHeld (s : State) (j : Job) : (s.putJob j).wideHeld = s.wideHeld := rfl
@[simp] theorem putJob_latch (s : State) (j : Job) : (s.putJob j).latch = s.latch := rfl
@[simp] theorem putJob_msix (s : State) (j : Job) : (s.putJob j).msix = s.msix := rfl
@[simp] theorem putJob_led (s : State) (j : Job) : (s.putJob j).led = s.led := rfl
@[simp] theorem putJob_vault (s : State) (j : Job) : (s.putJob j).vault = s.vault := rfl
@[simp] theorem putJob_ks (s : State) (j : Job) : (s.putJob j).ks = s.ks := rfl
@[simp] theorem putJob_cus (s : State) (j : Job) : (s.putJob j).cus = s.cus := rfl
@[simp] theorem putJob_slices (s : State) (j : Job) : (s.putJob j).slices = s.slices := rfl
@[simp] theorem putJob_slm (s : State) (j : Job) : (s.putJob j).slm = s.slm := rfl
@[simp] theorem putJob_fetches (s : State) (j : Job) : (s.putJob j).fetches = s.fetches := rfl
@[simp] theorem putJob_qsc (s : State) (j : Job) : (s.putJob j).qsc = s.qsc := rfl
@[simp] theorem putJob_baro (s : State) (j : Job) : (s.putJob j).baro = s.baro := rfl
@[simp] theorem putJob_eng (s : State) (j : Job) : (s.putJob j).eng = s.eng := rfl
@[simp] theorem putJob_rng (s : State) (j : Job) : (s.putJob j).rng = s.rng := rfl
@[simp] theorem putJob_pwr (s : State) (j : Job) : (s.putJob j).pwr = s.pwr := rfl
@[simp] theorem putJob_clu (s : State) (j : Job) : (s.putJob j).clu = s.clu := rfl
@[simp] theorem putJob_zl (s : State) (j : Job) : (s.putJob j).zl = s.zl := rfl
@[simp] theorem putJob_mpu (s : State) (j : Job) : (s.putJob j).mpu = s.mpu := rfl
@[simp] theorem putJob_mem (s : State) (j : Job) : (s.putJob j).mem = s.mem := rfl
@[simp] theorem putJob_svc (s : State) (j : Job) : (s.putJob j).svc = s.svc := rfl
@[simp] theorem putJob_lcs (s : State) (j : Job) : (s.putJob j).lcs = s.lcs := rfl
@[simp] theorem putJob_tmp (s : State) (j : Job) : (s.putJob j).tmp = s.tmp := rfl
@[simp] theorem putJob_isl (s : State) (j : Job) : (s.putJob j).isl = s.isl := rfl
@[simp] theorem putJob_pci (s : State) (j : Job) : (s.putJob j).pci = s.pci := rfl
@[simp] theorem putJob_held (s : State) (j : Job) : (s.putJob j).held = s.held := rfl
@[simp] theorem putJob_out (s : State) (j : Job) : (s.putJob j).out = s.out := rfl
@[simp] theorem putJob_freeN (s : State) (j : Job) : (s.putJob j).freeN = s.freeN := rfl
@[simp] theorem putJob_pending (s : State) (j : Job) : (s.putJob j).pending = s.pending := rfl

/-! ### `addJob` changes `jobs`, `qsc` -/

@[simp] theorem addJob_glb (s : State) (j : Job) : (s.addJob j).glb = s.glb := rfl
@[simp] theorem addJob_hdr (s : State) (j : Job) : (s.addJob j).hdr = s.hdr := rfl
@[simp] theorem addJob_regs (s : State) (j : Job) : (s.addJob j).regs = s.regs := rfl
@[simp] theorem addJob_wideHeld (s : State) (j : Job) : (s.addJob j).wideHeld = s.wideHeld := rfl
@[simp] theorem addJob_latch (s : State) (j : Job) : (s.addJob j).latch = s.latch := rfl
@[simp] theorem addJob_msix (s : State) (j : Job) : (s.addJob j).msix = s.msix := rfl
@[simp] theorem addJob_led (s : State) (j : Job) : (s.addJob j).led = s.led := rfl
@[simp] theorem addJob_vault (s : State) (j : Job) : (s.addJob j).vault = s.vault := rfl
@[simp] theorem addJob_ks (s : State) (j : Job) : (s.addJob j).ks = s.ks := rfl
@[simp] theorem addJob_cus (s : State) (j : Job) : (s.addJob j).cus = s.cus := rfl
@[simp] theorem addJob_slices (s : State) (j : Job) : (s.addJob j).slices = s.slices := rfl
@[simp] theorem addJob_slm (s : State) (j : Job) : (s.addJob j).slm = s.slm := rfl
@[simp] theorem addJob_fetches (s : State) (j : Job) : (s.addJob j).fetches = s.fetches := rfl
@[simp] theorem addJob_baro (s : State) (j : Job) : (s.addJob j).baro = s.baro := rfl
@[simp] theorem addJob_eng (s : State) (j : Job) : (s.addJob j).eng = s.eng := rfl
@[simp] theorem addJob_rng (s : State) (j : Job) : (s.addJob j).rng = s.rng := rfl
@[simp] theorem addJob_pwr (s : State) (j : Job) : (s.addJob j).pwr = s.pwr := rfl
@[simp] theorem addJob_clu (s : State) (j : Job) : (s.addJob j).clu = s.clu := rfl
@[simp] theorem addJob_zl (s : State) (j : Job) : (s.addJob j).zl = s.zl := rfl
@[simp] theorem addJob_mpu (s : State) (j : Job) : (s.addJob j).mpu = s.mpu := rfl
@[simp] theorem addJob_mem (s : State) (j : Job) : (s.addJob j).mem = s.mem := rfl
@[simp] theorem addJob_svc (s : State) (j : Job) : (s.addJob j).svc = s.svc := rfl
@[simp] theorem addJob_lcs (s : State) (j : Job) : (s.addJob j).lcs = s.lcs := rfl
@[simp] theorem addJob_tmp (s : State) (j : Job) : (s.addJob j).tmp = s.tmp := rfl
@[simp] theorem addJob_isl (s : State) (j : Job) : (s.addJob j).isl = s.isl := rfl
@[simp] theorem addJob_pci (s : State) (j : Job) : (s.addJob j).pci = s.pci := rfl
@[simp] theorem addJob_held (s : State) (j : Job) : (s.addJob j).held = s.held := rfl
@[simp] theorem addJob_out (s : State) (j : Job) : (s.addJob j).out = s.out := rfl
@[simp] theorem addJob_freeN (s : State) (j : Job) : (s.addJob j).freeN = s.freeN := rfl
@[simp] theorem addJob_pending (s : State) (j : Job) : (s.addJob j).pending = s.pending := rfl

/-! ### `setTile` changes `eng` -/

@[simp] theorem setTile_glb (s : State) (n : Nat) (t : Tile) : (s.setTile n t).glb = s.glb := rfl
@[simp] theorem setTile_hdr (s : State) (n : Nat) (t : Tile) : (s.setTile n t).hdr = s.hdr := rfl
@[simp] theorem setTile_regs (s : State) (n : Nat) (t : Tile) : (s.setTile n t).regs = s.regs := rfl
@[simp] theorem setTile_wideHeld (s : State) (n : Nat) (t : Tile) : (s.setTile n t).wideHeld = s.wideHeld := rfl
@[simp] theorem setTile_latch (s : State) (n : Nat) (t : Tile) : (s.setTile n t).latch = s.latch := rfl
@[simp] theorem setTile_msix (s : State) (n : Nat) (t : Tile) : (s.setTile n t).msix = s.msix := rfl
@[simp] theorem setTile_led (s : State) (n : Nat) (t : Tile) : (s.setTile n t).led = s.led := rfl
@[simp] theorem setTile_vault (s : State) (n : Nat) (t : Tile) : (s.setTile n t).vault = s.vault := rfl
@[simp] theorem setTile_ks (s : State) (n : Nat) (t : Tile) : (s.setTile n t).ks = s.ks := rfl
@[simp] theorem setTile_cus (s : State) (n : Nat) (t : Tile) : (s.setTile n t).cus = s.cus := rfl
@[simp] theorem setTile_slices (s : State) (n : Nat) (t : Tile) : (s.setTile n t).slices = s.slices := rfl
@[simp] theorem setTile_slm (s : State) (n : Nat) (t : Tile) : (s.setTile n t).slm = s.slm := rfl
@[simp] theorem setTile_jobs (s : State) (n : Nat) (t : Tile) : (s.setTile n t).jobs = s.jobs := rfl
@[simp] theorem setTile_fetches (s : State) (n : Nat) (t : Tile) : (s.setTile n t).fetches = s.fetches := rfl
@[simp] theorem setTile_qsc (s : State) (n : Nat) (t : Tile) : (s.setTile n t).qsc = s.qsc := rfl
@[simp] theorem setTile_baro (s : State) (n : Nat) (t : Tile) : (s.setTile n t).baro = s.baro := rfl
@[simp] theorem setTile_rng (s : State) (n : Nat) (t : Tile) : (s.setTile n t).rng = s.rng := rfl
@[simp] theorem setTile_pwr (s : State) (n : Nat) (t : Tile) : (s.setTile n t).pwr = s.pwr := rfl
@[simp] theorem setTile_clu (s : State) (n : Nat) (t : Tile) : (s.setTile n t).clu = s.clu := rfl
@[simp] theorem setTile_zl (s : State) (n : Nat) (t : Tile) : (s.setTile n t).zl = s.zl := rfl
@[simp] theorem setTile_mpu (s : State) (n : Nat) (t : Tile) : (s.setTile n t).mpu = s.mpu := rfl
@[simp] theorem setTile_mem (s : State) (n : Nat) (t : Tile) : (s.setTile n t).mem = s.mem := rfl
@[simp] theorem setTile_svc (s : State) (n : Nat) (t : Tile) : (s.setTile n t).svc = s.svc := rfl
@[simp] theorem setTile_lcs (s : State) (n : Nat) (t : Tile) : (s.setTile n t).lcs = s.lcs := rfl
@[simp] theorem setTile_tmp (s : State) (n : Nat) (t : Tile) : (s.setTile n t).tmp = s.tmp := rfl
@[simp] theorem setTile_isl (s : State) (n : Nat) (t : Tile) : (s.setTile n t).isl = s.isl := rfl
@[simp] theorem setTile_pci (s : State) (n : Nat) (t : Tile) : (s.setTile n t).pci = s.pci := rfl
@[simp] theorem setTile_held (s : State) (n : Nat) (t : Tile) : (s.setTile n t).held = s.held := rfl
@[simp] theorem setTile_out (s : State) (n : Nat) (t : Tile) : (s.setTile n t).out = s.out := rfl
@[simp] theorem setTile_freeN (s : State) (n : Nat) (t : Tile) : (s.setTile n t).freeN = s.freeN := rfl
@[simp] theorem setTile_pending (s : State) (n : Nat) (t : Tile) : (s.setTile n t).pending = s.pending := rfl

/-! ### `unqueue` changes `eng` -/

@[simp] theorem unqueue_glb (s : State) (id idx : Nat) : (s.unqueue id idx).glb = s.glb := rfl
@[simp] theorem unqueue_hdr (s : State) (id idx : Nat) : (s.unqueue id idx).hdr = s.hdr := rfl
@[simp] theorem unqueue_regs (s : State) (id idx : Nat) : (s.unqueue id idx).regs = s.regs := rfl
@[simp] theorem unqueue_wideHeld (s : State) (id idx : Nat) : (s.unqueue id idx).wideHeld = s.wideHeld := rfl
@[simp] theorem unqueue_latch (s : State) (id idx : Nat) : (s.unqueue id idx).latch = s.latch := rfl
@[simp] theorem unqueue_msix (s : State) (id idx : Nat) : (s.unqueue id idx).msix = s.msix := rfl
@[simp] theorem unqueue_led (s : State) (id idx : Nat) : (s.unqueue id idx).led = s.led := rfl
@[simp] theorem unqueue_vault (s : State) (id idx : Nat) : (s.unqueue id idx).vault = s.vault := rfl
@[simp] theorem unqueue_ks (s : State) (id idx : Nat) : (s.unqueue id idx).ks = s.ks := rfl
@[simp] theorem unqueue_cus (s : State) (id idx : Nat) : (s.unqueue id idx).cus = s.cus := rfl
@[simp] theorem unqueue_slices (s : State) (id idx : Nat) : (s.unqueue id idx).slices = s.slices := rfl
@[simp] theorem unqueue_slm (s : State) (id idx : Nat) : (s.unqueue id idx).slm = s.slm := rfl
@[simp] theorem unqueue_jobs (s : State) (id idx : Nat) : (s.unqueue id idx).jobs = s.jobs := rfl
@[simp] theorem unqueue_fetches (s : State) (id idx : Nat) : (s.unqueue id idx).fetches = s.fetches := rfl
@[simp] theorem unqueue_qsc (s : State) (id idx : Nat) : (s.unqueue id idx).qsc = s.qsc := rfl
@[simp] theorem unqueue_baro (s : State) (id idx : Nat) : (s.unqueue id idx).baro = s.baro := rfl
@[simp] theorem unqueue_rng (s : State) (id idx : Nat) : (s.unqueue id idx).rng = s.rng := rfl
@[simp] theorem unqueue_pwr (s : State) (id idx : Nat) : (s.unqueue id idx).pwr = s.pwr := rfl
@[simp] theorem unqueue_clu (s : State) (id idx : Nat) : (s.unqueue id idx).clu = s.clu := rfl
@[simp] theorem unqueue_zl (s : State) (id idx : Nat) : (s.unqueue id idx).zl = s.zl := rfl
@[simp] theorem unqueue_mpu (s : State) (id idx : Nat) : (s.unqueue id idx).mpu = s.mpu := rfl
@[simp] theorem unqueue_mem (s : State) (id idx : Nat) : (s.unqueue id idx).mem = s.mem := rfl
@[simp] theorem unqueue_svc (s : State) (id idx : Nat) : (s.unqueue id idx).svc = s.svc := rfl
@[simp] theorem unqueue_lcs (s : State) (id idx : Nat) : (s.unqueue id idx).lcs = s.lcs := rfl
@[simp] theorem unqueue_tmp (s : State) (id idx : Nat) : (s.unqueue id idx).tmp = s.tmp := rfl
@[simp] theorem unqueue_isl (s : State) (id idx : Nat) : (s.unqueue id idx).isl = s.isl := rfl
@[simp] theorem unqueue_pci (s : State) (id idx : Nat) : (s.unqueue id idx).pci = s.pci := rfl
@[simp] theorem unqueue_held (s : State) (id idx : Nat) : (s.unqueue id idx).held = s.held := rfl
@[simp] theorem unqueue_out (s : State) (id idx : Nat) : (s.unqueue id idx).out = s.out := rfl
@[simp] theorem unqueue_freeN (s : State) (id idx : Nat) : (s.unqueue id idx).freeN = s.freeN := rfl
@[simp] theorem unqueue_pending (s : State) (id idx : Nat) : (s.unqueue id idx).pending = s.pending := rfl

/-! ### `setInst` changes `rng` -/

@[simp] theorem setInst_glb (s : State) (n : Nat) (i : Inst) : (s.setInst n i).glb = s.glb := rfl
@[simp] theorem setInst_hdr (s : State) (n : Nat) (i : Inst) : (s.setInst n i).hdr = s.hdr := rfl
@[simp] theorem setInst_regs (s : State) (n : Nat) (i : Inst) : (s.setInst n i).regs = s.regs := rfl
@[simp] theorem setInst_wideHeld (s : State) (n : Nat) (i : Inst) : (s.setInst n i).wideHeld = s.wideHeld := rfl
@[simp] theorem setInst_latch (s : State) (n : Nat) (i : Inst) : (s.setInst n i).latch = s.latch := rfl
@[simp] theorem setInst_msix (s : State) (n : Nat) (i : Inst) : (s.setInst n i).msix = s.msix := rfl
@[simp] theorem setInst_led (s : State) (n : Nat) (i : Inst) : (s.setInst n i).led = s.led := rfl
@[simp] theorem setInst_vault (s : State) (n : Nat) (i : Inst) : (s.setInst n i).vault = s.vault := rfl
@[simp] theorem setInst_ks (s : State) (n : Nat) (i : Inst) : (s.setInst n i).ks = s.ks := rfl
@[simp] theorem setInst_cus (s : State) (n : Nat) (i : Inst) : (s.setInst n i).cus = s.cus := rfl
@[simp] theorem setInst_slices (s : State) (n : Nat) (i : Inst) : (s.setInst n i).slices = s.slices := rfl
@[simp] theorem setInst_slm (s : State) (n : Nat) (i : Inst) : (s.setInst n i).slm = s.slm := rfl
@[simp] theorem setInst_jobs (s : State) (n : Nat) (i : Inst) : (s.setInst n i).jobs = s.jobs := rfl
@[simp] theorem setInst_fetches (s : State) (n : Nat) (i : Inst) : (s.setInst n i).fetches = s.fetches := rfl
@[simp] theorem setInst_qsc (s : State) (n : Nat) (i : Inst) : (s.setInst n i).qsc = s.qsc := rfl
@[simp] theorem setInst_baro (s : State) (n : Nat) (i : Inst) : (s.setInst n i).baro = s.baro := rfl
@[simp] theorem setInst_eng (s : State) (n : Nat) (i : Inst) : (s.setInst n i).eng = s.eng := rfl
@[simp] theorem setInst_pwr (s : State) (n : Nat) (i : Inst) : (s.setInst n i).pwr = s.pwr := rfl
@[simp] theorem setInst_clu (s : State) (n : Nat) (i : Inst) : (s.setInst n i).clu = s.clu := rfl
@[simp] theorem setInst_zl (s : State) (n : Nat) (i : Inst) : (s.setInst n i).zl = s.zl := rfl
@[simp] theorem setInst_mpu (s : State) (n : Nat) (i : Inst) : (s.setInst n i).mpu = s.mpu := rfl
@[simp] theorem setInst_mem (s : State) (n : Nat) (i : Inst) : (s.setInst n i).mem = s.mem := rfl
@[simp] theorem setInst_svc (s : State) (n : Nat) (i : Inst) : (s.setInst n i).svc = s.svc := rfl
@[simp] theorem setInst_lcs (s : State) (n : Nat) (i : Inst) : (s.setInst n i).lcs = s.lcs := rfl
@[simp] theorem setInst_tmp (s : State) (n : Nat) (i : Inst) : (s.setInst n i).tmp = s.tmp := rfl
@[simp] theorem setInst_isl (s : State) (n : Nat) (i : Inst) : (s.setInst n i).isl = s.isl := rfl
@[simp] theorem setInst_pci (s : State) (n : Nat) (i : Inst) : (s.setInst n i).pci = s.pci := rfl
@[simp] theorem setInst_held (s : State) (n : Nat) (i : Inst) : (s.setInst n i).held = s.held := rfl
@[simp] theorem setInst_out (s : State) (n : Nat) (i : Inst) : (s.setInst n i).out = s.out := rfl
@[simp] theorem setInst_freeN (s : State) (n : Nat) (i : Inst) : (s.setInst n i).freeN = s.freeN := rfl
@[simp] theorem setInst_pending (s : State) (n : Nat) (i : Inst) : (s.setInst n i).pending = s.pending := rfl

/-! ### `setSrc` changes `rng` -/

@[simp] theorem setSrc_glb (s : State) (n : Nat) (v : Source) : (s.setSrc n v).glb = s.glb := rfl
@[simp] theorem setSrc_hdr (s : State) (n : Nat) (v : Source) : (s.setSrc n v).hdr = s.hdr := rfl
@[simp] theorem setSrc_regs (s : State) (n : Nat) (v : Source) : (s.setSrc n v).regs = s.regs := rfl
@[simp] theorem setSrc_wideHeld (s : State) (n : Nat) (v : Source) : (s.setSrc n v).wideHeld = s.wideHeld := rfl
@[simp] theorem setSrc_latch (s : State) (n : Nat) (v : Source) : (s.setSrc n v).latch = s.latch := rfl
@[simp] theorem setSrc_msix (s : State) (n : Nat) (v : Source) : (s.setSrc n v).msix = s.msix := rfl
@[simp] theorem setSrc_led (s : State) (n : Nat) (v : Source) : (s.setSrc n v).led = s.led := rfl
@[simp] theorem setSrc_vault (s : State) (n : Nat) (v : Source) : (s.setSrc n v).vault = s.vault := rfl
@[simp] theorem setSrc_ks (s : State) (n : Nat) (v : Source) : (s.setSrc n v).ks = s.ks := rfl
@[simp] theorem setSrc_cus (s : State) (n : Nat) (v : Source) : (s.setSrc n v).cus = s.cus := rfl
@[simp] theorem setSrc_slices (s : State) (n : Nat) (v : Source) : (s.setSrc n v).slices = s.slices := rfl
@[simp] theorem setSrc_slm (s : State) (n : Nat) (v : Source) : (s.setSrc n v).slm = s.slm := rfl
@[simp] theorem setSrc_jobs (s : State) (n : Nat) (v : Source) : (s.setSrc n v).jobs = s.jobs := rfl
@[simp] theorem setSrc_fetches (s : State) (n : Nat) (v : Source) : (s.setSrc n v).fetches = s.fetches := rfl
@[simp] theorem setSrc_qsc (s : State) (n : Nat) (v : Source) : (s.setSrc n v).qsc = s.qsc := rfl
@[simp] theorem setSrc_baro (s : State) (n : Nat) (v : Source) : (s.setSrc n v).baro = s.baro := rfl
@[simp] theorem setSrc_eng (s : State) (n : Nat) (v : Source) : (s.setSrc n v).eng = s.eng := rfl
@[simp] theorem setSrc_pwr (s : State) (n : Nat) (v : Source) : (s.setSrc n v).pwr = s.pwr := rfl
@[simp] theorem setSrc_clu (s : State) (n : Nat) (v : Source) : (s.setSrc n v).clu = s.clu := rfl
@[simp] theorem setSrc_zl (s : State) (n : Nat) (v : Source) : (s.setSrc n v).zl = s.zl := rfl
@[simp] theorem setSrc_mpu (s : State) (n : Nat) (v : Source) : (s.setSrc n v).mpu = s.mpu := rfl
@[simp] theorem setSrc_mem (s : State) (n : Nat) (v : Source) : (s.setSrc n v).mem = s.mem := rfl
@[simp] theorem setSrc_svc (s : State) (n : Nat) (v : Source) : (s.setSrc n v).svc = s.svc := rfl
@[simp] theorem setSrc_lcs (s : State) (n : Nat) (v : Source) : (s.setSrc n v).lcs = s.lcs := rfl
@[simp] theorem setSrc_tmp (s : State) (n : Nat) (v : Source) : (s.setSrc n v).tmp = s.tmp := rfl
@[simp] theorem setSrc_isl (s : State) (n : Nat) (v : Source) : (s.setSrc n v).isl = s.isl := rfl
@[simp] theorem setSrc_pci (s : State) (n : Nat) (v : Source) : (s.setSrc n v).pci = s.pci := rfl
@[simp] theorem setSrc_held (s : State) (n : Nat) (v : Source) : (s.setSrc n v).held = s.held := rfl
@[simp] theorem setSrc_out (s : State) (n : Nat) (v : Source) : (s.setSrc n v).out = s.out := rfl
@[simp] theorem setSrc_freeN (s : State) (n : Nat) (v : Source) : (s.setSrc n v).freeN = s.freeN := rfl
@[simp] theorem setSrc_pending (s : State) (n : Nat) (v : Source) : (s.setSrc n v).pending = s.pending := rfl

/-! ### `setCore` changes `svc` -/

@[simp] theorem setCore_glb (s : State) (n : Nat) (c : Core) : (s.setCore n c).glb = s.glb := rfl
@[simp] theorem setCore_hdr (s : State) (n : Nat) (c : Core) : (s.setCore n c).hdr = s.hdr := rfl
@[simp] theorem setCore_regs (s : State) (n : Nat) (c : Core) : (s.setCore n c).regs = s.regs := rfl
@[simp] theorem setCore_wideHeld (s : State) (n : Nat) (c : Core) : (s.setCore n c).wideHeld = s.wideHeld := rfl
@[simp] theorem setCore_latch (s : State) (n : Nat) (c : Core) : (s.setCore n c).latch = s.latch := rfl
@[simp] theorem setCore_msix (s : State) (n : Nat) (c : Core) : (s.setCore n c).msix = s.msix := rfl
@[simp] theorem setCore_led (s : State) (n : Nat) (c : Core) : (s.setCore n c).led = s.led := rfl
@[simp] theorem setCore_vault (s : State) (n : Nat) (c : Core) : (s.setCore n c).vault = s.vault := rfl
@[simp] theorem setCore_ks (s : State) (n : Nat) (c : Core) : (s.setCore n c).ks = s.ks := rfl
@[simp] theorem setCore_cus (s : State) (n : Nat) (c : Core) : (s.setCore n c).cus = s.cus := rfl
@[simp] theorem setCore_slices (s : State) (n : Nat) (c : Core) : (s.setCore n c).slices = s.slices := rfl
@[simp] theorem setCore_slm (s : State) (n : Nat) (c : Core) : (s.setCore n c).slm = s.slm := rfl
@[simp] theorem setCore_jobs (s : State) (n : Nat) (c : Core) : (s.setCore n c).jobs = s.jobs := rfl
@[simp] theorem setCore_fetches (s : State) (n : Nat) (c : Core) : (s.setCore n c).fetches = s.fetches := rfl
@[simp] theorem setCore_qsc (s : State) (n : Nat) (c : Core) : (s.setCore n c).qsc = s.qsc := rfl
@[simp] theorem setCore_baro (s : State) (n : Nat) (c : Core) : (s.setCore n c).baro = s.baro := rfl
@[simp] theorem setCore_eng (s : State) (n : Nat) (c : Core) : (s.setCore n c).eng = s.eng := rfl
@[simp] theorem setCore_rng (s : State) (n : Nat) (c : Core) : (s.setCore n c).rng = s.rng := rfl
@[simp] theorem setCore_pwr (s : State) (n : Nat) (c : Core) : (s.setCore n c).pwr = s.pwr := rfl
@[simp] theorem setCore_clu (s : State) (n : Nat) (c : Core) : (s.setCore n c).clu = s.clu := rfl
@[simp] theorem setCore_zl (s : State) (n : Nat) (c : Core) : (s.setCore n c).zl = s.zl := rfl
@[simp] theorem setCore_mpu (s : State) (n : Nat) (c : Core) : (s.setCore n c).mpu = s.mpu := rfl
@[simp] theorem setCore_mem (s : State) (n : Nat) (c : Core) : (s.setCore n c).mem = s.mem := rfl
@[simp] theorem setCore_lcs (s : State) (n : Nat) (c : Core) : (s.setCore n c).lcs = s.lcs := rfl
@[simp] theorem setCore_tmp (s : State) (n : Nat) (c : Core) : (s.setCore n c).tmp = s.tmp := rfl
@[simp] theorem setCore_isl (s : State) (n : Nat) (c : Core) : (s.setCore n c).isl = s.isl := rfl
@[simp] theorem setCore_pci (s : State) (n : Nat) (c : Core) : (s.setCore n c).pci = s.pci := rfl
@[simp] theorem setCore_held (s : State) (n : Nat) (c : Core) : (s.setCore n c).held = s.held := rfl
@[simp] theorem setCore_out (s : State) (n : Nat) (c : Core) : (s.setCore n c).out = s.out := rfl
@[simp] theorem setCore_freeN (s : State) (n : Nat) (c : Core) : (s.setCore n c).freeN = s.freeN := rfl
@[simp] theorem setCore_pending (s : State) (n : Nat) (c : Core) : (s.setCore n c).pending = s.pending := rfl

/-! ### `setMpu` changes `mpu` -/

@[simp] theorem setMpu_glb (s : State) (m : Nat) (u : Mpu) : (s.setMpu m u).glb = s.glb := rfl
@[simp] theorem setMpu_hdr (s : State) (m : Nat) (u : Mpu) : (s.setMpu m u).hdr = s.hdr := rfl
@[simp] theorem setMpu_regs (s : State) (m : Nat) (u : Mpu) : (s.setMpu m u).regs = s.regs := rfl
@[simp] theorem setMpu_wideHeld (s : State) (m : Nat) (u : Mpu) : (s.setMpu m u).wideHeld = s.wideHeld := rfl
@[simp] theorem setMpu_latch (s : State) (m : Nat) (u : Mpu) : (s.setMpu m u).latch = s.latch := rfl
@[simp] theorem setMpu_msix (s : State) (m : Nat) (u : Mpu) : (s.setMpu m u).msix = s.msix := rfl
@[simp] theorem setMpu_led (s : State) (m : Nat) (u : Mpu) : (s.setMpu m u).led = s.led := rfl
@[simp] theorem setMpu_vault (s : State) (m : Nat) (u : Mpu) : (s.setMpu m u).vault = s.vault := rfl
@[simp] theorem setMpu_ks (s : State) (m : Nat) (u : Mpu) : (s.setMpu m u).ks = s.ks := rfl
@[simp] theorem setMpu_cus (s : State) (m : Nat) (u : Mpu) : (s.setMpu m u).cus = s.cus := rfl
@[simp] theorem setMpu_slices (s : State) (m : Nat) (u : Mpu) : (s.setMpu m u).slices = s.slices := rfl
@[simp] theorem setMpu_slm (s : State) (m : Nat) (u : Mpu) : (s.setMpu m u).slm = s.slm := rfl
@[simp] theorem setMpu_jobs (s : State) (m : Nat) (u : Mpu) : (s.setMpu m u).jobs = s.jobs := rfl
@[simp] theorem setMpu_fetches (s : State) (m : Nat) (u : Mpu) : (s.setMpu m u).fetches = s.fetches := rfl
@[simp] theorem setMpu_qsc (s : State) (m : Nat) (u : Mpu) : (s.setMpu m u).qsc = s.qsc := rfl
@[simp] theorem setMpu_baro (s : State) (m : Nat) (u : Mpu) : (s.setMpu m u).baro = s.baro := rfl
@[simp] theorem setMpu_eng (s : State) (m : Nat) (u : Mpu) : (s.setMpu m u).eng = s.eng := rfl
@[simp] theorem setMpu_rng (s : State) (m : Nat) (u : Mpu) : (s.setMpu m u).rng = s.rng := rfl
@[simp] theorem setMpu_pwr (s : State) (m : Nat) (u : Mpu) : (s.setMpu m u).pwr = s.pwr := rfl
@[simp] theorem setMpu_clu (s : State) (m : Nat) (u : Mpu) : (s.setMpu m u).clu = s.clu := rfl
@[simp] theorem setMpu_zl (s : State) (m : Nat) (u : Mpu) : (s.setMpu m u).zl = s.zl := rfl
@[simp] theorem setMpu_mem (s : State) (m : Nat) (u : Mpu) : (s.setMpu m u).mem = s.mem := rfl
@[simp] theorem setMpu_svc (s : State) (m : Nat) (u : Mpu) : (s.setMpu m u).svc = s.svc := rfl
@[simp] theorem setMpu_lcs (s : State) (m : Nat) (u : Mpu) : (s.setMpu m u).lcs = s.lcs := rfl
@[simp] theorem setMpu_tmp (s : State) (m : Nat) (u : Mpu) : (s.setMpu m u).tmp = s.tmp := rfl
@[simp] theorem setMpu_isl (s : State) (m : Nat) (u : Mpu) : (s.setMpu m u).isl = s.isl := rfl
@[simp] theorem setMpu_pci (s : State) (m : Nat) (u : Mpu) : (s.setMpu m u).pci = s.pci := rfl
@[simp] theorem setMpu_held (s : State) (m : Nat) (u : Mpu) : (s.setMpu m u).held = s.held := rfl
@[simp] theorem setMpu_out (s : State) (m : Nat) (u : Mpu) : (s.setMpu m u).out = s.out := rfl
@[simp] theorem setMpu_freeN (s : State) (m : Nat) (u : Mpu) : (s.setMpu m u).freeN = s.freeN := rfl
@[simp] theorem setMpu_pending (s : State) (m : Nat) (u : Mpu) : (s.setMpu m u).pending = s.pending := rfl

/-! ### `setClass` changes `svc` -/

@[simp] theorem setClass_glb (s : State) (n : Nat) (c : ImageClass) : (s.setClass n c).glb = s.glb := rfl
@[simp] theorem setClass_hdr (s : State) (n : Nat) (c : ImageClass) : (s.setClass n c).hdr = s.hdr := rfl
@[simp] theorem setClass_regs (s : State) (n : Nat) (c : ImageClass) : (s.setClass n c).regs = s.regs := rfl
@[simp] theorem setClass_wideHeld (s : State) (n : Nat) (c : ImageClass) : (s.setClass n c).wideHeld = s.wideHeld := rfl
@[simp] theorem setClass_latch (s : State) (n : Nat) (c : ImageClass) : (s.setClass n c).latch = s.latch := rfl
@[simp] theorem setClass_msix (s : State) (n : Nat) (c : ImageClass) : (s.setClass n c).msix = s.msix := rfl
@[simp] theorem setClass_led (s : State) (n : Nat) (c : ImageClass) : (s.setClass n c).led = s.led := rfl
@[simp] theorem setClass_vault (s : State) (n : Nat) (c : ImageClass) : (s.setClass n c).vault = s.vault := rfl
@[simp] theorem setClass_ks (s : State) (n : Nat) (c : ImageClass) : (s.setClass n c).ks = s.ks := rfl
@[simp] theorem setClass_cus (s : State) (n : Nat) (c : ImageClass) : (s.setClass n c).cus = s.cus := rfl
@[simp] theorem setClass_slices (s : State) (n : Nat) (c : ImageClass) : (s.setClass n c).slices = s.slices := rfl
@[simp] theorem setClass_slm (s : State) (n : Nat) (c : ImageClass) : (s.setClass n c).slm = s.slm := rfl
@[simp] theorem setClass_jobs (s : State) (n : Nat) (c : ImageClass) : (s.setClass n c).jobs = s.jobs := rfl
@[simp] theorem setClass_fetches (s : State) (n : Nat) (c : ImageClass) : (s.setClass n c).fetches = s.fetches := rfl
@[simp] theorem setClass_qsc (s : State) (n : Nat) (c : ImageClass) : (s.setClass n c).qsc = s.qsc := rfl
@[simp] theorem setClass_baro (s : State) (n : Nat) (c : ImageClass) : (s.setClass n c).baro = s.baro := rfl
@[simp] theorem setClass_eng (s : State) (n : Nat) (c : ImageClass) : (s.setClass n c).eng = s.eng := rfl
@[simp] theorem setClass_rng (s : State) (n : Nat) (c : ImageClass) : (s.setClass n c).rng = s.rng := rfl
@[simp] theorem setClass_pwr (s : State) (n : Nat) (c : ImageClass) : (s.setClass n c).pwr = s.pwr := rfl
@[simp] theorem setClass_clu (s : State) (n : Nat) (c : ImageClass) : (s.setClass n c).clu = s.clu := rfl
@[simp] theorem setClass_zl (s : State) (n : Nat) (c : ImageClass) : (s.setClass n c).zl = s.zl := rfl
@[simp] theorem setClass_mpu (s : State) (n : Nat) (c : ImageClass) : (s.setClass n c).mpu = s.mpu := rfl
@[simp] theorem setClass_mem (s : State) (n : Nat) (c : ImageClass) : (s.setClass n c).mem = s.mem := rfl
@[simp] theorem setClass_lcs (s : State) (n : Nat) (c : ImageClass) : (s.setClass n c).lcs = s.lcs := rfl
@[simp] theorem setClass_tmp (s : State) (n : Nat) (c : ImageClass) : (s.setClass n c).tmp = s.tmp := rfl
@[simp] theorem setClass_isl (s : State) (n : Nat) (c : ImageClass) : (s.setClass n c).isl = s.isl := rfl
@[simp] theorem setClass_pci (s : State) (n : Nat) (c : ImageClass) : (s.setClass n c).pci = s.pci := rfl
@[simp] theorem setClass_held (s : State) (n : Nat) (c : ImageClass) : (s.setClass n c).held = s.held := rfl
@[simp] theorem setClass_out (s : State) (n : Nat) (c : ImageClass) : (s.setClass n c).out = s.out := rfl
@[simp] theorem setClass_freeN (s : State) (n : Nat) (c : ImageClass) : (s.setClass n c).freeN = s.freeN := rfl
@[simp] theorem setClass_pending (s : State) (n : Nat) (c : ImageClass) : (s.setClass n c).pending = s.pending := rfl

/-! ### `setMember` changes `clu` -/

@[simp] theorem setMember_glb (s : State) (n : Nat) (m : Member) : (s.setMember n m).glb = s.glb := rfl
@[simp] theorem setMember_hdr (s : State) (n : Nat) (m : Member) : (s.setMember n m).hdr = s.hdr := rfl
@[simp] theorem setMember_regs (s : State) (n : Nat) (m : Member) : (s.setMember n m).regs = s.regs := rfl
@[simp] theorem setMember_wideHeld (s : State) (n : Nat) (m : Member) : (s.setMember n m).wideHeld = s.wideHeld := rfl
@[simp] theorem setMember_latch (s : State) (n : Nat) (m : Member) : (s.setMember n m).latch = s.latch := rfl
@[simp] theorem setMember_msix (s : State) (n : Nat) (m : Member) : (s.setMember n m).msix = s.msix := rfl
@[simp] theorem setMember_led (s : State) (n : Nat) (m : Member) : (s.setMember n m).led = s.led := rfl
@[simp] theorem setMember_vault (s : State) (n : Nat) (m : Member) : (s.setMember n m).vault = s.vault := rfl
@[simp] theorem setMember_ks (s : State) (n : Nat) (m : Member) : (s.setMember n m).ks = s.ks := rfl
@[simp] theorem setMember_cus (s : State) (n : Nat) (m : Member) : (s.setMember n m).cus = s.cus := rfl
@[simp] theorem setMember_slices (s : State) (n : Nat) (m : Member) : (s.setMember n m).slices = s.slices := rfl
@[simp] theorem setMember_slm (s : State) (n : Nat) (m : Member) : (s.setMember n m).slm = s.slm := rfl
@[simp] theorem setMember_jobs (s : State) (n : Nat) (m : Member) : (s.setMember n m).jobs = s.jobs := rfl
@[simp] theorem setMember_fetches (s : State) (n : Nat) (m : Member) : (s.setMember n m).fetches = s.fetches := rfl
@[simp] theorem setMember_qsc (s : State) (n : Nat) (m : Member) : (s.setMember n m).qsc = s.qsc := rfl
@[simp] theorem setMember_baro (s : State) (n : Nat) (m : Member) : (s.setMember n m).baro = s.baro := rfl
@[simp] theorem setMember_eng (s : State) (n : Nat) (m : Member) : (s.setMember n m).eng = s.eng := rfl
@[simp] theorem setMember_rng (s : State) (n : Nat) (m : Member) : (s.setMember n m).rng = s.rng := rfl
@[simp] theorem setMember_pwr (s : State) (n : Nat) (m : Member) : (s.setMember n m).pwr = s.pwr := rfl
@[simp] theorem setMember_zl (s : State) (n : Nat) (m : Member) : (s.setMember n m).zl = s.zl := rfl
@[simp] theorem setMember_mpu (s : State) (n : Nat) (m : Member) : (s.setMember n m).mpu = s.mpu := rfl
@[simp] theorem setMember_mem (s : State) (n : Nat) (m : Member) : (s.setMember n m).mem = s.mem := rfl
@[simp] theorem setMember_svc (s : State) (n : Nat) (m : Member) : (s.setMember n m).svc = s.svc := rfl
@[simp] theorem setMember_lcs (s : State) (n : Nat) (m : Member) : (s.setMember n m).lcs = s.lcs := rfl
@[simp] theorem setMember_tmp (s : State) (n : Nat) (m : Member) : (s.setMember n m).tmp = s.tmp := rfl
@[simp] theorem setMember_isl (s : State) (n : Nat) (m : Member) : (s.setMember n m).isl = s.isl := rfl
@[simp] theorem setMember_pci (s : State) (n : Nat) (m : Member) : (s.setMember n m).pci = s.pci := rfl
@[simp] theorem setMember_held (s : State) (n : Nat) (m : Member) : (s.setMember n m).held = s.held := rfl
@[simp] theorem setMember_out (s : State) (n : Nat) (m : Member) : (s.setMember n m).out = s.out := rfl
@[simp] theorem setMember_freeN (s : State) (n : Nat) (m : Member) : (s.setMember n m).freeN = s.freeN := rfl
@[simp] theorem setMember_pending (s : State) (n : Nat) (m : Member) : (s.setMember n m).pending = s.pending := rfl

/-! ### `setZl` changes `zl` -/

@[simp] theorem setZl_glb (s : State) (p : Nat) (z : Zl) : (s.setZl p z).glb = s.glb := rfl
@[simp] theorem setZl_hdr (s : State) (p : Nat) (z : Zl) : (s.setZl p z).hdr = s.hdr := rfl
@[simp] theorem setZl_regs (s : State) (p : Nat) (z : Zl) : (s.setZl p z).regs = s.regs := rfl
@[simp] theorem setZl_wideHeld (s : State) (p : Nat) (z : Zl) : (s.setZl p z).wideHeld = s.wideHeld := rfl
@[simp] theorem setZl_latch (s : State) (p : Nat) (z : Zl) : (s.setZl p z).latch = s.latch := rfl
@[simp] theorem setZl_msix (s : State) (p : Nat) (z : Zl) : (s.setZl p z).msix = s.msix := rfl
@[simp] theorem setZl_led (s : State) (p : Nat) (z : Zl) : (s.setZl p z).led = s.led := rfl
@[simp] theorem setZl_vault (s : State) (p : Nat) (z : Zl) : (s.setZl p z).vault = s.vault := rfl
@[simp] theorem setZl_ks (s : State) (p : Nat) (z : Zl) : (s.setZl p z).ks = s.ks := rfl
@[simp] theorem setZl_cus (s : State) (p : Nat) (z : Zl) : (s.setZl p z).cus = s.cus := rfl
@[simp] theorem setZl_slices (s : State) (p : Nat) (z : Zl) : (s.setZl p z).slices = s.slices := rfl
@[simp] theorem setZl_slm (s : State) (p : Nat) (z : Zl) : (s.setZl p z).slm = s.slm := rfl
@[simp] theorem setZl_jobs (s : State) (p : Nat) (z : Zl) : (s.setZl p z).jobs = s.jobs := rfl
@[simp] theorem setZl_fetches (s : State) (p : Nat) (z : Zl) : (s.setZl p z).fetches = s.fetches := rfl
@[simp] theorem setZl_qsc (s : State) (p : Nat) (z : Zl) : (s.setZl p z).qsc = s.qsc := rfl
@[simp] theorem setZl_baro (s : State) (p : Nat) (z : Zl) : (s.setZl p z).baro = s.baro := rfl
@[simp] theorem setZl_eng (s : State) (p : Nat) (z : Zl) : (s.setZl p z).eng = s.eng := rfl
@[simp] theorem setZl_rng (s : State) (p : Nat) (z : Zl) : (s.setZl p z).rng = s.rng := rfl
@[simp] theorem setZl_pwr (s : State) (p : Nat) (z : Zl) : (s.setZl p z).pwr = s.pwr := rfl
@[simp] theorem setZl_clu (s : State) (p : Nat) (z : Zl) : (s.setZl p z).clu = s.clu := rfl
@[simp] theorem setZl_mpu (s : State) (p : Nat) (z : Zl) : (s.setZl p z).mpu = s.mpu := rfl
@[simp] theorem setZl_mem (s : State) (p : Nat) (z : Zl) : (s.setZl p z).mem = s.mem := rfl
@[simp] theorem setZl_svc (s : State) (p : Nat) (z : Zl) : (s.setZl p z).svc = s.svc := rfl
@[simp] theorem setZl_lcs (s : State) (p : Nat) (z : Zl) : (s.setZl p z).lcs = s.lcs := rfl
@[simp] theorem setZl_tmp (s : State) (p : Nat) (z : Zl) : (s.setZl p z).tmp = s.tmp := rfl
@[simp] theorem setZl_isl (s : State) (p : Nat) (z : Zl) : (s.setZl p z).isl = s.isl := rfl
@[simp] theorem setZl_pci (s : State) (p : Nat) (z : Zl) : (s.setZl p z).pci = s.pci := rfl
@[simp] theorem setZl_held (s : State) (p : Nat) (z : Zl) : (s.setZl p z).held = s.held := rfl
@[simp] theorem setZl_out (s : State) (p : Nat) (z : Zl) : (s.setZl p z).out = s.out := rfl
@[simp] theorem setZl_freeN (s : State) (p : Nat) (z : Zl) : (s.setZl p z).freeN = s.freeN := rfl
@[simp] theorem setZl_pending (s : State) (p : Nat) (z : Zl) : (s.setZl p z).pending = s.pending := rfl

/-! ### `pwrRes` changes `pwr` -/

@[simp] theorem pwrRes_glb (s : State) (code detail : Nat) : (s.pwrRes code detail).glb = s.glb := rfl
@[simp] theorem pwrRes_hdr (s : State) (code detail : Nat) : (s.pwrRes code detail).hdr = s.hdr := rfl
@[simp] theorem pwrRes_regs (s : State) (code detail : Nat) : (s.pwrRes code detail).regs = s.regs := rfl
@[simp] theorem pwrRes_wideHeld (s : State) (code detail : Nat) : (s.pwrRes code detail).wideHeld = s.wideHeld := rfl
@[simp] theorem pwrRes_latch (s : State) (code detail : Nat) : (s.pwrRes code detail).latch = s.latch := rfl
@[simp] theorem pwrRes_msix (s : State) (code detail : Nat) : (s.pwrRes code detail).msix = s.msix := rfl
@[simp] theorem pwrRes_led (s : State) (code detail : Nat) : (s.pwrRes code detail).led = s.led := rfl
@[simp] theorem pwrRes_vault (s : State) (code detail : Nat) : (s.pwrRes code detail).vault = s.vault := rfl
@[simp] theorem pwrRes_ks (s : State) (code detail : Nat) : (s.pwrRes code detail).ks = s.ks := rfl
@[simp] theorem pwrRes_cus (s : State) (code detail : Nat) : (s.pwrRes code detail).cus = s.cus := rfl
@[simp] theorem pwrRes_slices (s : State) (code detail : Nat) : (s.pwrRes code detail).slices = s.slices := rfl
@[simp] theorem pwrRes_slm (s : State) (code detail : Nat) : (s.pwrRes code detail).slm = s.slm := rfl
@[simp] theorem pwrRes_jobs (s : State) (code detail : Nat) : (s.pwrRes code detail).jobs = s.jobs := rfl
@[simp] theorem pwrRes_fetches (s : State) (code detail : Nat) : (s.pwrRes code detail).fetches = s.fetches := rfl
@[simp] theorem pwrRes_qsc (s : State) (code detail : Nat) : (s.pwrRes code detail).qsc = s.qsc := rfl
@[simp] theorem pwrRes_baro (s : State) (code detail : Nat) : (s.pwrRes code detail).baro = s.baro := rfl
@[simp] theorem pwrRes_eng (s : State) (code detail : Nat) : (s.pwrRes code detail).eng = s.eng := rfl
@[simp] theorem pwrRes_rng (s : State) (code detail : Nat) : (s.pwrRes code detail).rng = s.rng := rfl
@[simp] theorem pwrRes_clu (s : State) (code detail : Nat) : (s.pwrRes code detail).clu = s.clu := rfl
@[simp] theorem pwrRes_zl (s : State) (code detail : Nat) : (s.pwrRes code detail).zl = s.zl := rfl
@[simp] theorem pwrRes_mpu (s : State) (code detail : Nat) : (s.pwrRes code detail).mpu = s.mpu := rfl
@[simp] theorem pwrRes_mem (s : State) (code detail : Nat) : (s.pwrRes code detail).mem = s.mem := rfl
@[simp] theorem pwrRes_svc (s : State) (code detail : Nat) : (s.pwrRes code detail).svc = s.svc := rfl
@[simp] theorem pwrRes_lcs (s : State) (code detail : Nat) : (s.pwrRes code detail).lcs = s.lcs := rfl
@[simp] theorem pwrRes_tmp (s : State) (code detail : Nat) : (s.pwrRes code detail).tmp = s.tmp := rfl
@[simp] theorem pwrRes_isl (s : State) (code detail : Nat) : (s.pwrRes code detail).isl = s.isl := rfl
@[simp] theorem pwrRes_pci (s : State) (code detail : Nat) : (s.pwrRes code detail).pci = s.pci := rfl
@[simp] theorem pwrRes_held (s : State) (code detail : Nat) : (s.pwrRes code detail).held = s.held := rfl
@[simp] theorem pwrRes_out (s : State) (code detail : Nat) : (s.pwrRes code detail).out = s.out := rfl
@[simp] theorem pwrRes_freeN (s : State) (code detail : Nat) : (s.pwrRes code detail).freeN = s.freeN := rfl
@[simp] theorem pwrRes_pending (s : State) (code detail : Nat) : (s.pwrRes code detail).pending = s.pending := rfl

/-! ### `lcsEnd` changes `lcs` -/

@[simp] theorem lcsEnd_glb (s : State) (code detail : Nat) : (s.lcsEnd code detail).glb = s.glb := rfl
@[simp] theorem lcsEnd_hdr (s : State) (code detail : Nat) : (s.lcsEnd code detail).hdr = s.hdr := rfl
@[simp] theorem lcsEnd_regs (s : State) (code detail : Nat) : (s.lcsEnd code detail).regs = s.regs := rfl
@[simp] theorem lcsEnd_wideHeld (s : State) (code detail : Nat) : (s.lcsEnd code detail).wideHeld = s.wideHeld := rfl
@[simp] theorem lcsEnd_latch (s : State) (code detail : Nat) : (s.lcsEnd code detail).latch = s.latch := rfl
@[simp] theorem lcsEnd_msix (s : State) (code detail : Nat) : (s.lcsEnd code detail).msix = s.msix := rfl
@[simp] theorem lcsEnd_led (s : State) (code detail : Nat) : (s.lcsEnd code detail).led = s.led := rfl
@[simp] theorem lcsEnd_vault (s : State) (code detail : Nat) : (s.lcsEnd code detail).vault = s.vault := rfl
@[simp] theorem lcsEnd_ks (s : State) (code detail : Nat) : (s.lcsEnd code detail).ks = s.ks := rfl
@[simp] theorem lcsEnd_cus (s : State) (code detail : Nat) : (s.lcsEnd code detail).cus = s.cus := rfl
@[simp] theorem lcsEnd_slices (s : State) (code detail : Nat) : (s.lcsEnd code detail).slices = s.slices := rfl
@[simp] theorem lcsEnd_slm (s : State) (code detail : Nat) : (s.lcsEnd code detail).slm = s.slm := rfl
@[simp] theorem lcsEnd_jobs (s : State) (code detail : Nat) : (s.lcsEnd code detail).jobs = s.jobs := rfl
@[simp] theorem lcsEnd_fetches (s : State) (code detail : Nat) : (s.lcsEnd code detail).fetches = s.fetches := rfl
@[simp] theorem lcsEnd_qsc (s : State) (code detail : Nat) : (s.lcsEnd code detail).qsc = s.qsc := rfl
@[simp] theorem lcsEnd_baro (s : State) (code detail : Nat) : (s.lcsEnd code detail).baro = s.baro := rfl
@[simp] theorem lcsEnd_eng (s : State) (code detail : Nat) : (s.lcsEnd code detail).eng = s.eng := rfl
@[simp] theorem lcsEnd_rng (s : State) (code detail : Nat) : (s.lcsEnd code detail).rng = s.rng := rfl
@[simp] theorem lcsEnd_pwr (s : State) (code detail : Nat) : (s.lcsEnd code detail).pwr = s.pwr := rfl
@[simp] theorem lcsEnd_clu (s : State) (code detail : Nat) : (s.lcsEnd code detail).clu = s.clu := rfl
@[simp] theorem lcsEnd_zl (s : State) (code detail : Nat) : (s.lcsEnd code detail).zl = s.zl := rfl
@[simp] theorem lcsEnd_mpu (s : State) (code detail : Nat) : (s.lcsEnd code detail).mpu = s.mpu := rfl
@[simp] theorem lcsEnd_mem (s : State) (code detail : Nat) : (s.lcsEnd code detail).mem = s.mem := rfl
@[simp] theorem lcsEnd_svc (s : State) (code detail : Nat) : (s.lcsEnd code detail).svc = s.svc := rfl
@[simp] theorem lcsEnd_tmp (s : State) (code detail : Nat) : (s.lcsEnd code detail).tmp = s.tmp := rfl
@[simp] theorem lcsEnd_isl (s : State) (code detail : Nat) : (s.lcsEnd code detail).isl = s.isl := rfl
@[simp] theorem lcsEnd_pci (s : State) (code detail : Nat) : (s.lcsEnd code detail).pci = s.pci := rfl
@[simp] theorem lcsEnd_held (s : State) (code detail : Nat) : (s.lcsEnd code detail).held = s.held := rfl
@[simp] theorem lcsEnd_out (s : State) (code detail : Nat) : (s.lcsEnd code detail).out = s.out := rfl
@[simp] theorem lcsEnd_freeN (s : State) (code detail : Nat) : (s.lcsEnd code detail).freeN = s.freeN := rfl
@[simp] theorem lcsEnd_pending (s : State) (code detail : Nat) : (s.lcsEnd code detail).pending = s.pending := rfl

/-! ### `svcEnd` changes `svc` -/

@[simp] theorem svcEnd_glb (s : State) (code detail : Nat) : (s.svcEnd code detail).glb = s.glb := rfl
@[simp] theorem svcEnd_hdr (s : State) (code detail : Nat) : (s.svcEnd code detail).hdr = s.hdr := rfl
@[simp] theorem svcEnd_regs (s : State) (code detail : Nat) : (s.svcEnd code detail).regs = s.regs := rfl
@[simp] theorem svcEnd_wideHeld (s : State) (code detail : Nat) : (s.svcEnd code detail).wideHeld = s.wideHeld := rfl
@[simp] theorem svcEnd_latch (s : State) (code detail : Nat) : (s.svcEnd code detail).latch = s.latch := rfl
@[simp] theorem svcEnd_msix (s : State) (code detail : Nat) : (s.svcEnd code detail).msix = s.msix := rfl
@[simp] theorem svcEnd_led (s : State) (code detail : Nat) : (s.svcEnd code detail).led = s.led := rfl
@[simp] theorem svcEnd_vault (s : State) (code detail : Nat) : (s.svcEnd code detail).vault = s.vault := rfl
@[simp] theorem svcEnd_ks (s : State) (code detail : Nat) : (s.svcEnd code detail).ks = s.ks := rfl
@[simp] theorem svcEnd_cus (s : State) (code detail : Nat) : (s.svcEnd code detail).cus = s.cus := rfl
@[simp] theorem svcEnd_slices (s : State) (code detail : Nat) : (s.svcEnd code detail).slices = s.slices := rfl
@[simp] theorem svcEnd_slm (s : State) (code detail : Nat) : (s.svcEnd code detail).slm = s.slm := rfl
@[simp] theorem svcEnd_jobs (s : State) (code detail : Nat) : (s.svcEnd code detail).jobs = s.jobs := rfl
@[simp] theorem svcEnd_fetches (s : State) (code detail : Nat) : (s.svcEnd code detail).fetches = s.fetches := rfl
@[simp] theorem svcEnd_qsc (s : State) (code detail : Nat) : (s.svcEnd code detail).qsc = s.qsc := rfl
@[simp] theorem svcEnd_baro (s : State) (code detail : Nat) : (s.svcEnd code detail).baro = s.baro := rfl
@[simp] theorem svcEnd_eng (s : State) (code detail : Nat) : (s.svcEnd code detail).eng = s.eng := rfl
@[simp] theorem svcEnd_rng (s : State) (code detail : Nat) : (s.svcEnd code detail).rng = s.rng := rfl
@[simp] theorem svcEnd_pwr (s : State) (code detail : Nat) : (s.svcEnd code detail).pwr = s.pwr := rfl
@[simp] theorem svcEnd_clu (s : State) (code detail : Nat) : (s.svcEnd code detail).clu = s.clu := rfl
@[simp] theorem svcEnd_zl (s : State) (code detail : Nat) : (s.svcEnd code detail).zl = s.zl := rfl
@[simp] theorem svcEnd_mpu (s : State) (code detail : Nat) : (s.svcEnd code detail).mpu = s.mpu := rfl
@[simp] theorem svcEnd_mem (s : State) (code detail : Nat) : (s.svcEnd code detail).mem = s.mem := rfl
@[simp] theorem svcEnd_lcs (s : State) (code detail : Nat) : (s.svcEnd code detail).lcs = s.lcs := rfl
@[simp] theorem svcEnd_tmp (s : State) (code detail : Nat) : (s.svcEnd code detail).tmp = s.tmp := rfl
@[simp] theorem svcEnd_isl (s : State) (code detail : Nat) : (s.svcEnd code detail).isl = s.isl := rfl
@[simp] theorem svcEnd_pci (s : State) (code detail : Nat) : (s.svcEnd code detail).pci = s.pci := rfl
@[simp] theorem svcEnd_held (s : State) (code detail : Nat) : (s.svcEnd code detail).held = s.held := rfl
@[simp] theorem svcEnd_out (s : State) (code detail : Nat) : (s.svcEnd code detail).out = s.out := rfl
@[simp] theorem svcEnd_freeN (s : State) (code detail : Nat) : (s.svcEnd code detail).freeN = s.freeN := rfl
@[simp] theorem svcEnd_pending (s : State) (code detail : Nat) : (s.svcEnd code detail).pending = s.pending := rfl

/-! ### `stepDone` changes `pwr`, `out` -/

@[simp] theorem stepDone_glb (s : State) (n : Nat) : (s.stepDone n).glb = s.glb := rfl
@[simp] theorem stepDone_hdr (s : State) (n : Nat) : (s.stepDone n).hdr = s.hdr := rfl
@[simp] theorem stepDone_regs (s : State) (n : Nat) : (s.stepDone n).regs = s.regs := rfl
@[simp] theorem stepDone_wideHeld (s : State) (n : Nat) : (s.stepDone n).wideHeld = s.wideHeld := rfl
@[simp] theorem stepDone_latch (s : State) (n : Nat) : (s.stepDone n).latch = s.latch := rfl
@[simp] theorem stepDone_msix (s : State) (n : Nat) : (s.stepDone n).msix = s.msix := rfl
@[simp] theorem stepDone_led (s : State) (n : Nat) : (s.stepDone n).led = s.led := rfl
@[simp] theorem stepDone_vault (s : State) (n : Nat) : (s.stepDone n).vault = s.vault := rfl
@[simp] theorem stepDone_ks (s : State) (n : Nat) : (s.stepDone n).ks = s.ks := rfl
@[simp] theorem stepDone_cus (s : State) (n : Nat) : (s.stepDone n).cus = s.cus := rfl
@[simp] theorem stepDone_slices (s : State) (n : Nat) : (s.stepDone n).slices = s.slices := rfl
@[simp] theorem stepDone_slm (s : State) (n : Nat) : (s.stepDone n).slm = s.slm := rfl
@[simp] theorem stepDone_jobs (s : State) (n : Nat) : (s.stepDone n).jobs = s.jobs := rfl
@[simp] theorem stepDone_fetches (s : State) (n : Nat) : (s.stepDone n).fetches = s.fetches := rfl
@[simp] theorem stepDone_qsc (s : State) (n : Nat) : (s.stepDone n).qsc = s.qsc := rfl
@[simp] theorem stepDone_baro (s : State) (n : Nat) : (s.stepDone n).baro = s.baro := rfl
@[simp] theorem stepDone_eng (s : State) (n : Nat) : (s.stepDone n).eng = s.eng := rfl
@[simp] theorem stepDone_rng (s : State) (n : Nat) : (s.stepDone n).rng = s.rng := rfl
@[simp] theorem stepDone_clu (s : State) (n : Nat) : (s.stepDone n).clu = s.clu := rfl
@[simp] theorem stepDone_zl (s : State) (n : Nat) : (s.stepDone n).zl = s.zl := rfl
@[simp] theorem stepDone_mpu (s : State) (n : Nat) : (s.stepDone n).mpu = s.mpu := rfl
@[simp] theorem stepDone_mem (s : State) (n : Nat) : (s.stepDone n).mem = s.mem := rfl
@[simp] theorem stepDone_svc (s : State) (n : Nat) : (s.stepDone n).svc = s.svc := rfl
@[simp] theorem stepDone_lcs (s : State) (n : Nat) : (s.stepDone n).lcs = s.lcs := rfl
@[simp] theorem stepDone_tmp (s : State) (n : Nat) : (s.stepDone n).tmp = s.tmp := rfl
@[simp] theorem stepDone_isl (s : State) (n : Nat) : (s.stepDone n).isl = s.isl := rfl
@[simp] theorem stepDone_pci (s : State) (n : Nat) : (s.stepDone n).pci = s.pci := rfl
@[simp] theorem stepDone_held (s : State) (n : Nat) : (s.stepDone n).held = s.held := rfl
@[simp] theorem stepDone_freeN (s : State) (n : Nat) : (s.stepDone n).freeN = s.freeN := rfl
@[simp] theorem stepDone_pending (s : State) (n : Nat) : (s.stepDone n).pending = s.pending := rfl

/-! ### `burn` changes `lcs` -/

@[simp] theorem burn_glb (s : State) (n to_ : Nat) : (s.burn n to_).glb = s.glb := rfl
@[simp] theorem burn_hdr (s : State) (n to_ : Nat) : (s.burn n to_).hdr = s.hdr := rfl
@[simp] theorem burn_regs (s : State) (n to_ : Nat) : (s.burn n to_).regs = s.regs := rfl
@[simp] theorem burn_wideHeld (s : State) (n to_ : Nat) : (s.burn n to_).wideHeld = s.wideHeld := rfl
@[simp] theorem burn_latch (s : State) (n to_ : Nat) : (s.burn n to_).latch = s.latch := rfl
@[simp] theorem burn_msix (s : State) (n to_ : Nat) : (s.burn n to_).msix = s.msix := rfl
@[simp] theorem burn_led (s : State) (n to_ : Nat) : (s.burn n to_).led = s.led := rfl
@[simp] theorem burn_vault (s : State) (n to_ : Nat) : (s.burn n to_).vault = s.vault := rfl
@[simp] theorem burn_ks (s : State) (n to_ : Nat) : (s.burn n to_).ks = s.ks := rfl
@[simp] theorem burn_cus (s : State) (n to_ : Nat) : (s.burn n to_).cus = s.cus := rfl
@[simp] theorem burn_slices (s : State) (n to_ : Nat) : (s.burn n to_).slices = s.slices := rfl
@[simp] theorem burn_slm (s : State) (n to_ : Nat) : (s.burn n to_).slm = s.slm := rfl
@[simp] theorem burn_jobs (s : State) (n to_ : Nat) : (s.burn n to_).jobs = s.jobs := rfl
@[simp] theorem burn_fetches (s : State) (n to_ : Nat) : (s.burn n to_).fetches = s.fetches := rfl
@[simp] theorem burn_qsc (s : State) (n to_ : Nat) : (s.burn n to_).qsc = s.qsc := rfl
@[simp] theorem burn_baro (s : State) (n to_ : Nat) : (s.burn n to_).baro = s.baro := rfl
@[simp] theorem burn_eng (s : State) (n to_ : Nat) : (s.burn n to_).eng = s.eng := rfl
@[simp] theorem burn_rng (s : State) (n to_ : Nat) : (s.burn n to_).rng = s.rng := rfl
@[simp] theorem burn_pwr (s : State) (n to_ : Nat) : (s.burn n to_).pwr = s.pwr := rfl
@[simp] theorem burn_clu (s : State) (n to_ : Nat) : (s.burn n to_).clu = s.clu := rfl
@[simp] theorem burn_zl (s : State) (n to_ : Nat) : (s.burn n to_).zl = s.zl := rfl
@[simp] theorem burn_mpu (s : State) (n to_ : Nat) : (s.burn n to_).mpu = s.mpu := rfl
@[simp] theorem burn_mem (s : State) (n to_ : Nat) : (s.burn n to_).mem = s.mem := rfl
@[simp] theorem burn_svc (s : State) (n to_ : Nat) : (s.burn n to_).svc = s.svc := rfl
@[simp] theorem burn_tmp (s : State) (n to_ : Nat) : (s.burn n to_).tmp = s.tmp := rfl
@[simp] theorem burn_isl (s : State) (n to_ : Nat) : (s.burn n to_).isl = s.isl := rfl
@[simp] theorem burn_pci (s : State) (n to_ : Nat) : (s.burn n to_).pci = s.pci := rfl
@[simp] theorem burn_held (s : State) (n to_ : Nat) : (s.burn n to_).held = s.held := rfl
@[simp] theorem burn_out (s : State) (n to_ : Nat) : (s.burn n to_).out = s.out := rfl
@[simp] theorem burn_freeN (s : State) (n to_ : Nat) : (s.burn n to_).freeN = s.freeN := rfl
@[simp] theorem burn_pending (s : State) (n to_ : Nat) : (s.burn n to_).pending = s.pending := rfl

/-! ### Reads after updates -/

/-- Every page has a number of its own. -/
theorem pageKey_inj {p q : Page} (h : pageKey p = pageKey q) : p = q := by
  cases p <;> cases q <;> simp only [pageKey] at h <;>
    first
    | rfl
    | omega
    | (simp only [Page.zl.injEq, Page.slm.injEq, Page.pkt.injEq, Page.scl.injEq, Page.core.injEq, Page.mpu.injEq,
        Page.slc.injEq, Page.mbx.injEq, Page.tel.injEq, Fin.ext_iff]; omega)

@[simp] theorem hd_setHd (s : State) (p : Page) (h : Hdr) : (s.setHd p h).hd p = h := getD_set_self ..

theorem hd_setHd_ne (s : State) {p q : Page} (h : Hdr) (e : q ≠ p) : (s.setHd p h).hd q = s.hd q :=
  getD_set_ne _ _ _ fun g => e (pageKey_inj g)

@[simp] theorem slice_setSlice (s : State) (n : Nat) (v : Slice) : (s.setSlice n v).slice n = v := getD_set_self ..

theorem slice_setSlice_ne (s : State) {n m : Nat} (v : Slice) (e : m ≠ n) : (s.setSlice n v).slice m = s.slice m :=
  getD_set_ne _ _ _ e

@[simp] theorem rg_setRg (s : State) (p : Page) (off : Nat) (v : W32) : (s.setRg p off v).rg p off = v := by
  unfold State.rg State.setRg
  by_cases h : v = regReset p off <;> simp [h, NMap.getD]

theorem rg_setRg_ne (s : State) {p q : Page} {o r : Nat} (v : W32) (e : regKey q r ≠ regKey p o) :
    (s.setRg p o v).rg q r = s.rg q r := by
  unfold State.rg State.setRg
  by_cases h : v = regReset p o <;> simp [h, NMap.getD, find_set_ne _ _ e, find_del_ne _ e]

@[simp] theorem tile_setTile (s : State) (n : Nat) (t : Tile) : (s.setTile n t).tile n = t := getD_set_self ..

theorem tile_setTile_ne (s : State) {n m : Nat} (t : Tile) (e : m ≠ n) : (s.setTile n t).tile m = s.tile m :=
  getD_set_ne _ _ _ e

end Sys2Proof.Laws
end

