-- ==== Sys2Proof/Laws/Shared.lean ====
section
/-! SUPPORT. What the shared operations can do, said once each: messages, page events, refusals, Ledger records, host requests, resets. -/
namespace Sys2Proof.Laws
open Sys2Proof Sys2Proof.Machine

/-! ### Messages and page events (R34, R35, R70) -/

theorem sendMsix_frame (s : State) (v : Nat) : ∃ m o, s.sendMsix v = { s with msix := m, out := s.out ++ o } := by
  unfold State.sendMsix
  split
  · exact ⟨s.msix, [], by rw [List.append_nil]⟩
  · dsimp only
    split
    · exact ⟨_, [], by rw [List.append_nil]⟩
    · exact ⟨s.msix, _, rfl⟩

theorem signal_frame (s : State) (n l : Nat) : ∃ m o, s.signal n l = { s with msix := m, out := s.out ++ o } := by
  unfold State.signal
  split
  · exact sendMsix_frame s _
  · exact ⟨s.msix, [], by rw [List.append_nil]⟩

/-- Once PFW_N has fallen no message leaves, and none is marked (R400). -/
theorem sendMsix_mute (s : State) (v : Nat) (h : s.mute = true) : s.sendMsix v = s := by
  unfold State.sendMsix
  rw [if_pos h]

theorem raise_frame (s : State) (p : Page) (b : Nat) :
    ∃ h m o, s.raise p b = { s with hdr := h, msix := m, out := s.out ++ o } := by
  unfold State.raise
  dsimp only
  split
  · exact ⟨s.hdr, s.msix, [], by rw [List.append_nil]⟩
  · split
    · obtain ⟨m, o, e⟩ := signal_frame (s.setHd p { s.hd p with intStat := (s.hd p).intStat ||| BitVec.ofNat 32 (2 ^ b) })
        (pageOwner p) 0
      exact ⟨_, m, o, e⟩
    · exact ⟨_, s.msix, [], by rw [List.append_nil]; rfl⟩

theorem refuse_frame (s : State) (p : Page) (c d : Nat) :
    ∃ h m o, s.refuse p c d = { s with hdr := h, msix := m, out := s.out ++ o } := by
  unfold State.refuse
  obtain ⟨h, m, o, e⟩ := raise_frame
    (s.setHd p { s.hd p with errCode := c, errDetail := if s.devFeat 5 then d else 0 }) p 1
  exact ⟨h, m, o, e⟩

theorem setSt_frame (s : State) (p : Page) (st : BlockState) (fc : Nat) :
    ∃ h m o, s.setSt p st fc = { s with hdr := h, msix := m, out := s.out ++ o } := by
  unfold State.setSt
  dsimp only
  split
  · exact ⟨_, s.msix, [], by rw [List.append_nil]; rfl⟩
  · obtain ⟨h, m, o, e⟩ := raise_frame (s.setHd p { s.hd p with st := st, fclass := fc }) p 0
    exact ⟨h, m, o, e⟩

/-- Whatever a message marks, every page header stays. -/
theorem signal_hd (s : State) (n l : Nat) (p : Page) : (s.signal n l).hd p = s.hd p := by
  obtain ⟨m, o, e⟩ := signal_frame s n l
  rw [e]
  rfl

/-- An event raised is set in PG_INT_STAT, whether or not a message leaves (R34). -/
theorem raise_intStat (s : State) (p : Page) (b : Nat) (hb : b < 32) :
    ((s.raise p b).hd p).intStat.getLsbD b = true := by
  have set : ((s.hd p).intStat ||| BitVec.ofNat 32 (2 ^ b)).getLsbD b = true := by
    rw [BitVec.getLsbD_or, BitVec.getLsbD_ofNat, Nat.testBit_two_pow_self]
    simp only [hb, decide_true, Bool.and_self, Bool.or_true]
  unfold State.raise
  dsimp only
  split
  · assumption
  · split
    · rw [signal_hd, hd_setHd]; exact set
    · rw [hd_setHd]; exact set

/-! ### Records (R370 to R381) -/

theorem logged_refl (s : State) : Logged s s := rfl

theorem logged_trans {s t u : State} (h : Logged s t) (k : Logged t u) : Logged s u := by
  unfold Logged at *
  rw [k, h]

theorem logged_raise (s : State) (p : Page) (b : Nat) : Logged s (s.raise p b) := by
  obtain ⟨h, m, o, e⟩ := raise_frame s p b
  unfold Logged
  rw [e]

theorem logged_newRec (s : State) (typ sev src flags : Nat) (c : Bytes) (opn : Bool) :
    Logged s (s.newRec typ sev src flags c opn) := rfl

theorem logged_ite {c : Prop} [Decidable c] {s t u : State} (h : Logged s t) (k : Logged s u) :
    Logged s (if c then t else u) := by
  split
  · exact h
  · exact k

theorem logged_poolWord (s : State) : Logged s s.poolWord.2 := by
  unfold State.poolWord
  split
  · exact rfl
  · exact rfl

theorem logged_reseed (s : State) (n : Nat) : Logged s (s.reseed n) :=
  logged_trans (logged_poolWord s) rfl

theorem logged_genInternal (s : State) (n : Nat) : Logged s (s.genInternal n).2 := by
  have h : Logged s (if s.mustReseed n then s.reseed n else s) := logged_ite (logged_reseed s n) (logged_refl s)
  unfold State.genInternal
  dsimp only
  exact logged_trans h (logged_ite rfl rfl)

/-- A record entered changes the Ledger alone. -/
theorem logged_enter (s : State) (typ sev src : Nat) (c : Bytes) : Logged s (s.enter typ sev src c) := by
  unfold State.enter
  dsimp only
  split
  · exact rfl
  · exact rfl

theorem logged_ownDraw (s : State) : Logged s s.ownDraw.2 := by
  unfold State.ownDraw
  split
  · exact logged_refl s
  · rename_i n _
    split
    · exact logged_refl s
    · exact logged_trans (logged_genInternal s n)
        (logged_ite (logged_trans (t := { (s.genInternal n).2 with rng := { (s.genInternal n).2.rng with intStopNoted := true } }) rfl
          (logged_enter _ _ _ _ _)) (logged_refl _))

theorem logged_cpSign (s : State) (x h b : Bytes) : Logged s (s.cpSign x h b).2 := by
  unfold State.cpSign
  split
  · exact logged_refl s
  · exact rfl

theorem logged_checkpoint (s : State) : Logged s s.checkpoint := by
  unfold State.checkpoint
  split
  · dsimp only
    refine logged_trans (logged_ownDraw s) (logged_trans (logged_cpSign s.ownDraw.2 s.ownDraw.1 s.ownDraw.2.cpHeader s.ownDraw.2.cpBody) (logged_trans ?_ (logged_raise _ .ldg 16)))
    exact rfl
  · exact logged_refl s

theorem logged_cpDue (s : State) : Logged s s.cpDue := logged_ite (logged_checkpoint s) (logged_refl s)

/-- An event recorded changes only what the Ledger's own working may change. -/
theorem logged_record (s : State) (typ sev src : Nat) (c : Bytes) : Logged s (s.record typ sev src c) :=
  logged_trans (logged_enter s typ sev src c) (logged_cpDue _)

/-! ### Host requests (R26, R28, R392, R393) -/

theorem wakeFor_gale (s : State) (n : Nat) (h : s.pwr.ladder = .gale) : s.wakeFor n = s := by
  unfold State.wakeFor
  rw [h]

/-- A request reaches an awake unit at once. -/
theorem hostReq_awake (s : State) (c : Instr) (f : State → State) (h : s.awake) : s.hostReq c f = f s := by
  obtain ⟨h1, h2⟩ := h
  unfold State.hostReq
  rw [wakeFor_gale s 1 h2]
  simp only [State.linked, State.asleep, h1, h2]
  rfl

/-- A unit in Frost, or with no core supply, hears no request. -/
theorem hostReq_unlinked (s : State) (c : Instr) (f : State → State) (h : s.linked = false) : s.hostReq c f = s := by
  unfold State.hostReq
  rw [h]
  rfl

theorem onPage_answers (s : State) (p : Page) (f : State → State) (h : s.pageAnswers p = true ∧ noWrites p = false) :
    s.onPage p f = f s := by
  unfold State.onPage
  rw [h.1, h.2]
  rfl

theorem onPage_silent (s : State) (p : Page) (f : State → State) (h : s.pageAnswers p = false) : s.onPage p f = s := by
  unfold State.onPage
  rw [h]
  rfl

/-- A request to a page the host reaches is served. -/
theorem hostReq_reach (s : State) (c : Instr) (p : Page) (f : State → State) (h : s.reach p) :
    s.hostReq c (fun x => x.onPage p f) = f s := by
  rw [hostReq_awake s c _ h.1, onPage_answers s p f h.2]

/-! ### Resets (R213, R266, R399) -/

/-- Every page, and what the host's slices and jobs held, is as at reset. -/
theorem takeReset_gone (s : State) (c : ResetClass) (n : Nat) :
    (s.takeReset c n).hdr = [] ∧ (s.takeReset c n).regs = [] ∧ (s.takeReset c n).msix = [] ∧
      (s.takeReset c n).slices = [] ∧ (s.takeReset c n).jobs = [] ∧ (s.takeReset c n).fetches = [] ∧
      (s.takeReset c n).ks.keys = [] ∧ (s.takeReset c n).eng = {} ∧ (s.takeReset c n).cus = {} ∧
      (s.takeReset c n).held = [] :=
  ⟨rfl, rfl, rfl, rfl, rfl, rfl, rfl, rfl, rfl, rfl⟩

/-- PWR_RESET names the class taken. -/
@[simp] theorem takeReset_reset (s : State) (c : ResetClass) (n : Nat) : (s.takeReset c n).pwr.reset = c := rfl

@[simp] theorem takeReset_resetCause (s : State) (c : ResetClass) (n : Nat) : (s.takeReset c n).pwr.resetCause = n := rfl

/-! ### A job's end (R54, R400) -/

/-- Once PFW_N has fallen a job in flight never completes. -/
theorem finish_mute (s : State) (j : Job) (c : Completion) (o : Bytes) (b : Bool) (h : s.mute = true) :
    s.finish j c o b = s := by
  unfold State.finish
  rw [if_pos h]

end Sys2Proof.Laws
end

