-- ==== Sys2Proof/Laws/Memory.lean ====
section
/-! SUPPORT. A tile's operand memory and the lines of device memory: read after write, what a store leaves alone, and the
canonical form every operation keeps. -/
namespace Sys2Proof.Laws
open Sys2Proof Sys2Proof.Machine

/-- Induction on a list from its end. -/
theorem rev_induct {α : Type} {P : List α → Prop} (nil : P []) (append_singleton : ∀ l a, P l → P (l ++ [a]))
    (l : List α) : P l := by
  have h : ∀ l : List α, P l.reverse := by
    intro l
    induction l with
    | nil => exact nil
    | cons a l ih => simpa using append_singleton _ a ih
  simpa using h l.reverse

/-! ### Read after write -/

/-- A word reads back as the low 40 bits written. -/
theorem word_put_self (t : Tile) (a v : Nat) : (t.put a v).word a = v % 2 ^ 40 := by
  unfold Tile.word Tile.put
  by_cases h : v % 2 ^ 40 = 0
  · rw [if_pos h, h]
    simp [NMap.getD]
  · rw [if_neg h, getD_set_self, BitVec.toNat_ofNat]

/-- A write leaves every other word alone. -/
theorem word_put_ne (t : Tile) {a b : Nat} (v : Nat) (h : b ≠ a) : (t.put a v).word b = t.word b := by
  unfold Tile.word Tile.put
  by_cases g : v % 2 ^ 40 = 0
  · rw [if_pos g, NMap.getD, find_del_ne _ h]
    rfl
  · rw [if_neg g, getD_set_ne _ _ _ h]

/-- A write changes the memory alone. -/
theorem put_frame (t : Tile) (a v : Nat) : t.put a v = { t with mem := (t.put a v).mem } := rfl

/-- A run of writes leaves every word that none of them names alone, and changes the memory alone. -/
theorem foldl_put_frame (l : List (Nat × Nat)) (t : Tile) (a : Nat) :
    let u := l.foldl (fun x p => x.put (a + p.1) p.2) t
    (∀ b, (∀ p ∈ l, b ≠ a + p.1) → u.word b = t.word b) ∧ u = { t with mem := u.mem } := by
  induction l generalizing t with
  | nil => exact ⟨fun _ _ => rfl, rfl⟩
  | cons p l ih =>
    obtain ⟨h1, h2⟩ := ih (t.put (a + p.1) p.2)
    refine ⟨fun b hb => ?_, h2⟩
    have := h1 b fun q hq => hb q (List.mem_cons_of_mem _ hq)
    exact this.trans (word_put_ne _ _ (hb p (List.mem_cons_self ..)))

/-- A store leaves the words outside its region alone. -/
theorem word_store_ne (t : Tile) (a : Nat) (l : List Nat) {b : Nat} (h : b < a ∨ a + l.length ≤ b) :
    (t.store a l).word b = t.word b := by
  refine (foldl_put_frame _ t a).1 b fun p hp => ?_
  have := List.mem_range.1 (List.of_mem_zip hp).1
  omega

/-- A store changes the memory alone. -/
theorem store_frame (t : Tile) (a : Nat) (l : List Nat) : t.store a l = { t with mem := (t.store a l).mem } :=
  (foldl_put_frame _ t a).2

/-- A store with a word more at its end is that store, then the word's write. -/
theorem store_append (t : Tile) (a : Nat) (l : List Nat) (v : Nat) :
    t.store a (l ++ [v]) = (t.store a l).put (a + l.length) v := by
  unfold Tile.store
  have h : List.zip (List.range (l ++ [v]).length) (l ++ [v]) = List.zip (List.range l.length) l ++ [(l.length, v)] := by
    rw [List.length_append, List.length_singleton, List.range_succ, List.zip_append (by simp)]
    rfl
  rw [h, List.foldl_append]
  rfl

/-- Every word of a store reads back as its low 40 bits. -/
theorem word_store (t : Tile) (a : Nat) (l : List Nat) (i : Nat) (h : i < l.length) :
    (t.store a l).word (a + i) = l[i] % 2 ^ 40 := by
  induction l using rev_induct with
  | nil => simp at h
  | append_singleton l v ih =>
    rw [store_append]
    by_cases e : i = l.length
    · subst e
      rw [word_put_self]
      simp
    · have hi : i < l.length := by simp at h; omega
      rw [word_put_ne _ _ (by omega), ih hi]
      simp [List.getElem_append_left hi]

/-! ### The canonical form -/

theorem memory_wf_nil : Memory.wf [] = true := rfl

theorem memory_wf_put {t : Tile} {a : Nat} (v : Nat) (ha : a < 16384) (h : Memory.wf t.mem = true) :
    Memory.wf (t.put a v).mem = true := by
  unfold Memory.wf at *
  rw [Bool.and_eq_true] at *
  obtain ⟨h1, h2⟩ := h
  unfold Tile.put
  by_cases g : v % 2 ^ 40 = 0
  · rw [if_pos g]
    refine ⟨wf_del a h1, ?_⟩
    exact List.all_eq_true.2 fun p hp => List.all_eq_true.1 h2 p (List.mem_filter.1 hp).1
  · rw [if_neg g]
    refine ⟨wf_set a _ h1, ?_⟩
    refine List.all_eq_true.2 fun p hp => ?_
    rcases mem_set hp with e | e
    · subst e
      have : (BitVec.ofNat 40 v) ≠ 0 := fun z => g (by simpa using congrArg BitVec.toNat z)
      simpa [ha] using this
    · exact List.all_eq_true.1 h2 p e

theorem memory_wf_store {t : Tile} {a : Nat} (l : List Nat) (ha : a + l.length ≤ 16384) (h : Memory.wf t.mem = true) :
    Memory.wf (t.store a l).mem = true := by
  induction l using rev_induct with
  | nil => exact h
  | append_singleton l v ih =>
    rw [store_append]
    simp at ha
    exact memory_wf_put v (by omega) (ih (by omega))

theorem memory_wf_wiped (t : Tile) : Memory.wf t.wiped.mem = true := rfl

/-- At reset every tile's operand memory lists nothing. -/
theorem memory_wf_reset (n : Nat) : Memory.wf (State.reset.tile n).mem = true := rfl

/-! ### Lines of device memory (R334) -/

/-- A line that is written changes its stored form and the poison list, nothing else. -/
theorem putLine_frame (s : State) (l : Nat) (d : Bytes) :
    s.putLine l d = { s with mem := { s.mem with poison := (s.putLine l d).mem.poison, lines := (s.putLine l d).mem.lines } } := rfl

/-- A line that is written stands sealed under its page's KeyID. -/
@[simp] theorem find_putLine_self (s : State) (l : Nat) (d : Bytes) :
    NMap.find (s.putLine l d).mem.lines (l / 64) = some (s.sealLine l (s.potLine l).keyId d) := by simp [State.putLine]

/-- The other lines stay as they are stored. -/
theorem find_putLine_ne (s : State) (l : Nat) (d : Bytes) {n : Nat} (h : n ≠ l / 64) :
    NMap.find (s.putLine l d).mem.lines n = NMap.find s.mem.lines n := by simp [State.putLine, find_set_ne, h]

/-- A written line is on the poison list no longer; the others are as before (R339). -/
theorem mem_putLine_poison (s : State) (l : Nat) (d : Bytes) (n : Nat) :
    n ∈ (s.putLine l d).mem.poison ↔ n ∈ s.mem.poison ∧ n ≠ l / 64 := by simp [State.putLine]

theorem lines_wf_putLine {s : State} (l : Nat) (d : Bytes) (h : NMap.wf s.mem.lines = true) :
    NMap.wf (s.putLine l d).mem.lines = true := wf_set _ _ h

/-- Every entry that names a KeyID comes to name another; lines are sealed anew by moveLines, before it. -/
theorem moveKey_lines (s : State) (a b : Nat) : (s.moveKey a b).mem.lines = s.mem.lines := rfl

/-- A line that fails is counted, poisoned and recorded; what is stored stays. -/
theorem lineFail_lines (s : State) (l : Nat) : (s.lineFail l).mem.lines = s.mem.lines := by
  have r : ∀ (u : State) a b c d, (u.record a b c d).mem = u.mem := by
    intro u a b c d
    have h := logged_record u a b c d
    unfold Logged at h
    rw [h]
  have p : ∀ u : State, (u.poisonLine l).mem.lines = u.mem.lines := by
    intro u
    unfold State.poisonLine
    split
    · rfl
    · split <;> rfl
  simp only [State.lineFail, r, p]

theorem foldl_lineFail_lines (l : List Nat) (s : State) :
    (l.foldl (fun (a : State) n => a.lineFail (64 * n)) s).mem.lines = s.mem.lines := by
  induction l generalizing s with
  | nil => rfl
  | cons n l ih => rw [List.foldl_cons, ih, lineFail_lines]

theorem lines_wf_moveLines {s : State} (a b lo hi : Nat) (m : Option (BitVec 36)) (h : NMap.wf s.mem.lines = true) :
    NMap.wf (s.moveLines a b lo hi m).mem.lines = true := by
  unfold State.moveLines
  dsimp only
  refine wf_mapV _ ?_
  rw [foldl_lineFail_lines]
  exact h

theorem lines_wf_zeroLines {s : State} (hit : Nat → Bool) (h : NMap.wf s.mem.lines = true) :
    NMap.wf (s.zeroLines hit).mem.lines = true := by
  unfold State.zeroLines
  dsimp only
  exact wf_mapV _ h

theorem lines_wf_reset : NMap.wf State.reset.mem.lines = true := rfl

end Sys2Proof.Laws
end

