-- ==== Sys2Proof/WellFormed.lean ====
section
/-! DEFINITION. Which commands are well formed: operands of the lengths and ranges that the manual's rows have. -/
namespace Sys2Proof
open Sys2Proof.Machine

/-- Whether a write to a register has a row of its own in the table, so that REGISTER_WRITE does not stand for it. A write of
PG_CTRL gives its three fields at once (R32, R33); the rows PG_CTRL_ENABLE, _DRAIN and _OFFLINE give one each, so that the write
of the whole register is a REGISTER_WRITE's. -/
def ownRow (p : Page) (off : Nat) (v : W32) : Bool :=
  let go := v.getLsbD 31
  if [0x018, 0x020].contains off then true
  else match p with
    | .glb => off = 0x090 && v.getLsbD 0
    | .baro => off = 0x04C || off = 0x058 || (off = 0x048 && v.getLsbD 0)
    | .pwr => off = 0x048 && go && (fld v 0 2 = 1 || fld v 0 2 = 2)
    | .rng => off = 0x05C || (off = 0x04C && v.getLsbD 0) || (off = 0x070 && v.getLsbD 0)
    | .lcs => off = 0x048 && go && 1 ≤ fld v 0 3 && fld v 0 3 ≤ 5
    | .tmp => off = 0x044 || (off = 0x058 && go)
    | .clu => off = 0x088 || off = 0x08C || (off = 0x098 && go && fld v 0 2 = 1)
    | .qsc => off = 0x044 || (off = 0x074 && v.getLsbD 0) || (off = 0x110 && (fld v 0 2 = 2 || fld v 0 2 = 3))
    | .slm n =>
      if n.val = 0 then off = 0x040 && go && 1 ≤ fld v 0 4 && fld v 0 4 ≤ 6
      else n.val = 1 && ((off = 0x048 || off = 0x050) && v.getLsbD 0)
    | .pkt _ => (off = 0x044 && fld v 0 3 != 0) || (off = 0x04C && go && benchOps.contains (fld v 0 8)) || off = 0x064
    | .core n => n.val = 0 && (off = 0x080 || (off = 0x100 && go && 1 ≤ fld v 0 3 && fld v 0 3 ≤ 5))
    | .kst => (off = 0x060 || off = 0x074) && go
    | .slc _ =>
      (off = 0x060 && v.getLsbD 0) || off = 0x108 || off = 0x10C || off = 0x110 || off = 0x114 ||
        (off = 0x118 && 1 ≤ fld v 0 3 && fld v 0 3 ≤ 4)
    | .mbx _ => (off = 0x048 || off = 0x050) && v.getLsbD 0
    | .tel _ _ => off = 0x040 && fld v 0 3 != 0
    | .ldg | .mem | .zl _ | .scl _ | .mpu _ | .cus => false

/-- A register write names an aligned 8-byte block of its window, none of whose halves has a row of its own. -/
def writeOk (w : Window) (addr : Nat) (be : BitVec 8) (data : BitVec 64) : Bool :=
  let half := fun (i : Nat) => match pageAt w addr, halves be with
    | some p, some l => !l.contains i || !ownRow p (addr % 4096 + 4 * i) (Machine.half data.toNat i)
    | _, _ => true
  addr % 8 = 0 && (match w with | .slice => true | .control => addr < 2 ^ 24 | .config => addr < 2 ^ 12 && be != 0) && half 0 && half 1

/-- A frame's header fields fit Table 13.2. -/
def frameOk (f : FrameHdr) : Bool := f.epoch < 2 ^ 32 && f.ctr < 2 ^ 64 && f.body.length ≤ 528

/-- A start finds eight sources, four image classes, and a capacity of R432. -/
def envOk (e : StartEnv) : Bool :=
  e.copySel.length = 4 && e.copySpare.length = 4 && e.resumeOk.length = 4 && e.kat.inst.length = 8 && e.srcBlocks.length = 8 &&
    (e.srcBlocks.all fun l => l.length = 4 && l.all fun b => b.length = 128) && (e.words.all fun w => w.length = 32) && e.words.length ≤ 64 &&
    8 ≤ e.gib0 && e.gib0 ≤ 64 && (e.gib1 = 0 || e.gib1 = e.gib0)

/-- What a run on engines releases is counted in 32 bits. -/
def runOk (r : RunEnd) : Bool := r.released < 2 ^ 32

/-- An engine offered to a job: pairs are named once each, and at least one. -/
def engineOk : Engine → Bool
  | .pairs l => !l.isEmpty && decide l.Nodup
  | _ => true

/-- Whether a command's operands are of the lengths and ranges its row has. -/
def Instr.wellFormed : Instr → Bool
  | .registerWrite w a be d => writeOk w a.toNat be d
  | .wideLoRead w x => x.addr.toNat % 8 = 0 && x.be != 0 && match w with
      | .control => x.addr.toNat < 2 ^ 24
      | .slice => x.addr.toNat < 2 ^ 26
      | .doorbell => true
  | .doorbell a be => !be.isEmpty && be.length ≤ 4096 && a.toNat + be.length ≤ 2 ^ 29
  | .entryReadComplete _ _ (.data b) => b.length = 8 || b.length = 120 || b.length = 128
  | .jobBinding _ e _ _ => engineOk e
  | .baroUpdate x _ => x.pace < 2 ^ 16
  | .recalComplete _ x => x.found.length = 16
  | .hostRttInterval n mx mean => mean ≤ mx && n < 2 ^ 32
  | .benchDataAccess _ false v => v = 0
  | .pkSign _ r | .pkVerify _ r | .pkKeygen _ r | .pkDerive _ r | .kemEncaps _ r | .kemDecaps _ r | .rsaEncrypt _ r
  | .rsaDecrypt _ r | .batchVerify _ r | .chainVerify _ r | .bulkItemComplete _ _ r | .rldLoad _ r | .rldUnload _ r
  | .curveLoad _ _ r | .curveUnload _ r | .aeadSeal _ r | .aeadOpen _ r | .cipher _ r | .hash _ r | .macGen _ r
  | .macCheck _ r | .kdf _ r | .tellerDone _ _ r | .rngRead _ r | .keyDelete _ r | .keyAttrGet _ r | .keyAttrRestrict _ r
  | .quorumChallenge _ r | .quorumSubmit _ r | .tokenVerified _ _ _ r | .ledgerRead _ r | .nop _ r => runOk r
  | .keyImport _ aux r | .keyExport _ aux r | .blobLoad _ aux r | .pubkeyLoad _ aux r => runOk r && aux.all engineOk
  | .rawBlock _ b | .startupTestDone _ b => b.length = 128
  | .esRecovery k | .kat k | .katCycle k => k.inst.length = 8
  | .rngStartRetry e | .ladderExitComplete e | .frostExit e | .coldStart e | .dramTrainingRetry e => envOk e
  | .heartbeat _ f => frameOk f.hdr
  | .resultFrame _ f _ | .keymove _ f _ | .ackFrame _ f _ => frameOk f
  | .jobFrame _ f j => frameOk f && j.entry.length = 128
  | .linkFrame _ f a => frameOk f && a.uid.length = 16 && a.eph.length = 97
  | .rekey _ a => a.uid.length = 16 && a.eph.length = 97
  | .roster _ f m => frameOk f && m.headUid.length = 16 && m.ids.all fun x => x.2.length = 16
  | .linkStateChange _ (.trained w) => w.val = 1 || w.val = 2 || w.val = 4
  | .tamperEvent l _ bad => !l.isEmpty && (match bad with | some r => r < 2048 | none => true)
  | .battSvcWindowEnd bad => match bad with | some r => r < 2048 | none => true
  | .samplePreload pins cells => pins.length = cells.length
  | .bypass c => !([0x00, 0x01, 0x02, 0x04, 0x05, 0x20].contains c)
  | .debugPortAccess a _ d => !d.isEmpty && (match a with | .mem a => a.toNat % 4096 + d.length ≤ 4096 | .core .. => true)
  | .pgLockWrite .. | .pgIntEnWrite .. | .pgCtrlEnable .. | .pgCtrlDrain .. | .pgCtrlOffline .. | .blockDrained .. => true
  | .selfTestDone .. | .msixUnmask .. | .glbFeatCommit | .fetchTurn | .entryReadComplete .. | .inputReadComplete .. => true
  | .ringEnable .. | .ringDisable .. | .ringDisableAbort .. | .ringResume .. | .ringConfigWrite .. | .ringSchedWrite .. => true
  | .qscSliceWeightWrite .. | .qscRingDisable | .qscRingDisableAbort | .hwmClr | .jobTimeLimit .. | .minClr => true
  | .baroTargetWrite .. | .baroVlimWrite .. | .warmTableBuilt .. | .benchEnter .. | .benchExit .. | .benchAbort .. => true
  | .benchDataAccess .. | .setmod .. | .benchMul .. | .benchSqr .. | .benchAdd .. | .benchSub .. | .tomont .. => true
  | .frommont .. | .benchInv .. | .benchCmp .. | .benchCopy .. | .benchClear .. | .nttDsa .. | .inttDsa .. => true
  | .pwmDsa .. | .nttKem .. | .inttKem .. | .basemulKem .. | .benchCommandDone .. | .tlGo .. | .tlAbort .. => true
  | .tlClear .. | .soscMeasure .. | .sourceBenchEnd .. | .rngPrTimeout .. => true
  | .conditionerRetest .. | .recal | .rngReseedWrite .. | .kstCompactGo | .compactionDone | .kstResPurgeGo => true
  | .archiveWriteComplete .. | .approvalWindowEnd .. | .challenge | .create .. | .resize .. | .hold | .release => true
  | .destroy | .sliceEraseComplete .. | .slFeatCommit .. | .mbSend .. | .mbInAck .. | .slmMbTxSend | .slmMbRxAck => true
  | .execute .. | .cluReplMaskWrite .. | .heartbeatSend | .memberLost .. | .headTimeout | .linkStateChange .. => true
  | .authRetry .. | .joinTimeout .. | .replicaCommit .. | .replicaSyncComplete .. | .partitionFault .. => true
  | .partitionTimeLimit .. | .watchdogExpiry .. | .coreWdogWrite .. | .mpuSync .. | .mpuSyncDone .. => true
  | .transition .. | .debugChallenge | .debugOpen .. | .debugClose | .debugGrantEnd | .config .. => true
  | .tmpBattSvcGo .. | .tmpEvtClear .. | .recordWindowClose .. | .flashCommitComplete .. | .flashCommitResume => true
  | .breezeEntry | .ladderDescent | .wakeEvent .. | .wakeTickAlarm | .gpioWake .. | .enterFog | .enterFrost => true
  | .deepEntryAfterDrain | .drainLimit | .d3hotEntry | .d0Return | .systemReset .. | .pfwFall | .pfwRise .. => true
  | .powerFailReset | .install .. | .activate | .activationComplete .. | .commit | .abandon | .rotate => true
  | .rotationComplete | .smbusStatus | .smbusWake | .smbusUid | .extest .. | .idcode | .clamp | .highz => true
  | .debugInstr | .coreSupplyLoss .. | .vaonLoss | .vaonReturn | .vbatChange .. | .entAttrWrite .. => true
  | .configurationRequest => true

end Sys2Proof
end

