-- ==== Sys2Proof/Tests/Slice0.lean ====
section
/-! SUPPORT. Tests: the well-formedness smoke, single steps on small states, and a witness of every statement's hypotheses.
Expected values come from the spec's tables and rules named at each test. -/
namespace Sys2Proof.Tests
set_option Elab.async false
open Sys2Proof Sys2Proof.Machine

/-! ### Small states -/

/-- The state a command answers; the reset state where it answers none. -/
def run (c : Instr) (s : State) : State :=
  match exec c s with
  | .next t => t
  | _ => State.reset

/-- A ring as enabled, at 0x1000, of 16 entries. -/
def ring0 : Ring := { gid := 0, base := 0x1000 }

/-- A slice as created for a tenant, with its features committed and one ring. -/
def slice0 : Slice := { st := .active, pasid := some 7, featOk := true, featAcc := [0x1FFFF, 0, 0, 0], rings := [(0, ring0)] }

/-- A unit that has started (R40, R403), with all features accepted and slice 0 in use. -/
def up : State :=
  { State.reset with
    glb := { run := .ready, accepted := [0x3F, 0xDFFF, 0, 0], committed := true }
    pwr := { configUp := true, startStep := 10 }
    slices := [(0, slice0)] }

/-- `up` with the ring of slice 0 changed. -/
def withRing (g : Ring) : State := { up with slices := [(0, { slice0 with rings := [(0, g)] })] }

/-- `up` with a page's header changed. -/
def withHd (p : Page) (h : Hdr) : State := up.setHd p h

/-- An entry of FMT 1 owned by the unit (Table 3.1): an opcode, and octets at offsets. -/
def entry (op : Nat) (l : List (Nat × Bytes)) : Bytes :=
  l.foldl (fun b p => b.take p.1 ++ p.2 ++ b.drop (p.1 + p.2.length)) ([1, 1] ++ toLE 2 op ++ zeros 124)

/-- An outstanding entry of ring 0 of slice 0, staged. -/
def job0 (cls : Fifo) (e : Bytes) : Job :=
  { id := 0, slice := 0, ring := 0, index := 0, addr := 0x1000, pasid := some 7, entry := e, cls := cls, phase := .staged }

/-- `up` with jobs outstanding on the ring of slice 0, which scans. -/
def withJobs (l : List Job) : State :=
  { withRing { ring0 with st := .scanning, scan := l.length } with jobs := l, qsc := { nextJob := l.length } }

/-! ### Ill-formed commands are refused, one for each check of `Instr.wellFormed`; and a well-formed one beside them -/

theorem test_wf_unaligned : (Instr.registerWrite .control 0x081 0x0F 0).wellFormed = false := by decide
theorem test_wf_window : (Instr.registerWrite .control 0x1000000 0x0F 0).wellFormed = false := by decide
theorem test_wf_own_row : (Instr.registerWrite .control 0x090 0x0F 1).wellFormed = false := by decide
theorem test_wf_own_row_high : (Instr.registerWrite .control 0x018 0xF0 (1 <<< 32)).wellFormed = true := by decide
theorem test_wf_own_row_low : (Instr.registerWrite .control 0x018 0x0F 1).wellFormed = false := by decide
theorem test_wf_write : (Instr.registerWrite .control 0x080 0x0F 5).wellFormed = true := by decide
theorem test_wf_wide_unaligned : (Instr.wideLoRead .control { addr := 0x2054 }).wellFormed = false := by decide
theorem test_wf_wide_none : (Instr.wideLoRead .control { addr := 0x2058, be := 0 }).wellFormed = false := by decide
theorem test_wf_wide_window : (Instr.wideLoRead .control { addr := 0x1000000 }).wellFormed = false := by decide
theorem test_wf_wide : (Instr.wideLoRead .control { addr := 0x2050, be := 0xF0 }).wellFormed = true := by decide
theorem test_wf_doorbell_empty : (Instr.doorbell 0 []).wellFormed = false := by decide
theorem test_wf_doorbell_end : (Instr.doorbell 0x1FFFFFFF [true, true]).wellFormed = false := by decide
theorem test_wf_entry_read : (Instr.entryReadComplete 0 0 (.data [0])).wellFormed = false := by decide
theorem test_wf_pairs_none : (Instr.jobBinding .sym (.pairs []) .ok .ok).wellFormed = false := by decide
theorem test_wf_pairs_twice : (Instr.jobBinding .sym (.pairs [3, 3]) .ok .ok).wellFormed = false := by decide
theorem test_wf_baro : (Instr.baroUpdate { pace := 65536 } true).wellFormed = false := by decide
theorem test_wf_rtt_mean : (Instr.hostRttInterval 64 5 6).wellFormed = false := by decide
theorem test_wf_rtt_count : (Instr.hostRttInterval (2 ^ 32) 6 5).wellFormed = false := by decide
theorem test_wf_bench_read : (Instr.benchDataAccess 0 false 1).wellFormed = false := by decide
theorem test_wf_config : (Instr.registerWrite .config 0x1000 0x0F 0).wellFormed = false := by decide
theorem test_wf_run : (Instr.pkSign 0 { released := 2 ^ 32 }).wellFormed = false := by decide
theorem test_wf_run_sym : (Instr.aeadOpen 0 { released := 2 ^ 32 - 1 }).wellFormed = true := by decide
theorem test_wf_import_aux : (Instr.keyImport 0 [.pairs []] {}).wellFormed = false := by decide
theorem test_wf_raw_block : (Instr.rawBlock 0 []).wellFormed = false := by decide
theorem test_wf_recal :
    (Instr.recalComplete 0 { found := [] }).wellFormed = false := by decide
theorem test_wf_startup : (Instr.startupTestDone 0 [0]).wellFormed = false := by decide
theorem test_wf_kat : (Instr.kat { inst := [true] }).wellFormed = false := by decide
theorem test_wf_env_copies : (Instr.coldStart { copySel := [true] }).wellFormed = false := by decide +kernel
theorem test_wf_env_spare : (Instr.coldStart { copySpare := [] }).wellFormed = false := by decide +kernel
theorem test_wf_env_resume : (Instr.frostExit { resumeOk := [] }).wellFormed = false := by decide +kernel
theorem test_wf_env_kat : (Instr.coldStart { kat := { inst := [] } }).wellFormed = false := by decide +kernel
theorem test_wf_env_sources : (Instr.rngStartRetry { srcBlocks := [] }).wellFormed = false := by decide +kernel
theorem test_wf_env_blocks : (Instr.rngStartRetry { srcBlocks := List.replicate 8 [[0]] }).wellFormed = false := by
  decide +kernel
theorem test_wf_env_word : (Instr.ladderExitComplete { words := [[0]] }).wellFormed = false := by decide +kernel
theorem test_wf_env_words : (Instr.coldStart { words := List.replicate 65 (List.replicate 32 0) }).wellFormed = false := by
  decide +kernel
theorem test_wf_env_small : (Instr.coldStart { gib0 := 7 }).wellFormed = false := by decide +kernel
theorem test_wf_env_large : (Instr.coldStart { gib0 := 65 }).wellFormed = false := by decide +kernel
theorem test_wf_env_uneven : (Instr.dramTrainingRetry { gib0 := 16, gib1 := 8 }).wellFormed = false := by decide +kernel
theorem test_wf_env : (Instr.coldStart { gib0 := 64, gib1 := 64 }).wellFormed = true := by decide +kernel
theorem test_wf_frame_epoch : (Instr.heartbeat 0 { hdr := { epoch := 2 ^ 32 } }).wellFormed = false := by decide
theorem test_wf_frame_ctr : (Instr.resultFrame 0 { ctr := 2 ^ 64 } { job := 0 }).wellFormed = false := by decide
theorem test_wf_frame_len : (Instr.ackFrame 0 { body := List.replicate 529 0 } {}).wellFormed = false := by decide +kernel
theorem test_wf_auth_uid : (Instr.linkFrame 0 {} { uid := [] }).wellFormed = false := by decide
theorem test_wf_job_entry : (Instr.jobFrame 0 {} { id := 0 }).wellFormed = false := by decide
theorem test_wf_auth_key : (Instr.linkFrame 0 {} { uid := List.replicate 16 0 }).wellFormed = false := by decide
theorem test_wf_rekey_uid : (Instr.rekey 0 { uid := [1] }).wellFormed = false := by decide
theorem test_wf_roster_head :
    (Instr.roster 0 {} { ver := 1, topo := 0, headUid := [], ids := [] }).wellFormed = false := by decide
theorem test_wf_roster_id :
    (Instr.roster 0 {} { ver := 1, topo := 0, headUid := List.replicate 16 0, ids := [(1, [])] }).wellFormed
      = false := by decide
theorem test_wf_width : (Instr.linkStateChange 0 (.trained 3)).wellFormed = false := by decide
theorem test_wf_tamper_none : (Instr.tamperEvent [] 0 none).wellFormed = false := by decide
theorem test_wf_tamper_bad : (Instr.tamperEvent [3] 0 (some 2048)).wellFormed = false := by decide
theorem test_wf_batt : (Instr.battSvcWindowEnd (some 2048)).wellFormed = false := by decide
theorem test_wf_preload : (Instr.samplePreload [0] []).wellFormed = false := by decide
theorem test_wf_bypass : (Instr.bypass 0x05).wellFormed = false := by decide
theorem test_wf_debug_none : (Instr.debugPortAccess (.mem 0) false []).wellFormed = false := by decide
theorem test_wf_debug_page : (Instr.debugPortAccess (.mem 0xFFF) true [0, 0]).wellFormed = false := by decide

/-! ### The queue, registers and pages (chapter 2): witnesses of the hypotheses, with what the command then gives -/

theorem witness_StepRunsFront :
    let s := { up with pending := [.idcode, .vaonLoss] }
    s.pending = .idcode :: [.vaonLoss] ∧ step s = exec .idcode { s with pending := [.vaonLoss] } := ⟨rfl, rfl⟩

/-- OPTIME wraps at its last value; without VAON and the core supplies it stands. -/
theorem witness_EmptyQueueTicks :
    let s := { up with glb := { up.glb with optime := 2 ^ 48 - 1 } }
    let u := { s with pwr := { s.pwr with vaon := false, coreSupply := false } }
    s.pending = [] ∧ (s.pwr.vaon = true ∨ s.linked = true) ∧ (idleTick s).glb.optime = 0 ∧
      u.pending = [] ∧ u.pwr.vaon = false ∧ u.linked = false ∧ (idleTick u).glb.optime = 2 ^ 48 - 1 ∧
      s.ks.compBusy = false ∧ (idleTick s).ks = s.ks ∧ s.internalNeed = false ∧ (idleTick s).pwr = s.pwr ∧ s.svc.rotBusy = false := by decide +kernel

theorem witness_QueueKept : exec .vaonLoss up = .next { up with pwr := { up.pwr with vaon := false } } := rfl

/-- A whole register in the low half, one in the high half, and a locked RWL register (R9, R36, R37). -/
theorem witness_PlainRegisterWrite :
    let a := run (.registerWrite .control 0x080 (oneReg 0) 0xFFFFFFFF00000005) up
    let b := run (.registerWrite .control 0x080 (oneReg 1) 0x0000000900000005) up
    let l := withHd (.zl 3) { lock := true }
    let c := run (.registerWrite .control 0xC070 (oneReg 1) 0x1F00000000) l
    up.reach .glb ∧ AtReg .control 0x080 0 .glb 0x080 ∧ AtReg .control 0x080 1 .glb 0x084 ∧
      (regDesc .glb 0x084 = some { rw := 0xFFFFFFFF }) ∧ a.rg .glb 0x080 = 5 ∧ a.rg .glb 0x084 = 0 ∧ (a.hd .glb).gen = 1 ∧
      b.rg .glb 0x084 = 9 ∧ b.rg .glb 0x080 = 0 ∧
      l.reach (.zl 3) ∧ AtReg .control 0xC070 1 (.zl 3) 0x074 ∧ regDesc (.zl 3) 0x074 = some { rwl := 0x1F } ∧ c = l := by
  decide +kernel

/-- Three octets of a register: dropped, counted, recorded the first time only (R26). -/
theorem witness_PartialWriteDropped :
    let a := run (.registerWrite .control 0x080 0x07 0) up
    let b := run (.registerWrite .control 0x080 0x07 0) a
    up.reach .glb ∧ pageAt .control 0x080 = some .glb ∧ halves 0x07 = none ∧ up.glb.badaccNoted = false ∧
      a.glb.badacc = true ∧ a.glb.badaccCnt = 1 ∧ a.led.recs.length = 1 ∧ a.glb.badaccNoted = true ∧
      b.glb.badaccCnt = 2 ∧ b.led.recs.length = 1 := by decide +kernel

/-- PG_INT_STAT at 0x014 of page PWR clears the bits written 1; PG_LOCK sets once (R34, R36, R37); on SLM page 1 with
no mailbox open both are refused (R286). -/
theorem witness_HeaderWrites :
    let s := withHd .pwr { intStat := 3 }
    let a := run (.registerWrite .control 0x2010 (oneReg 1) 0x100000000) s
    let b := run (.pgLockWrite .pwr true) s
    let c := run (.pgIntEnWrite .pwr 0x80000000) s
    s.reach .pwr ∧ s.mbClosed .pwr = none ∧ AtReg .control 0x2010 1 .pwr 0x014 ∧ (a.hd .pwr).intStat = 2 ∧
      (b.hd .pwr).lock = true ∧ (b.hd .pwr).gen = 1 ∧ run (.pgLockWrite .pwr false) b = b ∧
      (c.hd .pwr).intEn = 0x80000000 ∧ (c.hd .pwr).gen = 1 ∧
      (up.reach (.slm 1) ∧ (up.mbClosed (.slm 1)).isSome = true ∧ ((run (.pgLockWrite (.slm 1) true) up).hd (.slm 1)).lock = false ∧
        ((run (.pgIntEnWrite (.slm 1) 1) up).hd (.slm 1)).errCode = 0x0501) := by decide +kernel

/-- PWR_WAKE_TICK is a wide pair at 0x054 (Table 17.5); GLB_MAGIC beside it is no pair; a doorbell and an address with no page
read zeros (R26, R27). -/
theorem witness_WideReadLatches :
    let s := up.setRg .pwr 0x058 0x1234
    let x : HostLoad := { addr := 0x2050, be := oneReg 1 }
    let t := run (.wideLoRead .control x) s
    s.awake ∧ s.pageAnswers .pwr = true ∧ x.be = oneReg 1 ∧ pageAt .control (x.addr.toNat / 8 * 8) = some .pwr ∧
      0x054 = x.addr.toNat / 8 * 8 % 4096 + 4 * 1 ∧ wideLo .pwr 0x054 = true ∧
      (t.setRg .pwr 0x058 0).hostRead .pwr 0x058 = 0x1234 ∧ t.out = [.loaded (zeros 4)] ∧
      wideLo .pwr 0x050 = false ∧ (run (.wideLoRead .control { x with be := oneReg 0 }) s).out = [.loaded (enabledOctets 15 (s.hostRead .pwr 0x050))] ∧
      wideLo .glb 0x000 = false ∧
      (run (.wideLoRead .control { addr := 0, be := oneReg 0 }) s).out = [.loaded (enabledOctets 15 (s.hostRead .glb 0))] ∧
      (run (.wideLoRead .doorbell { addr := 8, be := oneReg 1 }) s).out = [.loaded (zeros 4)] ∧
      pageAt .slice 0x1FFFFFF8 = none ∧ (run (.wideLoRead .slice { addr := 0x1FFFFFF8, be := oneReg 1 }) s).out = [.loaded (zeros 4)] ∧
      pageAt .control 0xE00000 = none ∧ msixAt 0xE00000 = false ∧
      (run (.wideLoRead .control { addr := 0xE00000, be := oneReg 0 }) s).out = [.loaded (zeros 4)] := by decide +kernel

/-- A tile that is READY, another that can be the anchor; ENABLE, DRAIN and OFFLINE move it (R32, R33). -/
theorem witness_PageControl :
    let s := (withHd (.pkt 0) { st := .ready }).setHd (.pkt 95) { st := .ready }
    let o := withHd (.pkt 95) { st := .off, enable := false }
    let f := withHd (.pkt 95) { st := .fault, fclass := 2 }
    let e := withHd (.pkt 95) { st := .offline, offline := true }
    s.reach (.pkt 95) ∧ honoursCtrl (.pkt 95) = true ∧ s.leased (.pkt 95) = false ∧
      (∀ q ∈ gatedWith (.pkt 95), (s.hd q).st = .ready ∧ (s.hd q).enable = true ∧ s.working q = false) ∧
      ((run (.pgCtrlEnable (.pkt 95) false) s).hd (.pkt 95)).st = .off ∧
      (∀ q ∈ gatedWith (.pkt 95), (o.hd q).st = .off) ∧
      ((run (.pgCtrlEnable (.pkt 95) true) o).hd (.pkt 95)).st = .servicing ∧
      (s.hd (.pkt 95)).offline = false ∧ (s.hd (.pkt 95)).drain = false ∧ (s.hd (.pkt 95)).gating = false ∧
      ((run (.pgCtrlDrain (.pkt 95) true) s).hd (.pkt 95)).st = .draining ∧
      ((run (.pgCtrlOffline (.pkt 95) { on := true }) s).hd (.pkt 95)).st = .offline ∧
      (e.tile 95).bench = false ∧ ((run (.pgCtrlOffline (.pkt 95) { on := false }) e).hd (.pkt 95)).st = .servicing ∧
      f.reach (.pkt 95) ∧ ((run (.pgCtrlOffline (.pkt 95) { on := true }) f).hd (.pkt 95)).st = .offline := by decide +kernel

/-- Both lanes of a pair are turned off together; the anchor pair is another (R323). -/
theorem witness_PageControl_pair :
    let s := (((withHd (.scl 0) { st := .ready }).setHd (.scl 1) { st := .ready }).setHd (.scl 126) { st := .ready }).setHd
      (.scl 127) { st := .ready }
    let t := run (.pgCtrlEnable (.scl 127) false) s
    s.reach (.scl 127) ∧ s.leased (.scl 127) = false ∧
      (∀ q ∈ gatedWith (.scl 127), (s.hd q).st = .ready ∧ (s.hd q).enable = true ∧ s.working q = false) ∧
      (t.hd (.scl 126)).st = .off ∧ (t.hd (.scl 127)).st = .off := by decide +kernel

/-- The only tile that reads READY is the anchor: its gating is refused (R323, R324). -/
theorem witness_LeaseRefuses :
    let s := withHd (.pkt 5) { st := .ready }
    let t := run (.pgCtrlEnable (.pkt 5) false) s
    s.reach (.pkt 5) ∧ honoursCtrl (.pkt 5) = true ∧ (s.hd (.pkt 5)).enable = true ∧ (s.hd (.pkt 5)).st ≠ .fault ∧
      s.leased (.pkt 5) = true ∧ (t.hd (.pkt 5)).errCode = 0x0504 ∧ (t.hd (.pkt 5)).st = .ready ∧ t.pwr.leaseDeny = 1 := by
  decide +kernel

theorem witness_DrainAndSelfTest :
    let d := withHd (.pkt 5) { st := .draining, offline := true }
    let g := (withHd (.pkt 5) { st := .draining, enable := false, gating := true }).setHd (.pkt 0) { st := .ready }
    let v := withHd (.pkt 5) { st := .servicing }
    (d.awake ∧ (∀ q ∈ gatedWith (.pkt 5), d.working q = false) ∧ (d.hd (.pkt 5)).gating = false ∧
      ((run (.blockDrained (.pkt 5)) d).hd (.pkt 5)).st = .offline) ∧
    (g.awake ∧ g.leased (.pkt 5) = false ∧ (∀ q ∈ gatedWith (.pkt 5), g.working q = false) ∧
      ((run (.blockDrained (.pkt 5)) g).hd (.pkt 5)).st = .off) ∧
    (v.running = true ∧ (∀ q ∈ gatedWith (.pkt 5), (v.hd q).st = .servicing ∧ (v.hd q).enable = true ∧ (v.hd q).drain = false ∧
        (v.hd q).offline = false ∧ (v.hd q).gating = false ∧ v.working q = false) ∧
      ((run (.selfTestDone (.pkt 5) .pass) v).hd (.pkt 5)).st = .ready ∧
      ((run (.selfTestDone (.pkt 5) .fail) v).hd (.pkt 5)).fclass = 5 ∧
      ((run (.selfTestDone (.pkt 5) .microcode) v).hd (.pkt 5)).fclass = 7) := by decide +kernel

/-- The last vector, with a pending message and without (R70). -/
theorem witness_MsixUnmask :
    let e : MsixEntry := { addrLo := 0x1000, data := 0x42, pend := true }
    let s := { up with msix := [(2047, e)] }
    s.awake ∧ s.pwr.pfwLow = false ∧ s.pwr.configUp = true ∧ e = NMap.getD s.msix 2047 {} ∧
      (run (.msixUnmask 2047) s).out = [.msix 2047 0x1000 0x42] ∧ (run (.msixUnmask 2047) up).out = [] := by decide +kernel

/-- GLB_FEAT_ACC with COUNTERSIGN and the base sets; one that is not offered (R43). -/
theorem witness_DeviceFeatureCommit :
    let s := (up.setRg .glb 0x080 0x3F).setRg .glb 0x084 0x1
    let b := s.setRg .glb 0x080 0x7F
    s.reach .glb ∧ s.devCommitBad [s.rg .glb 0x080, s.rg .glb 0x084, s.rg .glb 0x088, s.rg .glb 0x08C] = none ∧
      (run .glbFeatCommit s).glb.featRes = 1 ∧ (run .glbFeatCommit s).glb.accepted = [0x3F, 1, 0, 0] ∧
      b.reach .glb ∧ b.devCommitBad [b.rg .glb 0x080, b.rg .glb 0x084, b.rg .glb 0x088, b.rg .glb 0x08C] = some 1 ∧
      (run .glbFeatCommit b).glb.featRes = 2 ∧ (run .glbFeatCommit b).glb.featCause = 1 := by decide +kernel

/-! ### Rings (chapter 3) -/

/-- One doorbell whose eight octets are enabled, at the first and the last of the slice's 16,384 (R27), in each state. -/
theorem witness_DoorbellByRingState :
    let be := List.replicate 8 true
    let ringUnder := fun (g : Ring) => (run (.doorbell 0 be) (withRing g)).ring 0 0
    up.awake ∧ up.running = true ∧ doorbells 0 be = [0] ∧ doorbells (8 * 16383) [false, true] = [16383] ∧
      sliceOpen (up.slice 0) = true ∧ sliceOpen (up.slice 1) = false ∧ up.ring 0 16383 = none ∧
      ringUnder { ring0 with st := .idle } = some { ring0 with st := .scanning } ∧
      ringUnder { ring0 with st := .scanning } = some { ring0 with st := .scanning, rescan := true } ∧
      ringUnder { ring0 with st := .wait } = some { ring0 with st := .wait, rescan := true } ∧
      ((run (.doorbell 0 be) up).slice 0).stray = 1 ∧
      run (.doorbell 0 be) (withRing { ring0 with st := .fault }) = withRing { ring0 with st := .fault } ∧
      ((run (.doorbell (8 * 16383) [false, true]) up).slice 0).stray = 1 ∧
      run (.doorbell (8 * 16384) be) up = up := by decide +kernel

/-- The largest address is the last doorbell of slice 4095. -/
theorem witness_DoorbellByRingState_last : doorbells 0x1FFFFFFF [true] = [2 ^ 26 - 1] := by decide +kernel

theorem witness_RingCommands :
    let a := withRing ring0
    let b := withRing { ring0 with st := .wait, why := .full }
    let f := withRing { ring0 with st := .fault, fcause := 3 }
    (a.reach (.slc 0) ∧ a.ring 0 (a.ringSel 0) = some ring0 ∧ (a.slice 0).featOk = true ∧
      ringConfigRefusal (a.slice 0) ring0 ring0.base.toNat ring0.cfg = none ∧
      (run (.ringEnable 0) a).ring 0 0 = some { ring0 with st := .scanning }) ∧
    (b.reach (.slc 0) ∧ (run (.ringDisable 0) b).ring 0 0 = some ring0) ∧
    ((run (.ringDisable 0) (withJobs [job0 .key (entry 0x0F00 [])])).ring 0 0).map Ring.st = some .stopping ∧
    (f.reach (.slc 0) ∧ ((run (.ringResume 0) f).ring 0 0).map Ring.st = some .scanning) ∧
    (fld (0x4001#32) 0 8 = 1 ∧ fld (0x4001#32) 8 7 = 64 ∧
      ringConfigRefusal (a.slice 0) { ring0 with weight := 1, burst := 64, st := .disabled } 0x1000 ring0.cfg = none ∧
      (run (.ringSchedWrite 0 0x4001) a).ring 0 0 = some { ring0 with burst := 64 }) := by decide +kernel

/-- The pair's halves, a base whose ring ends at 2^64, and a configuration with K = 16 (Table 3.8). -/
theorem witness_RingConfiguration :
    let a := run (.ringConfigWrite 0 .baseLo 0xFFFFFFFF) (withRing ring0)
    let g : Ring := { ring0 with baseLo := some 0xFFFFF000 }
    let b := run (.ringConfigWrite 0 .baseHi 0xFFFFFFFF) a
    let c := run (.ringConfigWrite 0 .cfg 0x10) (withRing ring0)
    (withRing ring0).reach (.slc 0) ∧ a.ring 0 0 = some g ∧ g.st = .disabled ∧
      0xFFFFFFFF * 2 ^ 32 + 0xFFFFF000 + g.size * 128 ≤ 2 ^ 64 ∧
      b.ring 0 0 = some { ring0 with base := 0xFFFFFFFFFFFFF000 } ∧
      ringConfigRefusal ((withRing ring0).slice 0) ring0 ring0.base.toNat (0x10 &&& 0x7FFFF) = none ∧
      c.ring 0 0 = some { ring0 with cfg := 0x10 } := by decide +kernel

/-- SL_RING_SEL beyond the slice's rings; no features; K = 3; DISABLE of a DISABLED ring; RESUME of an IDLE one (R69). -/
theorem witness_RingRefusals :
    let n := up.setRg (.slc 0) 0x100 0x3FFF
    let u := { up with slices := [(0, { slice0 with featOk := false })] }
    let k := withRing { ring0 with cfg := 3 }
    let i := withRing { ring0 with st := .idle }
    (n.reach (.slc 0) ∧ n.ring 0 (n.ringSel 0) = none ∧ ((run (.ringResume 0) n).hd (.slc 0)).errCode = 0x0107) ∧
    (ringConfigRefusal (up.slice 0) { ring0 with weight := 1, burst := 0, st := .disabled } 0x1000 ring0.cfg = some (0x0107, 4) ∧
      ((run (.ringSchedWrite 0 1) up).hd (.slc 0)).errCode = 0x0107) ∧
    (u.reach (.slc 0) ∧ (u.slice 0).featOk = false ∧ ((run (.ringEnable 0) u).hd (.slc 0)).errCode = 0x0106) ∧
    (k.reach (.slc 0) ∧ ringConfigRefusal (k.slice 0) { ring0 with cfg := 3 } 0x1000 3 = some (0x0107, 1) ∧
      ((run (.ringEnable 0) k).hd (.slc 0)).errCode = 0x0107 ∧ ((run (.ringEnable 0) k).hd (.slc 0)).errDetail = 1) ∧
    ((run (.ringDisableAbort 0) up).hd (.slc 0)).errCode = 0x0501 ∧
    (i.reach (.slc 0) ∧ ((run (.ringResume 0) i).hd (.slc 0)).errCode = 0x0501) := by decide +kernel

theorem witness_DisableAbortEndsRing :
    let s := withJobs [job0 .key (entry 0x0F00 [])]
    let a := run (.ringDisableAbort 0) s
    let b := run .qscRingDisableAbort s
    let c := run .qscRingDisable s
    s.awake ∧ s.pwr.pfwLow = false ∧ s.sane = true ∧ (s.ring 0 0).map Ring.st = some .scanning ∧ s.reach (.slc 0) ∧
      0 = s.ringSel 0 ∧ s.reach .qsc ∧ s.findRing (fld (s.rg .qsc 0x100) 0 20) = some (0, 0) ∧
      (∀ x ∈ a.jobs, x.phase = .done) ∧ (∀ x ∈ b.jobs, x.phase = .done) ∧
      (c.ring 0 0).map Ring.st = some .stopping ∧
      (up.setRg .qsc 0x100 9).findRing 9 = none ∧ ((run .qscRingDisable (up.setRg .qsc 0x100 9)).hd .qsc).errCode = 0x0501 ∧ a.out.head? = some (.write (some 7) 0x102C (zeros 4)) := by decide +kernel

/-- The ring of slice 0 takes the turn; its entry 0 is read; with its oldest entry at the scan it goes to WAIT (R57). -/
theorem witness_FetchTurn :
    let s := withRing { ring0 with st := .scanning }
    let w := { s with jobs := [job0 .key (entry 0x0F00 [])] }
    s.fetchStopped = false ∧ s.pwr.ladder = .gale ∧ s.backPressure = false ∧ s.fetches.length < 32 ∧
      (s.chooseSlice.map Prod.snd) = some 0 ∧ ((s.chooseSlice.bind fun p => p.1.chooseRing p.2).map Prod.snd) = some 0 ∧
      (run .fetchTurn s).out = [.read (some 7) 0x1000 128] ∧ (run .fetchTurn s).fetches = [{ slice := 0, ring := 0, index := 0 }] ∧
      ((run .fetchTurn w).ring 0 0).map Ring.st = some .wait ∧ (run .fetchTurn w).out = [] := by decide +kernel

/-- A read that timed out, an entry not owned, NOP without input and a hash with it, an opcode outside Table 1.3. -/
theorem witness_EntryReadReturns :
    let s := { withRing { ring0 with st := .scanning } with fetches := [{ slice := 0, ring := 0, index := 0 }] }
    let n := entry 0x0F00 []
    let h := entry 0x0401 [(0x20, toLE 8 0x5000), (0x28, toLE 4 3), (0x2C, toLE 4 32), (0x30, toLE 8 0x6000), (0x38, [0, 1])]
    let b := entry 0x7777 []
    let p := { withRing { ring0 with st := .scanning, cfg := 0x44 } with fetches := [{ slice := 0, ring := 0, index := 0 }] }
    let q := { p with fetches := [{ slice := 0, ring := 0, index := 0, head := some (n.take 8) }] }
    (Ring.split { ring0 with cfg := 0x44 } = true ∧ eOwn (Bytes.fit (n.take 8) 128) = true ∧
      (run (.entryReadComplete 0 0 (.data (n.take 8))) p).out = [.read (some 7) 0x1008 120] ∧
      (run (.entryReadComplete 0 0 (.data (n.drop 8))) q).jobs.map Job.phase = [.staged]) ∧
    s.mute = false ∧ (s.fetches.find? fun f => f.slice = 0 && f.ring = 0) = some { slice := 0, ring := 0, index := 0 } ∧
      ((run (.entryReadComplete 0 0 (.failed .timeout)) s).ring 0 0).map Ring.fcause = some 3 ∧
      eOwn (Bytes.fit (zeros 128) 128) = false ∧
      ((run (.entryReadComplete 0 0 (.data (zeros 128))) s).ring 0 0).map Ring.st = some .idle ∧
      eOwn (Bytes.fit n 128) = true ∧ entryCheck true s.isMember (s.view 0) (Bytes.fit n 128) = none ∧ eInLen n = 0 ∧
      (run (.entryReadComplete 0 0 (.data n)) s).jobs.map Job.phase = [.staged] ∧
      eOwn (Bytes.fit h 128) = true ∧ entryCheck true s.isMember (s.view 0) (Bytes.fit h 128) = none ∧ eInLen h = 3 ∧
      (run (.entryReadComplete 0 0 (.data h)) s).out = [.read (some 7) 0x5000 3] ∧
      eOwn (Bytes.fit b 128) = true ∧ entryCheck true s.isMember (s.view 0) (Bytes.fit b 128) = some (0x0101, 0) ∧
      ((run (.entryReadComplete 0 0 (.data b)) s).slice 0).malformed = 1 := by decide +kernel

/-- The completion of an entry the checker refuses: OUT_LEN and RESULT, then the completion word with OWN 0 (R54). -/
theorem test_checker_completion :
    let s := { withRing { ring0 with st := .scanning } with fetches := [{ slice := 0, ring := 0, index := 0 }] }
    (run (.entryReadComplete 0 0 (.data (entry 0x7777 []))) s).out =
      [.write (some 7) 0x102C (zeros 4), .write (some 7) 0x1070 (zeros 16), .write (some 7) 0x1000 [0, 1, 0x77, 0x77, 1, 1, 0, 0]] := by decide +kernel

theorem witness_InputReadReturns :
    let j : Job := { job0 .sym (entry 0x0401 [(0x28, toLE 4 3), (0x38, [0, 1])]) with phase := .staging }
    let s := withJobs [j]
    let k : Job := { job0 .bulk (entry 0x0202 [(0x40, toLE 4 2)]) with
      phase := .bound, items := [{ idx := 0, body := [0] }, { idx := 1, body := [0] }] }
    let u := withJobs [k]
    let c : Job := { job0 .bulk (entry 0x0201 [(0x28, toLE 4 200)]) with phase := .bound, input := zeros 128, started := true }
    let v := withJobs [c]
    (v.job 0 = some c ∧ v.mute = false ∧ c.phase ≠ .staging ∧ c.started = true ∧ c.whole = false ∧
      (run (.inputReadComplete 0 none (.data [1])) v).jobs.map (fun j => j.input.length) = [200]) ∧
    (s.job 0 = some j ∧ s.mute = false ∧ j.phase = .staging ∧
      (run (.inputReadComplete 0 none (.data [1, 2, 3])) s).jobs.map Job.input = [[1, 2, 3]] ∧
      (run (.inputReadComplete 0 none (.failed .poisoned)) s).out.getLast? = some (.write (some 7) 0x1000 [0, 1, 1, 4, 5, 1, 0x11, 0])) ∧
    (u.job 0 = some k ∧ (∃ x ∈ k.items, x.idx = 1 ∧ x.ready = false ∧ x.out = none) ∧
      (run (.inputReadComplete 0 (some 1) (.data [9])) u).jobs.map (fun j => j.items.map Item.body) = [[[0], [9]]] ∧
      (run (.inputReadComplete 0 (some 1) (.failed .poisoned)) u).out.getLast? =
        some (.write (some 7) 0x1000 [0, 1, 2, 2, 5, 1, 0x13, 0])) := by decide +kernel

/-! ### Scheduler, Barometer, binding (chapters 3 to 5 and 10) -/

/-- A HASH entry of three octets, SHA-256 (Table 8.4). -/
def hashEntry : Bytes := entry 0x0401 [(0x28, toLE 4 3), (0x2C, toLE 4 32), (0x30, toLE 8 0x6000), (0x38, [0, 1])]

theorem witness_QscRegisters :
    let t := run (.qscSliceWeightWrite 0xFF) up
    up.reach .qsc ∧ sliceOpen (up.slice (fld (up.rg .qsc 0x040) 0 12)) = true ∧ fld (0xFF#32) 0 8 ≠ 0 ∧
      (t.slice 0).weight = 255 ∧ (t.hd .qsc).gen = 1 ∧
      (run .hwmClr (withJobs [job0 .sym hashEntry])).qsc.hwm = [0, 0, 1, 0, 0, 0] := by decide +kernel

theorem witness_JobTimeLimit :
    let b : Bound := { eng := .worker 3, limit := 1 }
    let j : Job := { job0 .key (entry 0x0F00 []) with phase := .bound, bnd := some b }
    let t := run (.jobTimeLimit 0) (withJobs [j])
    (withJobs [j]).mute = false ∧ (withJobs [j]).job 0 = some j ∧ j.bnd = some b ∧ b.limit ≠ 0 ∧ j.phase = .bound ∧
      t.qsc.timeoutCnt = 1 ∧ t.jobs.length = 0 ∧ t.out.getLast? = some (.write (some 7) 0x1000 [0, 1, 0, 15, 4, 4, 0x10, 0]) := by
  decide +kernel

/-- A reading below the range saturates; the loop at its last millivolts under VMAX; a command that is not acknowledged. -/
theorem witness_BarometerUpdate :
    let l := { up with baro := { up.baro with loop := true, v := 898, pace := 0x400 } }.setRg .baro 0x04C 0x500
    let t := run (.baroUpdate { pace := 0x400 } true) l
    up.awake ∧ up.running = true ∧ up.baro.loop = false ∧
      (run (.baroUpdate { pace := 0 } true) up).baro.pace = 0x1CD ∧ (run (.baroUpdate { pace := 0xFFFF } true) up).baro.pace = 0x500 ∧
      (run (.baroUpdate { pace := 0 } true) { up with baro := { up.baro with seq := 0xFFFF } }).baro.seq = 0 ∧
      (run (.baroUpdate { pace := 0, tj := 0xFFFF, vcap := 300 } true) up).tmp.tj = -1 ∧
      (run (.baroUpdate { pace := 0, tj := 0xFFFF, vcap := 300 } true) up).tmp.vcap = 300 ∧
      l.awake ∧ l.baro.loop = true ∧ l.vFloor ≤ l.baro.v ∧ l.baro.v ≤ fld (l.rg .baro 0x058) 16 10 ∧
      t.baro.v = 900 ∧ t.out = [.pmbus 0 0 900] ∧ t.baro.ceil = true ∧
      (run (.baroUpdate { pace := 0x400 } false) l).baro.pmbErr = true ∧ (run (.baroUpdate { pace := 0x400 } false) l).baro.loop = false := by
  decide +kernel

theorem witness_BarometerRegisters :
    (run (.hostRttInterval 63 5 4) up = up ∧ (run (.hostRttInterval 64 65536 4) up).baro.rttMax = 0xFFFF) ∧
    (up.reach .baro ∧ (run .minClr up).baro.min = 0x400) ∧
    ((up.hd .baro).lock = false ∧ 600 ≤ fld (0x03840258#32) 0 10 ∧ fld (0x03840258#32) 16 10 ≤ 900 ∧
      fld (0x02580258#32) 0 10 ≤ fld (0x02580258#32) 16 10 ∧
      (run (.baroVlimWrite 0x02580258) up).rg .baro 0x058 = 0x02580258) ∧
    (up.devFeat 2 = true ∧ 0x1CD ≤ fld (0x1CD#32) 0 16 ∧ fld (0x500#32) 0 16 ≤ 0x500 ∧
      (run (.baroTargetWrite 0x500 (some 750)) up).baro.v = 750 ∧
      (run (.baroTargetWrite 0x1CD (some 750)) up).rg .baro 0x04C = 0x1CD) := by decide +kernel

/-- A HASH takes one free lane (Table 4.1): nothing is asked of a key, no mask is drawn. -/
theorem witness_JobBinds :
    let j := job0 .sym hashEntry
    let s := (withJobs [j]).setHd (.scl 127) { st := .ready }
    let t := run (.jobBinding .sym (.lane 127) .ok .ok) s
    s.bindOn = true ∧ s.pwr.ladder = .gale ∧ s.passEnds.hashFill = s ∧ s.itemWaits = false ∧
      s.nextJob .sym (fun j => s.engFits j (.lane 127) && !s.rangeWait j) = some j ∧ j.remote = none ∧
      j.bnd = none ∧ j.cls = .sym ∧ s.taking j .ok = (s, .inr {}) ∧ opSecret (eOp j.entry) = false ∧
      t.jobs.map Job.phase = [.bound] ∧ (t.hd (.scl 127)).st = .busy := by decide +kernel

/-- A MAC_CHECK that names a key outside the operational state is refused (R213): STATE_FORBIDS 0x10. -/
theorem witness_JobBinds_refused :
    let j := job0 .sym (entry 0x0403 [(0x10, toLE 8 1), (0x28, toLE 4 32), (0x38, [0x31, 1, 0, 32])])
    let s := ((withJobs [j]).setHd (.scl 0) { st := .ready }).setHd (.scl 1) { st := .ready }
    let t := run (.jobBinding .sym (.pairs [0]) .ok .ok) s
    s.bindOn = true ∧ s.passEnds.hashFill = s ∧ s.nextJob .sym (fun j => s.engFits j (.pairs [0]) && !s.rangeWait j) = some j ∧
      s.taking j .ok = (s, .inl { code := 0x0501, detail := 0x10 }) ∧
      t.out.getLast? = some (.write (some 7) 0x1000 [0, 1, 3, 4, 1, 5, 0x10, 0]) := by decide +kernel

/-- An RSA_ENCRYPT under an inline key draws from an internal instance: served, waiting for a pool word, or refused where none
runs (R197, R198, R206). -/
theorem witness_JobBinds_draw :
    let j := job0 .pk (entry 0x0108 [(0x38, [5, 8])])
    let s := (withJobs [j]).setHd (.pkt 95) { st := .ready }
    let q := fun (n : Nat) => { s with rng := { es := .healthy, inst := { st := .running, count := n } :: List.replicate 7 {} } }
    (∀ v ∈ [s, q 0, q 65536], v.bindOn = true ∧ v.passEnds.hashFill = v ∧ v.itemWaits = false ∧
      v.nextJob .pk (fun j => v.engFits j (.tile 95) && !v.rangeWait j) = some j ∧ v.taking j .ok = (v, .inr {}) ∧
      v.warmOk (v.homeOf j) 95 = true) ∧
    opSecret (eOp j.entry) = true ∧ (match (q 0).intRequest .ok with | (_, .got _) => true | _ => false) = true ∧
      (run (.jobBinding .pk (.tile 95) .ok .ok) (q 0)).jobs.map Job.phase = [.bound] ∧
      (q 65536).intRequest .ok = (q 65536, .wait) ∧ (run (.jobBinding .pk (.tile 95) .ok .ok) (q 65536)).rng.waiters = [0] ∧
      s.intRequest .ok = (s, .refused 0x0402 1) ∧
      (run (.jobBinding .pk (.tile 95) .ok .ok) s).out.getLast? = some (.write (some 7) 0x1000 [0, 1, 8, 1, 2, 4, 1, 0]) := by
  decide +kernel

/-- RNG_READ: the entropy source failed; an instance running (R198, R199, R200). -/
theorem witness_RngAndBulkBind :
    let j := job0 .rng (entry 0x0601 [(0x2C, toLE 4 16), (0x30, toLE 8 0x6000)])
    let f := { withJobs [j] with rng := { es := .failed } }
    let g := { withJobs [j] with rng := { es := .healthy, inst := List.replicate 7 {} ++ [{ st := .running }] } }
    let k := job0 .bulk (entry 0x0202 [(0x28, toLE 4 64), (0x40, toLE 4 2)])
    let s := withJobs [k]
    let t := run (.jobBinding .bulk (.worker 7) .ok .ok) s
    (f.bindOn = true ∧ f.nextJob .rng (fun _ => true) = some j ∧ f.readBad = some (0x0402, 3)) ∧
    (g.bindOn = true ∧ g.passEnds.hashFill = g ∧ g.nextJob .rng (fun _ => true) = some j ∧ g.readBad = none ∧ g.engFits j (.drbg 7) = true ∧
      j.cls = .rng ∧ eKeyA j.entry = 0 ∧ eKeyB j.entry = 0 ∧ eOp j.entry = 0x0601 ∧
      (run (.jobBinding .rng (.drbg 7) .ok .ok) g).jobs.map Job.phase = [.bound]) ∧
    (s.bindOn = true ∧ s.passEnds.hashFill = s ∧ s.nextJob .bulk (fun _ => true) = some k ∧ (s.fifo .bulk).any (fun j => j.started) = false ∧
      t.jobs.map (fun j => j.items.map Item.idx) = [[0, 1]]) := by decide +kernel

/-- The first staged item of a batch takes the last tile (R146). -/
theorem witness_RngAndBulkBind_item :
    let i : Item := { idx := 1, body := zeros 200, ready := true, queued := true }
    let k : Job := { job0 .bulk (entry 0x0202 [(0x28, toLE 4 64), (0x38, [1, 1, 1, 1]), (0x40, toLE 4 2)]) with
      phase := .bound, started := true, input := zeros 64, bnd := some { eng := .worker 0 }, items := [i] }
    let q := (withJobs [k]).setHd (.pkt 95) { st := .ready }
    let s := { q with eng := { q.eng with itemQueue := [(0, 1)] } }
    let v := s.passEnds.hashFill.bulkHead .ok
    let t := run (.jobBinding .bulk (.tile 95) .ok .ok) s
    s.bindOn = true ∧ (v.nextItem.map fun p => (p.1.id, p.2.idx)) = some (0, 1) ∧ v.tileFree 95 = true ∧ v.pkWaits = false ∧
      v.warmOk (v.itemHome k i) 95 = true ∧ k.itemKey i = 0 ∧ t.jobs.map (fun j => j.items.map Item.tile) = [[some 95]] := by
  decide +kernel

/-! ### Public-key jobs, bulk verification, loaded tables (chapters 5 to 7) -/

/-- A public-key entry: an opcode and the first octets of its parameter block. -/
def pkEntry (op : Nat) (par : Bytes) : Bytes := entry op [(0x38, par)]

/-- A bound job on tile 3. -/
def onTile (j : Job) (input : Bytes) : Job := { j with phase := .bound, input := input, bnd := some { eng := .tile 3 } }

/-- Each public-key opcode, bound to a tile and with no message to hash, is what its command ends. -/
theorem witness_PublicKeyJobs :
    ∀ op ∈ ([0x0101, 0x0102, 0x0103, 0x0104, 0x0105, 0x0106, 0x0107, 0x0108] : List Nat),
      let j := onTile (job0 .pk (pkEntry op [1, 1])) []
      let s := withJobs [j]
      s.hashFill = s ∧ s.boundJob op 0 = some (j, { eng := .tile 3 }) ∧ s.hashLacks j { eng := .tile 3 } = false := by decide +kernel

/-- An ECDSA secret whose draws are all beyond n is drawn again, from an instance that runs (R100). -/
theorem witness_PublicKeyJobs_again :
    let b : Bound := { eng := .tile 3, rnd := List.replicate 256 0xFF }
    let j : Job := { job0 .pk (pkEntry 0x0101 [1, 1]) with phase := .bound, input := zeros 32, bnd := some b }
    let s := { withJobs [j] with rng := { es := .healthy, inst := { st := .running } :: List.replicate 7 {} } }
    s.hashFill = s ∧ s.boundJob 0x0101 0 = some (j, b) ∧ s.hashLacks j b = false ∧ (signRun s j b).again = true ∧
      (signRun s j b).bound = false ∧ b.remote = false ∧ (match s.intRequest .ok with | (_, .got _) => true | _ => false) = true ∧
      (run (.pkSign 0 {}) s).out = [] := by decide +kernel

/-- ECDSA P-256 under a public key whose first octet is not 4: POINT_INVALID 1 (Table 5.16); X25519 with an all-zero peer:
POINT_INVALID 9. -/
theorem test_pk_rows :
    let v := onTile (job0 .pk (pkEntry 0x0102 [1, 1, 1, 1])) (zeros 200)
    let d := onTile (job0 .pk (pkEntry 0x0104 [4, 9])) (zeros 32)
    verifyRun (withJobs [v]) v { eng := .tile 3 } = { bad := some (0x0303, 1) } ∧
      (deriveRun (withJobs [d]) d { eng := .tile 3, rnd := zeros 256 }).bad = some (0x0303, 9) ∧
      (run (.pkVerify 0 {}) ((withJobs [v]).setHd (.scl 9) { st := .ready })).out.getLast? = some (.write (some 7) 0x1000 [0, 1, 2, 1, 3, 3, 1, 0]) := by decide +kernel

/-- A decapsulation creates its key at the reserved place, INDEX 5 of slice 0, generation 1 (R99, R214). -/
theorem test_kem_decaps_creates :
    let e := pkEntry 0x0106 [7, 2]
    let j : Job := { job0 .pk e with phase := .bound, bnd := some { eng := .tile 3, resv := some { slice := 0, index := 5, units := 1, tally := false } } }
    let t := run (.kemDecaps 0 {}) (withJobs [j])
    (newKeyOf ((withJobs [j]).jobView j) e).isSome = true ∧ (t.keyIn (mkHandle 0 5 1)).map KeyRec.live = some true ∧
      t.out.length = 3 ∧ t.out.getLast? = some (.write (some 7) 0x1000 [0, 1, 6, 1, 0, 0, 0, 0]) := by decide +kernel

theorem witness_StoppedJobs :
    let j := onTile (job0 .pk (pkEntry 0x0106 [7, 2])) []
    let s := (withJobs [j]).setHd (.pkt 3) { st := .busy }
    let c := run (.kemDecaps 0 { eng := .checkFailed }) s
    s.hashFill = s ∧ (s.boundJob 0x0106 0).isSome = true ∧
      s.memAccess .ok = (s, none, false) ∧ s.memAccess (.poisonedLine 0) = (s, some (0x0407, 2), false) ∧
      (run (.kemDecaps 0 { mem := .poisonedLine 0 }) s).out.getLast? = some (.write (some 7) 0x1000 [0, 1, 6, 1, 7, 4, 2, 0]) ∧
      (c.hd (.pkt 3)).st = .fault ∧ (c.hd (.pkt 3)).fclass = 1 ∧
      c.out.getLast? = some (.write (some 7) 0x1000 [0, 1, 6, 1, 3, 4, 1, 0]) := by decide +kernel

/-- ML-DSA signing that ran its iterations out (R104). -/
theorem witness_StoppedJobs_bound :
    let j := onTile (job0 .pk (pkEntry 0x0101 [6, 0x44])) []
    let s := withJobs [j]
    s.hashFill = s ∧ s.boundJob 0x0101 0 = some (j, { eng := .tile 3 }) ∧ s.hashLacks j { eng := .tile 3 } = false ∧ j.pk.alg = 6 ∧
      (run (.pkSign 0 { eng := .iterationBound }) s).out.getLast? = some (.write (some 7) 0x1000 [0, 1, 1, 1, 3, 4, 3, 0]) := by
  decide +kernel

/-- A WARM key of slice 0 whose home quad, the last, has a powered tile. -/
theorem witness_WarmTableBuilt :
    let k : KeyRec := { handle := mkHandle 0 5 1, warm := true, warmQuad := some 23, units := 1 }
    let s := { withHd (.pkt 95) { st := .ready } with ks := { keys := [(5, k)] } }
    let t := run (.warmTableBuilt (BitVec.ofNat 64 (mkHandle 0 5 1))) s
    s.pwr.ladder = .gale ∧ s.resolve 0 (mkHandle 0 5 1) = some k ∧ k.warm = true ∧ k.warmQuad = some 23 ∧ s.quadServes 23 = true ∧ s.asleep = false ∧
      t.ks.keys = [(5, { k with warmReady := true })] := by decide +kernel

theorem witness_BulkItems :
    let i : Item := { idx := 1, body := zeros 200, ready := true, tile := some 3 }
    let b : Bound := { eng := .worker 0 }
    let j : Job := { job0 .bulk (entry 0x0202 [(0x28, toLE 4 64), (0x38, [1, 1, 1, 1]), (0x40, toLE 4 2)]) with
      phase := .bound, started := true, input := zeros 64, bnd := some b, items := [{ idx := 0, body := [], out := some (0, 0) }, i] }
    let s := ((withJobs [j]).setHd (.pkt 3) { st := .busy }).setHd (.scl 127) { st := .ready }
    let f := run (.bulkItemComplete 0 1 { eng := .detector }) s
    s.hashFill.mute = false ∧ s.hashFill.eng.strays = [] ∧
      (s.hashFill.job 0).map (fun j => j.items.map Item.hash) = some [[], [.lane 127]] ∧ (j.items.find? fun i => i.idx = 1) = some i ∧
      i.tile = some 3 ∧
      (run (.bulkItemComplete 0 1 {}) s).jobs.map (fun j => j.items.map Item.out) = [[some (0, 0), some (0x0303, 1)]] ∧
      (f.hd (.pkt 3)).st = .fault ∧ f.eng.itemQueue = [(0, 1)] ∧
      f.jobs.map (fun j => j.items.map Item.retried) = [[false, true]] := by decide +kernel

/-- Two items, one of which failed: BATCH_PARTIAL with the count 1 and the bitmap 01 (R144). -/
theorem witness_BatchesAndChains :
    let b : Bound := { eng := .worker 0 }
    let j : Job := { job0 .bulk (entry 0x0202 [(0x28, toLE 4 64), (0x2C, toLE 4 8), (0x30, toLE 8 0x6000), (0x40, toLE 4 2)]) with
      phase := .bound, started := true, input := zeros 64, bnd := some b
      items := [{ idx := 0, body := [], out := some (0, 0) }, { idx := 1, body := [], out := some (0x0301, 1) }] }
    let s := withJobs [j]
    let t := run (.batchVerify 0 {}) s
    s.bulkJob 0x0202 0 = some (j, b) ∧ (∀ i ∈ j.items, i.out ≠ none) ∧
      t.out.head? = some (.write (some 7) 0x6000 [1, 0, 0, 0, 0, 0, 0, 0]) ∧
      t.out.getLast? = some (.write (some 7) 0x1000 [0, 1, 2, 2, 6, 3, 1, 0]) := by decide +kernel

/-- A record layout as Table 7.5 lays it out: fixed records of 128 octets, SHA-256 links of 32, Ed25519 signatures. -/
def rld0 : Bytes :=
  [1, 0, 0, 0] ++ toLE 2 128 ++ toLE 2 128 ++ [0, 0, 0, 0] ++ toLE 2 0 ++ [32, 1, 0, 0] ++ toLE 2 0 ++ [0, 2, 7, 0, 0, 0] ++
    toLE 2 64 ++ zeros 36

/-- A chain of one record that has passed ends; one whose record failed breaks there, detail 4 (R154, Table 7.8). -/
theorem witness_BatchesAndChains_chain :
    let b : Bound := { eng := .worker 0 }
    let j : Job := { job0 .bulk (entry 0x0201 [(0x28, toLE 4 160), (0x38, [0]), (0x3C, toLE 4 1)]) with
      phase := .bound, started := true, input := zeros 160, bnd := some b, rldSlots := [0], items := [{ idx := 0, body := [], out := some (0, 0) }] }
    let k : Job := { j with items := [{ idx := 0, body := [], out := some (0x0301, 1) }] }
    let s := { withJobs [j] with eng := { rlds := [(0, { slice := 0, id := 0, body := rld0, digest := [] })] } }
    let u := { s with jobs := [k] }
    let a := s.chainParse j
    s.bulkJob 0x0201 0 = some (j, b) ∧ rldBad (s.view 0) rld0 = none ∧ a.off = 128 ∧
      chainDecided j a (decide (a.off < (s.chainBody j).length)) = some none ∧
      (run (.chainVerify 0 {}) s).out.getLast? = some (.write (some 7) 0x1000 [0, 1, 1, 2, 0, 0, 0, 0]) ∧
      u.bulkJob 0x0201 0 = some (k, b) ∧
      chainDecided k a (decide (a.off < (u.chainBody k).length)) = some (some (0, 4)) ∧
      (run (.chainVerify 0 {}) u).out.getLast? = some (.write (some 7) 0x1000 [0, 1, 1, 2, 5, 3, 4, 0]) := by decide +kernel

/-- A chain whose record was lost with a second member ends with that record's code (R310). -/
theorem witness_BatchesAndChains_lost :
    let b : Bound := { eng := .worker 0 }
    let j : Job := { job0 .bulk (entry 0x0201 [(0x28, toLE 4 160), (0x38, [0]), (0x3C, toLE 4 1)]) with
      phase := .bound, started := true, input := zeros 160, bnd := some b, items := [{ idx := 0, body := [], out := some (0x0601, 1) }] }
    let s := withJobs [j]
    s.bulkJob 0x0201 0 = some (j, b) ∧ j.whole = true ∧ chainLost j (s.chainParse j) = some (0x0601, 1) ∧
      (run (.chainVerify 0 {}) s).out.getLast? = some (.write (some 7) 0x1000 [0, 1, 1, 2, 1, 6, 1, 0]) := by decide +kernel

theorem witness_RecordLayouts :
    let b : Bound := { eng := .worker 0 }
    let l : Job := { job0 .key (entry 0x0508 [(0x28, toLE 4 64), (0x38, [0, 15])]) with phase := .bound, input := zeros 64, bnd := some b }
    let u : Job := { l with entry := entry 0x0508 [(0x38, [1, 15])] }
    let sl : Slice := { slice0 with rings := [(0, ring0)], alloc := { rlds := 1 } }
    let s := { withJobs [l] with slices := [(0, sl)] }
    let n := withJobs [l]
    let g := { s with jobs := [{ l with input := rld0 }] }
    let v := { withJobs [u] with eng := { rlds := [(0, { slice := 0, id := 15, body := rld0, digest := [] })] } }
    s.boundJob 0x0508 0 = some (l, b) ∧ s.sane = true ∧ eB l.entry 0x38 = 0 ∧
      rldBad (s.view 0) (zeros 64) = some (0x0107, 0x0101) ∧ n.rldsLeft 0 = 0 ∧
      (run (.rldLoad 0 {}) n).out.getLast? = some (.write (some 7) 0x1000 [0, 1, 8, 5, 9, 2, 0x42, 0]) ∧
      (run (.rldLoad 0 {}) s).out.getLast? = some (.write (some 7) 0x1000 [0, 1, 8, 5, 7, 1, 1, 1]) ∧
      rldBad (g.view 0) rld0 = none ∧ (g.rldOf 0 15).isNone = true ∧ NMap.lowFree g.eng.rlds 65536 = some 0 ∧
      (NMap.find (run (.rldLoad 0 {}) g).eng.rlds 0).map Rld.body = some rld0 ∧
      v.boundJob 0x0508 0 = some (u, b) ∧ v.sane = true ∧ eB u.entry 0x38 = 1 ∧ (v.rldOf 0 15).isSome = true ∧
      ((run (.rldUnload 0 {}) v).rldOf 0 15) = none := by decide +kernel

theorem witness_LoadedCurves :
    let b : Bound := { eng := .worker 0 }
    let l : Job := { job0 .key (entry 0x0507 [(0x28, toLE 4 184), (0x38, [0, 0x80])]) with phase := .bound, input := zeros 184, bnd := some b }
    let u : Job := { l with entry := entry 0x0507 [(0x38, [1, 0x80])], input := [] }
    let s := ({ withJobs [l] with slices := [(0, { slice0 with alloc := { curves := 1 } })] }).setHd (.pkt 95) { st := .ready }
    let v := withJobs [u]
    let c : Bound := { eng := .tile 95, hash := [.keccak 23] }
    let k : Job := { l with slot := some 1023, bnd := some c }
    let w := { s with jobs := [k] }
    s.hashFill = s ∧ s.boundJob 0x0507 0 = some (l, b) ∧ s.sane = true ∧ eB l.entry 0x38 = 0 ∧ s.curvesLeft 0 ≠ 0 ∧ l.slot = none ∧
      (withJobs [l]).curvesLeft 0 = 0 ∧
      (run (.curveLoad 0 95 {}) (withJobs [l])).out.getLast? = some (.write (some 7) 0x1000 [0, 1, 7, 5, 9, 2, 0x40, 0]) ∧
      curveWorkerBad l.input = some 1 ∧
      w.hashFill = w ∧ w.boundJob 0x0507 0 = some (k, c) ∧ w.hashLacks k c = false ∧ curveTileBad k.input = some 4 ∧
      (run (.curveLoad 0 95 {}) w).out.getLast? = some (.write (some 7) 0x1000 [0, 1, 7, 5, 7, 3, 4, 0]) ∧
      (run (.curveLoad 0 95 {}) s).out.getLast? = some (.write (some 7) 0x1000 [0, 1, 7, 5, 7, 3, 1, 0]) ∧
      v.boundJob 0x0507 0 = some (u, b) ∧ v.sane = true ∧ eB u.entry 0x38 = 1 ∧
      (run (.curveUnload 0 {}) v).out.getLast? = some (.write (some 7) 0x1000 [0, 1, 7, 5, 7, 1, 2, 0]) := by decide +kernel

/-! ### Bench mode (chapter 6) -/

/-- The last tile in bench mode, OFFLINE, with tile 0 to be the anchor. -/
def bench (x : Tile) : State :=
  { ((withHd (.pkt 95) { st := .offline, offline := true }).setHd (.pkt 0) { st := .ready }).setTile 95 { x with bench := true } with
    lcs := { recs := [(0, { code := 1, ncode := 14, commit := 3 })] } }

/-- ENTER in TEST; the same outside TEST and REPAIR; the data window at the last word; ABORT of a command of two words. -/
theorem witness_BenchMode :
    let s := (bench {}).setTile 95 {}
    let o := { s with lcs := {} }
    let d := bench { addr := 16383, dataLo := 0xFFFFFFFF }
    let w := run (.benchDataAccess 95 true 0xAB) d
    let a := bench { busy := true, d := 10, result := some [1, 2], mem := [(9, 7), (12, 8)] }
    (s.reach (.pkt 95) ∧ s.lcsCode = 1 ∧ (s.hd (.pkt 95)).st = .offline ∧ s.otherAnchor 95 = true ∧
      ((run (.benchEnter 95 none) s).tile 95).bench = true) ∧
    (o.reach (.pkt 95) ∧ o.lcsCode ≠ 1 ∧ o.lcsCode ≠ 5 ∧ ((run (.benchEnter 95 none) o).hd (.pkt 95)).errCode = 0x0501) ∧
    (d.reach (.pkt 95) ∧ (d.tile 95).bench = true ∧ (d.tile 95).busy = false ∧ (w.tile 95).word 16383 = 0xABFFFFFFFF ∧
      (w.tile 95).addr = 0 ∧ ((run (.benchDataAccess 95 false 0) d).tile 95).addr = 0 ∧
      ((run (.benchExit 95 none) d).tile 95).bench = false) ∧
    (a.reach (.pkt 95) ∧ (a.tile 95).busy = true ∧ (a.tile 95).result = some [1, 2] ∧
      ((run (.benchAbort 95) a).tile 95).err = 7 ∧ ((run (.benchAbort 95) a).tile 95).busy = false) := by decide +kernel

/-- A command with no modulus in force ends with ERR 2; ADD of 6 and 5 modulo 7, one limb, runs (Table 6.8). -/
theorem witness_BenchCommands :
    let s := bench { a := 0, b := 1, d := 2, mem := [(0, 6), (1, 5)] }
    let m := bench { a := 0, b := 1, d := 2, mem := [(0, 6), (1, 5)], modulus := some (7, 1) }
    s.reach (.pkt 95) ∧ (s.tile 95).bench = true ∧ (s.tile 95).busy = false ∧
      ((run (.benchAdd 95 1) s).tile 95).done = true ∧ ((run (.benchAdd 95 1) s).tile 95).err ≠ 0 ∧
      m.reach (.pkt 95) ∧ ((run (.benchAdd 95 1) m).tile 95).result = some [4] ∧
      ((run (.benchSub 95 1) m).tile 95).result = some [1] ∧ ((run (.benchInv 95 1) m).tile 95).result = some [6] := by
  decide +kernel

theorem witness_BenchCommandEnds :
    let s := bench { busy := true, op := 4, d := 16382, l := 2, result := some [4, 0xFFFFFFFFFF], mem := [(16381, 3)] }
    let m := bench { busy := true, op := 1, a := 0, l := 1, result := some [], mem := [(0, 7)] }
    let c := bench { busy := true, op := 9, a := 0, b := 1, l := 1, result := some [], mem := [(0, 7), (1, 9)] }
    (s.tile 95).busy = true ∧ (s.tile 95).result = some [4, 0xFFFFFFFFFF] ∧
      ((run (.benchCommandDone 95 .ok none) s).tile 95).mem = [(16381, 3), (16382, 4), (16383, 0xFFFFFFFFFF)] ∧
      ((run (.benchCommandDone 95 .ok none) m).tile 95).modulus = some (7, 1) ∧
      ((run (.benchCommandDone 95 .ok none) c).tile 95).cmp = 2 ∧
      ((run (.benchCommandDone 95 .detector none) s).hd (.pkt 95)).fclass = 2 ∧
      ((run (.benchCommandDone 95 .detector none) s).tile 95).err = 8 := by decide +kernel

/-- Two limbs modulo 2^79 + 9: MUL is the Montgomery product, so that R times R^-1 comes back (R106, R135). -/
theorem witness_BenchResultReadsBack :
    let q := 2 ^ 79 + 9
    let x : Tile := { a := 0, b := 2, d := 4, modulus := some (q, 2), mem := [(0, 5), (2, 3)] }
    let s := bench x
    let y : Tile := { s.tile 95 with op := 2, l := 2 }
    s.reach (.pkt 95) ∧ (s.tile 95).busy = false ∧ (s.tile 95).modulus = some (q, 2) ∧
      benchErr y { op := 2, words := 2, useB := true, modular := true, waves := mulWaves 2 } 2 = none ∧
      benchErr { y with op := 4 } { op := 4, words := 2, useB := true, modular := true, waves := 0 } 2 = none ∧
      benchErr { y with op := 5 } { op := 5, words := 2, useB := true, modular := true, waves := 0 } 2 = none ∧
      ((run (.benchCommandDone 95 .ok none) (run (.benchAdd 95 2) s)).tile 95).num 4 2 = 8 ∧
      (((run (.benchCommandDone 95 .ok none) (run (.benchMul 95 2) s)).tile 95).num 4 2 * 2 ^ 80) % q = 15 := by decide +kernel

/-- Both number-theoretic transforms are undone by their inverses on a polynomial (R107). -/
theorem test_ntt_round_trip :
    let a := 1 :: 2 :: List.replicate 254 0
    inttDsa (nttDsa a) = a := by decide +kernel

/-! ### The symmetric service and tellers (chapter 8) -/

/-- A symmetric entry: an opcode, IN_LEN, OUT_LEN at 0x6000, and the parameter block's first octets (Table 8.4). -/
def symEntry (op i o : Nat) (par : Bytes) : Bytes :=
  entry op [(0x28, toLE 4 i), (0x2C, toLE 4 o), (0x30, toLE 8 0x6000), (0x38, par)]

/-- A bound job on lane pair 63 under a secret. -/
def onPair (e input key nonce : Bytes) : Job :=
  { job0 .sym e with
    phase := .bound, input := input
    bnd := some { eng := .pairs [63], keyA := some { ktype := 3, alg := eB e 0x38, klen := key.length, material := key }, nonce := nonce } }

theorem witness_SymmetricJobs :
    ∀ op ∈ ([0x0301, 0x0302, 0x0303, 0x0401, 0x0402, 0x0403] : List Nat),
      let j := onPair (symEntry op 16 16 [0x11]) (zeros 16) (zeros 16) (zeros 12)
      let s := withJobs [j]
      (s.boundJob op 0).isSome = true ∧ (symPar j.entry).abandon = false ∧ j.bnd.map (masksLeft op j) = some 0 ∧
        (symPar j.entry).scrub = false := by
  decide +kernel

/-- A tag that fails where the opening verifies first, where it streams (R177); a wrapped key that fails (R179). -/
theorem witness_SymmetricJobs_bad :
    let j := fun (e : Bytes) => onPair e (zeros 24) (zeros 16) (zeros 12)
    let out := fun (c : Instr) (e : Bytes) => (run c (withJobs [j e])).out.getLast?
    out (.aeadOpen 0 {}) (symEntry 0x0302 17 1 [0x11, 0, 2, 16]) = some (.write (some 7) 0x1000 [0, 1, 2, 3, 4, 3, 2, 0]) ∧
      out (.aeadOpen 0 {}) (symEntry 0x0302 17 1 [0x11, 0, 0, 16]) = some (.write (some 7) 0x1000 [0, 1, 2, 3, 4, 3, 1, 0]) ∧
      out (.cipher 0 {}) (symEntry 0x0303 24 16 [0x24, 1]) = some (.write (some 7) 0x1000 [0, 1, 3, 3, 4, 3, 2, 0]) := by
  decide +kernel

/-- 65,537 blocks ask each lane of a pair for one mask reseed more (R182): both served, one served and one that waits for a pool
word, refused where no instance runs; and a segment that abandons its stream. -/
theorem witness_MaskReseeds :
    let j := onPair (symEntry 0x0301 1048592 1048592 [0x11]) [] (zeros 16) (zeros 12)
    let s := fun (n : Nat) => { withJobs [j] with
      rng := { es := .healthy, inst := { st := .running, count := n } :: List.replicate 7 {} } }
    let a := onPair (symEntry 0x0301 0 0 [0x11, 0, 0x40]) [] (zeros 16) (zeros 12)
    j.bnd.map (masksLeft 0x0301 j) = some 2 ∧
      (match (s 0).moreMasks {} 2 0 with | (_, .got _, k) => k | _ => 9) = 2 ∧ 
      (sealRun (symPar j.entry) { key := zeros 16, nonce := zeros 12, aad := [], prior := [], pay := [], tag := [] }).bad = false ∧
      (match (s 65535).moreMasks {} 2 0 with | (_, .wait, k) => k | _ => 9) = 1 ∧
      (run (.aeadSeal 0 {}) (s 65535)).rng.waiters = [0] ∧ (run (.aeadSeal 0 {}) (s 65535)).jobs.map (fun x => x.bnd.map Bound.masks) = [some 1] ∧
      (match (withJobs [j]).moreMasks {} 2 0 with | (_, .refused c d, k) => (c, d, k) | _ => (0, 0, 9)) = (0x0402, 1, 0) ∧
      (run (.aeadSeal 0 {}) (withJobs [j])).out.getLast? = some (.write (some 7) 0x1000 [0, 1, 1, 3, 2, 4, 1, 0]) ∧
      (symPar a.entry).abandon = true ∧ ((withJobs [a]).boundJob 0x0301 0).isSome = true ∧
      (run (.aeadSeal 0 {}) (withJobs [a])).out.getLast? = some (.write (some 7) 0x1000 [0, 1, 1, 3, 0, 0, 0, 0]) := by
  decide +kernel

/-- SHA-256 of "abc" (FIPS 180-4), written at OUT_ADDR. -/
theorem test_hash_abc :
    let j := onPair hashEntry [0x61, 0x62, 0x63] [] []
    (run (.hash 0 {}) (withJobs [j])).out.head? = some (.write (some 7) 0x6000
      (toBE 32 0xba7816bf8f01cfea414140de5dae2223b00361a396177a9cb410ff61f20015ad)) := by decide +kernel

/-- AES-128 GCM, the second test case of the GCM specification: a zero block sealed under a zero key. -/
theorem test_gcm_seal :
    let j := onPair (symEntry 0x0301 16 32 [0x11, 0, 0, 16]) (zeros 16) (zeros 16) (zeros 12)
    (run (.aeadSeal 0 {}) (withJobs [j])).out.head? = some (.write (some 7) 0x6000
      (toBE 16 0x0388dace60b6a392f328c2b971b2fe78 ++ toBE 16 0xab6e47d42cec13bdf53a67b21257bddf)) := by decide +kernel

/-- HMAC-SHA-256, the first test case of RFC 4231, checked; and with its last octet changed, VERIFY_FAIL 0x40 (R181). -/
theorem test_mac_check :
    let msg : Bytes := [0x48, 0x69, 0x20, 0x54, 0x68, 0x65, 0x72, 0x65]
    let tag := toBE 32 0xb0344c61d8db38535ca8afceaf0bf12b881dc200c9833da726e9376c2e32cff7
    let e := symEntry 0x0403 40 0 [0x31, 1, 0, 32]
    let j := fun (t : Bytes) => onPair e (msg ++ t) (List.replicate 20 0x0B) []
    (run (.macCheck 0 {}) (withJobs [j tag])).out.getLast? = some (.write (some 7) 0x1000 [0, 1, 3, 4, 0, 0, 0, 0]) ∧
      (run (.macCheck 0 {}) (withJobs [j (tag.take 31 ++ [0])])).out.getLast? =
        some (.write (some 7) 0x1000 [0, 1, 3, 4, 1, 3, 0x40, 0]) := by decide +kernel

/-- AES key wrap of RFC 3394, section 4.1. -/
theorem test_key_wrap :
    let j := onPair (symEntry 0x0303 16 24 [0x24]) (toBE 16 0x00112233445566778899AABBCCDDEEFF)
      (toBE 16 0x000102030405060708090A0B0C0D0E0F) []
    (run (.cipher 0 {}) (withJobs [j])).out.head? = some (.write (some 7) 0x6000
      (toBE 24 0x1FA68B0A8112B447AEF34BD8FB5A7B829D3E862371D2CFE5)) := by decide +kernel

theorem witness_ScrubZeroesReleased :
    let j := onPair (symEntry 0x0302 17 1 [0x11, 0, 4, 16]) (zeros 17) (zeros 16) (zeros 12)
    let s := withJobs [j]
    let p := symPar j.entry
    ∃ b, s.boundJob 0x0302 0 = some (j, b) ∧ j.remote = none ∧ masksLeft 0x0302 j b = 0 ∧ p.abandon = false ∧ p.vfirst = false ∧
      p.scrub = true ∧ (openRun p (s.symIn j b)).bad = true ∧ (openRun p (s.symIn j b)).out = [3] ∧
      (run (.aeadOpen 0 {}) s).out.take 2 = [.write (some 7) 0x6000 [3], .write (some 7) 0x6000 [0]] :=
  ⟨_, rfl, by decide +kernel⟩

/-- HKDF-Expand with one block of SHA-256 into a secret at INDEX 0 of slice 0. -/
theorem witness_KeyDerivation :
    let e := entry 0x0404 [(0x38, [0x46, 1, 0, 0, 32, 0, 0x40])]
    let rv : Reservation := { slice := 0, index := 0, units := 1, tally := false }
    let b : Bound := { eng := .pairs [63], resv := some rv, keyA := some { ktype := 3, alg := 0x46, material := zeros 32 } }
    let j : Job := { job0 .sym e with phase := .bound, bnd := some b }
    let s := withJobs [j]
    let r := withJobs [{ j with remote := some { id := 3 } }]
    (r.boundJob 0x0404 0).isSome = true ∧ (run (.kdf 0 {}) r).jobs = [] ∧
    s.boundJob 0x0404 0 = some (j, b) ∧ j.remote = none ∧ b.resv = some rv ∧ (newKeyOf (s.jobView j) e).isSome = true ∧
      ((run (.kdf 0 {}) s).keyIn (mkHandle 0 0 1)).map (fun k => k.material.length) = some 32 := by decide +kernel

/-- `up` whose slice 0 has both teller pages live, with registers of a HASH on the second: "abc" (Table 8.15). -/
def telUp (u : Teller) : State :=
  let v := { up with slices := [(0, { slice0 with alloc := { teller := 2 }, tellers := [{}, u] })] }
  ((((v.setRg (.tel 0 1) 0x04C 0x0401).setRg (.tel 0 1) 0x058 3).setRg (.tel 0 1) 0x05C 32).setRg (.tel 0 1) 0x080 0x100).setRg
    (.tel 0 1) 0x100 0x636261

theorem witness_TellerGo :
    let s := telUp {}
    let f := (s.setHd (.scl 126) { st := .ready }).setHd (.scl 127) { st := .ready }
    let b := s.setRg (.tel 0 1) 0x04C 0x0101
    let en := s.tellerEntry 0 1
    (up.reach (.tel 0 0) ∧ up.sane = true ∧ up.tellerLive 0 0 = false ∧
      ((run (.tlGo 0 0 0 .ok .ok) up).hd (.tel 0 0)).errCode = 0x0501) ∧
    (s.reach (.tel 0 1) ∧ s.sane = true ∧ s.tellerLive 0 1 = true ∧ (s.slice 0).feat 9 = true ∧ (s.teller 0 1).st ≠ 1 ∧
      (s.slice 0).st ≠ .held ∧ s.pwr.deep = none ∧ s.tellerBad 0 en = none ∧ s.pairFree 63 = false ∧
      ((run (.tlGo 0 1 63 .ok .ok) s).teller 0 1).waiting = true) ∧
    (b.tellerBad 0 (b.tellerEntry 0 1) = some (0x0107, 0x20) ∧ ((run (.tlGo 0 1 63 .ok .ok) b).teller 0 1).code = 0x0107) ∧
    (f.tellerBad 0 en = none ∧ f.pairFree 63 = true ∧ f.nextTeller.isNone = true ∧
      f.ceilingWait (tellerJob 0 en (f.rgBytes (.tel 0 1) 0x100 64) none) = false ∧ opSecret (eOp en) = false ∧ eKeyA en = 0 ∧ eKeyB en = 0 ∧
      f.limitBad (tellerJob 0 en ((f.rgBytes (.tel 0 1) 0x100 64).take (eInLen en)) none) = false ∧
      ((run (.tlGo 0 1 63 .ok .ok) f).teller 0 1).pair = 63) := by decide +kernel

/-- The HASH bound above ends with the digest of "abc" in its page; ABORT and CLEAR. -/
theorem witness_TellerEnds :
    let f := ((telUp {}).setHd (.scl 126) { st := .ready }).setHd (.scl 127) { st := .ready }
    let s := run (.tlGo 0 1 63 .ok .ok) f
    let d := run (.tellerDone 0 1 {}) s
    let a := run (.tlAbort 0 1) s
    let c := run (.tlClear 0 1) d
    s.mute = false ∧ (s.teller 0 1).st = 1 ∧ (s.teller 0 1).bnd.isSome = true ∧ s.reach (.tel 0 1) ∧ s.tellerLive 0 1 = true ∧
      (d.teller 0 1).st = 2 ∧ (d.teller 0 1).dout = toBE 32 0xba7816bf8f01cfea414140de5dae2223b00361a396177a9cb410ff61f20015ad ∧
      (a.teller 0 1).code = 0x0404 ∧ (a.teller 0 1).detail = 3 ∧ (a.hd (.scl 127)).st = .ready ∧
      d.reach (.tel 0 1) ∧ d.tellerLive 0 1 = true ∧ (c.teller 0 1).dout = [] ∧ c.rg (.tel 0 1) 0x100 = 0 := by decide +kernel

/-! ### Random numbers (chapter 9) -/

/-- `up` with a HEALTHY entropy source, eight ACTIVE sources, eight instances running; source 7 and instance 7 as given. -/
def rngUp (v : Source) (i : Inst) : State :=
  { up with
    rng := { es := .healthy, soscKhz := 16000, src := List.replicate 7 { st := .active } ++ [v], inst := List.replicate 7 { st := .running } ++ [i]
             pool := List.replicate 63 [1] } }

/-- 12,000 and 20,000 are in range, 11,999 is not; then every source is benched and the entropy source fails (R191, R205). -/
theorem witness_OscillatorMeasure :
    let s := rngUp { st := .active } { st := .running }
    let t := run (.soscMeasure 11999) s
    s.rngOn = true ∧ (run (.soscMeasure 12000) s).rng.soscKhz = 12000 ∧ (run (.soscMeasure 20000) s).rng.soscErr = false ∧
      s.rng.soscErr = false ∧ s.rng.es = .healthy ∧ (t.src 7).st = .benched ∧ t.rng.es = .failed ∧ t.rng.pool = [] ∧
      t.glb.run = .degraded := by decide +kernel

/-- A block of alternating bits passes; a block of ones fails the repetition count (Table 9.2). -/
theorem witness_RawBlocks :
    let good : Bytes := List.replicate 128 0xAA
    let bad : Bytes := List.replicate 128 0xFF
    let a := rngUp { st := .active } { st := .running }
    let r := rngUp { st := .retry, retries := 2 } { st := .running }
    let four := { r with rng := { r.rng with src := List.replicate 4 { st := .benched } ++ List.replicate 3 { st := .active } ++
      [{ st := .retry, retries := 2 }] } }
    let t := run (.rawBlock 7 bad) four
    a.rngOn = true ∧ a.rng.soscErr = false ∧ (healthTest (a.src 7) good).1 = 0 ∧ (healthTest (a.src 7) bad).1 = 1 ∧
      (a.src 7).st = .active ∧ ((run (.rawBlock 7 good) a).rng.pool.length = 64) ∧
      ((run (.rawBlock 7 good) (run (.rawBlock 7 good) a)).rng.pool.length = 64) ∧
      ((run (.rawBlock 7 bad) a).src 7).st = .retry ∧
      (r.src 7).st = .retry ∧ (r.src 7).retries = 2 ∧ ((run (.rawBlock 7 good) r).src 7).st = .active ∧
      ((run (.rawBlock 7 bad) r).src 7).benchEnd = 64 ∧
      four.benched = 4 ∧ four.rng.es = .healthy ∧ t.rng.es = .failed ∧ (t.inst 7).st = .uninst := by decide +kernel

/-- The bench's last tick; the eighth failed start-up test; RECAL of a retired source with two benched (R194, R209). -/
theorem witness_SourceRecovery :
    let bad : Bytes := List.replicate 128 0xFF
    let b := rngUp { st := .benched } { st := .running }
    let c := rngUp { st := .recal } { st := .running }
    let u := rngUp { st := .startup, consec := 7 } { st := .running }
    let w := rngUp { st := .startup, consec := 6 } { st := .running }
    let e := (rngUp { st := .retired } { st := .running }).setRg .rng 0x044 7
    b.rngOn = true ∧ (b.src 7).st = .benched ∧ (b.src 7).benchEnd ≤ b.tick ∧ ((run (.sourceBenchEnd 7) b).src 7).st = .recal ∧
      c.rng.soscErr = false ∧ (c.src 7).st = .recal ∧ ((run (.recalComplete 7 { found := List.replicate 15 (3, 9) ++ [(8, 8)] }) c).src 7).trim = 15 ∧
      (u.src 7).st = .startup ∧ (healthTest { u.src 7 with repRun := 0 } (List.replicate 128 0xAA)).1 = 0 ∧
      ((run (.startupTestDone 7 (List.replicate 128 0xAA)) u).src 7).st = .active ∧
      (healthTest { u.src 7 with repRun := 0 } bad).1 ≠ 0 ∧ ((run (.startupTestDone 7 bad) u).src 7).st = .retired ∧
      ((run (.startupTestDone 7 bad) w).src 7).st = .benched ∧ ((run (.startupTestDone 7 bad) w).src 7).consec = 7 ∧
      e.reach .rng ∧ fld (e.rg .rng 0x044) 0 3 = 7 ∧ (e.src 7).st = .retired ∧ e.benched ≤ 2 ∧
      ((run .recal e).src 7).st = .recal ∧
      ((run .recal (b.setRg .rng 0x044 7)).hd .rng).errCode = 0x0501 := by decide +kernel

/-- A cycle in which instance 7 fails; one whose conditioner fails; recovery (R207, R208). -/
theorem witness_KnownAnswerTests :
    let s := rngUp { st := .active } { st := .running }
    let k : KatRun := { inst := List.replicate 7 true ++ [false] }
    let f : State := { s with rng := { s.rng with es := .failed, pool := [] } }
    let c : State := { s with rng := { s.rng with condFailed := true } }
    s.sane = true ∧ s.reach .rng ∧ s.rng.katRes ≠ 3 ∧ s.rng.es = .healthy ∧ s.rngOn = true ∧ s.rng.nextCycle ≤ s.tick ∧
      ((run (.kat k) s).inst 7).st = .fault ∧ (run (.kat k) s).rng.katPart = 7 ∧ (run (.katCycle k) s).rng.katRes = 2 ∧
      (run (.kat { conditioner := false }) s).rng.es = .failed ∧ (run (.kat { conditioner := false }) s).rng.katPart = 8 ∧
      c.rng.condFailed = true ∧ c.rng.condRetest ≤ c.tick ∧ (run (.conditionerRetest true) c).rng.condFailed = false ∧
      f.sane = true ∧ f.canRecover = true ∧ (run (.esRecovery {}) f).rng.es = .healthy := by decide +kernel

/-- A read at instance 7; one with PR and an empty pool. -/
theorem witness_RandomReads :
    let e := entry 0x0601 [(0x2C, toLE 4 16), (0x30, toLE 8 0x6000)]
    let b : Bound := { eng := .drbg 7 }
    let j : Job := { job0 .rng e with phase := .bound, bnd := some b }
    let s := { rngUp { st := .active } { st := .running, count := 65535, key := zeros 32, v := zeros 16 } with jobs := [j] }
    let p : Job := { j with entry := entry 0x0601 [(0x2C, toLE 4 16), (0x30, toLE 8 0x6000), (0x38, [1])] }
    let n := { s with jobs := [p], rng := { s.rng with pool := [] } }
    let q := { rngUp { st := .active } { st := .running, count := 65536, key := zeros 32, v := zeros 16 } with jobs := [j] }
    s.boundRead 0 = some (j, b, 7) ∧ s.rng.limit = 65536 ∧ (s.inst 7).st = .running ∧
      ((run (.rngRead 0 {}) s).inst 7).count = 65536 ∧ (run (.rngRead 0 {}) s).rng.hostOct = 16 ∧
      q.boundRead 0 = some (j, b, 7) ∧ q.rng.pool ≠ [] ∧ q.intWaits = false ∧ ((run (.rngRead 0 {}) q).inst 7).count = 1 ∧
      endDetail false .detector = some 2 ∧
      (run (.rngRead 0 { eng := .detector }) s).out.getLast? = some (.write (some 7) 0x1000 [0, 1, 1, 6, 3, 4, 2, 0]) ∧
      n.boundRead 0 = some (p, b, 7) ∧ bit (eB p.entry 0x38) 0 = true ∧ n.rng.pool = [] ∧
      (run (.rngPrTimeout 0) n).out.getLast? = some (.write (some 7) 0x1000 [0, 1, 1, 6, 1, 4, 1, 0]) := by decide +kernel

theorem witness_ReseedLimit :
    up.reach .rng ∧ fld (256#32) 0 17 = 256 ∧ (run (.rngReseedWrite 256) up).rng.limit = 256 ∧
      fld (65536#32) 0 17 ≤ up.rng.limit ∧ (run (.rngReseedWrite 65536) up).rng.limit = 65536 ∧
      ((run (.rngReseedWrite 255) up).hd .rng).errCode = 0x0107 ∧ ((run (.rngReseedWrite 65537) up).hd .rng).errCode = 0x0107 := by
  decide +kernel

/-! ### Keys (chapter 10) -/

/-- The last generation of slice 4095 at its last INDEX; GEN wraps to 1 (R214, R215). -/
theorem witness_CreatedKeyResolves :
    let s := { up with vault := { gens := [(4095, 2 ^ 20 - 1)] } }
    let rv : Reservation := { slice := 4095, index := 2 ^ 24 - 1, units := 1, tally := false }
    let n : NewKey := { ktype := 3, alg := 0x40, pset := 0, klen := 1, usage := 4, persist := 2, export_ := 0 }
    let r := s.createKey rv n [0xAB] [] [] id
    rv.slice < 4096 ∧ rv.index < 2 ^ 24 ∧ NMap.getD s.vault.gens rv.slice 1 < 2 ^ 20 ∧
      (r.1.resolve 4095 r.2).map KeyRec.material = some [0xAB] ∧ NMap.getD r.1.vault.gens 4095 1 = 1 := by decide +kernel

/-- A reserved place, INDEX 5 of slice 0. -/
def resv0 : Reservation := { slice := 0, index := 5, units := 1, tally := false }

/-- A job bound to worker 7. -/
def onWorker (e input : Bytes) (k : Option KeyRec) : Job :=
  { job0 .key e with phase := .bound, input := input, bnd := some { eng := .worker 7, keyA := k, resv := some resv0 } }

/-- A plain secret; an ML-KEM public key of zeros (its coefficients are in range) on tile 95. -/
theorem witness_KeysComeIn :
    let i := onWorker (entry 0x0501 [(0x38, [1, 3, 0x40, 0, 16, 0, 2, 0])]) (zeros 16) none
    let p := onWorker (entry 0x0506 [(0x38, [0, 0, 7, 2, 0, 0, 2, 0])]) (zeros 800) none
    let s := withJobs [i]
    let u := (withJobs [p]).setHd (.pkt 95) { st := .ready }
    let h := mkHandle 0 5 1
    (newKeyOf (s.jobView i) i.entry).isSome = true ∧ (s.boundJob 0x0501 0).map Prod.fst = some i ∧ s.auxFits [] [] = true ∧
      ((run (.keyImport 0 [] {}) s).keyIn h).map KeyRec.imported = some true ∧
      (newKeyOf (u.jobView p) p.entry).isSome = true ∧ (u.boundJob 0x0506 0).map Prod.fst = some p ∧
      u.auxFits [.tile] [.tile 95] = true ∧
      ((run (.pubkeyLoad 0 [.tile 95] {}) u).keyIn h).map (fun k => k.pub.length) = some 800 := by decide +kernel

theorem witness_KeysGoOut :
    let k : KeyRec := { handle := mkHandle 0 5 1, ktype := 2, alg := 7, pset := 2, pub := [1, 2, 3], units := 9 }
    let e := onWorker (entry 0x0502 [(0x2C, toLE 4 800), (0x30, toLE 8 0x6000), (0x38, [3])]) [] (some k)
    let g := onWorker (entry 0x0504 [(0x2C, toLE 4 80), (0x30, toLE 8 0x6000)]) [] (some k)
    (((withJobs [e]).boundJob 0x0502 0).map Prod.fst = some e ∧ (withJobs [e]).auxFits [] [] = true ∧
      (run (.keyExport 0 [] {}) (withJobs [e])).out.head? = some (.write (some 7) 0x6000 [1, 2, 3])) ∧
    (((withJobs [g]).boundJob 0x0504 0).map Prod.fst = some g ∧
      (run (.keyAttrGet 0 {}) (withJobs [g])).out.head? = some (.write (some 7) 0x6000 (attrRecord k)) ∧ (attrRecord k).length = 64) := by
  decide +kernel

/-- A blob of zeros fails its first row (Table 10.13): KEY_FOREIGN 3. -/
theorem witness_BlobLoads :
    let j := onWorker (entry 0x0509 [(0x28, toLE 4 80)]) (zeros 80) none
    let s := ((withJobs [j]).setHd (.scl 126) { st := .ready }).setHd (.scl 127) { st := .ready }
    (s.boundJob 0x0509 0).map Prod.fst = some j ∧ s.auxFits [.pair] [.pairs [63]] = true ∧ s.blobBad j = some (0x0202, 3) ∧
      (run (.blobLoad 0 [.pairs [63]] {}) s).out.getLast? = some (.write (some 7) 0x1000 [0, 1, 9, 5, 2, 2, 3, 0]) := by decide +kernel

/-- A secret of slice 0 at INDEX 5, in hot memory or deep, and a job on it. -/
def keyed (deep : Bool) (e : Bytes) : State :=
  let k : KeyRec :=
    { handle := mkHandle 0 5 1, ktype := 3, alg := 0x31, klen := 32, usage := 0x180, persist := if deep then 1 else 2, units := 1
      material := zeros 32 }
  { withJobs [onWorker e [] (some k)] with ks := { keys := [(5, k)] } }

theorem witness_DeleteAndRestrict :
    let d := entry 0x0503 [(0x10, toLE 8 (mkHandle 0 5 1))]
    let r := fun (clear : Nat) => entry 0x0505 [(0x10, toLE 8 (mkHandle 0 5 1)), (0x38, toLE 4 clear ++ [0xFF, 0, 0xFF, 0xFF])]
    let s := keyed false d
    let u := keyed true d
    let q := keyed false (r 0x100)
    let b := keyed false (r 0x1000)
    let free := fun (x : State) => (x.job 0).map fun j => x.putJob { j with bnd := j.bnd.map fun b => { b with resv := none } }
    let take := fun (x : State) (n : Nat) => (free x).bind fun y => (x.resolve 0 (mkHandle 0 5 1)).map (y.restrictTake 0 (restrictOf (r n)))
    let gone := fun (x : State) => { x with ks := {} }
    ((gone s).resolve 0 (mkHandle 0 5 1) = none ∧ ((gone s).boundJob 0x0503 0).isSome = true ∧
      (run (.keyDelete 0 {}) (gone s)).out.getLast? = some (.write (some 7) 0x1000 [0, 1, 3, 5, 0, 0, 0, 0]) ∧
      ((gone q).boundJob 0x0505 0).isSome = true ∧
      (run (.keyAttrRestrict 0 {}) (gone q)).out.getLast? = some (.write (some 7) 0x1000 [0, 1, 5, 5, 0, 0, 0, 0])) ∧
    (s.sane = true ∧ (s.resolve 0 (mkHandle 0 5 1)).map KeyRec.deep = some false ∧ (∀ x ∈ s.clu.replicas, x.1 ≠ 5) ∧
      (s.boundJob 0x0503 0).isSome = true ∧ (run (.keyDelete 0 {}) s).resolve 0 (mkHandle 0 5 1) = none) ∧
    (u.sane = true ∧ (u.resolve 0 (mkHandle 0 5 1)).map KeyRec.deep = some true ∧
      ((u.resolve 0 (mkHandle 0 5 1)).bind fun k => u.filterTake k 256).isSome = true ∧
      (run (.keyDelete 0 {}) u).ks.filter.map FilterEntry.minRev = [256]) ∧
    (q.sane = true ∧ (q.boundJob 0x0505 0).isSome = true ∧
      ((q.resolve 0 (mkHandle 0 5 1)).map KeyRec.deep) = some false ∧
      (match take q 0x100 with | some (.inr _) => true | _ => false) = true ∧
      (NMap.find (run (.keyAttrRestrict 0 {}) q).ks.keys 5).map (fun k => (k.usage, k.rev)) = some (0x80, 1)) ∧
    (b.sane = true ∧ (match take b 0x1000 with | some (.inl c) => c == (0x0203, 0x11) | _ => false) = true ∧
      (run (.keyAttrRestrict 0 {}) b).out.getLast? = some (.write (some 7) 0x1000 [0, 1, 5, 5, 3, 2, 0x11, 0])) := by decide +kernel

/-- A filter whose 65,536 entries are all other slices' has no entry free (R238). -/
theorem witness_DeleteAndRestrict_full :
    let s := keyed true (entry 0x0503 [(0x10, toLE 8 (mkHandle 0 5 1))])
    let f : FilterEntry := { slice := 1, index := 0, gen := 1, minRev := 0, seg := 0, round := 0 }
    ∀ k : KeyRec, k.slice = 0 →
      State.filterTake { s with ks := { s.ks with filter := List.replicate 65536 f } } k 256 = none := by
  intro s f k hk
  have full : ∀ l : List FilterEntry, (∀ x ∈ l, x.slice = 1) → 65536 ≤ l.length →
      State.filterTake { s with ks := { s.ks with filter := l } } k 256 = none := by
    intro l hl hn
    have hs : (l.filter fun x => !(x.slice = k.slice && x.index = hIndex k.handle && x.gen = hGen k.handle)) = l :=
      List.filter_eq_self.2 fun x hx => by simp [hl x hx, hk]
    simp only [State.filterTake]
    rw [hs]
    simp [hn]
  refine full _ (fun x hx => ?_) (Nat.le_of_eq List.length_replicate.symm)
  rw [List.eq_of_mem_replicate hx]

theorem witness_CompactionAndArchive :
    let a := { up with mem := { keyIdMode := true, act := [16] } }
    let w := { a with ks := { compBusy := true, compSeg := 3, compFreedOld := 4 }, mem := { keyIdMode := true, act := [4, 16] } }.setRg .kst 0x080 0
    let k : KeyRec := { handle := mkHandle 0 5 1, persist := 6, tallied := true, inv := 2 ^ 19, invCeil := 2 ^ 20, usedCeil := 2 ^ 20, archPending := true }
    let p := { up with ks := { keys := [(5, k)], archive := [(5, { slice := 9, digest := [], epoch := 0, key := k, page := 0 })] } }.setRg .kst 0x074 9
    (a.reach .kst ∧ a.mem.keyIdMode = true ∧ a.ks.compBusy = false ∧ a.spareWaits = false ∧ (run .kstCompactGo a).ks.compBusy = true) ∧
    (up.reach .kst ∧ up.mem.keyIdMode = false ∧ ((run .kstCompactGo up).hd .kst).errCode = 0x0501) ∧
    (w.ks.compBusy = true ∧ w.running = true ∧ w.ks.compWait = false ∧ (w.rg .kst 0x080).getLsbD 0 = false) ∧
    (p.reach .kst ∧ fld (p.rg .kst 0x074) 0 12 = 9 ∧ (p.slice 9).st = .free ∧ (run .kstResPurgeGo p).ks.archive = [] ∧
      (up.slice (fld (up.rg .kst 0x074) 0 12)).st ≠ .free ∧ ((run .kstResPurgeGo up).hd .kst).errDetail = 3) ∧
    (p.resolve 0 (mkHandle 0 5 1) = some k ∧ k.archPending = true ∧ p.mute = false ∧ p.anchorPairAway = false ∧ ((p.setHd (.scl 0) { st := .servicing }).setHd (.scl 1) { st := .ready }).anchorPairAway = true ∧
      ((NMap.find (run (.archiveWriteComplete (BitVec.ofNat 64 (mkHandle 0 5 1))) p).ks.keys 5).map KeyRec.invCeil) = some (2 ^ 21)) := by
  decide +kernel

/-! ### Countersigning and slices (chapters 11 and 12) -/

/-- An owner group of one custodian, window 640 ticks. -/
def owner0 (d : Bytes) : Group := { m := 1, n := 1, gflags := 1, slice := 0, window := 640, gversion := 1, digest := d }

/-- A KIND 4 request of no octets: the approval opens for 640 ticks from its binding; with no group 0 it is BAD_PARAM 0x13, with
1,024 approvals outstanding CAPACITY 0x50. -/
theorem witness_ChallengeIssued :
    let j := onWorker (entry 0x0701 [(0x38, [4, 0])]) [] none
    let s := { withJobs [j] with vault := { groups := [(0, owner0 [])], approvalSerial := 2 ^ 22 - 1 } }
    let t := run (.quorumChallenge 0 {}) s
    let old : Approval := { slot := 0, serial := 0, slice := 0, kind := 4, group := 0, gversion := 1, challenge := [], opDigest := [], m := 1, n := 1, tStart := 0, tEnd := 1 }
    let full := { s with cus := { approvals := List.replicate 16 old } }
    (s.boundJob 0x0701 0).map Prod.fst = some j ∧
      (s.asked j).getRight?.map (fun q => (s.askedRoom j q, q.window)) = some (none, 640) ∧
      t.cus.approvals.map (fun a => (a.slot, a.serial, a.m, a.tEnd - a.tStart)) = [(0, 0, 1, 640)] ∧
      (full.asked j).getRight?.map (fun q => full.askedRoom j q) = some (some (cCapacity, 0x50)) ∧
      (full.boundJob 0x0701 0).map Prod.fst = some j ∧
      (withJobs [j]).asked j = .inl (cBadParam, 0x13) ∧
      (run (.quorumChallenge 0 {}) (withJobs [j])).out.getLast? = some (.write (some 7) 0x1000 [0, 1, 1, 7, 7, 1, 0x13, 0]) := by decide +kernel

/-- A record of one custodian (ECDSA P-256), of 72 octets, as a submit carries it. -/
def rec1 (keyDig : Bytes) : Bytes :=
  toLE 4 0x47515A4C ++ toLE 2 1 ++ [0, 1, 1, 1] ++ toLE 2 0 ++ toLE 4 640 ++ toLE 4 1 ++ zeros 12 ++ [1, 1, 1, 0] ++ zeros 4 ++ Bytes.fit keyDig 32

/-- A live approval of an operation in slot 1,023 under the highest serial. -/
def appr0 (window : Nat) : Approval :=
  { slot := 1023, serial := 2 ^ 22 - 1, slice := 0, kind := 4, group := 0, gversion := 1, challenge := zeros 128, opDigest := zeros 32
    m := 1, n := 1, tStart := 0, tEnd := window }

/-- QUORUM_SUBMIT of a record and tokens for that approval. -/
def submit0 (n : Nat) (input : Bytes) : Job := onWorker (entry 0x0702 [(0x38, toLE 4 0xFFFFFFFF), (0x3C, [n])]) input none

/-- A submit of no tokens, one too long, one with no approval, one of another record. -/
theorem witness_SubmitJudged :
    let r := rec1 []
    let at_ := fun (j : Job) (a : List Approval) (d : Bytes) =>
      ({ withJobs [j] with vault := { groups := [(0, owner0 d)] }, cus := { approvals := a } } : State)
    let j := submit0 0 r
    let s := at_ j [appr0 640] (sha3_256 r)
    let last := fun (s : State) => (run (.quorumSubmit 0 {}) s).out.getLast?
    (s.boundJob 0x0702 0).map Prod.fst = some j ∧ j.items = [] ∧ submitRecord r = r ∧ tokensOf 0 [] = some [] ∧
      s.approval 0 0xFFFFFFFF = some (appr0 640) ∧ last s = some (.write (some 7) 0x1000 [0, 1, 2, 7, 0, 0, 0, 0]) ∧
      last (at_ (submit0 0 (r ++ [1])) [appr0 640] (sha3_256 r)) = some (.write (some 7) 0x1000 [0, 1, 2, 7, 3, 1, 1, 0]) ∧
      (at_ j [appr0 0] []).approval 0 0xFFFFFFFF = none ∧
      last (at_ j [appr0 0] []) = some (.write (some 7) 0x1000 [0, 1, 2, 7, 3, 5, 1, 0]) ∧
      last (at_ j [appr0 640] (zeros 32)) = some (.write (some 7) 0x1000 [0, 1, 2, 7, 2, 2, 5, 0]) := by decide +kernel

/-- A token whose signature is zeros fails (FIPS 186-5: r and s lie in [1, n - 1]); a window ends at its last tick. -/
theorem witness_TokensCount :
    let pub := zeros 65
    let r := rec1 (sha3_256 pub)
    let tk : Token := { index := 0, pub := pub, sig := zeros 64 }
    let i : Item := { idx := 0, body := tokenItem tk, ready := true }
    let j := { submit0 1 (r ++ Bytes.padMul (tokenItem tk) 8) with items := [i] }
    let s := { withJobs [j] with vault := { groups := [(0, owner0 (sha3_256 r))] }, cus := { approvals := [appr0 640] } }.setHd (.pkt 95) { st := .ready }
    let e := { up with cus := { approvals := [appr0 0] } }
    ((s.boundJob 0x0702 0).map Prod.fst = some j ∧ s.tileFree 95 = true ∧ tokensOf 1 (Bytes.padMul i.body 8) = some [tk] ∧
      s.approval 0 0xFFFFFFFF = some (appr0 640) ∧ tokenFails (submitRecord j.input) (zeros 128) tk = true ∧
      (run (.tokenVerified 0 0 95 {}) s).cus.tokenRej = 1) ∧
    ((e.cus.approvals.find? fun a => a.slot = 1023) = some (appr0 0) ∧ (appr0 0).tEnd ≤ e.tick ∧
      (run (.approvalWindowEnd 1023) e).cus.approvals = []) := by decide +kernel

/-- `up` in FIELD, the manager's target slice 4,095 in a state, its block 88 octets long. -/
def target (st : SliceState) : State :=
  let u := { up with lcs := { recs := [(0, { code := 4, ncode := 11, commit := 3 })] }, rng := { es := .healthy, inst := List.replicate 8 { st := .running } } }
  let v := if st = .free then u else u.setSlice 4095 { st := st, pasid := some 9, digest := zeros 32, featOk := true, alloc := { rings := 2 }, rings := [(0, { gid := 64 }), (1, { gid := 65 })] }
  (v.setRg (.slm 0) 0x044 4095).setRg (.slm 0) 0x050 88

theorem witness_ClaimChallenge :
    let s := target .free
    let none_ := { s with rng := {} }
    let w := { s with rng := { es := .healthy, inst := List.replicate 8 { st := .running, count := 65536 } } }
    let ready := fun (s : State) => s.reach (.slm 0) ∧ s.slm.cmd.st ≠ 1 ∧ s.glb.committed = true ∧ fld (s.rg (.slm 0) 0x044) 0 12 = 4095
    ready s ∧ (s.slice 4095).st = .free ∧ s.internalRuns = true ∧ s.intBlocked = false ∧
      ready w ∧ w.internalRuns = true ∧ w.intBlocked = true ∧ (run .challenge w).slm.cmd.st = 1 ∧
      (run .challenge w).rng.draws = [.challenge 4095] ∧
      (run .challenge s).slm.chals.map (fun c => (c.slice, c.tEnd - c.tStart)) = [(4095, 3840)] ∧
      ready (target .active) ∧ ((target .active).slice 4095).st ≠ .free ∧ (run .challenge (target .active)).slm.cmd.code = 0x0501 ∧
      ready none_ ∧ none_.internalRuns = false ∧ (run .challenge none_).slm.cmd.code = 0x0402 := by decide +kernel

/-- A creation block (Table 12.4) of two rings for slice 4,095, PASID 9. -/
def block0 (rings : Nat) (digest : Bytes) : Bytes :=
  toLE 4 0x42535A4C ++ toLE 2 1 ++ toLE 2 4095 ++ toLE 4 9 ++ toLE 2 rings ++ zeros 6 ++ [1, 0, 0, 0] ++ zeros 24 ++ Bytes.fit digest 32 ++ zeros 8

/-- An unclaimed block makes its slice; one for 16,385 rings is BAD_PARAM 2. -/
theorem witness_SliceCreated :
    let s := target .free
    let b := block0 2 []
    let t := run (.create (.data b)) s
    b.length = 88 ∧ s.lcs.pending = false ∧ s.clu.role ≠ .member ∧ s.invasive = false ∧ s.createBad 4095 b = none ∧
      (blockDigest b).all (· = 0) = true ∧ (t.slice 4095).st = .active ∧ (t.slice 4095).pasid = some 9 ∧
      (t.slice 4095).rings.map (fun r => r.2.st) = [.disabled, .disabled] ∧
      s.createBad 4095 (block0 16385 []) = some (cBadParam, 2, 0) ∧
      (run (.create (.data (block0 16385 []))) s).slm.cmd = { st := 2, code := cBadParam, detail := 2 } := by decide +kernel

/-- A claimed block, ECDSA P-256: no challenge; a challenge, and a key that is not the digest's. -/
theorem witness_SliceCreated_claimed :
    let b := toLE 4 0x42535A4C ++ toLE 2 1 ++ toLE 2 4095 ++ toLE 4 9 ++ toLE 2 2 ++ zeros 6 ++ [1, 0, 0, 0] ++ zeros 24 ++ List.replicate 32 1 ++
      [1, 1, 1, 0] ++ toLE 2 65 ++ toLE 2 64 ++ zeros 136
    let s := (target .free).setRg (.slm 0) 0x050 224
    let c : ClaimChal := { slice := 4095, nonce := [], tStart := 0, tEnd := 3840 }
    let u := { s with slm := { s.slm with chals := [c] } }
    s.createBad 4095 b = none ∧ (run (.create (.data b)) s).slm.cmd = { st := 2, code := cWindow, detail := 1 } ∧
      u.createBad 4095 b = none ∧ u.claimFails b c = some (cForeign, 6) ∧
      (run (.create (.data b)) u).slm.cmd = { st := 2, code := cForeign, detail := 6 } := by decide +kernel

theorem witness_SliceResizedAndHeld :
    let a := target .active
    let busy := a.setSlice 4095 { a.slice 4095 with rings := [(0, { gid := 64 }), (1, { gid := 65, st := .scanning })] }
    let fits := fun (s : State) (b : Bytes) => blockForm b = false ∧ (s.slice 4095).unlike 4095 b = false ∧ blockOver b = false ∧
      Bytes.at b 0x10 = 0 ∧ s.poolShort (s.slice 4095).alloc.amounts (blockAmounts b) = none
    ((run .hold a).slice 4095).st = .held ∧ (run .release a).slm.cmd.code = cForbids ∧
      ((run .release (target .held)).slice 4095).st = .active ∧ (run .hold (target .held)).slm.cmd.code = cForbids ∧
      (fits a (block0 3 []) ∧ a.shrinkBad 4095 (block0 3 []) = none ∧
        ((run (.resize (.data (block0 3 []))) a).slice 4095).alloc.rings = 3 ∧
        ((run (.resize (.data (block0 3 []))) a).slice 4095).rings.length = 3) ∧
      (fits busy (block0 1 []) ∧ busy.shrinkBad 4095 (block0 1 []) = some 1 ∧
        (run (.resize (.data (block0 1 []))) busy).slm.cmd = { st := 2, code := cForbids, detail := 4, info := 1 }) := by decide +kernel

theorem witness_SliceDestroyed :
    let a := target .active
    let t := run .destroy a
    let k : KeyRec := { handle := mkHandle 4095 5 1 }
    let d := { target .destroying with ks := { keys := [(4095 * 2 ^ 24 + 5, k)] } }
    let u := run (.sliceEraseComplete 4095) d
    (t.slice 4095).st = .destroying ∧ t.slm.cmd.st = 1 ∧ d.running = true ∧ (d.slice 4095).st = .destroying ∧ d.jobs = [] ∧
      (u.slice 4095).st = .free ∧ u.ks.keys = [] ∧ u.slm.cmd = { st := 2, info := 1 } := by decide +kernel

/-- The last slice commits what it is offered; a commit without bit 0 is refused with cause 2. -/
theorem witness_SliceFeatureCommit :
    let a := target .active
    let v := { a.slice 4095 with offer := 0x1FFFF }
    let s := (a.setSlice 4095 v).setRg (.slc 4095) 0x050 1
    let z := (a.setSlice 4095 v).setRg (.slc 4095) 0x050 2
    s.reach (.slc 4095) ∧ s.commitBad 4095 [1, 0, 0, 0] = none ∧ ((run (.slFeatCommit 4095) s).slice 4095).featAcc = [1, 0, 0, 0] ∧
      z.reach (.slc 4095) ∧ z.commitBad 4095 [2, 0, 0, 0] = some 2 ∧ ((run (.slFeatCommit 4095) z).slice 4095).featCause = 2 := by
  decide +kernel

/-- Messages of 64 octets and of one octet; each side refuses while a message waits. -/
theorem witness_Mailboxes :
    let a := target .active
    let m := fun (m : Mailbox) => (a.setMbox 4095 m).setRg (.slm 1) 0x040 4095
    let send := (m {}).setRg (.mbx 4095) 0x044 64
    let t := run (.mbSend 4095) send
    let tx := m { txLen := 1 }
    send.reach (.mbx 4095) ∧ fld (send.rg (.mbx 4095) 0x044) 0 7 = 64 ∧ (t.slice 4095).mbox.outMsg.length = 64 ∧
      (t.hd (.slm 0)).intStat.getLsbD 17 = true ∧
      (m { outFull := true }).reach (.mbx 4095) ∧ ((run (.mbSend 4095) (m { outFull := true })).hd (.mbx 4095)).errCode = cForbids ∧
      ((run (.mbInAck 4095) (m { inFull := true })).slice 4095).mbox.inFull = false ∧
      tx.reach (.slm 1) ∧ fld (tx.rg (.slm 1) 0x040) 0 12 = 4095 ∧ sliceOpen (tx.slice 4095) = true ∧
      ((run .slmMbTxSend tx).slice 4095).mbox.inLen = 1 ∧
      ((run .slmMbTxSend (m { inFull := true })).hd (.slm 1)).errCode = cForbids ∧
      ((run .slmMbRxAck (m { outFull := true })).hd (.mbx 4095)).intStat.getLsbD 17 = true := by decide +kernel

/-! ### Cluster and Zentulink (chapter 13) -/

/-- `up` with port 3 in a state of its link, in a cluster role, in FIELD, an instance running. -/
def linkUp (role : Role) (z : Zl) : State :=
  { up with
    lcs := { recs := [(0, { code := 4, ncode := 11, commit := 3 })] }
    rng := { es := .healthy, pool := [[1]], inst := List.replicate 8 { st := .running } }
    clu := { role := role, topo := 1 }
    zl := [(3, z)]
    hdr := [(pageKey (.zl 3), { st := .ready })] }

/-- A frame with a payload as its sender seals it, under a key of zeros (Table 13.2). -/
def frameP (typ : Nat) (f : FrameHdr) (pay : Bytes) : FrameHdr :=
  { f with body := sealBody (zeros 32) (frameHdr typ (b2n f.nak) f.src.val f.dst.val pay.length f.epoch f.ctr) pay }

/-- A frame with no payload. -/
def frame0 (typ : Nat) (f : FrameHdr) : FrameHdr := frameP typ f []

/-- A link UP under keys of zeros. -/
def zl0 (peer : Nat) : Zl := { st := .up, epoch := 1, rxEpoch := 1, txKey := zeros 32, rxKey := zeros 32, peer := peer, rostered := true }

/-- A request of 32 octets: one without its magic, and in a BLANK unit one of ACTION 5 that a state check refuses. -/
theorem witness_ClusterExecute :
    let s := up.setRg .clu 0x0A8 32
    let b := toLE 4 0x52435A4C ++ toLE 2 1 ++ [5] ++ zeros 25
    let p := { s with lcs := { pending := true } }
    s.reach .clu ∧ s.clu.cmd.st ≠ 1 ∧ requestBad [] = true ∧
      (run (.execute (.data [])) s).clu.cmd = { st := 2, code := cBadParam, detail := 1 } ∧
      requestBad b = false ∧ s.executeBad b = some (cForbids, 2) ∧
      (run (.execute (.data b)) s).clu.cmd = { st := 2, code := cForbids, detail := 2 } ∧
      (run (.execute (.data b)) p).clu.cmd.code = cPending := by decide +kernel

/-- The last frame before the sequence limit; the fifteenth and the sixteenth tag failure in a row; a frame of another epoch, and
one out of sequence. -/
theorem witness_FrameAcceptance :
    let z : Zl := { zl0 0 with txCtr := 2 ^ 40 - 2, consec := 14 }
    let s := linkUp .standalone z
    let u := linkUp .standalone { z with consec := 15 }
    let e := frame0 3 { epoch := 2 }
    let c := frame0 5 { epoch := 1, ctr := 5 }
    let part := frameP 6 { epoch := 1, last := false } (List.replicate 16 7)
    let hdr := frameHdr 7 1 0 0 16 1 (2 ^ 40 - 2)
    let t := run (.heartbeat 3 {}) s
    s.running = true ∧ s.awake ∧ s.pwr.pfwLow = false ∧ (s.zlp 3).up = true ∧ (s.zlp 3).txCtr + 1 < 2 ^ 40 ∧
      openFrame {} z.rxKey 2 = none ∧ (t.zlp 3).authFail = 1 ∧ (t.zlp 3).consec = 15 ∧
      (match t.out with | [.frame 3 h b] => h == hdr && b.length == 32 | _ => false) = true ∧
      ((run (.ackFrame 3 {} {}) u).zlp 3).st = .training ∧
      openFrame e z.rxKey 3 = some [] ∧ ((run (.jobFrame 3 e { id := 0 }) s).zlp 3).retry = 1 ∧
      ((run (.jobFrame 3 e { id := 0 }) s).zlp 3).consec = 0 ∧
      openFrame c z.rxKey 5 = some [] ∧ ((run (.keymove 3 c (.erase 0)) s).zlp 3).retry = 1 ∧
      (s.frameIn 3 part 6).2 = some (List.replicate 16 7) ∧ part.last = false ∧
      (run (.roster 3 part { ver := 0, topo := 0, headUid := [], ids := [] }) s).clu.rxPart = [(6, List.replicate 16 7)] := by decide +kernel

/-- A frame from member 63 to the head at the last tick of its window; frames from the head at member 63. -/
theorem witness_FrameEffects :
    let h0 := linkUp .head { zl0 63 with sent := [(3, ([1], [2])), (4, ([3], [4]))] }
    let h := { h0 with glb := { h0.glb with optime := 7 }, clu := { h0.clu with members := [(0, { st := .serving }), (63, { st := .leaving })] } }.setRg .clu 0x080 8
    let m0 := linkUp .member (zl0 0)
    let m := { m0 with clu := { m0.clu with id := 63, topo := 2, members := [(0, {}), (63, {})] } }
    let fh := fun (t : Nat) => frame0 t { epoch := 1, src := 63 }
    let fm := fun (t : Nat) => frame0 t { epoch := 1, dst := 63 }
    let nak := frame0 7 { epoch := 1, src := 63, nak := true }
    (h.frameIn 3 (fh 2) 2).2 = some [] ∧ (fh 2).last = true ∧ (h.member 63).window + h.hbTimeout = 8 ∧ (h.member 63).st.beats = true ∧
      ((run (.heartbeat 3 { hdr := fh 2, msg := { tiles := 96 } }) h).member 63) = { st := .leaving, lastHb := 7, window := 7, engines := 96 } ∧
      (m.frameIn 3 (fm 2) 2).2 = some [] ∧
      (run (.heartbeat 3 { hdr := fm 2 }) { m with clu := { m.clu with headLost := true } }).clu.headLost = false ∧
      (m.frameIn 3 (fm 3) 3).2 = some [] ∧ m.clu.headLost = false ∧ m.clu.leaving = none ∧
      (run (.jobFrame 3 (fm 3) { id := 5 }) m).jobs.map (fun j => (j.phase, j.entry.length)) = [(.staged, 128)] ∧
      (h.frameIn 3 (fh 4) 4).2 = some [] ∧ h.job 5 = none ∧ (run (.resultFrame 3 (fh 4) { job := 5 }) h).clu.late = 1 ∧
      (h.frameIn 3 nak 7).2 = some [] ∧ (run (.ackFrame 3 nak { named := 4 }) h).out = [.frame 3 [3] [4]] := by
  decide +kernel

/-- The result of a PK_VERIFY (ECDSA P-256, a digest) placed on member 63: its signature of zeros fails the range check. -/
theorem witness_FrameEffects_result :
    let s0 := linkUp .head (zl0 63)
    let e := entry 0x0102 [(0x38, [1, 1, 1, 1])]
    let j : Job := { job0 .pk e with phase := .bound, bnd := some { eng := .member 63 } }
    let s := { s0 with jobs := [j], slices := [(0, { slice0 with rings := [(0, { ring0 with st := .scanning, scan := 1 })] })] }
    let fh := frame0 4 { epoch := 1, src := 63 }
    let u := (s.frameIn 3 fh 4).1
    (s.frameIn 3 fh 4).2 = some [] ∧ fh.last = true ∧ u.clu.role = .head ∧ u.job 0 = some j ∧ j.phase = .bound ∧ eOp j.entry = 0x0102 ∧ u.mute = false ∧
      (run (.resultFrame 3 fh { job := 0 }) s).jobs = [] := by decide +kernel

/-- Members' acknowledgements at the head, by the version of a set that they report. -/
theorem witness_MembershipFrames :
    let h0 := linkUp .head (zl0 63)
    let h := fun (m : Member) => { h0 with clu := { h0.clu with members := [(0, { st := .serving }), (63, m)], replVer := [(2, 5)] } }
    let fh := frame0 7 { epoch := 1, src := 63 }
    ((h { st := .joining }).frameIn 3 fh 7).2 = some [] ∧ fh.last = true ∧ (h { st := .joining }).clu.cmd.st ≠ 1 ∧
      ((run (.ackFrame 3 fh { vers := [(2, 5)] }) (h { st := .joining })).member 63).st = .serving ∧
      ((run (.ackFrame 3 fh { vers := [(2, 4)] }) (h { st := .lost })).member 63).st = .quarantined ∧
      NMap.find (run (.ackFrame 3 fh { left := true }) (h { st := .leaving })).clu.members 63 = none := by decide +kernel

/-- A member of ID 63 that holds one replica, and a transfer key of zeros with its head. -/
def memberUp : State :=
  let m0 := linkUp .member (zl0 0)
  { m0 with
    zl := [(0, zl0 0), (3, zl0 0)]
    clu := { m0.clu with
      id := 63, rosterVer := 3, held := [(9, { alg := 0, pset := 0, home := 0, material := [], ranges := [(1, 2)] })]
      transfer := [(0, zeros 32)] } }

/-- A KEYMOVE frame of its head: its payload, padded and wrapped with AES-KWP under the transfer key and sealed under the link's key
(keys of zeros), and its tag. -/
def moveFrame (b : Bytes) : FrameHdr := { epoch := 1, dst := 63, body := b }

/-- The sealed erasure of the replica in pool slot 9. -/
def erase9 : FrameHdr := moveFrame (toBE 48 0x9e22869b8313ba90732b7e3268022ec3a1d51633473ef9cf7aab95a824ee2b1dd3176fe37e74b6d7e5dbb806a8fc7525)

/-- The replicas that a member holds after a move. -/
def moved (f : FrameHdr) (k : KeyMove) : NMap Replica := (run (.keymove 3 f k) memberUp).clu.held

/-- A roster of an older and of the same version at a member. -/
theorem witness_MembershipFrames_roster :
    let fm := frame0 6 { epoch := 1, dst := 63 }
    let m := memberUp
    (m.frameIn 3 fm 6).2 = some [] ∧
      ((m.frameIn 3 fm 6).1.zl.all fun z => decide (z.2.txCtr + m.clu.replVer.length + 1 < 2 ^ 40)) = true ∧
      (run (.roster 3 fm { ver := 2, topo := 0, headUid := [], ids := [] }) m).clu.table = m.clu.table ∧
      (run (.roster 3 fm { ver := 3, topo := 0, headUid := [], ids := [], table := [(0, 3)] }) m).clu.table = [(0, 3)] ∧
      (run (.roster 3 fm { ver := 3, topo := 0, headUid := [], ids := [], table := [(0, 3)] }) m).out.length = 1 := by decide +kernel

/-- An erasure that the transfer key opens; shown with another slot its payload says another thing. -/
theorem witness_MembershipFrames_moves :
    (memberUp.frameIn 3 erase9 5).2.map beNat = some 0x0f34c2dd9de83aaace8817b0042fa71927bb9263439f91170000000000000000 ∧ (moved erase9 (.erase 9)).length = 0 ∧
      memberUp.unwraps 0 (toBE 32 0x0f34c2dd9de83aaace8817b0042fa71927bb9263439f91170000000000000000) (.erase 8) = false := by decide +kernel

/-- The sealed payloads of the other moves, and that the transfer key opens them. -/
theorem witness_MembershipFrames_ranges :
    (memberUp.frameIn 3 (moveFrame (toBE 48 0xd78278d0a3b92e43896fa9b791a4de24ec85d610decfa7d97aab95a824ee2b1d6bd114948be26aed80a02dc4e7109838)) 5).2.map beNat = some 0x46943c96bd42ae7934ccc035fd8957fe6aeb5240da6ecf010000000000000000 ∧
      memberUp.unwraps 0 (toBE 32 0x46943c96bd42ae7934ccc035fd8957fe6aeb5240da6ecf010000000000000000) (.replica 8 1 2 3 true [7]) = true ∧
      (memberUp.frameIn 3 (moveFrame (toBE 64 0x5cfd27c47e97565ab406e2f2abc1da3dc14e061ea3973cc6e08fd554f1ae0e3765fd15a4d7d79a411b837b3c58eb0a17f2c1b2d91bd5e9156ddf242e9c25992d)) 5).2.map beNat = some 0xcdeb6382606cd66009a58b70c7ec53e74720824ea736541e9a2440fcd540252ac5d8b91c478688e50000000000000000 ∧
      memberUp.unwraps 0 (toBE 48 0xcdeb6382606cd66009a58b70c7ec53e74720824ea736541e9a2440fcd540252ac5d8b91c478688e50000000000000000) (.range 9 5 6) = true ∧
      (memberUp.frameIn 3 (moveFrame (toBE 32 0x7f062140a9d5c0d5e18555677f6263c7f4aeee514323aac07edee3886ce0efb0)) 5).2.map beNat = some 0xee106506b72e40ef5c263ce5134fea1d ∧
      memberUp.unwraps 0 (toBE 16 0xee106506b72e40ef5c263ce5134fea1d) .abandon = true := by decide +kernel

/-- A unit outside a cluster, and the roster of a head of UID 0 whose approval needs no token: the unit has ID 5 (R299). -/
theorem witness_MembershipFrames_joins :
    let req := zeros 8 ++ [1, 0, 0, 0] ++ toLE 4 9 ++ zeros 16 ++ [5, 1, 0, 0] ++ uidBytes ++ zeros 4
    let m : RosterMsg :=
      { ver := 9, topo := 4, headUid := zeros 16, ids := [(5, uidBytes)], request := req
        challenge := (zeros 6 ++ [4, 0] ++ zeros 72) ++ (sha3_256 req ++ zeros 16) }
    let s0 := linkUp .standalone (zl0 0)
    let s := { s0 with vault := { groups := [(0, { m := 0, n := 1, slice := 0, window := 1, gversion := 1, digest := sha3_256 [] })] } }
    let u := (s.frameIn 3 (frame0 6 { epoch := 1 }) 6).1
    (s.frameIn 3 (frame0 6 { epoch := 1 }) 6).2 = some [] ∧ u.clu.role = .standalone ∧ u.lcsCode = 4 ∧ u.tenants.isEmpty = true ∧
      ((m.ids.find? fun x => x.2 = uidBytes).map fun x => x.1.val) = some 5 ∧ u.approved m = true := by
  intro req m s0 s u
  have h : (s.frameIn 3 (frame0 6 { epoch := 1 }) 6).2 = some [] ∧ u.clu.role = .standalone ∧ u.lcsCode = 4 ∧ u.tenants.isEmpty = true ∧
      NMap.find u.vault.groups 0 = some { m := 0, n := 1, slice := 0, window := 1, gversion := 1, digest := sha3_256 [] } := by
    decide +kernel
  refine ⟨h.1, h.2.1, h.2.2.1, h.2.2.2.1, ?_, ?_⟩
  · simp [m] <;> rfl
  · have l : (sha3_256 req).length = 32 := by rfl
    have hu : Bytes.sub req 0x24 16 = uidBytes := by rfl
    unfold State.approved
    rw [h.2.2.2.2]
    simp only [m, Bool.and_eq_true, decide_eq_true_eq]
    refine ⟨⟨⟨⟨⟨⟨⟨⟨trivial, by decide⟩, rfl⟩, rfl⟩, rfl⟩, ?_⟩, rfl⟩, rfl⟩, ?_⟩
    · have e : List.drop 80 (zeros 6 ++ [4, 0] ++ zeros 72 ++ (sha3_256 req ++ zeros 16)) = sha3_256 req ++ zeros 16 :=
        List.drop_left' (l₁ := zeros 6 ++ [4, 0] ++ zeros 72) rfl
      rw [Bytes.sub, e, ← l, List.take_left]
    · refine List.any_eq_true.2 ⟨_, List.mem_map.2 ⟨0, List.mem_range.2 (by decide), rfl⟩, ?_⟩
      have hi : Bytes.at req 0x20 = 5 := rfl
      simp [hu, hi] <;> rfl

/-- The AUTH exchange of a peer of UID 1, octet by octet, to a unit of UID 0 whose ephemeral key reads [1]: a public key (x, y) and
a signature (r, r) that FIPS 186-5's equations accept. -/
def peerMsg (x y r : Nat) : AuthMsg :=
  { uid := [1], eph := p384.encode false p384.g, key := p384.encode false (some (x, y)), sig := toBE 48 r ++ toBE 48 r }

/-- For epoch 1 and for epoch 7. -/
def peer1 : AuthMsg :=
  peerMsg 0x6fcc0aae6bded016fd01c09f4bcd7be9d9c5c02655b437803fd4b8fce4e1d3fc374c53af8bda959a8ea92c337bd019ef
    0xf6f131eb5f4f6b0c33b065e416f7cb49870f2e09527b63b03628c2324d8b63df45475257f760b93ef511186a354f8262
    0x64c97e18a4c91f1448742c6bba98207f19721aaa502ff2848bd3817683dd9754366b87daa0fcad53e5ea5d87adc693c0

def peer7 : AuthMsg :=
  peerMsg 0xd6c5096bd3776e9dfb2f408e719513bf964aad634185f8f8efd3a7dc5f18df7507d96a6253dff8c1d612b849a3806121
    0x7637155f052615d55c6426ea9b0277d08b85dc97e2b14a9fcb50dd35bfdeb987bf83204b5297764464482538d75b94b7
    0x1fa173ebc2ec68c2093f277d25db7028a3f6c1e6a1f170e7424a087af3a2f7731bbda33321b7593e11dd3cb8e574dda2

/-- Lanes of all three widths train; a retry at its tick; a rekey at 2^39 frames; a step that waits for a pool word. -/
theorem witness_Links :
    let s := fun (z : Zl) => linkUp .standalone z
    let q := fun (z : Zl) => { s z with rng := {} }
    let a := peer1
    let b : AuthMsg := { a with sig := [] }
    let x : Zl := { st := .auth, ephPub := [1] }
    let old : Zl := { zl0 0 with txCtr := 2 ^ 39, epoch := 6, rxEpoch := 6, peerUid := [1], ephPub := [1] }
    let w := { s x with rng := { es := .healthy, inst := List.replicate 8 { st := .running, count := 65536 } } }
    (q {}).portOn 3 = true ∧ ((run (.linkStateChange 3 (.trained 4)) (q {})).zlp 3) = { st := .auth, width := 4 } ∧
      ((run (.linkStateChange 3 (.trained 1)) (q { st := .training })).zlp 3).st = .auth ∧
      ((run (.linkStateChange 3 .lost) (q { st := .up })).zlp 3).st = .down ∧
      (s x).wakeFor 8 = s x ∧ (s x).portOn 3 = true ∧ (s x).mute = false ∧ (s x).authRuns = true ∧ (s x).authWaits = false ∧
      (s x).peerOk 3 b 1 = false ∧ ((run (.linkFrame 3 {} b) (s x)).zlp 3).retryAt = 64 ∧
      w.portOn 3 = true ∧ w.authRuns = true ∧ w.authWaits = true ∧ (run (.linkFrame 3 {} a) w).rng.draws = [.link 3 a] ∧
      ((run (.authRetry 3) (q { st := .failed })).zlp 3).st = .auth ∧
      (s old).wakeLink 3 = s old ∧ (s old).portOn 3 = true ∧ (s old).mute = false ∧ old.up = true ∧ (s old).authRuns = true ∧
      (s old).authWaits = false ∧ old.txCtr + 16 < 2 ^ 40 := by
  decide +kernel

/-- What R293 asks of a peer's AUTH exchange, for a unit of UID `u`. -/
def peerOkAt (u : Bytes) (s : State) (p : Nat) (a : AuthMsg) (epoch : Nat) : Bool :=
  let msg := a.uid ++ u ++ a.eph ++ (s.zlp p).ephPub ++ toBE 4 epoch
  a.eph.length = 97 && (p384.pubBad a.eph).isNone && a.certOk && a.key.length = 97 && (p384.pubBad a.key).isNone &&
    a.sig.length = 96 && (p384.verify (p384.point a.key) (sha384 msg) a.sig).isNone &&
    (s.clu.role = .standalone || s.clu.members.any fun m => m.2.uid = a.uid || m.2.repl = a.uid)

theorem peerOk_of (u : Bytes) (h : uidBytes = u) (s : State) (p : Nat) (a : AuthMsg) (e : Nat) (k : peerOkAt u s p a e = true) :
    s.peerOk p a e = true := by
  subst h; exact k

theorem test_peer_link : peerOkAt (zeros 16) (linkUp .standalone { st := .auth, ephPub := [1] }) 3 peer1 1 = true := by
  decide +kernel

theorem test_peer_rekey :
    peerOkAt (zeros 16) (linkUp .standalone { zl0 0 with txCtr := 2 ^ 39, epoch := 6, rxEpoch := 6, peerUid := [1], ephPub := [1] }) 3
      peer7 7 = true := by
  decide +kernel

/-- The peer's signature verifies in AUTH and at a rekey, for a unit of UID 0 (an assumption on Config.uid). -/
theorem witness_Links_peer (h : uidBytes = zeros 16) :
    (linkUp .standalone { st := .auth, ephPub := [1] }).peerOk 3 peer1 1 = true ∧
      (linkUp .standalone { zl0 0 with txCtr := 2 ^ 39, epoch := 6, rxEpoch := 6, peerUid := [1], ephPub := [1] }).peerOk 3
        peer7 7 = true :=
  ⟨peerOk_of _ h _ _ _ _ test_peer_link, peerOk_of _ h _ _ _ _ test_peer_rekey⟩

theorem witness_Members :
    let late := fun (s : State) => ({ s with glb := { s.glb with optime := 8 } } : State)
    let h0 := late (linkUp .head {})
    let h := fun (m : Member) => { h0 with clu := { h0.clu with members := [(0, { st := .serving }), (63, m)], ranges := [(1, { member := 63, next := 0, last := 9 })] } }
    let w := h { st := .serving }
    let j := { h { st := .joining, joinEnd := 8 } with clu := { (h { st := .joining, joinEnd := 8 }).clu with newIds := [63], cmd := { st := 1 } } }
    let q := h { st := .quarantined }
    let m := late (linkUp .member {})
    w.running = true ∧ (w.member 63).window + w.hbTimeout ≤ w.tick ∧ w.clu.cmd.st ≠ 1 ∧
      ((run (.memberLost 63) w).member 63).st = .lost ∧ (run (.memberLost 63) w).clu.ranges = [] ∧
      (j.member 63).st = .joining ∧ (j.member 63).joinEnd ≠ 0 ∧ (j.member 63).joinEnd ≤ j.tick ∧ ((run (.joinTimeout 63) j).clu.cmd) = { st := 2, code := cMemberLost, detail := 0x10 } ∧
      q.synced 63 = true ∧ ((run (.replicaSyncComplete 63) q).member 63).st = .serving ∧
      m.clu.headHb + m.hbTimeout ≤ m.tick ∧ (run .headTimeout m).clu.headLost = true ∧ run .heartbeatSend w = w := by decide +kernel

/-- A key of set 255, 2^24 values from its counter's end; its mask is withdrawn. -/
theorem witness_Replication :
    let z : Zl := { st := .up, epoch := 1, rxEpoch := 1, peer := 1, rostered := true }
    let k : KeyRec := { handle := mkHandle 0 5 1, ktype := 3, alg := 0x11, klen := 32, usage := 0x3F0, replSet := 255, inv := 2 ^ 64 - 2 }
    let h0 := linkUp .head z
    let s := { h0 with
      zl := [(1, z)], ks := { keys := [(5, k)] }
      clu := { h0.clu with members := [(0, { st := .serving }), (1, { st := .serving })], replMask := [(255, 2)] } }.setRg .clu 0x084 255
    let t := run (.replicaCommit 1 (BitVec.ofNat 64 (mkHandle 0 5 1))) s
    s.resolve 0 (mkHandle 0 5 1) = some k ∧ s.inSet k 1 = true ∧ s.hasReplica k 1 = false ∧ (s.path 1).isSome = true ∧
      (s.member 1).st = .serving ∧ k.custody = 0xFFFF ∧ t.clu.replicas = [(5, 1)] ∧ takesInv k.alg k.usage = true ∧
      t.clu.ranges = [(5, { member := 1, next := 2 ^ 64 - 2, last := 2 ^ 64 - 1 })] ∧
      t.reach .clu ∧ (0 : Nat) ≠ t.replMask 255 ∧ (run (.cluReplMaskWrite 0) t).clu.replicas = [] := by decide +kernel

/-! ### Worlds, life cycle, tamper (chapters 14 and 15) -/

/-- `up` with one committed life-cycle record of a state's code (Table 15.1). -/
def inState (code : Nat) : State := { up with lcs := { recs := [(0, { code := code, ncode := 15 - code, commit := 3 })] } }

theorem witness_PartitionStops :
    let s := { up with svc := { cores := [(15, { running := true })] } }
    let j := onWorker (entry 0x0702 []) [] none
    let q := { withJobs [j] with svc := { cores := [(4, { running := true })] } }
    let own := { s with mpu := [(15, { ent := [(0, { base := 0x20100000000, limit := 0x20100000000, r := true, levels := 1, valid := true })] })] }
    let g : GateAccess := { master := 15, kind := .read, addr := 0x20100000000, part := some 31 }
    let out := own.gateCause { g with kind := .fetch }
    let t := run (.partitionTimeLimit 4 31 (.quorum 0)) q
    s.running = true ∧ s.linked = true ∧ s.pwr.pfwLow = false ∧ (s.core 15).running = true ∧ (s.stopParse .sliceBlock).isSome = true ∧
      (run (.partitionFault 15 31 { inp := .sliceBlock }) s).slm.cmd = { st := 2, code := cAborted, detail := 0x21 } ∧
      ((run (.partitionFault 15 31 { inp := .sliceBlock }) s).core 15).faults = 1 ∧
      own.gateCause g = none ∧ run (.partitionFault 15 31 { inp := .sliceBlock, access := some (.read, g.addr) }) own = own ∧
      out = some 1 ∧ ((run (.partitionFault 15 31 { inp := .sliceBlock, access := some (.fetch, g.addr) }) own).mpuOf 15).denyCnt = 1 ∧
      (s.stopParse .clusterRequest).isSome = true ∧ (s.stopParse .lifeCycle).isSome = true ∧
      (q.stopParse (.quorum 0)).isSome = true ∧ t.jobs.length = 0 ∧ t.out.getLast? = some (.write (some 7) 0x1000 [0, 1, 2, 7, 4, 4, 0x21, 0]) := by
  decide +kernel

/-- 10 and 1,000 ms are in range, 9 and 1,001 are not. -/
theorem witness_Watchdog :
    let w := { up with svc := { up.svc with cores := [(3, { running := true })] } }
    let o := inState 3
    let t := run (.watchdogExpiry 3) w
    w.wdogRuns 3 = true ∧ t.svc.wdogCnt = 1 ∧ t.glb.wdogReset = true ∧ t.pwr.reset = .watchdog ∧
      o.reach (.core 0) ∧ o.lcsCode = 3 ∧ (run (.coreWdogWrite 10) o).svc.wdogMs = 10 ∧ (run (.coreWdogWrite 1000) o).svc.wdogMs = 1000 ∧
      ((run (.coreWdogWrite 9) o).hd (.core 0)).errCode = cBadParam ∧ ((run (.coreWdogWrite 1001) o).hd (.core 0)).errCode = cBadParam ∧
      (inState 4).reach (.core 0) ∧ (inState 4).lcsCode ≠ 3 ∧ ((run (.coreWdogWrite 10) (inState 4)).hd (.core 0)).errCode = cForbids := by
  decide +kernel

/-- The last entry of the last MPU; the debug port's entry of zeros, and one over a sealed range; a locked entry. -/
theorem witness_MpuEntries :
    let locked := { up with mpu := [(52, { ent := [(31, { lock := true })] })] }
    let t := run (.entAttrWrite 52 31 0xFFFFFFFF 0xFFFF 0xFFFFFFFF 0x8101FFFF) up
    up.linked = true ∧ (run (.mpuSync 52) up).mpuOf 52 = { pending := true } ∧
      NMap.find (t.mpuOf 52).ent 31 = some { base := 0xFFFFFFFFF000, limit := 0xFFFFFFFFF000, r := true, lock := true, valid := true } ∧
      up.debugEntryOk (mpuEntryOf 0 0 0 0) = true ∧ NMap.find ((run (.entAttrWrite 48 0 0 0 0 0) up).mpuOf 48).ent 0 = some {} ∧
      up.debugEntryOk (mpuEntryOf 0 0x300 0 0x80010300) = false ∧ run (.entAttrWrite 48 0 0 0x300 0 0x80010300) up = up ∧
      ((run (.entAttrWrite 52 31 0 0 0 0) locked).hd (.mpu 52)).errCode = cForbids := by decide +kernel

/-- The debug port selected, with one MPU entry for it, and one POT entry: the retention SRAM's first page, owner WARDEN. -/
def debugUp (lo hi : Nat) (mem : MemCtl) : State :=
  { up with
    isl := { jtagIr := 0x20 }
    mpu := [(48, { ent := [(0, { base := lo, limit := hi, r := true, w := true, valid := true })] })]
    mem := { mem with pot := [(0x20000000, { owner := 1, keyId := 0 })] } }

/-- A sealed location is refused, cause 2, as a page of the POT that an entry covers is, cause 3; a permitted entry over an on-chip
range of Table 14.2 reads and writes. -/
theorem witness_DebugPort :
    let ok := debugUp 0x20100000000 0x20100000000 {}
    let no := debugUp 0x20000000000 0x20000000000 {}
    let t := run (.debugPortAccess (.mem 0x30000000000) false (zeros 4)) ok
    ok.linked = true ∧ ok.debugCause 0x30000000000 false = some 2 ∧ (t.mpuOf 48).denyCause = 2 ∧
      t.out.getLast? = some (.debugRead (zeros 4) true) ∧
      ok.debugCause 0 true = some 0 ∧ no.debugCause 0x20000000000 true = some 3 ∧ no.potGoverns 0x20000000000 = true ∧
      ok.debugCause 0x20100000000 true = none ∧ ok.debugCause 0x20100000000 false = none ∧
      run (.debugPortAccess (.mem 0x20100000000) true (zeros 64)) ok = ok ∧
      (run (.debugPortAccess (.mem 0x20100000000) false [1]) ok).out.length = 1 := by decide +kernel

/-- A secure core's registers are in no scope, and without a grant nothing is in FIELD; in BLANK a core halts and resumes. -/
theorem witness_DebugPort_cores :
    let s := { up with isl := { jtagIr := 0x20 }, svc := { up.svc with cores := [(15, { running := true })] } }
    let f := { inState 4 with isl := { jtagIr := 0x20 } }
    let t := run (.debugPortAccess (.core 15 .halt) true []) s
    s.linked = true ∧ coreScope 3 (.reg 31) = none ∧ coreScope 4 .halt = some 1 ∧ f.scopeOpen 1 = false ∧ s.scopeOpen 1 = true ∧
      run (.debugPortAccess (.core 4 .halt) true []) f = f ∧
      (run (.debugPortAccess (.core 3 (.reg 31)) false (zeros 8)) s).out = [.debugRead (zeros 8) true] ∧
      t.core 15 = { running := false, halted := true } ∧
      (run (.debugPortAccess (.core 15 .resume) true []) t).core 15 = { running := true } := by decide +kernel

/-- The last engine on the last page of a DMA buffer in the retention SRAM, both pages set apart, with a poisoned line. -/
def engineUp (mem : MemCtl) : State :=
  { up with
    mpu := [(47, { ent := [(0, { base := 0x20001FFF000, limit := 0x20001FFF000, r := true, w := true, valid := true })] })]
    mem := { mem with pot := [(0x20001FFF, { owner := 0x31 })] } }

theorem witness_DeviceAccess :
    let s := engineUp { poison := [0x80007FFFF] }
    let k := engineUp { keyIdMode := true, act := [1] }
    let r : GateAccess := { master := 47, addr := 0x20001FFFFC0 }
    let w : GateAccess := { r with kind := .write }
    s.gateCause r = none ∧ s.gateCause w = none ∧ k.gateCause r = none ∧ s.potGoverns r.loc = true ∧ s.mem.lines = [] ∧
      k.mem.act.contains r.key = false ∧ (k.access r (zeros 64) []).2 = .failed 4 ∧
      s.poisoned r.loc = true ∧ (s.access r (zeros 64) []).2 = .failed 2 ∧ s.poisoned (r.loc - 64) = false ∧
      (match ((s.access { r with addr := 0x20001FFFF80 } (zeros 64) []).2) with | .served o => o.length == 64 | _ => false) = true ∧
      (s.access w (zeros 64) []).1.mem.poison = [] ∧ (s.access w (zeros 1) []).1.mem.poison = s.mem.poison := by decide +kernel

/-- A record that reads SCRAP refuses; a request that is not read; one of zeros has no form. -/
theorem witness_LifeCycleTransition :
    let s := up.setRg .lcs 0x058 80
    (inState 7).reach .lcs ∧ (inState 7).lcsCode = 7 ∧ ((run (.config (.data [])) (inState 7)).hd .lcs).errCode = cForbids ∧
      s.reach .lcs ∧ s.lcsCode ≠ 7 ∧ s.lcs.cmd.st ≠ 1 ∧
      (run (.transition { req := .failed .timeout }) s).lcs.cmd = { st := 2, code := cBadAddr, detail := 0x13 } ∧
      requestForm (zeros 80) = none ∧
      (run (.transition { req := .data (zeros 80) }) s).lcs.cmd = { st := 2, code := cBadParam, detail := 1 } := by decide +kernel

/-- A grant closes at its last tick, a core it halted goes on, the job on that core ends; a DEBUG_CHALLENGE opens 3,840 ticks, or
waits for a pool word; no octets are no grant. -/
theorem witness_DebugGrants :
    let inst := fun (n : Nat) => List.replicate 8 ({ st := .running, count := n } : Inst)
    let r := { inState 4 with rng := { es := .healthy, pool := [[1]], inst := inst 0 } }
    let w := { inState 4 with rng := { es := .healthy, inst := inst 65536 } }
    let g : Grant := { scope := 2, duration := 64, rangeBase := 0, rangeLast := 0, rangeAcc := 0, rangeKey := 0, keyDigest := [] }
    let o := { r with glb := { r.glb with optime := 64 }, lcs := { r.lcs with grant := some g }, svc := { r.svc with cores := [(3, { halted := true })] } }
    let j : Job := { job0 .key (entry 0x0502 []) with phase := .bound, bnd := some { eng := .worker 7 } }
    let h := { o with jobs := [j], qsc := { nextJob := 1 }, slices := [(0, { slice0 with rings := [(0, { ring0 with st := .scanning, scan := 1 })] })] }
    r.reach .lcs ∧ r.lcsCode ≠ 7 ∧ r.lcs.cmd.st ≠ 1 ∧ r.lcs.pending = false ∧ r.internalRuns = true ∧ r.intBlocked = false ∧
      (run .debugClose { r with lcs := { r.lcs with pending := true } }).lcs.cmd = { st := 2, code := cPending, detail := 1 } ∧
      (run .debugChallenge r).lcs.nonceEnd = 3840 ∧ w.reach .lcs ∧ w.internalRuns = true ∧ w.intBlocked = true ∧
      (run .debugChallenge w).rng.draws = [.debug] ∧ (inState 4).internalRuns = false ∧
      (run .debugChallenge (inState 4)).lcs.cmd = { st := 2, code := cEntropy, detail := 1 } ∧
      (run .debugClose o).lcs.grant = none ∧ o.linked = true ∧ o.mute = false ∧ (run .debugGrantEnd o).lcs.grant = none ∧
      ((run .debugGrantEnd o).core 3) = { running := true } ∧ h.sane = true ∧ h.coreHeld (.worker 7) = true ∧
      (run .debugGrantEnd h).out.getLast? = some (.write (some 7) 0x1000 [0, 1, 2, 5, 4, 4, 0x22, 0]) ∧
      (run (.debugOpen (.data [])) r).lcs.cmd = { st := 2, code := cBadParam, detail := 1 } := by decide +kernel

theorem witness_OwnerConfiguration :
    (inState 3).reach .lcs ∧ (inState 3).lcsCode = 3 ∧ configForm [] = none ∧
      (run (.config (.failed .timeout)) (inState 3)).lcs.cmd = { st := 2, code := cBadAddr, detail := 0x13 } ∧
      (run (.config (.data [])) (inState 3)).lcs.cmd = { st := 2, code := cBadParam, detail := 1 } ∧
      (inState 4).lcsCode ≠ 3 ∧ (run (.config (.data [])) (inState 4)).lcs.cmd = { st := 2, code := cForbids, detail := 0x41 } := by
  decide +kernel

/-- In FIELD sensor 15 records, sensor 4 as TMP_RESP says takes a Squall, sensor 0 a Storm; a sample of all three, a Storm. -/
theorem witness_TamperResponses :
    let s0 := inState 4
    let k : KeyRec := { handle := mkHandle 0 5 1 }
    let s := { s0 with ks := { keys := [(5, k)] }, vault := { groups := [(0, owner0 []), (9, owner0 [])], epoch := 6 }, tmp := { s0.tmp with resp := 0x100, en := 0x10 } }
    let a := run (.tamperEvent [15] 0 none) s
    let b := run (.tamperEvent [4, 15] 0 none) s
    let c := run (.tamperEvent [0, 4, 15] 0 none) s
    s.firing [15] = [15] ∧ (s.response 15, s.response 4, s.response 0) = (0, 1, 2) ∧
      a.tmp.evt = 0x8000 ∧ a.ks.keys.length = 1 ∧
      s.firing [4, 15] = [4, 15] ∧ b.tmp.evt = 0x8010 ∧ b.ks.keys = [] ∧ b.vault.epoch = 7 ∧ b.vault.groups.map Prod.fst = [0] ∧
      b.glb.run = .starting ∧ b.tmp.outLow = true ∧ b.tmp.resetMark = true ∧ s.linked = true ∧
      s.firing [0, 4, 15] = [0, 4, 15] ∧ c.tmp.evt = 0x8011 ∧ c.vault.groups = [] ∧ c.tmp.stormMark = true ∧ c.tmp.cnt = 3 := by decide +kernel

/-- Windows of 64 and 3,840 ticks; VBAT at 2.4 V, 2.39 V, 2.8 V and 2.79 V. -/
theorem witness_BatteryAndEvents :
    let w := fun (v : Nat) => ({ up with tmp := { up.tmp with battEnd := some 0, vbat := v } } : State)
    let v := { up with tmp := { up.tmp with vbat := 240 } }
    let e := { up with tmp := { up.tmp with evt := 0x8001, outLow := true, readySince := true } }
    up.reach .tmp ∧ up.pwr.vaon = true ∧
      (run (.tmpBattSvcGo 64 true) up).tmp.battEnd = some 64 ∧ (run (.tmpBattSvcGo 3840 true) up).tmp.battEnd = some 3840 ∧
      ((run (.tmpBattSvcGo 63 true) up).hd .tmp).errCode = cBadParam ∧ ((run (.tmpBattSvcGo 3841 true) up).hd .tmp).errCode = cBadParam ∧
      (run (.battSvcWindowEnd none) (w 240)).tmp.evt = 0 ∧ (run (.battSvcWindowEnd none) (w 239)).tmp.evt = 0x4000 ∧
      (run (.vbatChange 280) up).tmp.vbatLow = false ∧ (run (.vbatChange 279) up).tmp.vbatLow = true ∧
      v.battHolds = false ∧ (run (.vbatChange 240) v).tmp.evt = 0 ∧ (run (.vbatChange 239) v).tmp.evt = 0x4000 ∧
      e.reach .tmp ∧ (run (.tmpEvtClear 0x8000) e).tmp.outLow = true ∧ (run (.tmpEvtClear 0xFFFFFFFF) e).tmp.outLow = false := by
  decide +kernel

/-! ### The Ledger, the ladder, starts and resets (chapters 16 and 17) -/

/-- A record of 64 octets at a place. -/
def rec0 (seq winEnd : Nat) (place : LedPlace) : LedRec :=
  { seq := seq, optime := 0, pcc := 0, typ := 0x0D01, sev := 2, src := 0, content := zeros 8, link := zeros 32, winEnd := winEnd, place := place }

/-- A window at its last tick; the second and the third commit that fail in a row. -/
theorem witness_LedgerCommits :
    let s := fun (fails : Nat) => ({ up with led := { up.led with recs := [rec0 4 0 .buffer, rec0 5 1 .buffer], flashFails := fails } } : State)
    let bad := { up with led := { up.led with flashErr := true } }
    ((run (.recordWindowClose 4) (s 0)).led.recs.map LedRec.isOpen).head? = some false ∧ (s 0).commitsRun = true ∧ (s 0).nextBatch ≠ [] ∧
      (run (.flashCommitComplete true) (s 2)).led.flashFails = 0 ∧
      (run (.flashCommitComplete false) (s 1)).led.flashFails = 2 ∧ (run (.flashCommitComplete false) (s 1)).led.flashErr = false ∧
      (run (.flashCommitComplete false) (s 2)).led.flashErr = true ∧ (run (.flashCommitComplete false) (s 2)).led.resumeAt = 64 ∧
      (run .flashCommitResume bad).led.flashErr = false := by decide +kernel

/-- A read of one record; a NOP's RESULT holds OPTIME and the reset pace of 1.0. -/
theorem witness_LedgerReadAndNop :
    let j := onWorker (entry 0x0F01 [(0x2C, toLE 4 4096), (0x30, toLE 8 0x6000), (0x40, toLE 4 1)]) [] none
    let s := { withJobs [j] with led := { up.led with recs := [rec0 4 0 .buffer, rec0 5 1 .buffer], nextSeq := 6 } }
    let n := onWorker (entry 0x0F00 []) [] none
    (s.boundJob 0x0F01 0).map Prod.fst = some j ∧
      (run (.ledgerRead 0 {}) s).out.getLast? = some (.write (some 7) 0x1000 [0, 1, 1, 0x0F, 0, 0, 0, 0]) ∧
      (let w := { s.setHd (.pkt 0) { s.hd (.pkt 0) with st := .servicing } with led := { s.led with sinceCp := 1 } }
       (w.boundJob 0x0F01 0).isSome = true ∧ w.anchorAway = true ∧ run (.ledgerRead 0 {}) w = w) ∧
      (let b := { s with led := { s.led with sinceCp := 1 }, rng := { es := .healthy, inst := List.replicate 8 { st := .running, count := 65536 } } }
       (b.boundJob 0x0F01 0).isSome = true ∧ b.anchorAway = false ∧ b.intBlocked = true ∧ (run (.ledgerRead 0 {}) b).rng.waiters = [0]) ∧
      ((withJobs [n]).boundJob 0x0F00 0).map Prod.fst = some n ∧
      (run (.nop 0 {}) (withJobs [n])).out.take 2 =
        [.write (some 7) 0x102C (zeros 4), .write (some 7) 0x1070 (zeros 6 ++ toLE 2 0x400 ++ zeros 8)] := by decide +kernel

/-- `up` in a ladder state with a PWR_IDLE target. -/
def inLadder (l : Ladder) (target : Nat) : State := { up with pwr := { up.pwr with ladder := l } }.setRg .pwr 0x044 (BitVec.ofNat 32 target)

theorem witness_LadderDescends :
    (inLadder .gale 1).ladderOn = true ∧ (inLadder .gale 1).idle = true ∧ (inLadder .gale 1).target = 1 ∧
      (run .breezeEntry (inLadder .gale 1)).pwr.ladder = .breeze ∧ (run .breezeEntry (inLadder .gale 0)).pwr.ladder = .gale ∧
      (inLadder .breeze 2).quiet = true ∧ (run .ladderDescent (inLadder .breeze 2)).pwr.ladder = .lull ∧
      (run .ladderDescent (inLadder .breeze 1)).pwr.ladder = .breeze ∧
      (inLadder .lull 3).quiet = true ∧ (run .ladderDescent (inLadder .lull 3)).pwr.ladder = .calm ∧
      (run .d3hotEntry (inLadder .gale 0)).pwr.ladder = .lull ∧
      (withJobs [job0 .sym hashEntry]).idle = false ∧ (run .d3hotEntry (withJobs [job0 .sym hashEntry])).pwr.ladder = .gale := by decide +kernel

theorem witness_Waking :
    let en := fun (l : Ladder) => (inLadder l 0).setRg .pwr 0x050 0x38000
    let begun := fun (t : State) => t.pwr.exiting
    (inLadder .breeze 0).pwr.exiting = false ∧ (inLadder .breeze 0).linked = true ∧ (run (.wakeEvent .host) (inLadder .breeze 0)).pwr.ladder = .gale ∧
      begun (run (.wakeEvent .zentulink) (inLadder .calm 0)) = true ∧
      ((en .fog).rg .pwr 0x050).getLsbD 15 = true ∧ begun (run (.gpioWake 15) (en .fog)) = true ∧
      (en .fog).wakeTick ≤ (en .fog).tick ∧ begun (run .wakeTickAlarm (en .fog)) = true ∧ begun (run .smbusWake (en .frost)) = true ∧
      begun (run (.wakeEvent .perst) (inLadder .frost 0)) = true ∧ (inLadder .frost 0).pwr.vaon = true ∧
      begun (run (.wakeEvent .tamper) (inLadder .frost 0)) = true ∧ (inLadder .frost 0).powerUp = false ∧
      (run (.systemReset .perstN) (inLadder .frost 0)).pwr.wake = WakeCause.perst.code := by decide +kernel

theorem witness_LadderExits :
    let ex := fun (l : Ladder) => ({ up with pwr := { up.pwr with ladder := l, exiting := true } } : State)
    let d := { up with pwr := { up.pwr with ladder := .lull, d3 := true } }
    let t := run (.frostExit {}) { ex .frost with glb := { run := .starting, pcc := 2 ^ 32 - 1 } }
    (ex .lull).mute = false ∧ (run (.ladderExitComplete {}) (ex .calm)).pwr.ladder = .gale ∧
      (ex .fog).rng.startFailed = false ∧ rngStartCause (ex .fog) {} = none ∧ (ex .fog).held = [] ∧
      (run (.ladderExitComplete {}) (ex .fog)).pwr.ladder = .gale ∧ (run (.ladderExitComplete {}) (ex .fog)).rng.es = .healthy ∧
      rngStartCause (ex .fog) { soscKhz := 0 } = some 1 ∧ (run (.ladderExitComplete { soscKhz := 0 }) (ex .fog)).glb.run = .ready ∧
      (run (.ladderExitComplete { soscKhz := 0 }) (ex .fog)).rng.startRetry = 64 ∧
      (run (.ladderExitComplete { soscKhz := 0 }) (ex .fog)).pwr.ladder = .fog ∧
      (run .d0Return d).pwr.ladder = .gale ∧
      (ex .frost).interrupted = none ∧ t.glb.pcc = 0 ∧ t.glb.stateLost = true ∧ t.pwr.reset = .frostExit := by decide +kernel

/-- The drain of a job; Fog and Frost once it has ended; a refusal while a grant is open. -/
theorem witness_DeepSleep :
    let j := onWorker (entry 0x0F00 []) [] none
    let d := fun (l : Ladder) (s : State) => ({ s with pwr := { s.pwr with deep := some l, cmd := { st := 1 } } } : State)
    let g : Grant := { scope := 2, duration := 64, rangeBase := 0, rangeLast := 0, rangeAcc := 0, rangeKey := 0, keyDigest := [] }
    let open_ := { up with lcs := { grant := some g } }
    let t := run .drainLimit (d .fog (withJobs [j]))
    up.reach .pwr ∧ up.deepBad true = none ∧ (run .enterFrost up).pwr.deep = some .frost ∧
      open_.deepBad true = some (cForbids, 0x61) ∧ (run .enterFog open_).pwr.cmd = { st := 2, code := cForbids, detail := 0x61 } ∧
      (d .fog (withJobs [j])).sane = true ∧ t.pwr.abortedByDrain = 1 ∧ t.out.getLast? = some (.write (some 7) 0x1000 [0, 1, 0, 0x0F, 4, 4, 0x40, 0]) ∧
      (d .fog up).drained = true ∧ (run .deepEntryAfterDrain (d .fog up)).pwr.ladder = .fog ∧
      (let e := { d .frost up with led := { up.led with flashErr := true } }
       e.drained = true ∧ run .deepEntryAfterDrain e = e) ∧
      (run .deepEntryAfterDrain (d .frost up)).pwr.ladder = .frost ∧ (run .deepEntryAfterDrain (d .frost up)).slices = [] ∧
      (d .fog (withJobs [j])).mute = false ∧ (d .fog up).running = true := by decide +kernel

/-- A first start; one whose secure firmware has no copy; a random service and a DRAM that fail, and are repeated. -/
theorem witness_StartReachesReady :
    let s := State.reset
    let t := run (.coldStart {}) s
    let h := run (.coldStart { copySel := [false], copySpare := [false] }) s
    let r := run (.coldStart { soscKhz := 0 }) s
    let m := run (.coldStart { dram0 := false }) s
    let later := fun (s : State) => ({ s with glb := { s.glb with optime := 64 } } : State)
    s.glb.run = .starting ∧ s.pwr.pfwLow = false ∧ s.isl.jtagHold = false ∧ s.pwr.startStep = 0 ∧ s.lcsWhole = true ∧ s.lcsCode ≠ 7 ∧
      rngStartCause s {} = none ∧ t.glb.run = .ready ∧ (t.slice 0).st = .active ∧ t.readyPin = true ∧
      h.glb.run = .halted ∧ h.isl.cause = 0x10 ∧
      r.rng.startFailed = true ∧ r.rng.startRetry = 64 ∧ r.isl.cause = 1 ∧ (run (.rngStartRetry {}) (later r)).glb.run = .ready ∧
      m.pwr.startStep = 4 ∧ m.isl.cause = 0x20 ∧ (run (.dramTrainingRetry {}) (later m)).glb.run = .ready := by decide +kernel

/-- A start that finds a transition from BLANK to TEST burned in part goes on with it, and so with one to SCRAP from TEST. -/
theorem witness_StartReachesReady_interrupted :
    let h := fun (f to_ n : Nat) => let b : Bytes := zeros 6 ++ toLE 1 f ++ toLE 1 to_ ++ toLE 1 n ++ zeros 71; b ++ sha3_256 b
    let s := { State.reset with lcs := { recs := [(0, { code := 1 })], staged := some (h 0 1 0) }, pwr := { State.reset.pwr with coreSupply := false } }
    let t := run (.coldStart {}) s
    let c := { s with lcs := { recs := [(0, { code := 1, ncode := 14, commit := 3 }), (47, { code := 7 })], staged := some (h 1 7 47) } }
    s.pwr.pfwLow = false ∧ s.isl.jtagHold = false ∧ s.pwr.ladder ≠ .frost ∧ s.interrupted = some (1, 0) ∧ t.pwr.reset = .lifeCycle ∧
      NMap.find t.lcs.recs 0 = some { code := 1, ncode := 14, commit := 3 } ∧ t.glb.run = .starting ∧
      c.interrupted = some (7, 47) ∧ (run (.coldStart {}) c).glb.run = .halted := by decide +kernel

theorem witness_ResetsAndSupplies :
    let low := { up with pwr := { up.pwr with pfwLow := true } }
    let rise := { up with pwr := { up.pwr with pfwLow := true, pfwRiseSeen := true } }
    let thin := { up with tmp := { up.tmp with battEnd := some 64, vbat := 239 } }
    State.reset.powerUp = true ∧ run (.systemReset .sysResetN) State.reset = State.reset ∧ up.isl.jtagHold = false ∧ up.powerUp = false ∧
      (run (.systemReset .sysResetN) (inLadder .frost 0)).pwr.reset = .system ∧ up.sensorOn 9 = true ∧
      (run (.coreSupplyLoss false) up).tmp.evt = 0x200 ∧ (run (.coreSupplyLoss false) up).pwr.coreSupply = false ∧
      (run .vaonLoss thin).tmp.evt = 0x4000 ∧ thin.battHolds = true ∧ up.battHolds = false ∧
      (run (.systemReset .linkDown) up).pwr.reset = .system ∧ (run (.systemReset .linkDown) up).glb.pcc = 1 ∧
      up.pwr.pfwLow = false ∧ (run .pfwFall up).pwr.pfwCnt = 1 ∧ (run (.pfwRise true) low).pwr.pfwRiseSeen = true ∧
      (run .powerFailReset rise).pwr.reset = .powerFail ∧ (run (.coreSupplyLoss true) up).pwr.coreSupply = false ∧
      (run .vaonLoss up).pwr.vaon = false ∧ (run .vaonReturn up).pwr.vaon = true := by decide +kernel

/-! ### Servicing, the board, invariants (chapters 18 and 20) -/

/-- A unit in OWNED whose firmware classes hold version 3 in use, 4 spare and waiting; instances as given; the argument names
a class and a target. -/
def serviced (pending : Bool) (ver arg : Nat) : State :=
  let k : ImageClass := { sel := { ver := 3, compat := 2, arb := 1 }, spare := { ver := 4, compat := 3, arb := 2 }, pending := pending, arb := 1 }
  { inState 3 with svc := { classes := [k, k, k, k], cores := (List.range 16).map fun n => (n, { running := true, fwVer := ver, compat := 2 }) } }.setRg (.core 0) 0x104 (BitVec.ofNat 32 arg)

/-- COMMIT once every core runs the spare copy, ABANDON while none does; an image of no octets. -/
theorem witness_ImagesServiced :
    let c := run .commit (serviced true 4 0x100)
    let a := run .abandon (serviced true 3 0x100)
    let w := { serviced true 4 0x100 with svc := { (serviced true 4 0x100).svc with classes := List.replicate 4 { sel := { ver := 4, compat := 3, arb := 2 }, spare := { ver := 3, compat := 2, arb := 1 }, pending := true, taken := true, arb := 1 } } }
    (serviced true 4 0x100).reach (.core 0) ∧ (serviced true 4 0x100).svc.cmd.st ≠ 1 ∧ (serviced true 4 0x100).sane = true ∧
      (serviced true 4 0x100).argClass = 1 ∧ (c.imgClass 1).sel.ver = 4 ∧ (c.imgClass 1).arb = 2 ∧ (c.imgClass 0).sel.ver = 3 ∧
      ((run .commit w).imgClass 1).arb = 2 ∧ ((run .commit w).imgClass 1).pending = false ∧
      (run .abandon w).svc.cmd = { st := 2, code := cForbids, detail := 0x78 } ∧
      (run .commit (serviced true 3 0x100)).svc.cmd = { st := 2, code := cForbids, detail := 0x77 } ∧
      (a.imgClass 1).spare.ver = 3 ∧ (a.imgClass 1).pending = false ∧
      (run .abandon (serviced true 4 0x100)).svc.cmd = { st := 2, code := cForbids, detail := 0x78 } ∧
      (serviced false 3 0x100).installBad [] = some (cBadParam, 1) ∧
      (run (.install (.failed .timeout) true) (serviced false 3 0x100)).svc.cmd = { st := 2, code := cBadAddr, detail := 0x13 } ∧
      (run (.install (.data []) true) (serviced false 3 0x100)).svc.cmd = { st := 2, code := cBadParam, detail := 1 } := by decide +kernel

/-- Core 15 is activated and runs the spare copy; core 16 is none. -/
theorem witness_CoresActivated :
    let s := serviced true 3 0x10F
    let t := run .activate s
    let u := run (.activationComplete 15) t
    s.reach (.core 0) ∧ s.sane = true ∧ s.argTarget = 15 ∧ s.activateBad = none ∧ (t.core 15).servicing = true ∧ (t.core 15).parts = 0 ∧
      (serviced true 3 0x110).activateBad = some (cBadParam, 2) ∧ t.linked = true ∧ t.mute = false ∧ t.coreWorks 15 = false ∧
      (u.core 15).fwVer = 4 ∧ (u.core 15).servicing = false ∧ (u.core 14).fwVer = 3 := by decide +kernel

/-- KeyID 17 is the key store's, 18 rotates into the reserve. -/
theorem witness_KeyIdsRotate :
    let s := fun (g : Nat) => { serviced false 3 g with mem := { keyIdMode := true, act := [18], reserve := [40] } }
    let t := run .rotate (s 18)
    let d := { t with mem := { t.mem with act := [18, 40], pot := [(7, { owner := 1, keyId := 18 })] } }
    (s 18).reach (.core 0) ∧ (s 18).sane = true ∧ (s 18).argTarget = 18 ∧ t.svc.rotBusy = true ∧ t.svc.rotNew = 40 ∧
      (s 18).drawReady = false ∧ t.mem.act = [18] ∧
      (let r := { s 18 with rng := { es := .healthy, inst := List.replicate 8 { st := .running } } }
       r.drawReady = true ∧ (run .rotate r).mem.act = [18, 40]) ∧
      (run .rotate (s 17)).svc.cmd = { st := 2, code := cBadParam, detail := 2 } ∧
      (run .rotate (s 40)).svc.cmd = { st := 2, code := cBadParam, detail := 2 } ∧
      (run .rotate { s 18 with mem := {} }).svc.cmd = { st := 2, code := cForbids, detail := 1 } ∧
      d.svc.rotBusy = true ∧ d.linked = true ∧ d.mute = false ∧ d.mem.act.contains d.svc.rotNew = true ∧
      d.svc.rotKey = 18 ∧ NMap.find d.mem.pot 7 = some { owner := 1, keyId := 18 } := by decide +kernel

theorem witness_BoardAccess :
    let low := { State.reset with isl := { smbAlert := true } }
    low.pwr.vaon = true ∧ (run .smbusStatus low).isl.smbAlert = false ∧ (run .smbusStatus low).out.length = 1 ∧
      low.linked = true ∧ (run .configurationRequest low).out = [.config none] ∧
      up.configSpace.length = 1024 ∧ up.configSpace[2]? = some 0x108000B0 ∧ up.configSpace[5]? = some 0 ∧
      (run (.registerWrite .config 0x10 0x0F 0xFFFFFFFF) up).pci.bar0 = 0xFF000000 ∧
      low.isl.jtagHold = false ∧ up.powerUp = false ∧ (run (.extest [5]) up).isl.bsDrive = [5] ∧ low.powerUp = true ∧
      run (.extest [5]) low = { low with isl := { low.isl with jtagIr := 0, jtagHold := true, bscan := [5], bsDrive := [5] } } ∧ (run .highz up).isl.floats = true ∧
      (run .clamp up).pwr.reset = .system ∧ (run .idcode up).out = [.jtag (toLE 4 0x109405CF)] ∧
      (run (.samplePreload [1] [2]) up).isl.bscan = [2] ∧ (run .debugInstr up).isl.jtagIr = 0x20 ∧
      (run (.bypass 0x33) up).isl.jtagIr = 0xFF := by decide +kernel

/-- A state that meets both invariants takes a step that burns nothing and keeps its shape. -/
theorem witness_ShapeKept_LifeCycleRecordsOnlyGrow :
    let s := { keyed false (entry 0x0503 [(0x10, toLE 8 (mkHandle 0 5 1))]) with
      lcs := { recs := [(0, { code := 1, ncode := 14, commit := 3 }), (47, { code := 7, ncode := 8, commit := 3 })] }, pending := [.keyDelete 0 {}, .vaonLoss] }
    s.sane = true ∧ s.lcsWhole = true ∧
      (match step s with
       | .next t => t.sane && t.lcsWhole && decide (t.lcs.recs = s.lcs.recs) && decide (t.pending = [.vaonLoss]) && t.ks.keys.isEmpty
       | _ => false) = true := by decide +kernel

/-- The machine right after reset answers GLB alone (R40). -/
theorem test_reset :
    State.reset.sane = true ∧ State.reset.lcsWhole = true ∧ State.reset.pageAnswers .glb = true ∧ State.reset.pageAnswers .pwr = false ∧
      State.reset.lcsCode = 0 := by decide +kernel

end Sys2Proof.Tests
end

