-- ==== Sys2Proof/Proofs/RegisterWrites.lean ====
section
/-! SUPPORT. Writes of the register windows (R9, R26, R36, R37): which page a write reaches, what a plain register takes, and
what becomes of a write whose byte enables do not cover whole registers. -/
namespace Sys2Proof.Proofs
open Sys2Proof Sys2Proof.Machine Sys2Proof.Laws

/-! ### The register file and the headers -/

/-- Setting a register leaves every other entry of the file. -/
theorem find_setRg_regs_ne (s : State) (p : Page) (off : Nat) (v : W32) {k : Nat} (h : k ≠ regKey p off) :
    NMap.find (s.setRg p off v).regs k = NMap.find s.regs k := by
  unfold State.setRg
  by_cases e : v = regReset p off
  · simp only [if_pos e, find_del_ne _ h]
  · simp only [if_neg e, find_set_ne _ _ h]

/-- Setting a header leaves the header of every other page number. -/
theorem find_setHd_hdr_ne (s : State) (p : Page) (h : Hdr) {k : Nat} (e : k ≠ pageKey p) :
    NMap.find (s.setHd p h).hdr k = NMap.find s.hdr k := find_set_ne _ _ e

@[simp] theorem rg_bumpGen (s : State) (p q : Page) (off : Nat) : (s.bumpGen p).rg q off = s.rg q off := rfl

@[simp] theorem hd_setRg (s : State) (p q : Page) (off : Nat) (v : W32) : (s.setRg p off v).hd q = s.hd q := rfl

@[simp] theorem hd_bumpGen (s : State) (p : Page) : (s.bumpGen p).hd p = { s.hd p with gen := (s.hd p).gen + 1 } :=
  hd_setHd ..

/-- The bits that a write of a listed register changes (R9, R36). -/
theorem writable_of_regDesc (s : State) {p : Page} {off : Nat} {d : RegD} (h : regDesc p off = some d) :
    s.writable p off = BitVec.ofNat 32 d.rw ||| (if (s.hd p).lock then 0 else BitVec.ofNat 32 d.rwl) := by
  simp only [State.writable, h]

/-- What a register holds after a write: the bits that are not writable as before, the writable ones as written. -/
def written (s : State) (p : Page) (off : Nat) (v : W32) : W32 :=
  (s.rg p off &&& ~~~s.writable p off) ||| (v &&& s.writable p off)

/-- A write that changes no bit of a register changes nothing. -/
theorem writeRg_same (s : State) {p : Page} {off : Nat} {v : W32} (h : written s p off v = s.rg p off) :
    s.writeRg p off v = s := if_pos h

/-- A write that changes a register sets it, and counts in PG_GEN (R37). -/
theorem writeRg_changed (s : State) {p : Page} {off : Nat} {v : W32} (h : written s p off v ≠ s.rg p off) :
    s.writeRg p off v = (s.setRg p off (written s p off v)).bumpGen p := if_neg h

/-- What a write of one register changes and what it leaves: the register and its page's PG_GEN alone. -/
theorem writeRg_effect (s : State) (p : Page) (off : Nat) (v : W32) :
    (s.writeRg p off v).rg p off = written s p off v ∧
      ((s.writeRg p off v).hd p).gen =
        (if written s p off v = s.rg p off then (s.hd p).gen else (s.hd p).gen + 1) ∧
      (s.writeRg p off v).hd p = { s.hd p with gen := ((s.writeRg p off v).hd p).gen } ∧
      (∀ k, k ≠ regKey p off → NMap.find (s.writeRg p off v).regs k = NMap.find s.regs k) ∧
      (∀ k, k ≠ pageKey p → NMap.find (s.writeRg p off v).hdr k = NMap.find s.hdr k) ∧
      s.writeRg p off v = { s with regs := (s.writeRg p off v).regs, hdr := (s.writeRg p off v).hdr } := by
  by_cases h : written s p off v = s.rg p off
  · rw [writeRg_same s h, if_pos h]
    exact ⟨h.symm, rfl, rfl, fun _ _ => rfl, fun _ _ => rfl, rfl⟩
  · rw [writeRg_changed s h, if_neg h]
    refine ⟨?_, ?_, ?_, fun k hk => find_setRg_regs_ne s p off _ hk, fun k hk => find_setHd_hdr_ne _ p _ hk, rfl⟩
    · rw [rg_bumpGen, rg_setRg]
    · rw [hd_bumpGen, hd_setRg]
    · rw [hd_bumpGen, hd_setRg]

/-! ### The page that a write reaches -/

/-- No page stands where the MSI-X table is. -/
theorem controlPage_msix (n : Nat) (lo : 0xF00 ≤ n) (hi : n < 0xF08) : controlPage n = none := by
  obtain ⟨i, rfl⟩ : ∃ i : Fin 8, n = 0xF00 + i.val := ⟨⟨n - 0xF00, by omega⟩, (Nat.add_sub_cancel' lo).symm⟩
  revert i
  decide

/-- An address that lies on a page lies outside the MSI-X table. -/
theorem not_msix_of_pageAt {w : Window} {a : Nat} {p : Page} (h : pageAt w a = some p) :
    (decide (w = .control) && decide (0xF00000 ≤ a) && decide (a < 0xF08000)) = false := by
  cases w with
  | control =>
    refine Bool.eq_false_iff.2 fun inside => ?_
    simp only [decide_true, Bool.true_and, Bool.and_eq_true, decide_eq_true_eq] at inside
    obtain ⟨lo, hi⟩ := inside
    rw [pageAt, if_pos (by omega), controlPage_msix (a / 4096) (by omega) (by omega)] at h
    cases h
  | slice => rfl
  | config => rfl

/-- Configuration space has no pages. -/
theorem ne_config_of_pageAt {w : Window} {a : Nat} {p : Page} (h : pageAt w a = some p) : w ≠ .config := by
  rintro rfl
  cases h

/-- A write to a page of an awake unit is served at once. -/
theorem exec_registerWrite_of_pageAt {w : Window} {addr : BitVec 26} {be : BitVec 8} {data : BitVec 64} {s : State} {p : Page}
    (ha : s.awake) (hp : pageAt w (addr.toNat / 8 * 8) = some p) :
    exec (.registerWrite w addr be data) s = .next (regWriteBody w addr.toNat be data s) := by
  show execRegisterWrite w addr be data s = _
  rw [execRegisterWrite, if_neg (ne_config_of_pageAt hp), hostReq_awake s _ _ ha]

/-- A write that covers whole registers of a page writes each of them, the lower first. -/
theorem regWriteBody_whole {w : Window} {addr : Nat} {be : BitVec 8} {data : BitVec 64} {s : State} {p : Page} {l : List Nat}
    (hp : pageAt w (addr / 8 * 8) = some p) (ha : s.pageAnswers p = true) (hb : halves be = some l) :
    regWriteBody w addr be data s =
      l.foldl (fun a i => a.writeReg p (addr / 8 * 8 % 4096 + 4 * i) (half data.toNat i)) s := by
  simp only [regWriteBody, not_msix_of_pageAt hp, hp, ha, hb, Bool.not_true, Bool.false_eq_true, if_false]

/-- A write that covers no whole register, or a part of one, is a bad access (R26). -/
theorem regWriteBody_partial {w : Window} {addr : Nat} {be : BitVec 8} {data : BitVec 64} {s : State} {p : Page}
    (hp : pageAt w (addr / 8 * 8) = some p) (ha : s.pageAnswers p = true) (hb : halves be = none) :
    regWriteBody w addr be data s = s.badAccess (firstEnabled (addr / 8 * 8) be) := by
  simp only [regWriteBody, not_msix_of_pageAt hp, hp, ha, hb, Bool.not_true, Bool.false_eq_true, if_false]

/-- The byte enables of a 4-byte access cover its register and no other. -/
theorem halves_oneReg {i : Nat} (h : i < 2) : halves (oneReg i) = some [i] := by
  match i, h with
  | 0, _ => decide
  | 1, _ => decide

/-! ### Plain registers -/

/-- The pages of which a write of a listed register is judged by no further rule. -/
def PlainPage (p : Page) : Prop := p = .glb ∨ p = .rng ∨ p = .cus ∨ (∃ n, p = .zl n) ∨ ∃ sl, p = .slc sl

/-- A register of the file that is no half of a wide pair takes its writable bits. -/
theorem writePlain_of_regDesc (s : State) {p : Page} {off : Nat} {d : RegD} (v : W32) (h : regDesc p off = some d)
    (hlo : d.lo = false) (hhi : d.hi = false) : s.writePlain p off v = s.writeRg p off v := by
  simp only [State.writePlain, h, hlo, hhi, Bool.false_eq_true, if_false]

/-- The listed registers of these pages stand after the header, away from the two registers of GLB and of a slice's page
that have rules of their own. -/
theorem plainPage_offset {p : Page} {off : Nat} {d : RegD} (hp : PlainPage p) (h : regDesc p off = some d) :
    0x040 ≤ off ∧ (p = .glb → off ≠ 0x058) ∧ ∀ sl, p = .slc sl → off ≠ 0x118 := by
  -- page by page, the offsets that `regDesc` lists
  rcases hp with rfl | rfl | rfl | ⟨n, rfl⟩ | ⟨sl, rfl⟩ <;> grind [regDesc]

/-- A write of a listed register of these pages goes to the file. -/
theorem writeReg_plainPage (s : State) {p : Page} {off : Nat} {d : RegD} (v : W32) (hp : PlainPage p)
    (h : regDesc p off = some d) : s.writeReg p off v = s.writePlain p off v := by
  obtain ⟨hoff, hglb, hslc⟩ := plainPage_offset hp h
  have hhdr : ¬ off < 0x040 := by omega
  rcases hp with rfl | rfl | rfl | ⟨n, rfl⟩ | ⟨sl, rfl⟩ <;>
    simp only [State.writeReg, if_neg hhdr, kernelReg, Bool.false_eq_true, if_false]
  · exact if_neg (hglb rfl)
  · exact if_neg (hslc sl rfl)

/-- A whole plain register takes exactly its writable bits (R9, R36, R37). -/
theorem plainRegisterWrite : Clause.PlainRegisterWrite := by
  intro win addr i data s p off d ⟨hawake, hans, _⟩ ⟨hi, hpage, hoff⟩ hd hlo hhi hp
  have run : exec (.registerWrite win addr (oneReg i) data) s = .next (s.writeRg p off (half data.toNat i)) := by
    rw [exec_registerWrite_of_pageAt hawake hpage, regWriteBody_whole hpage hans (halves_oneReg hi), List.foldl_cons,
      List.foldl_nil, ← hoff, writeReg_plainPage s _ hp hd, writePlain_of_regDesc s _ hd hlo hhi]
  have effect := writeRg_effect s p off (half data.toNat i)
  rw [written, writable_of_regDesc s hd] at effect
  exact ⟨_, run, effect⟩

/-! ### Partial writes -/

/-- What a bad access counts and flags (R26). -/
def badCounted (s : State) : State :=
  { s with glb := { s.glb with badaccCnt := satAdd 32 s.glb.badaccCnt 1, badacc := true, badaccNoted := true } }

/-- A bad access after the first since the reset is counted alone. -/
theorem badAccess_again (s : State) (a : Nat) (h : s.glb.badaccNoted = true) : s.badAccess a = badCounted s := by
  simp only [State.badAccess, h, Bool.not_true, Bool.false_eq_true, if_false, badCounted]

/-- The first bad access since the reset is recorded with its address. -/
theorem badAccess_first (s : State) (a : Nat) (h : s.glb.badaccNoted = false) :
    s.badAccess a = (badCounted s).record 0x0203 2 0 (toLE 8 a) := by
  simp only [State.badAccess, h, Bool.not_false, if_true, badCounted]

/-- A record leaves GLB's own fields. -/
theorem record_glb (s : State) (typ sev src : Nat) (c : Bytes) : (s.record typ sev src c).glb = s.glb := by
  rw [logged_record s typ sev src c]

theorem badAccess_glb (s : State) (a : Nat) : (s.badAccess a).glb = (badCounted s).glb := by
  cases h : s.glb.badaccNoted with
  | true => rw [badAccess_again s a h]
  | false => rw [badAccess_first s a h, record_glb]

/-- A bad access in full: what it counts, and the record that only the first since the reset makes. -/
theorem badAccess_effect (s : State) (a : Nat) :
    (s.badAccess a).glb = (badCounted s).glb ∧
      (s.glb.badaccNoted = true → s.badAccess a = { s with glb := (s.badAccess a).glb }) ∧
      (s.glb.badaccNoted = false →
        s.badAccess a = ({ s with glb := (s.badAccess a).glb } : State).record 0x0203 2 0 (toLE 8 a)) := by
  rw [badAccess_glb]
  exact ⟨rfl, badAccess_again s a, badAccess_first s a⟩

/-- A write that does not cover whole registers is dropped and counted (R26). -/
theorem partialWriteDropped : Clause.PartialWriteDropped := by
  intro win addr be data s p ⟨hawake, hans, _⟩ hpage hbe
  have run := exec_registerWrite_of_pageAt (be := be) (data := data) hawake hpage
  rw [regWriteBody_partial hpage hans hbe] at run
  exact ⟨_, run, badAccess_effect s _⟩

/-- Settles O4: a whole plain register and a partial write, clause by clause. -/
theorem registerWrites : Obligations.RegisterWrites := ⟨plainRegisterWrite, partialWriteDropped⟩

end Sys2Proof.Proofs
end

