-- ==== Sys2Proof/Proofs/IdleTick.lean ====
section
/-! SUPPORT. One tick on an empty queue (R6, R241, R390, R394, R414): what each part of it moves and what it leaves. -/
namespace Sys2Proof.Proofs
open Sys2Proof Sys2Proof.Machine Sys2Proof.Laws

/-! ### A rotation's working -/

/-- Only what a rotation's working may change differs: device memory and the rotation's own progress, what the Ledger's
working changes, the free values drawn. -/
def Rotated (s t : State) : Prop :=
  t = { s with mem := t.mem, svc := t.svc, led := t.led, rng := t.rng, hdr := t.hdr, msix := t.msix, out := t.out, freeN := t.freeN }

theorem rotated_refl (s : State) : Rotated s s := rfl

theorem rotated_trans {s t u : State} (h : Rotated s t) (k : Rotated t u) : Rotated s u := by
  unfold Rotated at *
  rw [k, h]

theorem rotated_of_logged {s t : State} (h : Logged s t) : Rotated s t := by
  unfold Logged at h
  unfold Rotated
  rw [h]

theorem rotated_poisonLine (s : State) (l : Nat) : Rotated s (s.poisonLine l) := by
  unfold State.poisonLine
  split
  · exact rotated_refl s
  · split
    · exact rfl
    · exact rfl

theorem rotated_lineFail (s : State) (l : Nat) : Rotated s (s.lineFail l) := by
  unfold State.lineFail
  refine rotated_trans ?_ (rotated_of_logged (logged_record _ _ _ _ _))
  exact rotated_trans (t := { s with mem := _ }) rfl (rotated_poisonLine _ l)

theorem rotated_foldl_lineFail (l : List Nat) (s : State) :
    Rotated s (l.foldl (fun (a : State) n => a.lineFail (64 * n)) s) := by
  induction l generalizing s with
  | nil => exact rotated_refl s
  | cons n l ih => exact rotated_trans (rotated_lineFail s (64 * n)) (ih _)

theorem rotated_moveLines (s : State) (old new lo hi : Nat) (met : Option (BitVec 36)) :
    Rotated s (s.moveLines old new lo hi met) := by
  unfold State.moveLines
  exact rotated_trans (rotated_foldl_lineFail _ s) rfl

theorem rotated_rotUpTo (s : State) (hi : Nat) : Rotated s (s.rotUpTo hi) := by
  unfold State.rotUpTo
  exact rotated_trans (t := { s with freeN := s.freeN + 1 }) rfl (rotated_trans (rotated_moveLines _ _ _ _ _ _) rfl)

/-- A tick of a rotation changes only what a rotation's working may change (R414). -/
theorem rotated_rotTick (s : State) : Rotated s s.rotTick := by
  unfold State.rotTick
  split
  · exact rotated_rotUpTo s _
  · exact rotated_refl s

@[simp] theorem rotTick_glb (s : State) : s.rotTick.glb = s.glb := by rw [rotated_rotTick s]
@[simp] theorem rotTick_ks (s : State) : s.rotTick.ks = s.ks := by rw [rotated_rotTick s]
@[simp] theorem rotTick_pwr (s : State) : s.rotTick.pwr = s.pwr := by rw [rotated_rotTick s]

/-- With no rotation its tick changes nothing. -/
theorem rotTick_idle (s : State) (h : s.svc.rotBusy = false) : s.rotTick = s := by
  simp only [State.rotTick, h, Bool.false_and, Bool.false_eq_true, if_false]

/-! ### A compaction's working -/

/-- A tick of a compaction moves its pointer alone (R241). -/
theorem compTick_frame (s : State) : s.compTick = { s with ks := { s.ks with compPtr := s.compTick.ks.compPtr } } := by
  unfold State.compTick
  split <;> rfl

@[simp] theorem compTick_glb (s : State) : s.compTick.glb = s.glb := by rw [compTick_frame]
@[simp] theorem compTick_pwr (s : State) : s.compTick.pwr = s.pwr := by rw [compTick_frame]
@[simp] theorem compTick_svc (s : State) : s.compTick.svc = s.svc := by rw [compTick_frame]

/-- With no compaction its tick changes nothing. -/
theorem compTick_idle (s : State) (h : s.ks.compBusy = false) : s.compTick = s := by
  simp only [State.compTick, h, Bool.false_and, Bool.false_eq_true, if_false]

/-! ### The tick -/

/-- OPTIME one tick on, modulo 2^48 (R6). -/
def ticked (s : State) : State := { s with glb := { s.glb with optime := (s.glb.optime + 1) % 2 ^ 48 } }

/-- The work below every job, one tick on: a compaction, then a rotation. -/
def worked (s : State) : State := (ticked s).compTick.rotTick

/-- What a tick does: nothing without supplies; else the work goes on, and a need in progress restarts the idle time
(R390, R394). -/
theorem idleTick_cases (s : State) :
    (s.pwr.vaon = false ∧ s.linked = false ∧ idleTick s = s) ∨
      ((s.pwr.vaon = true ∨ s.linked = true) ∧
        (s.internalNeed = true ∧ idleTick s = (worked s).needEnds ∨ s.internalNeed = false ∧ idleTick s = worked s)) := by
  by_cases fed : s.pwr.vaon = true ∨ s.linked = true
  · have run : idleTick s = if s.internalNeed then (worked s).needEnds else worked s := if_pos (by simpa using fed)
    cases need : s.internalNeed with
    | true => exact .inr ⟨fed, .inl ⟨rfl, run.trans (if_pos need)⟩⟩
    | false => exact .inr ⟨fed, .inr ⟨rfl, run.trans (if_neg (by simp [need]))⟩⟩
  · obtain ⟨dark, off⟩ : s.pwr.vaon = false ∧ s.linked = false := by simpa using fed
    exact .inl ⟨dark, off, if_neg (by simpa using fed)⟩

/-- The work of a tick leaves GLB as the tick made it. -/
theorem worked_glb (s : State) : (worked s).glb = (ticked s).glb := by rw [worked, rotTick_glb, compTick_glb]

theorem worked_pwr (s : State) : (worked s).pwr = s.pwr := by rw [worked, rotTick_pwr, compTick_pwr, ticked]

theorem worked_ks (s : State) : (worked s).ks = (ticked s).compTick.ks := by rw [worked, rotTick_ks]

/-- Only what a tick of an empty queue may change differs: OPTIME, a compaction's pointer, the tick from which idle time
counts, and what a rotation's working may change. -/
def TickFrame (s t : State) : Prop :=
  Rotated { s with
    glb := { s.glb with optime := t.glb.optime }, ks := { s.ks with compPtr := t.ks.compPtr }
    pwr := { s.pwr with idleTick := t.pwr.idleTick } } t

theorem tickFrame_kept {s t : State} (h : TickFrame s t) :
    t.glb = { s.glb with optime := t.glb.optime } ∧ t.regs = s.regs ∧ t.jobs = s.jobs ∧ t.slices = s.slices ∧
      t.vault = s.vault ∧ t.eng = s.eng := by
  rw [h]
  exact ⟨rfl, rfl, rfl, rfl, rfl, rfl⟩

theorem tickFrame_worked (s : State) : TickFrame s (worked s) := by
  have h := rotated_rotTick (ticked s).compTick
  rw [compTick_frame (ticked s)] at h
  unfold TickFrame
  rw [worked_glb, worked_pwr, worked_ks]
  unfold worked
  rw [compTick_frame (ticked s)]
  exact h

theorem tickFrame_needEnds {s t : State} (h : TickFrame s t) : TickFrame s t.needEnds := by
  unfold TickFrame Rotated at *
  unfold State.needEnds
  rw [h]

theorem tickFrame_idleTick (s : State) : TickFrame s (idleTick s) := by
  rcases idleTick_cases s with ⟨_, _, e⟩ | ⟨_, ⟨_, e⟩ | ⟨_, e⟩⟩ <;> rw [e]
  · exact rfl
  · exact tickFrame_needEnds (tickFrame_worked s)
  · exact tickFrame_worked s

/-- OPTIME advances while VAON or the core supplies feed it (R6, R394). -/
theorem idleTick_optime (s : State) (h : s.pwr.vaon = true ∨ s.linked = true) :
    (idleTick s).glb.optime = (s.glb.optime + 1) % 2 ^ 48 := by
  have fed : (worked s).glb.optime = (s.glb.optime + 1) % 2 ^ 48 := congrArg Glb.optime (worked_glb s)
  rcases idleTick_cases s with ⟨dark, off, _⟩ | ⟨_, ⟨_, e⟩ | ⟨_, e⟩⟩
  · simp [dark, off] at h
  · rw [e]; exact fed
  · rw [e]; exact fed

/-- Without supplies nothing passes (R394). -/
theorem idleTick_dark (s : State) (hv : s.pwr.vaon = false) (hl : s.linked = false) : idleTick s = s := by
  rcases idleTick_cases s with ⟨_, _, e⟩ | ⟨fed, _⟩
  · exact e
  · simp [hv, hl] at fed

/-- With no compaction the key store stays (R241). -/
theorem idleTick_ks (s : State) (h : s.ks.compBusy = false) : (idleTick s).ks = s.ks := by
  have kept : (worked s).ks = s.ks := by rw [worked_ks, compTick_idle (ticked s) h]; rfl
  rcases idleTick_cases s with ⟨_, _, e⟩ | ⟨_, ⟨_, e⟩ | ⟨_, e⟩⟩ <;> rw [e]
  · exact kept
  · exact kept

/-- With no need in progress the idle time goes on (R390). -/
theorem idleTick_pwr (s : State) (h : s.internalNeed = false) : (idleTick s).pwr = s.pwr := by
  rcases idleTick_cases s with ⟨_, _, e⟩ | ⟨_, ⟨need, _⟩ | ⟨_, e⟩⟩
  · rw [e]
  · simp [h] at need
  · rw [e, worked_pwr]

/-- With no rotation, OPTIME, a compaction's pointer and the start of the idle time alone change. -/
theorem idleTick_no_rotation (s : State) (h : s.svc.rotBusy = false) :
    idleTick s = { s with
      glb := { s.glb with optime := (idleTick s).glb.optime }, ks := { s.ks with compPtr := (idleTick s).ks.compPtr }
      pwr := { s.pwr with idleTick := (idleTick s).pwr.idleTick } } := by
  have work : worked s = (ticked s).compTick := rotTick_idle _ (by rw [compTick_svc]; exact h)
  rw [compTick_frame] at work
  rcases idleTick_cases s with ⟨_, _, e⟩ | ⟨_, ⟨_, e⟩ | ⟨_, e⟩⟩ <;> rw [e]
  · rw [work]; rfl
  · rw [work]; rfl

/-- With no command waiting a step is a tick. -/
theorem step_of_empty (s : State) (h : s.pending = []) : step s = .next (idleTick s) := by
  unfold step
  rw [h]

/-- Settles O2: each part of the tick by what it moves, the rest by the tick's frame. -/
theorem emptyQueueTicks : Obligations.EmptyQueueTicks := by
  intro s empty
  exact ⟨idleTick s, step_of_empty s empty, idleTick_optime s, idleTick_dark s, idleTick_ks s, idleTick_pwr s,
    idleTick_no_rotation s, tickFrame_kept (tickFrame_idleTick s)⟩

end Sys2Proof.Proofs
end

