-- ==== Sys2Proof/Proofs/BlockControl.lean ====
section
/-! SUPPORT. PG_CTRL, a drained block and a lane whose partner reads FAULT (R32, R33, R323, R324); O6 and O7. -/
namespace Sys2Proof.Proofs.Blocks
open Sys2Proof Sys2Proof.Machine Sys2Proof.Laws

/-! ### A refused write -/

/-- An event raised on a page leaves the code that its PG_ERR holds. -/
theorem raise_errCode (s : State) (p : Page) (b : Nat) : ((s.raise p b).hd p).errCode = (s.hd p).errCode := by
  unfold State.raise
  dsimp only
  split
  · rfl
  · split
    · rw [signal_hd, hd_setHd]
    · rw [hd_setHd]

/-- A refused write leaves its code in PG_ERR (R35). -/
theorem refuse_errCode (s : State) (p : Page) (c d : Nat) : ((s.refuse p c d).hd p).errCode = c := by
  rw [State.refuse, raise_errCode, hd_setHd]

/-- A write that would change ENABLE is refused while a page that the change reaches reads FAULT, leased or not (R33, R323). -/
theorem ctrlWrite_of_fault (s : State) {p q : Page} {en dr off : Bool} (bad : Option (Fin 16384))
    (answers : s.pageAnswers p = true ∧ noWrites p = false) (honours : honoursCtrl p = true) (change : en ≠ (s.hd p).enable)
    (mate : q ∈ gatedWith p) (fault : (s.hd q).st = .fault) : s.ctrlWrite p en dr off bad = s.refuse p cForbids 0 := by
  have faulted : (gatedWith p).any (fun r => (s.hd r).st = .fault) = true :=
    List.any_eq_true.2 ⟨q, mate, decide_eq_true fault⟩
  rw [State.ctrlWrite, State.onCtrl, onPage_answers s p _ answers, if_pos honours]
  exact if_pos (by simp only [bne_iff_ne.2 change, faulted, Bool.and_self, Bool.or_true])

/-- PG_CTRL_ENABLE meets that refusal, whatever a lease says. -/
theorem exec_pgCtrlEnable_of_fault (s : State) {p q : Page} {on : Bool} (reach : s.reach p) (honours : honoursCtrl p = true)
    (change : on ≠ (s.hd p).enable) (mate : q ∈ gatedWith p) (fault : (s.hd q).st = .fault) :
    exec (.pgCtrlEnable p on) s = .next (s.refuse p cForbids 0) := by
  obtain ⟨awake, answers⟩ := reach
  show Host.Outcome.next (s.hostReq _ _) = _
  rw [hostReq_awake s _ _ awake, ctrlEnableBody, ctrlWrite_of_fault s none answers honours change mate fault]

/-! ### A lane whose partner reads FAULT -/

/-- A unit that has started, with headers of its own on the two lanes of pair 0. -/
def firstPair (a b : Hdr) : State :=
  (({ State.reset with glb := { run := .ready } } : State).setHd (.scl 0) a).setHd (.scl 1) b

/-- Lane 0 passes its self-test, so that a lease holds its pair, while lane 1 reads FAULT. -/
def testedBesideFault : State := firstPair { st := .servicing } { st := .fault }

/-- Refutes O6: a lease holds a pair of which one lane reads SERVICING and the other FAULT, but the write of ENABLE = 0 to the
first is refused for the other's FAULT before the lease is asked: PG_ERR reads STATE_FORBIDS, not LEASE_DENIED. -/
theorem not_blockControl : ¬ Obligations.BlockControl := by
  rintro ⟨_, leaseRefuses⟩
  have reach : testedBesideFault.reach (.scl 0) := by decide +kernel
  obtain ⟨t, run, err, _⟩ := leaseRefuses testedBesideFault (.scl 0) reach rfl (by decide +kernel) (by decide +kernel)
    (by decide +kernel)
  rw [exec_pgCtrlEnable_of_fault testedBesideFault (q := .scl 1) reach rfl (by decide +kernel) (by decide)
    (by decide +kernel)] at run
  cases run
  rw [refuse_errCode] at err
  exact absurd err (by decide)

/-- Lane 0 has drained and is to be gated, no lease holds its pair, and lane 1 reads FAULT. -/
def drainedBesideFault : State := firstPair { st := .draining, enable := false, gating := true } { st := .fault, enable := false }

/-- Refutes O7: the gating of a drained lane takes the pair to OFF but for a lane that has come to read FAULT meanwhile, which
goes on reading it (R33, R421); so not every page that is gated together reads OFF. -/
theorem not_drainAndSelfTest : ¬ Obligations.DrainAndSelfTest := by
  rintro ⟨drained, _⟩
  obtain ⟨_, gated⟩ := drained drainedBesideFault (.scl 0) (by decide +kernel) rfl (by decide +kernel) (by decide +kernel)
  obtain ⟨t, run, off, _⟩ := gated (by decide +kernel) (by decide +kernel) (by decide +kernel)
  cases run
  have lane : Page.scl 1 ∈ gatedWith (.scl 0) := by decide
  exact absurd (off (.scl 1) lane) (by decide +kernel)

end Sys2Proof.Proofs.Blocks
end

