-- ==== Sys2Proof/Proofs/MessagesAndFeatures.lean ====
section
/-! SUPPORT. Unmasking an MSI-X vector (R40, R70) and the device feature commit (R43); O8. -/
namespace Sys2Proof.Proofs.Features
open Sys2Proof Sys2Proof.Machine Sys2Proof.Laws

/-! ### A vector unmasked -/

/-- What unmasking sends: the message that was pending, if one was (R70). -/
def pendingMessage (vec : Nat) (e : MsixEntry) : List Out := if e.pend then [.msix vec e.addr e.data] else []

/-- A table that answers takes the entry unmasked, its message sent where one was pending (R40, R70). -/
theorem unmaskBody_answering (s : State) (vec : Nat) {e : MsixEntry} (entry : NMap.getD s.msix vec {} = e)
    (up : s.pwr.configUp = true) (heard : s.mute = false) :
    unmaskBody vec s = { s with
      msix := NMap.set s.msix vec { e with mask := false, pend := false }, out := s.out ++ pendingMessage vec e } := by
  obtain ⟨lo, hi, data, mask, pend⟩ := e
  rw [unmaskBody, entry]
  cases pend with
  | true => simp [up, heard, pendingMessage, State.emit]
  | false => simp [up, pendingMessage]

theorem msixUnmask : Clause.MsixUnmask := by
  intro s vec e awake quiet up entry
  have heard : s.mute = false := by rw [State.mute, quiet, awake.1]; rfl
  have run : exec (.msixUnmask vec) s = .next (unmaskBody vec.val s) := congrArg _ (hostReq_awake s _ _ awake)
  rw [unmaskBody_answering s vec.val entry.symm up heard] at run
  exact ⟨_, run, find_set_self .., rfl, fun _ other => find_set_ne _ _ other, rfl⟩

/-! ### Device features -/

/-- The four enable words, which a commit asks to be accepted. -/
def enableWords (s : State) : List W32 := [s.rg .glb 0x080, s.rg .glb 0x084, s.rg .glb 0x088, s.rg .glb 0x08C]

/-- A commit reads the four enable words. -/
theorem range_enableWords (s : State) : (List.range 4).map (fun i => s.rg .glb (0x080 + 4 * i)) = enableWords s := rfl

/-- A commit that a condition refuses shows the cause, and that alone. -/
theorem featBody_refused {s : State} {c : Nat} (answers : s.pageAnswers .glb = true ∧ noWrites .glb = false)
    (bad : s.devCommitBad (enableWords s) = some c) :
    featBody s = { s with glb := { s.glb with featRes := 2, featCause := c } } := by
  rw [featBody, onPage_answers s .glb _ answers]
  simp only [range_enableWords, bad]

/-- A commit that none refuses takes the words whole and is recorded. -/
theorem featBody_taken {s : State} (answers : s.pageAnswers .glb = true ∧ noWrites .glb = false)
    (good : s.devCommitBad (enableWords s) = none) :
    Logged { s with glb := { s.glb with accepted := enableWords s, committed := true, featRes := 1, featCause := 0 } }
      (featBody s) := by
  rw [featBody, onPage_answers s .glb _ answers]
  simp only [range_enableWords, good]
  exact logged_record ..

theorem deviceFeatureCommit : Clause.DeviceFeatureCommit := by
  intro s ⟨awake, answers⟩
  have run : exec .glbFeatCommit s = .next (featBody s) := congrArg _ (hostReq_awake s _ _ awake)
  refine ⟨fun c bad => ⟨_, run, featBody_refused answers bad⟩, fun good => ⟨_, run, ?_⟩⟩
  rw [featBody_taken answers good]
  exact ⟨rfl, rfl, rfl, rfl⟩

/-- Settles O8: a vector unmasked and a commit judged, clause by clause. -/
theorem messagesAndFeatures : Obligations.MessagesAndFeatures := ⟨msixUnmask, deviceFeatureCommit⟩

end Sys2Proof.Proofs.Features
end

