-- ==== Sys2Proof/Proofs/EmptyReads.lean ====
section
/-! SUPPORT. Reads of device memory that ask for no octets (R325, R335, R339); O46. -/
namespace Sys2Proof.Proofs.EmptyReads
open Sys2Proof Sys2Proof.Machine Sys2Proof.Laws

/-- No octets from inside a line still make one piece, on the line that the location lies in. -/
theorem linePieces_zero (l : Nat) (inside : l % 64 ≠ 0) : linePieces l 0 = [(l / 64 * 64, l % 64, 0)] := by
  have one : (l % 64 + 0 + 63) / 64 = 1 := by omega
  have low : Nat.max l (l / 64 * 64) = l := Nat.max_eq_left (Nat.div_mul_le_self l 64)
  have high : Nat.min (l / 64 * 64 + 64) l = l := Nat.min_eq_right (by omega)
  have first : l - l / 64 * 64 = l % 64 := by omega
  rw [linePieces, one]
  show [((l / 64 + 0) * 64, Nat.max l ((l / 64 + 0) * 64) - (l / 64 + 0) * 64,
    Nat.min ((l / 64 + 0) * 64 + 64) (l + 0) - Nat.max l ((l / 64 + 0) * 64))] = _
  simp only [Nat.add_zero, low, high, first, Nat.sub_self]

/-- A location and the start of its line are poisoned together. -/
theorem poisoned_lineStart (s : State) (l : Nat) : s.poisoned (l / 64 * 64) = s.poisoned l := by
  have line : l / 64 * 64 / 64 = l / 64 := Nat.mul_div_cancel _ (by decide)
  have page : l / 64 * 64 / 4096 = l / 4096 := by omega
  rw [State.poisoned, State.poisoned, line, page]

/-- A poisoned line fails with detail 2 (R335). -/
theorem readLine_poisoned {s : State} {l : Nat} (errs : Burst) (poisoned : s.poisoned l = true) :
    s.readLine l errs = (s, .inl 2) := if_pos poisoned

/-- A read that passes the gates and asks for no octets from inside a poisoned line fails, though no octet it asks for is
poisoned. -/
theorem access_zero_poisoned {s : State} {a : GateAccess} (errs : Burst) (gates : s.gateCause a = none)
    (governed : s.potGoverns a.loc = true) (active : (s.mem.keyIdMode && !s.mem.act.contains a.key) = false)
    (read : a.kind ≠ .write) (inside : a.loc % 64 ≠ 0) (poisoned : s.poisoned a.loc = true) :
    (s.access a [] errs).2 = .failed 2 := by
  have piece := readLine_poisoned errs ((poisoned_lineStart s a.loc).trans poisoned)
  have load : s.load a.loc 0 errs = (s, [], some 2) := by
    rw [State.load, linePieces_zero a.loc inside, List.foldl_cons, List.foldl_nil]
    simp only [piece]
    rfl
  simp only [State.access, gates, governed, active, read, List.take_nil, List.length_nil, load, Bool.not_true,
    Bool.false_eq_true, if_false]

/-- A DMA buffer in the retention SRAM whose last line is poisoned, open to the last engine. -/
def poisonedBuffer : State :=
  { State.reset with
    mpu := [(47, { ent := [(0, { base := 0x20001FFF000, limit := 0x20001FFF000, r := true, valid := true })] })]
    mem := { pot := [(0x20001FFF, { owner := 0x31 })], poison := [0x80007FFFF] } }

/-- The second octet of that line, as the engine reads it. -/
def insidePoisonedLine : GateAccess := { master := 47, addr := 0x20001FFFFC1 }

/-- Refutes O46: a read of no octets, which the gates admit, from inside a poisoned line. None of the octets it asks for is
poisoned, so that the statement has it served; but the line that it starts in is read, and it fails with detail 2. -/
theorem not_memoryProtection : ¬ Obligations.MemoryProtection := by
  rintro ⟨_, _, deviceAccess⟩
  have gates : poisonedBuffer.gateCause insidePoisonedLine = none := by decide +kernel
  have governed : poisonedBuffer.potGoverns insidePoisonedLine.loc = true := by decide +kernel
  obtain ⟨_, live⟩ := deviceAccess poisonedBuffer insidePoisonedLine [] gates governed
  obtain ⟨reads, _⟩ := live rfl fun m x stored => by cases stored
  obtain ⟨_, served, _⟩ := reads (by decide)
  obtain ⟨o, answer, _⟩ := served fun k below => absurd below (by simp)
  rw [access_zero_poisoned [] gates governed rfl (by decide) (by decide +kernel) (by decide +kernel)] at answer
  cases answer

end Sys2Proof.Proofs.EmptyReads
end

