-- ==== Sys2Proof/Proofs/BoardAccess.lean ====
section
/-! SUPPORT. What the board reaches beside the windows: SMBus (R434), configuration space (R25, R29, R403), the test access port
(R437); O57. -/
namespace Sys2Proof.Proofs.Board
open Sys2Proof Sys2Proof.Machine Sys2Proof.Laws

/-! ### SMBus -/

/-- The little-endian octets of a value are as many as asked for. -/
theorem length_toLE (n v : Nat) : (toLE n v).length = n := by
  induction n generalizing v with
  | zero => rfl
  | succ n ih => rw [toLE, List.length_cons, ih]

/-- The status block has 16 octets (R434). -/
theorem length_smbStatus (s : State) : s.smbStatus.length = 16 := by
  simp only [State.smbStatus, List.length_append, length_toLE, List.length_cons, List.length_nil]

/-- STATUS and UID answer while VAON is present (R434). -/
theorem smbusAnswers (s : State) (vaon : s.pwr.vaon = true) :
    (Completes .smbusStatus s fun t =>
        t = { s with isl := { s.isl with smbAlert := false }, out := s.out ++ [.smbus s.smbStatus] } ∧ s.smbStatus.length = 16) ∧
      Completes .smbusUid s fun t => t = { s with out := s.out ++ [.smbus uidBytes] } :=
  ⟨⟨_, rfl, if_pos vaon, length_smbStatus s⟩, ⟨_, rfl, if_pos vaon⟩⟩

/-! ### Configuration space -/

/-- A request is answered with the words once the function answers, with retry status before (R25). -/
theorem configReqBody_linked (s : State) (linked : s.linked = true) :
    configReqBody s = s.emit (.config (if s.pwr.configUp then some s.configSpace else none)) := by
  cases up : s.pwr.configUp <;> simp [configReqBody, linked, up]

/-- Each word of configuration space is the one a read at its address gives. -/
theorem configSpace_getElem (s : State) {i : Nat} (h : i < 1024) : s.configSpace[i]? = some (s.pciRead (4 * i)) := by
  rw [State.configSpace, List.getElem?_map, List.getElem?_range h, Option.map_some]

/-- The mask of one octet. -/
theorem getLsbD_octetMask (j i : Nat) (h : i < 32) : (0xFF#32 <<< (8 * j)).getLsbD i = decide (i / 8 = j) := by
  have low (k : Nat) : (0xFF#32).getLsbD k = decide (k < 8) := by
    rw [BitVec.getLsbD_ofNat, show 0xFF = 2 ^ 8 - 1 from rfl, Nat.testBit_two_pow_sub_one]
    by_cases small : k < 8
    · simp [small, Nat.lt_trans small]
    · simp [small]
  rw [BitVec.getLsbD_shiftLeft, low]
  by_cases same : i / 8 = j
  · simp [same, h]; omega
  · simp [same, h]; omega

/-- An octet taken from another word: its bits from there, the rest as before. -/
theorem getLsbD_octetFrom (a new : W32) (j i : Nat) (h : i < 32) :
    (a &&& ~~~(0xFF#32 <<< (8 * j)) ||| new &&& (0xFF#32 <<< (8 * j))).getLsbD i =
      if i / 8 = j then new.getLsbD i else a.getLsbD i := by
  rw [BitVec.getLsbD_or, BitVec.getLsbD_and, BitVec.getLsbD_and, BitVec.getLsbD_not, getLsbD_octetMask j i h]
  by_cases same : i / 8 = j <;> simp [same, h]

/-- A word with all four octets taken from another is the other. -/
theorem mergeOctets_all (old new : W32) : mergeOctets old new 0xF = new := by
  refine BitVec.eq_of_getLsbD_eq fun i h => ?_
  show (List.foldl _ old [0, 1, 2, 3]).getLsbD i = _
  have place : i / 8 = 0 ∨ i / 8 = 1 ∨ i / 8 = 2 ∨ i / 8 = 3 := by omega
  have taken : ∀ j ∈ [0, 1, 2, 3], Nat.testBit 0xF j = true := by decide
  simp only [List.foldl, taken 0 (by simp), taken 1 (by simp), taken 2 (by simp), taken 3 (by simp), if_true,
    getLsbD_octetFrom _ _ _ i h]
  rcases place with e | e | e | e <;> simp [e]

/-- A whole write of BAR 0 keeps the address bits above its window of 16 MiB (R25). -/
theorem configWriteBody_bar0 (s : State) (data : BitVec 64) (linked : s.linked = true) (up : s.pwr.configUp = true) :
    configWriteBody 0x10 0x0F data s =
      { s with pci := { s.pci with bar0 := data.toNat % 2 ^ 32 / 2 ^ 24 * 2 ^ 24 }, out := s.out ++ [.config (some [])] } := by
  have word : (half data.toNat 0).toNat = data.toNat % 2 ^ 32 := by simp [half]
  simp [configWriteBody, linked, up, mergeOctets_all, State.pciWrite, barFit, word, State.emit]

/-- Requests of configuration space (R25, R29, R403). -/
theorem configurationAnswers (s : State) (linked : s.linked = true) :
    (Completes .configurationRequest s fun t =>
        t = { s with out := s.out ++ [.config (if s.pwr.configUp then some s.configSpace else none)] }) ∧
      s.configSpace[2]? = some 0x108000B0 ∧ s.configSpace[5]? = some 0 ∧
      (s.pwr.configUp = true → ∀ data : BitVec 64, Completes (.registerWrite .config 0x10 0x0F data) s fun t =>
        t = { s with
          pci := { s.pci with bar0 := data.toNat % 2 ^ 32 / 2 ^ 24 * 2 ^ 24 }, out := s.out ++ [.config (some [])] }) :=
  ⟨⟨_, rfl, configReqBody_linked s linked⟩, configSpace_getElem s (by decide), configSpace_getElem s (by decide),
    fun up data => ⟨_, rfl, configWriteBody_bar0 s data linked up⟩⟩

/-! ### Resets (R378, R399) -/

/-- A staging flush changes the Ledger alone (R378). -/
theorem stagingFlush_frame (s : State) : s.stagingFlush = { s with led := s.stagingFlush.led } := by
  unfold State.stagingFlush
  dsimp only
  split
  · rfl
  · rfl

/-- A grant that a reset closes, and the flush after it, leave GLB, the Vault and the island. -/
theorem closedAndFlushed_kept (s : State) :
    (s.closeGrant 3).stagingFlush.glb = s.glb ∧ (s.closeGrant 3).stagingFlush.vault = s.vault ∧
      (s.closeGrant 3).stagingFlush.isl = s.isl := by
  rw [stagingFlush_frame]
  unfold State.closeGrant
  split
  · exact ⟨rfl, rfl, rfl⟩
  · dsimp only
    rw [logged_record]
    exact ⟨rfl, rfl, rfl⟩

/-- A reset taken is one of its class (R399, Table 17.4). -/
theorem takeReset_wasReset (s : State) (c : ResetClass) (cause : Nat) : WasReset s (s.takeReset c cause) c cause := by
  obtain ⟨glb, _, _⟩ := closedAndFlushed_kept s
  exact
    { cls := ⟨rfl, rfl⟩
      pcc := by show ((s.closeGrant 3).stagingFlush.glb.pcc + 1) % 2 ^ 32 = _; rw [glb]
      optime := by show (s.closeGrant 3).stagingFlush.glb.optime = _; rw [glb]
      ladder := rfl
      gone := ⟨rfl, rfl, rfl, rfl, rfl, rfl, rfl, rfl⟩
      pages := ⟨rfl, rfl, rfl, rfl, rfl, rfl, rfl, rfl, rfl⟩ }

/-- It keeps the Vault and the island. -/
theorem takeReset_vault (s : State) (c : ResetClass) (cause : Nat) : (s.takeReset c cause).vault = s.vault :=
  (closedAndFlushed_kept s).2.1

theorem takeReset_isl (s : State) (c : ResetClass) (cause : Nat) : (s.takeReset c cause).isl = s.isl :=
  (closedAndFlushed_kept s).2.2

/-- What is so of the island's state has no part in a reset's effect. -/
theorem wasReset_isl {s t : State} {c : ResetClass} {cause : Nat} (h : WasReset s t c cause) (isl : Island) :
    WasReset s { t with isl := isl } c cause :=
  ⟨h.cls, h.pcc, h.optime, h.ladder, h.gone, h.pages⟩

/-! ### The test access port -/

/-- The island while an instruction holds the unit in reset, with what drives its pins (R437). -/
def heldIsland (s : State) (ir : Nat) (cells drive : Bytes) (floats : Bool) : Island :=
  { s.isl with jtagIr := ir, jtagHold := true, bscan := cells, bsDrive := drive, floats := floats }

/-- An instruction that holds the unit takes a SYSTEM reset of a unit that runs, and leaves one in reset there (R437, R428). -/
theorem tapHold_cases (s : State) (ir : Nat) (cells drive : Bytes) (floats : Bool) :
    (s.isl.jtagHold = false → s.powerUp = false →
      s.tapHold ir cells drive floats =
        { s.takeReset .system SysCause.jtag.code with isl := heldIsland s ir cells drive floats }) ∧
      ((s.isl.jtagHold = true ∨ s.powerUp = true) →
        s.tapHold ir cells drive floats = { s with isl := heldIsland s ir cells drive floats }) := by
  constructor
  · intro free running
    simp only [State.tapHold, free, running, Bool.or_self, Bool.false_eq_true, if_false, takeReset_isl, heldIsland]
  · intro held
    simp only [State.tapHold, Bool.or_eq_true, if_pos held, heldIsland]

/-- What a command that holds the unit completes with. -/
theorem tapHold_completes {x : Instr} {s : State} {ir : Nat} {cells drive : Bytes} {floats : Bool}
    (run : exec x s = .next (s.tapHold ir cells drive floats)) :
    (s.isl.jtagHold = false → s.powerUp = false → Completes x s fun t =>
        WasReset s t .system SysCause.jtag.code ∧ t.vault = s.vault ∧ t.isl = heldIsland s ir cells drive floats) ∧
      ((s.isl.jtagHold = true ∨ s.powerUp = true) → Completes x s fun t =>
        t = { s with isl := heldIsland s ir cells drive floats }) := by
  obtain ⟨taken, kept⟩ := tapHold_cases s ir cells drive floats
  refine ⟨fun free running => ⟨_, run, ?_⟩, fun held => ⟨_, run, kept held⟩⟩
  rw [taken free running]
  exact ⟨wasReset_isl (takeReset_wasReset ..) _, takeReset_vault s .system SysCause.jtag.code, rfl⟩

/-- EXTEST, CLAMP and HIGHZ each hold the unit, with its own code and what it does to the pins. -/
theorem holdingInstructions (s : State) (linked : s.linked = true) (c : Bytes) :
    exec (.extest c) s = .next (s.tapHold 0x00 c c false) ∧
      exec .clamp s = .next (s.tapHold 0x04 s.isl.bscan s.isl.bscan false) ∧
      exec .highz s = .next (s.tapHold 0x05 s.isl.bscan [] true) :=
  ⟨congrArg _ (if_pos linked), congrArg _ (if_pos linked), congrArg _ (if_pos linked)⟩

/-- Settles O57: SMBus, configuration space and the test access port, part by part. -/
theorem boardAccess : Obligations.BoardAccess := by
  intro s
  refine ⟨smbusAnswers s, fun linked => ?_⟩
  obtain ⟨config, cls, bar1, bar0⟩ := configurationAnswers s linked
  refine ⟨config, cls, bar1, bar0, fun c x listed => ?_, ⟨_, rfl, if_pos linked⟩, fun _ _ => ⟨_, rfl, if_pos linked⟩,
    ⟨_, rfl, if_pos linked⟩, fun _ => ⟨_, rfl, if_pos linked⟩⟩
  obtain ⟨extest, clamp, highz⟩ := holdingInstructions s linked c
  rcases List.mem_cons.1 listed with rfl | listed
  · exact tapHold_completes extest
  rcases List.mem_cons.1 listed with rfl | listed
  · exact tapHold_completes clamp
  rcases List.mem_singleton.1 listed with rfl
  exact tapHold_completes highz

end Sys2Proof.Proofs.Board
end

