-- ==== Sys2Proof/Proofs/ResetState.lean ====
section
/-! SUPPORT. The machine right after reset (R40); O60. -/
namespace Sys2Proof.Proofs.AtReset
open Sys2Proof Sys2Proof.Machine Sys2Proof.Laws

/-- While RUN reads STARTING GLB alone answers (R40). -/
theorem pageAnswers_starting {s : State} (p : Page) (starting : s.glb.run = .starting) : s.pageAnswers p = true ↔ p = .glb := by
  rw [State.pageAnswers, starting]
  exact decide_eq_true_iff

/-- At reset the maps list nothing, so that they are in canonical form, and the counted lists have their lengths. -/
theorem reset_sane : State.reset.sane = true := by decide

/-- Settles O60: the fields as their structures' defaults give them, both invariants, and R40's one page. -/
theorem resetState : Obligations.ResetState :=
  ⟨reset_sane, rfl, rfl, rfl, rfl, rfl, rfl, rfl, rfl, rfl, rfl, rfl, fun p => pageAnswers_starting p rfl⟩

end Sys2Proof.Proofs.AtReset
end

