-- ==== Sys2Proof/Proofs/JobEnd.lean ====
section
/-! SUPPORT. How a job ends (R54, R57, R70, R303, R386): what each part of its ending may change, the ending as a whole, and
the ending of a job that is stopped (R24, R67, R89). -/
namespace Sys2Proof.Proofs.JobEnd
open Sys2Proof Sys2Proof.Machine Sys2Proof.Laws

/-! ### What the parts of an ending may change -/

/-- Only what a job's ending may change differs: rings, engines, keys, links, counts, the Ledger, page events and what
was sent. -/
def EndChanges (s t : State) : Prop :=
  t = { s with
    hdr := t.hdr, msix := t.msix, led := t.led, ks := t.ks, slices := t.slices, jobs := t.jobs, qsc := t.qsc, eng := t.eng
    rng := t.rng, clu := t.clu, zl := t.zl, out := t.out, freeN := t.freeN }

theorem endChanges_trans {s t u : State} (h : EndChanges s t) (k : EndChanges t u) : EndChanges s u := by
  unfold EndChanges at h k
  rw [h] at k
  exact k

/-- The frame that the statements on endings name. -/
theorem endFrame_of_endChanges {s t : State} (h : EndChanges s t) : EndFrame s t := by
  rw [h]
  exact ⟨rfl, rfl, rfl, rfl, rfl, rfl, rfl, rfl, rfl, rfl, rfl⟩

/-- A part of a job's ending: what it sends leaves after what left before; it takes no job in; it counts no job as stopped at
its time limit. -/
structure EndStep (s t : State) : Prop where
  changes : EndChanges s t
  out : s.out <+: t.out
  jobs : t.jobs ⊆ s.jobs
  timeoutCnt : t.qsc.timeoutCnt = s.qsc.timeoutCnt

/-- A part that leaves jobs, what was sent and the count as they were. -/
theorem EndStep.still {s t : State} (changes : EndChanges s t) (out : t.out = s.out) (jobs : t.jobs = s.jobs)
    (timeoutCnt : t.qsc.timeoutCnt = s.qsc.timeoutCnt) : EndStep s t :=
  ⟨changes, out ▸ List.prefix_rfl, jobs ▸ List.Subset.refl _, timeoutCnt⟩

/-- A part that leaves jobs and the count as they were, and sends something. -/
theorem EndStep.sends {s t : State} {o : List Out} (changes : EndChanges s t) (out : t.out = s.out ++ o)
    (jobs : t.jobs = s.jobs) (timeoutCnt : t.qsc.timeoutCnt = s.qsc.timeoutCnt) : EndStep s t :=
  ⟨changes, out ▸ List.prefix_append .., jobs ▸ List.Subset.refl _, timeoutCnt⟩

theorem EndStep.refl (s : State) : EndStep s s := .still rfl rfl rfl rfl

theorem EndStep.trans {s t u : State} (h : EndStep s t) (k : EndStep t u) : EndStep s u where
  changes := endChanges_trans h.changes k.changes
  out := h.out.trans k.out
  jobs := List.Subset.trans k.jobs h.jobs
  timeoutCnt := k.timeoutCnt.trans h.timeoutCnt

theorem EndStep.ite {c : Prop} [Decidable c] {s t u : State} (h : EndStep s t) (k : EndStep s u) :
    EndStep s (if c then t else u) := by
  split
  · exact h
  · exact k

theorem EndStep.foldl {α : Type} {f : State → α → State} (step : ∀ s a, EndStep s (f s a)) (l : List α) (s : State) :
    EndStep s (l.foldl f s) := by
  induction l generalizing s with
  | nil => exact .refl s
  | cons a l ih => exact (step s a).trans (ih (f s a))

/-! ### Messages, frames and page events -/

theorem endStep_emit (s : State) (o : Out) : EndStep s (s.emit o) := .sends rfl rfl rfl rfl

theorem endStep_signal (s : State) (n l : Nat) : EndStep s (s.signal n l) := by
  obtain ⟨m, o, e⟩ := signal_frame s n l
  rw [e]
  exact .sends rfl rfl rfl rfl

theorem endStep_setSt (s : State) (p : Page) (st : BlockState) (fc : Nat) : EndStep s (s.setSt p st fc) := by
  obtain ⟨h, m, o, e⟩ := setSt_frame s p st fc
  rw [e]
  exact .sends rfl rfl rfl rfl

theorem endStep_sendOne (s : State) (p typ flags src dst : Nat) (payload : Bytes) :
    EndStep s (s.sendOne p typ flags src dst payload) :=
  .ite (.refl s) (.ite (.sends rfl rfl rfl rfl) (.sends rfl rfl rfl rfl))

theorem endStep_sendRaw (s : State) (p typ flags src dst : Nat) (msg : Bytes) :
    EndStep s (s.sendRaw p typ flags src dst msg) :=
  .ite (endStep_sendOne ..) (.foldl (fun _ _ => endStep_sendOne ..) _ s)

theorem endStep_toHead (s : State) (typ : Nat) (msg : Bytes) : EndStep s (s.toHead typ msg) := by
  unfold State.toHead
  split
  · exact endStep_sendRaw ..
  · exact .refl s

/-! ### Records -/

theorem ite_out {c : Prop} [Decidable c] {s t u : State} (h : t.out = s.out) (k : u.out = s.out) :
    (if c then t else u).out = s.out := by
  split
  · exact h
  · exact k

theorem enter_out (s : State) (typ sev src : Nat) (c : Bytes) : (s.enter typ sev src c).out = s.out := ite_out rfl rfl

theorem poolWord_out (s : State) : s.poolWord.2.out = s.out := by
  unfold State.poolWord
  split
  · rfl
  · rfl

theorem genInternal_out (s : State) (n : Nat) : (s.genInternal n).2.out = s.out :=
  have seeded : (if s.mustReseed n then s.reseed n else s).out = s.out := ite_out (poolWord_out s) rfl
  ite_out seeded seeded

theorem ownDraw_out (s : State) : s.ownDraw.2.out = s.out := by
  unfold State.ownDraw
  split
  · rfl
  · split
    · rfl
    · exact ite_out ((enter_out ..).trans (genInternal_out ..)) (genInternal_out ..)

theorem cpSign_out (s : State) (x h b : Bytes) : (s.cpSign x h b).2.out = s.out := by
  unfold State.cpSign
  split
  · rfl
  · rfl

/-- A checkpoint sends nothing but the message of its own page event. -/
theorem checkpoint_out (s : State) : s.out <+: s.checkpoint.out := by
  unfold State.checkpoint
  split
  · dsimp only
    obtain ⟨h, m, o, e⟩ := raise_frame _ .ldg 16
    rw [e]
    exact ⟨o, congrArg (· ++ o) ((cpSign_out ..).trans (ownDraw_out s)).symm⟩
  · exact List.prefix_rfl

theorem record_out (s : State) (typ sev src : Nat) (c : Bytes) : s.out <+: (s.record typ sev src c).out := by
  have due : (s.enter typ sev src c).out <+: (s.enter typ sev src c).cpDue.out := by
    unfold State.cpDue
    split
    · exact checkpoint_out _
    · exact List.prefix_rfl
  rwa [enter_out] at due

theorem endStep_record (s : State) (typ sev src : Nat) (c : Bytes) : EndStep s (s.record typ sev src c) := by
  have frame := logged_record s typ sev src c
  refine ⟨?_, record_out s typ sev src c, ?_, ?_⟩
  · rw [frame]; rfl
  · rw [frame]; exact List.Subset.refl _
  · rw [frame]

theorem endStep_traceRec (s : State) (typ src : Nat) (c : Bytes) : EndStep s (s.traceRec typ src c) :=
  .ite (endStep_record ..) (.refl s)

/-! ### Engines, keys and curves given back -/

theorem endStep_engDrop (s : State) (g : Engine) : EndStep s (s.engDrop g) :=
  .foldl (fun _ _ => .ite (endStep_setSt ..) (.refl _)) _ s

theorem endStep_tileCount (s : State) (g : Engine) : EndStep s (s.tileCount g) := by
  unfold State.tileCount
  split
  · exact .still rfl rfl rfl rfl
  · exact .refl s

theorem endStep_returned (s : State) (j : Job) (count : Bool) : EndStep s (s.returned j count) := by
  have units (l : List Engine) (a : State) : EndStep a (l.foldl State.engDrop a) := .foldl endStep_engDrop l a
  unfold State.returned
  refine .trans ?_ (.foldl (fun a i => .trans ?_ (units i.hash _)) j.items _)
  · split
    · exact (EndStep.ite (endStep_tileCount ..) (.refl s)).trans ((endStep_engDrop ..).trans (units ..))
    · exact .refl s
  · split
    · split
      · exact endStep_engDrop ..
      · exact .refl a
    · exact .refl a

theorem endStep_reap (s : State) : EndStep s s.reap := .still rfl rfl rfl rfl

theorem endStep_reapCurves (s : State) : EndStep s s.reapCurves := .still rfl rfl rfl rfl

theorem endStep_bpNote (s : State) : EndStep s s.bpNote := .still rfl rfl rfl rfl

/-- Whatever the wipes of a stop find, they are a part of an ending (R24, R137). -/
theorem endStep_stopWipes (s : State) (n : Nat) (l : List Engine) : EndStep s (s.stopWipes n l) := by
  refine .ite (.refl s) (.foldl (fun a x => ?_) _ s)
  unfold State.wipeNote
  split
  · exact (endStep_setSt ..).trans (endStep_record ..)
  · exact .refl a

/-! ### The completion word -/

theorem endStep_dropJob (s : State) (id : Nat) : EndStep s { s with jobs := s.jobs.filter fun x => x.id != id } :=
  ⟨rfl, List.prefix_rfl, fun _ kept => (List.mem_filter.1 kept).1, rfl⟩

theorem endStep_putRing (s : State) (sl r : Nat) (g : Ring) : EndStep s (s.putRing sl r g) :=
  .still rfl rfl rfl rfl

theorem endStep_issueWord (s : State) (j : Job) (c : Completion) : EndStep s (s.issueWord j c) := by
  refine .trans (.trans (endStep_emit s (.write j.pasid j.addr (completionWord j.entry c.code c.detail)))
    (endStep_dropJob _ j.id)) ?_
  unfold State.issueWord
  dsimp only
  split
  · exact .refl _
  · exact .ite ((endStep_putRing ..).trans (endStep_signal ..)) (endStep_putRing ..)

theorem endStep_flushRing (sl r fuel : Nat) (s : State) : EndStep s (flushRing sl r fuel s) := by
  induction fuel generalizing s with
  | zero => exact .refl s
  | succ n ih =>
    unfold flushRing
    split
    · split
      · exact (endStep_issueWord ..).trans (ih _)
      · exact .refl s
    · exact .refl s

/-! ### The ending as a whole -/

/-- A job's record once it has ended. -/
def endedJob (j : Job) (c : Completion) (n : Nat) : Job :=
  { j with phase := .done, bnd := none, items := [], fin := some c, finSeq := n }

/-- The record that stands under a job's number once it was put there. -/
theorem eq_of_mem_putJob {s : State} {j x : Job} (h : x ∈ (s.putJob j).jobs) (same : x.id = j.id) : x = j := by
  obtain ⟨y, _, rfl⟩ := List.mem_map.1 h
  split
  · rfl
  · next other => exact absurd same (by simp [other] at same)

/-- The state once a job's output, OUT_LEN and RESULT have left (R54 steps 1 and 2). -/
def endWritten (s : State) (j : Job) (c : Completion) (out : Bytes) : State := { s with out := s.out ++ endWrites j c out }

theorem emit_endWrites (s : State) (j : Job) (c : Completion) (out : Bytes) :
    ((if out.isEmpty then s else s.emit (.write j.pasid (eOutAddr j.entry) out)).emit
      (.write j.pasid ((j.addr + 0x2C) % 2 ^ 64) (toLE 4 c.outLen))).emit
        (.write j.pasid ((j.addr + 0x70) % 2 ^ 64) (Bytes.fit c.result 16)) = endWritten s j c out := by
  unfold endWritten endWrites
  cases out.isEmpty <;> simp [State.emit]

/-- The TRACE record of an ending, where one is due (R386). -/
def endTraced (s : State) (j : Job) (c : Completion) (recorded : Bool) : State :=
  let gid := match s.ring j.slice j.ring with | some g => g.gid | none => 0
  if c.code != 0 && !recorded then
    s.traceRec 0x0204 (srcSlice j.slice) (toLE 4 gid ++ toLE 2 (eOp j.entry) ++ toLE 2 c.code ++ toLE 2 c.detail ++ zeros 6)
  else s

/-- The state once an ending job's engines are given back and none of its items waits any longer. -/
def woundUp (s : State) (j : Job) : State :=
  let u := s.returned j j.started
  { u with
    qsc := { u.qsc with nextFin := u.qsc.nextFin + 1 }
    eng := { u.eng with itemQueue := u.eng.itemQueue.filter fun q => q.1 != j.id } }

/-- The words that a ring issues once a job of it has ended, and what is freed then. -/
def wordsIssued (s : State) (sl r fuel : Nat) : State := (flushRing sl r fuel s).reap.reapCurves.bpNote

/-- The ending of a job of the host's (R54), part by part. -/
theorem finish_eq_of_host {s : State} {j : Job} (c : Completion) (out : Bytes) (recorded : Bool) (heard : s.mute = false)
    (host : j.remote = none) :
    let u := endTraced (endWritten s j c out) j c recorded
    s.finish j c out recorded =
      wordsIssued ((woundUp u j).putJob (endedJob j c (u.returned j j.started).qsc.nextFin)) j.slice j.ring
        ((woundUp u j).jobs.length + 1) := by
  unfold State.finish
  rw [if_neg (by simp [heard])]
  split
  · next r head => rw [host] at head; cases head
  · dsimp only
    rw [emit_endWrites]
    rfl

theorem endStep_endWritten (s : State) (j : Job) (c : Completion) (out : Bytes) : EndStep s (endWritten s j c out) :=
  .sends rfl rfl rfl rfl

theorem endStep_woundUp (s : State) (j : Job) (c : Completion) (recorded : Bool) :
    EndStep s (woundUp (endTraced s j c recorded) j) :=
  have traced : EndStep s (endTraced s j c recorded) := .ite (endStep_traceRec ..) (.refl s)
  traced.trans ((endStep_returned _ j j.started).trans (.still rfl rfl rfl rfl))

theorem endStep_wordsIssued (s : State) (sl r fuel : Nat) : EndStep s (wordsIssued s sl r fuel) :=
  (endStep_flushRing ..).trans ((endStep_reap _).trans ((endStep_reapCurves _).trans (endStep_bpNote _)))

/-- The parts of that ending before the job's record reads ended, and after. -/
theorem finish_host {s : State} {j : Job} (c : Completion) (out : Bytes) (recorded : Bool) (heard : s.mute = false)
    (host : j.remote = none) :
    ∃ u n, EndStep (endWritten s j c out) u ∧ EndStep (u.putJob (endedJob j c n)) (s.finish j c out recorded) := by
  rw [finish_eq_of_host c out recorded heard host]
  exact ⟨_, _, endStep_woundUp .., endStep_wordsIssued ..⟩

theorem endStep_leaveNow (s : State) : EndStep s s.leaveNow := by
  unfold State.leaveNow
  split
  · exact .ite (.refl s) ((endStep_toHead ..).trans (.still rfl rfl rfl rfl))
  · exact .refl s

/-- The ending of a job that runs here for a cluster's head (R303): its record goes, and a frame answers. -/
theorem finish_head {s : State} {j : Job} {r : RemoteJob} (c : Completion) (out : Bytes) (recorded : Bool)
    (heard : s.mute = false) (head : j.remote = some r) :
    EndStep s (s.finish j c out recorded) ∧ ∀ x ∈ (s.finish j c out recorded).jobs, x.id ≠ j.id := by
  have answered : EndStep { s.returned j j.started with jobs := (s.returned j j.started).jobs.filter fun x => x.id != j.id }
      (s.finish j c out recorded) := by
    unfold State.finish
    rw [if_neg (by simp [heard]), head]
    exact (endStep_toHead ..).trans ((endStep_leaveNow _).trans (endStep_bpNote _))
  refine ⟨((endStep_returned ..).trans (endStep_dropJob _ j.id)).trans answered, fun x hx => ?_⟩
  simpa using (List.mem_filter.1 (answered.jobs hx)).2

/-- A job's ending ends it, unless PFW_N has fallen (R54, R400). -/
theorem finish_ends {s : State} (j : Job) (c : Completion) (out : Bytes) (recorded : Bool) (heard : s.mute = false) :
    Ends s (s.finish j c out recorded) j c out := by
  cases host : j.remote with
  | none =>
    obtain ⟨u, n, before, after⟩ := finish_host c out recorded heard host
    obtain ⟨rest, sent⟩ := before.out.trans after.out
    have put : EndChanges u (u.putJob (endedJob j c n)) := rfl
    have written := (endStep_endWritten s j c out).trans before
    have changes := endChanges_trans written.changes (endChanges_trans put after.changes)
    unfold Ends
    rw [host]
    refine ⟨⟨⟨[], rest, ?_, rfl⟩, fun x hx same => ?_⟩, endFrame_of_endChanges changes⟩
    · rw [List.append_nil, ← sent, endWritten]
    · rw [eq_of_mem_putJob (after.jobs hx) same]
      exact ⟨rfl, rfl⟩
  | some r =>
    obtain ⟨step, gone⟩ := finish_head c out recorded heard host
    unfold Ends
    rw [host]
    exact ⟨gone, endFrame_of_endChanges step.changes⟩

/-- No ending counts a job as stopped at its time limit. -/
theorem finish_timeoutCnt (s : State) (j : Job) (c : Completion) (out : Bytes) (recorded : Bool) :
    (s.finish j c out recorded).qsc.timeoutCnt = s.qsc.timeoutCnt := by
  cases heard : s.mute with
  | true => rw [finish_mute _ _ _ _ _ heard]
  | false =>
    cases host : j.remote with
    | none =>
      obtain ⟨u, n, before, after⟩ := finish_host c out recorded heard host
      exact after.timeoutCnt.trans before.timeoutCnt
    | some r => exact (finish_head c out recorded heard host).1.timeoutCnt

/-! ### Aborts -/

theorem endFrame_trans {s t u : State} (h : EndFrame s t) (k : EndFrame t u) : EndFrame s u :=
  ⟨k.glb.trans h.glb, k.regs.trans h.regs, k.wideHeld.trans h.wideHeld, k.latch.trans h.latch, k.baro.trans h.baro,
    k.pwr.trans h.pwr, k.svc.trans h.svc, k.lcs.trans h.lcs, k.tmp.trans h.tmp, k.isl.trans h.isl, k.held.trans h.held⟩

/-- What goes before a job's ending and sends nothing leaves it that ending. -/
theorem ends_of_silent_before {s u t : State} {j : Job} {c : Completion} {out : Bytes} (h : EndChanges s u)
    (silent : u.out = s.out) (e : Ends u t j c out) : Ends s t j c out := by
  obtain ⟨ending, frame⟩ := e
  rw [silent] at ending
  exact ⟨ending, endFrame_trans (endFrame_of_endChanges h) frame⟩

/-- What follows a job's ending leaves it that ending. -/
theorem ends_of_after {s t u : State} {j : Job} {c : Completion} {out : Bytes} (e : Ends s t j c out) (h : EndStep t u) :
    Ends s u j c out := by
  obtain ⟨ending, frame⟩ := e
  refine ⟨?_, endFrame_trans frame (endFrame_of_endChanges h.changes)⟩
  cases host : j.remote with
  | none =>
    rw [host] at ending
    obtain ⟨⟨pre, rest, sent, quiet⟩, records⟩ := ending
    obtain ⟨more, later⟩ := h.out
    refine ⟨⟨pre, rest ++ more, ?_, quiet⟩, fun x hx => records x (h.jobs hx)⟩
    rw [← later, sent, List.append_assoc]
  | some r =>
    rw [host] at ending
    exact fun x hx => ending x (h.jobs hx)

/-- The state in which a job that stops ends: the free value is drawn, and its stream is closed (R67, R175). -/
def streamClosed (s : State) (j : Job) : State :=
  let s0 : State := { s with freeN := s.freeN + 1 }
  match j.bnd with
  | some b => (match b.stream with | some n => s0.closeStream j.slice n | none => s0)
  | none => s0

theorem streamClosed_changes (s : State) (j : Job) :
    EndChanges s (streamClosed s j) ∧ (streamClosed s j).out = s.out ∧ (streamClosed s j).qsc = s.qsc := by
  unfold streamClosed
  dsimp only
  split
  · split
    · exact ⟨rfl, rfl, rfl⟩
    · exact ⟨rfl, rfl, rfl⟩
  · exact ⟨rfl, rfl, rfl⟩

/-- How a job that stops ends (R24, R67, R89): ABORTED, with what it had released. -/
def aborted (s : State) (j : Job) (detail : Nat) : Completion :=
  let p := s.stopAt j
  { code := cAborted, detail := detail, outLen := p.1.length, result := s.stopRes p.2 j.left }

/-- A stop finds a job as it stands, but for how much of its output it had released (R177). -/
theorem stopAt_job (s : State) (j : Job) : ∃ n, (s.stopAt j).2 = { j with released := n } := by
  unfold State.stopAt
  split
  · split
    · exact ⟨j.released, rfl⟩
    · exact ⟨_, rfl⟩
  · exact ⟨j.released, rfl⟩

theorem abortJob_eq (s : State) (j : Job) (detail : Nat) :
    s.abortJob j detail =
      ((streamClosed s j).finish (s.stopAt j).2 (aborted s j detail) (s.stopAt j).1 false).stopWipes s.freeN j.engines := by
  unfold State.abortJob aborted streamClosed
  cases s.stopAt j with
  | mk pre stopped => rfl

/-- A job stopped ends ABORTED with the output it had released (R67, R89, R177). -/
theorem abortJob_ends {s : State} (j : Job) (detail : Nat) (heard : s.mute = false) :
    Ends s (s.abortJob j detail) j (aborted s j detail) (s.stopAt j).1 := by
  obtain ⟨changes, silent, _⟩ := streamClosed_changes s j
  have heard' : (streamClosed s j).mute = false := by rw [changes]; exact heard
  have ended := finish_ends (s.stopAt j).2 (aborted s j detail) (s.stopAt j).1 false heard'
  have same : Ends (streamClosed s j) ((streamClosed s j).finish (s.stopAt j).2 (aborted s j detail) (s.stopAt j).1 false) j
      (aborted s j detail) (s.stopAt j).1 := by
    obtain ⟨n, stopped⟩ := stopAt_job s j
    rw [stopped] at ended ⊢
    exact ended
  rw [abortJob_eq]
  exact ends_of_after (ends_of_silent_before changes silent same) (endStep_stopWipes ..)

/-- No abort counts a job as stopped at its time limit. -/
theorem abortJob_timeoutCnt (s : State) (j : Job) (detail : Nat) :
    (s.abortJob j detail).qsc.timeoutCnt = s.qsc.timeoutCnt := by
  obtain ⟨_, _, qsc⟩ := streamClosed_changes s j
  rw [abortJob_eq, (endStep_stopWipes ..).timeoutCnt, finish_timeoutCnt, qsc]

end Sys2Proof.Proofs.JobEnd
end

