-- ==== Sys2Proof/Proofs/Scheduler.lean ====
section
/-! SUPPORT. The registers of the QSC page and the job time limit (R78, R88, R89); O15. -/
namespace Sys2Proof.Proofs.Scheduler
open Sys2Proof Sys2Proof.Machine Sys2Proof.Laws Sys2Proof.Proofs.JobEnd

/-! ### The QSC page -/

/-- A slice's record with another weight, its credit lowered to it (R78). -/
def weighted (v : Slice) (w : Nat) : Slice := { v with weight := w, credit := Nat.min v.credit w }

/-- An occupied slice takes a weight other than 0; a change counts in PG_GEN (R37, R88). -/
theorem qscSliceWeightBody_taken {s : State} {x : BitVec 32} (answers : s.pageAnswers .qsc = true ∧ noWrites .qsc = false)
    (occupied : sliceOpen (s.slice (fld (s.rg .qsc 0x040) 0 12)) = true) (weight : fld x 0 8 ≠ 0) :
    let n := fld (s.rg .qsc 0x040) 0 12
    let t := s.setSlice n (weighted (s.slice n) (fld x 0 8))
    qscSliceWeightBody x s = t ∨ qscSliceWeightBody x s = t.bumpGen .qsc := by
  rw [qscSliceWeightBody, onPage_answers s .qsc _ answers]
  simp only [occupied, weight, Bool.not_true, Bool.false_eq_true, if_false]
  split
  · exact .inl rfl
  · exact .inr rfl

/-- The write of QSC_SLICE_WEIGHT: a slice's weight and credit change, and PG_GEN. -/
theorem qscSliceWeight (s : State) (x : BitVec 32) (reach : s.reach .qsc) :
    let n := fld (s.rg .qsc 0x040) 0 12
    sliceOpen (s.slice n) = true → fld x 0 8 ≠ 0 →
    Completes (.qscSliceWeightWrite x) s fun t =>
      t.slice n = { s.slice n with weight := fld x 0 8, credit := Nat.min (s.slice n).credit (fld x 0 8) } ∧
      (∀ k, k ≠ n → NMap.find t.slices k = NMap.find s.slices k) ∧ t = { s with slices := t.slices, hdr := t.hdr } := by
  intro n occupied weight
  obtain ⟨awake, answers⟩ := reach
  have run : exec (.qscSliceWeightWrite x) s = .next (qscSliceWeightBody x s) :=
    congrArg _ (hostReq_awake s _ _ awake)
  refine ⟨_, run, ?_⟩
  rcases qscSliceWeightBody_taken answers occupied weight with e | e <;> rw [e]
  · exact ⟨slice_setSlice .., fun k other => find_set_ne _ _ other, rfl⟩
  · exact ⟨slice_setSlice .., fun k other => find_set_ne _ _ other, rfl⟩

/-- Where every mark is at 0, each takes its FIFO's fill. -/
theorem hwmUp_of_zero {s : State} (zero : s.qsc.hwm = [0, 0, 0, 0, 0, 0]) :
    s.hwmUp = { s with qsc := { s.qsc with
      hwm := [s.fill .pk, s.fill .bulk, s.fill .sym, s.fill .key, s.fill .rng, s.eng.itemQueue.length] } } := by
  have above (a : Nat) : Nat.max 0 a = a := Nat.zero_max a
  simp only [State.hwmUp, zero, List.zipWith_cons_cons, List.zipWith_nil_left, above]

/-- The high-water marks come down to the fills (Table 4.4). -/
theorem hwmClr (s : State) (reach : s.reach .qsc) :
    Completes .hwmClr s fun t =>
      t = { s with qsc := { s.qsc with
        hwm := [s.fill .pk, s.fill .bulk, s.fill .sym, s.fill .key, s.fill .rng, s.eng.itemQueue.length] } } := by
  have run : exec .hwmClr s = .next ({ s with qsc := { s.qsc with hwm := [0, 0, 0, 0, 0, 0] } } : State).hwmUp :=
    congrArg _ (hostReq_reach s _ .qsc _ reach)
  exact ⟨_, run, hwmUp_of_zero rfl⟩

/-! ### The time limit -/

/-- QSC_TIMEOUT_CNT counts one job stopped (R89). -/
def timeoutCounted (s : State) : State := { s with qsc := { s.qsc with timeoutCnt := satAdd 32 s.qsc.timeoutCnt 1 } }

/-- A bound job that reaches the limit it has is counted and stopped (R89). -/
theorem exec_jobTimeLimit {s : State} {id : Nat} {j : Job} {b : Bound} (heard : s.mute = false) (found : s.job id = some j)
    (bound : j.bnd = some b) (limit : b.limit ≠ 0) (runs : j.phase ≠ .done) :
    exec (.jobTimeLimit id) s = .next ((timeoutCounted s).abortJob j 0x10) := by
  show execJobTimeLimit id s = _
  simp [execJobTimeLimit, found, bound, limit, runs, heard, timeoutCounted]

theorem jobTimeLimit : Clause.JobTimeLimit := by
  intro s id j b heard found bound limit runs
  refine ⟨_, exec_jobTimeLimit heard found bound limit runs, abortJob_timeoutCnt .., ?_⟩
  have stop : aborted (timeoutCounted s) j 0x10 = aborted s j 0x10 := rfl
  have left : j.left = b.tallyLeft := by rw [Job.left, bound]
  have ended := abortJob_ends (s := timeoutCounted s) j 0x10 heard
  rw [stop, aborted, left] at ended
  exact ends_of_silent_before (u := timeoutCounted s) rfl rfl ended

/-- Settles O15: the two registers, and a job at its time limit as any abort. -/
theorem schedulerAndTimeLimit : Obligations.SchedulerAndTimeLimit := ⟨⟨qscSliceWeight, hwmClr⟩, jobTimeLimit⟩

end Sys2Proof.Proofs.Scheduler
end

