-- ==== Sys2Proof/Proofs/Barometer.lean ====
section
/-! SUPPORT. The Barometer, its loop and the registers of its page (R83 to R87); O16. -/
namespace Sys2Proof.Proofs.Barometer
open Sys2Proof Sys2Proof.Machine Sys2Proof.Laws

/-! ### The voltage that the loop commands (R87) -/

/-- BARO_VLIM.VMIN. -/
def vMin (s : State) : Nat := fld (s.rg .baro 0x058) 0 10

/-- BARO_VLIM.VMAX. -/
def vMax (s : State) : Nat := fld (s.rg .baro 0x058) 16 10

/-- The floor is never below VMIN. -/
theorem vMin_le_vFloor (s : State) : vMin s ≤ s.vFloor := by
  unfold State.vFloor
  dsimp only
  split
  · exact Nat.le_max_left ..
  · exact Nat.le_refl _

/-- The step before its limits: the floor below 0 °C, 5 mV up or down, or none. -/
def vStep (s : State) : Nat :=
  let target := fld (s.rg .baro 0x04C) 0 16
  let v := s.baro.v
  if s.tmp.tj < 0 && v < s.vFloor then s.vFloor
  else if s.baro.pace + 0x10 < target && v < vMax s then v + 5
  else if target + 0x10 < s.baro.pace && s.vFloor < v then max (v - 5) s.vFloor
  else v

theorem vNext_eq (s : State) : s.vNext = min (max (vStep s) (vMin s)) (vMax s) := rfl

/-- No command lies above VMAX (R87). -/
theorem vNext_le_vMax (s : State) : s.vNext ≤ vMax s := Nat.min_le_right ..

/-- From a voltage not below the floor a step goes at most 5 mV, and not below the floor. -/
theorem vStep_near {s : State} (low : s.vFloor ≤ s.baro.v) :
    s.baro.v ≤ vStep s + 5 ∧ s.vFloor ≤ vStep s ∧ vStep s ≤ s.baro.v + 5 := by
  unfold vStep
  dsimp only
  split
  · next cold =>
      simp only [Bool.and_eq_true, decide_eq_true_eq] at cold
      omega
  · split
    · omega
    · split
      · omega
      · omega

/-- From a voltage within its limits the loop goes at most 5 mV, and stays within them (R87). -/
theorem vNext_near {s : State} (low : s.vFloor ≤ s.baro.v) (high : s.baro.v ≤ vMax s) :
    s.vNext ≤ s.baro.v + 5 ∧ s.baro.v ≤ s.vNext + 5 ∧ s.vFloor ≤ s.vNext := by
  have floor := vMin_le_vFloor s
  obtain ⟨down, above, up⟩ := vStep_near low
  rw [vNext_eq]
  omega

/-! ### BARO_UPDATE -/

/-- The state once a reading and the samples of its millisecond are in (R83, R85, Table 15.13). -/
def sampled (s : State) (x : BaroSample) : State :=
  let pace := Nat.max 0x1CD (Nat.min x.pace 0x500)
  { s with
    baro := { s.baro with pace := pace, seq := (s.baro.seq + 1) % 2 ^ 16, min := Nat.min s.baro.min pace }
    tmp := { s.tmp with tj := x.tj.toInt, vcap := x.vcap.toNat } }

theorem exec_baroUpdate {s : State} (x : BaroSample) (ack : Bool) (linked : s.linked = true) :
    exec (.baroUpdate x ack) s = .next ((sampled s x).loopStep ack) := by
  show execBaroUpdate x ack s = _
  simp only [execBaroUpdate, linked, Bool.not_true, Bool.false_eq_true, if_false, sampled]

/-- A loop that does not run does nothing. -/
theorem loopStep_stopped {s : State} (ack : Bool) (off : s.baro.loop = false) : s.loopStep ack = s := by
  simp only [State.loopStep, off, Bool.not_false, if_true]

/-- A loop whose command is not acknowledged fails (R87). -/
theorem loopStep_failed {s : State} (on : s.baro.loop = true) : s.loopStep false = s.pmbFail 0x21 := by
  simp only [State.loopStep, on, Bool.not_true, Bool.not_false, Bool.false_eq_true, if_false, if_true]

/-- A loop that runs commands its next voltage, and shows it, CEIL and FLOOR (R87). -/
theorem loopStep_commands {s : State} (on : s.baro.loop = true) :
    let target := fld (s.rg .baro 0x04C) 0 16
    s.loopStep true = { s with
      baro := { s.baro with
        v := s.vNext, vdd := s.vNext, ceil := s.baro.pace < target && s.vNext = vMax s
        floor := target < s.baro.pace && s.vNext = s.vFloor }
      out := s.out ++ [.pmbus (fld (s.rg .baro 0x05C) 0 7) (fld (s.rg .baro 0x05C) 8 8) s.vNext] } := by
  rw [State.loopStep, if_neg (by simp [on]), if_neg (by simp)]
  rfl

/-- A failure changes the loop's own fields, and what its record changes (R87). -/
theorem logged_pmbFail (s : State) (cmd : Nat) :
    Logged { s with baro := { s.baro with loop := false, pmbErr := true } } (s.pmbFail cmd) := logged_record ..

/-- Whatever the loop does, it leaves the reading, SEQ and MIN, the samples, jobs, registers and GLB. -/
theorem loopStep_frame (s : State) (ack : Bool) :
    let t := s.loopStep ack
    t.tmp = s.tmp ∧ t.baro.pace = s.baro.pace ∧ t.baro.seq = s.baro.seq ∧ t.baro.min = s.baro.min ∧ t.jobs = s.jobs ∧
      t.regs = s.regs ∧ t.glb = s.glb := by
  dsimp only
  cases on : s.baro.loop with
  | false =>
    rw [loopStep_stopped ack on]
    exact ⟨rfl, rfl, rfl, rfl, rfl, rfl, rfl⟩
  | true =>
    cases ack with
    | false =>
      rw [loopStep_failed on, logged_pmbFail s 0x21]
      exact ⟨rfl, rfl, rfl, rfl, rfl, rfl, rfl⟩
    | true =>
      rw [loopStep_commands on]
      exact ⟨rfl, rfl, rfl, rfl, rfl, rfl, rfl⟩

theorem barometerUpdate : Clause.BarometerUpdate := by
  intro s x ack linked u
  obtain ⟨tmp, pace, seq, min, jobs, regs, glb⟩ := loopStep_frame (sampled s x) ack
  refine ⟨_, exec_baroUpdate x ack linked, tmp, pace, seq, ?_, fun off => ?_, fun on acked => ?_, fun on lost => ?_,
    jobs, regs, glb⟩
  · rw [min, pace]; rfl
  · rw [loopStep_stopped (s := sampled s x) ack off]; rfl
  · subst acked
    rw [loopStep_commands (s := sampled s x) on]
    exact ⟨rfl, vNext_le_vMax (sampled s x), rfl, fun low high => vNext_near (s := sampled s x) low high⟩
  · subst lost
    rw [loopStep_failed (s := sampled s x) on, logged_pmbFail (sampled s x) 0x21]
    exact ⟨rfl, rfl⟩

/-! ### The registers of the page -/

/-- An interval of fewer than 64 reads leaves the round-trip fields (R84). -/
theorem hostRttInterval (s : State) (n mx mean : Nat) (running : s.running = true) :
    Completes (.hostRttInterval n mx mean) s fun t =>
      t = if n < 64 then s
        else { s with baro := { s.baro with rttMax := Nat.min mx 0xFFFF, rttMean := Nat.min mean 0xFFFF } } := by
  refine ⟨_, rfl, ?_⟩
  by_cases few : n < 64
  · simp [few]
  · simp [few, running]

theorem minClr (s : State) (reach : s.reach .baro) :
    Completes .minClr s fun t => t = { s with baro := { s.baro with min := s.baro.pace } } :=
  ⟨_, congrArg Host.Outcome.next (hostReq_reach s _ .baro _ reach), rfl⟩

/-- What a write of BARO_VLIM changes until PG_LOCK (R36). -/
theorem writable_vlim {s : State} (unlocked : (s.hd .baro).lock = false) : s.writable .baro 0x058 = 0x03FF03FF := by
  rw [writable_of_regDesc s rfl, unlocked]
  rfl

/-- What a write of BARO_TARGET changes. -/
theorem writable_target (s : State) : s.writable .baro 0x04C = 0xFFFF := by
  rw [writable_of_regDesc s rfl]
  cases (s.hd .baro).lock <;> rfl

/-- Limits in range and in order are taken (R86). -/
theorem baroVlimWrite (s : State) (x : BitVec 32) (reach : s.reach .baro) (unlocked : (s.hd .baro).lock = false)
    (lo : 600 ≤ fld x 0 10) (hi : fld x 16 10 ≤ 900) (order : fld x 0 10 ≤ fld x 16 10) :
    Completes (.baroVlimWrite x) s fun t =>
      t.rg .baro 0x058 = (s.rg .baro 0x058 &&& ~~~0x03FF03FF) ||| (x &&& 0x03FF03FF) ∧
        t = { s with regs := t.regs, hdr := t.hdr } := by
  have run : exec (.baroVlimWrite x) s = .next (s.writeRg .baro 0x058 x) := by
    show Host.Outcome.next (s.hostReq _ _) = _
    unfold vlimBody
    rw [hostReq_reach s _ .baro _ reach]
    simp [unlocked, Nat.not_lt.2 lo, Nat.not_lt.2 hi, Nat.not_lt.2 order]
  obtain ⟨reg, _, _, _, _, frame⟩ := writeRg_effect s .baro 0x058 x
  rw [written, writable_vlim unlocked] at reg
  exact ⟨_, run, reg, frame⟩

/-- A target in range is stored; a loop that stands still starts from what READ_VOUT gives (R87). -/
theorem targetBody_taken {s : State} {x : BitVec 32} (v : Nat)
    (answers : s.pageAnswers .baro = true ∧ noWrites .baro = false) (feat : s.devFeat 2 = true)
    (lo : 0x1CD ≤ fld x 0 16) (hi : fld x 0 16 ≤ 0x500) :
    let t := s.writeRg .baro 0x04C x
    targetBody x (some v) s =
      if t.baro.loop then t else { t with baro := { t.baro with loop := true, v := v, pmbErr := false } } := by
  have nonzero : fld x 0 16 ≠ 0 := by omega
  rw [targetBody, onPage_answers s .baro _ answers]
  simp [feat, nonzero, Nat.not_lt.2 lo, Nat.not_lt.2 hi]

/-- A target in range with the feature accepted starts the loop from what READ_VOUT gives, or retargets it (R86, R87). -/
theorem baroTargetWrite (s : State) (x : BitVec 32) (v : Nat) (reach : s.reach .baro) (feat : s.devFeat 2 = true)
    (lo : 0x1CD ≤ fld x 0 16) (hi : fld x 0 16 ≤ 0x500) :
    Completes (.baroTargetWrite x (some v)) s fun t =>
      t.rg .baro 0x04C = (s.rg .baro 0x04C &&& ~~~0xFFFF) ||| (x &&& 0xFFFF) ∧ t.baro.loop = true ∧
        t.baro.v = (if s.baro.loop then s.baro.v else v) ∧ t.jobs = s.jobs ∧ t.out = s.out := by
  obtain ⟨awake, answers⟩ := reach
  have run : exec (.baroTargetWrite x (some v)) s = .next (targetBody x (some v) s) := congrArg _ (hostReq_awake s _ _ awake)
  obtain ⟨reg, _, _, _, _, frame⟩ := writeRg_effect s .baro 0x04C x
  rw [written, writable_target s] at reg
  refine ⟨_, run, ?_⟩
  rw [targetBody_taken v answers feat lo hi]
  generalize s.writeRg .baro 0x04C x = t at reg frame
  have baro : t.baro = s.baro := by rw [frame]
  have jobs : t.jobs = s.jobs := by rw [frame]
  have out : t.out = s.out := by rw [frame]
  dsimp only
  rw [baro]
  cases on : s.baro.loop with
  | true =>
    rw [if_pos rfl, baro]
    exact ⟨reg, on, rfl, jobs, out⟩
  | false => exact ⟨reg, rfl, rfl, jobs, out⟩

/-- Settles O16: a reading by what the loop does then, the page's registers one by one. -/
theorem barometerUpdates : Obligations.BarometerUpdates :=
  ⟨barometerUpdate, hostRttInterval, minClr, baroVlimWrite, baroTargetWrite⟩

end Sys2Proof.Proofs.Barometer
end

