-- ==== Sys2Proof/Proofs/BenchReadback.lean ====
section
/-! SUPPORT. Integers in a tile's operand memory and the bench commands that leave one there (R106, R135, R136); O24. -/
namespace Sys2Proof.Proofs.Bench
open Sys2Proof Sys2Proof.Machine Sys2Proof.Laws

/-! ### Limbs -/

@[simp] theorem length_limbs (n v : Nat) : (limbs n v).length = n := by
  induction n generalizing v with
  | zero => rfl
  | succ n ih => simp [limbs, ih]

/-- Limbs are words of 40 bits. -/
theorem lt_of_mem_limbs {n v w : Nat} (h : w ∈ limbs n v) : w < 2 ^ 40 := by
  induction n generalizing v with
  | zero => cases h
  | succ n ih =>
    rcases List.mem_cons.1 h with rfl | later
    · exact Nat.mod_lt _ (by decide)
    · exact ih later

/-- Held as 40-bit words, limbs stay what they are. -/
theorem toNat_ofNat_limbs (n v : Nat) : ((limbs n v).map (BitVec.ofNat 40)).map BitVec.toNat = limbs n v := by
  rw [List.map_map]
  refine (List.map_congr_left fun w hw => ?_).trans (List.map_id _)
  exact Nat.mod_eq_of_lt (lt_of_mem_limbs hw)

/-- A region's integer is its first word and 2^40 times that of the rest (R106). -/
theorem num_succ (t : Tile) (a n : Nat) : t.num a (n + 1) = t.word a + 2 ^ 40 * t.num (a + 1) n := by
  have rest : (List.range n).map (fun i => t.word (a + (i + 1))) = t.words (a + 1) n :=
    List.map_congr_left fun i _ => congrArg t.word (by omega)
  simp only [Tile.num, Tile.words, List.range_succ_eq_map, List.map_cons, List.map_map, List.foldr_cons, Nat.add_zero]
  rw [show ((fun i => t.word (a + i)) ∘ Nat.succ) = fun i => t.word (a + (i + 1)) from rfl, rest, Tile.words]

/-- A region whose words are an integer's limbs reads as that integer (R106). -/
theorem num_of_limbs {t : Tile} {a n v : Nat} (h : ∀ i (_ : i < (limbs n v).length), t.word (a + i) = (limbs n v)[i]) :
    t.num a n = v % 2 ^ (40 * n) := by
  induction n generalizing a v with
  | zero => exact (Nat.mod_one v).symm
  | succ n ih =>
    have first : t.word a = v % 2 ^ 40 := h 0 (by simp)
    have rest : t.num (a + 1) n = v / 2 ^ 40 % 2 ^ (40 * n) := ih fun i hi => by
      have := h (i + 1) (by simpa using hi)
      rwa [show a + (i + 1) = a + 1 + i by omega] at this
    rw [num_succ, first, rest, Nat.mul_succ, Nat.add_comm (40 * n) 40, Nat.pow_add, ← Nat.mod_mul]

/-- An integer stored as limbs reads back modulo 2^40 for each limb. -/
theorem num_store_limbs (t : Tile) (a n v : Nat) : (t.store a (limbs n v)).num a n = v % 2 ^ (40 * n) :=
  num_of_limbs fun i hi => by
    rw [word_store t a _ i hi, Nat.mod_eq_of_lt (lt_of_mem_limbs (List.getElem_mem hi))]

/-! ### A command from GO to its end -/

/-- A tile that has been given a command with a limb count (R134). -/
def issued (x : Tile) (o : BenchOp) (l : Nat) : Tile := { x with op := o.op, l := l }

/-- A tile on which a command that meets no condition runs, its words held until it ends (R135). -/
def started (x : Tile) (o : BenchOp) (l : Nat) (words : List Nat) : Tile :=
  { issued x o l with busy := true, result := some (words.map (BitVec.ofNat 40)), waves := o.waves }

/-- A modular command on an idle tile in bench mode that meets no condition of Table 6.8 runs. -/
theorem benchGo_runs {s : State} {n : Fin 96} {l : BitVec 8} {o : BenchOp} {f : Tile → Nat → List Nat} {m k : Nat}
    (answers : s.pageAnswers (.pkt n) = true ∧ noWrites (.pkt n) = false) (bench : (s.tile n.val).bench = true)
    (idle : (s.tile n.val).busy = false) (modulus : (s.tile n.val).modulus = some (m, k))
    (clean : benchErr (issued (s.tile n.val) o l.toNat) o l.toNat = none) :
    s.benchGo n l o f =
      s.setTile n.val (started (s.tile n.val) o l.toNat (f (issued (s.tile n.val) o l.toNat) m)) := by
  rw [State.benchGo, State.onBench, onPage_answers s _ _ answers, if_neg (by simp [bench]), if_neg (by simp [idle])]
  unfold issued at clean
  dsimp only at clean ⊢
  rw [clean]
  simp only [modulus, started, issued]

/-- A command that computes words ends with them at D (R136). -/
theorem benchDone_stores {s : State} {n : Fin 96} {w : List (BitVec 40)} (busy : (s.tile n.val).busy = true)
    (setmod : (s.tile n.val).op ≠ 1) (cmp : (s.tile n.val).op ≠ 9) (result : (s.tile n.val).result = some w) :
    benchDone n .ok none s =
      s.setTile n.val (({ s.tile n.val with busy := false, done := true, err := 0, result := none } : Tile).store
        (s.tile n.val).d (w.map BitVec.toNat)) := by
  simp only [benchDone, busy, setmod, cmp, result, Bool.not_true, Bool.false_eq_true, if_false, reduceCtorEq, Option.getD_some]

/-- Once a command that runs with an integer's limbs has ended, the integer stands at D (R106, R136). -/
theorem benchDone_reads_back {s : State} {n : Fin 96} {x : Tile} {o : BenchOp} {l v : Nat} (setmod : o.op ≠ 1)
    (cmp : o.op ≠ 9) :
    let t := benchDone n .ok none (s.setTile n.val (started x o l (limbs l v)))
    (t.tile n.val).num x.d l = v % 2 ^ (40 * l) := by
  have runs := tile_setTile s n.val (started x o l (limbs l v))
  have ended := benchDone_stores (s := s.setTile n.val (started x o l (limbs l v))) (n := n)
    (w := (limbs l v).map (BitVec.ofNat 40)) (by rw [runs]; rfl) (by rw [runs]; exact setmod) (by rw [runs]; exact cmp)
    (by rw [runs]; rfl)
  simp only [ended, tile_setTile, toNat_ofNat_limbs]
  exact num_store_limbs ..

/-- A modular command whose words are an integer's limbs leaves that integer at D, from GO to its end (R106, R135, R136). -/
theorem command_reads_back {s : State} {n : Fin 96} {l : BitVec 8} {o : BenchOp} {f : Tile → Nat → List Nat} {c : Instr}
    {m k v : Nat} (reach : s.reach (.pkt n)) (bench : (s.tile n.val).bench = true) (idle : (s.tile n.val).busy = false)
    (modulus : (s.tile n.val).modulus = some (m, k)) (clean : benchErr (issued (s.tile n.val) o l.toNat) o l.toNat = none)
    (run : exec c s = .next (s.hostReq c fun s => s.benchGo n l o f))
    (words : f (issued (s.tile n.val) o l.toNat) m = limbs l.toNat v) (setmod : o.op ≠ 1) (cmp : o.op ≠ 9) :
    ∃ u t, exec c s = .next u ∧ exec (.benchCommandDone n .ok none) u = .next t ∧
      (t.tile n.val).num (s.tile n.val).d l.toNat = v % 2 ^ (40 * l.toNat) := by
  obtain ⟨awake, answers⟩ := reach
  rw [hostReq_awake s _ _ awake, benchGo_runs answers bench idle modulus clean, words] at run
  exact ⟨_, _, run, rfl, benchDone_reads_back setmod cmp⟩

/-- Settles O24: each of the three commands runs with its result's limbs, and its end leaves them at D. -/
theorem benchResultReadsBack : Obligations.BenchResultReadsBack := by
  rintro s n l m k x reach rfl bench idle modulus L row listed clean
  rcases List.mem_cons.1 listed with rfl | listed
  · exact command_reads_back reach bench idle modulus clean rfl rfl (by simp) (by simp)
  rcases List.mem_cons.1 listed with rfl | listed
  · exact command_reads_back reach bench idle modulus clean rfl rfl (by simp) (by simp)
  rcases List.mem_singleton.1 listed with rfl
  exact command_reads_back reach bench idle modulus clean rfl rfl (by simp) (by simp)

end Sys2Proof.Proofs.Bench
end

