-- ==== Sys2Proof/Proofs/LadderMoves.lean ====
section
/-! SUPPORT. The weather ladder by itself (R390, R398) and what wakes the unit (R392, R396, R434); O51. -/
namespace Sys2Proof.Proofs.LadderMoves
open Sys2Proof Sys2Proof.Machine Sys2Proof.Laws

/-- A command completes with what its body comes to. -/
theorem completes_of_body {c : Instr} {s body t : State} {P : State → Prop} (run : exec c s = .next body) (e : body = t)
    (h : P t) : Completes c s P := ⟨t, run.trans (congrArg _ e), h⟩

/-! ### Steps down -/

theorem logged_traceRec (s : State) (typ src : Nat) (c : Bytes) : Logged s (s.traceRec typ src c) :=
  logged_ite (logged_record ..) (logged_refl s)

/-- The TRACE record of a step down, where R390 makes it (R386). -/
def stepTraced (s : State) (x : Ladder) (auto : Bool) : State :=
  if auto then s.traceRec 0x0D04 0 (toLE 1 s.pwr.ladder.code ++ toLE 1 x.code ++ toLE 1 s.pwr.wake ++ zeros 5) else s

theorem logged_stepTraced (s : State) (x : Ladder) (auto : Bool) : Logged s (stepTraced s x auto) :=
  logged_ite (logged_traceRec ..) (logged_refl s)

/-- A step down once it is recorded. -/
def lowered (s : State) (x : Ladder) : State := { s with pwr := { s.pwr with ladder := x, idleTick := s.tick } }

theorem stepDown_eq (s : State) (x : Ladder) (auto : Bool) :
    s.stepDown x auto =
      if x = .breeze then lowered (stepTraced s x auto) x else (lowered (stepTraced s x auto) x).warmLost := rfl

/-- Beyond what the Ledger's working changes a step down moves the ladder, restarts the idle time, and may take the warm
tables. -/
theorem stepDown_frame (s : State) (x : Ladder) (auto : Bool) :
    let t := s.stepDown x auto
    t.pwr = { s.pwr with ladder := x, idleTick := s.tick } ∧ t.jobs = s.jobs ∧ t.slices = s.slices ∧ t.regs = s.regs := by
  have traced := logged_stepTraced s x auto
  have kept : (s.stepDown x auto).pwr = (lowered (stepTraced s x auto) x).pwr ∧
      (s.stepDown x auto).jobs = (stepTraced s x auto).jobs ∧ (s.stepDown x auto).slices = (stepTraced s x auto).slices ∧
      (s.stepDown x auto).regs = (stepTraced s x auto).regs := by
    rw [stepDown_eq]
    split
    · exact ⟨rfl, rfl, rfl, rfl⟩
    · exact ⟨rfl, rfl, rfl, rfl⟩
  rw [traced] at kept
  exact kept

/-- In Breeze the key store stays as it is. -/
theorem stepDown_breeze_ks (s : State) (auto : Bool) : (s.stepDown .breeze auto).ks = s.ks := by
  rw [stepDown_eq, if_pos rfl, logged_stepTraced s .breeze auto]
  rfl

theorem warmLost_warmReady (s : State) : ∀ p ∈ s.warmLost.ks.keys, p.2.warmReady = false := by
  intro p kept
  obtain ⟨q, _, rfl⟩ := List.mem_map.1 kept
  rfl

/-- Below Breeze no warm table is left (R113). -/
theorem stepDown_warmReady (s : State) {x : Ladder} (auto : Bool) (deep : x ≠ .breeze) :
    ∀ p ∈ (s.stepDown x auto).ks.keys, p.2.warmReady = false := by
  rw [stepDown_eq, if_neg deep]
  exact warmLost_warmReady _

/-! ### When the unit steps down -/

theorem breezeBody_steps {s : State} (on : s.ladderOn = true) (gale : s.pwr.ladder = .gale) (idle : s.idle = true)
    (target : s.target ≠ 0) : breezeBody s = s.stepDown .breeze true := by
  simp [breezeBody, on, gale, idle, target]

/-- TARGET 0 keeps the unit in Gale. -/
theorem breezeBody_target_zero {s : State} (target : s.target = 0) : breezeBody s = s := by
  simp [breezeBody, target]

/-- From Breeze a quiet unit goes on to Lull, whether or not R390 alone asks for it. -/
theorem descentBody_breeze {s : State} (on : s.ladderOn = true) (breeze : s.pwr.ladder = .breeze) (target : 2 ≤ s.target)
    (quiet : s.quiet = true) : ∃ auto, descentBody s = s.stepDown .lull auto := by
  cases sleeps : s.pwr.d3 && s.idle with
  | true => exact ⟨false, by simp only [descentBody, on, breeze, sleeps, Bool.not_true, Bool.false_eq_true, if_true, if_false]⟩
  | false => exact ⟨true, by
      simp only [descentBody, on, breeze, sleeps, target, quiet, decide_true, Bool.and_true, Bool.not_true,
        Bool.false_eq_true, if_true, if_false]⟩

theorem descentBody_lull {s : State} (on : s.ladderOn = true) (lull : s.pwr.ladder = .lull) (target : s.target = 3)
    (quiet : s.quiet = true) : descentBody s = s.stepDown .calm true := by
  simp [descentBody, on, lull, target, quiet]

/-- The function in D3hot (R398). -/
def inD3 (s : State) : State := { s with pwr := { s.pwr with d3 := true } }

theorem ladderOn_inD3 (s : State) : (inD3 s).ladderOn = s.ladderOn := rfl

theorem idle_inD3 (s : State) : (inD3 s).idle = s.idle := rfl

/-- A unit whose ladder may move by itself is powered, and its completions leave. -/
theorem linked_of_ladderOn {s : State} (on : s.ladderOn = true) : s.linked = true ∧ s.mute = false := by
  simp only [State.ladderOn, Bool.and_eq_true, Bool.not_eq_true'] at on
  obtain ⟨⟨⟨⟨_, linked⟩, heard⟩, _⟩, _⟩ := on
  exact ⟨linked, heard⟩

/-- D3hot in Gale is Lull once nothing is in flight (R398). -/
theorem d3Body_gale {s : State} (on : s.ladderOn = true) (gale : s.pwr.ladder = .gale) :
    d3Body s = if s.idle then (inD3 s).stepDown .lull false else inD3 s := by
  obtain ⟨linked, heard⟩ := linked_of_ladderOn on
  have on' := (ladderOn_inD3 s).trans on
  have gale' : (inD3 s).pwr.ladder = .gale := gale
  have body : d3Body s = descentBody (inD3 s) := by
    simp only [d3Body, linked, heard, Bool.not_true, Bool.or_false, Bool.false_eq_true, if_false, inD3]
  rw [body, descentBody, on', gale', ← idle_inD3]
  rfl

theorem ladderDescends : Clause.LadderDescends := by
  intro s on down
  have lowers {x : Ladder} {auto : Bool} : down (s.stepDown x auto) x := stepDown_frame s x auto
  refine ⟨fun gale idle target => ?_, fun target => ?_, fun breeze target quiet => ?_, fun lull target quiet => ?_,
    fun gale idle => ?_, fun gale busy => ?_⟩
  · exact completes_of_body rfl (breezeBody_steps on gale idle target) ⟨lowers, stepDown_breeze_ks s true⟩
  · exact completes_of_body rfl (breezeBody_target_zero target) rfl
  · obtain ⟨auto, steps⟩ := descentBody_breeze on breeze target quiet
    exact completes_of_body rfl steps ⟨lowers, stepDown_warmReady s auto (by decide)⟩
  · exact completes_of_body rfl (descentBody_lull on lull target quiet) ⟨lowers, stepDown_warmReady s true (by decide)⟩
  · obtain ⟨pwr, jobs, -, -⟩ := stepDown_frame (inD3 s) .lull false
    exact completes_of_body rfl ((d3Body_gale on gale).trans (if_pos idle)) ⟨pwr, jobs⟩
  · exact completes_of_body rfl ((d3Body_gale on gale).trans (if_neg (by simp [busy]))) rfl

/-! ### Waking -/

/-- The exit from a state of the ladder begins, with its cause (R392). -/
def exitBegun (s : State) (c : WakeCause) : State := { s with pwr := { s.pwr with exiting := true, wake := c.code } }

/-- The return to Gale moves the ladder and notes its cause, beyond what its TRACE record changes (R386, R392). -/
theorem toGale_frame (s : State) (n : Nat) :
    let t := s.toGale n
    t.pwr = { s.pwr with ladder := .gale, exiting := false, wake := n } ∧ Logged { s with pwr := t.pwr } t := by
  have traced : Logged { s with pwr := { s.pwr with ladder := .gale, exiting := false, wake := n } } (s.toGale n) :=
    logged_ite (logged_refl _) (logged_traceRec ..)
  have pwr : (s.toGale n).pwr = { s.pwr with ladder := .gale, exiting := false, wake := n } := by rw [traced]
  exact ⟨pwr, pwr ▸ traced⟩

theorem wakeFor_breeze {s : State} (n : Nat) (breeze : s.pwr.ladder = .breeze) : s.wakeFor n = s.toGale n := by
  rw [State.wakeFor, breeze]

/-- A wake event begins the exit from Lull, Calm and Fog (R392). -/
theorem wakeFor_asleep {s : State} (c : WakeCause) (stays : s.pwr.exiting = false)
    (sleeps : s.pwr.ladder = .lull ∨ s.pwr.ladder = .calm ∨ s.pwr.ladder = .fog) : s.wakeFor c.code = exitBegun s c := by
  rcases sleeps with h | h | h <;> simp only [State.wakeFor, h, stays, Bool.false_eq_true, if_false, exitBegun]

/-- A wake source begins the exit from Frost while VAON is present (R396). -/
theorem wakeFrost_vaon {s : State} (c : WakeCause) (stays : s.pwr.exiting = false) (frost : s.pwr.ladder = .frost)
    (vaon : s.pwr.vaon = true) : s.wakeFrost c.code = exitBegun s c := by
  simp [State.wakeFrost, frost, stays, vaon, exitBegun]

/-- The ladder is at a depth from which the sources of PWR_WAKE_EN wake the unit now (R396). -/
def WakesDeep (s : State) : Prop := s.pwr.ladder = .fog ∨ (s.pwr.ladder = .frost ∧ s.pwr.vaon = true)

theorem wakeDeep_begins {s : State} (c : WakeCause) (stays : s.pwr.exiting = false) (deep : WakesDeep s) :
    s.wakeDeep c.code = exitBegun s c := by
  rcases deep with fog | ⟨frost, vaon⟩
  · rw [State.wakeDeep, fog]
    exact wakeFor_asleep c stays (.inr (.inr fog))
  · rw [State.wakeDeep, frost]
    exact wakeFrost_vaon c stays frost vaon

/-- The sources of PWR_WAKE_EN with their causes, each where it is enabled and fires. -/
def wakeSources (s : State) (pin : Fin 16) : List (Instr × WakeCause × Prop) :=
  let en := s.rg .pwr 0x050
  [(.gpioWake pin, .gpio, en.getLsbD pin.val = true),
    (.wakeTickAlarm, .tick, en.getLsbD 17 = true ∧ s.wakeTick ≤ s.tick),
    (.smbusWake, .smbus, en.getLsbD 16 = true ∧ s.pwr.vaon = true)]

/-- Each enabled source of PWR_WAKE_EN begins the exit from Fog and Frost (R396, R434). -/
theorem wakeSource_begins {s : State} {pin : Fin 16} (stays : s.pwr.exiting = false) (deep : WakesDeep s) :
    ∀ x ∈ wakeSources s pin, x.2.2 → Completes x.1 s fun t => t = exitBegun s x.2.1 := by
  intro x listed fires
  rcases List.mem_cons.1 listed with rfl | listed
  · exact completes_of_body rfl (if_pos fires) (wakeDeep_begins .gpio stays deep)
  rcases List.mem_cons.1 listed with rfl | listed
  · obtain ⟨enabled, reached⟩ := fires
    have fires' : ((s.rg .pwr 0x050).getLsbD 17 && decide (s.wakeTick ≤ s.tick)) = true := by
      simp only [enabled, reached, decide_true, Bool.and_true]
    exact completes_of_body rfl (if_pos fires') (wakeDeep_begins .tick stays deep)
  rcases List.mem_singleton.1 listed with rfl
  obtain ⟨enabled, vaon⟩ := fires
  exact completes_of_body rfl (if_pos (by simp only [enabled, vaon, Bool.and_true])) (wakeDeep_begins .smbus stays deep)

/-- R392's events, of which each reaches a powered unit out of Frost. -/
theorem wakeBody_linked {s : State} {c : WakeCause} (linked : s.linked = true)
    (event : c ∈ [WakeCause.host, .internal, .tamper, .zentulink]) : wakeBody c s = s.wakeFor c.code := by
  simp only [List.mem_cons, List.not_mem_nil, or_false] at event
  rcases event with rfl | rfl | rfl | rfl <;> exact if_pos linked

theorem linked_frost {s : State} (frost : s.pwr.ladder = .frost) : s.linked = false := by
  simp [State.linked, frost]

/-- Tamper and PERST_N reach a unit in Frost (R396). -/
theorem wakeBody_frost {s : State} {c : WakeCause} (frost : s.pwr.ladder = .frost) (event : c ∈ [WakeCause.tamper, .perst]) :
    wakeBody c s = s.wakeFrost c.code := by
  simp only [List.mem_cons, List.not_mem_nil, or_false] at event
  rcases event with rfl | rfl
  · exact if_neg (by simp [linked_frost frost])
  · rfl

/-- In Frost PERST_N is a wake source, not a reset (R396). -/
theorem sysResetBody_frost {s : State} (frost : s.pwr.ladder = .frost) (core : s.pwr.coreSupply = true)
    (held : s.isl.jtagHold = false) (up : s.powerUp = false) :
    sysResetBody .perstN s = s.wakeFrost WakeCause.perst.code := by
  simp [sysResetBody, frost, core, held, up]

theorem waking : Clause.Waking := by
  intro s pin stays begun en sources
  refine ⟨fun linked breeze c event => ?_, fun linked sleeps c event => ?_, fun fog => wakeSource_begins stays (.inl fog),
    fun frost vaon => ⟨wakeSource_begins stays (.inr ⟨frost, vaon⟩), fun c event => ?_, fun core held up => ?_⟩⟩
  · obtain ⟨pwr, logged⟩ := toGale_frame s c.code
    rw [← stays] at pwr
    exact completes_of_body rfl ((wakeBody_linked linked event).trans (wakeFor_breeze _ breeze)) ⟨pwr, logged⟩
  · exact completes_of_body rfl (wakeBody_linked linked event) (wakeFor_asleep c stays sleeps)
  · exact completes_of_body rfl (wakeBody_frost frost event) (wakeFrost_vaon c stays frost vaon)
  · exact completes_of_body rfl (sysResetBody_frost frost core held up) (wakeFrost_vaon .perst stays frost vaon)

/-- Settles O51: the steps down by the state they start from, the wake events by what they reach. -/
theorem ladderMoves : Obligations.LadderMoves := ⟨ladderDescends, waking⟩

end Sys2Proof.Proofs.LadderMoves
end

