-- ==== Sys2Proof/Proofs/MemoryFrame.lean ====
section
/-! SUPPORT. What an access to device memory may change (R325, R335 to R340), whatever it meets. -/
namespace Sys2Proof.Proofs.MemoryFrame
open Sys2Proof Sys2Proof.Machine Sys2Proof.Laws

/-- Only what an access to device memory may change differs: memory, the MPUs' denials, what the Ledger's working changes. -/
def MemWorked (s t : State) : Prop :=
  t = { s with
    mem := t.mem, mpu := t.mpu, led := t.led, rng := t.rng, hdr := t.hdr, msix := t.msix, out := t.out, freeN := t.freeN }

theorem memWorked_refl (s : State) : MemWorked s s := rfl

theorem memWorked_trans {s t u : State} (h : MemWorked s t) (k : MemWorked t u) : MemWorked s u := by
  unfold MemWorked at *
  rw [k, h]

theorem memWorked_ite {c : Prop} [Decidable c] {s t u : State} (h : MemWorked s t) (k : MemWorked s u) :
    MemWorked s (if c then t else u) := by
  split
  · exact h
  · exact k

/-- A run over the pieces of an access, each of which only works on memory. -/
theorem memWorked_foldl {α β : Type} {f : State × β → α → State × β} (step : ∀ a x, MemWorked a.1 (f a x).1) (l : List α)
    (a : State × β) : MemWorked a.1 (l.foldl f a).1 := by
  induction l generalizing a with
  | nil => exact memWorked_refl a.1
  | cons x l ih => exact memWorked_trans (step a x) (ih (f a x))

theorem memWorked_record (s : State) (typ sev src : Nat) (c : Bytes) : MemWorked s (s.record typ sev src c) := by
  unfold MemWorked
  rw [logged_record s typ sev src c]

theorem memWorked_poisonLine (s : State) (l : Nat) : MemWorked s (s.poisonLine l) :=
  memWorked_ite (memWorked_refl s) (memWorked_ite rfl rfl)

theorem memWorked_lineFail (s : State) (l : Nat) : MemWorked s (s.lineFail l) := by
  unfold State.lineFail
  refine memWorked_trans ?_ (memWorked_record ..)
  exact memWorked_trans (t := { s with mem := _ }) rfl (memWorked_poisonLine _ l)

theorem memWorked_retiredAt (s : State) (l : Nat) : MemWorked s (s.retiredAt l) :=
  memWorked_ite rfl (memWorked_trans (t := { s with mem := _ }) rfl (memWorked_record ..))

theorem memWorked_deny (s : State) (m : Nat) (write : Bool) (cause level addr : Nat) :
    MemWorked s (s.deny m write cause level addr) :=
  memWorked_ite (memWorked_trans (t := { s with mpu := _, mem := _ }) rfl (memWorked_record ..)) rfl

theorem memWorked_readLine (s : State) (l : Nat) (e : Burst) : MemWorked s (s.readLine l e).1 := by
  unfold State.readLine
  split
  · exact memWorked_refl s
  · split
    · exact memWorked_lineFail s l
    · have drawn : MemWorked s (if (NMap.find s.mem.lines (l / 64)).isSome then (zeros 64, s) else s.free 64).2 := by
        split
        · exact memWorked_refl s
        · rfl
      dsimp only
      split
      · exact memWorked_lineFail s l
      · exact memWorked_ite drawn (memWorked_trans drawn rfl)

theorem memWorked_writeLine (s : State) (l lo : Nat) (d : Bytes) (e : Burst) : MemWorked s (s.writeLine l lo d e).1 := by
  have read := memWorked_readLine s l e
  unfold State.writeLine
  split
  · rfl
  · split
    · next h => rwa [h] at read
    · next h =>
      rw [h] at read
      exact memWorked_trans read rfl

theorem memWorked_load (s : State) (l n : Nat) (e : Burst) : MemWorked s (s.load l n e).1 := by
  refine memWorked_foldl (fun a p => ?_) _ (s, [], none)
  have read := memWorked_readLine a.1 p.1 e
  split
  · next h => rwa [h] at read
  · next h => rwa [h] at read

theorem memWorked_store (s : State) (l : Nat) (d : Bytes) (e : Burst) : MemWorked s (s.store l d e).1 := by
  refine memWorked_foldl (fun a p => ?_) _ (s, true)
  exact memWorked_writeLine ..

theorem memWorked_access (s : State) (a : GateAccess) (d : Bytes) (e : Burst) : MemWorked s (s.access a d e).1 := by
  unfold State.access
  dsimp only
  split
  · exact memWorked_deny ..
  · split
    · split
      · exact memWorked_refl s
      · rfl
    · split
      · exact memWorked_retiredAt ..
      · split
        · exact memWorked_store ..
        · have loaded := memWorked_load s a.loc (d.take (4096 - a.loc % 4096)).length e
          split
          · next h => rwa [h] at loaded
          · next h => rwa [h] at loaded

/-- An access to device memory changes memory, the MPUs and what the Ledger's working changes, whatever it meets. -/
theorem memWorked_memAccess (s : State) (m : MemOutcome) : MemWorked s (s.memAccess m).1 := by
  cases m with
  | ok => exact memWorked_refl s
  | replayed => exact memWorked_refl s
  | corrected => rfl
  | tagFail l =>
    dsimp only [State.memAccess]
    split
    · exact memWorked_refl s
    · exact memWorked_lineFail s l
  | poisonedLine l => exact memWorked_refl s
  | partialWrite l =>
    dsimp only [State.memAccess]
    split
    · exact memWorked_refl s
    · exact memWorked_lineFail s l
  | retiredKey l => exact memWorked_retiredAt s l
  | access a d e =>
    have accessed := memWorked_access s a d e
    dsimp only [State.memAccess]
    split
    · exact memWorked_refl s
    · split
      · next h => rwa [h] at accessed
      · next h => rwa [h] at accessed
      · next h => rwa [h] at accessed
  | deepPort l e =>
    have read := memWorked_readLine s l e
    dsimp only [State.memAccess]
    split
    · rfl
    · split
      · next h => rwa [h] at read
      · next h => rwa [h] at read

/-- No access to device memory silences the unit. -/
theorem memAccess_mute (s : State) (m : MemOutcome) : (s.memAccess m).1.mute = s.mute := by
  rw [memWorked_memAccess s m]
  rfl

end Sys2Proof.Proofs.MemoryFrame
end

