-- ==== Sys2Proof/Proofs/AroundAnEnding.lean ====
section
/-! SUPPORT. What may go before a job's ending without showing in it, and what every ending leaves: pages that read FAULT,
keys that are live (R34, R54, R116, R238). -/
namespace Sys2Proof.Proofs.AroundEnd
open Sys2Proof Sys2Proof.Machine Sys2Proof.Laws Sys2Proof.Proofs.JobEnd

/-! ### A record, and the page event that its checkpoint may raise -/

/-- Only the Ledger's records, the random service's counts and the free values drawn differ. -/
def Inward (s t : State) : Prop := t = { s with led := t.led, rng := t.rng, freeN := t.freeN }

theorem inward_refl (s : State) : Inward s s := rfl

theorem inward_trans {s t u : State} (h : Inward s t) (k : Inward t u) : Inward s u := by
  unfold Inward at *
  rw [k, h]

theorem inward_ite {c : Prop} [Decidable c] {s t u : State} (h : Inward s t) (k : Inward s u) :
    Inward s (if c then t else u) := by
  split
  · exact h
  · exact k

theorem inward_enter (s : State) (typ sev src : Nat) (c : Bytes) : Inward s (s.enter typ sev src c) := inward_ite rfl rfl

theorem inward_poolWord (s : State) : Inward s s.poolWord.2 := by
  unfold State.poolWord
  split
  · rfl
  · rfl

theorem inward_reseed (s : State) (n : Nat) : Inward s (s.reseed n) := inward_trans (inward_poolWord s) rfl

theorem inward_genInternal (s : State) (n : Nat) : Inward s (s.genInternal n).2 := by
  have seeded : Inward s (if s.mustReseed n then s.reseed n else s) := inward_ite (inward_reseed s n) (inward_refl s)
  exact inward_trans seeded (inward_ite rfl rfl)

theorem inward_ownDraw (s : State) : Inward s s.ownDraw.2 := by
  unfold State.ownDraw
  split
  · exact inward_refl s
  · next n _ =>
    split
    · exact inward_refl s
    · refine inward_trans (inward_genInternal s n) (inward_ite ?_ (inward_refl _))
      exact inward_trans (t := { (s.genInternal n).2 with rng := { (s.genInternal n).2.rng with intStopNoted := true } }) rfl
        (inward_enter ..)

theorem inward_cpSign (s : State) (x h b : Bytes) : Inward s (s.cpSign x h b).2 := by
  unfold State.cpSign
  split
  · exact inward_refl s
  · rfl

/-- A checkpoint is not issued now, or works in the Ledger and raises its page event (R380). -/
theorem checkpoint_cases (s : State) : s.checkpoint = s ∨ ∃ u, Inward s u ∧ s.checkpoint = u.raise .ldg 16 := by
  unfold State.checkpoint
  split
  · have signed := inward_cpSign s.ownDraw.2 s.ownDraw.1 s.ownDraw.2.cpHeader s.ownDraw.2.cpBody
    refine .inr ⟨_, inward_trans (inward_ownDraw s) (inward_trans signed ?_), rfl⟩
    rfl
  · exact .inl rfl

/-- A record works in the Ledger, and raises the event of the LDG page where a checkpoint is due (R380). -/
theorem record_cases (s : State) (typ sev src : Nat) (c : Bytes) :
    ∃ u, Inward s u ∧ (s.record typ sev src c = u ∨ s.record typ sev src c = u.raise .ldg 16) := by
  have entered := inward_enter s typ sev src c
  unfold State.record State.cpDue
  split
  · rcases checkpoint_cases (s.enter typ sev src c) with still | ⟨u, worked, raised⟩
    · exact ⟨_, entered, .inl still⟩
    · exact ⟨u, inward_trans entered worked, .inr raised⟩
  · exact ⟨_, entered, .inl rfl⟩

/-! ### What writes nothing to host memory -/

/-- A part of a command that leaves what no ending changes, and sends no write to host memory. -/
structure QuietStep (s t : State) : Prop where
  frame : EndFrame s t
  sent : ∃ o, t.out = s.out ++ o ∧ (o.all fun x => !x.isWrite) = true

theorem QuietStep.silent {s t : State} (frame : EndFrame s t) (out : t.out = s.out) : QuietStep s t :=
  ⟨frame, [], by rw [out, List.append_nil], rfl⟩

theorem QuietStep.refl (s : State) : QuietStep s s := .silent (endFrame_of_endChanges rfl) rfl

theorem QuietStep.trans {s t u : State} (h : QuietStep s t) (k : QuietStep t u) : QuietStep s u := by
  obtain ⟨o, sent, quiet⟩ := h.sent
  obtain ⟨p, later, still⟩ := k.sent
  refine ⟨endFrame_trans h.frame k.frame, o ++ p, ?_, ?_⟩
  · rw [later, sent, List.append_assoc]
  · rw [List.all_append, quiet, still]
    rfl

theorem QuietStep.foldl {α : Type} {f : State → α → State} (step : ∀ s a, QuietStep s (f s a)) (l : List α) (s : State) :
    QuietStep s (l.foldl f s) := by
  induction l generalizing s with
  | nil => exact .refl s
  | cons a l ih => exact (step s a).trans (ih (f s a))

theorem quietStep_of_inward {s t : State} (h : Inward s t) : QuietStep s t := by
  rw [h]
  exact .silent (endFrame_of_endChanges rfl) rfl

theorem quietStep_setHd (s : State) (p : Page) (h : Hdr) : QuietStep s (s.setHd p h) :=
  .silent (endFrame_of_endChanges rfl) rfl

theorem quietStep_sendMsix (s : State) (v : Nat) : QuietStep s (s.sendMsix v) := by
  unfold State.sendMsix
  split
  · exact .refl s
  · dsimp only
    split
    · exact .silent (endFrame_of_endChanges rfl) rfl
    · exact ⟨endFrame_of_endChanges rfl, _, rfl, rfl⟩

theorem quietStep_signal (s : State) (n l : Nat) : QuietStep s (s.signal n l) := by
  unfold State.signal
  split
  · exact quietStep_sendMsix ..
  · exact .refl s

theorem quietStep_raise (s : State) (p : Page) (b : Nat) : QuietStep s (s.raise p b) := by
  unfold State.raise
  dsimp only
  split
  · exact .refl s
  · split
    · exact (quietStep_setHd ..).trans (quietStep_signal ..)
    · exact quietStep_setHd ..

theorem quietStep_setSt (s : State) (p : Page) (st : BlockState) (fc : Nat) : QuietStep s (s.setSt p st fc) := by
  unfold State.setSt
  dsimp only
  split
  · exact quietStep_setHd ..
  · exact (quietStep_setHd ..).trans (quietStep_raise ..)

theorem quietStep_record (s : State) (typ sev src : Nat) (c : Bytes) : QuietStep s (s.record typ sev src c) := by
  obtain ⟨u, worked, same | raised⟩ := record_cases s typ sev src c
  · exact same ▸ quietStep_of_inward worked
  · exact raised ▸ (quietStep_of_inward worked).trans (quietStep_raise ..)

theorem quietStep_engFault (s : State) (g : Engine) (d : Nat) : QuietStep s (s.engFault g d) :=
  .foldl (fun _ _ => quietStep_setSt ..) _ s

theorem quietStep_closeStream (s : State) (sl n : Nat) : QuietStep s (s.closeStream sl n) :=
  .silent (endFrame_of_endChanges rfl) rfl

/-- What goes before a job's ending without a write to host memory leaves it that ending; a job that runs here for a head
writes none itself. -/
theorem ends_of_before {s u t : State} {j : Job} {c : Completion} {out : Bytes} (frame : EndFrame s u)
    (quiet : j.remote = none → QuietStep s u) (e : Ends u t j c out) : Ends s t j c out := by
  obtain ⟨ending, kept⟩ := e
  refine ⟨?_, endFrame_trans frame kept⟩
  cases host : j.remote with
  | none =>
    rw [host] at ending
    obtain ⟨⟨pre, rest, sent, still⟩, records⟩ := ending
    obtain ⟨o, before, silent⟩ := (quiet host).sent
    refine ⟨⟨o ++ pre, rest, ?_, ?_⟩, records⟩
    · rw [sent, before, List.append_assoc s.out]
    · rw [List.all_append, silent, still]
      rfl
  | some r =>
    rw [host] at ending
    exact ending

theorem ends_of_quiet_before {s u t : State} {j : Job} {c : Completion} {out : Bytes} (h : QuietStep s u)
    (e : Ends u t j c out) : Ends s t j c out := ends_of_before h.frame (fun _ => h) e

/-- A wipe that is noted is a part of an ending (R137). -/
theorem endStep_wipeNote (s : State) (g : Engine) (bad : Option (Fin 16384)) : EndStep s (s.wipeNote g bad) := by
  unfold State.wipeNote
  split
  · exact (endStep_setSt ..).trans (endStep_record ..)
  · exact .refl s

/-! ### The state of a page -/

/-- An event raised on a page changes its PG_INT_STAT alone (R34). -/
theorem raise_hd (s : State) (p : Page) (b : Nat) (q : Page) : ∃ i, (s.raise p b).hd q = { s.hd q with intStat := i } := by
  have set (h : W32) : ∃ i, (s.setHd p { s.hd p with intStat := h }).hd q = { s.hd q with intStat := i } := by
    by_cases same : q = p
    · exact ⟨h, by rw [same, hd_setHd]⟩
    · exact ⟨_, hd_setHd_ne _ _ same⟩
  unfold State.raise
  dsimp only
  split
  · exact ⟨_, rfl⟩
  · split
    · rw [signal_hd]
      exact set _
    · exact set _

/-- A page reads FAULT with a class (Table 2.4). -/
def Faulted (s : State) (p : Page) (c : Nat) : Prop := (s.hd p).st = .fault ∧ (s.hd p).fclass = c

theorem faulted_raise {s : State} {p : Page} {c : Nat} (q : Page) (b : Nat) (h : Faulted s p c) : Faulted (s.raise q b) p c := by
  obtain ⟨i, e⟩ := raise_hd s q b p
  unfold Faulted
  rw [e]
  exact h

theorem setSt_faults (s : State) (p : Page) (c : Nat) : Faulted (s.setSt p .fault c) p c := by
  have set : Faulted (s.setHd p { s.hd p with st := .fault, fclass := c }) p c := by
    unfold Faulted
    rw [hd_setHd]
    exact ⟨rfl, rfl⟩
  unfold State.setSt
  dsimp only
  split
  · exact set
  · exact faulted_raise _ _ set

theorem faulted_setSt_ne {s : State} {p q : Page} {c : Nat} (st : BlockState) (fc : Nat) (other : p ≠ q) (h : Faulted s p c) :
    Faulted (s.setSt q st fc) p c := by
  have set : Faulted (s.setHd q { s.hd q with st := st, fclass := fc }) p c := by
    unfold Faulted
    rw [hd_setHd_ne _ _ other]
    exact h
  unfold State.setSt
  dsimp only
  split
  · exact set
  · exact faulted_raise _ _ set

/-- The pages of an engine that goes to FAULT read so with the class (R116, Table 19.3). -/
theorem foldl_setSt_faults (l : List Page) (c : Nat) (s : State) {p : Page} (h : p ∈ l ∨ Faulted s p c) :
    Faulted (l.foldl (fun a q => a.setSt q .fault c) s) p c := by
  induction l generalizing s with
  | nil => exact h.resolve_left List.not_mem_nil
  | cons q l ih =>
    refine ih (s.setSt q .fault c) ?_
    by_cases same : p = q
    · exact .inr (same ▸ setSt_faults s p c)
    · exact h.imp (fun listed => (List.mem_cons.1 listed).resolve_left same) (faulted_setSt_ne _ _ same)

theorem engFault_faults (s : State) (g : Engine) (c : Nat) {p : Page} (h : p ∈ engPages g) : Faulted (s.engFault g c) p c :=
  foldl_setSt_faults _ c s (.inl h)

/-! ### What every ending leaves -/

/-- One key's record has become another's only in where its warm table stands. -/
def SameKey (k x : KeyRec) : Prop := x.handle = k.handle ∧ x.material = k.material ∧ x.pub = k.pub ∧ x.live = true

/-- Pages that read FAULT go on doing so with their class, and live keys stay at their places. -/
structure Keeps (s t : State) : Prop where
  fault : ∀ p c, Faulted s p c → Faulted t p c
  keys : ∀ n k, NMap.find s.ks.keys n = some k → k.live = true → ∃ x, NMap.find t.ks.keys n = some x ∧ SameKey k x

/-- A part that leaves headers and keys. -/
theorem Keeps.still {s t : State} (hdr : t.hdr = s.hdr) (keys : t.ks.keys = s.ks.keys) : Keeps s t where
  fault p c h := by
    unfold Faulted State.hd at *
    rwa [hdr]
  keys n k h live := ⟨k, keys ▸ h, rfl, rfl, rfl, live⟩

theorem Keeps.refl (s : State) : Keeps s s := .still rfl rfl

theorem Keeps.trans {s t u : State} (h : Keeps s t) (k : Keeps t u) : Keeps s u where
  fault p c f := k.fault p c (h.fault p c f)
  keys n a found live := by
    obtain ⟨x, stands, handle, material, pub, lives⟩ := h.keys n a found live
    obtain ⟨y, last, handle', material', pub', lives'⟩ := k.keys n x stands lives
    exact ⟨y, last, handle'.trans handle, material'.trans material, pub'.trans pub, lives'⟩

theorem Keeps.ite {c : Prop} [Decidable c] {s t u : State} (h : Keeps s t) (k : Keeps s u) : Keeps s (if c then t else u) := by
  split
  · exact h
  · exact k

theorem Keeps.foldl {α : Type} {f : State → α → State} (step : ∀ s a, Keeps s (f s a)) (l : List α) (s : State) :
    Keeps s (l.foldl f s) := by
  induction l generalizing s with
  | nil => exact .refl s
  | cons a l ih => exact (step s a).trans (ih (f s a))

theorem keeps_signal (s : State) (n l : Nat) : Keeps s (s.signal n l) := by
  obtain ⟨m, o, e⟩ := signal_frame s n l
  rw [e]
  exact .still rfl rfl

theorem keeps_raise (s : State) (p : Page) (b : Nat) : Keeps s (s.raise p b) := by
  obtain ⟨h, m, o, e⟩ := raise_frame s p b
  exact ⟨fun q c => faulted_raise p b, fun n k found live => ⟨k, by rw [e]; exact found, rfl, rfl, rfl, live⟩⟩

/-- A page that does not read FAULT may take any state. -/
theorem keeps_setSt {s : State} {p : Page} (st : BlockState) (fc : Nat) (sound : (s.hd p).st ≠ .fault) :
    Keeps s (s.setSt p st fc) := by
  obtain ⟨h, m, o, e⟩ := setSt_frame s p st fc
  refine ⟨fun q c f => faulted_setSt_ne st fc ?_ f, fun n k found live => ⟨k, by rw [e]; exact found, rfl, rfl, rfl, live⟩⟩
  rintro rfl
  exact sound f.1

theorem keeps_of_inward {s t : State} (h : Inward s t) : Keeps s t := by
  rw [h]
  exact .still rfl rfl

theorem keeps_record (s : State) (typ sev src : Nat) (c : Bytes) : Keeps s (s.record typ sev src c) := by
  obtain ⟨u, worked, same | raised⟩ := record_cases s typ sev src c
  · exact same ▸ keeps_of_inward worked
  · exact raised ▸ (keeps_of_inward worked).trans (keeps_raise ..)

theorem keeps_engDrop (s : State) (g : Engine) : Keeps s (s.engDrop g) := by
  refine .foldl (fun a p => ?_) _ s
  split
  · next busy => exact keeps_setSt _ _ (by rw [busy]; decide)
  · exact .refl a

theorem keeps_tileCount (s : State) (g : Engine) : Keeps s (s.tileCount g) := by
  unfold State.tileCount
  split
  · exact .still rfl rfl
  · exact .refl s

theorem keeps_returned (s : State) (j : Job) (count : Bool) : Keeps s (s.returned j count) := by
  have units (l : List Engine) (a : State) : Keeps a (l.foldl State.engDrop a) := .foldl keeps_engDrop l a
  unfold State.returned
  refine .trans ?_ (.foldl (fun a i => .trans ?_ (units i.hash _)) j.items _)
  · split
    · exact (Keeps.ite (keeps_tileCount ..) (.refl s)).trans ((keeps_engDrop ..).trans (units ..))
    · exact .refl s
  · split
    · split
      · exact keeps_engDrop ..
      · exact .refl a
    · exact .refl a

theorem keeps_putRing (s : State) (sl r : Nat) (g : Ring) : Keeps s (s.putRing sl r g) := .still rfl rfl

theorem keeps_issueWord (s : State) (j : Job) (c : Completion) : Keeps s (s.issueWord j c) := by
  have sent : Keeps s { s.emit (.write j.pasid j.addr (completionWord j.entry c.code c.detail)) with
      jobs := s.jobs.filter fun x => x.id != j.id } := .still rfl rfl
  refine sent.trans ?_
  unfold State.issueWord
  dsimp only
  split
  · exact .refl _
  · exact .ite ((keeps_putRing ..).trans (keeps_signal ..)) (keeps_putRing ..)

theorem keeps_flushRing (sl r fuel : Nat) (s : State) : Keeps s (flushRing sl r fuel s) := by
  induction fuel generalizing s with
  | zero => exact .refl s
  | succ n ih =>
    unfold flushRing
    split
    · split
      · exact (keeps_issueWord ..).trans (ih _)
      · exact .refl s
    · exact .refl s

/-- A record that a filter keeps is found where it was. -/
theorem find_filter_of_kept {α : Type} {m : NMap α} {q : Nat × α → Bool} {n : Nat} {a : α} (found : NMap.find m n = some a)
    (kept : q (n, a) = true) : NMap.find (m.filter q) n = some a := by
  induction m with
  | nil => cases found
  | cons p m ih =>
    obtain ⟨i, b⟩ := p
    by_cases same : i = n
    · subst same
      obtain rfl : b = a := by simpa [NMap.find] using found
      simp [kept, NMap.find]
    · have later : NMap.find m n = some a := by simpa [NMap.find, same] using found
      by_cases stays : q (i, b) = true
      · simp [stays, NMap.find, same, ih later]
      · simp [stays, ih later]

theorem find_mapV {α β : Type} (m : NMap α) (f : Nat → α → β) (n : Nat) :
    NMap.find (NMap.mapV m f) n = (NMap.find m n).map (f n) := by
  induction m with
  | nil => rfl
  | cons p m ih =>
    obtain ⟨i, b⟩ := p
    by_cases same : i = n
    · simp [NMap.mapV, NMap.find, same]
    · simpa [NMap.mapV, NMap.find, same] using ih

/-- Freed units and tables are not those of live keys (R113, R238). -/
theorem keeps_reap (s : State) : Keeps s s.reap where
  fault _ _ h := h
  keys n k found live := by
    have kept := find_filter_of_kept (q := fun p => p.2.live || s.keyHeld p.2.handle) found (by simp [live])
    unfold State.reap
    dsimp only
    rw [find_mapV, kept]
    refine ⟨_, rfl, ?_⟩
    dsimp only
    split
    · exact ⟨rfl, rfl, rfl, live⟩
    · exact ⟨rfl, rfl, rfl, live⟩

theorem keeps_reapCurves (s : State) : Keeps s s.reapCurves := .still rfl rfl

theorem keeps_bpNote (s : State) : Keeps s s.bpNote := .still rfl rfl

theorem keeps_sendOne (s : State) (p typ flags src dst : Nat) (payload : Bytes) :
    Keeps s (s.sendOne p typ flags src dst payload) := .ite (.refl s) (.ite (.still rfl rfl) (.still rfl rfl))

theorem keeps_toHead (s : State) (typ : Nat) (msg : Bytes) : Keeps s (s.toHead typ msg) := by
  unfold State.toHead
  split
  · exact .ite (keeps_sendOne ..) (.foldl (fun _ _ => keeps_sendOne ..) _ s)
  · exact .refl s

theorem keeps_leaveNow (s : State) : Keeps s s.leaveNow := by
  unfold State.leaveNow
  split
  · exact .ite (.refl s) ((keeps_toHead ..).trans (.still rfl rfl))
  · exact .refl s

theorem keeps_endWritten (s : State) (j : Job) (c : Completion) (out : Bytes) : Keeps s (endWritten s j c out) :=
  .still rfl rfl

theorem keeps_endTraced (s : State) (j : Job) (c : Completion) (recorded : Bool) : Keeps s (endTraced s j c recorded) :=
  .ite (.ite (keeps_record ..) (.refl s)) (.refl s)

theorem keeps_woundUp (s : State) (j x : Job) : Keeps s ((woundUp s j).putJob x) :=
  have rest : Keeps (s.returned j j.started) ((woundUp s j).putJob x) := .still rfl rfl
  (keeps_returned s j j.started).trans rest

theorem keeps_wordsIssued (s : State) (sl r fuel : Nat) : Keeps s (wordsIssued s sl r fuel) :=
  (keeps_flushRing ..).trans ((keeps_reap _).trans ((keeps_reapCurves _).trans (keeps_bpNote _)))

theorem keeps_dropJob (s : State) (id : Nat) : Keeps s { s with jobs := s.jobs.filter fun x => x.id != id } := .still rfl rfl

/-- A job's ending leaves pages that read FAULT and live keys. -/
theorem keeps_finish (s : State) (j : Job) (c : Completion) (out : Bytes) (recorded : Bool) :
    Keeps s (s.finish j c out recorded) := by
  cases heard : s.mute with
  | true =>
    rw [finish_mute _ _ _ _ _ heard]
    exact .refl s
  | false =>
    cases host : j.remote with
    | none =>
      rw [finish_eq_of_host c out recorded heard host]
      exact (keeps_endWritten ..).trans ((keeps_endTraced ..).trans ((keeps_woundUp ..).trans (keeps_wordsIssued ..)))
    | some r =>
      unfold State.finish
      rw [if_neg (by simp [heard]), host]
      refine (keeps_returned s j j.started).trans ((keeps_dropJob _ j.id).trans ?_)
      exact (keeps_toHead ..).trans ((keeps_leaveNow _).trans (keeps_bpNote _))

end Sys2Proof.Proofs.AroundEnd
end

