-- ==== Sys2Proof/Proofs/KeyMoves.lean ====
section
/-! SUPPORT. Key material sent to a member (R295), with the paths, tables and placed work that follow where a link ends over
it (R291, R294, R309): nothing differs but what endings of jobs change. -/
namespace Sys2Proof.Proofs.KeyMoves
open Sys2Proof Sys2Proof.Machine Sys2Proof.Laws Sys2Proof.Proofs.JobEnd

theorem endChanges_refl (s : State) : EndChanges s s := rfl

theorem endChanges_ite {c : Prop} [Decidable c] {s t u : State} (h : EndChanges s t) (k : EndChanges s u) :
    EndChanges s (if c then t else u) := by
  split
  · exact h
  · exact k

theorem endChanges_foldl {α : Type} {f : State → α → State} (step : ∀ s a, EndChanges s (f s a)) (l : List α) (s : State) :
    EndChanges s (l.foldl f s) := by
  induction l generalizing s with
  | nil => exact endChanges_refl s
  | cons a l ih => exact endChanges_trans (step s a) (ih (f s a))

theorem endChanges_of_logged {s t : State} (h : Logged s t) : EndChanges s t := by
  rw [h]
  rfl

/-- Whatever a job's ending is, it changes no more than endings do. -/
theorem endChanges_finish (s : State) (j : Job) (c : Completion) (out : Bytes) (recorded : Bool) :
    EndChanges s (s.finish j c out recorded) := by
  cases heard : s.mute with
  | true =>
    rw [finish_mute _ _ _ _ _ heard]
    exact endChanges_refl s
  | false =>
    cases host : j.remote with
    | none =>
      obtain ⟨u, n, before, after⟩ := finish_host c out recorded heard host
      have written := endChanges_trans (endStep_endWritten s j c out).changes before.changes
      exact endChanges_trans written (endChanges_trans (t := u.putJob (endedJob j c n)) rfl after.changes)
    | some r => exact (finish_head c out recorded heard host).1.changes

/-! ### Paths and tables -/

theorem endChanges_refreshPaths (s : State) : EndChanges s s.refreshPaths := endChanges_ite rfl rfl

theorem endChanges_agree (s : State) (n : Nat) : EndChanges s (s.agree n) := endChanges_ite rfl rfl

theorem endChanges_drawWait (s : State) (d : OwnDraw) : EndChanges s (s.drawWait d) := endChanges_ite rfl rfl

theorem endChanges_devSign (s : State) (msg : Bytes) : EndChanges s (s.devSign msg).2 :=
  endChanges_of_logged (logged_ownDraw s)

theorem endChanges_sendRaw (s : State) (p typ flags src dst : Nat) (msg : Bytes) :
    EndChanges s (s.sendRaw p typ flags src dst msg) := (endStep_sendRaw ..).changes

/-- A ROSTER frame, signed where the member's roster is older (R299). -/
theorem endChanges_rosterTo (s : State) (ps : List (Nat × List Nat)) (n : Nat) : EndChanges s (s.rosterTo ps n) := by
  unfold State.rosterTo
  dsimp only
  split
  · exact endChanges_refl s
  · split
    · exact endChanges_trans (endChanges_agree s n) (endChanges_sendRaw ..)
    · split
      · exact endChanges_sendRaw ..
      · split
        · exact endChanges_drawWait ..
        · have signed (b : Bytes) : EndChanges s (s.devSign b).2 := endChanges_devSign s b
          refine endChanges_trans (endChanges_ite ?_ (signed _)) (endChanges_sendRaw ..)
          exact endChanges_trans (signed _) (endChanges_agree ..)

theorem endChanges_rerouteF (fuel : Nat) (s : State) : EndChanges s (rerouteF fuel s) := by
  induction fuel generalizing s with
  | zero => exact endChanges_refreshPaths s
  | succ n ih =>
    have sent (ps : List (Nat × List Nat)) (l : List Nat) (a : State) :
        EndChanges a (l.foldl (fun a n => if n = a.clu.id then a else a.rosterTo ps n) a) :=
      endChanges_foldl (fun a n => endChanges_ite (endChanges_refl a) (endChanges_rosterTo ..)) l a
    have round := endChanges_trans (endChanges_refreshPaths s) (sent s.refreshPaths.paths s.refreshPaths.rosterIds _)
    exact endChanges_ite (endChanges_trans round (ih _)) round

theorem endChanges_reroute (s : State) : EndChanges s s.reroute := endChanges_ite (endChanges_rerouteF 5 s) (endChanges_refl s)

/-! ### Work that is cut off -/

/-- A job on a lost member is placed once more, or ends (Table 13.6). -/
theorem endChanges_loseJob (s : State) (n : Nat) (j : Job) : EndChanges s (s.loseJob n j) := by
  unfold State.loseJob
  split
  · split
    · rfl
    · exact endChanges_finish ..
  · exact endChanges_trans (t := { s with clu := _ }) rfl (endChanges_finish ..)

theorem endChanges_loseItem (s : State) (n id : Nat) (i : Item) : EndChanges s (s.loseItem n id i) := by
  unfold State.loseItem
  split
  · exact endChanges_refl s
  · exact endChanges_ite rfl rfl

theorem endChanges_loseWork (s : State) (n : Nat) : EndChanges s (s.loseWork n) := by
  unfold State.loseWork
  refine endChanges_trans (endChanges_foldl (fun a j => ?_) _ s) (endChanges_foldl (fun a x => endChanges_loseItem ..) _ _)
  split
  · exact endChanges_loseJob ..
  · exact endChanges_refl a

theorem endChanges_cutOff (s : State) : EndChanges s s.cutOff :=
  endChanges_ite (endChanges_refl s)
    (endChanges_foldl (fun a _ => endChanges_ite (endChanges_loseWork ..) (endChanges_refl a)) _ s)

/-! ### The sending -/

theorem endChanges_sendFrame (s : State) (p typ flags src dst : Nat) (msg : Bytes) :
    EndChanges s (s.sendFrame p typ flags src dst msg) := by
  have sent := endChanges_sendRaw s p typ flags src dst msg
  exact endChanges_ite (endChanges_trans sent (endChanges_trans (endChanges_reroute _) (endChanges_cutOff _))) sent

/-- Key material sent to a member, whatever becomes of the link, changes no more than endings of jobs do. -/
theorem endChanges_sendMove (s : State) (n : Nat) (k : KeyMove) : EndChanges s (s.sendMove n k) := by
  unfold State.sendMove State.toMember
  split
  · split
    · exact endChanges_sendFrame ..
    · exact endChanges_refl s
  · exact endChanges_refl s

end Sys2Proof.Proofs.KeyMoves
end

