-- ==== Sys2Proof/Proofs/PublicKeyJobs.lean ====
section
/-! SUPPORT. The end of a bound public-key job's run (R98 to R105, R109, R116, R335): stopped, signing once more, or concluded;
O18 and O19. -/
namespace Sys2Proof.Proofs.PublicKey
open Sys2Proof Sys2Proof.Machine Sys2Proof.Laws Sys2Proof.Proofs.JobEnd Sys2Proof.Proofs.AroundEnd
open Sys2Proof.Proofs.KeyMoves Sys2Proof.Proofs.MemoryFrame

/-! ### The eight commands and the job they end -/

/-- A row of the table of public-key commands. -/
abbrev PkRow := (Nat → RunEnd → Instr) × Nat × (State → Job → Bound → PkOut)

theorem exec_of_pkTable {x : PkRow} (listed : x ∈ pkTable) (id : Nat) (r : RunEnd) (s : State) :
    exec (x.1 id r) s = .next (s.pkEnd x.2.1 id r x.2.2) := by
  simp only [pkTable, List.mem_cons, List.not_mem_nil, or_false] at listed
  rcases listed with rfl | rfl | rfl | rfl | rfl | rfl | rfl | rfl <;> rfl

/-- No public-key command is KEY_IMPORT, whose entry alone names a replication set. -/
theorem opcode_of_pkTable {x : PkRow} (listed : x ∈ pkTable) : x.2.1 ≠ 0x0501 := by
  have all : ∀ op ∈ pkTable.map fun x => x.2.1, op ≠ 0x0501 := by decide
  exact all _ (List.mem_map_of_mem listed)

theorem boundJob_spec {s : State} {op id : Nat} {j : Job} {b : Bound} (h : s.boundJob op id = some (j, b)) :
    s.job id = some j ∧ j.bnd = some b ∧ eOp j.entry = op ∧ s.mute = false := by
  unfold State.boundJob at h
  split at h
  · next x found =>
    split at h
    · next y bound =>
      split at h
      · next runs =>
        cases h
        simp only [Bool.and_eq_true, decide_eq_true_eq, Bool.not_eq_true'] at runs
        obtain ⟨⟨⟨⟨_, op⟩, _⟩, heard⟩, _⟩ := runs
        exact ⟨found, bound, op, heard⟩
      · cases h
    · cases h
  · cases h

theorem id_of_job {s : State} {id : Nat} {j : Job} (h : s.job id = some j) : j.id = id := by
  simpa using List.find?_some h

theorem mute_of_endFrame {s t : State} (h : EndFrame s t) : t.mute = s.mute := by
  rw [State.mute, h.pwr]
  rfl

/-! ### What stops a run -/

/-- The stream of a job, if it has one, closed (R175). -/
def shut (s : State) (j : Job) (b : Bound) : State :=
  match b.stream with
  | some n => s.closeStream j.slice n
  | none => s

theorem quietStep_shut (s : State) (j : Job) (b : Bound) : QuietStep s (shut s j b) := by
  unfold shut
  split
  · exact quietStep_closeStream ..
  · exact .refl s

theorem keeps_shut (s : State) (j : Job) (b : Bound) : Keeps s (shut s j b) := by
  unfold shut
  split
  · exact .trans (.still (t := s.setSlice _ _) rfl rfl) (keeps_reap _)
  · exact .refl s

/-- The state in which a stopped run leaves its job ended, its wipe noted. -/
def stopEnded (s : State) (j : Job) (b : Bound) (c : Completion) (recorded : Bool) (bad : Option (Fin 16384)) : State :=
  ((shut s j b).finish j c [] recorded).wipeNote b.eng bad

/-- Device memory that answers badly stops the run (R335). -/
theorem stopped_memory {s s1 : State} {j : Job} {b : Bound} {r : RunEnd} {c d : Nat} {rec : Bool} (mldsa : Bool) (res : Bytes)
    (answer : s.memAccess r.mem = (s1, some (c, d), rec)) :
    s.stopped j b r mldsa [] res = some (stopEnded s1 j b { code := c, detail := d, result := res } rec r.wipeBad) := by
  simp only [State.stopped, answer]
  rfl

/-- A failed check, a detector or the iteration bound stops it, its unit in FAULT and recorded (R104, R116). -/
theorem stopped_engine {s : State} {j : Job} {b : Bound} {r : RunEnd} {d : Nat} {mldsa : Bool} (res : Bytes) (mem : r.mem = .ok)
    (detail : endDetail mldsa r.eng = some d) :
    s.stopped j b r mldsa [] res =
      some (stopEnded (s.mismatch j (b.failed r) d) j b { code := cMismatch, detail := d, result := res }
        (!engElsewhere (b.failed r)) r.wipeBad) := by
  simp only [State.stopped, mem, State.memAccess, detail]
  rfl

/-- A run that met nothing goes on. -/
theorem stopped_none {s : State} {j : Job} {b : Bound} {r : RunEnd} (mldsa : Bool) (pre res : Bytes) (mem : r.mem = .ok)
    (eng : r.eng = .ok) : s.stopped j b r mldsa pre res = none := by
  simp only [State.stopped, mem, State.memAccess, eng, endDetail]

/-- How a run ended, with the iteration bound that its own computation met (R104). -/
def judged (r : RunEnd) (o : PkOut) : RunEnd := if r.eng = .ok && o.bound then { r with eng := .iterationBound } else r

/-- What stops a public-key job's run, on the state with the free value of its progress drawn. -/
def pkStop (u : State) (op : Nat) (j : Job) (b : Bound) (r : RunEnd) (o : PkOut) : Option State :=
  ({ u with freeN := u.freeN + 1 } : State).stopped j b r (j.pk.alg = 6 && (op = 0x0101 || op = 0x0103)) []
    (pkStopRes j b o r (Config.progress u.freeN))

/-- The end of a bound job's run whose message is hashed: stopped, signing again, or concluded. -/
theorem pkEnd_eq {s : State} {op id : Nat} (r : RunEnd) {f : State → Job → Bound → PkOut} {j : Job} {b : Bound}
    (bound : s.hashFill.boundJob op id = some (j, b)) (hashed : s.hashFill.hashLacks j b = false) :
    let u := s.hashFill
    let o := f u j b
    s.pkEnd op id r f =
      (pkStop u op j b (judged r o) o).getD
        (if o.again then (u.memNote (judged r o)).drawAgain (judged r o) j b
          else (u.memNote (judged r o)).pkConclude j b (judged r o) o) := by
  intro u o
  simp only [State.pkEnd, bound, hashed, Bool.false_and, Bool.false_eq_true, if_false]
  split
  · next t stops =>
    have stops : pkStop u op j b (judged r o) o = some t := stops
    rw [stops]
    rfl
  · next goes =>
    have goes : pkStop u op j b (judged r o) o = none := goes
    rw [goes]
    rfl

theorem pkEnd_of_stop {s t : State} {op id : Nat} {r : RunEnd} {f : State → Job → Bound → PkOut} {j : Job} {b : Bound}
    (bound : s.hashFill.boundJob op id = some (j, b)) (hashed : s.hashFill.hashLacks j b = false)
    (stops : pkStop s.hashFill op j b (judged r (f s.hashFill j b)) (f s.hashFill j b) = some t) : s.pkEnd op id r f = t := by
  rw [pkEnd_eq r bound hashed, stops]
  rfl

/-! ### A stopped job's ending -/

/-- Where a run is stopped its job ends. -/
theorem stopEnded_ends {s : State} (j : Job) (b : Bound) (c : Completion) (recorded : Bool) (bad : Option (Fin 16384))
    (heard : s.mute = false) : Ends s (stopEnded s j b c recorded bad) j c [] := by
  have closed := quietStep_shut s j b
  have ended := finish_ends j c [] recorded ((mute_of_endFrame closed.frame).trans heard)
  exact ends_of_after (ends_of_quiet_before closed ended) (endStep_wipeNote ..)

theorem quietStep_mismatch (s : State) (j : Job) (g : Engine) (d : Nat) : QuietStep s (s.mismatch j g d) := by
  unfold State.mismatch State.engMismatch
  dsimp only
  split
  · exact .refl s
  · exact (quietStep_engFault ..).trans (quietStep_record ..)

/-- A failed check ends the job after what it records of its unit (R116). -/
theorem mismatch_ends {u : State} (j : Job) (b : Bound) (g : Engine) (d : Nat) (c : Completion) (recorded : Bool)
    (bad : Option (Fin 16384)) (heard : u.mute = false) :
    Ends u (stopEnded (({ u with freeN := u.freeN + 1 } : State).mismatch j g d) j b c recorded bad) j c [] := by
  have drawn : QuietStep u { u with freeN := u.freeN + 1 } := .silent (endFrame_of_endChanges rfl) rfl
  have noted := drawn.trans (quietStep_mismatch { u with freeN := u.freeN + 1 } j g d)
  exact ends_of_quiet_before noted (stopEnded_ends j b c recorded bad ((mute_of_endFrame noted.frame).trans heard))

/-- The pages of a unit here that failed read FAULT with the class (Table 19.3). -/
theorem mismatch_faults (s : State) (j : Job) {g : Engine} (d : Nat) (here : ∀ n, g ≠ .member n) {p : Page}
    (page : p ∈ engPages (failing g)) : Faulted (s.mismatch j g d) p d := by
  have own : engElsewhere g = false := by
    cases g with
    | member n => exact absurd rfl (here n)
    | _ => rfl
  unfold State.mismatch State.engMismatch
  dsimp only
  rw [own]
  exact (keeps_record ..).fault p d (engFault_faults s _ d page)

/-- A page in FAULT stays in it whatever a wipe finds (R137), and keeps its class where the wipe finds nothing. -/
theorem faulted_wipeNote {s : State} {p : Page} {c : Nat} (g : Engine) (bad : Option (Fin 16384)) (h : Faulted s p c) :
    ((s.wipeNote g bad).hd p).st = .fault ∧ (bad = none → ((s.wipeNote g bad).hd p).fclass = c) := by
  unfold State.wipeNote
  split
  · next t a =>
    have again : ∃ d, Faulted (s.setSt (.pkt t) .fault 4) p d := by
      by_cases same : p = .pkt t
      · exact ⟨4, same ▸ setSt_faults s p 4⟩
      · exact ⟨c, faulted_setSt_ne _ _ same h⟩
    obtain ⟨d, faults⟩ := again
    exact ⟨((keeps_record ..).fault p d faults).1, nofun⟩
  · exact ⟨h.1, fun _ => h.2⟩

/-- That page still reads FAULT once the job has ended. -/
theorem stopEnded_faults {s : State} {p : Page} {d : Nat} (j : Job) (b : Bound) (c : Completion) (recorded : Bool)
    (bad : Option (Fin 16384)) (h : Faulted s p d) :
    ((stopEnded s j b c recorded bad).hd p).st = .fault ∧
      (bad = none → ((stopEnded s j b c recorded bad).hd p).fclass = d) :=
  faulted_wipeNote _ _ ((keeps_finish ..).fault p d ((keeps_shut s j b).fault p d h))

theorem judged_mem_wipeBad (r : RunEnd) (o : PkOut) : (judged r o).mem = r.mem ∧ (judged r o).wipeBad = r.wipeBad := by
  unfold judged
  split
  · exact ⟨rfl, rfl⟩
  · exact ⟨rfl, rfl⟩

/-- An end of the engine's own is not judged anew. -/
theorem judged_of_eng {r : RunEnd} (o : PkOut) (h : r.eng ≠ .ok) : judged r o = r := by
  simp [judged, h]

/-- The computation that meets the iteration bound, or the engine that does, ends the run so (R104). -/
theorem judged_iterationBound {r : RunEnd} {o : PkOut} (h : r.eng = .iterationBound ∨ r.eng = .ok ∧ o.bound = true) :
    (judged r o).eng = .iterationBound := by
  rcases h with eng | ⟨eng, bound⟩
  · rw [judged_of_eng o (by rw [eng]; decide)]
    exact eng
  · simp [judged, eng, bound]

/-- RESULT of a run that device memory stopped does not tell how the engine ended (Table 5.10). -/
theorem pkStopRes_of_memory {r q : RunEnd} (j : Job) (b : Bound) (o : PkOut) (n : Nat) (failed : r.mem ≠ .ok)
    (same : q.mem = r.mem) : pkStopRes j b o q n = pkStopRes j b o r n := by
  unfold pkStopRes
  rw [same]
  cases mem : r.mem with
  | ok => exact absurd mem failed
  | _ => rfl

theorem pkStop_memory {u s1 : State} {op : Nat} {j : Job} {b : Bound} {r : RunEnd} {o : PkOut} {c d : Nat} {rec : Bool}
    (failed : r.mem ≠ .ok) (answer : ({ u with freeN := u.freeN + 1 } : State).memAccess r.mem = (s1, some (c, d), rec)) :
    pkStop u op j b (judged r o) o =
      some (stopEnded s1 j b { code := c, detail := d, result := pkStopRes j b o r (Config.progress u.freeN) } rec r.wipeBad) := by
  obtain ⟨mem, wipe⟩ := judged_mem_wipeBad r o
  rw [pkStop, stopped_memory _ _ (by rw [mem]; exact answer), pkStopRes_of_memory j b o _ failed mem, wipe]

theorem pkStop_engine {u : State} {op : Nat} {j : Job} {b : Bound} {r : RunEnd} {o : PkOut} {d : Nat} (mem : r.mem = .ok)
    (detail : endDetail (j.pk.alg = 6 && (op = 0x0101 || op = 0x0103)) r.eng = some d) :
    pkStop u op j b r o =
      some (stopEnded (({ u with freeN := u.freeN + 1 } : State).mismatch j (b.failed r) d) j b
        { code := cMismatch, detail := d, result := pkStopRes j b o r (Config.progress u.freeN) }
        (!engElsewhere (b.failed r)) r.wipeBad) := stopped_engine _ mem detail

/-- Settles O19: device memory, a failed check or detector, and the iteration bound, each as a stop of the run. -/
theorem stoppedJobs : Obligations.StoppedJobs := by
  intro x listed s s1 id r j b u bound hashed o res
  obtain ⟨_, _, _, heard⟩ := boundJob_spec bound
  have stops {t : State} (h : pkStop u x.2.1 j b (judged r o) o = some t) : exec (x.1 id r) s = .next t :=
    (exec_of_pkTable listed id r s).trans (congrArg _ (pkEnd_of_stop bound hashed h))
  refine ⟨?_, ?_, ?_⟩
  · intro c d rec failed answer
    have heard' := memAccess_mute { u with freeN := u.freeN + 1 } r.mem
    rw [answer] at heard'
    replace heard' : s1.mute = false := heard'.trans heard
    exact ⟨_, stops (pkStop_memory failed answer), stopEnded_ends _ _ _ _ _ heard'⟩
  · intro mem ends d
    have own : r.eng ≠ .ok := by rcases ends with h | h <;> rw [h] <;> decide
    have detail : endDetail (j.pk.alg = 6 && (x.2.1 = 0x0101 || x.2.1 = 0x0103)) r.eng = some d := by
      rcases ends with h | h <;> simp [d, h, endDetail]
    have stop := stops (by rw [judged_of_eng o own]; exact pkStop_engine mem detail)
    exact ⟨_, stop, mismatch_ends _ _ _ _ _ _ _ heard,
      fun here p page => stopEnded_faults _ _ _ _ _ (mismatch_faults _ j d here page)⟩
  · intro mem ends mldsa signs
    have eng := judged_iterationBound ends
    have mem' : (judged r o).mem = .ok := (judged_mem_wipeBad r o).1.trans mem
    have stop := stops (pkStop_engine (d := 3) mem' (by simp [eng, endDetail, mldsa, signs]))
    have result : pkStopRes j b o (judged r o) (Config.progress u.freeN) = pkResult j 0 o.hashed 1024 b.tallyLeft := by
      rw [pkStopRes, mem', eng]
    rw [result] at stop
    exact ⟨_, stop, mismatch_ends _ _ _ _ _ _ _ heard⟩

/-! ### A key that a job creates -/

theorem bumpSet_zero (s : State) : s.bumpSet 0 = s := if_neg (by simp)

/-- The archive takes a record of a key; the keys themselves stay (R244). -/
theorem archWrite_frame (s : State) (k : KeyRec) (n : Option Nat) :
    ∃ v a b, s.archWrite k n = { s with vault := v, ks := { s.ks with archive := a, archiveB := b } } := by
  unfold State.archWrite
  split
  · exact ⟨_, _, _, rfl⟩
  · dsimp only
    split
    · exact ⟨_, _, _, rfl⟩
    · exact ⟨_, _, _, rfl⟩

/-- The parameters of a public-key operation name no replication set. -/
theorem newKeyOf_replSet {v : SliceView} {e : Bytes} {n : NewKey} (created : newKeyOf v e = some n) (other : eOp e ≠ 0x0501) :
    n.replSet = 0 := by
  unfold newKeyOf at created
  dsimp only at created
  split at created
  case h_5 =>
    split at created
    · cases created; rfl
    · cases created
  case h_7 h => exact absurd h other
  case h_9 => cases created
  all_goals
    cases created
    rfl

/-- The handle of a key that takes a reserved place now (R215). -/
def newHandle (s : State) (r : Reservation) : Nat := mkHandle r.slice r.index (NMap.getD s.vault.gens r.slice 1)

/-- A key under a handle with its material and public key. -/
def Stands (s : State) (h : Nat) (material pub : Bytes) : Prop :=
  ∃ k, s.keyIn h = some k ∧ k.handle = h ∧ k.material = material ∧ k.pub = pub ∧ k.live = true

theorem stands_of_keeps {s t : State} {h : Nat} {material pub : Bytes} (kept : Keeps s t) (stands : Stands s h material pub) :
    Stands t h material pub := by
  obtain ⟨k, found, handle, mat, pk, live⟩ := stands
  obtain ⟨x, stays, handle', mat', pk', live'⟩ := kept.keys _ k found live
  exact ⟨x, stays, handle'.trans handle, mat'.trans mat, pk'.trans pk, live'⟩

/-- A key put in the store and the archive stands at the place its handle names. -/
theorem stands_archWrite_putKey (s : State) (k : KeyRec) (n : Option Nat) (live : k.live = true) :
    Stands ((s.putKey k).archWrite k n) k.handle k.material k.pub := by
  obtain ⟨v, a, b, e⟩ := archWrite_frame (s.putKey k) k n
  rw [e]
  exact ⟨k, find_set_self .., rfl, rfl, rfl, live⟩

theorem quietStep_archWrite_putKey (s : State) (k : KeyRec) (n : Option Nat) : QuietStep s ((s.putKey k).archWrite k n) := by
  obtain ⟨v, a, b, e⟩ := archWrite_frame (s.putKey k) k n
  rw [e]
  exact .silent ⟨rfl, rfl, rfl, rfl, rfl, rfl, rfl, rfl, rfl, rfl, rfl⟩ rfl

/-- What creating a key of no replication set comes to: the slice's counters move on, and a record under the new handle is
put in the store and the archive (R99, R215). -/
theorem createKey_eq {s : State} {r : Reservation} {n : NewKey} (material pub dig : Bytes) (alone : n.replSet = 0) :
    ∃ v k, s.createKey r n material pub dig id = (({ s with vault := v }.putKey k).archWrite k r.arch, newHandle s r) ∧
      k.handle = newHandle s r ∧ k.material = material ∧ k.pub = pub ∧ k.live = true := by
  unfold State.createKey
  dsimp only
  rw [alone, bumpSet_zero]
  refine ⟨_, _, rfl, ?_⟩
  split
  · exact ⟨rfl, rfl, rfl, rfl⟩
  · exact ⟨rfl, rfl, rfl, rfl⟩

theorem quietStep_vault (s : State) (v : Vault) : QuietStep s { s with vault := v } :=
  .silent ⟨rfl, rfl, rfl, rfl, rfl, rfl, rfl, rfl, rfl, rfl, rfl⟩ rfl

/-- The created key stands at the place its handle names before anything is written to host memory. -/
theorem createKey_stands {s : State} {r : Reservation} {n : NewKey} (material pub dig : Bytes) (alone : n.replSet = 0) :
    let t := s.createKey r n material pub dig id
    t.2 = newHandle s r ∧ QuietStep s t.1 ∧ Stands t.1 (newHandle s r) material pub := by
  obtain ⟨v, k, e, handle, rfl, rfl, live⟩ := createKey_eq (s := s) (r := r) material pub dig alone
  rw [e, ← handle]
  exact ⟨rfl, (quietStep_vault s v).trans (quietStep_archWrite_putKey ..), stands_archWrite_putKey _ _ _ live⟩

/-! ### A job concluded -/

/-- The state in which a run that came to its end leaves its job. -/
def runEnded (s : State) (j : Job) (b : Bound) (c : Completion) (out : Bytes) (bad : Option (Fin 16384)) : State :=
  (s.finish j c out false).wipeNote b.eng bad

theorem runEnded_ends {s : State} (j : Job) (b : Bound) (c : Completion) (out : Bytes) (bad : Option (Fin 16384))
    (heard : s.mute = false) : Ends s (runEnded s j b c out bad) j c out :=
  ends_of_after (finish_ends j c out false heard) (endStep_wipeNote ..)

theorem wipeNote_ks (s : State) (g : Engine) (bad : Option (Fin 16384)) : (s.wipeNote g bad).ks = s.ks := by
  unfold State.wipeNote
  split
  · next t a =>
    obtain ⟨h, m, o, e⟩ := setSt_frame s (.pkt t) .fault 4
    rw [logged_record, e]
  · rfl

theorem runEnded_stands {s : State} {h : Nat} {material pub : Bytes} (j : Job) (b : Bound) (c : Completion) (out : Bytes)
    (bad : Option (Fin 16384)) (stands : Stands s h material pub) : Stands (runEnded s j b c out bad) h material pub := by
  have kept := stands_of_keeps (keeps_finish s j c out false) stands
  unfold Stands State.keyIn at *
  rwa [runEnded, wipeNote_ks]

/-- How a run that met no row of Table 5.16 ends (Table 5.10). -/
def concluded (j : Job) (b : Bound) (o : PkOut) (h : Nat) : Completion :=
  { code := cOK, outLen := o.out.length, result := pkResult j h o.hashed o.iter b.tallyLeft }

/-- A row of Table 5.16 ends the job with its code and detail. -/
theorem pkConclude_bad {s : State} {j : Job} {b : Bound} {r : RunEnd} {o : PkOut} {c d : Nat} (bad : o.bad = some (c, d)) :
    s.pkConclude j b r o =
      runEnded s j b { code := c, detail := d, result := pkResult j 0 o.hashed 0 b.tallyLeft } [] r.wipeBad := by
  simp only [State.pkConclude, bad]
  rfl

/-- A key is created first where the job has a place for it (R99). -/
theorem pkConclude_key {s : State} {j : Job} {b : Bound} (r : RunEnd) {o : PkOut} {m : Bytes} {rv : Reservation} {n : NewKey}
    (good : o.bad = none) (material : o.material = some m) (place : b.resv = some rv)
    (created : newKeyOf (s.jobView j) j.entry = some n) :
    let k := s.jobKey j rv (if n.ktype = 3 then { n with klen := m.length } else n) m o.pub id
    s.pkConclude j b r o = runEnded k.1 j b (concluded j b o k.2) o.out r.wipeBad := by
  simp only [State.pkConclude, good, material, place, created]
  rfl

/-- Where it has none nothing goes before the ending, but for a job of a head's, whose key goes to the head (R295). -/
theorem pkConclude_plain {s : State} {j : Job} {b : Bound} (r : RunEnd) {o : PkOut} (good : o.bad = none)
    (plain : ∀ m rv n, o.material = some m → b.resv = some rv → newKeyOf (s.jobView j) j.entry = some n → False) :
    ∃ t, EndFrame s t ∧ (j.remote = none → t = s) ∧
      s.pkConclude j b r o = runEnded t j b (concluded j b o 0) o.out r.wipeBad := by
  unfold State.pkConclude
  rw [good]
  dsimp only
  split
  · next m _ _ =>
    cases host : j.remote with
    | none => exact ⟨s, endFrame_of_endChanges rfl, fun _ => rfl, rfl⟩
    | some x => exact ⟨_, endFrame_of_endChanges (endChanges_sendMove s 0 (.created x.id m)), nofun, rfl⟩
  · next m rv n material place created => exact (plain m rv n material place created).elim
  · exact ⟨s, endFrame_of_endChanges rfl, fun _ => rfl, rfl⟩

/-- The job's key stands at its place before the job ends. -/
theorem jobKey_stands {s : State} {j : Job} {rv : Reservation} {n : NewKey} (m pub : Bytes) (alone : n.replSet = 0) :
    let t := s.jobKey j rv n m pub id
    t.2 = newHandle s rv ∧ QuietStep s t.1 ∧ Stands t.1 (newHandle s rv) m pub :=
  createKey_stands m pub _ alone

/-- With a place for its key the job ends OK with its output, the key stands, and RESULT names it (R99). -/
theorem pkConclude_key_ends {s : State} {j : Job} {b : Bound} (r : RunEnd) {o : PkOut} {m : Bytes} {rv : Reservation}
    {n : NewKey} (heard : s.mute = false) (good : o.bad = none) (material : o.material = some m) (place : b.resv = some rv)
    (created : newKeyOf (s.jobView j) j.entry = some n) (alone : n.replSet = 0) :
    Ends s (s.pkConclude j b r o) j (concluded j b o (newHandle s rv)) o.out ∧
      Stands (s.pkConclude j b r o) (newHandle s rv) m o.pub := by
  have sized : (if n.ktype = 3 then { n with klen := m.length } else n).replSet = 0 := by
    split
    · exact alone
    · exact alone
  obtain ⟨handle, quiet, stands⟩ := jobKey_stands (s := s) (j := j) (rv := rv) m o.pub sized
  rw [pkConclude_key r good material place created, handle]
  exact ⟨ends_of_quiet_before quiet (runEnded_ends _ _ _ _ _ ((mute_of_endFrame quiet.frame).trans heard)),
    runEnded_stands _ _ _ _ _ stands⟩

/-- Without one it ends OK with its output. -/
theorem pkConclude_plain_ends {s : State} {j : Job} {b : Bound} (r : RunEnd) {o : PkOut} (heard : s.mute = false)
    (good : o.bad = none)
    (plain : ∀ m rv n, o.material = some m → b.resv = some rv → newKeyOf (s.jobView j) j.entry = some n → False) :
    Ends s (s.pkConclude j b r o) j (concluded j b o 0) o.out := by
  obtain ⟨t, frame, host, e⟩ := pkConclude_plain r good plain
  have ended := runEnded_ends j b (concluded j b o 0) o.out r.wipeBad ((mute_of_endFrame frame).trans heard)
  rw [e]
  exact ends_of_before frame (fun h => host h ▸ .refl s) ended

/-! ### A job that signs again -/

/-- The last internal instance's stop may be recorded (R206). -/
theorem logged_noteStop (s : State) : Logged s s.noteStop := by
  unfold State.noteStop
  split
  · exact logged_refl s
  · exact logged_trans (t := { s with rng := { s.rng with intStopNoted := true } }) rfl (logged_record ..)

/-- A served request of the internal instances leaves every job (R197). -/
theorem intRequest_jobs {s t : State} {x : Bytes} (served : s.intRequest .ok = (t, .got x)) : t.jobs = s.jobs := by
  unfold State.intRequest at served
  split at served
  · cases served
  · next n _ =>
    split at served
    · cases served
    · have last : t = (s.genInternal n).2.noteStop := (congrArg Prod.fst served).symm
      rw [last, logged_noteStop, logged_genInternal s n]

/-- A job's record put under its number is what stands there. -/
theorem job_putJob {s : State} {id : Nat} {j x : Job} (found : s.job id = some j) (same : x.id = id) :
    (s.putJob x).job id = some x := by
  subst same
  have kept : ((fun y : Job => decide (y.id = x.id)) ∘ fun y => if y.id = x.id then x else y) =
      fun y => decide (y.id = x.id) := by
    funext y
    by_cases h : y.id = x.id <;> simp [h]
  have last : (if j.id = x.id then x else j) = x := if_pos (id_of_job found)
  unfold State.job State.putJob at *
  rw [List.find?_map, kept, found, Option.map_some, last]

/-- A signature whose secret will not do draws another, under which the job signs again (R100). -/
theorem drawAgain_got {s t : State} {r : RunEnd} {j : Job} {b : Bound} {x : Bytes} (here : b.remote = false)
    (served : s.intRequest (drawEnd r 0) = (t, .got x)) :
    s.drawAgain r j b = (t.waitOver j.id).putJob { j with bnd := some { b with rnd := x } } := by
  unfold State.drawAgain
  rw [here, served]
  rfl

/-- A run that met nothing goes on to its conclusion, or signs again. -/
theorem pkEnd_goes_on {s : State} {op id : Nat} {w : Option (Fin 16384)} {f : State → Job → Bound → PkOut} {j : Job}
    {b : Bound} (bound : s.hashFill.boundJob op id = some (j, b)) (hashed : s.hashFill.hashLacks j b = false)
    (within : (f s.hashFill j b).bound = false) :
    let u := s.hashFill
    let o := f u j b
    s.pkEnd op id { wipeBad := w } f =
      if o.again then u.drawAgain { wipeBad := w } j b else u.pkConclude j b { wipeBad := w } o := by
  intro u o
  have same : judged { wipeBad := w } o = { wipeBad := w } := by simp [judged, o, u, within]
  rw [pkEnd_eq _ bound hashed, same, pkStop, stopped_none _ _ _ rfl rfl]
  rfl

/-- Settles O18: the row of Table 5.16, the key created, the plain ending, and the signature drawn again. -/
theorem publicKeyJobs : Obligations.PublicKeyJobs := by
  intro x listed s id w j b u bound hashed o within
  obtain ⟨found, _, op, heard⟩ := boundJob_spec bound
  have run : exec (x.1 id { wipeBad := w }) s = .next (s.pkEnd x.2.1 id { wipeBad := w } x.2.2) := exec_of_pkTable listed id _ s
  rw [pkEnd_goes_on bound hashed within] at run
  refine ⟨fun once => ?_, fun again here u1 y served => ?_⟩
  · rw [if_neg (by rw [show (x.2.2 s.hashFill j b).again = false from once]; decide)] at run
    refine ⟨_, run, ?_⟩
    split
    · next c d bad =>
      rw [pkConclude_bad bad]
      exact runEnded_ends _ _ _ _ _ heard
    · next good =>
      split
      · next m rv n material place created =>
        have alone := newKeyOf_replSet created (by rw [op]; exact opcode_of_pkTable listed)
        exact pkConclude_key_ends _ heard good material place created alone
      · next plain => exact pkConclude_plain_ends _ heard good plain
  · rw [if_pos again, drawAgain_got here served] at run
    refine ⟨_, run, ?_⟩
    have found' : (u1.waitOver j.id).job id = some j := by
      have jobs : (u1.waitOver j.id).jobs = u.jobs := (intRequest_jobs served :)
      rw [State.job, jobs]
      exact found
    exact job_putJob found' (show j.id = id from id_of_job found)

end Sys2Proof.Proofs.PublicKey
end

