-- ==== Sys2Proof/Proofs/BenchMode.lean ====
section
/-! SUPPORT. Bench mode (R132 to R138): its entry and exit, the data window, ABORT, GO and the end of a command; O22 and O23. -/
namespace Sys2Proof.Proofs.BenchMode
open Sys2Proof Sys2Proof.Machine Sys2Proof.Laws Sys2Proof.Proofs.Bench Sys2Proof.Proofs.Blocks Sys2Proof.Proofs.AroundEnd

/-! ### The record of a tile -/

/-- The last of two values set under one key is what stands. -/
theorem set_set {α : Type} (m : NMap α) (k : Nat) (v w : α) : NMap.set (NMap.set m k v) k w = NMap.set m k w := by
  induction m with
  | nil => simp [NMap.set]
  | cons p m ih =>
    obtain ⟨a, u⟩ := p
    rcases Nat.lt_trichotomy k a with before | rfl | after
    · simp [NMap.set, before]
    · simp [NMap.set]
    · simp [NMap.set, Nat.lt_asymm after, Nat.ne_of_lt after, ih]

@[simp] theorem setTile_setTile (s : State) (n : Nat) (x y : Tile) : (s.setTile n x).setTile n y = s.setTile n y := by
  simp only [State.setTile, set_set]

theorem tile_record (s : State) (typ sev src : Nat) (c : Bytes) (m : Nat) : (s.record typ sev src c).tile m = s.tile m := by
  rw [logged_record s typ sev src c]
  rfl

theorem tile_setSt (s : State) (p : Page) (st : BlockState) (fc m : Nat) : (s.setSt p st fc).tile m = s.tile m := by
  obtain ⟨h, x, o, e⟩ := setSt_frame s p st fc
  rw [e]
  rfl

/-- A wiped tile reads zeros, whatever its registers become (Table 6.9). -/
theorem word_of_mem_nil {x : Tile} (wiped : x.mem = []) (a : Nat) : x.word a = 0 := by
  rw [Tile.word, wiped]
  rfl

/-- A store leaves every register of the tile. -/
theorem store_status (x : Tile) (a : Nat) (l : List Nat) :
    (x.store a l).busy = x.busy ∧ (x.store a l).done = x.done ∧ (x.store a l).err = x.err := by
  rw [store_frame]
  exact ⟨rfl, rfl, rfl⟩

/-! ### Requests to an awake unit -/

theorem completes_of_exec {s t : State} {c : Instr} {P : State → Prop} (run : exec c s = .next t) (after : P t) :
    Completes c s P := ⟨t, run, after⟩

/-- A host request of an awake unit completes with what its body gives. -/
theorem completes_of_awake {s : State} {c : Instr} {f : State → State} {P : State → Prop} (awake : s.awake)
    (request : exec c s = .next (s.hostReq c f)) (after : P (f s)) : Completes c s P :=
  ⟨f s, by rw [request, hostReq_awake s c f awake], after⟩

/-- In bench mode, and where it must with no command running, a bench operation acts (R133, R134). -/
theorem onBench_acts {s : State} {n : Fin 96} {idle : Bool} (f : State → State)
    (answers : s.pageAnswers (.pkt n) = true ∧ noWrites (.pkt n) = false) (bench : (s.tile n.val).bench = true)
    (free : idle = true → (s.tile n.val).busy = false) : s.onBench n idle f = f s := by
  rw [State.onBench, onPage_answers s _ _ answers, if_neg (by simp [bench]), if_neg]
  rw [Bool.and_eq_true]
  rintro ⟨must, busy⟩
  simp [free must] at busy

/-! ### Entering and leaving (R132, R133) -/

/-- A tile as ENTER and EXIT leave it: wiped, in bench mode or out of it. -/
def blank (x : Tile) (bench : Bool) : Tile := { x.wiped with bench := bench }

theorem blank_spec (x : Tile) (bench : Bool) :
    (blank x bench).bench = bench ∧ (blank x bench).modulus = none ∧ ∀ a, (blank x bench).word a = 0 :=
  ⟨rfl, rfl, word_of_mem_nil rfl⟩

theorem benchWipe_clean (s : State) (n : Fin 96) : s.benchWipe n none = s.setTile n.val (s.tile n.val).wiped := rfl

theorem benchEnterBody_enters {s : State} {n : Fin 96}
    (answers : s.pageAnswers (.pkt n) = true ∧ noWrites (.pkt n) = false) (test : s.lcsCode = 1 ∨ s.lcsCode = 5)
    (offline : (s.hd (.pkt n)).st = .offline) (anchor : s.otherAnchor n = true) :
    benchEnterBody n none s = (s.setTile n.val (blank (s.tile n.val) true)).record 0x0A04 2 (srcTile n.val)
      (toLE 1 n.val ++ toLE 1 s.lcsCode) := by
  have allowed : ¬(s.lcsCode != 1 && s.lcsCode != 5) = true := by rcases test with h | h <;> simp [h]
  rw [benchEnterBody, onPage_answers s _ _ answers, if_neg allowed, if_neg (by simp [offline]), if_neg (by simp [anchor])]
  simp only [benchWipe_clean, tile_setTile, setTile_setTile]
  rfl

theorem benchEnterBody_refused {s : State} {n : Fin 96} (bad : Option (Fin 16384))
    (answers : s.pageAnswers (.pkt n) = true ∧ noWrites (.pkt n) = false) (test : s.lcsCode ≠ 1) (repair : s.lcsCode ≠ 5) :
    benchEnterBody n bad s = s.refuse (.pkt n) cForbids 1 := by
  rw [benchEnterBody, onPage_answers s _ _ answers, if_pos (by simp [test, repair])]

theorem benchExitBody_leaves {s : State} {n : Fin 96}
    (answers : s.pageAnswers (.pkt n) = true ∧ noWrites (.pkt n) = false) (bench : (s.tile n.val).bench = true) :
    benchExitBody n none s = s.setTile n.val (blank (s.tile n.val) false) := by
  rw [benchExitBody, onBench_acts _ answers bench (by simp), State.benchLeave]
  simp only [benchWipe_clean, tile_setTile, setTile_setTile]
  rfl

/-! ### The data window (R134) -/

/-- A tile whose data window has moved on by one word. -/
def movedOn (x : Tile) : Tile := { x with addr := (x.addr + 1) % 16384 }

@[simp] theorem word_movedOn (x : Tile) (a : Nat) : (movedOn x).word a = x.word a := rfl

@[simp] theorem addr_movedOn (x : Tile) : (movedOn x).addr = (x.addr + 1) % 16384 := rfl

@[simp] theorem addr_put (x : Tile) (a v : Nat) : (x.put a v).addr = x.addr := rfl

/-- The 40-bit word that a write of PKT_BENCH_DATA_HI completes. -/
def pairWord (x : Tile) (v : BitVec 32) : Nat := v.toNat % 256 * 2 ^ 32 + x.dataLo.toNat

theorem pairWord_lt (x : Tile) (v : BitVec 32) : pairWord x v < 2 ^ 40 := by
  have := x.dataLo.isLt
  unfold pairWord
  omega

/-- A tile after a write through its data window: the word at the address, then the next address. -/
def windowWritten (x : Tile) (v : BitVec 32) : Tile := movedOn (x.put x.addr (pairWord x v))

theorem windowWritten_spec (x : Tile) (v : BitVec 32) :
    (windowWritten x v).word x.addr = pairWord x v ∧ (∀ a, a ≠ x.addr → (windowWritten x v).word a = x.word a) ∧
      (windowWritten x v).addr = (x.addr + 1) % 16384 := by
  unfold windowWritten
  refine ⟨?_, fun a other => ?_, ?_⟩
  · rw [word_movedOn, word_put_self, Nat.mod_eq_of_lt (pairWord_lt x v)]
  · rw [word_movedOn, word_put_ne _ _ other]
  · rw [addr_movedOn, addr_put]

theorem benchDataBody_write {s : State} {n : Fin 96} (v : BitVec 32)
    (answers : s.pageAnswers (.pkt n) = true ∧ noWrites (.pkt n) = false) (bench : (s.tile n.val).bench = true)
    (idle : (s.tile n.val).busy = false) :
    benchDataBody n true v s = s.setTile n.val (windowWritten (s.tile n.val) v) := by
  rw [benchDataBody, if_pos rfl, onBench_acts _ answers bench fun _ => idle]
  rfl

theorem benchDataBody_read {s : State} {n : Fin 96} (v : BitVec 32)
    (answers : s.pageAnswers (.pkt n) = true ∧ noWrites (.pkt n) = false) :
    benchDataBody n false v s = s.setTile n.val (movedOn (s.tile n.val)) := by
  rw [benchDataBody, if_neg Bool.false_ne_true, onPage_answers s _ _ answers]
  rfl

/-! ### ABORT (Table 6.9) -/

/-- A string of at most `k` times `n` octets is cut into at most `k` pieces. -/
theorem length_chunksF_le {n f k : Nat} {b : Bytes} (h : b.length ≤ n * k) : (chunksF n f b).length ≤ k := by
  induction f generalizing b k with
  | zero => exact Nat.zero_le k
  | succ f ih =>
    cases b with
    | nil => exact Nat.zero_le k
    | cons a b =>
      cases k with
      | zero => simp at h
      | succ k =>
        have rest : ((a :: b).drop n).length ≤ n * k := by
          rw [List.length_drop]
          exact Nat.sub_le_of_le_add h
        exact Nat.succ_le_succ (ih rest)

/-- The free words that stand in for `n` words of an aborted command's result. -/
def freeWords (s : State) (n : Nat) : List Nat := (chunks 5 (s.free (5 * n)).1).map leNat

theorem length_freeWords_le (s : State) (n : Nat) : (freeWords s n).length ≤ n := by
  rw [freeWords, List.length_map]
  exact length_chunksF_le (by simp [State.free])

/-- A tile whose command was aborted, before its D region takes free words. -/
def aborted (x : Tile) : Tile := { x with busy := false, done := true, err := 7, waves := 0, result := none }

theorem benchAbortBody_stops {s : State} {n : Fin 96} {l : List (BitVec 40)}
    (answers : s.pageAnswers (.pkt n) = true ∧ noWrites (.pkt n) = false) (busy : (s.tile n.val).busy = true)
    (result : (s.tile n.val).result = some l) :
    benchAbortBody n s = (s.free (5 * l.length)).2.setTile n.val
      ((aborted (s.tile n.val)).store (s.tile n.val).d (freeWords s l.length)) := by
  rw [benchAbortBody, onPage_answers s _ _ answers]
  simp only [busy, result, Bool.not_true, Bool.false_eq_true, if_false]
  rfl

/-- Settles O22: ENTER, its refusal, EXIT, the data window's two accesses, and ABORT. -/
theorem benchMode : Obligations.BenchMode := by
  rintro s n ⟨awake, answers⟩
  refine ⟨?_, ?_, ?_, ?_, ?_⟩
  · intro test offline anchor
    obtain ⟨bench, modulus, words⟩ := blank_spec (s.tile n.val) true
    refine completes_of_awake awake rfl ?_
    rw [benchEnterBody_enters answers test offline anchor]
    simp only [tile_record, tile_setTile]
    refine ⟨bench, modulus, words, fun m other => tile_setTile_ne _ _ other, ?_, ?_⟩
    · rw [logged_record, setTile_regs]
    · rw [logged_record, setTile_jobs]
  · intro test repair
    refine completes_of_awake awake rfl ?_
    rw [benchEnterBody_refused none answers test repair]
    obtain ⟨h, m, o, frame⟩ := refuse_frame s (.pkt n) cForbids 1
    exact ⟨refuse_errCode .., by rw [frame]⟩
  · refine fun bench => ⟨?_, fun idle v => ?_⟩
    · obtain ⟨left, _, words⟩ := blank_spec (s.tile n.val) false
      refine completes_of_awake awake rfl ?_
      rw [benchExitBody_leaves answers bench, tile_setTile]
      exact ⟨left, words, fun m other => tile_setTile_ne _ _ other, rfl⟩
    · obtain ⟨written, others, next⟩ := windowWritten_spec (s.tile n.val) v
      refine completes_of_awake awake rfl ?_
      rw [benchDataBody_write v answers bench idle, tile_setTile]
      exact ⟨written, others, next, rfl⟩
  · intro v
    refine completes_of_awake awake rfl ?_
    rw [benchDataBody_read v answers, tile_setTile]
    exact ⟨rfl, rfl⟩
  · intro l busy result
    obtain ⟨stopped, done, err⟩ :=
      store_status (aborted (s.tile n.val)) (s.tile n.val).d (freeWords s l.length)
    refine completes_of_awake awake rfl ?_
    rw [benchAbortBody_stops answers busy result, tile_setTile]
    refine ⟨stopped, done, err, fun a outside => word_store_ne (aborted (s.tile n.val)) _ _ ?_⟩
    have := length_freeWords_le s l.length
    omega

/-! ### GO (R135, R136) -/

/-- The modulus in force, or 1 where none is. -/
def modulusOf (x : Tile) : Nat := match x.modulus with
  | some (m, _) => m
  | none => 1

/-- A tile that was given a command: ended with the lowest ERR the command meets, or running with its words (Table 6.8). -/
def given (x : Tile) (o : BenchOp) (l : Nat) (f : Tile → Nat → List Nat) : Tile :=
  match benchErr (issued x o l) o l with
  | some e => { issued x o l with done := true, err := e, waves := 0 }
  | none => started x o l (f (issued x o l) (modulusOf x))

theorem benchGo_given {s : State} {n : Fin 96} {l : BitVec 8} {o : BenchOp} {f : Tile → Nat → List Nat}
    (answers : s.pageAnswers (.pkt n) = true ∧ noWrites (.pkt n) = false) (bench : (s.tile n.val).bench = true)
    (idle : (s.tile n.val).busy = false) : s.benchGo n l o f = s.setTile n.val (given (s.tile n.val) o l.toNat f) := by
  rw [State.benchGo, onBench_acts _ answers bench fun _ => idle]
  cases judged : benchErr (issued (s.tile n.val) o l.toNat) o l.toNat with
  | some e =>
    rw [given, judged]
    unfold issued at judged
    simp only [judged]
    rfl
  | none =>
    rw [given, judged]
    unfold issued at judged
    simp only [judged]
    rfl

@[simp] theorem issued_l (x : Tile) (o : BenchOp) (l : Nat) : (issued x o l).l = l := rfl

/-- A row of Table 6.7: the command, its shape, and the words it gives. -/
abbrev BenchRow := (Fin 96 → BitVec 8 → Instr) × BenchOp × (Tile → Nat → List Nat)

/-- Every command of Table 6.7 is a write of GO with its row's shape, whose words are the row's on the tile that it is given
to. -/
theorem exec_of_benchTable {x : BenchRow} {l : BitVec 8} (listed : x ∈ benchTable l) (n : Fin 96) (s : State) :
    ∃ f, exec (x.1 n l) s = .next (s.hostReq (x.1 n l) fun s => s.benchGo n l x.2.1 f) ∧
      ∀ y m, f (issued y x.2.1 l.toNat) m = x.2.2 (issued y x.2.1 l.toNat) m := by
  simp only [benchTable, List.mem_cons, List.not_mem_nil, or_false] at listed
  rcases listed with rfl | rfl | rfl | rfl | rfl | rfl | rfl | rfl | rfl | rfl | rfl | rfl | rfl | rfl | rfl | rfl | rfl <;>
    exact ⟨_, rfl, fun y m => by simp only [issued_l, rInv]⟩

theorem given_congr {x : Tile} {o : BenchOp} {l : Nat} {f g : Tile → Nat → List Nat}
    (same : ∀ m, f (issued x o l) m = g (issued x o l) m) : given x o l f = given x o l g := by
  rw [given, given, same]

/-- Each command of Table 6.7 ends at once or runs, and touches no other tile. -/
theorem benchCommandsGiven : Clause.BenchCommands := by
  rintro s n l ⟨awake, answers⟩ bench idle x listed
  obtain ⟨f, run, words⟩ := exec_of_benchTable listed n s
  refine completes_of_awake awake run ?_
  rw [benchGo_given answers bench idle, given_congr (words (s.tile n.val)), tile_setTile]
  exact ⟨rfl, fun m other => tile_setTile_ne _ _ other, rfl⟩

/-! ### The end of a command (R136, R138) -/

/-- A tile whose command has ended, before what it computed is taken. -/
def idled (x : Tile) : Tile := { x with busy := false, done := true, err := 0, result := none }

/-- What CMP tells of A and B (Table 6.7). -/
def compared (a b : Nat) : Nat := if a = b then 0 else if b < a then 1 else 2

/-- A tile after the end of the command that ran: the modulus that SETMOD takes, what CMP tells, or words at D. -/
def ended (x : Tile) : Tile :=
  if x.op = 1 then { idled x with modulus := some (x.num x.a x.l, x.l) }
  else if x.op = 9 then { idled x with cmp := compared (x.num x.a x.l) (x.num x.b x.l) }
  else (idled x).store x.d ((x.result.getD []).map BitVec.toNat)

theorem ended_setmod {x : Tile} (setmod : x.op = 1) : ended x = { idled x with modulus := some (x.num x.a x.l, x.l) } :=
  if_pos setmod

theorem ended_cmp {x : Tile} (cmp : x.op = 9) :
    ended x = { idled x with cmp := compared (x.num x.a x.l) (x.num x.b x.l) } := by
  rw [ended, if_neg (by simp [cmp]), if_pos cmp]

theorem ended_words {x : Tile} {w : List (BitVec 40)} (setmod : x.op ≠ 1) (cmp : x.op ≠ 9) (result : x.result = some w) :
    ended x = (idled x).store x.d (w.map BitVec.toNat) := by
  rw [ended, if_neg setmod, if_neg cmp, result, Option.getD_some]

theorem benchDone_ends {s : State} {n : Fin 96} {e : EngineEnd} (bad : Option (Fin 16384))
    (busy : (s.tile n.val).busy = true) (own : e ≠ .detector) :
    benchDone n e bad s = s.setTile n.val (ended (s.tile n.val)) := by
  simp only [benchDone, busy, own, Bool.not_true, Bool.false_eq_true, if_false]
  rfl

/-- A tile that a completion detector stopped (R138). -/
def detected (x : Tile) : Tile := { x.wiped with done := true, err := 8, waves := 0 }

theorem benchDone_detector {s : State} {n : Fin 96} (busy : (s.tile n.val).busy = true) :
    benchDone n .detector none s = ((s.setTile n.val (detected (s.tile n.val))).setSt (.pkt n) .fault 2).record 0x0601 4
      (srcTile n.val) (toLE 1 n.val ++ toLE 1 (s.tile n.val).op) := by
  simp only [benchDone, busy, Bool.not_true, Bool.false_eq_true, if_false, if_true]
  rfl

/-- The held words stand at D as they are; every other word stays. -/
theorem word_store_result (x : Tile) (a : Nat) (w : List (BitVec 40)) :
    (∀ i (h : i < w.length), (x.store a (w.map BitVec.toNat)).word (a + i) = (w[i]).toNat) ∧
      ∀ b, b < a ∨ a + w.length ≤ b → (x.store a (w.map BitVec.toNat)).word b = x.word b := by
  refine ⟨fun i h => ?_, fun b outside => word_store_ne x a _ (by rwa [List.length_map])⟩
  rw [word_store x a _ i (by rwa [List.length_map]), List.getElem_map, Nat.mod_eq_of_lt (w[i]).isLt]

/-- The end of a command: its words at D, SETMOD's modulus, CMP's answer, or a completion detector's stop. -/
theorem benchCommandEnds : Clause.BenchCommandEnds := by
  rintro s n x w rfl busy result
  refine ⟨?_, ?_, ?_, ?_⟩
  · intro setmod cmp e own
    obtain ⟨inside, outside⟩ := word_store_result (idled (s.tile n.val)) (s.tile n.val).d w
    obtain ⟨stopped, done, err⟩ := store_status (idled (s.tile n.val)) (s.tile n.val).d (w.map BitVec.toNat)
    refine completes_of_exec rfl ?_
    rw [benchDone_ends none busy own, tile_setTile, ended_words setmod cmp result]
    exact ⟨inside, outside, stopped, done, err, rfl⟩
  · intro setmod
    refine completes_of_exec rfl ?_
    rw [benchDone_ends none busy (by decide), tile_setTile, ended_setmod setmod]
    rfl
  · intro cmp
    refine completes_of_exec rfl ?_
    rw [benchDone_ends none busy (by decide), tile_setTile, ended_cmp cmp]
    rfl
  · obtain ⟨fault, fclass⟩ := (keeps_record _ 0x0601 4 (srcTile n.val) (toLE 1 n.val ++ toLE 1 (s.tile n.val).op)).fault _ _
      (setSt_faults (s.setTile n.val (detected (s.tile n.val))) (.pkt n) 2)
    refine completes_of_exec rfl ?_
    rw [benchDone_detector busy, tile_record, tile_setSt, tile_setTile]
    exact ⟨rfl, word_of_mem_nil rfl, fault, fclass⟩

/-- Settles O23: a command of Table 6.7 as it is given, and its end. -/
theorem benchCommands : Obligations.BenchCommands := ⟨benchCommandsGiven, benchCommandEnds⟩

end Sys2Proof.Proofs.BenchMode
end

