-- ==== Sys2Proof/Proofs/BulkVerification.lean ====
section
/-! SUPPORT. Bulk verification (chapter 7): an item's end, decided or run once more (R141, R145), and the ends of batches and
chains (R144, R154, R155); O20. -/
namespace Sys2Proof.Proofs.Bulk
open Sys2Proof Sys2Proof.Machine Sys2Proof.Laws Sys2Proof.Proofs.JobEnd Sys2Proof.Proofs.AroundEnd
open Sys2Proof.Proofs.KeyMoves Sys2Proof.Proofs.PublicKey
open Sys2Proof.Proofs.BenchMode (completes_of_exec)

/-! ### Engines taken, given back and failed change page headers and the Ledger alone -/

theorem logged_foldl {α : Type} {f : State → α → State} (step : ∀ s a, Logged s (f s a)) (l : List α) (s : State) :
    Logged s (l.foldl f s) := by
  induction l generalizing s with
  | nil => exact logged_refl s
  | cons a l ih => exact logged_trans (step s a) (ih (f s a))

theorem logged_setSt (s : State) (p : Page) (st : BlockState) (fc : Nat) : Logged s (s.setSt p st fc) := by
  obtain ⟨h, m, o, e⟩ := setSt_frame s p st fc
  rw [e]
  rfl

theorem logged_engTake (s : State) (g : Engine) : Logged s (s.engTake g) :=
  logged_foldl (fun a _ => logged_ite (logged_setSt ..) (logged_refl a)) _ s

theorem logged_engDrop (s : State) (g : Engine) : Logged s (s.engDrop g) :=
  logged_foldl (fun a _ => logged_ite (logged_setSt ..) (logged_refl a)) _ s

theorem logged_wipeNote (s : State) (g : Engine) (bad : Option (Fin 16384)) : Logged s (s.wipeNote g bad) := by
  unfold State.wipeNote
  split
  · exact logged_trans (logged_setSt ..) (logged_record ..)
  · exact logged_refl s

theorem logged_mismatch (s : State) (j : Job) (g : Engine) (d : Nat) : Logged s (s.mismatch j g d) :=
  logged_ite (logged_refl s) (logged_trans (logged_foldl (fun _ _ => logged_setSt ..) _ s) (logged_record ..))

theorem job_of_logged {s t : State} (h : Logged s t) (id : Nat) : t.job id = s.job id := by
  rw [h]
  rfl

theorem eng_of_logged {s t : State} (h : Logged s t) : t.eng = s.eng := by rw [h]

/-- An engine taken was READY. -/
theorem keeps_engTake (s : State) (g : Engine) : Keeps s (s.engTake g) := by
  refine .foldl (fun a p => ?_) _ s
  split
  · next ready => exact keeps_setSt _ _ (by rw [ready]; decide)
  · exact .refl a

/-- A tile's wipe leaves every other page in FAULT as it is, and its own where the wipe finds nothing (R137). -/
theorem faulted_wipeNote_tile {s : State} {p : Page} {c : Nat} {tile : Fin 96} {bad : Option (Fin 16384)}
    (apart : p ≠ .pkt tile ∨ bad = none) (h : Faulted s p c) : Faulted (s.wipeNote (.tile tile) bad) p c := by
  cases bad with
  | none => exact h
  | some a => exact (keeps_record ..).fault p c (faulted_setSt_ne _ _ (apart.resolve_right nofun) h)

/-! ### An item that is to be run again, or has failed for good (R141) -/

/-- An item replaced is the one that stands under its index. -/
theorem eq_of_mem_setItem {j : Job} {i y : Item} (h : y ∈ (j.setItem i).items) (same : y.idx = i.idx) : y = i := by
  obtain ⟨x, _, rfl⟩ := List.mem_map.1 h
  split
  · rfl
  · next other => exact absurd same (by simp [other] at same)

/-- An item after a failure of its run: waiting to run once more, or decided by a second one. -/
def itemFailed (i : Item) (d : Nat) : Item :=
  if i.retried then { i with tile := none, member := none, hash := [], hashed := false, out := some (cMismatch, d) }
  else { i with tile := none, member := none, hash := [], hashed := false, retried := true }

theorem itemFailed_idx (i : Item) (d : Nat) : (itemFailed i d).idx = i.idx := by
  unfold itemFailed
  split
  · rfl
  · rfl

theorem itemAgain_job {s : State} {id : Nat} {j : Job} (found : s.job id = some j) (d : Nat) (i : Item) :
    (s.itemAgain id d i).job id = some (j.setItem (itemFailed i d)) := by
  have same : j.id = id := id_of_job found
  unfold State.itemAgain itemFailed
  rw [found]
  dsimp only
  split
  · exact job_putJob found same
  · exact job_putJob (s := { s with eng := { s.eng with itemQueue := (id, i.idx) :: s.eng.itemQueue } }) found same

theorem itemAgain_queue {s : State} {id : Nat} {j : Job} (found : s.job id = some j) (d : Nat) (i : Item) :
    (s.itemAgain id d i).eng.itemQueue = (if i.retried then [] else [(id, i.idx)]) ++ s.eng.itemQueue := by
  unfold State.itemAgain
  rw [found]
  dsimp only
  split
  · rfl
  · rfl

theorem endChanges_itemAgain (s : State) (id d : Nat) (i : Item) : EndChanges s (s.itemAgain id d i) := by
  unfold State.itemAgain
  split
  · exact endChanges_refl s
  · exact endChanges_ite rfl rfl

theorem keeps_itemAgain (s : State) (id d : Nat) (i : Item) : Keeps s (s.itemAgain id d i) := by
  unfold State.itemAgain
  split
  · exact .refl s
  · exact .ite (.still rfl rfl) (.still rfl rfl)

/-! ### A unit that fails under an item -/

/-- The engines of a failed run are dealt with, its item not yet: the job has its items still, the item queue stands, and the
pages of the unit that failed read FAULT with the failure's class, but for the tile's own where its wipe found something. -/
structure RunLost (s t : State) (j : Job) (tile : Fin 96) (unit : Engine) (bad : Option (Fin 16384)) (d : Nat) : Prop where
  changes : EndChanges s t
  eng : t.eng = s.eng
  job : ∃ x, t.job j.id = some x ∧ x.items = j.items
  fault : (∀ n, unit ≠ .member n) → ∀ p ∈ engPages (failing unit), p ≠ .pkt tile ∨ bad = none → Faulted t p d

/-- The failure recorded, engines given back, and the tile's wipe noted. -/
theorem runLost_wiped {s v : State} {j : Job} (unit : Engine) {d : Nat} (tile : Fin 96) (bad : Option (Fin 16384))
    (found : s.job j.id = some j) (dropped : Logged (s.mismatch j unit d) v) (kept : Keeps (s.mismatch j unit d) v) :
    RunLost s (v.wipeNote (.tile tile) bad) j tile unit bad d := by
  have logged := logged_trans (logged_trans (logged_mismatch s j unit d) dropped) (logged_wipeNote v (.tile tile) bad)
  exact {
    changes := endChanges_of_logged logged
    eng := eng_of_logged logged
    job := ⟨j, (job_of_logged logged _).trans found, rfl⟩
    fault := fun here p page apart => faulted_wipeNote_tile apart (kept.fault p d (mismatch_faults s j d here page)) }

theorem RunLost.ite {c : Prop} [Decidable c] {s t v : State} {j : Job} {tile : Fin 96} {unit : Engine}
    {bad : Option (Fin 16384)} {d : Nat} (h : RunLost s t j tile unit bad d) (k : RunLost s v j tile unit bad d) :
    RunLost s (if c then t else v) j tile unit bad d := by
  split
  · exact h
  · exact k

/-- A chain that loses a unit goes on with other units, and keeps its items (R184). -/
theorem RunLost.chainLose {s t : State} {j : Job} {tile : Fin 96} {unit : Engine} {bad : Option (Fin 16384)} {d : Nat}
    (h : RunLost s t j tile unit bad d) (b : Bound) (g : Engine) : RunLost s (t.chainLose j b g) j tile unit bad d := by
  obtain ⟨x, found, _⟩ := h.job
  unfold State.chainLose
  dsimp only
  generalize b.hash.filter (fun x => failing x != failing g) = left
  generalize (if left.isEmpty then (t.chainUnits (sha3Code (eB (t.jobRld j) 0x0F))).take 1 else []) = more
  have put : EndChanges t (t.putJob { j with bnd := some { b with hash := left ++ more } }) := rfl
  have still : Keeps t (t.putJob { j with bnd := some { b with hash := left ++ more } }) := .still rfl rfl
  have taken := logged_foldl logged_engTake more (t.putJob { j with bnd := some { b with hash := left ++ more } })
  exact {
    changes := endChanges_trans h.changes (endChanges_trans put (endChanges_of_logged taken))
    eng := (eng_of_logged taken).trans h.eng
    job := ⟨_, (job_of_logged taken _).trans (job_putJob found rfl), rfl⟩
    fault := fun here p page apart =>
      (still.trans (.foldl keeps_engTake more _)).fault p d (h.fault here p page apart) }

/-- The unit that failed where an item's end says it was not the tile: the first that hashes for the item, or for its chain
(R141). -/
def hashUnitOf (b : Bound) (i : Item) (r : RunEnd) : Option Engine :=
  if r.hashUnit then (if i.hash.isEmpty then b.hash else i.hash).head? else none

/-- A failed run loses its unit, whichever it was, and its item runs again or has failed. -/
theorem itemDone_failed {s : State} {j : Job} {b : Bound} {i : Item} {tile : Fin 96} {r : RunEnd} {d : Nat}
    (found : s.job j.id = some j) (detail : endDetail false r.eng = some d) :
    ∃ v, s.itemDone j b i tile r = v.itemAgain j.id d i ∧
      RunLost s v j tile ((hashUnitOf b i r).getD (.tile tile)) r.wipeBad d := by
  cases unit : hashUnitOf b i r with
  | none =>
    have units : Logged (s.mismatch j (.tile tile) d) (i.hash.foldl State.engDrop (s.mismatch j (.tile tile) d)) :=
      logged_foldl logged_engDrop ..
    refine ⟨_, ?_, runLost_wiped (.tile tile) tile r.wipeBad found units (.foldl keeps_engDrop ..)⟩
    unfold hashUnitOf at unit
    simp only [State.itemDone, detail, unit]
  | some g =>
    have lost := runLost_wiped g tile r.wipeBad found (logged_engDrop (s.mismatch j g d) (.tile tile)) (keeps_engDrop ..)
    refine ⟨_, ?_, .ite (c := i.hash.isEmpty = true) (lost.chainLose b g) lost⟩
    unfold hashUnitOf at unit
    simp only [State.itemDone, detail, unit]

/-! ### An item that is decided (R145) -/

/-- An item whose run came to its end: it has its verification's outcome, or its descriptor's. -/
def itemDecided (s : State) (j : Job) (b : Bound) (i : Item) : Item :=
  { i with tile := none, hash := [], out := some ((s.itemVerify j b i).getD (0, 0)) }

/-- Its tile counts a job and is given back with the units that hashed, and its job has its outcome. -/
theorem itemDone_decided {s : State} {j : Job} {b : Bound} {i : Item} {tile : Fin 96} {r : RunEnd}
    (found : s.job j.id = some j) (passed : endDetail false r.eng = none) :
    (s.itemDone j b i tile r).job j.id = some (j.setItem (itemDecided s j b i)) ∧ EndChanges s (s.itemDone j b i tile r) := by
  have given : Logged (s.tileCount (.tile tile)) ((s.tileCount (.tile tile)).engDrop (.tile tile)) := logged_engDrop ..
  generalize drop : (s.tileCount (.tile tile)).engDrop (.tile tile) = v at given
  have here : v.job j.id = some j := (job_of_logged given _).trans found
  have rest : Logged (v.putJob (j.setItem (itemDecided s j b i)))
      ((i.hash.foldl State.engDrop (v.putJob (j.setItem (itemDecided s j b i)))).wipeNote (.tile tile) r.wipeBad) :=
    logged_trans (logged_foldl logged_engDrop ..) (logged_wipeNote ..)
  have e : s.itemDone j b i tile r =
      (i.hash.foldl State.engDrop (v.putJob (j.setItem (itemDecided s j b i)))).wipeNote (.tile tile) r.wipeBad := by
    simp only [State.itemDone, passed, drop, itemDecided]
  have counted : EndChanges s v := endChanges_trans (endStep_tileCount s (.tile tile)).changes (endChanges_of_logged given)
  have put : EndChanges v (v.putJob (j.setItem (itemDecided s j b i))) := rfl
  rw [e]
  exact ⟨(job_of_logged rest _).trans (job_putJob here rfl),
    endChanges_trans counted (endChanges_trans put (endChanges_of_logged rest))⟩

/-! ### BULK_ITEM_COMPLETE -/

/-- BULK_ITEM_COMPLETE for an item of an open job on a tile, its message hashed, is the item's end. -/
theorem itemEnd_eq {s : State} {id idx : Nat} (r : RunEnd) {j : Job} {b : Bound} {i : Item} {tile : Fin 96}
    (heard : s.hashFill.mute = false) (own : ∀ x ∈ s.hashFill.eng.strays, ¬(x.job = id ∧ x.item = idx))
    (found : s.hashFill.job id = some j) (bound : j.bnd = some b) (item : j.items.find? (fun i => i.idx = idx) = some i)
    (on : i.tile = some tile.val)
    (hashed : (s.hashFill.itemPass j i).isNone = true ∨ i.hash.isEmpty = false ∨ i.hashed = true) :
    itemEnd id idx r s = s.hashFill.itemDone j b i tile r := by
  have strays : s.hashFill.eng.strays.find? (fun x => x.job = id && x.item = idx) = none := by
    rw [List.find?_eq_none]
    intro x listed
    simpa using own x listed
  have passOver : ((s.hashFill.itemPass j i).isSome && i.hash.isEmpty && !i.hashed && s.hashFill.itemHashed j b i) = false := by
    rcases hashed with h | h | h
    · simp [Option.isNone_iff_eq_none.1 h]
    · simp [h]
    · simp [h]
  simp only [itemEnd, heard, strays, found, bound, item, on, passOver, tile.isLt, Bool.false_eq_true, if_false, dif_pos]

/-- An item's end: its outcome, or another run after a failure of its tile or unit. -/
theorem bulkItems : Clause.BulkItems := by
  intro s id idx r j b i tile u heard own found bound item on hashed unit
  have number : j.id = id := id_of_job found
  have index : i.idx = idx := by simpa using List.find?_some item
  subst number index
  refine completes_of_exec (t := u.itemDone j b i tile r)
    (congrArg _ (itemEnd_eq r heard own found bound item on hashed)) ?_
  cases detail : endDetail false r.eng with
  | none =>
    obtain ⟨job, changes⟩ := itemDone_decided found detail
    exact ⟨⟨_, job, fun y => eq_of_mem_setItem⟩, nofun, endFrame_of_endChanges changes⟩
  | some d =>
    obtain ⟨v, done, lost⟩ := itemDone_failed (b := b) (i := i) (tile := tile) found detail
    obtain ⟨x, still, _⟩ := lost.job
    rw [done]
    refine ⟨⟨_, itemAgain_job still d i, fun y listed same => ?_⟩, fun e same => ?_, ?_⟩
    · exact eq_of_mem_setItem listed (same.trans (itemFailed_idx i d).symm)
    · cases same
      refine ⟨fun here p page apart => (keeps_itemAgain ..).fault p d (lost.fault here p page apart), ?_⟩
      rw [itemAgain_queue still, lost.eng]
    · exact endFrame_of_endChanges (endChanges_trans lost.changes (endChanges_itemAgain ..))

/-! ### BATCH_VERIFY -/

/-- An open bulk job is heard: PFW_N has not fallen. -/
theorem bulkJob_heard {s : State} {op id : Nat} {j : Job} {b : Bound} (h : s.bulkJob op id = some (j, b)) :
    s.mute = false := by
  unfold State.bulkJob at h
  split at h
  · split at h
    · split at h
      · next runs =>
        simp only [Bool.and_eq_true, Bool.not_eq_true'] at runs
        exact runs.2
      · cases h
    · cases h
  · cases h

/-- How a batch whose items are all decided ends (R144). -/
def batchCompletion (j : Job) : Completion :=
  let fails := (j.items.filter fun i => i.out != some (0, 0)).length
  { code := if fails = 0 then cOK else cBatchPartial, detail := fails, outLen := (batchOutput j).length, result := batchResult j }

theorem batchEnd_decided {s : State} {id : Nat} {r : RunEnd} {j : Job} {b : Bound} (bulk : s.bulkJob 0x0202 id = some (j, b))
    (mem : r.mem = .ok) (decided : ∀ i ∈ j.items, i.out ≠ none) :
    batchEnd id r s = s.finish j (batchCompletion j) (batchOutput j) false := by
  have all : (j.items.any fun i => i.out.isNone) = false := by simpa using decided
  simp only [batchEnd, bulk, mem, State.memAccess, all, batchCompletion, Bool.false_eq_true, if_false]

/-! ### CHAIN_VERIFY -/

/-- The state in which a chain ends, its items still on tiles left to run out (R154). -/
def chainOver (s : State) (j : Job) (c : Completion) (out : Bytes) (recorded : Bool) : State :=
  (s.stray j).1.finish (s.stray j).2 c out recorded

/-- A chain whose items run out on their tiles ends as the job it was. -/
theorem chainOver_ends {s : State} (j : Job) (c : Completion) (out : Bytes) (recorded : Bool) (heard : s.mute = false) :
    Ends s (chainOver s j c out recorded) j c out :=
  have quiet : QuietStep s (s.stray j).1 := .silent (endFrame_of_endChanges rfl) rfl
  ends_of_quiet_before quiet (finish_ends (s.stray j).2 c out recorded ((mute_of_endFrame quiet.frame).trans heard))

/-- An item lost with a second member ends its chain with that item's code (Table 13.6). -/
theorem chainEnd_lost {s : State} {id : Nat} {r : RunEnd} {j : Job} {b : Bound} {c d : Nat}
    (bulk : s.bulkJob 0x0201 id = some (j, b)) (mem : r.mem = .ok) (whole : j.whole = true)
    (lost : chainLost j (s.chainParse j) = some (c, d)) :
    chainEnd id r s = chainOver s j { code := c, detail := d, result := s.stopRes j j.left } [] true := by
  simp only [chainEnd, bulk, mem, State.memAccess, whole, lost, Bool.not_true, Bool.false_eq_true, if_false]
  rfl

/-- How a chain ends once its first failure `f` is known, or that all of its `n` records have passed (R154, R155). -/
def chainCompletion (s : State) (j : Job) (f : Option (Nat × Nat)) (n : Nat) : Completion :=
  let a := s.chainParse j
  let off := ((a.recs.take n).map List.length).sum
  { code := if f.isSome then cChainBreak else cOK, detail := (f.map Prod.snd).getD 0, outLen := (s.runningHash j a n).length
    result := toLE 4 (if f.isSome then n else 0xFFFFFFFF) ++
      (toLE 4 (if f.isSome then off else 0xFFFFFFFF) ++ toLE 8 (s.nextSeq j a n)) }

/-- A chain decided ends so, and releases its running hash. -/
theorem chainEnd_decided {s : State} {id : Nat} {r : RunEnd} {j : Job} {b : Bound} {f : Option (Nat × Nat)}
    (bulk : s.bulkJob 0x0201 id = some (j, b)) (mem : r.mem = .ok) (whole : j.whole = true)
    (kept : chainLost j (s.chainParse j) = none)
    (decided : chainDecided j (s.chainParse j) (decide ((s.chainParse j).off < (s.chainBody j).length)) = some f) :
    let n := (f.map Prod.fst).getD (s.chainParse j).recs.length
    chainEnd id r s = chainOver s j (chainCompletion s j f n) (s.runningHash j (s.chainParse j) n) false := by
  simp only [chainEnd, bulk, mem, State.memAccess, whole, kept, decided, Bool.not_true, Bool.false_eq_true, if_false]
  rw [List.append_assoc]
  cases f with
  | none => rfl
  | some x => rfl

/-- A batch ends by its items; a chain by an item lost, by its first failure, or with all its records passed. -/
theorem batchesAndChains : Clause.BatchesAndChains := by
  refine ⟨?_, ?_⟩
  · intro s id r j b bulk mem decided fails
    refine completes_of_exec (t := batchEnd id r s) rfl ?_
    rw [batchEnd_decided bulk mem decided]
    exact finish_ends _ _ _ _ (bulkJob_heard bulk)
  · intro s id r j b bulk mem whole a
    have ends (c : Completion) (out : Bytes) (recorded : Bool) : Ends s (chainOver s j c out recorded) j c out :=
      chainOver_ends j c out recorded (bulkJob_heard bulk)
    refine ⟨?_, ?_, ?_⟩
    · intro c d lost
      refine completes_of_exec (t := chainEnd id r s) rfl ?_
      rw [chainEnd_lost bulk mem whole lost]
      exact ends ..
    · intro kept passed
      refine completes_of_exec (t := chainEnd id r s) rfl ?_
      rw [chainEnd_decided bulk mem whole kept passed]
      exact ⟨_, ends ..⟩
    · intro n d kept failed
      refine completes_of_exec (t := chainEnd id r s) rfl ?_
      rw [chainEnd_decided bulk mem whole kept failed]
      exact ⟨_, ends ..⟩

/-- Settles O20: an item's end, and the ends of a batch and a chain. -/
theorem bulkVerification : Obligations.BulkVerification := ⟨bulkItems, batchesAndChains⟩

end Sys2Proof.Proofs.Bulk
end

