-- ==== Sys2Proof/Proofs/SymmetricJobs.lean ====
section
/-! SUPPORT. The end of a symmetric run that nothing stops, the failed opening that streams (R177, R179), and what an ending
fixes of the octets written; O25. -/
namespace Sys2Proof.Proofs.Symmetric
open Sys2Proof Sys2Proof.Machine Sys2Proof.Laws Sys2Proof.Proofs.JobEnd Sys2Proof.Proofs.AroundEnd
open Sys2Proof.Proofs.PublicKey
open Sys2Proof.Proofs.BenchMode (completes_of_exec)

/-! ### What an ending fixes -/

theorem all_endWrites_isWrite (j : Job) (c : Completion) (out : Bytes) : ∀ x ∈ endWrites j c out, x.isWrite = true := by
  unfold endWrites
  split <;> simp [Out.isWrite]

/-- The ending's writes open what the unit writes to host memory. -/
theorem endWrites_prefix_of_ends {s t : State} {j : Job} {c : Completion} {out : Bytes} (host : j.remote = none)
    (e : Ends s t j c out) : endWrites j c out <+: (t.out.drop s.out.length).filter Out.isWrite := by
  obtain ⟨ending, _⟩ := e
  rw [host] at ending
  obtain ⟨⟨pre, rest, sent, quiet⟩, _⟩ := ending
  have silent : pre.filter Out.isWrite = [] := List.filter_eq_nil_iff.2 (by simpa using quiet)
  have all : (endWrites j c out).filter Out.isWrite = endWrites j c out := List.filter_eq_self.2 (all_endWrites_isWrite j c out)
  rw [sent, List.append_assoc, List.append_assoc, List.drop_left, List.filter_append, silent, List.nil_append,
    List.filter_append, all]
  exact List.prefix_append ..

/-- A job does not end in one state in two ways that write the same output with another OUT_LEN. -/
theorem outLen_of_ends {s t : State} {j : Job} {c d : Completion} {out : Bytes} (host : j.remote = none)
    (e : Ends s t j c out) (f : Ends s t j d out) : toLE 4 c.outLen = toLE 4 d.outLen := by
  have same : endWrites j c out = endWrites j d out :=
    (List.prefix_of_prefix_length_le (endWrites_prefix_of_ends host e) (endWrites_prefix_of_ends host f)
      (by simp [endWrites])).eq_of_length (by simp [endWrites])
  simp only [endWrites, List.append_cancel_left_eq, List.cons.injEq, Out.write.injEq] at same
  obtain ⟨⟨_, _, lengths⟩, _⟩ := same
  exact lengths

/-! ### A run that nothing stops -/

/-- With no mask reseed left to ask for, the run ends with what its lanes computed. -/
theorem symEnd_of_masksLeft_zero {s : State} {op id : Nat} {j : Job} {b : Bound} (bound : s.boundJob op id = some (j, b))
    (left : masksLeft op j b = 0) :
    s.symEnd op id {} = (s.waitOver id).symConclude j (s.symIn j b) (symRun (symPar j.entry) (s.symIn j b)) := by
  simp only [State.symEnd, bound, stopped_none (r := {}) false _ _ rfl rfl, left, State.moreMasks]
  rfl

theorem symRun_aeadOpen {p : SymPar} (i : SymIn) (whole : p.abandon = false) (op : p.op = 0x0302) :
    symRun p i = openRun p i := by
  simp [symRun, whole, op]

/-- The stream of a failed segment, if it is one, closes without a write to host memory (R175). -/
theorem quietStep_streamShut (s : State) (j : Job) : QuietStep s (s.streamShut j) := by
  unfold State.streamShut
  split
  · exact quietStep_closeStream ..
  · exact .refl s

/-! ### An opening that streams and fails -/

/-- How an opening ends that streamed `n` octets of plaintext, which it leaves, and whose tag fails: its OUT_LEN is 0 (R179). -/
def distrusted (j : Job) (i : SymIn) (n : Nat) : Completion :=
  { code := cAuthFail, detail := 1, outLen := 0, result := symResult j i n 0 }

theorem symConclude_distrusted {s : State} {j : Job} {i : SymIn} {o : SymOut} (op : eOp j.entry = 0x0302)
    (streams : (symPar j.entry).vfirst = false) (leaves : (symPar j.entry).scrub = false) (fails : o.bad = true) :
    s.symConclude j i o = (s.streamShut j).finish j (distrusted j i o.out.length) o.out false := by
  have op' : (symPar j.entry).op = 0x0302 := op
  simp [State.symConclude, op', streams, leaves, fails, distrusted]

/-- Its plaintext is written, and OUT_LEN 0 after it. -/
theorem aeadOpen_distrusted {s : State} {id : Nat} {j : Job} {b : Bound} (bound : s.boundJob 0x0302 id = some (j, b))
    (left : masksLeft 0x0302 j b = 0) (whole : (symPar j.entry).abandon = false)
    (streams : (symPar j.entry).vfirst = false) (leaves : (symPar j.entry).scrub = false)
    (fails : (openRun (symPar j.entry) (s.symIn j b)).bad = true) :
    let o := openRun (symPar j.entry) (s.symIn j b)
    Completes (.aeadOpen id {}) s fun t => Ends (s.waitOver id) t j (distrusted j (s.symIn j b) o.out.length) o.out := by
  obtain ⟨_, _, op, heard⟩ := boundJob_spec bound
  have closed := quietStep_streamShut (s.waitOver id) j
  refine completes_of_exec (t := s.symEnd 0x0302 id {}) rfl ?_
  rw [symEnd_of_masksLeft_zero bound left, symRun_aeadOpen _ whole op, symConclude_distrusted op streams leaves fails]
  exact ends_of_quiet_before closed (finish_ends _ _ _ _ ((mute_of_endFrame closed.frame).trans heard))

/-- The statement has OUT_LEN count the octets left, so that their number would have to read 0. -/
theorem outLen_zero_of_symmetricJobs (claim : Clause.SymmetricJobs) {s : State} {id : Nat} {j : Job} {b : Bound}
    (host : j.remote = none) (bound : s.boundJob 0x0302 id = some (j, b)) (left : masksLeft 0x0302 j b = 0)
    (whole : (symPar j.entry).abandon = false) (streams : (symPar j.entry).vfirst = false)
    (leaves : (symPar j.entry).scrub = false) (fails : (openRun (symPar j.entry) (s.symIn j b)).bad = true) :
    toLE 4 0 = toLE 4 (openRun (symPar j.entry) (s.symIn j b)).out.length := by
  obtain ⟨t, run, ends⟩ := aeadOpen_distrusted bound left whole streams leaves fails
  obtain ⟨_, _, _, _, _, opens⟩ := claim s id j b whole
  obtain ⟨u, run', counted⟩ := opens bound left
  obtain rfl : t = u := by
    rw [run] at run'
    cases run'
    rfl
  simp only [fails, streams, leaves, Bool.true_eq_false, Bool.false_eq_true, if_false, forall_const] at counted
  exact outLen_of_ends host ends counted

/-! ### A failed opening of one octet -/

/-- AEAD_OPEN of one octet with AES-GCM under a tag of 16 octets: no flag is set, so that it streams and leaves what it
released. -/
def openingEntry : Bytes :=
  [1, 1] ++ toLE 2 0x0302 ++ zeros 36 ++ toLE 4 17 ++ toLE 4 1 ++ toLE 8 0x6000 ++ [0x11, 0, 0, 16] ++ zeros 24 ++ [12] ++
    zeros 43

/-- Its run on the last lane pair under a secret of 16 octets. -/
def openingRun : Bound :=
  { eng := .pairs [63], keyA := some { ktype := 3, alg := 0x11, klen := 16, material := zeros 16 }, nonce := zeros 12 }

/-- The bound job; the tag that its input ends with is not that of its ciphertext. -/
def openingJob : Job :=
  { id := 0, slice := 0, ring := 0, index := 0, addr := 0x1000, pasid := some 7, entry := openingEntry, cls := .sym
    phase := .bound, input := zeros 17, bnd := some openingRun }

/-- A unit that serves this job alone. -/
def opening : State :=
  { State.reset with
    slices := [(0, { st := .active, pasid := some 7, rings := [(0, { gid := 0, base := 0x1000, st := .scanning, scan := 1 })] })]
    jobs := [openingJob], qsc := { nextJob := 1 } }

/-- Refutes O25: an opening that streams, whose tag fails and whose plaintext is left, writes the plaintext and then OUT_LEN 0,
as R179 says. The statement has OUT_LEN count the octets left, and for one octet the two differ. -/
theorem not_symmetricJobs : ¬ Obligations.SymmetricJobs := by
  rintro ⟨jobs, _, _, _⟩
  have bound : opening.boundJob 0x0302 0 = some (openingJob, openingRun) := by decide +kernel
  have fails : (openRun (symPar openingEntry) (opening.symIn openingJob openingRun)).bad = true := by decide +kernel
  have one : (openRun (symPar openingEntry) (opening.symIn openingJob openingRun)).out.length = 1 := by decide +kernel
  have counted := outLen_zero_of_symmetricJobs jobs rfl bound (by decide +kernel) (by decide +kernel) (by decide +kernel)
    (by decide +kernel) fails
  have lengths : toLE 4 0 = toLE 4 1 := counted.trans (congrArg (toLE 4) one)
  exact absurd lengths (by decide)

end Sys2Proof.Proofs.Symmetric
end

