-- ==== Sys2Proof/Proofs/RandomState.lean ====
section
/-! SUPPORT. The random number service's records of sources and instances, and what a Ledger record, a page event and a job's
ending leave of the service (R195 to R198, R206, R380, R386). -/
namespace Sys2Proof.Proofs.RandomState
open Sys2Proof Sys2Proof.Machine Sys2Proof.Laws Sys2Proof.Proofs.JobEnd

/-! ### Sources and instances -/

theorem getD_set {α : Type} (l : List α) (n m : Nat) (a d : α) :
    (l.set n a).getD m d = if n = m ∧ n < l.length then a else l.getD m d := by
  by_cases same : n = m
  · subst same
    by_cases inside : n < l.length
    · simp [inside]
    · simp [inside]
  · simp [List.getD_eq_getElem?_getD, same]

theorem inst_setInst (s : State) (n : Nat) (i : Inst) (m : Nat) :
    (s.setInst n i).inst m = if n = m ∧ n < s.rng.inst.length then i else s.inst m := getD_set ..

theorem inst_setInst_self {s : State} {n : Nat} (i : Inst) (inside : n < s.rng.inst.length) : (s.setInst n i).inst n = i := by
  rw [inst_setInst, if_pos ⟨rfl, inside⟩]

theorem inst_setInst_ne (s : State) {n m : Nat} (i : Inst) (other : m ≠ n) : (s.setInst n i).inst m = s.inst m := by
  rw [inst_setInst, if_neg fun h => other h.1.symm]

theorem src_setSrc (s : State) (n : Nat) (v : Source) (m : Nat) :
    (s.setSrc n v).src m = if n = m ∧ n < s.rng.src.length then v else s.src m := getD_set ..

theorem src_setSrc_self {s : State} {n : Nat} (v : Source) (inside : n < s.rng.src.length) : (s.setSrc n v).src n = v := by
  rw [src_setSrc, if_pos ⟨rfl, inside⟩]

theorem src_setSrc_ne (s : State) {n m : Nat} (v : Source) (other : m ≠ n) : (s.setSrc n v).src m = s.src m := by
  rw [src_setSrc, if_neg fun h => other h.1.symm]

/-- A source that has left OFF is one of those listed. -/
theorem lt_length_of_src {s : State} {n : Nat} (on : (s.src n).st ≠ .off) : n < s.rng.src.length := by
  refine Decidable.byContradiction fun outside => ?_
  exact on (by simp [State.src, List.getD_eq_getElem?_getD, List.getElem?_eq_none (Nat.not_lt.1 outside)])

/-- A source listed is read from the list. -/
theorem src_eq_getElem {s : State} {n : Nat} (inside : n < s.rng.src.length) : s.src n = s.rng.src[n] := by
  rw [State.src, List.getD_eq_getElem?_getD, List.getElem?_eq_getElem inside, Option.getD_some]

/-- An instance that has been instantiated is one of those listed. -/
theorem lt_length_of_inst {s : State} {n : Nat} (on : (s.inst n).st ≠ .uninst) : n < s.rng.inst.length := by
  refine Decidable.byContradiction fun outside => ?_
  exact on (by simp [State.inst, List.getD_eq_getElem?_getD, List.getElem?_eq_none (Nat.not_lt.1 outside)])

/-! ### What a draw of the unit's own changes -/

/-- The service has changed only as drawing from instances 0 to 3 changes it: the pool is left alone while the source is
FAILED, other instances always, and the states of instances until the source is FAILED (R198, R206). -/
structure Drawn (a b : Rng) : Prop where
  rest : b = { a with inst := b.inst, pool := b.pool, intStopNoted := b.intStopNoted }
  pool : a.es = .failed → b.pool = a.pool
  upper : ∀ n, 4 ≤ n → b.inst.getD n {} = a.inst.getD n {}
  st : a.es ≠ .failed → ∀ n, (b.inst.getD n {}).st = (a.inst.getD n {}).st
  length : b.inst.length = a.inst.length

namespace Drawn

theorem refl (a : Rng) : Drawn a a := ⟨rfl, fun _ => rfl, fun _ _ => rfl, fun _ _ => rfl, rfl⟩

theorem of_eq {a b : Rng} (h : b = a) : Drawn a b := h ▸ refl a

theorem es {a b : Rng} (h : Drawn a b) : b.es = a.es := by rw [h.rest]
theorem src {a b : Rng} (h : Drawn a b) : b.src = a.src := by rw [h.rest]
theorem limit {a b : Rng} (h : Drawn a b) : b.limit = a.limit := by rw [h.rest]
theorem soscErr {a b : Rng} (h : Drawn a b) : b.soscErr = a.soscErr := by rw [h.rest]
theorem condFailed {a b : Rng} (h : Drawn a b) : b.condFailed = a.condFailed := by rw [h.rest]
theorem condRetest {a b : Rng} (h : Drawn a b) : b.condRetest = a.condRetest := by rw [h.rest]
theorem startFailed {a b : Rng} (h : Drawn a b) : b.startFailed = a.startFailed := by rw [h.rest]
theorem startRetry {a b : Rng} (h : Drawn a b) : b.startRetry = a.startRetry := by rw [h.rest]

theorem trans {a b c : Rng} (h : Drawn a b) (k : Drawn b c) : Drawn a c where
  rest := by
    have e := k.rest
    rw [h.rest] at e
    exact e
  pool failed := (k.pool (h.es.trans failed)).trans (h.pool failed)
  upper n high := (k.upper n high).trans (h.upper n high)
  st sound n := (k.st (h.es ▸ sound) n).trans (h.st sound n)
  length := k.length.trans h.length

theorem ite {c : Prop} [Decidable c] {a : Rng} {s t : State} (h : c → Drawn a s.rng) (k : ¬c → Drawn a t.rng) :
    Drawn a (if c then s else t).rng := by
  split
  · next yes => exact h yes
  · next no => exact k no

theorem foldl {α : Type} {f : State → α → State} (step : ∀ s a, Drawn s.rng (f s a).rng) (l : List α) (s : State) :
    Drawn s.rng (l.foldl f s).rng := by
  induction l generalizing s with
  | nil => exact refl _
  | cons a l ih => exact (step s a).trans (ih (f s a))

end Drawn

/-- The RUNNING instance picked is one of those asked for (R197). -/
theorem pickInst_spec {s : State} {l : List Nat} {n : Nat} (picked : s.pickInst l = some n) :
    n ∈ l ∧ (s.inst n).st = .running := by
  revert picked
  refine List.foldlRecOn (motive := fun a => a = some n → n ∈ l ∧ (s.inst n).st = .running) l _ (fun e => by cases e) ?_
  intro a held i listed e
  split at e
  · next runs =>
    split at e
    · split at e
      · cases e; exact ⟨listed, runs⟩
      · exact held e
    · cases e; exact ⟨listed, runs⟩
  · exact held e

theorem lt_four_of_pickInst {s : State} {n : Nat} (picked : s.pickInst [0, 1, 2, 3] = some n) : n < 4 := by
  have := (pickInst_spec picked).1
  simp only [List.mem_cons, List.not_mem_nil, or_false] at this
  omega

/-- An internal instance replaced: in the same state, unless the source is FAILED. -/
theorem drawn_setInst {s : State} {n : Nat} {i : Inst} (internal : n < 4)
    (same : s.rng.es ≠ .failed → i.st = (s.inst n).st) : Drawn s.rng (s.setInst n i).rng where
  rest := rfl
  pool _ := rfl
  upper m high := inst_setInst_ne s i (by omega)
  st sound m := by
    show ((s.setInst n i).inst m).st = (s.inst m).st
    rw [inst_setInst]
    split
    · next here => rw [same sound, here.1]
    · rfl
  length := List.length_set ..

/-- A pool word taken leaves every instance, and the source is not FAILED while it is. -/
theorem drawn_poolWord {s : State} (sound : s.rng.es ≠ .failed) : Drawn s.rng s.poolWord.2.rng := by
  unfold State.poolWord
  split
  · exact ⟨rfl, fun failed => absurd failed sound, fun _ _ => rfl, fun _ _ => rfl, rfl⟩
  · exact .refl _

theorem inst_poolWord (s : State) (n : Nat) : s.poolWord.2.inst n = s.inst n := by
  unfold State.poolWord
  split <;> rfl

theorem drawn_reseed {s : State} {n : Nat} (internal : n < 4) (sound : s.rng.es ≠ .failed) :
    Drawn s.rng (s.reseed n).rng :=
  (drawn_poolWord sound).trans (drawn_setInst (s := s.poolWord.2) internal fun _ => rfl)

/-- A request must be reseeded for only while the source is not FAILED (R198, R206). -/
theorem sound_of_mustReseed {s : State} {n : Nat} (must : s.mustReseed n = true) : s.rng.es ≠ .failed := by
  simp only [State.mustReseed, Bool.and_eq_true, bne_iff_ne] at must
  exact must.2

theorem drawn_genInternal {s : State} {n : Nat} (internal : n < 4) : Drawn s.rng (s.genInternal n).2.rng := by
  have seeded : Drawn s.rng (if s.mustReseed n then s.reseed n else s).rng :=
    .ite (fun must => drawn_reseed internal (sound_of_mustReseed must)) fun _ => .refl _
  unfold State.genInternal
  dsimp only
  refine seeded.trans ?_
  generalize (if s.mustReseed n then s.reseed n else s) = u
  have counted (i : Inst) (same : u.rng.es ≠ .failed → i.st = (u.inst n).st) :
      Drawn u.rng (State.setInst { u with freeN := u.freeN + 1 } n i).rng := drawn_setInst (s := { u with freeN := u.freeN + 1 }) internal same
  refine Drawn.ite (fun spent => ?_) fun _ => counted _ fun _ => rfl
  rw [Bool.and_eq_true, decide_eq_true_eq] at spent
  refine Drawn.trans (counted _ ?_) (drawn_setInst internal fun sound => absurd spent.1 sound)
  exact fun _ => rfl

theorem drawn_stopNoted (s : State) : Drawn s.rng { s.rng with intStopNoted := true } :=
  ⟨rfl, fun _ => rfl, fun _ _ => rfl, fun _ _ => rfl, rfl⟩

theorem enter_rng (s : State) (typ sev src : Nat) (c : Bytes) : (s.enter typ sev src c).rng = s.rng := by
  unfold State.enter
  dsimp only
  split <;> rfl

theorem drawn_ownDraw (s : State) : Drawn s.rng s.ownDraw.2.rng := by
  unfold State.ownDraw
  split
  · exact .refl _
  · next n picked =>
    split
    · exact .refl _
    · refine (drawn_genInternal (lt_four_of_pickInst picked)).trans (Drawn.ite (fun _ => ?_) fun _ => .refl _)
      rw [enter_rng]
      exact drawn_stopNoted _

theorem cpSign_rng (s : State) (x h b : Bytes) : (s.cpSign x h b).2.rng = s.rng := by
  unfold State.cpSign
  split <;> rfl

theorem raise_rng (s : State) (p : Page) (b : Nat) : (s.raise p b).rng = s.rng := by
  obtain ⟨h, m, o, e⟩ := raise_frame s p b
  rw [e]

theorem drawn_checkpoint (s : State) : Drawn s.rng s.checkpoint.rng := by
  unfold State.checkpoint
  split
  · dsimp only
    rw [raise_rng]
    exact (drawn_ownDraw s).trans (.of_eq (cpSign_rng ..))
  · exact .refl _

/-- A record, with the checkpoint that it may call for, changes the service only by that checkpoint's draw (R380). -/
theorem drawn_record (s : State) (typ sev src : Nat) (c : Bytes) : Drawn s.rng (s.record typ sev src c).rng := by
  have due : Drawn (s.enter typ sev src c).rng (s.record typ sev src c).rng :=
    .ite (fun _ => drawn_checkpoint _) fun _ => .refl _
  rwa [enter_rng] at due

theorem drawn_traceRec (s : State) (typ src : Nat) (c : Bytes) : Drawn s.rng (s.traceRec typ src c).rng :=
  .ite (fun _ => drawn_record ..) fun _ => .refl _

/-- The record of the last internal instance's stop (R206). -/
theorem drawn_noteStop (s : State) : Drawn s.rng s.noteStop.rng :=
  .ite (fun _ => .refl _) fun _ => (drawn_stopNoted s).trans
    (drawn_record { s with rng := { s.rng with intStopNoted := true } } 0x0704 3 0 [])

/-! ### What a job's ending leaves of the service -/

theorem foldl_rng {α : Type} {f : State → α → State} (step : ∀ s a, (f s a).rng = s.rng) (l : List α) (s : State) :
    (l.foldl f s).rng = s.rng := by
  induction l generalizing s with
  | nil => rfl
  | cons a l ih => exact (ih (f s a)).trans (step s a)

theorem ite_rng {c : Prop} [Decidable c] {r : Rng} {s t : State} (h : s.rng = r) (k : t.rng = r) :
    (if c then s else t).rng = r := by
  split
  · exact h
  · exact k

theorem engDrop_rng (s : State) (g : Engine) : (s.engDrop g).rng = s.rng := by
  refine foldl_rng (fun a p => ite_rng ?_ rfl) _ s
  obtain ⟨h, m, o, e⟩ := setSt_frame a p .ready 0
  rw [e]

theorem tileCount_rng (s : State) (g : Engine) : (s.tileCount g).rng = s.rng := by
  unfold State.tileCount
  split <;> rfl

theorem returned_rng (s : State) (j : Job) (count : Bool) : (s.returned j count).rng = s.rng := by
  have units (l : List Engine) (a : State) : (l.foldl State.engDrop a).rng = a.rng := foldl_rng engDrop_rng l a
  unfold State.returned
  refine (foldl_rng (fun a i => (units ..).trans ?_) j.items _).trans ?_
  · split
    · split
      · exact engDrop_rng ..
      · rfl
    · rfl
  · split
    · exact (units ..).trans ((engDrop_rng ..).trans (ite_rng (tileCount_rng ..) rfl))
    · rfl

theorem signal_rng (s : State) (n l : Nat) : (s.signal n l).rng = s.rng := by
  obtain ⟨m, o, e⟩ := signal_frame s n l
  rw [e]

theorem issueWord_rng (s : State) (j : Job) (c : Completion) : (s.issueWord j c).rng = s.rng := by
  unfold State.issueWord
  dsimp only
  split
  · rfl
  · exact ite_rng (signal_rng ..) rfl

theorem flushRing_rng (sl r fuel : Nat) (s : State) : (flushRing sl r fuel s).rng = s.rng := by
  induction fuel generalizing s with
  | zero => rfl
  | succ n ih =>
    unfold flushRing
    split
    · split
      · exact (ih _).trans (issueWord_rng ..)
      · rfl
    · rfl

theorem toHead_rng (s : State) (typ : Nat) (msg : Bytes) : (s.toHead typ msg).rng = s.rng := by
  have one (a : State) (p typ flags src dst : Nat) (c : Bytes) : (a.sendOne p typ flags src dst c).rng = a.rng :=
    ite_rng rfl (ite_rng rfl rfl)
  unfold State.toHead
  split
  · exact ite_rng (one ..) (foldl_rng (fun _ _ => one ..) _ s)
  · rfl

theorem leaveNow_rng (s : State) : s.leaveNow.rng = s.rng := by
  unfold State.leaveNow
  split
  · exact ite_rng rfl (toHead_rng ..)
  · rfl

/-- The TRACE record of an ending is all that it may change of the service (R386). -/
theorem drawn_finish (s : State) (j : Job) (c : Completion) (out : Bytes) (recorded : Bool) :
    Drawn s.rng (s.finish j c out recorded).rng ∧
      (c.code = 0 ∨ recorded = true → (s.finish j c out recorded).rng = s.rng) := by
  cases heard : s.mute with
  | true =>
    rw [finish_mute _ _ _ _ _ heard]
    exact ⟨.refl _, fun _ => rfl⟩
  | false =>
    cases host : j.remote with
    | none =>
      let u := endTraced (endWritten s j c out) j c recorded
      have ended : (s.finish j c out recorded).rng = u.rng := by
        rw [finish_eq_of_host c out recorded heard host]
        exact (flushRing_rng ..).trans (returned_rng ..)
      rw [ended]
      refine ⟨.ite (fun _ => drawn_traceRec (endWritten s j c out) ..) fun _ => .refl _, fun quiet => ?_⟩
      have untraced : (c.code != 0 && !recorded) = false := by rcases quiet with h | h <;> simp [h]
      show (if (c.code != 0 && !recorded) = true then _ else endWritten s j c out).rng = s.rng
      rw [untraced]
      rfl
    | some r =>
      have ended : (s.finish j c out recorded).rng = s.rng := by
        unfold State.finish
        rw [if_neg (by simp [heard]), host]
        exact (leaveNow_rng _).trans ((toHead_rng ..).trans (returned_rng ..))
      exact ⟨.of_eq ended, fun _ => ended⟩

/-- The end of bound reads, whatever jobs they are (R206). -/
theorem drawn_endReads (l : List Nat) (s : State) : Drawn s.rng (endReads l s).rng := by
  induction l generalizing s with
  | nil => exact .refl _
  | cons id l ih =>
    unfold endReads
    split
    · exact (drawn_finish ..).1.trans (ih _)
    · exact ih s

end Sys2Proof.Proofs.RandomState
end

