-- ==== Sys2Proof/Proofs/RandomReads.lean ====
section
/-! SUPPORT. RNG_READ served, failed and out of time (R195, R199 to R202), and the reseed limit (R198, R206); O29. -/
namespace Sys2Proof.Proofs.RandomReads
open Sys2Proof Sys2Proof.Machine Sys2Proof.Laws Sys2Proof.Proofs.JobEnd Sys2Proof.Proofs.AroundEnd
open Sys2Proof.Proofs.PublicKey Sys2Proof.Proofs.RandomState
open Sys2Proof.Proofs.BenchMode (completes_of_exec)
open Sys2Proof.Proofs.LadderMoves (completes_of_body)
open Sys2Proof.Proofs.Blocks (refuse_errCode)

/-! ### A read that is served -/

/-- A bound read is one whose completion leaves. -/
theorem mute_of_boundRead {s : State} {id n : Nat} {j : Job} {b : Bound} (found : s.boundRead id = some (j, b, n)) :
    s.mute = false := by
  unfold State.boundRead at found
  split at found
  · next bound =>
    obtain ⟨_, _, _, heard⟩ := boundJob_spec bound
    exact heard
  · cases found

/-- Whether a read has its instance reseeded first: it asks for it, or LIMIT is reached (R198, R200). -/
def mustSeed (s : State) (j : Job) (n : Nat) : Bool := bit (eB j.entry 0x38) 0 || decide (s.rng.limit ≤ (s.inst n).count)

/-- The state in which the instance generates. -/
def seeded (s : State) (j : Job) (n : Nat) : State := if mustSeed s j n then s.reseed n else s

/-- What it generates: the octets, and its Key and V after them. -/
def generated (s : State) (j : Job) (n : Nat) : Bytes × Bytes × Bytes :=
  drbgGen ((seeded s j n).inst n).key ((seeded s j n).inst n).v (eOutLen j.entry) j.input

/-- The instance once it has generated. -/
def spent (s : State) (j : Job) (n : Nat) : Inst :=
  { (seeded s j n).inst n with
    count := ((seeded s j n).inst n).count + 1, key := (generated s j n).2.1, v := (generated s j n).2.2 }

/-- The state once the octets are generated and counted (R201). -/
def counted (s : State) (j : Job) (n : Nat) : State :=
  let u := (seeded s j n).setInst n (spent s j n)
  { u with rng := { u.rng with hostOct := (u.rng.hostOct + eOutLen j.entry) % 2 ^ 64 } }

/-- A read whose instance runs and is reseeded where it must be ends with the octets generated. -/
theorem rngReadBody_served {s : State} {id n : Nat} {j : Job} {b : Bound} (found : s.boundRead id = some (j, b, n))
    (runs : (s.inst n).st = .running) (word : mustSeed s j n = true → s.rng.pool ≠ [] ∧ s.intWaits = false) :
    rngReadBody id {} s = (counted s j n).finish j
      { code := cOK, outLen := eOutLen j.entry, result := (counted s j n).readRes n (mustSeed s j n) } (generated s j n).1 false := by
  have ready : ((s.inst n).st != .running || (mustSeed s j n && (s.rng.pool.isEmpty || s.intWaits))) = false := by
    cases must : mustSeed s j n with
    | true => simp [runs, word must]
    | false => simp [runs]
  have sound : endDetail false ({} : RunEnd).eng = none := rfl
  unfold rngReadBody
  simp only [found, sound]
  exact if_neg (ne_true_of_eq_false ready)

theorem inward_counted (s : State) (j : Job) (n : Nat) : Inward s (counted s j n) :=
  inward_trans (inward_ite (inward_reseed s n) (inward_refl s)) rfl

theorem poolWord_kept (s : State) : s.poolWord.2.rng = { s.rng with pool := s.poolWord.2.rng.pool } := by
  unfold State.poolWord
  split <;> rfl

/-- Reseeding leaves the count of octets and the number of instances. -/
theorem seeded_kept (s : State) (j : Job) (n : Nat) :
    (seeded s j n).rng.hostOct = s.rng.hostOct ∧ (seeded s j n).rng.inst.length = s.rng.inst.length := by
  unfold seeded
  split
  · have word := poolWord_kept s
    have octets : (s.reseed n).rng.hostOct = s.poolWord.2.rng.hostOct := rfl
    have length : (s.reseed n).rng.inst.length = s.poolWord.2.rng.inst.length := List.length_set ..
    rw [octets, length, word]
    exact ⟨rfl, rfl⟩
  · exact ⟨rfl, rfl⟩

theorem inst_counted {s : State} {n : Nat} (j : Job) (runs : (s.inst n).st = .running) :
    (counted s j n).inst n = spent s j n := by
  have inside : n < s.rng.inst.length := lt_length_of_inst (by rw [runs]; decide)
  exact inst_setInst_self _ ((seeded_kept s j n).2 ▸ inside)

/-- A served read ends OK with the octets generated, and is counted (R195, R200, R201). -/
theorem served_ends {s : State} {n : Nat} {j : Job} (result : Bytes) (heard : s.mute = false)
    (runs : (s.inst n).st = .running) :
    let t := (counted s j n).finish j { code := cOK, outLen := eOutLen j.entry, result := result } (generated s j n).1 false
    Ends s t j { code := cOK, outLen := eOutLen j.entry, result := result } (generated s j n).1 ∧
      t.rng.hostOct = (s.rng.hostOct + eOutLen j.entry) % 2 ^ 64 ∧ t.inst n = spent s j n := by
  intro t
  have quiet := quietStep_of_inward (inward_counted s j n)
  have kept : t.rng = (counted s j n).rng := (drawn_finish ..).2 (.inl rfl)
  refine ⟨ends_of_quiet_before quiet (finish_ends _ _ _ _ ((mute_of_endFrame quiet.frame).trans heard)), ?_, ?_⟩
  · rw [kept, ← (seeded_kept s j n).1]
    rfl
  · rw [State.inst, kept]
    exact inst_counted j runs

/-! ### A read that fails -/

theorem reRun_pwr (s : State) : s.reRun.pwr = s.pwr := by
  unfold State.reRun State.setRun
  split <;> rfl

/-- An instance's failure leaves the power block (R199). -/
theorem instFault_pwr (s : State) (n d : Nat) : (s.instFault n d).pwr = s.pwr := by
  have logged : Logged (s.uninst n .fault) (((s.uninst n .fault).raise .rng 19).record 0x0601 4 (srcInst n) (toLE 1 n ++ toLE 2 d)) :=
    logged_trans (logged_raise ..) (logged_record ..)
  unfold State.instFault
  dsimp only
  rw [reRun_pwr, logged]
  rfl

/-- A read whose instance fails ends ENGINE_MISMATCH in the state that the failure makes (R199). -/
theorem rngReadBody_failed {s : State} {id n : Nat} {j : Job} {b : Bound} {r : RunEnd} {d : Nat}
    (found : s.boundRead id = some (j, b, n)) (fails : endDetail false r.eng = some d) :
    rngReadBody id r s = (s.instFault n d).finish j { code := cMismatch, detail := d, result := toLE 1 n ++ zeros 15 } [] true := by
  unfold rngReadBody
  simp only [found, fails]

/-- A read with PR that no word reaches ends RNG_NOT_READY (R202). -/
theorem prTimeoutBody_ends {s : State} {id n : Nat} {j : Job} {b : Bound} (found : s.boundRead id = some (j, b, n))
    (pr : bit (eB j.entry 0x38) 0 = true) (starved : s.rng.pool = [] ∨ s.intWaits = true) :
    prTimeoutBody id s = s.finish j { code := cRngNotReady, detail := 1, result := s.readRes n false } [] false := by
  have waits : (bit (eB j.entry 0x38) 0 && (s.rng.pool.isEmpty || s.intWaits)) = true := by
    rcases starved with h | h <;> simp [pr, h]
  unfold prTimeoutBody
  simp only [found]
  exact if_pos waits

theorem randomReadsClause : Clause.RandomReads := by
  intro s id n j b found
  have heard := mute_of_boundRead found
  refine ⟨fun runs word => ?_, fun r d fails => ?_, fun pr starved => ?_⟩
  · obtain ⟨ends, octets, inst⟩ := served_ends (j := j) ((counted s j n).readRes n (mustSeed s j n)) heard runs
    exact completes_of_body rfl (rngReadBody_served found runs word) ⟨⟨_, ends⟩, octets, inst⟩
  · have heard' : (s.instFault n d).mute = false := by rw [State.mute, instFault_pwr]; exact heard
    exact completes_of_body rfl (rngReadBody_failed found fails) (finish_ends _ _ _ _ heard')
  · exact completes_of_body rfl (prTimeoutBody_ends found pr starved) (finish_ends _ _ _ _ heard)

/-! ### The reseed limit -/

/-- An internal instance whose count has reached LIMIT stops (R206). -/
def stopOne (s : State) (n : Nat) : State :=
  if (s.inst n).st = .running && s.rng.limit ≤ (s.inst n).count then s.uninst n .stopped else s

theorem stopSpent_eq (s : State) : s.stopSpent = ([0, 1, 2, 3].foldl stopOne s).noteStop := rfl

theorem logged_stopOne (s : State) (n : Nat) : Logged s (stopOne s n) := by
  have stopped : Logged s (s.uninst n .stopped) := rfl
  exact logged_ite stopped (logged_refl s)

theorem logged_noteStop (s : State) : Logged s s.noteStop := by
  have noted : Logged s { s with rng := { s.rng with intStopNoted := true } } := rfl
  exact logged_ite (logged_refl s) (logged_trans noted (logged_record ..))

theorem logged_stopSpent (s : State) : Logged s s.stopSpent := by
  have stops (l : List Nat) : ∀ a : State, Logged a (l.foldl stopOne a) := by
    induction l with
    | nil => exact logged_refl
    | cons n l ih => exact fun a => logged_trans (logged_stopOne a n) (ih _)
  exact logged_trans (stops _ s) (logged_noteStop _)

theorem drawn_stopOne {s : State} {n : Nat} (internal : n < 4) (failed : s.rng.es = .failed) :
    Drawn s.rng (stopOne s n).rng :=
  .ite (fun _ => drawn_setInst internal fun sound => absurd failed sound) fun _ => .refl _

/-- While the source is FAILED the stops are a change of internal instances, and a record. -/
theorem drawn_stopSpent {s : State} (failed : s.rng.es = .failed) : Drawn s.rng s.stopSpent.rng := by
  have stops (l : List Nat) (internal : ∀ n ∈ l, n < 4) :
      ∀ a : State, a.rng.es = .failed → Drawn a.rng (l.foldl stopOne a).rng := by
    induction l with
    | nil => exact fun a _ => .refl _
    | cons n l ih =>
      intro a failed
      have one := drawn_stopOne (internal n (List.mem_cons_self ..)) failed
      exact one.trans (ih (fun m hm => internal m (List.mem_cons_of_mem _ hm)) _ (one.es.trans failed))
  exact (stops [0, 1, 2, 3] (by decide) s failed).trans (drawn_noteStop _)

/-- The record of a limit taken, with what a FAILED source stops at it. -/
def limited (s : State) (n : Nat) : State :=
  let u := ({ s with rng := { s.rng with limit := n } } : State).record 0x0709 2 0 (toLE 4 n)
  if u.rng.es = .failed then u.stopSpent else u

theorem limited_frame (s : State) (n : Nat) :
    Logged { s with rng := { s.rng with limit := n } } (limited s n) ∧ (limited s n).rng.limit = n := by
  have recorded := drawn_record { s with rng := { s.rng with limit := n } } 0x0709 2 0 (toLE 4 n)
  have stopped : Drawn _ (limited s n).rng :=
    recorded.trans (.ite (fun failed => drawn_stopSpent failed) fun _ => .refl _)
  exact ⟨logged_trans (logged_record ..) (logged_ite (logged_stopSpent _) (logged_refl _)), stopped.limit⟩

/-- A limit from 256 up to the one in force is taken; a change counts in PG_GEN (R37, R198). -/
theorem reseedWriteBody_taken {s : State} {x : BitVec 32} (answers : s.pageAnswers .rng = true ∧ noWrites .rng = false)
    (least : 256 ≤ fld x 0 17) (most : fld x 0 17 ≤ s.rng.limit) :
    reseedWriteBody x s = limited s (fld x 0 17) ∨ reseedWriteBody x s = (limited s (fld x 0 17)).bumpGen .rng := by
  rw [reseedWriteBody, onPage_answers s .rng _ answers]
  dsimp only
  rw [if_neg (by simp [least, most])]
  split
  · exact .inl rfl
  · exact .inr rfl

/-- Any other is refused. -/
theorem reseedWriteBody_refused {s : State} {x : BitVec 32} (answers : s.pageAnswers .rng = true ∧ noWrites .rng = false)
    (out : fld x 0 17 < 256 ∨ s.rng.limit < fld x 0 17) : reseedWriteBody x s = s.refuse .rng cBadParam 1 := by
  rw [reseedWriteBody, onPage_answers s .rng _ answers]
  exact if_pos (by simpa using out)

theorem refuse_rng (s : State) (p : Page) (c d : Nat) : (s.refuse p c d).rng = s.rng := by
  obtain ⟨h, m, o, e⟩ := refuse_frame s p c d
  rw [e]

theorem reseedLimit : Clause.ReseedLimit := by
  intro s x ⟨awake, answers⟩
  have run : exec (.rngReseedWrite x) s = .next (reseedWriteBody x s) := congrArg _ (hostReq_awake s _ _ awake)
  refine ⟨fun least most => completes_of_exec run ?_, fun out => completes_of_exec run ?_⟩
  · obtain ⟨logged, limit⟩ := limited_frame s (fld x 0 17)
    have kept : (limited s (fld x 0 17)).jobs = s.jobs ∧ (limited s (fld x 0 17)).regs = s.regs ∧
        (limited s (fld x 0 17)).glb = s.glb := by rw [logged]; exact ⟨rfl, rfl, rfl⟩
    rcases reseedWriteBody_taken answers least most with e | e <;> rw [e]
    · exact ⟨limit, kept⟩
    · exact ⟨limit, kept⟩
  · rw [reseedWriteBody_refused answers out]
    exact ⟨refuse_errCode .., refuse_rng ..⟩

/-- Settles O29: a read as it is served, fails or runs out of time, and the limit as it is taken or refused. -/
theorem randomReads : Obligations.RandomReads := ⟨randomReadsClause, reseedLimit⟩

end Sys2Proof.Proofs.RandomReads
end

