-- ==== Sys2Proof/Proofs/NoiseSources.lean ====
section
/-! SUPPORT. How the entropy source fails (R205, R206), raw blocks, and the oscillator out of its range (R191, R193 to R195); O27. -/
namespace Sys2Proof.Proofs.NoiseSources
open Sys2Proof Sys2Proof.Machine Sys2Proof.Laws Sys2Proof.Proofs.RandomState
open Sys2Proof.Proofs.RandomReads (drawn_stopSpent)

/-! ### What is served after an event -/

/-- Where no work of the unit's own waits, none is served (R195). -/
theorem serveDraws_idle {s : State} (idle : s.ownWaits = false) : s.serveDraws = s := by
  unfold State.serveDraws
  rw [if_pos (by simp [idle])]

/-- A command that ends by serving what waits completes so. -/
theorem completes_of_served {c : Instr} {s body t : State} {P : State → Prop} (run : exec c s = .next body.serveDraws)
    (e : body = t) (h : P t) : Completes c s fun t => Served t P := by
  subst e
  exact ⟨_, run, body, h, rfl, serveDraws_idle⟩

/-! ### The entropy source fails -/

theorem reRun_rng (s : State) : s.reRun.rng = s.rng := by
  unfold State.reRun State.setRun
  split <;> rfl

/-- The source reads FAILED, its pool is empty and the host's instances are zeroised (R206). -/
def failedNow (s : State) : State :=
  [4, 5, 6, 7].foldl (fun a n => a.uninst n .uninst) { s with rng := { s.rng with es := .failed, pool := [] } }

/-- An instance taken down is UNINSTANTIATED, listed or not. -/
theorem uninst_st (s : State) (n : Nat) : ((s.uninst n .uninst).inst n).st = .uninst := by
  rw [State.uninst, inst_setInst]
  split
  · rfl
  · next outside =>
    exact Decidable.byContradiction fun on => outside ⟨rfl, lt_length_of_inst on⟩

theorem uninst_st_ne (s : State) {n m : Nat} (st : InstState) (other : m ≠ n) : (s.uninst n st).inst m = s.inst m :=
  inst_setInst_ne s _ other

theorem failedNow_st (s : State) : ∀ i ∈ [4, 5, 6, 7], ((failedNow s).inst i).st = .uninst := by
  intro i listed
  unfold failedNow
  simp only [List.foldl]
  simp only [List.mem_cons, List.not_mem_nil, or_false] at listed
  rcases listed with rfl | rfl | rfl | rfl
  · rw [uninst_st_ne _ _ (by decide), uninst_st_ne _ _ (by decide), uninst_st_ne _ _ (by decide), uninst_st]
  · rw [uninst_st_ne _ _ (by decide), uninst_st_ne _ _ (by decide), uninst_st]
  · rw [uninst_st_ne _ _ (by decide), uninst_st]
  · rw [uninst_st]

/-- A source that is not HEALTHY does not fail again. -/
theorem esFail_unhealthy {s : State} (cause : Nat) (down : s.rng.es ≠ .healthy) : s.esFail cause = s :=
  if_pos (by simpa using down)

/-- The failure recorded, and its event. -/
def failNoted (s : State) (cause : Nat) : State :=
  ((failedNow s).record 0x0703 4 0 (toLE 1 cause ++ toLE 1 (failedNow s).benchedSet)).raise .rng 16

/-- After that bound reads end, spent internal instances stop, and RUN is judged anew (R206). -/
theorem esFail_eq {s : State} (cause : Nat) (healthy : s.rng.es = .healthy) :
    ∃ l, s.esFail cause = (endReads l (failNoted s cause)).stopSpent.reRun :=
  ⟨_, if_neg (by simp [healthy])⟩

theorem drawn_failNoted (s : State) (cause : Nat) : Drawn (failedNow s).rng (failNoted s cause).rng := by
  unfold failNoted
  rw [raise_rng]
  exact drawn_record ..

/-- Beyond the failure itself, what follows it only draws from internal instances, or stops them (R206). -/
theorem drawn_esFail {s : State} (cause : Nat) (healthy : s.rng.es = .healthy) :
    Drawn (failedNow s).rng (s.esFail cause).rng := by
  obtain ⟨l, e⟩ := esFail_eq cause healthy
  have read := (drawn_failNoted s cause).trans (drawn_endReads l _)
  rw [e, reRun_rng]
  exact read.trans (drawn_stopSpent (read.es.trans rfl))

/-- A failure of a HEALTHY source takes it to FAILED with its pool emptied and the host's instances down (R205, R206). -/
theorem esFail_fails {s : State} (cause : Nat) (healthy : s.rng.es = .healthy) :
    (s.esFail cause).rng.es = .failed ∧ (s.esFail cause).rng.pool = [] ∧
      ∀ i ∈ [4, 5, 6, 7], ((s.esFail cause).inst i).st = .uninst := by
  have drawn := drawn_esFail cause healthy
  refine ⟨drawn.es.trans rfl, (drawn.pool rfl).trans rfl, fun i listed => ?_⟩
  have high : ∀ i ∈ [4, 5, 6, 7], 4 ≤ i := by decide
  rw [State.inst, drawn.upper i (high i listed)]
  exact failedNow_st s i listed

/-- A failure changes of the service the source's own state, its pool and its instances alone. -/
theorem esFail_rest (s : State) (cause : Nat) :
    (s.esFail cause).rng = { s.rng with
      es := (s.esFail cause).rng.es, pool := (s.esFail cause).rng.pool, inst := (s.esFail cause).rng.inst
      intStopNoted := (s.esFail cause).rng.intStopNoted } := by
  by_cases healthy : s.rng.es = .healthy
  · have drawn := drawn_esFail cause healthy
    have failed := drawn.es
    have e := drawn.rest
    rw [← failed] at e
    exact e
  · rw [esFail_unhealthy cause healthy]

/-! ### A source is benched (R194) -/

/-- A source as its bench leaves it. -/
def benchedSource (s : State) (n f : Nat) : Source :=
  { s.src n with
    st := .benched, failtest := f, benchCnt := satAdd 32 (s.src n).benchCnt 1, benchEnd := s.tick + 64, retries := 0 }

/-- The bench of a source, noted and recorded. -/
def benchNoted (s : State) (n f : Nat) : State :=
  ((s.setSrc n (benchedSource s n f)).raise .rng 17).record 0x0701 3 (srcSource n) (toLE 1 n ++ toLE 1 f ++ toLE 1 (s.src n).trim)

theorem bench_eq (s : State) (n f : Nat) :
    s.bench n f = if 5 ≤ (benchNoted s n f).benched then (benchNoted s n f).esFail 1 else benchNoted s n f := rfl

theorem drawn_benchNoted (s : State) (n f : Nat) :
    Drawn (s.setSrc n (benchedSource s n f)).rng (benchNoted s n f).rng := by
  have recorded := drawn_record ((s.setSrc n (benchedSource s n f)).raise .rng 17) 0x0701 3 (srcSource n)
    (toLE 1 n ++ toLE 1 f ++ toLE 1 (s.src n).trim)
  rwa [raise_rng] at recorded

/-- A bench changes of the sources the one that it benches, whether or not the entropy source fails with it. -/
theorem bench_src (s : State) (n f : Nat) : (s.bench n f).rng.src = (s.setSrc n (benchedSource s n f)).rng.src := by
  have noted := (drawn_benchNoted s n f).src
  rw [bench_eq]
  split
  · rw [esFail_rest]
    exact noted
  · exact noted

theorem bench_src_self {s : State} {n : Nat} (f : Nat) (inside : n < s.rng.src.length) :
    (s.bench n f).src n = benchedSource s n f := by
  rw [State.src, bench_src]
  exact src_setSrc_self _ inside

/-- One source more counts as benched. -/
theorem benched_setSrc {s : State} {n : Nat} {v : Source} (inside : n < s.rng.src.length) (before : (s.src n).st.counts = false)
    (after : v.st.counts = true) : (s.setSrc n v).benched = s.benched + 1 := by
  have here : s.rng.src[n].st.counts = false := by
    rw [← src_eq_getElem inside]
    exact before
  unfold State.benched State.setSrc
  simp only [← List.countP_eq_length_filter, List.countP_set inside, here, after]
  rfl

/-- The bench of a fifth source takes a HEALTHY entropy source to FAILED (R205). -/
theorem bench_fifth {s : State} {n : Nat} (f : Nat) (inside : n < s.rng.src.length) (sound : (s.src n).st.counts = false)
    (four : s.benched = 4) (healthy : s.rng.es = .healthy) :
    (s.bench n f).rng.es = .failed ∧ (s.bench n f).rng.pool = [] ∧ ∀ i ∈ [4, 5, 6, 7], ((s.bench n f).inst i).st = .uninst := by
  have drawn := drawn_benchNoted s n f
  have five : (benchNoted s n f).benched = 5 := by
    rw [State.benched, drawn.src]
    exact (benched_setSrc inside sound rfl).trans (by rw [four])
  rw [bench_eq, if_pos (Nat.le_of_eq five.symm)]
  exact esFail_fails 1 (drawn.es.trans healthy)

/-! ### Raw blocks (R193, R195) -/

/-- A health test changes of a source the run of bits in hand alone. -/
theorem healthTest_frame {v w : Source} {bits : Bytes} {f : Nat} (h : healthTest v bits = (f, w)) :
    w = { v with repBit := w.repBit, repRun := w.repRun } := by
  cases h
  rfl

/-- The body of RAW_BLOCK for a source that samples, by the test's outcome. -/
theorem rawBlockBody_sampled {s : State} {n : Fin 8} {bits : Bytes} {f : Nat} {v : Source} (on : s.rngOn = true)
    (osc : s.rng.soscErr = false) (samples : (s.src n.val).st = .active ∨ (s.src n.val).st = .retry)
    (test : healthTest (s.src n.val) bits = (f, v)) :
    rawBlockBody n bits s =
      if f = 0 then
        if (s.src n.val).st = .retry then s.setSrc n.val { v with st := .active, retries := 0 }
        else if 64 ≤ s.rng.pool.length then s.setSrc n.val { v with discard := satAdd 32 v.discard 1 }
        else { s.setSrc n.val v with rng := { (s.setSrc n.val v).rng with pool := s.rng.pool ++ [sha3_256 bits] } }
      else if (s.src n.val).st = .active then
        s.setSrc n.val { v with st := .retry, retries := 0, discard := satAdd 32 v.discard 1 }
      else if (s.src n.val).retries + 1 < 3 then
        s.setSrc n.val { v with discard := satAdd 32 v.discard 1, retries := (s.src n.val).retries + 1 }
      else (s.setSrc n.val { v with discard := satAdd 32 v.discard 1 }).bench n.val f := by
  have tested : (!s.rngOn || s.rng.soscErr || ((s.src n.val).st != .active && (s.src n.val).st != .retry)) = false := by
    rcases samples with h | h <;> simp [on, osc, h]
  unfold rawBlockBody
  simp only [tested, test, Bool.false_eq_true, if_false]
  rfl

theorem rawBlocks : Clause.RawBlocks := by
  intro s n bits f v on osc test
  have inside (st : SrcState) (is : (s.src n.val).st = st) (out : st ≠ .off) : n.val < s.rng.src.length :=
    lt_length_of_src (by rw [is]; exact out)
  refine ⟨fun active passed => ?_, fun retry passed => ?_, fun active failed => ?_, fun retry failed third => ?_⟩
  · have here := inside _ active (by decide)
    refine completes_of_served rfl (rawBlockBody_sampled on osc (.inl active) test) ?_
    rw [if_pos passed, active, if_neg (by decide)]
    split
    · exact ⟨rfl, src_setSrc_self _ here, rfl⟩
    · exact ⟨rfl, src_setSrc_self v here, rfl⟩
  · refine completes_of_served rfl (rawBlockBody_sampled on osc (.inr retry) test) ?_
    rw [if_pos passed, if_pos retry]
    exact ⟨src_setSrc_self _ (inside _ retry (by decide)), rfl⟩
  · refine completes_of_served rfl (rawBlockBody_sampled on osc (.inl active) test) ?_
    rw [if_neg failed, if_pos active]
    exact ⟨src_setSrc_self _ (inside _ active (by decide)), rfl⟩
  · have here := inside _ retry (by decide)
    let u := s.setSrc n.val { v with discard := satAdd 32 v.discard 1 }
    have own : u.src n.val = { v with discard := satAdd 32 v.discard 1 } := src_setSrc_self _ here
    have listed : n.val < u.rng.src.length := by rwa [show u.rng.src = s.rng.src.set _ _ from rfl, List.length_set]
    have stays : v.st = .retry := by rw [healthTest_frame test]; exact retry
    refine completes_of_served rfl (rawBlockBody_sampled on osc (.inr retry) test) ?_
    rw [if_neg failed, if_neg (by rw [retry]; decide), if_neg (by rw [third]; decide)]
    rw [bench_src_self f listed]
    refine ⟨rfl, rfl, rfl, fun four healthy => ?_⟩
    have same : u.benched = s.benched := by
      have uncounted : s.rng.src[n.val].st.counts = false := by
        rw [← src_eq_getElem here]
        exact congrArg SrcState.counts retry
      unfold u State.benched State.setSrc
      simp only [← List.countP_eq_length_filter, List.countP_set here, uncounted, stays]
      rfl
    exact bench_fifth f listed (by rw [own]; exact congrArg SrcState.counts stays) (same.trans four) healthy

/-! ### The oscillator (R191) -/

/-- What the oscillator's bench makes of a source: nothing of one that is retired or off. -/
theorem benchSosc_cases (s : State) (n : Nat) :
    ((s.src n).st = .retired ∨ (s.src n).st = .off) ∧ s.benchSosc n = s ∨
      ((s.src n).st ≠ .retired ∧ (s.src n).st ≠ .off) ∧
        Drawn (s.setSrc n (benchedSource s n 3)).rng (s.benchSosc n).rng := by
  by_cases out : (s.src n).st = .retired ∨ (s.src n).st = .off
  · exact .inl ⟨out, if_pos (by simpa using out)⟩
  · refine .inr ⟨not_or.1 out, ?_⟩
    have benched : s.benchSosc n = benchNoted s n 3 := if_neg (by simpa using out)
    rw [benched]
    exact drawn_benchNoted s n 3

/-- The sources apart, it only draws. -/
theorem benchSosc_rest (s : State) (n : Nat) :
    (s.benchSosc n).rng.es = s.rng.es ∧ (s.benchSosc n).rng.soscErr = s.rng.soscErr ∧
      (s.benchSosc n).rng.soscKhz = s.rng.soscKhz := by
  rcases benchSosc_cases s n with ⟨_, e⟩ | ⟨_, drawn⟩
  · rw [e]
    exact ⟨rfl, rfl, rfl⟩
  · rw [drawn.rest]
    exact ⟨rfl, rfl, rfl⟩

/-- A source that runs is benched by its own bench, and left by another's. -/
theorem benchSosc_src {s : State} {n : Nat} (m : Nat) (runs : (s.src n).st ≠ .retired ∧ (s.src n).st ≠ .off) :
    (n = m → ((s.benchSosc m).src n).st = .benched) ∧ (n ≠ m → (s.benchSosc m).src n = s.src n) := by
  rcases benchSosc_cases s m with ⟨out, e⟩ | ⟨_, drawn⟩
  · rw [e]
    refine ⟨?_, fun _ => rfl⟩
    rintro rfl
    exact absurd out (not_or.2 runs)
  · rw [State.src, drawn.src]
    refine ⟨?_, fun other => src_setSrc_ne s _ other⟩
    rintro rfl
    exact congrArg Source.st (src_setSrc_self _ (lt_length_of_src runs.2))

/-- Of the sources that run, those named are benched and those that were stay so. -/
theorem foldl_benchSosc_src (l : List Nat) (s : State) {n : Nat} (runs : (s.src n).st ≠ .retired ∧ (s.src n).st ≠ .off)
    (h : n ∈ l ∨ (s.src n).st = .benched) : ((l.foldl State.benchSosc s).src n).st = .benched := by
  induction l generalizing s with
  | nil => exact h.resolve_left List.not_mem_nil
  | cons m l ih =>
    obtain ⟨own, others⟩ := benchSosc_src m runs
    by_cases same : n = m
    · have benched := own same
      exact ih (s.benchSosc m) (by rw [benched]; decide) (.inr benched)
    · refine ih (s.benchSosc m) (by rwa [others same]) ?_
      rw [others same]
      exact h.imp_left fun listed => (List.mem_cons.1 listed).resolve_left same

theorem foldl_benchSosc_rest (l : List Nat) (s : State) :
    (l.foldl State.benchSosc s).rng.es = s.rng.es ∧ (l.foldl State.benchSosc s).rng.soscErr = s.rng.soscErr ∧
      (l.foldl State.benchSosc s).rng.soscKhz = s.rng.soscKhz := by
  induction l generalizing s with
  | nil => exact ⟨rfl, rfl, rfl⟩
  | cons n l ih =>
    obtain ⟨es, err, khz⟩ := ih (s.benchSosc n)
    obtain ⟨es', err', khz'⟩ := benchSosc_rest s n
    exact ⟨es.trans es', err.trans err', khz.trans khz'⟩

/-- The measurement kept. -/
def measured (s : State) (khz : BitVec 16) (bad : Bool) : State :=
  { s with rng := { s.rng with soscKhz := khz.toNat, soscErr := bad } }

/-- The sources that a measurement out of range benches: those that an earlier one has not benched already. -/
def soscHit (s : State) : List Nat := (List.range 8).filter fun n => !(s.rng.soscErr && (s.src n).st = .benched)

/-- Those sources benched and the measurement recorded. -/
def soscNoted (s : State) (khz : BitVec 16) : State :=
  ((soscHit s).foldl State.benchSosc (measured s khz true)).record 0x0707 4 0 (toLE 2 khz.toNat)

theorem soscMeasureBody_good {s : State} {khz : BitVec 16} (on : s.rngOn = true) (least : 12000 ≤ khz.toNat)
    (most : khz.toNat ≤ 20000) : soscMeasureBody khz s = measured s khz false := by
  simp [soscMeasureBody, on, least, most, measured]

theorem soscMeasureBody_bad {s : State} {khz : BitVec 16} (on : s.rngOn = true) (out : khz.toNat < 12000 ∨ 20000 < khz.toNat) :
    soscMeasureBody khz s = (soscNoted s khz).esFail 2 := by
  have bad : (12000 ≤ khz.toNat && khz.toNat ≤ 20000) = false := by
    rw [Bool.and_eq_false_iff, decide_eq_false_iff_not, decide_eq_false_iff_not]
    omega
  simp only [soscMeasureBody, on, bad, Bool.not_true, Bool.not_false, Bool.false_eq_true, if_false]
  rfl

theorem oscillatorMeasure : Clause.OscillatorMeasure := by
  intro s khz on
  refine ⟨fun least most => completes_of_served rfl (soscMeasureBody_good on least most) rfl, fun out => ?_⟩
  obtain ⟨es, err, read⟩ := foldl_benchSosc_rest (soscHit s) (measured s khz true)
  have noted := drawn_record ((soscHit s).foldl State.benchSosc (measured s khz true)) 0x0707 4 0 (toLE 2 khz.toNat)
  have rest := esFail_rest (soscNoted s khz) 2
  refine completes_of_served rfl (soscMeasureBody_bad on out) ⟨?_, ?_, fun n low sound powered => ?_, fun healthy => ?_⟩
  · rw [rest]
    exact (congrArg Rng.soscKhz noted.rest).trans read
  · rw [rest]
    exact noted.soscErr.trans err
  · rw [State.src, rest]
    show ((soscNoted s khz).rng.src.getD n {}).st = .benched
    rw [show (soscNoted s khz).rng.src = _ from noted.src]
    refine foldl_benchSosc_src _ _ ⟨sound, powered⟩ ?_
    cases already : s.rng.soscErr && (s.src n).st = .benched with
    | true => exact .inr (of_decide_eq_true (Bool.and_eq_true_iff.1 already).2)
    | false => exact .inl (List.mem_filter.2 ⟨List.mem_range.2 low, by rw [already]; rfl⟩)
  · obtain ⟨failed, empty, _⟩ := esFail_fails (s := soscNoted s khz) 2 ((noted.es.trans es).trans healthy)
    exact ⟨failed, empty⟩

/-- Settles O27: a measurement as it is in range or out of it, a raw block by its source's state and its test. -/
theorem noiseSources : Obligations.NoiseSources := ⟨oscillatorMeasure, rawBlocks⟩

end Sys2Proof.Proofs.NoiseSources
end

