-- ==== Sys2Proof/Proofs/SourceRecovery.lean ====
section
/-! SUPPORT. A benched source's way back (R193, R194, R209), known-answer tests and the recovery of the entropy source (R199,
R207, R208); O28. -/
namespace Sys2Proof.Proofs.SourceRecovery
open Sys2Proof Sys2Proof.Machine Sys2Proof.Laws Sys2Proof.Proofs.RandomState Sys2Proof.Proofs.NoiseSources
open Sys2Proof.Proofs.JobEnd Sys2Proof.Proofs.KeyMoves
open Sys2Proof.Proofs.RandomReads (poolWord_kept refuse_rng logged_stopSpent)
open Sys2Proof.Proofs.BenchMode (completes_of_exec)
open Sys2Proof.Proofs.LadderMoves (completes_of_body)
open Sys2Proof.Proofs.Blocks (refuse_errCode)

/-! ### The bench ends, and recalibration -/

theorem sourceBenchEnd_ends {s : State} {n : Fin 8} (on : s.rngOn = true) (benched : (s.src n.val).st = .benched)
    (ended : (s.src n.val).benchEnd ≤ s.tick) :
    exec (.sourceBenchEnd n) s = .next (s.setSrc n.val { s.src n.val with st := .recal }) :=
  congrArg _ (if_pos (by simp [on, benched, ended]))

/-- How far a TRIM is from the ideal: max(|bias|, |lag-1 correlation|) as the scan found them (R194). -/
def trimScore (x : RecalScan) (i : Nat) : Nat := Nat.max (x.found.getD i (0, 0)).1 (x.found.getD i (0, 0)).2

/-- A search that keeps the lower of two scores ends with the lowest of those it met. -/
theorem foldl_lowest (f : Nat → Nat) (l : List Nat) (a : Nat) :
    let best := l.foldl (fun a i => if f i < f a then i else a) a
    (best = a ∨ best ∈ l) ∧ f best ≤ f a ∧ ∀ i ∈ l, f best ≤ f i := by
  induction l generalizing a with
  | nil => exact ⟨.inl rfl, Nat.le_refl _, fun _ h => absurd h List.not_mem_nil⟩
  | cons x l ih =>
    by_cases lower : f x < f a
    · obtain ⟨among, start, least⟩ := ih x
      simp only [List.foldl_cons, if_pos lower]
      refine ⟨.inr ?_, Nat.le_trans start (Nat.le_of_lt lower), fun i hi => ?_⟩
      · exact List.mem_cons.2 among
      · rcases List.mem_cons.1 hi with rfl | hi
        · exact start
        · exact least i hi
    · obtain ⟨among, start, least⟩ := ih a
      simp only [List.foldl_cons, if_neg lower]
      refine ⟨among.imp_right (List.mem_cons_of_mem _), start, fun i hi => ?_⟩
      rcases List.mem_cons.1 hi with rfl | hi
      · exact Nat.le_trans start (Nat.not_lt.1 lower)
      · exact least i hi

/-- The TRIM kept is one of the sixteen, and none scores lower (R194). -/
theorem bestTrim_lowest (x : RecalScan) : bestTrim x < 16 ∧ ∀ i < 16, trimScore x (bestTrim x) ≤ trimScore x i := by
  obtain ⟨among, _, least⟩ := foldl_lowest (trimScore x) (List.range 16) 0
  refine ⟨?_, fun i hi => least i (List.mem_range.2 hi)⟩
  rcases among with zero | listed
  · exact Nat.lt_of_le_of_lt (Nat.le_of_eq zero) (by decide)
  · exact List.mem_range.1 listed

theorem recalComplete_starts {s : State} {n : Fin 8} (scan : RecalScan) (on : s.rngOn = true) (osc : s.rng.soscErr = false)
    (recal : (s.src n.val).st = .recal) :
    exec (.recalComplete n scan) s =
      .next (s.setSrc n.val { s.src n.val with st := .startup, trim := bestTrim scan, repRun := 0 }) :=
  congrArg _ (if_pos (by simp [on, osc, recal]))

/-! ### The start-up test (R193, R194) -/

/-- A source that failed its start-up test, benched again with the failure counted. -/
def failedStartup (s : State) (n f : Nat) (v : Source) : State :=
  (s.setSrc n { v with consec := (s.src n).consec + 1 }).bench n f

/-- The body of STARTUP_TEST_DONE for a source in its test, by the test's outcome. -/
theorem startupTestBody_tested {s : State} {n : Fin 8} {bits : Bytes} {f : Nat} {v : Source} (on : s.rngOn = true)
    (osc : s.rng.soscErr = false) (startup : (s.src n.val).st = .startup)
    (test : healthTest { s.src n.val with repRun := 0 } bits = (f, v)) :
    startupTestBody n bits s =
      if f = 0 then s.setSrc n.val { v with st := .active, consec := 0, retries := 0 }
      else if (s.src n.val).consec + 1 < 8 then failedStartup s n.val f v
      else ((failedStartup s n.val f v).setSrc n.val { (failedStartup s n.val f v).src n.val with st := .retired }).record 0x0702 4
        (srcSource n.val) (toLE 1 n.val ++ toLE 1 f ++ toLE 1 (s.src n.val).trim) := by
  have tested : (!s.rngOn || s.rng.soscErr || (s.src n.val).st != .startup) = false := by simp [on, osc, startup]
  unfold startupTestBody
  simp only [tested, test, Bool.false_eq_true, if_false]
  rfl

/-- The bench leaves the count of failures, and the source in its place. -/
theorem failedStartup_src {s : State} {n : Nat} (f : Nat) (v : Source) (inside : n < s.rng.src.length) :
    n < (failedStartup s n f v).rng.src.length ∧ ((failedStartup s n f v).src n).st = .benched ∧
      ((failedStartup s n f v).src n).consec = (s.src n).consec + 1 := by
  let u := s.setSrc n { v with consec := (s.src n).consec + 1 }
  have listed : n < u.rng.src.length := by rwa [show u.rng.src = s.rng.src.set _ _ from rfl, List.length_set]
  have own : u.src n = { v with consec := (s.src n).consec + 1 } := src_setSrc_self _ inside
  have benched : (failedStartup s n f v).src n = benchedSource u n f := bench_src_self f listed
  refine ⟨?_, by rw [benched]; rfl, by rw [benched, benchedSource, own]⟩
  rw [failedStartup, bench_src, show (u.setSrc n _).rng.src = u.rng.src.set _ _ from rfl, List.length_set]
  exact listed

theorem startupTestDone {s : State} {n : Fin 8} (on : s.rngOn = true) (osc : s.rng.soscErr = false)
    (startup : (s.src n.val).st = .startup) (bits : Bytes) :
    Completes (.startupTestDone n bits) s fun t => Served t fun u =>
      ((healthTest { s.src n.val with repRun := 0 } bits).1 = 0 →
        (u.src n.val).st = .active ∧ (u.src n.val).consec = 0 ∧ u = { s with rng := { s.rng with src := u.rng.src } }) ∧
      ((healthTest { s.src n.val with repRun := 0 } bits).1 ≠ 0 → 7 ≤ (s.src n.val).consec → (u.src n.val).st = .retired) ∧
      ((healthTest { s.src n.val with repRun := 0 } bits).1 ≠ 0 → (s.src n.val).consec < 7 →
        (u.src n.val).st = .benched ∧ (u.src n.val).consec = (s.src n.val).consec + 1) := by
  have inside : n.val < s.rng.src.length := lt_length_of_src (by rw [startup]; decide)
  cases test : healthTest { s.src n.val with repRun := 0 } bits with
  | mk f v =>
    refine completes_of_served rfl (startupTestBody_tested on osc startup test) ?_
    obtain ⟨listed, benched, consec⟩ := failedStartup_src f v inside
    refine ⟨fun passed => ?_, fun failed eighth => ?_, fun failed early => ?_⟩
    · rw [if_pos passed, src_setSrc_self _ inside]
      exact ⟨rfl, rfl, rfl⟩
    · have noted := drawn_record ((failedStartup s n.val f v).setSrc n.val
        { (failedStartup s n.val f v).src n.val with st := .retired }) 0x0702 4 (srcSource n.val)
        (toLE 1 n.val ++ toLE 1 f ++ toLE 1 (s.src n.val).trim)
      rw [if_neg failed, if_neg (by omega), State.src, noted.src]
      exact congrArg Source.st (src_setSrc_self _ listed)
    · rw [if_neg failed, if_pos (by omega)]
      exact ⟨benched, consec⟩

/-! ### RECAL on command (R209) -/

/-- A source sent to recalibration, and the record of it. -/
def recalNoted (s : State) (n : Nat) : State :=
  (s.setSrc n { s.src n with st := .recal, consec := 0, retries := 0 }).record 0x0709 2 (srcSource n) (toLE 1 n)

/-- What RECAL comes to on a page that answers. -/
theorem exec_recal {s : State} {n : Nat} (reach : s.reach .rng) (sel : n = fld (s.rg .rng 0x044) 0 3) :
    exec .recal s = .next
      (if (s.src n).st != .active && (s.src n).st != .retry && (s.src n).st != .retired then s.refuse .rng cForbids 3
      else if 2 < s.benched then s.refuse .rng cForbids 4 else recalNoted s n) := by
  obtain ⟨awake, answers⟩ := reach
  show Host.Outcome.next (s.hostReq _ recalBody) = _
  rw [hostReq_awake s _ _ awake, recalBody, onPage_answers s .rng _ answers, sel]
  rfl

theorem recal_taken {s : State} {n : Nat} (reach : s.reach .rng) (sel : n = fld (s.rg .rng 0x044) 0 3)
    (fit : (s.src n).st = .active ∨ (s.src n).st = .retry ∨ (s.src n).st = .retired) (few : s.benched ≤ 2) :
    exec .recal s = .next (recalNoted s n) := by
  rw [exec_recal reach sel, if_neg (by rcases fit with h | h | h <;> simp [h]), if_neg (Nat.not_lt.2 few)]

theorem recal_refused {s : State} {n : Nat} (reach : s.reach .rng) (sel : n = fld (s.rg .rng 0x044) 0 3)
    (notActive : (s.src n).st ≠ .active) (notRetry : (s.src n).st ≠ .retry) (notRetired : (s.src n).st ≠ .retired) :
    exec .recal s = .next (s.refuse .rng cForbids 3) := by
  rw [exec_recal reach sel, if_pos (by simp [notActive, notRetry, notRetired])]

theorem recalNoted_src {s : State} {n : Nat} (inside : n < s.rng.src.length) :
    (recalNoted s n).src n = { s.src n with st := .recal, consec := 0, retries := 0 } ∧ (recalNoted s n).jobs = s.jobs := by
  let u := s.setSrc n { s.src n with st := .recal, consec := 0, retries := 0 }
  refine ⟨?_, ?_⟩
  · rw [State.src, recalNoted, (drawn_record u ..).src]
    exact src_setSrc_self _ inside
  · rw [recalNoted, logged_record u]
    rfl

theorem sourceRecovery : Clause.SourceRecovery := by
  rintro s n v rfl
  have inside (st : SrcState) (is : (s.src n.val).st = st) (out : st ≠ .off) : n.val < s.rng.src.length :=
    lt_length_of_src (by rw [is]; exact out)
  refine ⟨fun on benched ended => ?_, fun on osc recal scan => ?_, fun on osc startup bits => startupTestDone on osc startup bits,
    fun reach sel fit few => ?_, fun reach sel notActive notRetry notRetired => ?_⟩
  · exact completes_of_exec (sourceBenchEnd_ends on benched ended) ⟨src_setSrc_self _ (inside _ benched (by decide)), rfl⟩
  · have own := src_setSrc_self { s.src n.val with st := .startup, trim := bestTrim scan, repRun := 0 }
      (inside _ recal (by decide))
    refine completes_of_exec (recalComplete_starts scan on osc recal) ?_
    dsimp only
    rw [own]
    exact ⟨rfl, (bestTrim_lowest scan).1, (bestTrim_lowest scan).2, rfl⟩
  · have listed : n.val < s.rng.src.length := lt_length_of_src (by rcases fit with h | h | h <;> rw [h] <;> decide)
    exact completes_of_exec (recal_taken reach sel fit few) (recalNoted_src listed)
  · exact completes_of_exec (recal_refused reach sel notActive notRetry notRetired) ⟨refuse_errCode .., refuse_rng ..⟩

/-! ### An instance's known-answer test (R199, R208) -/

/-- Until the source is FAILED, instance `n` alone has come to another state. -/
structure Tested (n : Nat) (st : InstState) (s t : State) : Prop where
  es : t.rng.es = s.rng.es
  length : t.rng.inst.length = s.rng.inst.length
  own : s.rng.es ≠ .failed → n < s.rng.inst.length → (t.inst n).st = st
  others : s.rng.es ≠ .failed → ∀ m, m ≠ n → (t.inst m).st = (s.inst m).st

theorem Tested.trans {n : Nat} {a b : InstState} {s t u : State} (h : Tested n a s t) (k : Tested n b t u) : Tested n b s u where
  es := k.es.trans h.es
  length := k.length.trans h.length
  own sound inside := k.own (h.es ▸ sound) (h.length ▸ inside)
  others sound m other := (k.others (h.es ▸ sound) m other).trans (h.others sound m other)

theorem Tested.drawn {n : Nat} {st : InstState} {s t u : State} (h : Tested n st s t) (k : Drawn t.rng u.rng) : Tested n st s u where
  es := k.es.trans h.es
  length := k.length.trans h.length
  own sound inside := (k.st (h.es ▸ sound) n).trans (h.own sound inside)
  others sound m other := (k.st (h.es ▸ sound) m).trans (h.others sound m other)

theorem tested_setInst (s : State) (n : Nat) (i : Inst) : Tested n i.st s (s.setInst n i) where
  es := rfl
  length := List.length_set ..
  own _ inside := by rw [inst_setInst_self i inside]
  others _ m other := by rw [inst_setInst_ne s i other]

theorem tested_uninst (s : State) (n : Nat) (st : InstState) : Tested n st s (s.uninst n st) :=
  tested_setInst s n { s.inst n with st := st, count := 0, key := [], v := [] }

/-- A pool word taken leaves the instances, whatever the source's state. -/
theorem poolWord_rest (s : State) : s.poolWord.2.rng.es = s.rng.es ∧ s.poolWord.2.rng.inst = s.rng.inst := by
  rw [poolWord_kept]
  exact ⟨rfl, rfl⟩

/-- Two pool words taken leave the source's state and the instances. -/
theorem poolWords_rest (s : State) :
    s.poolWord.2.poolWord.2.rng.es = s.rng.es ∧ s.poolWord.2.poolWord.2.rng.inst = s.rng.inst := by
  obtain ⟨es, inst⟩ := poolWord_rest s
  obtain ⟨es', inst'⟩ := poolWord_rest s.poolWord.2
  exact ⟨es'.trans es, inst'.trans inst⟩

/-- An instance is instantiated from two pool words, and runs; the others stay (Table 9.4). -/
theorem instantiate_inst (s : State) (n : Nat) : ∃ i : Inst, i.st = .running ∧
    (s.instantiate n).rng.inst = s.rng.inst.set n i ∧ (s.instantiate n).rng.es = s.rng.es := by
  obtain ⟨es, inst⟩ := poolWords_rest s
  have set (i : Inst) : (s.poolWord.2.poolWord.2.setInst n i).rng.inst = s.rng.inst.set n i := congrArg (List.set · n i) inst
  unfold State.instantiate
  dsimp only
  split
  · refine ⟨_, ?_, set _, es⟩
    rfl
  · refine ⟨_, ?_, set _, es⟩
    rfl

theorem tested_instantiate (s : State) (n : Nat) : Tested n .running s (s.instantiate n) := by
  obtain ⟨i, runs, set, es⟩ := instantiate_inst s n
  have one := tested_setInst s n i
  have same (m : Nat) : (s.instantiate n).inst m = (s.setInst n i).inst m := by rw [State.inst, set]; rfl
  rw [runs] at one
  refine ⟨es, by rw [set, List.length_set], fun sound inside => ?_, fun sound m other => ?_⟩
  · rw [same]; exact one.own sound inside
  · rw [same]; exact one.others sound m other

theorem drawn_katFail (s : State) (part : Nat) : Drawn s.rng (s.katFail part).rng := by
  unfold State.katFail
  rw [raise_rng]
  exact drawn_record ..

/-- The state an instance's known-answer test leaves it in. -/
def tested (ok : Bool) : InstState := if ok then .running else .fault

/-- An instance that passes runs; one that fails reads FAULT (R199, R208). -/
theorem tested_katInst (s : State) (n : Nat) (ok : Bool) : Tested n (tested ok) s (s.katInst n ok) := by
  cases ok with
  | true =>
    have down : Tested n .testing s (s.uninst n .testing) := tested_uninst ..
    exact (down.trans (tested_instantiate _ n)).drawn (.of_eq (reRun_rng _))
  | false =>
    have down : Tested n .fault s (s.uninst n .fault) := tested_uninst ..
    have back : ((s.uninst n .fault).requeueReads n).rng = (s.uninst n .fault).rng := rfl
    refine (down.drawn (.of_eq back)).drawn ((drawn_katFail _ n).trans (.of_eq ?_))
    exact (reRun_rng _).trans (raise_rng ..)

/-- Instances tested one after another, each leaving the others (R208). -/
theorem foldl_katInst (f : Nat → Bool) (l : List Nat) (once : l.Nodup) (s : State) (sound : s.rng.es ≠ .failed) :
    let t := l.foldl (fun a n => a.katInst n (f n)) s
    t.rng.es = s.rng.es ∧ (∀ n ∈ l, n < s.rng.inst.length → (t.inst n).st = tested (f n)) ∧
      ∀ n, n ∉ l → (t.inst n).st = (s.inst n).st := by
  induction l generalizing s with
  | nil => exact ⟨rfl, fun _ h => absurd h List.not_mem_nil, fun _ _ => rfl⟩
  | cons m l ih =>
    obtain ⟨fresh, once'⟩ := List.nodup_cons.1 once
    have first := tested_katInst s m (f m)
    obtain ⟨es, those, rest⟩ := ih once' (s.katInst m (f m)) (by rwa [first.es])
    refine ⟨es.trans first.es, fun n listed inside => ?_, fun n unlisted => ?_⟩
    · rcases List.mem_cons.1 listed with rfl | listed
      · exact (rest n fresh).trans (first.own sound inside)
      · exact those n listed (by rwa [first.length])
    · obtain ⟨other, later⟩ := not_or.1 (mt List.mem_cons.2 unlisted)
      exact (rest n later).trans (first.others sound n other)

/-! ### OPTIME through the tests -/

theorem reRun_optime (s : State) : s.reRun.glb.optime = s.glb.optime := by
  unfold State.reRun State.setRun
  split <;> rfl

theorem logged_katFail (s : State) (part : Nat) : Logged s (s.katFail part) :=
  logged_trans (logged_record ..) (logged_raise ..)

theorem logged_instantiate (s : State) (n : Nat) : Logged s (s.instantiate n) := by
  have words : Logged s s.poolWord.2.poolWord.2 := logged_trans (logged_poolWord s) (logged_poolWord _)
  have set (i : Inst) : Logged s (s.poolWord.2.poolWord.2.setInst n i) := logged_trans words rfl
  unfold State.instantiate
  exact logged_ite (logged_trans (set _) rfl) (set _)

theorem optime_of_logged {s t : State} (h : Logged s t) : t.glb.optime = s.glb.optime := by rw [h]

theorem katInst_optime (s : State) (n : Nat) (ok : Bool) : (s.katInst n ok).glb.optime = s.glb.optime := by
  cases ok with
  | true => exact (reRun_optime _).trans (optime_of_logged (logged_instantiate (s.uninst n .testing) n))
  | false =>
    have fails := optime_of_logged
      (logged_trans (logged_katFail ((s.uninst n .fault).requeueReads n) n) (logged_raise _ .rng 19))
    exact (reRun_optime _).trans fails

theorem foldl_katInst_optime (f : Nat → Bool) (l : List Nat) (s : State) :
    (l.foldl (fun a n => a.katInst n (f n)) s).glb.optime = s.glb.optime := by
  induction l generalizing s with
  | nil => rfl
  | cons n l ih => exact (ih _).trans (katInst_optime s n (f n))

theorem foldl_uninst_glb (l : List Nat) (st : InstState) (s : State) :
    (l.foldl (fun a n => a.uninst n st) s).glb = s.glb := by
  induction l generalizing s with
  | nil => rfl
  | cons n l ih => exact ih _

/-- The end of bound reads changes no more than endings of jobs do. -/
theorem endChanges_endReads (l : List Nat) (s : State) : EndChanges s (endReads l s) := by
  induction l generalizing s with
  | nil => exact endChanges_refl s
  | cons id l ih =>
    unfold endReads
    split
    · exact endChanges_trans (endChanges_finish ..) (ih _)
    · exact ih s

/-- The source's failure takes no time. -/
theorem esFail_optime (s : State) (cause : Nat) : (s.esFail cause).glb.optime = s.glb.optime := by
  by_cases healthy : s.rng.es = .healthy
  · obtain ⟨l, e⟩ := esFail_eq cause healthy
    have down : (failedNow s).glb = s.glb := foldl_uninst_glb ..
    have noted : Logged (failedNow s) (failNoted s cause) := logged_trans (logged_record ..) (logged_raise ..)
    have read : (endReads l (failNoted s cause)).glb = (failNoted s cause).glb := by rw [endChanges_endReads]
    rw [e, reRun_optime, optime_of_logged (logged_stopSpent _), read, optime_of_logged noted, down]
  · rw [esFail_unhealthy cause healthy]

/-! ### The conditioner's test and the cycle (R208) -/

/-- The state in which a conditioner's test is noted. -/
def condNoted (s : State) (ok : Bool) : State := { s with rng := { s.rng with condFailed := !ok, condRetest := s.tick + 64 } }

/-- A conditioner that fails its test: FAILED where the source is HEALTHY, to be tested again in 64 ticks. -/
theorem katCond_fails (s : State) :
    (s.katCond false).rng.condFailed = true ∧ (s.katCond false).rng.condRetest = s.tick + 64 ∧
      (s.rng.es = .healthy → (s.katCond false).rng.es = .failed) ∧ (s.katCond false).glb.optime = s.glb.optime := by
  have noted := drawn_katFail (condNoted s false) 8
  have run : s.katCond false = ((condNoted s false).katFail 8).esFail 3 := rfl
  refine ⟨?_, ?_, fun healthy => ?_, ?_⟩
  · rw [run, esFail_rest]
    exact noted.condFailed
  · rw [run, esFail_rest]
    exact noted.condRetest
  · exact (esFail_fails 3 (noted.es.trans healthy)).1
  · rw [run, esFail_optime]
    exact optime_of_logged (logged_katFail (condNoted s false) 8)

/-- The part that a cycle's result names: 8 the conditioner, else the first instance that failed, 15 none. -/
def failedPart (kat : KatRun) : Nat :=
  if !kat.conditioner then 8 else ((List.range 8).find? fun n => !kat.inst.getD n true).getD 15

/-- A cycle names no part just where all pass. -/
theorem failedPart_iff (kat : KatRun) :
    failedPart kat = 15 ↔ (kat.conditioner && (List.range 8).all fun n => kat.inst.getD n true) = true := by
  unfold failedPart
  cases kat.conditioner with
  | false => simp
  | true =>
    cases found : (List.range 8).find? fun n => !kat.inst.getD n true with
    | none => simpa using found
    | some n =>
      have low : n < 8 := List.mem_range.1 (List.mem_of_find?_eq_some found)
      have fails := List.find?_some found
      have some_fails : ((List.range 8).all fun n => kat.inst.getD n true) = false :=
        List.all_eq_false.2 ⟨n, List.mem_range.2 low, by simpa using fails⟩
      have named : n ≠ 15 := by omega
      rw [some_fails]
      exact iff_of_false named (by decide)

/-- The state after the tests of a cycle, before its result and time are kept. -/
def cycleTested (s : State) (kat : KatRun) : State :=
  if kat.conditioner then (List.range 8).foldl (fun a n => a.katInst n (kat.inst.getD n true)) (s.katCond kat.conditioner)
  else s.katCond kat.conditioner

theorem katCycle_eq (s : State) (kat : KatRun) :
    s.katCycle kat = { cycleTested s kat with rng := { (cycleTested s kat).rng with
      katRes := if failedPart kat = 15 then 1 else 2, katPart := failedPart kat, katTick := (cycleTested s kat).tick
      nextCycle := (cycleTested s kat).tick + 5529600 } } := rfl

theorem cycleTested_tick (s : State) (kat : KatRun) : (cycleTested s kat).tick = s.tick := by
  unfold cycleTested
  cases kat.conditioner with
  | true => exact foldl_katInst_optime _ _ (condNoted s true)
  | false => exact (katCond_fails s).2.2.2

/-- A cycle with a conditioner that passes tests every instance. -/
theorem cycleTested_inst {s : State} {kat : KatRun} (sound : s.rng.es ≠ .failed) (eight : s.rng.inst.length = 8)
    (passes : kat.conditioner = true) : ∀ n < 8, ((cycleTested s kat).inst n).st = tested (kat.inst.getD n true) := by
  intro n low
  have all := (foldl_katInst (fun n => kat.inst.getD n true) (List.range 8) List.nodup_range (condNoted s true) sound).2.1
  unfold cycleTested
  rw [passes]
  exact all n (List.mem_range.2 low) (Nat.lt_of_lt_of_eq low eight.symm)

/-- What a cycle leaves behind (R208). -/
theorem katCycle_leaves {s : State} (kat : KatRun) (healthy : s.rng.es = .healthy) (eight : s.rng.inst.length = 8) :
    let u := s.katCycle kat
    u.rng.katTick = s.tick ∧ u.rng.nextCycle = s.tick + 5529600 ∧
      u.rng.katRes = (if (kat.conditioner && (List.range 8).all fun n => kat.inst.getD n true) = true then 1 else 2) ∧
      (kat.conditioner = true → ∀ n < 8, (u.inst n).st = tested (kat.inst.getD n true)) ∧
      (kat.conditioner = false → u.rng.es = .failed ∧ u.rng.katPart = 8 ∧ u.rng.condFailed = true) := by
  obtain ⟨cond, _, es, _⟩ := katCond_fails s
  have time := cycleTested_tick s kat
  rw [katCycle_eq]
  refine ⟨time, congrArg (· + 5529600) time, ?_, fun passes => ?_, fun fails => ?_⟩
  · simp only [failedPart_iff]
  · exact cycleTested_inst (by rw [healthy]; decide) eight passes
  · have down : cycleTested s kat = s.katCond false := by simp [cycleTested, fails]
    have part : failedPart kat = 8 := by simp [failedPart, fails]
    rw [down]
    exact ⟨es healthy, part, cond⟩

/-- KAT on command runs a cycle where none runs and the source is HEALTHY. -/
theorem exec_kat {s : State} {kat : KatRun} (reach : s.reach .rng) (free : s.rng.katRes ≠ 3) (healthy : s.rng.es = .healthy) :
    exec (.kat kat) s = .next (s.katCycle kat).serveDraws := by
  obtain ⟨awake, answers⟩ := reach
  show Host.Outcome.next (s.hostReq _ (katBody kat)) = _
  rw [hostReq_awake s _ _ awake, katBody, onPage_answers s .rng _ answers, if_neg free, if_neg (by simp [healthy])]

theorem exec_katCycle {s : State} {kat : KatRun} (on : s.rngOn = true) (healthy : s.rng.es = .healthy)
    (due : s.rng.nextCycle ≤ s.tick) : exec (.katCycle kat) s = .next (s.katCycle kat).serveDraws :=
  congrArg _ (if_pos (by simp [on, healthy, due]))

theorem exec_conditionerRetest {s : State} {ok : Bool} (on : s.rngOn = true) (failed : s.rng.condFailed = true)
    (due : s.rng.condRetest ≤ s.tick) : exec (.conditionerRetest ok) s = .next (s.katCond ok).serveDraws :=
  congrArg _ (if_pos (by simp [on, failed, due]))

/-! ### The recovery (R207) -/

/-- An internal instance at a recovery: one that runs is reseeded, one that stopped or failed is tested. -/
def recoverOne (kat : KatRun) (s : State) (n : Nat) : State :=
  match (s.inst n).st with
  | .running => s.reseed n
  | .stopped | .fault => s.katInst n (kat.inst.getD n true)
  | _ => s

/-- The source HEALTHY again, before the host's instances are tested. -/
def recovered (kat : KatRun) (s : State) : State :=
  let u := [0, 1, 2, 3].foldl (recoverOne kat) s
  (({ u with rng := { u.rng with es := .healthy } } : State).reRun.record 0x0705 2 0 []).raise .rng 16

theorem esRecoveryBody_recovers {s : State} (kat : KatRun) (can : s.canRecover = true) :
    esRecoveryBody kat s = [4, 5, 6, 7].foldl (fun a n => a.katInst n (kat.inst.getD n true)) (recovered kat s) := by
  unfold esRecoveryBody
  rw [if_neg (by simp [can])]
  rfl

theorem reseed_length (s : State) (n : Nat) : (s.reseed n).rng.inst.length = s.rng.inst.length :=
  (List.length_set ..).trans (congrArg List.length (poolWord_rest s).2)

theorem recoverOne_length (kat : KatRun) (s : State) (n : Nat) :
    (recoverOne kat s n).rng.inst.length = s.rng.inst.length := by
  unfold recoverOne
  split
  · exact reseed_length s n
  · exact (tested_katInst ..).length
  · exact (tested_katInst ..).length
  · rfl

theorem foldl_recoverOne_length (kat : KatRun) (l : List Nat) (s : State) :
    (l.foldl (recoverOne kat) s).rng.inst.length = s.rng.inst.length := by
  induction l generalizing s with
  | nil => rfl
  | cons n l ih => exact (ih _).trans (recoverOne_length kat s n)

theorem recovered_kept (kat : KatRun) (s : State) :
    (recovered kat s).rng.es = .healthy ∧ (recovered kat s).rng.inst.length = s.rng.inst.length := by
  let u := [0, 1, 2, 3].foldl (recoverOne kat) s
  have recorded := drawn_record (State.reRun { u with rng := { u.rng with es := .healthy } }) 0x0705 2 0 []
  rw [reRun_rng] at recorded
  unfold recovered
  dsimp only
  rw [raise_rng]
  exact ⟨recorded.es, recorded.length.trans (foldl_recoverOne_length kat _ s)⟩

/-- After a recovery the source is HEALTHY and the host's instances read what their tests gave (R207). -/
theorem esRecoveryBody_leaves {s : State} (kat : KatRun) (can : s.canRecover = true) (eight : s.rng.inst.length = 8) :
    (esRecoveryBody kat s).rng.es = .healthy ∧
      ∀ n ∈ [4, 5, 6, 7], ((esRecoveryBody kat s).inst n).st = tested (kat.inst.getD n true) := by
  obtain ⟨healthy, length⟩ := recovered_kept kat s
  obtain ⟨es, inst, _⟩ := foldl_katInst (fun n => kat.inst.getD n true) [4, 5, 6, 7] (by decide) (recovered kat s)
    (by rw [healthy]; decide)
  have low : ∀ n ∈ [4, 5, 6, 7], n < 8 := by decide
  rw [esRecoveryBody_recovers kat can]
  exact ⟨es.trans healthy, fun n listed => inst n listed (by rw [length, eight]; exact low n listed)⟩

theorem length_inst_of_sane {s : State} (sane : s.sane = true) : s.rng.inst.length = 8 := by
  simp only [State.sane, Bool.and_eq_true, decide_eq_true_eq] at sane
  obtain ⟨⟨⟨_, eight⟩, _⟩, _⟩ := sane
  exact eight

theorem knownAnswerTests : Clause.KnownAnswerTests := by
  intro s kat sane good after
  have eight := length_inst_of_sane sane
  refine ⟨fun reach free healthy => ?_, fun on healthy due => ?_, fun on failed due => ⟨?_, ?_⟩, fun can => ?_⟩
  · exact completes_of_served (exec_kat reach free healthy) rfl (katCycle_leaves kat healthy eight)
  · exact completes_of_served (exec_katCycle on healthy due) rfl (katCycle_leaves kat healthy eight)
  · exact completes_of_served (exec_conditionerRetest on failed due) rfl rfl
  · obtain ⟨cond, retest, _⟩ := katCond_fails s
    exact completes_of_served (exec_conditionerRetest on failed due) rfl ⟨cond, retest⟩
  · exact completes_of_served rfl rfl (esRecoveryBody_leaves kat can eight)

/-- Settles O28: a benched source step by step, the tests by their results. -/
theorem sourcesRecover : Obligations.SourcesRecover := ⟨sourceRecovery, knownAnswerTests⟩

end Sys2Proof.Proofs.SourceRecovery
end

