-- ==== Sys2Proof/Proofs/StartSequence.lean ====
section
/-! SUPPORT. The sequence of Table 17.3: what every start keeps, the start of the random service (R203, R204), and how a start
reaches READY, halts or is repeated (R353, R402, R403, R413, R432); O54. -/
namespace Sys2Proof.Proofs.StartSequence
open Sys2Proof Sys2Proof.Machine Sys2Proof.Laws Sys2Proof.Proofs.RandomState Sys2Proof.Proofs.NoiseSources
open Sys2Proof.Proofs.RandomReads (logged_noteStop)
open Sys2Proof.Proofs.SourceRecovery (logged_katFail logged_instantiate instantiate_inst)
open Sys2Proof.Proofs.Board (stagingFlush_frame)
open Sys2Proof.Proofs.LadderMoves (completes_of_body)

/-! ### What a start keeps -/

/-- The counts and flags that a start takes from the reset before it. -/
structure Clocked (s t : State) : Prop where
  stateLost : t.glb.stateLost = s.glb.stateLost
  pcc : t.glb.pcc = s.glb.pcc
  optime : t.glb.optime = s.glb.optime
  reset : t.pwr.reset = s.pwr.reset
  ladder : t.pwr.ladder = s.pwr.ladder
  coreSupply : t.pwr.coreSupply = s.pwr.coreSupply

namespace Clocked

theorem refl (s : State) : Clocked s s := ⟨rfl, rfl, rfl, rfl, rfl, rfl⟩

theorem trans {s t u : State} (h : Clocked s t) (k : Clocked t u) : Clocked s u :=
  ⟨k.stateLost.trans h.stateLost, k.pcc.trans h.pcc, k.optime.trans h.optime, k.reset.trans h.reset, k.ladder.trans h.ladder,
    k.coreSupply.trans h.coreSupply⟩

theorem of_logged {s t : State} (h : Logged s t) : Clocked s t := by
  rw [h]
  exact ⟨rfl, rfl, rfl, rfl, rfl, rfl⟩

theorem ite {c : Prop} [Decidable c] {s t u : State} (h : Clocked s t) (k : Clocked s u) : Clocked s (if c then t else u) := by
  split
  · exact h
  · exact k

end Clocked

/-- A step of a start once step 2 is done: beside those counts it keeps the life-cycle records. -/
structure Steady (s t : State) : Prop where
  clock : Clocked s t
  recs : t.lcs.recs = s.lcs.recs

namespace Steady

theorem refl (s : State) : Steady s s := ⟨.refl s, rfl⟩

theorem trans {s t u : State} (h : Steady s t) (k : Steady t u) : Steady s u := ⟨h.clock.trans k.clock, k.recs.trans h.recs⟩

theorem of_logged {s t : State} (h : Logged s t) : Steady s t := ⟨.of_logged h, by rw [h]⟩

theorem ite {c : Prop} [Decidable c] {s t u : State} (h : Steady s t) (k : Steady s u) : Steady s (if c then t else u) := by
  split
  · exact h
  · exact k

theorem foldl {α : Type} {f : State → α → State} (step : ∀ s a, Steady s (f s a)) (l : List α) (s : State) :
    Steady s (l.foldl f s) := by
  induction l generalizing s with
  | nil => exact refl s
  | cons a l ih => exact (step s a).trans (ih (f s a))

/-- A step that leaves GLB, the power block and the life cycle alone. -/
theorem aside {s t : State} (glb : t.glb = s.glb) (pwr : t.pwr = s.pwr) (lcs : t.lcs = s.lcs) : Steady s t :=
  ⟨⟨by rw [glb], by rw [glb], by rw [glb], by rw [pwr], by rw [pwr], by rw [pwr]⟩, by rw [lcs]⟩

end Steady

theorem steady_record (s : State) (typ sev src : Nat) (c : Bytes) : Steady s (s.record typ sev src c) :=
  .of_logged (logged_record ..)

/-- A record after such a step. -/
theorem Steady.record {s t : State} {typ sev src : Nat} {c : Bytes} (h : Steady s t) : Steady s (t.record typ sev src c) :=
  h.trans (steady_record ..)

theorem steady_setCause (s : State) (c : Nat) : Steady s (s.setCause c) := .ite (.refl s) (.aside rfl rfl rfl)

theorem steady_stepDone (s : State) (n : Nat) : Steady s (s.stepDone n) := ⟨⟨rfl, rfl, rfl, rfl, rfl, rfl⟩, rfl⟩

/-- A value of RUN noted. -/
theorem steady_run (s : State) (r : RunState) : Steady s { s with glb := { s.glb with run := r } } :=
  ⟨⟨rfl, rfl, rfl, rfl, rfl, rfl⟩, rfl⟩

theorem logged_foldl {α : Type} {f : State → α → State} (step : ∀ s a, Logged s (f s a)) (l : List α) (s : State) :
    Logged s (l.foldl f s) := by
  induction l generalizing s with
  | nil => exact logged_refl s
  | cons a l ih => exact logged_trans (step s a) (ih (f s a))

/-! ### The start of the random service (R203, R204, Table 9.6) -/

theorem setCause_cause (s : State) (c : Nat) : (s.setCause c).isl.cause = c := by
  unfold State.setCause
  split
  · next same => exact same
  · rfl

theorem logged_uninst (s : State) (n : Nat) (st : InstState) : Logged s (s.uninst n st) := rfl

theorem logged_rngTests (s : State) (kat : KatRun) : Logged s (s.rngTests kat) := by
  have cond : Logged s (if kat.conditioner then s else s.katFail 8) := logged_ite (logged_refl s) (logged_katFail s 8)
  have bad (l : List Nat) (a : State) :
      Logged a (l.foldl (fun a n => ((a.uninst n .fault).katFail n).raise .rng 19) a) :=
    logged_foldl (fun a n => logged_trans (logged_uninst a n .fault) (logged_trans (logged_katFail ..) (logged_raise ..))) l a
  unfold State.rngTests
  exact logged_trans cond (logged_trans (bad _ _) rfl)

theorem logged_startSource (s : State) (env : StartEnv) (n : Nat) : Logged s (s.startSource env n) := by
  have set (v : Source) : Logged s (s.setSrc n v) := rfl
  unfold State.startSource
  dsimp only
  exact logged_ite (set _) (logged_trans (set _) (logged_trans (logged_raise ..) (logged_record ..)))

/-- Whether the oscillator of a start is out of its range (R191). -/
def oscBad (env : StartEnv) : Bool := env.soscKhz < 12000 || 20000 < env.soscKhz

/-- The known-answer tests of a start. -/
def startTested (s : State) (env : StartEnv) : State :=
  { s with rng := { s.rng with soscKhz := env.soscKhz, soscErr := oscBad env } }.rngTests env.kat

/-- The sources' tests after them, which a start that has failed already does not come to. -/
def startSourced (s : State) (env : StartEnv) : State :=
  if oscBad env || !env.kat.conditioner then startTested s env
  else (List.range 8).foldl (fun a n => a.startSource env n) (startTested s env)

theorem logged_startSourced (s : State) (env : StartEnv) : Logged s (startSourced s env) := by
  have tests : Logged s (startTested s env) := by
    have measured : Logged s { s with rng := { s.rng with soscKhz := env.soscKhz, soscErr := oscBad env } } := rfl
    exact logged_trans measured (logged_rngTests ..)
  exact logged_ite tests (logged_trans tests (logged_foldl (fun a n => logged_startSource a env n) _ _))

/-- The instances that passed instantiated from the pool's first words. -/
def startFilled (s : State) (env : StartEnv) : State :=
  ((List.range 8).filter fun n => env.kat.inst.getD n true).foldl (fun a n => (a.uninst n .testing).instantiate n)
    { startSourced s env with rng := { (startSourced s env).rng with startFailed := false, pool := env.words } }

/-- The source HEALTHY. -/
def startHealthy (s : State) (env : StartEnv) : State :=
  let u := startFilled s env
  let v : State := { u with rng := { u.rng with es := .healthy, intStopNoted := false } }
  if s.rng.es = .healthy then v else v.raise .rng 16

/-- A start of the service that fails at nothing (R204). -/
theorem rngStart_starts {s : State} {env : StartEnv} (good : rngStartCause s env = none) :
    s.rngStart env = (startHealthy s env, true) := by
  unfold State.rngStart
  rw [good]
  rfl

/-- One that fails at something. -/
theorem rngStart_stops {s : State} {env : StartEnv} {c : Nat} (bad : rngStartCause s env = some c) :
    s.rngStart env = ((startSourced s env).rngStartFails c, false) := by
  unfold State.rngStart
  rw [bad]
  rfl

theorem logged_startHealthy (s : State) (env : StartEnv) : Logged s (startHealthy s env) := by
  have filled : Logged s (startFilled s env) := by
    have words : Logged s { startSourced s env with rng := { (startSourced s env).rng with startFailed := false, pool := env.words } } :=
      logged_trans (logged_startSourced s env) rfl
    exact logged_trans words
      (logged_foldl (fun a n => logged_trans (logged_uninst a n .testing) (logged_instantiate ..)) _ _)
  have healthy : Logged s { startFilled s env with rng := { (startFilled s env).rng with es := .healthy, intStopNoted := false } } :=
    logged_trans filled rfl
  exact logged_ite healthy (logged_trans healthy (logged_raise ..))

/-- A service that starts is HEALTHY, with the instances as they were filled. -/
theorem startHealthy_rng (s : State) (env : StartEnv) :
    (startHealthy s env).rng = { (startFilled s env).rng with es := .healthy, intStopNoted := false } :=
  ite_rng rfl (raise_rng ..)

/-- An instance that is instantiated reads no FAULT. -/
theorem instantiate_sound (s : State) (n m : Nat) (h : n = m ∨ (s.inst m).st ≠ .fault) :
    (((s.uninst n .testing).instantiate n).inst m).st ≠ .fault := by
  obtain ⟨i, runs, set, _⟩ := instantiate_inst (s.uninst n .testing) n
  have down : (s.uninst n .testing).rng.inst = s.rng.inst.set n _ := rfl
  rw [State.inst, set, down, List.set_set, getD_set]
  split
  · rw [runs]
    decide
  · next other =>
    rcases h with rfl | sound
    · have outside : ¬ n < s.rng.inst.length := fun inside => other ⟨rfl, inside⟩
      intro fault
      exact outside (lt_length_of_inst (s := s) (by rw [State.inst, fault]; decide))
    · exact sound

/-- So an instance that passed its test reads none once the service has started. -/
theorem startFilled_sound (s : State) (env : StartEnv) {n : Nat} (low : n < 8) (passed : env.kat.inst.getD n true = true) :
    ((startFilled s env).inst n).st ≠ .fault := by
  have fills (l : List Nat) : ∀ a : State, n ∈ l ∨ (a.inst n).st ≠ .fault →
      ((l.foldl (fun (a : State) m => (a.uninst m .testing).instantiate m) a).inst n).st ≠ .fault := by
    induction l with
    | nil => exact fun a h => h.resolve_left List.not_mem_nil
    | cons m l ih =>
      intro a h
      by_cases same : m = n
      · exact ih _ (.inr (instantiate_sound a m n (.inl same)))
      · exact ih _ (h.imp (fun listed => (List.mem_cons.1 listed).resolve_left (Ne.symm same))
          fun sound => instantiate_sound a m n (.inr sound))
  exact fills _ _ (.inl (List.mem_filter.2 ⟨List.mem_range.2 low, passed⟩))

/-- A service that starts has an internal instance that passed (R204). -/
theorem internal_passed {s : State} {env : StartEnv} (good : rngStartCause s env = none) :
    ∃ n ∈ [0, 1, 2, 3], env.kat.inst.getD n true = true := by
  unfold rngStartCause at good
  dsimp only at good
  split at good
  · cases good
  split at good
  · cases good
  split at good
  · cases good
  split at good
  · cases good
  next none_fail =>
    simp only [Bool.or_eq_true, not_or] at none_fail
    exact List.any_eq_true.1 (by simpa only [Bool.not_eq_true', Bool.not_eq_false] using none_fail.1)

/-- What a failed attempt notes (R204). -/
theorem rngStartFails_eq (s : State) (c : Nat) : ∃ u, Logged s u ∧ u.rng.startFailed = true ∧
    u.rng.startRetry = s.tick + 64 ∧ s.rngStartFails c = u.setCause c := by
  let w : State := { s with rng := { s.rng with startFailed := true, startRetry := s.tick + 64 } }
  have noted : Logged s w := rfl
  unfold State.rngStartFails
  dsimp only
  split
  · refine ⟨_, ?_, ?_, ?_, rfl⟩
    · rfl
    · rfl
    · rfl
  · have recorded := drawn_record w 0x0708 4 0 (toLE 1 c)
    exact ⟨_, logged_trans noted (logged_record ..), recorded.startFailed, recorded.startRetry, rfl⟩

/-- A start that fails leaves an attempt to repeat 64 ticks later, and its cause (R204). -/
theorem rngStart_fails {s : State} {env : StartEnv} {c : Nat} (bad : rngStartCause s env = some c) :
    ∃ u, Logged s u ∧ u.rng.startFailed = true ∧ u.rng.startRetry = s.tick + 64 ∧ s.rngStart env = (u.setCause c, false) := by
  obtain ⟨u, logged, failed, retry, e⟩ := rngStartFails_eq (startSourced s env) c
  have sourced := logged_startSourced s env
  have time : (startSourced s env).tick = s.tick := by rw [sourced]; rfl
  refine ⟨u, logged_trans sourced logged, failed, by rw [retry, time], ?_⟩
  rw [rngStart_stops bad, e]

theorem steady_rngStart (s : State) (env : StartEnv) : Steady s (s.rngStart env).1 := by
  cases cause : rngStartCause s env with
  | none =>
    rw [rngStart_starts cause]
    exact .of_logged (logged_startHealthy s env)
  | some c =>
    obtain ⟨u, logged, _, _, e⟩ := rngStart_fails cause
    rw [e]
    exact (Steady.of_logged logged).trans (steady_setCause u c)

/-- Whether the service starts rests on the sources alone. -/
theorem rngStartCause_congr {s t : State} (env : StartEnv) (h : t.rng.src = s.rng.src) :
    rngStartCause t env = rngStartCause s env := by
  have same (n : Nat) : t.src n = s.src n := by rw [State.src, h]; rfl
  unfold rngStartCause
  simp only [same]

/-! ### Images (R403, R413) -/

theorem steady_noImage (s : State) (n : Nat) : Steady s (s.noImage n) :=
  (steady_setCause s (0x10 + n)).trans ((steady_record ..).trans (steady_run _ .halted))

/-- An image class loaded: nothing changes, the copy selected is taken, or the unit halts. -/
theorem loadClass_cases (s : State) (env : StartEnv) (frost : Bool) (n : Nat) :
    s.loadClass env frost n = s ∨ (∃ c, s.loadClass env frost n = s.setClass n c) ∨ s.loadClass env frost n = s.noImage n := by
  unfold State.loadClass
  split
  · exact .inl rfl
  · split
    · exact .inl rfl
    · split
      · exact .inr (.inl ⟨_, rfl⟩)
      · exact .inr (.inr rfl)

theorem steady_loadClass (s : State) (env : StartEnv) (frost : Bool) (n : Nat) : Steady s (s.loadClass env frost n) := by
  rcases loadClass_cases s env frost n with e | ⟨c, e⟩ | e <;> rw [e]
  · exact .refl s
  · exact .aside rfl rfl rfl
  · exact steady_noImage s n

/-- A class with a copy that verifies. -/
def Selects (s : State) (env : StartEnv) (n : Nat) : Prop :=
  ((s.imgClass n).select (env.copySel.getD n true) (env.copySpare.getD n true)).isSome = true

/-- Only images may differ. -/
def Imaged (s t : State) : Prop := t = { s with svc := { s.svc with classes := t.svc.classes } }

/-- A class with a copy that verifies is loaded; the other classes stay (R413). -/
theorem loadClass_selected {s : State} {env : StartEnv} (frost : Bool) {n : Nat} (h : Selects s env n) :
    Imaged s (s.loadClass env frost n) ∧ ∀ m, m ≠ n → (s.loadClass env frost n).imgClass m = s.imgClass m := by
  unfold State.loadClass
  split
  · exact ⟨rfl, fun _ _ => rfl⟩
  · split
    · exact ⟨rfl, fun _ _ => rfl⟩
    · split
      · next c _ =>
        refine ⟨rfl, fun m other => ?_⟩
        show (s.svc.classes.set n c).getD m {} = s.svc.classes.getD m {}
        rw [getD_set, if_neg fun same => other same.1.symm]
      · next none_ =>
        rw [Selects, none_] at h
        cases h

/-- The three classes of step 6, each with a copy that verifies, are loaded. -/
theorem loadThree_selected {s : State} {env : StartEnv} (frost : Bool) (images : ∀ n ∈ [1, 2, 3], Selects s env n) :
    Imaged s ([1, 2, 3].foldl (fun a n => a.loadClass env frost n) s) := by
  have load (l : List Nat) (once : l.Nodup) : ∀ a : State, (∀ n ∈ l, Selects a env n) →
      Imaged a (l.foldl (fun a n => a.loadClass env frost n) a) := by
    induction l with
    | nil => exact fun a _ => rfl
    | cons n l ih =>
      intro a all
      obtain ⟨fresh, once'⟩ := List.nodup_cons.1 once
      obtain ⟨imaged, others⟩ := loadClass_selected frost (all n (List.mem_cons_self ..))
      have later := ih once' (a.loadClass env frost n) fun m listed => by
        rw [Selects, others m fun same => fresh (same ▸ listed)]
        exact all m (List.mem_cons_of_mem _ listed)
      unfold Imaged at *
      rw [List.foldl_cons, later, imaged]
  exact load [1, 2, 3] (by decide) s images

/-- A class of which no copy verifies halts a unit that is not on its way out of Frost (R403). -/
theorem loadClass_none {s : State} {env : StartEnv} {n : Nat} (starting : s.glb.run = .starting)
    (none_ : (s.imgClass n).select (env.copySel.getD n true) (env.copySpare.getD n true) = none) :
    s.loadClass env false n = s.noImage n := by
  unfold State.loadClass
  rw [if_neg (by rw [starting]; decide), if_neg (by simp), none_]

theorem noImage_halts (s : State) (n : Nat) : (s.noImage n).glb.run = .halted ∧ (s.noImage n).isl.cause = 0x10 + n := by
  have recorded := logged_record (s.setCause (0x10 + n)) 0x0D03 4 0 (toLE 1 n)
  have isl : (s.noImage n).isl = ((s.setCause (0x10 + n)).record 0x0D03 4 0 (toLE 1 n)).isl := rfl
  refine ⟨rfl, ?_⟩
  rw [isl, recorded]
  exact setCause_cause ..

/-! ### Steps 7 to 10 -/

theorem steady_testEngines (s : State) (env : StartEnv) : Steady s (s.testEngines env) := by
  have ready (a : State) (p : Page) : Steady a (a.setHd p { a.hd p with st := .ready }) := .aside rfl rfl rfl
  have bad (a : State) (p : Page) (c : Bytes) :
      Steady a ((a.setHd p { a.hd p with st := .fault, fclass := 5 }).record 0x0602 4 (blockSrc p) c) :=
    .record (.aside rfl rfl rfl)
  have keccak (a : State) (q : Nat) (src : Nat) (c : Bytes) :
      Steady a (({ a with eng := { a.eng with keccakBad := a.eng.keccakBad ++ [q] } } : State).record 0x0602 4 src c) :=
    .record (.aside rfl rfl rfl)
  unfold State.testEngines
  exact (Steady.foldl (fun a n => ready a _) _ s).trans ((Steady.foldl (fun a n => .ite (bad a _ _) (ready a _)) _ _).trans
    ((Steady.foldl (fun a n => .ite (bad a _ _) (ready a _)) _ _).trans (Steady.foldl (fun a q => keccak a _ _ _) _ _)))

theorem logged_wearNote (s : State) : Logged s s.wearNote := by
  have noted : Logged s { s with led := { s.led with wearNoted := true } } := rfl
  exact logged_ite (logged_refl s) (logged_trans noted (logged_record ..))

theorem logged_commitAll (s : State) (l : List LedRec) (flags : Nat) : Logged s (s.commitAll l flags) := by
  have committed : Logged s { s with led := l.foldl (fun g r => g.commitRec r flags) s.led } := rfl
  exact logged_trans committed (logged_wearNote _)

/-- Records lost with the supplies counted, the others closed (R374, R401). -/
def lostCounted (s : State) (env : StartEnv) : State :=
  { s with led := { s.led with
      recs := shutAll s.tick (s.led.recs.filter fun r => !(s.lostRecs env).any fun x => x.seq = r.seq)
      drop := s.led.drop.modify 5 (satAdd 32 · (s.lostRecs env).length) } }

/-- Staged records committed, the last checkpoint found (R379). -/
def stagedIn (s : State) (env : StartEnv) : State :=
  let u := (lostCounted s env).commitAll ((lostCounted s env).led.at_ .staging) 2
  { u with led := { u.led with flushing := false }.findCp }

/-- The region checked against the Vault's copy (R379). -/
def regionChecked (s : State) (env : StartEnv) : State :=
  let u := stagedIn s env
  if u.regionLast env = (u.led.committedSeq, u.led.committedD) then u
  else
    ({ u with led := { u.led with regionBad := true, chainRestart := true, headD := u.led.committedD } } : State).record 0x0102 4 0
      (toLE 8 (u.led.committedSeq.getD 0) ++ toLE 8 ((u.regionLast env).1.getD 0))

/-- Supplies lost without warning are counted (R401). -/
def unwarned (s : State) : State := { s with pwr := { s.pwr with unwarned := satAdd 16 s.pwr.unwarned 1 } }

/-- Step 8 ends there, or with the record of what was lost. -/
theorem startLedger_cases (s : State) (env : StartEnv) :
    s.startLedger env = regionChecked s env ∨
      ∃ c, s.startLedger env = (unwarned (regionChecked s env)).record 0x0105 4 0 c := by
  unfold State.startLedger
  dsimp only
  split
  · exact .inl rfl
  · exact .inr ⟨_, rfl⟩

theorem logged_regionChecked (s : State) (env : StartEnv) : Logged s (regionChecked s env) := by
  have led (a : State) (g : Ledger) : Logged a { a with led := g } := rfl
  have committed : Logged s (stagedIn s env) := logged_trans (led s _) (logged_trans (logged_commitAll ..) (led _ _))
  exact logged_trans committed (logged_ite (logged_refl _) (logged_trans (led _ _) (logged_record ..)))

theorem steady_startLedger (s : State) (env : StartEnv) : Steady s (s.startLedger env) := by
  have checked := Steady.of_logged (logged_regionChecked s env)
  have counted : Steady (regionChecked s env) (unwarned (regionChecked s env)) := ⟨⟨rfl, rfl, rfl, rfl, rfl, rfl⟩, rfl⟩
  rcases startLedger_cases s env with e | ⟨c, e⟩ <;> rw [e]
  · exact checked
  · exact .record (checked.trans counted)

theorem steady_startArchive (s : State) (env : StartEnv) : Steady s (s.startArchive env) := by
  have onA (a : State) (l : List Nat) (m : NMap ArchRec) : Steady a (a.archA l m) := .aside rfl rfl rfl
  have onB (a : State) (l : List Nat) (m : NMap ArchRec) : Steady a (a.archB l m) := .aside rfl rfl rfl
  have lost (a : State) (n : Nat) (ks : KeyStore) (vault : Vault) :
      Steady a (({ a with ks := ks, vault := vault } : State).record 0x0406 4 0 (toLE 2 n)) := .record (.aside rfl rfl rfl)
  unfold State.startArchive
  exact (Steady.ite (.refl s) (onA ..)).trans ((Steady.ite (.refl _) (onB ..)).trans (Steady.foldl (fun a p => lost a ..) _ _))

/-- A unit that serves: READY or DEGRADED, slice 0 ACTIVE, the function answering (R265, R402). -/
structure Serving (s : State) : Prop where
  running : s.running = true
  manager : (s.slice 0).st = .active
  configUp : s.pwr.configUp = true

theorem Serving.of_kept {s t : State} (h : Serving s) (glb : t.glb = s.glb) (slices : t.slices = s.slices)
    (pwr : t.pwr.configUp = s.pwr.configUp) : Serving t where
  running := by rw [State.running, glb]; exact h.running
  manager := by rw [State.slice, slices]; exact h.manager
  configUp := pwr.trans h.configUp

theorem Serving.of_logged {s t : State} (h : Serving s) (logged : Logged s t) : Serving t :=
  h.of_kept (by rw [logged]) (by rw [logged]) (by rw [logged])

/-- RUN judged anew still reads READY or DEGRADED (R40). -/
theorem Serving.reRun {s : State} (h : Serving s) : Serving s.reRun where
  running := by
    unfold State.reRun State.setRun
    rw [if_pos h.running]
    cases hr : (decide (s.rng.es = .failed) || [0, 1, 2, 3].all fun i => decide ((s.inst i).st = .fault)) <;>
      simp [State.running]
  manager := by
    unfold State.reRun State.setRun
    split <;> exact h.manager
  configUp := by
    unfold State.reRun State.setRun
    split <;> exact h.configUp

/-- The unit as step 10 makes it serve, before staging, RUN and the record of the start. -/
def readied (s : State) : State :=
  { s with
    glb := { s.glb with run := .ready }
    slices := NMap.set s.slices 0 managerSlice
    svc :=
      { s.svc with
        cores := (List.range 16).map fun n => (n, s.startCore n)
        tileVer := (List.range 96).map fun n => (n, (s.imgClass 2).sel.ver)
        laneVer := (List.range 64).map fun n => (n, (s.imgClass 3).sel.ver)
        started := s.svc.classes.map fun c => c.sel.digest }
    clu := { s.clu with headHb := s.tick }
    tmp := { s.tmp with readySince := true }
    pwr := { s.pwr with configUp := true } }

theorem serving_readied (s : State) : Serving (readied s) where
  running := rfl
  manager := congrArg Slice.st (getD_set_self s.slices 0 managerSlice {})
  configUp := rfl

theorem steady_readied (s : State) : Steady s (readied s) := ⟨⟨rfl, rfl, rfl, rfl, rfl, rfl⟩, rfl⟩

/-- Staging pages change device memory alone (R268). -/
theorem stagingTo_frame (s : State) (n want : Nat) : ∃ m, s.stagingTo n want = { s with mem := m } := by
  have either (c : Prop) [Decidable c] (t : State) (h : ∃ m, t = { s with mem := m }) :
      ∃ m, (if c then s else t) = { s with mem := m } := by
    split
    · exact ⟨s.mem, rfl⟩
    · exact h
  exact either _ _ ⟨_, rfl⟩

theorem logged_startRec (s : State) : Logged s s.startRec := by
  unfold State.startRec
  dsimp only
  split
  · exact logged_record ..
  · exact logged_record ..
  · exact logged_record ..
  · exact logged_record ..
  · exact logged_refl s
  · exact logged_refl s
  · exact logged_refl s

theorem steady_reRun (s : State) : Steady s s.reRun := .ite (steady_run s _) (.refl s)

/-- The unit as step 10 leaves it but for a staged grant. -/
def announced (s : State) (c : Nat) : State := (((readied s).stagingTo 0 16).reRun.startRec).setCause c

theorem startReady_cases (s : State) (env : StartEnv) : ∃ c,
    s.startReady env = announced s c ∨ ∃ g, s.startReady env = (announced s c).openGrant g := by
  unfold State.startReady
  dsimp only
  split
  · exact ⟨_, .inr ⟨_, rfl⟩⟩
  · exact ⟨_, .inl rfl⟩

theorem serving_announced (s : State) (c : Nat) : Serving (announced s c) := by
  have staged : Serving ((readied s).stagingTo 0 16) := by
    obtain ⟨m, e⟩ := stagingTo_frame (readied s) 0 16
    rw [e]
    exact (serving_readied s).of_kept rfl rfl rfl
  have noted := staged.reRun.of_logged (logged_startRec _)
  unfold announced State.setCause
  split
  · exact noted
  · exact noted.of_kept rfl rfl rfl

theorem steady_announced (s : State) (c : Nat) : Steady s (announced s c) := by
  have staged : Steady (readied s) ((readied s).stagingTo 0 16) := by
    obtain ⟨m, e⟩ := stagingTo_frame (readied s) 0 16
    rw [e]
    exact .aside rfl rfl rfl
  exact (steady_readied s).trans (staged.trans ((steady_reRun _).trans
    ((Steady.of_logged (logged_startRec _)).trans (steady_setCause _ c))))

/-- A grant that opens changes the debug port's entries, the grants and the Ledger (R358). -/
theorem openGrant_frame (s : State) (g : Grant) : ∃ u : State,
    Logged u (s.openGrant g) ∧ u.glb = s.glb ∧ u.pwr = s.pwr ∧ u.slices = s.slices ∧ u.lcs.recs = s.lcs.recs := by
  unfold State.openGrant
  dsimp only
  refine ⟨_, logged_record .., ?_⟩
  split
  · exact ⟨rfl, rfl, rfl, rfl⟩
  · exact ⟨rfl, rfl, rfl, rfl⟩

theorem serving_startReady (s : State) (env : StartEnv) : Serving (s.startReady env) := by
  obtain ⟨c, e | ⟨g, e⟩⟩ := startReady_cases s env
  · exact e ▸ serving_announced s c
  · obtain ⟨u, logged, glb, pwr, slices, _⟩ := openGrant_frame (announced s c) g
    rw [e]
    exact ((serving_announced s c).of_kept glb slices (by rw [pwr])).of_logged logged

theorem steady_startReady (s : State) (env : StartEnv) : Steady s (s.startReady env) := by
  obtain ⟨c, e | ⟨g, e⟩⟩ := startReady_cases s env
  · exact e ▸ steady_announced s c
  · obtain ⟨u, logged, glb, pwr, _, recs⟩ := openGrant_frame (announced s c) g
    have opened : Steady (announced s c) u :=
      ⟨⟨by rw [glb], by rw [glb], by rw [glb], by rw [pwr], by rw [pwr], by rw [pwr]⟩, recs⟩
    rw [e]
    exact (steady_announced s c).trans (opened.trans (.of_logged logged))

/-! ### Steps 6 to 10 -/

/-- What a start that succeeds comes to: the unit serves, and the line of step 10 was the last sent (R402, R430). -/
structure Started (s : State) : Prop where
  serving : Serving s
  step : s.pwr.startStep = 10
  line : s.out.getLast? = some (.uart 10 s.isl.cause)

theorem started_stepDone {s : State} (h : Serving s) : Started (s.stepDone 10) :=
  ⟨h.of_kept rfl rfl rfl, rfl, List.getLast?_concat⟩

/-- Steps 7 to 10 on the images loaded. -/
def afterImages (s : State) (env : StartEnv) : State :=
  ((((((((s.stepDone 6).testEngines env).stepDone 7).startLedger env).stepDone 8).startArchive env).stepDone 9).startReady env).stepDone 10

theorem startFrom6_eq (s : State) (env : StartEnv) (frost : Bool) :
    s.startFrom6 env frost =
      let u := [1, 2, 3].foldl (fun a n => a.loadClass env frost n) s
      if u.glb.run = .halted then u else afterImages u env := rfl

theorem steady_afterImages (s : State) (env : StartEnv) : Steady s (afterImages s env) :=
  (steady_stepDone s 6).trans ((steady_testEngines _ env).trans ((steady_stepDone _ 7).trans ((steady_startLedger _ env).trans
    ((steady_stepDone _ 8).trans ((steady_startArchive _ env).trans ((steady_stepDone _ 9).trans
      ((steady_startReady _ env).trans (steady_stepDone _ 10))))))))

theorem steady_startFrom6 (s : State) (env : StartEnv) (frost : Bool) : Steady s (s.startFrom6 env frost) := by
  have loaded : Steady s ([1, 2, 3].foldl (fun a n => a.loadClass env frost n) s) :=
    .foldl (fun a n => steady_loadClass a env frost n) _ s
  rw [startFrom6_eq]
  exact .ite loaded (loaded.trans (steady_afterImages _ env))

/-- With an image of every class steps 6 to 10 succeed. -/
theorem startFrom6_starts {s : State} {env : StartEnv} (frost : Bool) (starting : s.glb.run = .starting)
    (images : ∀ n ∈ [1, 2, 3], Selects s env n) : Started (s.startFrom6 env frost) := by
  have loaded := loadThree_selected frost images
  have runs : ([1, 2, 3].foldl (fun a n => a.loadClass env frost n) s).glb.run = .starting := by rw [loaded]; exact starting
  rw [startFrom6_eq]
  dsimp only
  rw [if_neg (by rw [runs]; decide)]
  exact started_stepDone (serving_startReady ..)

/-! ### Step 5 (R432) -/

/-- Every channel that is fitted trains. -/
def Trains (env : StartEnv) : Prop := env.dram0 = true ∧ (env.gib1 = 0 ∨ env.dram1 = true)

/-- The memory as it trained, before its key is drawn. -/
def trained (s : State) (env : StartEnv) : State :=
  { s with
    mem := { s.mem with
      act := if s.mem.keyIdMode then List.range 64 else [0], ch0 := env.gib0, ch1 := env.gib1
      reserve := (List.range 12).map (· + 52) }
    ks := { s.ks with
      segs := (List.range 16).map fun n => ({ keyId := if s.mem.keyIdMode then n + 1 else 0 } : Segment)
      spareKeyId := if s.mem.keyIdMode then 17 else 0 } }

/-- The memory keys drawn, where instances 0 to 3 serve a request (R432). -/
def keyed (s : State) : State :=
  match s.intRequest .ok with
  | (a, .got d) => { a with mem := { a.mem with keyDraw := d, rekeyed := [] } }
  | _ => s

theorem startFrom5_trains {s : State} {env : StartEnv} (frost : Bool) (trains : Trains env) :
    s.startFrom5 env frost = (((keyed (trained s env)).drawRoot).stepDone 5).startFrom6 env frost := by
  obtain ⟨ch0, ch1⟩ := trains
  have second : (env.gib1 != 0 && !env.dram1) = false := by rcases ch1 with h | h <;> simp [h]
  unfold State.startFrom5
  simp only [ch0, second, Bool.not_true, Bool.false_eq_true, if_false]
  rfl

/-- A request of the unit's own that no engine fails changes what the Ledger's working may. -/
theorem logged_intRequest (s : State) : Logged s (s.intRequest .ok).1 := by
  unfold State.intRequest
  split
  · exact logged_refl s
  · split
    · exact logged_refl s
    · exact logged_trans (logged_genInternal ..) (logged_noteStop _)

/-- Beyond that only memory and the Vault's root may differ. -/
def Rooted (s t : State) : Prop := ∃ u, Logged s u ∧ t = { u with mem := t.mem, ks := t.ks, vault := t.vault }

theorem rooted_trained (s : State) (env : StartEnv) : Rooted s (trained s env) := ⟨s, logged_refl s, rfl⟩

theorem rooted_keyed (s : State) : Rooted s (keyed s) := by
  have asked := logged_intRequest s
  unfold keyed
  split
  · next e =>
    rw [e] at asked
    exact ⟨_, asked, rfl⟩
  · exact ⟨s, logged_refl s, rfl⟩

theorem rooted_drawRoot (s : State) : Rooted s s.drawRoot := by
  have asked := logged_intRequest s
  unfold State.drawRoot
  split
  · exact ⟨s, logged_refl s, rfl⟩
  · split
    · next e =>
      rw [e] at asked
      exact ⟨_, asked, rfl⟩
    · exact ⟨s, logged_refl s, rfl⟩

theorem steady_of_rooted {s t : State} (h : Rooted s t) : Steady s t := by
  obtain ⟨u, logged, e⟩ := h
  rw [e]
  exact (Steady.of_logged logged).trans (.aside rfl rfl rfl)

/-- Neither touches RUN or the images. -/
theorem rooted_kept {s t : State} (h : Rooted s t) : t.glb.run = s.glb.run ∧ t.svc = s.svc := by
  obtain ⟨u, logged, e⟩ := h
  rw [e, logged]
  exact ⟨rfl, rfl⟩

theorem steady_startFrom5 (s : State) (env : StartEnv) (frost : Bool) : Steady s (s.startFrom5 env frost) := by
  have waits : Steady s { s with pwr := { s.pwr with trainRetry := s.tick + 64 } } := ⟨⟨rfl, rfl, rfl, rfl, rfl, rfl⟩, rfl⟩
  by_cases trains : Trains env
  · rw [startFrom5_trains frost trains]
    exact (steady_of_rooted (rooted_trained s env)).trans ((steady_of_rooted (rooted_keyed _)).trans
      ((steady_of_rooted (rooted_drawRoot _)).trans ((steady_stepDone _ 5).trans (steady_startFrom6 ..))))
  · have fails : (!env.dram0) = true ∨ (env.gib1 != 0 && !env.dram1) = true := by
      cases dram : env.dram0 with
      | false => exact .inl rfl
      | true => exact .inr (by simpa [Trains, dram] using trains)
    unfold State.startFrom5
    dsimp only
    by_cases first : (!env.dram0) = true
    · rw [if_pos first]
      exact waits.trans (steady_setCause ..)
    · rw [if_neg first, if_pos (fails.resolve_left first)]
      exact waits.trans (steady_setCause ..)

theorem startFrom5_starts {s : State} {env : StartEnv} (frost : Bool) (starting : s.glb.run = .starting)
    (images : ∀ n ∈ [1, 2, 3], Selects s env n) (trains : Trains env) : Started (s.startFrom5 env frost) := by
  obtain ⟨run, svc⟩ := rooted_kept (rooted_trained s env)
  obtain ⟨run', svc'⟩ := rooted_kept (rooted_keyed (trained s env))
  obtain ⟨run'', svc''⟩ := rooted_kept (rooted_drawRoot (keyed (trained s env)))
  rw [startFrom5_trains frost trains]
  refine startFrom6_starts frost (run''.trans (run'.trans (run.trans starting))) fun n listed => ?_
  have same : ((keyed (trained s env)).drawRoot.stepDone 5).svc = s.svc := svc''.trans (svc'.trans svc)
  rw [Selects, State.imgClass, same]
  exact images n listed

/-- Where channel 0 does not train the step is repeated 64 ticks later (R432). -/
theorem startFrom5_fails {s : State} {env : StartEnv} (frost : Bool) (fails : env.dram0 = false) :
    s.startFrom5 env frost = ({ s with pwr := { s.pwr with trainRetry := s.tick + 64 } } : State).setCause 0x20 := by
  unfold State.startFrom5
  dsimp only
  rw [if_pos (by rw [fails]; rfl)]

/-! ### Step 4 -/

theorem startFrom4_good {s : State} {env : StartEnv} (frost : Bool) (good : rngStartCause s env = none) :
    s.startFrom4 env frost = ((startHealthy s env).stepDone 4).startFrom5 env frost := by
  unfold State.startFrom4
  rw [rngStart_starts good]

theorem startFrom4_bad {s : State} {env : StartEnv} {c : Nat} (frost : Bool) (bad : rngStartCause s env = some c) :
    s.startFrom4 env frost = (s.rngStart env).1 := by
  unfold State.startFrom4
  rw [rngStart_stops bad]

theorem steady_startFrom4 (s : State) (env : StartEnv) (frost : Bool) : Steady s (s.startFrom4 env frost) := by
  cases cause : rngStartCause s env with
  | none =>
    rw [startFrom4_good frost cause]
    exact (Steady.of_logged (logged_startHealthy s env)).trans ((steady_stepDone _ 4).trans (steady_startFrom5 ..))
  | some c =>
    rw [startFrom4_bad frost cause]
    exact steady_rngStart s env

/-- With the service, memory and images good a start from step 4 on succeeds. -/
theorem startFrom4_starts {s : State} {env : StartEnv} (frost : Bool) (starting : s.glb.run = .starting)
    (images : ∀ n ∈ [1, 2, 3], Selects s env n) (good : rngStartCause s env = none) (trains : Trains env) :
    Started (s.startFrom4 env frost) := by
  have kept : (startHealthy s env).glb.run = s.glb.run ∧ (startHealthy s env).svc = s.svc := by
    rw [logged_startHealthy s env]
    exact ⟨rfl, rfl⟩
  rw [startFrom4_good frost good]
  refine startFrom5_starts frost (kept.1.trans starting) (fun n listed => ?_) trains
  have same : ((startHealthy s env).stepDone 4).svc = s.svc := kept.2
  rw [Selects, State.imgClass, same]
  exact images n listed

end Sys2Proof.Proofs.StartSequence
end

