-- ==== Sys2Proof/Proofs/ColdStart.lean ====
section
/-! SUPPORT. Steps 1 to 3 of Table 17.3, with the life-cycle records that a start reads (R348, R353, R366), and the starts of
COLD_START and of the two repetitions (R204, R402, R403, R432); O54. -/
namespace Sys2Proof.Proofs.ColdStart
open Sys2Proof Sys2Proof.Machine Sys2Proof.Laws Sys2Proof.Proofs.RandomState Sys2Proof.Proofs.StartSequence
open Sys2Proof.Proofs.LadderMoves (completes_of_body)
open Sys2Proof.Proofs.Board (stagingFlush_frame)

/-! ### The sequence, by its parts -/

/-- Configuration requests are answered from here on (R403). -/
def functionUp (s : State) : State := { s with pwr := { s.pwr with configUp := true } }

/-- Step 2 as far as the life-cycle records, with TAMPER_RESET where a mark stood (R366). -/
def recordsRead (s : State) : State :=
  let u := (functionUp s).startRecords
  { u with
    glb := { u.glb with tamperReset := u.glb.tamperReset || (s.tmp.stormMark || s.tmp.resetMark) }
    tmp := { u.tmp with resetMark := false } }

/-- A class whose image is not the one recorded at the entry to Frost is noted (R397). -/
def warnOne (env : StartEnv) (s : State) (n : Nat) : State := if s.resumed env n then s else s.record 0x0D03 3 0 (toLE 1 n)

def warned (env : StartEnv) (frost : Bool) (s : State) : State := if frost then (List.range 4).foldl (warnOne env) s else s

/-- The state in which step 3 loads the secure world's image. -/
def configured (s : State) (env : StartEnv) : State := warned env s.frostStart ((recordsRead s).startConfig.stepDone 2)

/-- Step 3. -/
def firstLoaded (s : State) (env : StartEnv) : State := (configured s env).loadClass env s.frostStart 0

/-- The sequence where no transition goes on. -/
theorem startUp_eq {s : State} (env : StartEnv) (none_ : s.interrupted = none) :
    s.startUp env =
      if (recordsRead s).lcsCode = 7 then { recordsRead s with glb := { (recordsRead s).glb with run := .halted } }
      else if (firstLoaded s env).glb.run = .halted then firstLoaded s env
      else ((firstLoaded s env).stepDone 3).startFrom4 env s.frostStart := by
  have none_' : (functionUp s).interrupted = none := none_
  unfold State.startUp
  dsimp only
  split
  · next goes => cases none_'.symm.trans goes
  · rfl

/-- The sequence where one does (R353). -/
theorem startUp_interrupted {s : State} (env : StartEnv) {to_ n : Nat} (some_ : s.interrupted = some (to_, n)) :
    s.startUp env = (functionUp s).finishTransition to_ n := by
  have some_' : (functionUp s).interrupted = some (to_, n) := some_
  unfold State.startUp
  dsimp only
  split
  · next goes =>
    cases some_'.symm.trans goes
    rfl
  · next stops => cases some_'.symm.trans stops

/-! ### What every start keeps, through step 2 -/

/-- The erasures and the burn of a commit leave the counts and the flags of the reset (R346, R347). -/
theorem clocked_commitTo (s : State) (from_ to_ rec_ stage : Nat) : Clocked s (s.commitTo from_ to_ rec_ stage) := by
  have scrap : Clocked s s.scrapErase := ⟨rfl, rfl, rfl, rfl, rfl, rfl⟩
  have repair : Clocked s s.repairErase := ⟨rfl, rfl, rfl, rfl, rfl, rfl⟩
  have erased : Clocked s (if to_ = 7 then s.scrapErase else if to_ = 5 then s.repairErase else s) :=
    .ite scrap (.ite repair (.refl s))
  have burned (u : State) : Clocked u ((u.burn rec_ to_).transRec from_ to_ rec_ stage) :=
    Clocked.trans (t := u.burn rec_ to_) ⟨rfl, rfl, rfl, rfl, rfl, rfl⟩ (.of_logged (logged_record ..))
  have owned (u : State) (l : LifeCycle) : Clocked u { u with lcs := l } := ⟨rfl, rfl, rfl, rfl, rfl, rfl⟩
  unfold State.commitTo
  dsimp only
  split
  · split
    · exact erased.trans ((owned _ _).trans (burned _))
    · exact erased.trans (burned _)
  · exact erased.trans (burned _)

theorem clocked_afterStorm (s : State) : Clocked s s.afterStorm := by
  have forced (u : State) (l : LifeCycle) (t : Tamper) : Clocked u { u with lcs := l, tmp := t } := ⟨rfl, rfl, rfl, rfl, rfl, rfl⟩
  have committed : Clocked s (if s.nextRec ≤ 46 then s.commitTo s.lcsCode 5 s.nextRec 4 else s.commitTo s.lcsCode 7 47 4) :=
    .ite (clocked_commitTo ..) (clocked_commitTo ..)
  unfold State.afterStorm
  dsimp only
  split
  · exact committed.trans (forced _ _ _)
  · exact forced s _ _

theorem clocked_setPending (s : State) (n : Nat) (r : LcRec) : Clocked s (s.setPending n r) :=
  Clocked.trans (t := { s with lcs := { s.lcs with pending := true } }) ⟨rfl, rfl, rfl, rfl, rfl, rfl⟩
    (.of_logged (logged_record ..))

theorem clocked_startRecords (s : State) : Clocked s s.startRecords := by
  let u : State := { s with lcs := { s.lcs with pending := false, forced := false } }
  have start : Clocked s u := ⟨rfl, rfl, rfl, rfl, rfl, rfl⟩
  have scrapped (stage : Nat) : Clocked s (u.commitTo u.lcsCode 7 47 stage) := start.trans (clocked_commitTo ..)
  unfold State.startRecords
  dsimp only
  split
  · exact (scrapped 4).trans ⟨rfl, rfl, rfl, rfl, rfl, rfl⟩
  · split
    · exact .ite (start.trans (clocked_afterStorm u)) (.ite (start.trans (clocked_setPending u ..)) start)
    · exact .ite (scrapped 3) (.ite (start.trans (clocked_afterStorm u)) (start.trans (clocked_setPending u ..)))

theorem clocked_recordsRead (s : State) : Clocked s (recordsRead s) := by
  have up : Clocked s (functionUp s) := ⟨rfl, rfl, rfl, rfl, rfl, rfl⟩
  exact (up.trans (clocked_startRecords _)).trans ⟨rfl, rfl, rfl, rfl, rfl, rfl⟩

/-- What step 3 and the steps after it rest on is as it was. -/
structure Early (s t : State) : Prop where
  run : t.glb.run = s.glb.run
  classes : t.svc.classes = s.svc.classes
  src : t.rng.src = s.rng.src
  recs : t.lcs.recs = s.lcs.recs

theorem Early.trans {s t u : State} (h : Early s t) (k : Early t u) : Early s u :=
  ⟨k.run.trans h.run, k.classes.trans h.classes, k.src.trans h.src, k.recs.trans h.recs⟩

/-- Step 2's configuration is nothing that they rest on; nor does it change what a start keeps (R355). -/
theorem startConfig_kept (s : State) : Clocked s s.startConfig ∧ Early s s.startConfig := by
  unfold State.startConfig
  dsimp only
  split
  · exact ⟨⟨rfl, rfl, rfl, rfl, rfl, rfl⟩, rfl, rfl, rfl, rfl⟩
  · exact ⟨⟨rfl, rfl, rfl, rfl, rfl, rfl⟩, rfl, rfl, rfl, rfl⟩

theorem steady_startConfig (s : State) : Steady s s.startConfig :=
  have ⟨clock, early⟩ := startConfig_kept s
  ⟨clock, early.recs⟩

theorem logged_warned (env : StartEnv) (frost : Bool) (s : State) : Logged s (warned env frost s) :=
  logged_ite (logged_foldl (fun _ _ => logged_ite (logged_refl _) (logged_record ..)) _ s) (logged_refl s)

theorem steady_configured (s : State) (env : StartEnv) : Steady (recordsRead s) (configured s env) :=
  (steady_startConfig _).trans ((steady_stepDone _ 2).trans (.of_logged (logged_warned ..)))

/-- A start of whatever outcome keeps the counts and flags of the reset before it (R399). -/
theorem clocked_startUp {s : State} (env : StartEnv) (none_ : s.interrupted = none) : Clocked s (s.startUp env) := by
  have read := clocked_recordsRead s
  have loaded : Clocked s (firstLoaded s env) :=
    read.trans ((steady_configured s env).trans (steady_loadClass _ env _ 0)).clock
  rw [startUp_eq env none_]
  refine .ite (read.trans (steady_run _ .halted).clock) (.ite loaded (loaded.trans ?_))
  exact ((steady_stepDone _ 3).trans (steady_startFrom4 ..)).clock

/-! ### Whole life-cycle records -/

/-- Nothing in the records or the marks turns a start from its way. -/
structure Untouched (s : State) : Prop where
  eraseFail : s.tmp.eraseFail = false
  stormMark : s.tmp.stormMark = false
  whole : s.lcsWhole = true
  notScrap : s.lcsCode ≠ 7

theorem rec_of_whole {s : State} (whole : s.lcsWhole = true) : ∀ p ∈ s.lcs.recs,
    p.2.code ∈ [1, 2, 3, 4, 5, 7] ∧ p.2.ncode = 15 - p.2.code ∧ p.2.commit = 3 := by
  intro p listed
  simp only [State.lcsWhole, Bool.and_eq_true, List.all_eq_true, decide_eq_true_eq, List.contains_iff_mem] at whole
  obtain ⟨_, all⟩ := whole
  obtain ⟨⟨⟨⟨_, code⟩, ncode⟩, commit⟩, _⟩ := all p listed
  exact ⟨code, ncode, commit⟩

/-- Every whole record is committed (R348). -/
theorem recCommitted_of_whole {s : State} (whole : s.lcsWhole = true) {p : Nat × LcRec} (listed : p ∈ s.lcs.recs) :
    recCommitted p.2 = true := by
  obtain ⟨code, ncode, commit⟩ := rec_of_whole whole p listed
  simp only [List.mem_cons, List.not_mem_nil, or_false] at code
  unfold recCommitted
  rw [ncode, commit, Bool.and_eq_true, decide_eq_true_eq]
  exact ⟨by omega, by decide⟩

/-- So that no record stands open. -/
theorem openRec_of_whole {s : State} (whole : s.lcsWhole = true) : s.openRec = none := by
  unfold State.openRec
  split
  · next p last =>
    have listed : p ∈ s.lcs.recs := (List.mem_filter.1 (List.mem_of_getLast? last)).1
    rw [if_pos (recCommitted_of_whole whole listed)]
  · rfl

theorem interrupted_of_untouched {s : State} (h : Untouched s) : s.interrupted = none := by
  unfold State.interrupted
  rw [if_neg (by simp [h.eraseFail]), openRec_of_whole h.whole]

/-- The state that whole records give is one of Table 15.1. -/
theorem noState_of_whole {s : State} (whole : s.lcsWhole = true) : s.noState = false := by
  have code : s.lcsCode ≤ 5 ∨ s.lcsCode = 7 := by
    unfold State.lcsCode
    split
    · next p last =>
      have listed : p ∈ s.lcs.recs := (List.mem_filter.1 (List.mem_of_getLast? last)).1
      obtain ⟨code, _, _⟩ := rec_of_whole whole p listed
      simp only [List.mem_cons, List.not_mem_nil, or_false] at code
      omega
    · exact .inl (Nat.zero_le 5)
  unfold State.noState
  rw [Bool.or_eq_false_iff, decide_eq_false_iff_not, decide_eq_false_iff_not]
  omega

/-- Such records leave step 2 nothing to mend. -/
theorem startRecords_of_untouched {s : State} (h : Untouched s) :
    s.startRecords = { s with lcs := { s.lcs with pending := false, forced := false } } := by
  have opened : State.openRec { s with lcs := { s.lcs with pending := false, forced := false } } = none := openRec_of_whole h.whole
  have named : State.noState { s with lcs := { s.lcs with pending := false, forced := false } } = false := noState_of_whole h.whole
  unfold State.startRecords
  simp only [h.eraseFail, h.stormMark, opened, named, Bool.false_and, Bool.false_eq_true, if_false]

theorem untouched_functionUp {s : State} (h : Untouched s) : Untouched (functionUp s) :=
  ⟨h.eraseFail, h.stormMark, h.whole, h.notScrap⟩

/-! ### A start on whole records -/

theorem early_configured {s : State} (env : StartEnv) (h : Untouched s) : Early s (configured s env) := by
  have read : Early s (recordsRead s) := by
    unfold recordsRead
    rw [startRecords_of_untouched (untouched_functionUp h)]
    exact ⟨rfl, rfl, rfl, rfl⟩
  have early : Early s ((recordsRead s).startConfig.stepDone 2) :=
    (read.trans (startConfig_kept (recordsRead s)).2).trans ⟨rfl, rfl, rfl, rfl⟩
  have logged := logged_warned env s.frostStart ((recordsRead s).startConfig.stepDone 2)
  have drawn : Drawn ((recordsRead s).startConfig.stepDone 2).rng (configured s env).rng :=
    .ite (fun _ => .foldl (fun _ _ => .ite (fun _ => .refl _) fun _ => drawn_record ..) _ _) fun _ => .refl _
  refine ⟨?_, ?_, drawn.src.trans early.src, ?_⟩
  · rw [configured, logged]; exact early.run
  · rw [configured, logged]; exact early.classes
  · rw [configured, logged]; exact early.recs

theorem lcsCode_of_recs {s t : State} (h : t.lcs.recs = s.lcs.recs) : t.lcsCode = s.lcsCode := by
  rw [State.lcsCode, h]
  rfl

theorem recordsRead_lcsCode {s : State} (h : Untouched s) : (recordsRead s).lcsCode ≠ 7 := by
  unfold recordsRead
  rw [startRecords_of_untouched (untouched_functionUp h)]
  exact h.notScrap

theorem selects_congr {s t : State} {env : StartEnv} {n : Nat} (same : t.svc.classes = s.svc.classes) (h : Selects s env n) :
    Selects t env n := by
  rw [Selects, State.imgClass, same]
  exact h

/-- With images, service and memory good the whole sequence succeeds, and keeps the life-cycle records (R402). -/
theorem startUp_starts {s : State} {env : StartEnv} (h : Untouched s) (starting : s.glb.run = .starting)
    (images : ∀ n ∈ [0, 1, 2, 3], Selects s env n) (good : rngStartCause s env = none) (trains : Trains env) :
    Started (s.startUp env) ∧ (s.startUp env).lcs.recs = s.lcs.recs := by
  have early := early_configured env h
  have selects (n : Nat) (listed : n ∈ [0, 1, 2, 3]) : Selects (configured s env) env n :=
    selects_congr early.classes (images n listed)
  obtain ⟨imaged, others⟩ := loadClass_selected s.frostStart (selects 0 (by decide))
  have run : (firstLoaded s env).glb.run = .starting := by
    rw [firstLoaded, imaged]
    exact early.run.trans starting
  have later : ∀ n ∈ [1, 2, 3], Selects ((firstLoaded s env).stepDone 3) env n := by
    intro n listed
    have apart : ∀ n ∈ [1, 2, 3], n ≠ 0 ∧ n ∈ [0, 1, 2, 3] := by decide
    obtain ⟨other, among⟩ := apart n listed
    have same : ((firstLoaded s env).stepDone 3).imgClass n = (configured s env).imgClass n := others n other
    rw [Selects, same]
    exact selects n among
  have good' : rngStartCause ((firstLoaded s env).stepDone 3) env = none := by
    rw [rngStartCause_congr (s := s) env ?_, good]
    have src : (firstLoaded s env).rng.src = (configured s env).rng.src := by rw [firstLoaded, imaged]
    exact src.trans early.src
  have recs : (firstLoaded s env).lcs.recs = s.lcs.recs := by
    rw [firstLoaded, imaged]
    exact early.recs
  rw [startUp_eq env (interrupted_of_untouched h), if_neg (recordsRead_lcsCode h), if_neg (by rw [run]; decide)]
  exact ⟨startFrom4_starts _ run later good' trains, (steady_startFrom4 _ env _).recs.trans recs⟩

/-- Where no copy of the secure world's image verifies, a start that is no exit from Frost halts (R403). -/
theorem startUp_halts {s : State} {env : StartEnv} (h : Untouched s) (starting : s.glb.run = .starting)
    (cold : s.frostStart = false)
    (none_ : (s.imgClass 0).select (env.copySel.getD 0 true) (env.copySpare.getD 0 true) = none) :
    (s.startUp env).glb.run = .halted ∧ (s.startUp env).isl.cause = 0x10 := by
  have early := early_configured env h
  have same : (configured s env).imgClass 0 = s.imgClass 0 := by rw [State.imgClass, early.classes]; rfl
  have loaded : firstLoaded s env = (configured s env).noImage 0 := by
    rw [firstLoaded, cold]
    exact loadClass_none (early.run.trans starting) (by rw [same]; exact none_)
  obtain ⟨halted, cause⟩ := noImage_halts (configured s env) 0
  rw [startUp_eq env (interrupted_of_untouched h), if_neg (recordsRead_lcsCode h), loaded, if_pos halted]
  exact ⟨halted, cause⟩

/-! ### A transition that power cut short (R353) -/

/-- A grant that a reset closes, and the flush after it, leave the records and what is staged. -/
theorem closedAndFlushed_lcs (s : State) : (s.closeGrant 3).stagingFlush.lcs.recs = s.lcs.recs ∧
    (s.closeGrant 3).stagingFlush.lcs.staged = s.lcs.staged := by
  rw [stagingFlush_frame]
  unfold State.closeGrant
  split
  · exact ⟨rfl, rfl⟩
  · dsimp only
    rw [logged_record]
    exact ⟨rfl, rfl⟩

theorem takeReset_lcs (s : State) (c : ResetClass) (cause : Nat) :
    (s.takeReset c cause).lcs.recs = s.lcs.recs ∧ (s.takeReset c cause).lcs.staged = s.lcs.staged :=
  closedAndFlushed_lcs s

/-- A commit burns its record whole and leaves nothing staged (R348, Table 15.6). -/
theorem commitTo_lcs (s : State) (from_ to_ rec_ stage : Nat) :
    NMap.find (s.commitTo from_ to_ rec_ stage).lcs.recs rec_ = some { code := to_, ncode := 15 - to_, commit := 3 } ∧
      (s.commitTo from_ to_ rec_ stage).lcs.staged = none := by
  have burned (u : State) : ((u.burn rec_ to_).transRec from_ to_ rec_ stage).lcs = (u.burn rec_ to_).lcs := by
    unfold State.transRec
    rw [logged_record]
  unfold State.commitTo
  dsimp only
  rw [burned]
  exact ⟨find_set_self .., rfl⟩

theorem finishTransition_ends (s : State) (to_ n : Nat) :
    let t := s.finishTransition to_ n
    NMap.find t.lcs.recs n = some { code := to_, ncode := 15 - to_, commit := 3 } ∧ t.lcs.staged = none ∧
      t.pwr.reset = .lifeCycle ∧ t.glb.run = if to_ = 7 then .halted else .starting := by
  obtain ⟨found, unstaged⟩ := commitTo_lcs s s.lcsCode to_ n 3
  obtain ⟨recs, staged⟩ := takeReset_lcs (s.commitTo s.lcsCode to_ n 3) .lifeCycle 0
  rw [← recs] at found
  rw [← staged] at unstaged
  unfold State.finishTransition
  dsimp only
  split
  · exact ⟨found, unstaged, rfl, rfl⟩
  · exact ⟨found, unstaged, rfl, rfl⟩

/-! ### COLD_START -/

/-- The state a cold start begins in: supplies that had fallen make it one of class POWER_ON, counted in PCC (R399, R402). -/
def powered (s : State) : State :=
  if s.pwr.coreSupply && s.pwr.reset != .powerOn then s
  else
    { s with
      glb := { s.glb with pcc := (s.glb.pcc + 1) % 2 ^ 32 }
      led := s.stagingFlush.led
      pwr := { s.pwr with coreSupply := true, reset := .powerOn, resetCause := 0 } }

theorem coldStartBody_starts {s : State} (env : StartEnv) (high : s.pwr.pfwLow = false) (free : s.isl.jtagHold = false)
    (out : s.pwr.ladder ≠ .frost) (starting : s.glb.run = .starting)
    (due : s.pwr.coreSupply = false ∨ (s.pwr.startStep = 0 ∧ s.rng.startFailed = false)) :
    coldStartBody env s = (powered s).startUp env := by
  have begins : (!s.pwr.coreSupply || (s.glb.run = .starting && s.pwr.startStep = 0 && !s.rng.startFailed)) = true := by
    rcases due with h | ⟨step, fresh⟩
    · simp [h]
    · simp [starting, step, fresh]
  unfold coldStartBody
  rw [if_neg (by simp [high, free, out]), if_pos begins]
  rfl

/-- Beside PCC, the Ledger's flush and the class of the start it changes nothing. -/
theorem powered_kept (s : State) :
    (powered s).glb.run = s.glb.run ∧ (powered s).tmp = s.tmp ∧ (powered s).lcs = s.lcs ∧ (powered s).svc = s.svc ∧
      (powered s).rng = s.rng ∧ (powered s).pwr.ladder = s.pwr.ladder ∧ (powered s).pwr.coreSupply = true ∧
      ((powered s).glb.pcc = if s.pwr.coreSupply = true ∧ s.pwr.reset ≠ .powerOn then s.glb.pcc else (s.glb.pcc + 1) % 2 ^ 32) := by
  unfold powered
  cases warm : s.pwr.coreSupply && s.pwr.reset != .powerOn with
  | true =>
    have warm' : s.pwr.coreSupply = true ∧ s.pwr.reset ≠ .powerOn := by simpa using warm
    exact ⟨rfl, rfl, rfl, rfl, rfl, rfl, warm'.1, (if_pos warm').symm⟩
  | false =>
    have cold : ¬ (s.pwr.coreSupply = true ∧ s.pwr.reset ≠ .powerOn) := by simpa using warm
    exact ⟨rfl, rfl, rfl, rfl, rfl, rfl, rfl, (if_neg cold).symm⟩

theorem untouched_powered {s : State} (h : Untouched s) : Untouched (powered s) := by
  obtain ⟨_, tmp, lcs, _⟩ := powered_kept s
  refine ⟨by rw [tmp]; exact h.eraseFail, by rw [tmp]; exact h.stormMark, ?_, ?_⟩
  · rw [State.lcsWhole, lcs]; exact h.whole
  · rw [lcsCode_of_recs (congrArg LifeCycle.recs lcs)]; exact h.notScrap

/-- No start from here is an exit from Frost, unless the reset before it was one. -/
theorem frostStart_powered {s : State} (h : s.pwr.coreSupply = false ∨ s.pwr.reset ≠ .frostExit) :
    (powered s).frostStart = false := by
  unfold powered
  split
  · next warm =>
    have core : s.pwr.coreSupply = true := (Bool.and_eq_true_iff.1 warm).1
    exact decide_eq_false (h.resolve_left (by simp [core]))
  · rfl

theorem coldStart_starts {s : State} {env : StartEnv} (h : Untouched s) (starting : s.glb.run = .starting)
    (out : s.pwr.ladder ≠ .frost) (images : ∀ n ∈ [0, 1, 2, 3], Selects s env n) (good : rngStartCause s env = none)
    (trains : Trains env) :
    let t := (powered s).startUp env
    (Started t ∧ t.lcs.recs = s.lcs.recs) ∧ t.readyPin = true ∧
      t.glb.pcc = if s.pwr.coreSupply = true ∧ s.pwr.reset ≠ .powerOn then s.glb.pcc else (s.glb.pcc + 1) % 2 ^ 32 := by
  obtain ⟨run, _, lcs, svc, rng, ladder, core, pcc⟩ := powered_kept s
  have whole := untouched_powered h
  have clock := clocked_startUp env (interrupted_of_untouched whole)
  obtain ⟨started, recs⟩ := startUp_starts whole (run.trans starting)
    (fun n listed => selects_congr (congrArg Service.classes svc) (images n listed))
    ((rngStartCause_congr env (congrArg Rng.src rng)).trans good) trains
  refine ⟨⟨started, recs.trans (congrArg LifeCycle.recs lcs)⟩, ?_, clock.pcc.trans pcc⟩
  have linked : ((powered s).startUp env).linked = true := by
    rw [State.linked, clock.coreSupply, core, clock.ladder, ladder]
    simpa using out
  have runs := started.serving.running
  rw [State.running] at runs
  rw [State.readyPin, linked, runs]
  rfl

/-- A transition that power cut short is finished by the start, with its own reset (R353). -/
theorem coldStart_finishes {s : State} (env : StartEnv) {to_ n : Nat} (fallen : s.pwr.coreSupply = false)
    (some_ : s.interrupted = some (to_, n)) :
    (powered s).startUp env = (functionUp (powered s)).finishTransition to_ n := by
  have same : (powered s).interrupted = s.interrupted := by
    unfold powered
    rw [fallen]
    rfl
  exact startUp_interrupted env (same.trans some_)

/-! ### The repetitions -/

theorem setCause_frame (s : State) (c : Nat) : ∃ isl, s.setCause c = { s with isl := isl } := by
  unfold State.setCause
  split
  · exact ⟨s.isl, rfl⟩
  · exact ⟨_, rfl⟩

/-- RNG_START_RETRY repeats a start from step 4 (R204). -/
theorem rngRetryBody_repeats {s : State} (env : StartEnv) (failed : s.rng.startFailed = true) (out : s.pwr.ladder ≠ .fog)
    (due : s.rng.startRetry ≤ s.tick) (heard : s.mute = false) (starting : s.glb.run = .starting) :
    rngRetryBody env s = s.startFrom4 env s.frostStart := by
  unfold rngRetryBody
  rw [if_neg (by simp [failed, due, heard]), if_neg (by simp [out]), if_pos starting]

/-- DRAM_TRAINING_RETRY repeats it from step 5 (R432). -/
theorem trainRetryBody_repeats {s : State} (env : StartEnv) (step : s.pwr.startStep = 4) (due : s.pwr.trainRetry ≤ s.tick)
    (heard : s.mute = false) (starting : s.glb.run = .starting) : trainRetryBody env s = s.startFrom5 env s.frostStart := by
  unfold trainRetryBody
  rw [if_pos (by simp [step, due, heard, starting])]

/-- An attempt from step 4 that fails again is repeated 64 ticks later, its cause shown (R204). -/
theorem startFrom4_fails {s : State} {env : StartEnv} {c : Nat} (frost : Bool) (starting : s.glb.run = .starting)
    (bad : rngStartCause s env = some c) :
    let t := s.startFrom4 env frost
    t.rng.startFailed = true ∧ t.rng.startRetry = s.tick + 64 ∧ t.glb.run = .starting ∧ t.isl.cause = c := by
  obtain ⟨u, logged, failed, retry, e⟩ := rngStart_fails bad
  have cause := setCause_cause u c
  obtain ⟨isl, frame⟩ := setCause_frame u c
  have run : u.glb.run = .starting := by rw [logged]; exact starting
  rw [startFrom4_bad frost bad, e]
  rw [frame] at cause ⊢
  exact ⟨failed, retry, run, cause⟩

/-- A channel that does not train leaves step 5 to be repeated 64 ticks later, its cause shown (R432). -/
theorem startFrom5_repeats {s : State} {env : StartEnv} (frost : Bool) (starting : s.glb.run = .starting)
    (fails : env.dram0 = false) :
    let t := s.startFrom5 env frost
    t.pwr.trainRetry = s.tick + 64 ∧ t.glb.run = .starting ∧ t.isl.cause = 0x20 := by
  let u : State := { s with pwr := { s.pwr with trainRetry := s.tick + 64 } }
  have cause := setCause_cause u 0x20
  obtain ⟨isl, frame⟩ := setCause_frame u 0x20
  dsimp only
  rw [startFrom5_fails frost fails]
  rw [frame] at cause ⊢
  exact ⟨rfl, starting, cause⟩

/-- Settles O54: a cold start as it succeeds, halts or finishes a transition, and the two repetitions. -/
theorem startReachesReady : Obligations.StartReachesReady := by
  intro s env starting images dram up cold
  have up_of {t : State} (h : Started t) (recs : t.lcs.recs = s.lcs.recs) : up t :=
    ⟨h.serving.running, h.serving.manager, h.step, h.line, h.serving.configUp, recs⟩
  refine ⟨?_, ?_, fun high free out fallen to_ n some_ => ?_, fun failed out due heard => ⟨fun imgs good trains => ?_,
    fun c bad => ?_⟩, fun step due heard => ⟨fun imgs trains => ?_, fun fails => ?_⟩⟩
  · rintro ⟨high, free, out, due, storm, erase, whole, notScrap⟩ imgs good trains
    obtain ⟨⟨started, recs⟩, pin, pcc⟩ := coldStart_starts ⟨erase, storm, whole, notScrap⟩ starting out imgs good trains
    exact completes_of_body rfl (coldStartBody_starts env high free out starting due) ⟨up_of started recs, pin, pcc⟩
  · rintro ⟨high, free, out, due, storm, erase, whole, notScrap⟩ notFrost none_
    obtain ⟨run, _, _, svc, _⟩ := powered_kept s
    have none_' : ((powered s).imgClass 0).select (env.copySel.getD 0 true) (env.copySpare.getD 0 true) = none := by
      rw [State.imgClass, svc]
      exact none_
    exact completes_of_body rfl (coldStartBody_starts env high free out starting due)
      (startUp_halts (untouched_powered ⟨erase, storm, whole, notScrap⟩) (run.trans starting) (frostStart_powered notFrost) none_')
  · exact completes_of_body rfl ((coldStartBody_starts env high free out starting (.inl fallen)).trans
      (coldStart_finishes env fallen some_)) (finishTransition_ends ..)
  · exact completes_of_body rfl (rngRetryBody_repeats env failed out due heard starting)
      (up_of (startFrom4_starts _ starting imgs good trains) (steady_startFrom4 ..).recs)
  · exact completes_of_body rfl (rngRetryBody_repeats env failed out due heard starting) (startFrom4_fails _ starting bad)
  · exact completes_of_body rfl (trainRetryBody_repeats env step due heard starting)
      (up_of (startFrom5_starts _ starting imgs trains) (steady_startFrom5 ..).recs)
  · exact completes_of_body rfl (trainRetryBody_repeats env step due heard starting) (startFrom5_repeats _ starting fails)

end Sys2Proof.Proofs.ColdStart
end

