-- ==== Sys2Proof/Proofs/LadderExits.lean ====
section
/-! SUPPORT. The exits from Lull, Calm and Fog with the requests held meanwhile (R204, R393, R397), D0 (R398) and the exit from
Frost (R397); O52. -/
namespace Sys2Proof.Proofs.LadderExits
open Sys2Proof Sys2Proof.Machine Sys2Proof.Laws Sys2Proof.Proofs.JobEnd Sys2Proof.Proofs.RandomState
open Sys2Proof.Proofs.StartSequence Sys2Proof.Proofs.ColdStart
open Sys2Proof.Proofs.NoiseSources (reRun_rng)
open Sys2Proof.Proofs.LadderMoves (completes_of_body toGale_frame)

/-! ### The return to Gale -/

/-- The return to Gale in full: the ladder moves, with its TRACE record (R386, R392). -/
theorem drawn_toGale (s : State) (n : Nat) : Drawn s.rng (s.toGale n).rng := by
  let u : State := { s with pwr := { s.pwr with ladder := .gale, exiting := false, wake := n } }
  exact .ite (s := u) (fun _ => .refl _) fun _ => drawn_traceRec u ..

/-- The unit in Gale again, WAKE kept, with nothing held any longer. -/
def awoken (s : State) : State := { s.toGale s.pwr.wake with held := [] }

theorem logged_awoken (s : State) :
    Logged { s with held := [], pwr := { s.pwr with ladder := .gale, exiting := false } } (awoken s) := by
  obtain ⟨pwr, logged⟩ := toGale_frame s s.pwr.wake
  rw [pwr] at logged
  unfold awoken Logged at *
  rw [logged]

/-- What was held is served then, in its order (R393). -/
theorem exitDone_eq (s : State) : s.exitDone = s.held.foldl (fun a c => hostEffect c a) (awoken s) := by
  have held : (s.toGale s.pwr.wake).held = s.held := by rw [(toGale_frame s s.pwr.wake).2]
  unfold State.exitDone State.serveHeld
  rw [held]
  rfl

/-- With nothing held the unit is in Gale again, and that is all. -/
theorem exitDone_empty {s : State} (empty : s.held = []) :
    Logged { s with held := [], pwr := { s.pwr with ladder := .gale, exiting := false } } s.exitDone ∧
      Drawn s.rng s.exitDone.rng := by
  rw [exitDone_eq, empty]
  exact ⟨logged_awoken s, drawn_toGale ..⟩

/-! ### The exit from Fog (R204, R397) -/

theorem exitBody_shallow {s : State} (env : StartEnv) (exiting : s.pwr.exiting = true) (linked : s.linked = true)
    (heard : s.mute = false) (shallow : s.pwr.ladder = .lull ∨ s.pwr.ladder = .calm) : exitBody env s = s.exitDone := by
  unfold exitBody
  rw [if_neg (by simp [exiting, linked, heard])]
  rcases shallow with h | h <;> rw [h]

theorem exitBody_fog {s : State} (env : StartEnv) (exiting : s.pwr.exiting = true) (linked : s.linked = true)
    (heard : s.mute = false) (fog : s.pwr.ladder = .fog) (fresh : s.rng.startFailed = false) :
    exitBody env s = s.fogExit env := by
  unfold exitBody
  rw [if_neg (by simp [exiting, linked, heard]), fog]
  exact if_neg (by simp [fresh])

/-- RUN reads READY again once the source is HEALTHY and an internal instance is sound (R40). -/
theorem reRun_ready {s : State} (healthy : s.rng.es = .healthy) (sound : ∃ n ∈ [0, 1, 2, 3], (s.inst n).st ≠ .fault) :
    s.reRun = s.setRun .ready := by
  obtain ⟨n, listed, out⟩ := sound
  have some_sound : ([0, 1, 2, 3].all fun i => decide ((s.inst i).st = .fault)) = false :=
    List.all_eq_false.2 ⟨n, listed, by simpa using out⟩
  unfold State.reRun
  rw [some_sound, healthy]
  rfl

/-- The service started, and the cause of an earlier failure taken back (R204). -/
def serviceUp (s : State) (env : StartEnv) : State :=
  let u := startHealthy s env
  if 1 ≤ u.isl.cause && u.isl.cause ≤ 4 then u.setCause 0 else u

theorem fogExit_starts {s : State} {env : StartEnv} (good : rngStartCause s env = none) :
    s.fogExit env = (serviceUp s env).reRun.exitDone := by
  unfold State.fogExit
  rw [rngStart_starts good]
  rfl

theorem serviceUp_frame (s : State) (env : StartEnv) : ∃ isl, serviceUp s env = { startHealthy s env with isl := isl } := by
  unfold serviceUp
  dsimp only
  split
  · exact setCause_frame ..
  · exact ⟨_, rfl⟩

/-- RUN as the start of the service leaves it: READY where the unit runs (R40, R393). -/
theorem serviceUp_reRun {s : State} {env : StartEnv} (good : rngStartCause s env = none) :
    (serviceUp s env).reRun = (serviceUp s env).setRun .ready := by
  obtain ⟨isl, frame⟩ := serviceUp_frame s env
  have rng : (serviceUp s env).rng = { (startFilled s env).rng with es := .healthy, intStopNoted := false } := by
    rw [frame]
    exact startHealthy_rng s env
  obtain ⟨n, internal, passed⟩ := internal_passed good
  have low : ∀ n ∈ [0, 1, 2, 3], n < 8 := by decide
  refine reRun_ready (by rw [rng]) ⟨n, internal, ?_⟩
  rw [State.inst, rng]
  exact startFilled_sound s env (low n internal) passed

/-- A value of RUN set where the unit runs: RUN alone changes. -/
theorem setRun_frame (s : State) (r : RunState) :
    (∃ g, s.setRun r = { s with glb := g }) ∧ (s.running = true → (s.setRun r).glb.run = r) := by
  unfold State.setRun
  split
  · exact ⟨⟨_, rfl⟩, fun _ => rfl⟩
  · next off => exact ⟨⟨s.glb, rfl⟩, fun on => absurd on off⟩

/-- The exit from Fog whose service starts ends in Gale with WAKE kept (R393, R397). -/
theorem fogExit_ends {s : State} {env : StartEnv} (good : rngStartCause s env = none) (empty : s.held = []) :
    let t := s.fogExit env
    t.pwr.ladder = .gale ∧ t.pwr.exiting = false ∧ t.pwr.wake = s.pwr.wake ∧ (s.running = true → t.glb.run = .ready) ∧
      t.rng.es = .healthy ∧ t.jobs = s.jobs ∧ t.regs = s.regs := by
  obtain ⟨isl, frame⟩ := serviceUp_frame s env
  have started := logged_startHealthy s env
  have up : (serviceUp s env).pwr = s.pwr ∧ (serviceUp s env).held = s.held ∧ (serviceUp s env).jobs = s.jobs ∧
      (serviceUp s env).regs = s.regs ∧ (serviceUp s env).running = s.running := by
    rw [frame, started]
    exact ⟨rfl, rfl, rfl, rfl, rfl⟩
  obtain ⟨pwr, held, jobs, regs, running⟩ := up
  obtain ⟨⟨g, set⟩, ready⟩ := setRun_frame (serviceUp s env) .ready
  have es : (serviceUp s env).rng.es = .healthy := by
    rw [frame]
    exact congrArg Rng.es (startHealthy_rng s env)
  have empty' : ((serviceUp s env).setRun .ready).held = [] := by rw [set]; exact held.trans empty
  obtain ⟨logged, drawn⟩ := exitDone_empty empty'
  have kept : ((serviceUp s env).setRun .ready).pwr = s.pwr ∧ ((serviceUp s env).setRun .ready).jobs = s.jobs ∧
      ((serviceUp s env).setRun .ready).regs = s.regs ∧ ((serviceUp s env).setRun .ready).rng.es = .healthy := by
    rw [set]
    exact ⟨pwr, jobs, regs, es⟩
  obtain ⟨pwr', jobs', regs', es'⟩ := kept
  have wake : ((serviceUp s env).setRun .ready).pwr.wake = s.pwr.wake := by rw [pwr']
  dsimp only
  rw [fogExit_starts good, serviceUp_reRun good]
  refine ⟨?_, ?_, ?_, fun runs => ?_, drawn.es.trans es', ?_, ?_⟩
  · rw [logged]
  · rw [logged]
  · rw [logged]; exact wake
  · rw [logged]; exact ready (running.trans runs)
  · rw [logged]; exact jobs'
  · rw [logged]; exact regs'

/-- One whose service does not start leaves the unit in Fog, to try again 64 ticks later (R204, R393). -/
theorem fogExit_fails {s : State} {env : StartEnv} {c : Nat} (bad : rngStartCause s env = some c) :
    let t := s.fogExit env
    t.pwr = s.pwr ∧ t.glb.run = s.glb.run ∧ t.rng.startFailed = true ∧ t.rng.startRetry = s.tick + 64 ∧ t.isl.cause = c ∧
      t.held = s.held ∧ t.jobs = s.jobs ∧ t.regs = s.regs := by
  obtain ⟨u, logged, failed, retry, e⟩ := rngStart_fails bad
  have cause := setCause_cause u c
  obtain ⟨isl, frame⟩ := setCause_frame u c
  have run : s.fogExit env = u.setCause c := by
    unfold State.fogExit
    rw [e]
  have kept : u.pwr = s.pwr ∧ u.glb.run = s.glb.run ∧ u.held = s.held ∧ u.jobs = s.jobs ∧ u.regs = s.regs := by
    rw [logged]
    exact ⟨rfl, rfl, rfl, rfl, rfl⟩
  obtain ⟨pwr, glb, held, jobs, regs⟩ := kept
  dsimp only
  rw [run]
  rw [frame] at cause ⊢
  exact ⟨pwr, glb, failed, retry, cause, held, jobs, regs⟩

/-! ### D0 (R398) -/

/-- Held completion words that leave are parts of endings. -/
theorem endStep_wordsOut (s : State) : EndStep s s.wordsOut := by
  refine .foldl (fun a j => ?_) _ s
  unfold State.wordOut
  split
  · split
    · exact .ite (.refl a) ((endStep_issueWord ..).trans (endStep_flushRing ..))
    · exact .refl a
  · exact .refl a

theorem wordsOut_kept (s : State) : s.wordsOut.pwr = s.pwr ∧ s.wordsOut.held = s.held ∧ s.wordsOut.regs = s.regs := by
  rw [(endStep_wordsOut s).changes]
  exact ⟨rfl, rfl, rfl⟩

/-- The function back in D0. -/
def inD0 (s : State) : State := { s with pwr := { s.pwr with d3 := false } }

/-- D0_RETURN by the state of the ladder (R398). -/
theorem d0Body_cases {s : State} (d3 : s.pwr.d3 = true) (linked : s.linked = true) (heard : s.mute = false) :
    (s.pwr.ladder = .fog → d0Body s = (inD0 s).wordsOut.wakeFor 1) ∧
      (s.pwr.ladder = .gale → d0Body s = (inD0 s).wordsOut) ∧
      (s.pwr.ladder ≠ .fog → s.pwr.ladder ≠ .gale → d0Body s = ((inD0 s).toGale 1).wordsOut.serveHeld) := by
  have begins : ¬ (!s.pwr.d3 || s.mute || !s.linked) = true := by simp [d3, linked, heard]
  unfold d0Body
  rw [if_neg begins]
  refine ⟨fun fog => ?_, fun gale => ?_, fun notFog notGale => ?_⟩
  · dsimp only
    split
    · rfl
    · next gale => cases fog.symm.trans gale
    · next notFog _ => exact absurd fog notFog
  · dsimp only
    split
    · next fog => cases gale.symm.trans fog
    · rfl
    · next notGale => exact absurd gale notGale
  · dsimp only
    split
    · next fog => exact absurd fog notFog
    · next gale => exact absurd gale notGale
    · rfl

/-- From Fog a wake begins the exit, or finds it begun (R392). -/
theorem wakeFor_fog {s : State} (n : Nat) (fog : s.pwr.ladder = .fog) :
    (s.wakeFor n).pwr.exiting = true ∧ (s.wakeFor n).pwr.d3 = s.pwr.d3 ∧ (s.wakeFor n).regs = s.regs := by
  unfold State.wakeFor
  rw [fog]
  dsimp only
  split
  · next begun => exact ⟨begun, rfl, rfl⟩
  · exact ⟨rfl, rfl, rfl⟩

/-- D0 lifts D3hot, takes the unit out of Lull and Calm, and begins the exit from Fog (R398). -/
theorem d0Body_returns {s : State} (d3 : s.pwr.d3 = true) (linked : s.linked = true) (heard : s.mute = false)
    (empty : s.held = []) :
    let t := d0Body s
    t.pwr.d3 = false ∧ (s.pwr.ladder = .lull ∨ s.pwr.ladder = .calm → t.pwr.ladder = .gale) ∧
      (s.pwr.ladder = .fog → t.pwr.exiting = true) ∧ t.regs = s.regs := by
  obtain ⟨fromFog, fromGale, fromElse⟩ := d0Body_cases d3 linked heard
  obtain ⟨pwr, _, regs⟩ := wordsOut_kept (inD0 s)
  dsimp only
  by_cases fog : s.pwr.ladder = .fog
  · have deep : (inD0 s).wordsOut.pwr.ladder = .fog := by rw [pwr]; exact fog
    obtain ⟨exiting, d3', regs'⟩ := wakeFor_fog 1 deep
    rw [fromFog fog]
    refine ⟨by rw [d3', pwr]; rfl, ?_, fun _ => exiting, regs'.trans regs⟩
    rw [fog]
    rintro (h | h) <;> cases h
  · by_cases gale : s.pwr.ladder = .gale
    · rw [fromGale gale]
      refine ⟨by rw [pwr]; rfl, fun _ => by rw [pwr]; exact gale, fun h => absurd h fog, regs⟩
    · obtain ⟨gpwr, glogged⟩ := toGale_frame (inD0 s) 1
      obtain ⟨wpwr, wheld, wregs⟩ := wordsOut_kept ((inD0 s).toGale 1)
      have gheld : ((inD0 s).toGale 1).held = [] := by rw [glogged]; exact empty
      have gregs : ((inD0 s).toGale 1).regs = s.regs := by rw [glogged]; rfl
      have served : (((inD0 s).toGale 1).wordsOut).serveHeld = { ((inD0 s).toGale 1).wordsOut with held := [] } := by
        unfold State.serveHeld
        rw [wheld, gheld]
        rfl
      rw [fromElse fog gale, served]
      dsimp only
      rw [wpwr, gpwr, wregs, gregs]
      exact ⟨rfl, fun _ => rfl, fun h => absurd h fog, rfl⟩

/-! ### The exit from Frost (R397) -/

/-- The state in which a start of class FROST_EXIT begins: PCC counts it and STATE_LOST is set (R399). -/
def frostBegun (s : State) : State :=
  { s.cleared with
    glb := { s.cleared.glb with pcc := (s.cleared.glb.pcc + 1) % 2 ^ 32, stateLost := true }
    pwr := { s.cleared.pwr with reset := .frostExit, resetCause := 0, wake := s.pwr.wake } }

theorem frostExitBody_starts {s : State} (env : StartEnv) (frost : s.pwr.ladder = .frost) (exiting : s.pwr.exiting = true)
    (high : s.pwr.pfwLow = false) : frostExitBody env s = (frostBegun s).startUp env := by
  unfold frostExitBody
  rw [if_neg (by simp [frost, exiting, high])]
  rfl

/-- Flash, antifuse and Vault give it the transition that they gave the unit before. -/
theorem interrupted_frostBegun (s : State) : (frostBegun s).interrupted = s.interrupted := rfl

theorem frostExit_starts {s : State} (env : StartEnv) (whole : s.interrupted = none) :
    let t := (frostBegun s).startUp env
    t.glb.stateLost = true ∧ t.glb.pcc = (s.glb.pcc + 1) % 2 ^ 32 ∧ t.pwr.reset = .frostExit ∧ t.pwr.ladder = .gale ∧
      t.glb.optime = s.glb.optime := by
  have clock := clocked_startUp env ((interrupted_frostBegun s).trans whole)
  exact ⟨clock.stateLost, clock.pcc, clock.reset, clock.ladder, clock.optime⟩

/-- Settles O52: the exits from Lull, Calm and Fog, D0, and the exit from Frost. -/
theorem ladderExits : Obligations.LadderExits := by
  refine ⟨fun s env exiting linked heard => ⟨fun shallow => ?_, fun fog fresh good empty => ?_, fun fog fresh c bad => ?_⟩,
    fun s d3 linked heard empty => ?_, fun s env frost exiting high whole => ?_⟩
  · exact completes_of_body rfl (exitBody_shallow env exiting linked heard shallow) ⟨_, logged_awoken s, exitDone_eq s⟩
  · exact completes_of_body rfl (exitBody_fog env exiting linked heard fog fresh) (fogExit_ends good empty)
  · exact completes_of_body rfl (exitBody_fog env exiting linked heard fog fresh) (fogExit_fails bad)
  · exact completes_of_body rfl rfl (d0Body_returns d3 linked heard empty)
  · exact completes_of_body rfl (frostExitBody_starts env frost exiting high) (frostExit_starts env whole)

end Sys2Proof.Proofs.LadderExits
end
